-- ==== Sys2Proof/Word.lean ====
section
/-! DEFINITION. The words of the Z4 and the plainest arithmetic on them (spec 00 R12, R13; 04 R93). -/

/-- A function applied to every entry. -/
def Vector.each {α β : Type} {n : Nat} (v : Vector α n) (f : α → β) : Vector β n := ⟨⟨v.toList.map f⟩, by simp⟩

namespace Sys2Proof

/-- A scalar register, a control register, an address: 64 bits (R48). -/
abbrev W := BitVec 64
/-- One byte of memory. -/
abbrev Byte := BitVec 8
/-- A 5-bit scalar field: 0 is the transient q, 1 to 31 are s1 to s31 (R76). -/
abbrev Sreg := BitVec 5
/-- A 3-bit predicate field (R76). -/
abbrev Preg := BitVec 3
/-- A 5-bit handle field (R76). -/
abbrev Href := BitVec 5
/-- A global cluster index, die * 16 + cluster (R3). -/
abbrev Cl := Fin 64
/-- A strand of a control core (R43). -/
abbrev Sn := Fin 4
/-- A tile of a cluster (R3). -/
abbrev Tl := Fin 8
/-- A compute die (R3). -/
abbrev Die := Fin 4

/-- The issue marks of a non-patch word: the rendezvous bit Z and the gap field (R68). -/
structure Marks where
  z : Bool
  gap : BitVec 2
  deriving DecidableEq, Repr

/-- A word without marks: gap 00 and Z = 0. -/
def Marks.plain : Marks := ⟨false, 0⟩

/-- The engines of a tile, with encodings 0 to 3 (R13). -/
inductive Eng where
  | l | m | v | s
  deriving DecidableEq, Repr

/-- Encoding of an engine (R13). -/
def Eng.code : Eng → Nat
  | .l => 0 | .m => 1 | .v => 2 | .s => 3

/-- The engine of an encoding (R13). -/
def Eng.ofCode (n : Nat) : Eng :=
  if n % 4 = 0 then .l else if n % 4 = 1 then .m else if n % 4 = 2 then .v else .s

/-- The die of a global cluster (R3). -/
def dieOf (c : Cl) : Die := ⟨c.val / 16, by omega⟩

/-- low w bits of v as an unsigned integer (zx of R93). -/
def zx (v w : Nat) : Nat := v % 2 ^ w

/-- low w bits of v as a two's-complement integer (sx of R93). -/
def sx (v w : Nat) : Int :=
  if v % 2 ^ w < 2 ^ (w - 1) then (v % 2 ^ w : Nat) else ((v % 2 ^ w : Nat) : Int) - (2 ^ w : Nat)

/-- A natural number of the given number of bytes, little-endian (R12). -/
def bytesOf : Nat → Nat → List Byte
  | 0, _ => []
  | k + 1, v => BitVec.ofNat 8 v :: bytesOf k (v / 256)

/-- The number that little-endian bytes hold (R12). -/
def ofBytes : List Byte → Nat
  | [] => 0
  | b :: r => b.toNat + 256 * ofBytes r

/-- Bits [lo + len - 1 : lo] of a number. -/
def bits (v lo len : Nat) : Nat := v / 2 ^ lo % 2 ^ len

/-- v with its bits [lo + len - 1 : lo] replaced by x (x is cut to len bits). -/
def setBits (v lo len x : Nat) : Nat :=
  v % 2 ^ lo + (x % 2 ^ len) * 2 ^ lo + v / 2 ^ (lo + len) * 2 ^ (lo + len)

end Sys2Proof
end

