-- ==== Sys2Proof/Config.lean ====
section
/-! DEFINITION. What the spec leaves open: free values, constants without a body (log 5). The step applies them to plain
counters of State, so a statement holds whatever they are. -/

namespace Sys2Proof.Config

/-- A 64-bit value the spec leaves undefined: of event number n, the i-th one (R14, R49, R52, R64). -/
opaque freeWord : Nat → Nat → W
/-- An undefined truth value (R104). -/
opaque freeBool : Nat → Nat → Bool
/-- A choice the spec leaves open, such as the line a fill evicts (R251). -/
opaque choice : Nat → Nat → Nat

/-- Bits of the island's entropy source at event number n (R434, R435). -/
opaque entropy : Nat → BitVec 512
/-- The seed S that the island die's unclonable function yields with helper data (R432). -/
opaque puf : BitVec 8192 → BitVec 256
/-- ML-KEM-1024 (R432, R435): the encapsulation key of a decapsulation key, a key encapsulated with fresh bits, a ciphertext
decapsulated. -/
opaque kemPublic : BitVec 512 → List Byte
opaque kemEncaps : List Byte → BitVec 256 → BitVec 512 → List Byte
opaque kemDecaps : BitVec 512 → List Byte → BitVec 256
/-- AES-256 in GCM mode (R419) under a key: byte i of segment n's key stream, and the tag over a segment's bytes. -/
opaque gcmStream : BitVec 256 → Nat → Nat → Byte
opaque gcmTag : BitVec 256 → List Byte → BitVec 128
/-- The leader's ML-DSA-87 signature over a manifest's hash (R419). -/
opaque leaderSign : BitVec 512 → BitVec 37016

/-- The digest of the island's ROM (R436). -/
opaque romDigest : BitVec 512
/-- The root public key that the island's ROM holds (R430). -/
opaque rootKey : BitVec 20736
/-- ML-DSA-87 (R430 to R432, R437): the public key of a key pair generated from 32 bytes, a signature by that pair, and whether a
signature of a message is one by the pair of a public key. -/
opaque dsaPublic : BitVec 256 → BitVec 20736
opaque dsaSign : BitVec 256 → List Byte → BitVec 37016
opaque dsaVerify : BitVec 20736 → List Byte → BitVec 37016 → Bool

end Sys2Proof.Config
end

