-- ==== Sys2Proof/Machine/Assoc.lean ====
section
/-! DEFINITION. Tables kept as lists of numbered entries: an entry that is not listed has the table's default. -/

namespace Sys2Proof.Machine

/-- The entry of number k. -/
def tabGet {α : Type} (l : List (Nat × α)) (k : Nat) (dflt : α) : α :=
  match l with
  | [] => dflt
  | (i, a) :: r => if i = k then a else tabGet r k dflt

/-- The table with entry k replaced; numbers rise. -/
def tabSet {α : Type} (l : List (Nat × α)) (k : Nat) (v : α) : List (Nat × α) :=
  match l with
  | [] => [(k, v)]
  | (i, a) :: r => if i = k then (k, v) :: r else if k < i then (k, v) :: (i, a) :: r else (i, a) :: tabSet r k v

end Sys2Proof.Machine
end

