-- ==== Sys2Proof/Machine/Records.lean ====
section
/-! DEFINITION. The plain records that steps of the machine carry as operands: what firmware, the host, the fabric and
the board write into the part (spec 11 R308, 12 R338, 13 R358 to R372, 15 R405, 16 R431). -/

namespace Sys2Proof.Machine

/-- A queue descriptor as firmware writes it (R308 Table 1); state, olap and flap are the hardware's. -/
structure QueueDesc where
  base : W
  lgn : Nat
  die : Die
  rp : Fin 8
  qprio : BitVec 8
  ctx : Fin 64
  en : Bool
  mv : Bool
  msi : BitVec 11
  widx : W
  ridx : W
  rmir : W
  deriving DecidableEq, Repr

/-- A peer-window descriptor (R361 Table 2). -/
structure PeerWindow where
  ep : BitVec 12
  win : BitVec 4
  rd : Bool
  wr : Bool
  at_ : Bool
  valid : Bool
  rctx : Fin 64
  rbase : W
  len : Nat
  deriving DecidableEq, Repr

/-- A scope-table entry (R255 Table 3). -/
structure ScopeEntry where
  map : W
  i : Bool
  h : Bool
  f : Bool
  v : Bool
  deriving DecidableEq, Repr

/-- The part of a context record that firmware writes (R338 Table 2, R360 Table 1). -/
structure ContextInit where
  root : W
  dkey : BitVec 9
  pf : BitVec 2
  kf : BitVec 2
  mc : BitVec 2
  cbase : Nat
  ccnt : Nat
  sbase : Nat
  scnt : Nat
  pwt : W
  pwn : Nat
  saveBase : W
  fenceLimit : Nat
  deriving DecidableEq, Repr

/-- A routing-table entry (R358). -/
structure Route where
  v : Bool
  cnt : Fin 4
  prt0 : Fin 16
  prt1 : Fin 16
  prt2 : Fin 16
  prt3 : Fin 16
  deriving DecidableEq, Repr

/-- What a port's retraining came to (R357): all 8 lanes, lanes 0 to 3 only, or down. -/
inductive PortState where
  | down | full | narrow
  deriving DecidableEq, Repr

/-- A combining access of an element (R238): types of D and A, cop, rounding mode, the draw of its lane (R29), saturate and
FTZ choices. -/
structure Combine where
  dty : Nat
  aty : Nat
  cop : Nat
  rm : Nat
  draw : Nat
  sat : Bool
  ftz : Bool
  deriving DecidableEq, Repr

/-- An access at an endpoint (R361 to R363): a read, a write, an atomic with the code of R379 or 10 for cas, a combining
access with the code of A's element, and a write of one half of a byte (an E2M1 element). -/
inductive PeerOp where
  | read (n : Nat)
  | write (bytes : List Byte)
  | amo (op : Fin 11) (y z : W)
  | combine (k : Combine) (a : Nat)
  | nibble (hi : Bool) (code : Nat)
  deriving DecidableEq, Repr

/-- A peer access: source endpoint, the agent there and its class (R244, R365), the context it acts in, whether it came by
the counter window, and the offset with the window's base already added (R362, R363). -/
structure PeerAccess where
  src : BitVec 12
  agent : Nat
  cls : Fin 16
  rctx : Fin 64
  counter : Bool
  addr : W
  op : PeerOp
  deriving DecidableEq, Repr

/-- Traffic that arrives for another endpoint (R358): the port it leaves or arrives by, the endpoint, its class. -/
structure Transit where
  port : Fin 16
  ep : BitVec 12
  cls : Fin 16
  deriving DecidableEq, Repr

/-- A request that only the leader makes, with the term it is sent under (R427, R428). -/
structure FromLeader (α : Type) where
  term : BitVec 32
  what : α
  deriving DecidableEq, Repr

/-- Records that firmware writes which have no step of their own (R256, R338, R344, R360, R363, R368, R405),
and a firmware core's tlbi (R344). -/
inductive TableWrite where
  | scope (ctx : Fin 64) (e : BitVec 5) (r : ScopeEntry)
  | auditor (d : Die) (en : Bool) (k : Nat) (ph : BitVec 20)
  | ageing (ctx : Fin 64) (agc : BitVec 8)
  | policy (ctx : Fin 64) (pf kf mc : BitVec 2)
  | partition (ctx : Fin 64) (cbase ccnt sbase scnt : Nat) (pwt : W) (pwn : Nat)
  | window (ctx : Fin 64) (slot : Fin 64) (w : PeerWindow)
  | admitPeer (ctx : Fin 64) (ep : BitVec 12) (yes : Bool)
  | fenceLimit (ctx : Fin 64) (us : Nat)
  | bufferClear (ctx : Fin 64) (buf : Fin 64)
  | pte (pa : Nat) (v : W)
  | slice (i : Fin 64) (map : Option (Fin 64 × W))
  | rerank (d : Die) (us : Nat)
  | currentLimit (island : Fin 24) (ma : Nat)
  | endpoint (ep : BitVec 12)
  | request (off : Nat) (v : W)
  | certificate (off : Nat)
  | remap (d : Die) (stack : Fin 2) (row spare : Nat)
  | islandTlbi (ctx : Fin 64) (page : Option W)
  | dieTlbi (d : Die) (ctx : Fin 64) (page : Option W)
  deriving DecidableEq, Repr

/-- What an access that meets an error is (R397, R399 Table 2): a consumer of an uncorrectable one, with the address it accesses, an
engine's with its operand too; a read that corrects a single
error of a memory, of another entry of a cluster, of the island; the data cache's own access to a line of it that is bad. -/
inductive Consumer where
  | strand (c : Cl) (k : Sn) (addr : W)
  | engine (c : Cl) (t : Tl) (e : Eng) (operand : Fin 3) (addr : W)
  | copy (q : Nat) (addr : W)
  | trigger (slot : Nat) (addr : W)
  | corrected
  | correctedEntry (c : Cl)
  | correctedIsland
  | cacheLine (c : Cl)
  deriving DecidableEq, Repr

/-- A source whose translation firmware resolves or leaves unresolved (R311, R314, R321, R335, R347, R368). -/
inductive FaultSource where
  | queue (q : Nat)
  | mirror (q : Nat)
  | record (launch : Nat)
  | copy (q : Nat)
  | chain (slot : Nat)
  | move (c : Cl) (k : Sn)
  | host
  | peer
  | placement (d : Die)
  | admission (d : Die)
  deriving DecidableEq, Repr

/-- An agent that has entered a fault for firmware (R346): such a source; or a strand's access, or an engine's element, to a
window of the module's own endpoint, which tries again by itself (R361, R363). -/
inductive FaultAgent where
  | source (f : FaultSource)
  | access (c : Cl) (k : Sn)
  | element (c : Cl) (t : Tl) (e : Eng)
  deriving DecidableEq, Repr

/-- What a trigger source names (R372 sk, sdie, sep; R375). -/
inductive TrigSource where
  | die (d : Die)
  | endpoint (ep : BitVec 12)
  deriving DecidableEq, Repr

/-- A 1588 correction (R369): a step, allowed only before the first launch, or a slew in parts per million. -/
inductive TimeAdjust where
  | step (ns : W) (frac : BitVec 32)
  | slew (ppm : Int) (offset : BitVec 32)
  | locked (yes : Bool)
  deriving DecidableEq, Repr

/-- The signed configuration record in flash (R431 Table 7), field by field in the order of its bytes. -/
structure ConfigRecord where
  magic : BitVec 32
  format : BitVec 16
  res0 : BitVec 16
  security : W
  part : BitVec 128
  serial : BitVec 128
  clusterDisable : W
  bins : BitVec 128
  res1 : BitVec 448
  tileDisable : BitVec 512
  imageHash : BitVec 512
  helper : BitVec 8192
  cert : BitVec 65536
  sig : BitVec 37016
  deriving DecidableEq, Repr

/-- The alias certificate (R432, R435): the alias public key, measurement registers 0 to 2 that it is bound to, the module's
encapsulation key, and the identity key's signature. -/
structure AliasCert where
  pub : BitVec 20736
  regs : List (BitVec 512)
  ek : List Byte
  sig : BitVec 37016
  deriving DecidableEq, Repr

/-- What hardware errors changed in the signatures of an audited block (R407, R408): the block's own, that of the first
replay, that of the second; zero where nothing went wrong. -/
structure AuditInput where
  own : BitVec 64
  first : BitVec 64
  second : BitVec 64
  deriving DecidableEq, Repr

/-- A checkpoint's request (R417, R427, R435): the leader's term, the peer windows it streams to, and the key under which its own key is encapsulated. -/
structure CkptRequest where
  term : BitVec 32
  tier : List (BitVec 12 × BitVec 4)
  ek : List Byte
  deriving DecidableEq, Repr

/-- What comes with a restore (R420, R427, R435): the leader's term; the checkpoint key, encapsulated to this module's own key; and
what was changed on the way of each segment's tag (by its place), of the manifest's hash and of its signature: zero where
nothing was. -/
structure RestoreInput where
  term : BitVec 32
  enc : List Byte
  tagErr : List (Nat × BitVec 128)
  hashErr : BitVec 512
  sigErr : BitVec 37016
  deriving DecidableEq, Repr

/-- The lease record (R428 Table 6). -/
structure LeaseRecord where
  holder : BitVec 3
  v : Bool
  ph : BitVec 2
  term : BitVec 32
  expiry : W
  ver : W
  stg : W
  deriving DecidableEq, Repr

/-- A firmware update as the leader is given it (R438): the record, and the image that comes with it. -/
structure Update where
  record : ConfigRecord
  image : List Byte
  deriving DecidableEq, Repr

/-- What a die's boot checks came to (R423). -/
structure DieBoot where
  die : Die
  passed : Bool
  deriving DecidableEq, Repr

/-- Where a released or drained die goes (R423). -/
inductive DieGoal where
  | off | reset
  deriving DecidableEq, Repr

end Sys2Proof.Machine
end

