-- ==== Sys2Proof/Syntax.lean ====
section
/-! DEFINITION. The instructions of the Z4: one constructor for each row of spec/opcode_table.json. 191 of them are
instruction words (03 R71 to R81); the rest are the engine operators (07) and the steps of the machine (95). Operand
fields keep their encodings (R76, R77); m holds the issue marks of R68. An event names what it happens to: c a cluster,
k a strand, t a tile, e an engine, j the position in a list of things under way. -/

namespace Sys2Proof

open Machine in
/-- The opcode table (03 R78, R79; 95). -/
inductive Instr where
  | nop (m : Marks)
  | xrd (m : Marks) (d : Sreg) (xr : BitVec 8)
  | xwr (m : Marks) (a : Sreg) (xr : BitVec 8)
  | xset (m : Marks) (a : Sreg) (xr : BitVec 8)
  | xclr (m : Marks) (a : Sreg) (xr : BitVec 8)
  | svc (m : Marks) (n : BitVec 8)
  | brk (m : Marks) (n : BitVec 8)
  | eret (m : Marks)
  | tlbi (m : Marks) (a : Sreg) (kind : BitVec 8)
  | add (m : Marks) (d : Sreg) (a : Sreg) (b : Sreg)
  | sub (m : Marks) (d : Sreg) (a : Sreg) (b : Sreg)
  | mul (m : Marks) (d : Sreg) (a : Sreg) (b : Sreg)
  | mulh (m : Marks) (d : Sreg) (a : Sreg) (b : Sreg)
  | mulhu (m : Marks) (d : Sreg) (a : Sreg) (b : Sreg)
  | div (m : Marks) (d : Sreg) (a : Sreg) (b : Sreg)
  | divu (m : Marks) (d : Sreg) (a : Sreg) (b : Sreg)
  | rem (m : Marks) (d : Sreg) (a : Sreg) (b : Sreg)
  | remu (m : Marks) (d : Sreg) (a : Sreg) (b : Sreg)
  | and (m : Marks) (d : Sreg) (a : Sreg) (b : Sreg)
  | or (m : Marks) (d : Sreg) (a : Sreg) (b : Sreg)
  | xor (m : Marks) (d : Sreg) (a : Sreg) (b : Sreg)
  | andn (m : Marks) (d : Sreg) (a : Sreg) (b : Sreg)
  | shl (m : Marks) (d : Sreg) (a : Sreg) (b : Sreg)
  | shr (m : Marks) (d : Sreg) (a : Sreg) (b : Sreg)
  | sra (m : Marks) (d : Sreg) (a : Sreg) (b : Sreg)
  | min (m : Marks) (d : Sreg) (a : Sreg) (b : Sreg)
  | max (m : Marks) (d : Sreg) (a : Sreg) (b : Sreg)
  | minu (m : Marks) (d : Sreg) (a : Sreg) (b : Sreg)
  | maxu (m : Marks) (d : Sreg) (a : Sreg) (b : Sreg)
  | clz (m : Marks) (d : Sreg) (a : Sreg)
  | ctz (m : Marks) (d : Sreg) (a : Sreg)
  | popc (m : Marks) (d : Sreg) (a : Sreg)
  | addi (m : Marks) (d : Sreg) (a : Sreg) (i : BitVec 13)
  | andi (m : Marks) (d : Sreg) (a : Sreg) (i : BitVec 13)
  | ori (m : Marks) (d : Sreg) (a : Sreg) (i : BitVec 13)
  | xori (m : Marks) (d : Sreg) (a : Sreg) (i : BitVec 13)
  | shli (m : Marks) (d : Sreg) (a : Sreg) (sh : BitVec 6)
  | shri (m : Marks) (d : Sreg) (a : Sreg) (sh : BitVec 6)
  | srai (m : Marks) (d : Sreg) (a : Sreg) (sh : BitVec 6)
  | li (m : Marks) (d : Sreg) (i : BitVec 18)
  | lih (m : Marks) (d : Sreg) (i : BitVec 18)
  | cmpEq (m : Marks) (p : Preg) (a : Sreg) (b : Sreg)
  | cmpNe (m : Marks) (p : Preg) (a : Sreg) (b : Sreg)
  | cmpLt (m : Marks) (p : Preg) (a : Sreg) (b : Sreg)
  | cmpGe (m : Marks) (p : Preg) (a : Sreg) (b : Sreg)
  | cmpLtu (m : Marks) (p : Preg) (a : Sreg) (b : Sreg)
  | cmpGeu (m : Marks) (p : Preg) (a : Sreg) (b : Sreg)
  | cmpiEq (m : Marks) (p : Preg) (a : Sreg) (i : BitVec 10)
  | cmpiNe (m : Marks) (p : Preg) (a : Sreg) (i : BitVec 10)
  | cmpiLt (m : Marks) (p : Preg) (a : Sreg) (i : BitVec 10)
  | cmpiGe (m : Marks) (p : Preg) (a : Sreg) (i : BitVec 10)
  | cmpiLtu (m : Marks) (p : Preg) (a : Sreg) (i : BitVec 10)
  | cmpiGeu (m : Marks) (p : Preg) (a : Sreg) (i : BitVec 10)
  | pand (m : Marks) (d : Preg) (a : Preg) (b : Preg)
  | por (m : Marks) (d : Preg) (a : Preg) (b : Preg)
  | pxor (m : Marks) (d : Preg) (a : Preg) (b : Preg)
  | pandn (m : Marks) (d : Preg) (a : Preg) (b : Preg)
  | pmov (m : Marks) (d : Preg) (a : Preg)
  | psave (m : Marks) (d : Sreg)
  | pload (m : Marks) (a : Sreg)
  | fadd (m : Marks) (d : Sreg) (a : Sreg) (b : Sreg)
  | fsub (m : Marks) (d : Sreg) (a : Sreg) (b : Sreg)
  | fmul (m : Marks) (d : Sreg) (a : Sreg) (b : Sreg)
  | fdiv (m : Marks) (d : Sreg) (a : Sreg) (b : Sreg)
  | fsqrt (m : Marks) (d : Sreg) (a : Sreg)
  | fmin (m : Marks) (d : Sreg) (a : Sreg) (b : Sreg)
  | fmax (m : Marks) (d : Sreg) (a : Sreg) (b : Sreg)
  | fabs (m : Marks) (d : Sreg) (a : Sreg)
  | fneg (m : Marks) (d : Sreg) (a : Sreg)
  | fsgnj (m : Marks) (d : Sreg) (a : Sreg) (b : Sreg)
  | fclass (m : Marks) (d : Sreg) (a : Sreg)
  | fcmpEq (m : Marks) (p : Preg) (a : Sreg) (b : Sreg)
  | fcmpLt (m : Marks) (p : Preg) (a : Sreg) (b : Sreg)
  | fcmpLe (m : Marks) (p : Preg) (a : Sreg) (b : Sreg)
  | fcmpUn (m : Marks) (p : Preg) (a : Sreg) (b : Sreg)
  | fma (m : Marks) (d : Sreg) (a : Sreg) (b : Sreg) (c : Sreg)
  | br (m : Marks) (p : Preg) (sense : Bool) (disp : BitVec 19)
  | jmp (m : Marks) (i : BitVec 22)
  | call (m : Marks) (i : BitVec 22)
  | jmpr (m : Marks) (a : Sreg)
  | callr (m : Marks) (a : Sreg)
  | ret (m : Marks)
  | halt (m : Marks)
  | loop (m : Marks) (lv : Bool) (a : Sreg) (fin : BitVec 13)
  | loopi (m : Marks) (lv : Bool) (cnt : BitVec 11) (fin : BitVec 10)
  | rep (m : Marks) (a : Sreg) (sd : BitVec 3) (sa : BitVec 3) (sb : BitVec 3)
  | repImm (m : Marks) (cnt : BitVec 9) (sd : BitVec 3) (sa : BitVec 3) (sb : BitVec 3)
  | repIteration
  | ldB (m : Marks) (d : Sreg) (a : Sreg) (cls : BitVec 4) (off : BitVec 6)
  | ldBu (m : Marks) (d : Sreg) (a : Sreg) (cls : BitVec 4) (off : BitVec 6)
  | ldH (m : Marks) (d : Sreg) (a : Sreg) (cls : BitVec 4) (off : BitVec 6)
  | ldHu (m : Marks) (d : Sreg) (a : Sreg) (cls : BitVec 4) (off : BitVec 6)
  | ldW (m : Marks) (d : Sreg) (a : Sreg) (cls : BitVec 4) (off : BitVec 6)
  | ldWu (m : Marks) (d : Sreg) (a : Sreg) (cls : BitVec 4) (off : BitVec 6)
  | ldD (m : Marks) (d : Sreg) (a : Sreg) (cls : BitVec 4) (off : BitVec 6)
  | stB (m : Marks) (d : Sreg) (a : Sreg) (cls : BitVec 4) (off : BitVec 6)
  | stH (m : Marks) (d : Sreg) (a : Sreg) (cls : BitVec 4) (off : BitVec 6)
  | stW (m : Marks) (d : Sreg) (a : Sreg) (cls : BitVec 4) (off : BitVec 6)
  | stD (m : Marks) (d : Sreg) (a : Sreg) (cls : BitVec 4) (off : BitVec 6)
  | ldqB (m : Marks) (d : Sreg) (a : Sreg) (cls : BitVec 4) (off : BitVec 6)
  | ldqBu (m : Marks) (d : Sreg) (a : Sreg) (cls : BitVec 4) (off : BitVec 6)
  | ldqH (m : Marks) (d : Sreg) (a : Sreg) (cls : BitVec 4) (off : BitVec 6)
  | ldqHu (m : Marks) (d : Sreg) (a : Sreg) (cls : BitVec 4) (off : BitVec 6)
  | ldqW (m : Marks) (d : Sreg) (a : Sreg) (cls : BitVec 4) (off : BitVec 6)
  | ldqWu (m : Marks) (d : Sreg) (a : Sreg) (cls : BitVec 4) (off : BitVec 6)
  | ldqD (m : Marks) (d : Sreg) (a : Sreg) (cls : BitVec 4) (off : BitVec 6)
  | ldqAcq (m : Marks) (d : Sreg) (a : Sreg) (scope : BitVec 5)
  | stRel (m : Marks) (d : Sreg) (a : Sreg) (scope : BitVec 5)
  | pop (m : Marks)
  | amoAdd (m : Marks) (d : Sreg) (a : Sreg) (b : Sreg) (scope : BitVec 5)
  | amoAnd (m : Marks) (d : Sreg) (a : Sreg) (b : Sreg) (scope : BitVec 5)
  | amoOr (m : Marks) (d : Sreg) (a : Sreg) (b : Sreg) (scope : BitVec 5)
  | amoXor (m : Marks) (d : Sreg) (a : Sreg) (b : Sreg) (scope : BitVec 5)
  | amoMin (m : Marks) (d : Sreg) (a : Sreg) (b : Sreg) (scope : BitVec 5)
  | amoMax (m : Marks) (d : Sreg) (a : Sreg) (b : Sreg) (scope : BitVec 5)
  | amoMinu (m : Marks) (d : Sreg) (a : Sreg) (b : Sreg) (scope : BitVec 5)
  | amoMaxu (m : Marks) (d : Sreg) (a : Sreg) (b : Sreg) (scope : BitVec 5)
  | cas (m : Marks) (d : Sreg) (a : Sreg) (b : Sreg) (scope : BitVec 5)
  | amoSwap (m : Marks) (d : Sreg) (a : Sreg) (b : Sreg) (scope : BitVec 5)
  | amoBadd (m : Marks) (d : Sreg) (a : Sreg) (b : Sreg) (scope : BitVec 5)
  | fence (m : Marks) (cmask : BitVec 16) (scope : BitVec 5)
  | semWait (m : Marks) (t : BitVec 3) (k : BitVec 5) (cnt : BitVec 9) (lim : BitVec 4)
  | semPost (m : Marks) (t : BitVec 3) (k : BitVec 5) (cnt : BitVec 9)
  | semRd (m : Marks) (t : BitVec 3) (k : BitVec 5) (d : Sreg)
  | ringDecl (m : Marks) (t : BitVec 3) (g : BitVec 5) (h : BitVec 5) (ns : BitVec 8)
  | ringWait (m : Marks) (t : BitVec 3) (g : BitVec 5) (cnt : BitVec 9) (lim : BitVec 4)
  | ringRel (m : Marks) (t : BitVec 3) (g : BitVec 5) (cnt : BitVec 9)
  | ringWp (m : Marks) (t : BitVec 3) (g : BitVec 5) (d : Sreg)
  | barArrive (m : Marks) (b : BitVec 4)
  | barWait (m : Marks) (b : BitVec 4) (lim : BitVec 4)
  | barSync (m : Marks) (b : BitVec 4) (lim : BitVec 4)
  | waitvEq (m : Marks) (dw : Bool) (a : Sreg) (b : Sreg) (lim : BitVec 4)
  | waitvNe (m : Marks) (dw : Bool) (a : Sreg) (b : Sreg) (lim : BitVec 4)
  | waitvLt (m : Marks) (dw : Bool) (a : Sreg) (b : Sreg) (lim : BitVec 4)
  | waitvGe (m : Marks) (dw : Bool) (a : Sreg) (b : Sreg) (lim : BitVec 4)
  | waitvLtu (m : Marks) (dw : Bool) (a : Sreg) (b : Sreg) (lim : BitVec 4)
  | waitvGeu (m : Marks) (dw : Bool) (a : Sreg) (b : Sreg) (lim : BitVec 4)
  | waitvReread (c : Cl) (k : Sn)
  | tmask (m : Marks) (a : Sreg)
  | epatch (m : Marks) (e : BitVec 2) (t : BitVec 6) (f : BitVec 5) (go : Bool) (a : Sreg)
  | ebind (m : Marks) (e : BitVec 2) (t : BitVec 6) (h : BitVec 5) (slot : BitVec 2)
  | eissue (m : Marks) (e : BitVec 2) (t : BitVec 6)
  | efence (m : Marks) (e : BitVec 2) (all : Bool) (lim : BitVec 4)
  | egen (m : Marks) (d : Sreg)
  | estat (m : Marks) (e : BitVec 2) (d : Sreg) (tile : BitVec 3)
  | tmplLd (m : Marks) (e : BitVec 2) (t : BitVec 6) (a : Sreg)
  | tmplSt (m : Marks) (e : BitVec 2) (t : BitVec 6) (a : Sreg)
  | hLd (m : Marks) (h : BitVec 5) (x : Sreg) (cls : BitVec 4)
  | hSt (m : Marks) (h : BitVec 5) (x : Sreg) (cls : BitVec 4)
  | hSet (m : Marks) (h : BitVec 5) (x : Sreg) (f : BitVec 4)
  | hGet (m : Marks) (h : BitVec 5) (x : Sreg) (f : BitVec 4)
  | hAdv (m : Marks) (h : BitVec 5) (x : Sreg) (f : BitVec 4)
  | hMov (m : Marks) (h : BitVec 5) (x : Sreg)
  | hClr (m : Marks) (h : BitVec 5)
  | xlate (m : Marks) (a : Sreg) (wr : Bool)
  | xlateDeliver (c : Cl) (k : Sn) (j : Nat)
  | spawn (m : Marks) (a : Sreg) (b : Sreg)
  | taskDone (m : Marks)
  | validSet (m : Marks) (a : Sreg)
  | trigPost (m : Marks) (d : Sreg) (a : Sreg) (b : Sreg)
  | trigCancel (m : Marks) (d : Sreg) (b : Sreg)
  | trigQuery (m : Marks) (d : Sreg) (b : Sreg)
  | ctrAdd (m : Marks) (a : Sreg) (b : Sreg)
  | ctrRd (m : Marks) (d : Sreg) (a : Sreg)
  | remSt (m : Marks) (d : Sreg) (a : Sreg) (b : Sreg)
  | remSig (m : Marks) (a : Sreg) (b : Sreg)
  | remAmoAdd (m : Marks) (d : Sreg) (a : Sreg) (b : Sreg)
  | remAmoAnd (m : Marks) (d : Sreg) (a : Sreg) (b : Sreg)
  | remAmoOr (m : Marks) (d : Sreg) (a : Sreg) (b : Sreg)
  | remAmoXor (m : Marks) (d : Sreg) (a : Sreg) (b : Sreg)
  | remAmoMin (m : Marks) (d : Sreg) (a : Sreg) (b : Sreg)
  | remAmoMax (m : Marks) (d : Sreg) (a : Sreg) (b : Sreg)
  | remAmoMinu (m : Marks) (d : Sreg) (a : Sreg) (b : Sreg)
  | remAmoMaxu (m : Marks) (d : Sreg) (a : Sreg) (b : Sreg)
  | remAmoSwap (m : Marks) (d : Sreg) (a : Sreg) (b : Sreg)
  | remAmoBadd (m : Marks) (d : Sreg) (a : Sreg) (b : Sreg)
  | rdtick (m : Marks) (d : Sreg)
  | rdframe (m : Marks) (d : Sreg)
  | rdtime (m : Marks) (d : Sreg)
  | enter (m : Marks) (n : BitVec 18)
  | leave (m : Marks) (n : BitVec 18)
  | bfx (m : Marks) (d : Sreg) (a : Sreg) (pos : BitVec 6) (len : BitVec 6)
  | bfi (m : Marks) (d : Sreg) (a : Sreg) (pos : BitVec 6) (len : BitVec 6)
  | sel (m : Marks) (d : Sreg) (a : Sreg) (b : Sreg) (p : Preg) (sense : Bool)
  | madd (m : Marks) (d : Sreg) (a : Sreg) (b : Sreg) (c : Sreg)
  | cvtIF (m : Marks) (d : Sreg) (a : Sreg) (u : Bool) (rm : BitVec 3)
  | cvtFI (m : Marks) (d : Sreg) (a : Sreg) (u : Bool) (rm : BitVec 3)
  | cvtFBf (m : Marks) (d : Sreg) (a : Sreg) (rm : BitVec 3)
  | cvtBfF (m : Marks) (d : Sreg) (a : Sreg) (rm : BitVec 3)
  | hint (m : Marks) (hh : BitVec 2) (v : BitVec 23)
  | pwL (t : BitVec 6) (go : Bool) (f : BitVec 5) (v : BitVec 16)
  | pwM (t : BitVec 6) (go : Bool) (f : BitVec 5) (v : BitVec 16)
  | pwV (t : BitVec 6) (go : Bool) (f : BitVec 5) (v : BitVec 16)
  | pwS (t : BitVec 6) (go : Bool) (f : BitVec 5) (v : BitVec 16)
  | resultLand (c : Cl) (k : Sn) (j : Nat)
  | gapEnd (c : Cl) (k : Sn)
  | switchAwayEnd (c : Cl) (k : Sn)
  | storePerform (c : Cl) (k : Sn) (j : Nat)
  | farAccessComplete (c : Cl) (k : Sn) (j : Nat)
  | farAccessRefused (c : Cl) (k : Sn) (j : Nat)
  | farAccessTranslationFault (c : Cl) (k : Sn) (j : Nat)
  | flqRestart (c : Cl) (k : Sn)
  | waitExpiry (c : Cl) (k : Sn)
  | tileTick (c : Cl) (t : Tl)
  | hostMailboxWrite (c : Cl) (i : Fin 8) (v : W)
  | mailboxInterrupt (c : Cl) (k : Sn)
  | asyncTrapDelivery (c : Cl) (k : Sn)
  | firmwareResume (c : Cl) (k : Sn)
  | firmwareReflect (c : Cl) (k : Sn)
  | templateTick (c : Cl) (t : Tl)
  | blockStart (c : Cl) (t : Tl) (e : Eng)
  | blockComplete (c : Cl) (t : Tl) (e : Eng)
  | scheduleMiss (c : Cl) (t : Tl) (e : Eng)
  | engineFaultResume (c : Cl) (t : Tl) (e : Eng)
  | matrixRowLand (c : Cl) (t : Tl)
  | reductionLand (c : Cl) (t : Tl)
  | tmplLdWrite (c : Cl) (t : Tl)
  | mma (c : Cl) (t : Tl)
  | mmaZ (c : Cl) (t : Tl)
  | mmaChain (c : Cl) (t : Tl)
  | wload (c : Cl) (t : Tl)
  | accZero (c : Cl) (t : Tl)
  | accLd (c : Cl) (t : Tl)
  | vAdd (c : Cl) (t : Tl)
  | vSub (c : Cl) (t : Tl)
  | vMul (c : Cl) (t : Tl)
  | vFma (c : Cl) (t : Tl)
  | vMin (c : Cl) (t : Tl)
  | vMax (c : Cl) (t : Tl)
  | vAbs (c : Cl) (t : Tl)
  | vNeg (c : Cl) (t : Tl)
  | clamp (c : Cl) (t : Tl)
  | vCvt (c : Cl) (t : Tl)
  | scale (c : Cl) (t : Tl)
  | cmpsel (c : Cl) (t : Tl)
  | redsum (c : Cl) (t : Tl)
  | redmax (c : Cl) (t : Tl)
  | redmin (c : Cl) (t : Tl)
  | scan (c : Cl) (t : Tl)
  | bcast (c : Cl) (t : Tl)
  | perm (c : Cl) (t : Tl)
  | qblk (c : Cl) (t : Tl)
  | dqblk (c : Cl) (t : Tl)
  | accRd (c : Cl) (t : Tl)
  | tload (c : Cl) (t : Tl)
  | tint (c : Cl) (t : Tl)
  | exp2 (c : Cl) (t : Tl)
  | rcp (c : Cl) (t : Tl)
  | rsqrt (c : Cl) (t : Tl)
  | bucket (c : Cl) (t : Tl)
  | hashcell (c : Cl) (t : Tl)
  | iota (c : Cl) (t : Tl)
  | sortnet (c : Cl) (t : Tl)
  | emit (c : Cl) (t : Tl)
  | copy (c : Cl) (t : Tl) (e : Eng)
  | gather (c : Cl) (t : Tl) (e : Eng)
  | scatter (c : Cl) (t : Tl) (e : Eng)
  | scatterBkt (c : Cl) (t : Tl) (e : Eng)
  | fill (c : Cl) (t : Tl) (e : Eng)
  | acopy (c : Cl) (t : Tl) (e : Eng)
  | signal (c : Cl) (t : Tl) (e : Eng)
  | prefetch (c : Cl) (t : Tl) (e : Eng)
  | ctrPost (c : Cl) (t : Tl) (e : Eng)
  | auditReplay (d : Die) (r : AuditInput)
  | deviceTick
  | xframeAdvance (c : Cl)
  | fabricTimeTick
  | queueTake (q : Fin 1024)
  | launchPacket (q : Fin 1024)
  | copyPacket (q : Fin 1024)
  | noOpPacket (q : Fin 1024)
  | rerank (d : Die)
  | admission (d : Die)
  | placement (d : Die)
  | spillReturn (d : Die)
  | gangRelease (g : Nat)
  | reefPoint (l : Nat)
  | reefDiversion (l : Nat)
  | reefBudgetExpiry (l : Nat)
  | completionRecordWrite (l : Nat)
  | queueTableWrite (q : Fin 1024) (r : FromLeader QueueDesc)
  | rankProgramInstall (d : Die) (slot : Fin 8) (ws : List (BitVec 32))
  | firmwareTableWrite (w : FromLeader TableWrite)
  | contextCreate (x : Fin 64) (r : FromLeader ContextInit)
  | contextKill (x : FromLeader (Fin 64))
  | killComplete (x : Fin 64)
  | nodeBoundaryRequest (g : Nat)
  | yieldPointSave (g : Nat)
  | generationFenceRequest (g : Nat)
  | fenceSnapshot (g : Nat)
  | fenceAbandon (g : Nat)
  | gangRestore (g : Nat) (cl : List Cl)
  | peerAccessArrive (a : PeerAccess)
  | routeUpdate (ep : BitVec 12) (r : FromLeader Route)
  | portRetrain (p : Fin 16) (st : PortState)
  | flitResend (p : Fin 16)
  | counterAddition (n : BitVec 13) (v : W)
  | chainActionComplete (slot : BitVec 14)
  | triggerOrphan (src : TrigSource)
  | ptpMessage (a : TimeAdjust)
  | hostRead (a : W) (n : Nat)
  | hostWrite (a : W) (bs : List Byte) (ro : Bool)
  | hostFetchadd (a : W) (n : Nat) (v : W)
  | hostCas (a : W) (n : Nat) (x y : W)
  | supersededBitsRead (c : Cl)
  | poisonConsumption (x : Consumer) (pa : Nat)
  | purge (x : Fin 64) (tag : BitVec 16)
  | purgeComplete (x : Fin 64) (tag : BitVec 16)
  | tableScrub
  | dieFence (d : Die)
  | masterReplace
  | queueReset (q : FromLeader (Fin 1024))
  | queueResetComplete (q : Fin 1024)
  | clusterRetest (c : Cl) (pass : Bool)
  | checkpointRequest (r : CkptRequest)
  | checkpointStream
  | checkpointResume
  | checkpointRestore (image : Nat) (r : RestoreInput)
  | powerApply
  | powerRemove
  | islandResetRequest
  | drainEnd
  | diePowerOn (d : Die)
  | dieResetRelease (d : Die)
  | dieBootComplete (b : DieBoot)
  | dieDrain (d : Die) (g : DieGoal)
  | dieDrainComplete (d : Die)
  | powerSample (ma mm : List Nat)
  | powerBudgetWrite (w : Nat)
  | coldPlateAlarm (on : Bool)
  | idleClockGate (c : Cl)
  | idlePowerGate (c : Cl)
  | leaseRenew (f : Fin 5)
  | leaseCheck (f : Fin 5)
  | leaseCas (old new : LeaseRecord)
  | leaseVacate
  | firmwarePrepare (f : Fin 5) (ver : W) (u : Update)
  | firmwareCommit (f : Fin 5)
  | quoteRequest (nonce : BitVec 512)
  | measurementExtend (r : FromLeader (Fin 8)) (dg : BitVec 512)
  | keyAssign (x : Fin 64) (i : FromLeader (Fin 512))
  | keyRetire (i : FromLeader (Fin 512))
  | keyRetireComplete (i : Fin 512)
  | unassignedEncoding
  | transitTraffic (m : Transit)
  | islandAgentFaultResolved (f : FaultSource)
  | faultLeftUnresolved (f : FaultSource)
  | faultPolicyEndLaunch (l : Nat)
  | remStComplete (c : Cl) (k : Sn) (j : Nat)
  | fencedDieReset (d : Die) (g : Option DieGoal)
  | firmwareSwitch (f : Fin 5)
  deriving DecidableEq, Repr

end Sys2Proof
end

