-- ==== Sys2Proof/Machine/CoreState.lean ====
section
/-! DEFINITION. The plain data of a strand and of a control core (02 R43 to R70, 05 R127 to R163, 09 R272 to R297). -/

namespace Sys2Proof.Machine

/-- Strand states (R44). -/
inductive StrandState where
  | idle | run | handler | halted
  deriving DecidableEq, Repr

/-- What a result in flight lands in (R63, R104): a scalar register or q, a set of predicates, or nothing (a compare
into p0, whose flags still land). -/
inductive Dest where
  | reg (f : Sreg)
  | preds (mask : BitVec 8)
  | nothing
  deriving DecidableEq, Repr

/-- A result in flight (R64): where it lands, the core cycle its bound passes, the FP32 flags it lands (R58), the core cycle of
its word's issue. -/
structure Flight where
  dest : Dest
  due : Nat
  fl : Option (BitVec 5)
  born : Nat
  deriving DecidableEq, Repr

/-- How a control-register write combines with the register (R160). -/
inductive CtlOp where
  | write | set | clear
  deriving DecidableEq, Repr

/-- A control-register write under way: it takes effect at core cycle due (R56). -/
structure CtlWrite where
  due : Nat
  num : BitVec 8
  op : CtlOp
  val : W
  deriving DecidableEq, Repr

/-- An xlate under way (R157): its place among the strand's xlates, its address, whether for writing, its bound. -/
structure XlatePend where
  id : Nat
  va : W
  wr : Bool
  due : Nat
  deriving DecidableEq, Repr

/-- A loop level (R60). -/
structure LoopLevel where
  count : W
  start : W
  last : W
  deriving DecidableEq, Repr

/-- The result of a far-load queue entry (R53, R54, R135): a refusal and a poisoned result are met at the pop (R399). -/
inductive FlqResult where
  | waiting
  | value (v : W)
  | refused (detail : BitVec 16) (addr : W)
  | poisoned (loc : Nat) (addr : W)
  deriving DecidableEq, Repr

/-- A far-load queue entry (R53): the destination field it records, and its result. -/
structure FlqEntry where
  d : Sreg
  res : FlqResult
  deriving DecidableEq, Repr

/-- A translation or key fault of an access (R346, R348): the cause code 0x20 or 0x21, the address, read or write. -/
structure XFault where
  code : BitVec 8
  addr : W
  write : Bool
  deriving DecidableEq, Repr

/-- The far-load queue's halt (R54): the index of the faulting entry and its fault. -/
structure FlqHalt where
  idx : BitVec 3
  fault : XFault
  deriving DecidableEq, Repr

/-- The set of agents a scope names, as the issuer sees it (R255, R256): logical clusters, island, host, peers. -/
structure ScopeSet where
  map : BitVec 64
  i : Bool
  h : Bool
  f : Bool
  deriving DecidableEq, Repr

/-- Where an access goes (R127, R249): a location of this module, the space by which the access names it, and for a translated
one the key of its translation (R342); a device virtual address still to be translated at the access, or whose translation
stands already because a younger access of the queue has performed (R54); or a peer address as the source writes it. -/
inductive Tgt where
  | loc (a : Nat) (space : Nat) (key : Option (BitVec 9) := none)
  | virt (va : W) (got : Option (Nat × BitVec 9) := none)
  | peer (ep : BitVec 12) (win : BitVec 4) (off : BitVec 44)
  deriving DecidableEq, Repr

/-- Atomic operations (R138, R379): 0 add, 1 and, 2 or, 3 xor, 4 min, 5 max, 6 minu, 7 maxu, 8 swap, 9 badd, 10 cas. -/
abbrev AmoOp := Fin 11

/-- What an access under way does: a store (R131), a far load (R133), an atomic (R138), a fence (R140), a counter
addition (R379), a trigger word or ctr.rd for a queue entry (R376 to R379; op is the word's fn), a rem.sig (R381), a
rem.st with what is left of it and whether it waits for a fault (R380), the setting of xvalid bits (R329), the creation of
a task record (R327). -/
inductive AccKind where
  | store (bytes : List Byte)
  | load (slot : BitVec 3) (n : Nat) (signed : Bool)
  | amo (slot : BitVec 3) (op : AmoOp) (y z : W)
  | fence (cmask : BitVec 16)
  | ctrAdd (ctr : BitVec 13) (v : W)
  | trig (slot : BitVec 3) (op : Nat) (a b : W)
  | sig (v : W)
  | move (src dst : W) (len : Nat) (faulted : Bool)
  | valid (v : W)
  | spawn (die : Die) (launch node count : Nat) (base : W)
  deriving DecidableEq, Repr

/-- An access of a strand that has issued and not yet performed, in program order (R132): its class, its target, the
scope it acquires or releases at, whether it is ordered after every earlier access to its bytes (R132), and the address
of its word, or of the rep word before it (R346). -/
structure Pend where
  kind : AccKind
  cls : Nat
  tgt : Tgt
  acq : Option ScopeSet
  rel : Option ScopeSet
  byteOrder : Bool
  pc : W
  deriving DecidableEq, Repr

/-- What a strand waits for (R141, R193): an object, and for waitv the condition, the word, the value, what its last read
observed (0 where it was refused) and whether a refusal has been counted since its issue (R153). -/
inductive WaitObj where
  | sem (t : Tl) (k : BitVec 5) (cnt : Nat)
  | ring (t : Tl) (g : BitVec 5) (cnt : Nat)
  | bar (b : BitVec 4) (phase : BitVec 16)
  | mem (cond : Nat) (dw : Bool) (tgt : Tgt) (y : W) (seen : W) (counted : Bool)
  | efence (e : Eng) (all : Bool) (targets : List (Tl × Eng × BitVec 32))
  deriving DecidableEq, Repr

/-- A wait held since its issue (R141). -/
structure Wait where
  obj : WaitObj
  issued : Nat
  expiry : Nat
  deriving DecidableEq, Repr

/-- An asynchronous trap not yet taken (R186, R290), and the core cycle in which its cause arises (R294): of what is found for the
tick that follows, that tick's first. -/
structure AsyncTrap where
  code : BitVec 8
  detail : BitVec 16
  tval : W
  at_ : Nat
  deriving DecidableEq, Repr

/-- A firmware-level hold (R297): the cause, its detail and its value. -/
structure FwHold where
  code : BitVec 8
  detail : BitVec 16
  tval : W
  deriving DecidableEq, Repr

/-- A strand (R43). qAt and qDue are the issue number and the bound of the latest writer of q (R49); lastAt and lastPos say
when LAST was replaced, and how many results in flight were older then (R58). -/
structure Strand where
  state : StrandState
  pc : W
  regs : Vector W 32
  qAt : Nat
  qDue : Nat
  issues : Nat
  preds : BitVec 8
  flights : List Flight
  ctl : List CtlWrite
  xstatus : W
  xcause : W
  xepc : W
  xtval : W
  xstklim : W
  xscratch : W
  xfpmode : BitVec 3
  xfflags : BitVec 13
  lastAt : Nat
  lastPos : Nat
  xtmask : BitVec 8
  xrep : W
  xt : W
  xlates : List XlatePend
  xlateN : Nat
  xtId : Nat
  loop0 : LoopLevel
  loop1 : LoopLevel
  flq : List FlqEntry
  flqHead : BitVec 3
  flqHalt : Option FlqHalt
  pend : List Pend
  inRep : Bool
  gapUntil : Nat
  swUntil : Nat
  drainUntil : Nat
  zWait : Bool
  wait : Option Wait
  fw : Option FwHold
  stopped : Bool
  asyncs : List AsyncTrap
  mboxInt : Option (Fin 8 × W)
  tried : Nat
  tld : Bool
  deriving DecidableEq, Repr

/-- A tensor handle (R51 Table 2). -/
structure Handle where
  addr : BitVec 57
  space : BitVec 3
  type : BitVec 4
  ext0 : BitVec 16
  str0 : BitVec 32
  ext1 : BitVec 16
  str1 : BitVec 32
  ext2 : BitVec 16
  str2 : BitVec 32
  ext3 : BitVec 16
  str3 : BitVec 32
  deriving DecidableEq, Repr

/-- A handle write in flight (R52): the handle, the fields it names, the cycle its bound passes. -/
structure HFlight where
  h : BitVec 5
  mask : BitVec 11
  due : Nat
  deriving DecidableEq, Repr

/-- A line of the data cache (R251): the vault line, its bytes, which of them are dirty. -/
structure DLine where
  line : Nat
  data : List Byte
  dirty : BitVec 64
  deriving DecidableEq, Repr

/-- A translation a TLB holds (R343): the context, the virtual page, the page size in bits, the physical page, the
permissions and the key. -/
structure TlbEntry where
  ctx : Fin 64
  page : Nat
  large : Bool
  pa : Nat
  r : Bool
  w : Bool
  key : BitVec 9
  deriving DecidableEq, Repr

/-- An event for the completion record (R295, R186, R298, R334): when it was recorded, its strand, cause, pc, value, whether
it is a double trap, whether it is an asynchronous trap recorded. -/
structure FirstEvent where
  time : Nat
  strand : Sn
  cause : W
  epc : W
  tval : W
  double : Bool
  async : Bool
  deriving DecidableEq, Repr

end Sys2Proof.Machine
end

