-- ==== Sys2Proof/Machine/TileState.lean ====
section
/-! DEFINITION. The plain data of a tile: templates, issue queues, semaphores and rings (05 R143 to R150, 06 R165 to
R186, 09 R284 to R286). -/

namespace Sys2Proof.Machine

/-- A control block: 32 fields of 64 bits (R168). -/
abbrev Block := List W

/-- A template that is not all zeros (R165): engine, number, fields. -/
structure Template where
  e : Eng
  t : BitVec 6
  f : Block
  deriving DecidableEq, Repr

/-- How far a queue entry has come (R176, R180, R184): queued; at its start gate; at its wait; running elements; all
elements done and results still to land; held at its release. -/
inductive EntryPhase where
  | queued | gated | waiting | running | ending
  deriving DecidableEq, Repr

/-- A fault that holds an entry at an element (R348, R399): cause, address, write, operand 0 D 1 A 2 B. -/
structure EntryFault where
  code : BitVec 8
  addr : W
  write : Bool
  operand : Nat
  deriving DecidableEq, Repr

/-- A weight set (R205): its rows as wload's codes and scales, decoded exactly when read; class 0 none, 1 integer, 2
floating. A weight is (element type, code, Z-scale code or none). -/
structure WeightSet where
  cls : Nat
  kw : Nat
  bs : Bool
  ty : Nat
  w : List (List (BitVec 16 × Option (BitVec 10)))
  deriving DecidableEq, Repr

/-- A table slot (R223): the header's first word and the segments' coefficients. -/
structure TableSlot where
  header : BitVec 32
  seg : List (BitVec 32 × BitVec 32 × BitVec 32)
  deriving DecidableEq, Repr

/-- An audit under way (R407): its audit cluster, the signature formed so far, the bytes the block has read in order, and
the weight sets and table slots as the block found them. -/
structure AuditRun where
  cluster : Cl
  crc : BitVec 64
  reads : List (List Byte)
  sets : Vector WeightSet 2
  slots : Vector TableSlot 2
  deriving DecidableEq, Repr

/-- A queue entry (R166, R167): the copy of the template, its number, sequence and generation, the issuing strand, how
far it is, the linear number of the next element, the generators of R29 by lane, values carried from element to element
(scan's sum, scatter's indices, bucket's splitters, prefetch's page), the tick from which its next row may run (R212, R231,
R242) and how much of that tick its rows have used (R242), its fault, whether it raised its schedule miss (R280), how a reef
stops it (R185), the bytes its ring write pointer counts (R234), whether its start has been counted for an audit, and its
audit (R405, R407). -/
structure Entry where
  f : Block
  t : BitVec 6
  seq : BitVec 32
  gen : BitVec 32
  strand : Sn
  phase : EntryPhase
  n : Nat
  lanes : List (BitVec 16)
  carry : List W
  ready : Nat
  used : Nat
  fault : Option EntryFault
  missed : Bool
  noLink : Bool
  cutRow : Bool
  wb : Nat
  tallied : Bool
  audit : Option AuditRun
  deriving DecidableEq, Repr

/-- An engine's issue queue (R166): its entries, the next sequence number, the last stopped one, the template of the
entry started last (R195). -/
structure Queue where
  entries : List Entry
  next : BitVec 32
  done : BitVec 32
  last : BitVec 6
  deriving DecidableEq, Repr

/-- A change to a template, and an issue, from the control core (R182), in the core's issue order. -/
inductive Amend where
  | patch (e : Eng) (t : BitVec 6) (f : BitVec 5) (v : BitVec 16)
  | field (e : Eng) (t : BitVec 6) (f : BitVec 5) (v : W)
  | bind (e : Eng) (t : BitVec 6) (slot : BitVec 2) (base : W) (ts : BitVec 7) (st : W) (st3 : BitVec 21)
  | issue (e : Eng) (t : BitVec 6) (gen : BitVec 32) (strand : Sn)
  deriving DecidableEq, Repr

/-- Who waits on a semaphore (R146). -/
inductive Waiter where
  | strand (k : Sn)
  | block (t : Tl) (e : Eng)
  deriving DecidableEq, Repr

/-- A wait in a semaphore's arrival order (R145, R146). -/
structure SemWait where
  k : Nat
  who : Waiter
  cnt : Nat
  deriving DecidableEq, Repr

/-- A ring (R148). -/
structure Ring where
  declared : Bool
  space : BitVec 3
  base : W
  z : Nat
  ns : Nat
  fill : BitVec 32
  free : BitVec 32
  wb : Nat
  deriving DecidableEq, Repr

/-- A ring that no ring.decl has declared since kernel start (R143). -/
def Ring.empty : Ring := ⟨false, 0, 0, 0, 0, 0, 0, 0⟩

/-- A result on its way to the accumulator (R212) or to D (R231): the tick it lands at, its location, its bytes. -/
structure Landing where
  due : Nat
  loc : Nat
  bytes : List Byte
  deriving DecidableEq, Repr

/-- A template that tmpl.ld has read and that is still to be written (R196): how many of the waiting amendments were issued
before it (R182), its strand, engine and template, the fields. -/
structure TmplLoad where
  before : Nat
  strand : Sn
  e : Eng
  t : BitVec 6
  f : Block
  deriving DecidableEq, Repr

/-- A ring.decl that waits for its place in a tick (R284), and until no block names its ring (R149): its strand, the ring, its
handle and its count of slots. -/
structure RingDecl where
  strand : Sn
  g : BitVec 5
  h : BitVec 5
  ns : BitVec 8
  deriving DecidableEq, Repr

/-- A byte of the accumulator store as it stood before an engine, or a strand, wrote it (R247). -/
structure OldByte where
  e : Option Eng
  loc : Nat
  byte : Byte
  deriving DecidableEq, Repr

/-- A tile (R4, R165): its semaphores and rings with their waits, its templates and queues, the changes that wait for the
next tick (R182, R196, R284), stream TLBs (R240), results on their way, what the accumulator rows written in a tick held
before (R247), weight sets and table slots. -/
structure Tile where
  sems : Vector (BitVec 16) 32
  semQ : List SemWait
  semNew : List SemWait
  rings : Vector Ring 32
  tmpls : List Template
  queues : Vector Queue 4
  amends : List Amend
  links : List (Eng × BitVec 6 × BitVec 32 × Sn)
  fwds : List (Eng × BitVec 6 × BitVec 5 × BitVec 16)
  tlds : List TmplLoad
  streamTlb : List (Eng × TlbEntry)
  decls : List RingDecl
  accOld : Nat × List OldByte
  accLand : List Landing
  redLand : List Landing
  sets : Vector WeightSet 2
  slots : Vector TableSlot 2
  deriving DecidableEq, Repr

end Sys2Proof.Machine
end

