-- ==== Sys2Proof/Machine/DeviceState.lean ====
section
/-! DEFINITION. The plain data of a control core with its tiles, and of what the device holds beside them: gangs,
contexts, launches, dies, the island (09, 11, 12, 13, 15, 16). -/

namespace Sys2Proof.Machine

/-- A kernel image as the launch front end loads it (R90 to R92, R292). -/
structure Image where
  strands : Nat
  allots : List Nat
  stack : Nat
  entries : List Nat
  reef : Option Nat
  text : List (BitVec 32)
  textOff : Nat
  traps : List W
  trapsOff : Nat
  data : List Byte
  rings : List (List Byte)
  tmpls : List Template
  deriving DecidableEq, Repr

/-- A gang barrier (R151, R152, R288): its phase and the strands that have arrived in it. -/
structure Barrier where
  phase : BitVec 16
  arrived : List (Cl × Sn)
  deriving DecidableEq, Repr

/-- A member of a gang (R287, R339): its physical and its logical cluster. -/
structure Member where
  phys : Cl
  logical : Fin 64
  deriving DecidableEq, Repr

/-- A pre-emption under way (R349 to R351): at a yield point, or behind a generation fence with the sequence number of each
queue's cut (queues numbered (cluster * 8 + tile) * 4 + engine) and the core cycle at which the fence limit passes. -/
inductive Preempt where
  | node
  | fence (cuts : List (Nat × BitVec 32)) (limit : Nat)
  deriving DecidableEq, Repr

/-- A gang (R287): its members by rank, its kernel image and where it lies, its context, launch, node, instance, the argument
base of its record (R321, R413), request tag and key (R312), barriers, a pre-emption under way, whether a reef or its end has
stopped it. -/
structure Gang where
  id : Nat
  members : List Member
  wide : Bool
  ctx : Fin 64
  launch : Nat
  node : Nat
  inst : Nat
  arg : W
  tag : BitVec 16
  key : Option (BitVec 9)
  image : Image
  base : W
  bars : Vector Barrier 16
  preempt : Option Preempt
  diverted : Bool
  deriving DecidableEq, Repr

/-- A control core and its cluster (R43, R275): strands, shared registers, cache, TLB, tiles, schedule clock; the narrowed mode,
and the mode from the next tick boundary on (R283); bin, suspicion, corrected errors with the core cycles of the last second's,
and retest passes (R397, R415, R416); idle gating (R426). -/
structure Core where
  strands : Vector Strand 4
  handles : Vector Handle 32
  hflights : List HFlight
  xjoin : BitVec 4
  xgen : BitVec 32
  xvalid : W
  xtbase : W
  mbox : Vector W 8
  mboxHost : BitVec 8
  superseded : BitVec 8
  mboxAt : Vector Nat 8
  order : List Sn
  issued : Nat
  ctl : List CtlWrite
  dcache : List DLine
  tlb : List TlbEntry
  gang : Option Nat
  xframe : W
  frameTicks : Nat
  narrowed : Bool
  toNarrow : Bool
  slipCount : BitVec 32
  slips : List (BitVec 128)
  events : List FirstEvent
  didDone : Bool
  divertedHere : Bool
  bin : Fin 4
  suspect : Bool
  passes : Nat
  corrected : BitVec 32
  correctedAt : List Nat
  idleSince : Nat
  clockGated : Bool
  powerGated : Bool
  tiles : Vector Tile 8
  deriving DecidableEq, Repr

/-- Context states (R337). -/
inductive CtxState where
  | free | active | killing
  deriving DecidableEq, Repr

/-- A context record (R338), with its fabric partition (R360) and the admission map of R363. The peer-window table itself lies
in device memory at pwt (R361). -/
structure Context where
  state : CtxState
  root : W
  dkey : BitVec 9
  agc : BitVec 8
  pf : BitVec 2
  kf : BitVec 2
  mc : BitVec 2
  keymap : BitVec 512
  cbase : Nat
  ccnt : Nat
  sbase : Nat
  scnt : Nat
  pwt : W
  pwn : Nat
  cmap : Vector (Option Cl) 64
  refused : W
  saveBase : W
  fenceLimit : Nat
  scopes : Vector ScopeEntry 32
  bufs : Vector (W × W) 64
  admits : List (BitVec 12)
  deriving DecidableEq, Repr

/-- A fault-queue entry (R346): code, write, source 0 strand 1 engine 2 island agent, context, physical cluster, strand or
engine, tile, operand, address, sequence number or word address, element number; and, for an agent that tries again by
itself, which it is, so that each enters its own (R347). -/
structure FaultEntry where
  code : BitVec 8
  write : Bool
  src : Nat
  ctx : Fin 64
  cluster : Cl
  unit : Nat
  tile : Nat
  operand : Nat
  va : W
  seq : W
  n : Nat
  agent : Option FaultAgent
  deriving DecidableEq, Repr

/-- Slot states (R372). -/
inductive SlotState where
  | free | armed | firing | done | orphaned | cancelled | failed
  deriving DecidableEq, Repr

/-- A triggered-operation slot (R372, R374, R378): its context, state, the doublewords of its descriptor, its threshold
and further fires as they stand, last status, fires, whether a cancel waits for its chain. -/
structure Slot where
  ctx : Fin 64
  state : SlotState
  dw : List W
  thr : W
  reps : Nat
  lst : Nat
  fires : Nat
  cancel : Bool
  deriving DecidableEq, Repr

/-- A chain under way (R374): its head and the slot whose action comes next, physical numbers, that slot's descriptor, the
bytes of a copy already moved, the fault it waits for. -/
structure Chain where
  head : Nat
  at_ : Nat
  dw : List W
  moved : Nat
  waits : Option FaultEntry
  deriving DecidableEq, Repr

/-- An access that has left the module for a peer (R358, R365), in order: its context and class, the port it left by, its
address and what it does. -/
structure FabricMsg where
  ctx : Fin 64
  cls : Nat
  port : Fin 16
  ep : BitVec 12
  win : BitVec 4
  off : Nat
  op : PeerOp
  deriving DecidableEq, Repr

/-- The strand that issues, and the word it fetched (log 4). -/
structure Cur where
  c : Cl
  k : Sn
  word : BitVec 32
  deriving DecidableEq, Repr

/-! Launches (11). -/

/-- A node of a launch's graph (R319, R320): its descriptor, its image once it is checked, whether it is open, whether it
has completed, instances created and not finished, predecessors that have not completed. -/
structure Node where
  image : W
  argOff : W
  stride : Nat
  count : Nat
  size : Nat
  wide : Bool
  reissue : Bool
  succ : BitVec 64
  img : Option Image
  isOpen : Bool
  complete : Bool
  outstanding : Nat
  deriving DecidableEq, Repr

/-- Where a launch stands (R311, R317, R318, R334). -/
inductive LaunchPhase where
  | ranked | admitted | ended
  deriving DecidableEq, Repr

/-- An event that the completion record reports (R334): cluster, and whether it stopped an instance before placement. -/
structure LaunchEvent where
  cluster : Cl
  notPlaced : Bool
  e : FirstEvent
  deriving DecidableEq, Repr

/-- A launch (R313 to R335, R403, R404): the packet it keeps, its claimed index, queue, die and context; its phase and rank; its
graph; its counts; its times; what its gangs left, and the first event that purged it. -/
structure Launch where
  id : Nat
  packet : List W
  index : W
  queue : Fin 1024
  die : Die
  ctx : Fin 64
  phase : LaunchPhase
  taken : W
  rank : Int
  nodes : List Node
  outstanding : Nat
  placed : Nat
  started : Bool
  rejectedSpawns : Nat
  reefed : Bool
  status : Option Nat
  validity : W
  doneAtReef : BitVec 64
  tAdmit : W
  tPlace : W
  tReef : W
  slipSum : Nat
  slipLog : Option (Cl × List (BitVec 128))
  events : List LaunchEvent
  consumed : Option LaunchEvent
  faulted : Bool
  replayed : Bool
  purging : Bool
  offChip : Bool
  clustersDone : Bool
  recordWait : Option FaultEntry
  deriving DecidableEq, Repr

/-- A task record (R322): launch, node, next instance, instances left, argument base and stride, rank, order of creation; whether it
brings back an instance that had been placed on a fenced die (R413). -/
structure TaskRec where
  launch : Nat
  node : Nat
  next : Nat
  left : Nat
  base : W
  stride : Nat
  rank : Int
  made : Nat
  again : Bool
  deriving DecidableEq, Repr

/-- Queue states (R309). -/
inductive QueueState where
  | disabled | active | halted | resetting
  deriving DecidableEq, Repr

/-- A submission queue (R308 to R311): its descriptor, state, laps of an overrun, the packet taken and not yet dispatched,
the claimed indices of packets not yet completed, the fault its turns wait for, a mirror write that waits for one. -/
structure SubQueue where
  d : QueueDesc
  state : QueueState
  olap : BitVec 32
  flap : BitVec 32
  taken : Option (List W × W)
  open_ : List W
  skip : Option FaultEntry
  mirror : Option (W × FaultEntry)
  deriving DecidableEq, Repr

/-- A copy packet under way (R315): its queue, packet and claimed index, bytes moved, the fault it waits for, the status
of its completion once it has one. -/
structure CopyJob where
  queue : Fin 1024
  packet : List W
  index : W
  moved : Nat
  waits : Option FaultEntry
  stopped : Option Nat
  deriving DecidableEq, Repr

/-- A saved member of a gang (R350 Table 9, R351 Table 10): its rank's cluster record, its enabled tiles, the bytes of its
vault, scratchpads and accumulator stores by offset. -/
structure SavedMember where
  core : Core
  die : Die
  tiles : BitVec 8
  vault : List Host.Cell
  spad : List (List Host.Cell)
  acc : List (List Host.Cell)
  deriving DecidableEq, Repr

/-- A saved gang (R350 to R352). -/
structure SavedGang where
  gang : Gang
  fence : Bool
  cut : List (BitVec 32 × Nat)
  members : List SavedMember
  deriving DecidableEq, Repr

/-! Faults and tables (15). -/

/-- A poison-record entry (R409): line, unit, context, tag. -/
structure PoisonRec where
  line : Nat
  unit : Nat
  ctx : Fin 64
  tag : BitVec 16
  deriving DecidableEq, Repr

/-- One copy of the triplicated structures of a die (R409 Table 5); a row-remap table for each of its two stacks. -/
structure DieTables where
  poison : List PoisonRec
  remap : Vector (List (Nat × Nat)) 2
  frames : List Nat
  deriving DecidableEq, Repr

/-- Die states (R423). -/
inductive DiePower where
  | off | reset | boot | run | fenced | drain
  deriving DecidableEq, Repr

/-- An audited block that completed and awaits its replay (R407): where it ran, its context and launch, the entry as it ran
(its tag in field 28) with its snapshot, its signature. -/
structure Audit where
  cluster : Cl
  tile : Tl
  eng : Eng
  ctx : Fin 64
  entry : Entry
  snap : AuditRun
  crc : BitVec 64
  deriving DecidableEq, Repr

/-- A compute die (R423): state, where a drain goes, uncore power (R411), auditor word and counters (R405, R408), rank
programs and re-rank interval (R316, R317), ranked queue, task pool and spill queue (R317, R322, R323), triplicated
tables (R409), scrub corrections counted, corrected errors by stack (R397), the core cycles of those of the last hour and the
uncorrectable ones by 64 KiB frame (R409), bytes and stall ticks of each context's buffers not yet added to its record
(R345; numbered context * 64 + buffer), the fault that admission waits for and its launch (R314), the fault that placement
waits for, and the record whose argument it read with the die that holds it (R321). -/
structure DieRec where
  state : DiePower
  goal : DieGoal
  uncore : Bool
  auditOn : Bool
  auditK : Nat
  auditPh : BitVec 20
  auditCount : BitVec 32
  audSelected : BitVec 32
  audSkipped : BitVec 32
  audAbandoned : BitVec 32
  audCompared : BitVec 32
  audMismatch : BitVec 32
  audits : List Audit
  programs : List (Nat × List (BitVec 32))
  rerankUs : Nat
  rerankAt : Nat
  ranked : List Nat
  pool : List TaskRec
  spill : List TaskRec
  tables : Vector DieTables 3
  corrections : Nat
  stackErrors : Vector (BitVec 32) 2
  frameErrors : List (Nat × List Nat)
  frameBad : List (Nat × Nat)
  counts : List (Nat × (Nat × Nat))
  admitWait : Option (FaultEntry × Nat)
  placeWait : Option (FaultEntry × Die × TaskRec)
  deriving DecidableEq, Repr

/-- A purge under way (R401): context, tag, launches it reached, whether a machine check began it (R338, R399). -/
structure Purge where
  ctx : Fin 64
  tag : BitVec 16
  launches : List Nat
  check : Bool
  deriving DecidableEq, Repr

/-! The island (13, 16). -/

/-- Island states (R422). -/
inductive IslandPower where
  | off | boot | forward | attached | drain
  deriving DecidableEq, Repr

/-- Key-slot states (R434). -/
inductive KeyState where
  | empty | assigned | retired
  deriving DecidableEq, Repr

/-- What a host read came to (R266, R368, R399): data, unsupported request, or poisoned data. -/
inductive HostReply where
  | data (bs : List Byte)
  | unsupported
  | poisoned (bs : List Byte)
  deriving DecidableEq, Repr

/-- What becomes of a peer access (R363, R364, R399): its bytes, done, an atomic's returned word, a refusal with its reason,
a wait for a fault at the endpoint, or bytes marked poisoned. -/
inductive PeerAns where
  | data (bs : List Byte)
  | done
  | old (x : W)
  | refused (reason : Nat)
  | wait
  | poisoned (bs : List Byte)
  deriving DecidableEq, Repr

/-- A host access that waits for a translation fault (R368). -/
inductive HostAccess where
  | read (a : W) (n : Nat)
  | write (a : W) (bs : List Byte) (ro : Bool)
  | fetchadd (a : W) (n : Nat) (v : W)
  | cas (a : W) (n : Nat) (x y : W)
  | mailbox (c : Cl) (i : Fin 8) (v : W)
  deriving DecidableEq, Repr

/-- Fabric time (R369): nanoseconds (xtime) and fraction, lock, slew rate in parts per million, offset. -/
structure FabricTime where
  ns : W
  frac : BitVec 32
  lock : Bool
  slew : Int
  offset : BitVec 32
  deriving DecidableEq, Repr

/-- The power arbiter (R426): narrowed quadrants, latest first; budget in milliwatts; powers of the last samples in
milliwatts; alarm of the cold plate; core cycles since which conditions hold; quadrants that stage 2 keeps from placement;
the power-fault line; current limits in milliamperes. -/
structure Power where
  narrowed : List (Fin 16)
  budget : Nat
  samples : List Nat
  alarm : Bool
  coldPlate : Bool
  alarmAt : Option Nat
  overAt : Option Nat
  calmAt : Option Nat
  widenAt : Nat
  noPlace : List (Fin 16)
  faultLine : Bool
  limits : List (Nat × Nat)
  deriving DecidableEq, Repr

/-- A firmware core (R427, R438): the image that it runs, its standby image, whether it restarts into a new one; and what a
control core without tiles holds: strands, handles and their writes in flight, the registers of the core, the selector's order and
the cycle it last issued in, register writes under way. -/
structure FwCore where
  image : List Byte
  standby : Option (List Byte)
  restarting : Bool
  strands : Vector Strand 4
  handles : Vector Handle 32
  hflights : List HFlight
  xjoin : BitVec 4
  xgen : BitVec 32
  xvalid : W
  xtbase : W
  order : List Sn
  issued : Nat
  ctl : List CtlWrite
  deriving DecidableEq, Repr

/-- A quote (R437 Table 10): its bytes 0x000 to 0x29f as doublewords, and the signature of 4,627 bytes. -/
structure Quote where
  words : List W
  sig : BitVec 37016
  deriving DecidableEq, Repr

/-- Checkpoint phases (R417); failed when a fence has been abandoned. -/
inductive CkptPhase where
  | idle | quiesce | streamed | failed
  deriving DecidableEq, Repr

/-- The master record (R412), and the cycle at which the new master has rebuilt its order. -/
structure Master where
  die : Die
  term : BitVec 32
  paused : Bool
  deriving DecidableEq, Repr

/-- A step of the machine that its own state calls for, to be run next (log 4): each is the meaning of one event row. -/
inductive Work where
  | tileTick (c : Cl) (t : Tl)
  | templateTick (c : Cl) (t : Tl)
  | blockStart (c : Cl) (t : Tl) (e : Eng)
  | blockComplete (c : Cl) (t : Tl) (e : Eng)
  | scheduleMiss (c : Cl) (t : Tl) (e : Eng)
  | row (c : Cl) (t : Tl) (e : Eng)
  | emitRow (c : Cl) (t : Tl)
  | withdraw (c : Cl) (k : Sn)
  | matrixRowLand (c : Cl) (t : Tl)
  | reductionLand (c : Cl) (t : Tl)
  | tmplLdWrite (c : Cl) (t : Tl)
  | deviceTick
  | fabricTimeTick
  | xframeAdvance (c : Cl)
  | waitExpiry (c : Cl) (k : Sn)
  | purge (x : Fin 64) (tag : BitVec 16)
  | purgeComplete (x : Fin 64) (tag : BitVec 16)
  | queueTake (q : Fin 1024)
  | launchPacket (q : Fin 1024)
  | copyPacket (q : Fin 1024)
  | noOpPacket (q : Fin 1024)
  | queueResetComplete (q : Fin 1024)
  | rerank (d : Die)
  | admission (d : Die)
  | placement (d : Die)
  | spillReturn (d : Die)
  | gangRelease (g : Nat)
  | reefPoint (l : Nat)
  | reefDiversion (l : Nat)
  | reefBudgetExpiry (l : Nat)
  | reefRestore (g : Nat)
  | completionRecordWrite (l : Nat)
  | chainActionComplete (slot : BitVec 14)
  | killComplete (x : Fin 64)
  | yieldPointSave (g : Nat)
  | fenceSnapshot (g : Nat)
  | fenceAbandon (g : Nat)
  | diePowerOn (d : Die)
  | dieResetRelease (d : Die)
  | dieBootComplete (d : Die)
  | contextKill (x : Fin 64)
  | masterReplace
  | dieFence (d : Die)
  | checkpointResume
  deriving DecidableEq, Repr

/-- A checkpoint segment (R419 Table 7): its number, its physical base, the frames present, the poison map, the frames present in
ascending order as they are encrypted, and the tag. -/
structure CkptSegment where
  num : Nat
  base : Nat
  present : BitVec 16
  poison : BitVec 16384
  body : List Byte
  tag : BitVec 128
  deriving DecidableEq, Repr

/-- A checkpoint image on the safe tier (R418, R419, R435): the segments; the manifest with the encapsulated checkpoint key, each
page's key ID, the hash over the tags and its signature, and the island state of that moment. -/
structure CkptImage where
  segments : List CkptSegment
  cipher : List Byte
  pageKeys : List (Nat × Nat)
  hash : BitVec 512
  sig : BitVec 37016
  ctrs : List (Nat × W)
  slots : List (Nat × Slot)
  queues : List (Nat × SubQueue)
  ctxs : Vector Context 64
  saved : List SavedGang
  clusters : List (Nat × List Cl)
  deriving DecidableEq, Repr

end Sys2Proof.Machine
end

