-- ==== Sys2Proof/Machine/State.lean ====
section
/-! DEFINITION. The state of the module, plain data, and its value at reset. -/

namespace Sys2Proof.Machine

/-- Why a step stops. Only a use of a meaning that no step makes can stop. -/
inductive Fault where
  /-- A word's meaning was asked for while the current strand is Idle or Halted; `step` never does this. Safe. -/
  | noRunningStrand
  deriving DecidableEq, Repr

/-- An instruction with no meaning. -/
inductive Refusal where
  /-- Raised by an arm of `exec` whose instruction is not modelled. Safe. -/
  | notModelled (mnemonic : String)
  deriving DecidableEq, Repr

structure State where
  cycle : Nat
  fresh : Nat
  agenda : List Instr
  todo : List Work
  turn : Nat
  cur : Cur
  ticked : Nat
  mem : List Host.Cell
  poison : List Nat
  cores : Vector Core 64
  gangs : List Gang
  saved : List SavedGang
  made : Nat
  ctxs : Vector Context 64
  faultq : Vector (List FaultEntry) 4
  islandFaults : List FaultEntry
  launches : List Launch
  queues : List (Nat × SubQueue)
  copies : List CopyJob
  dies : Vector DieRec 4
  xtick : W
  xtime : W
  time : FabricTime
  launched : Bool
  config : ConfigRecord
  flash : ConfigRecord
  flashImage : List Byte
  flashVer : W
  island : IslandPower
  bootError : BitVec 8
  drainUntil : Nat
  endpoint : BitVec 12
  routes : List (Nat × Route)
  ports : Vector PortState 16
  ctrs : List (Nat × W)
  slots : List (Nat × Slot)
  chains : List Chain
  fabricOut : List FabricMsg
  peerWaits : List PeerAccess
  peerOut : List (BitVec 12 × PeerAns)
  islandTlb : List TlbEntry
  slices : Vector (Option (Fin 64 × W)) 64
  hostWaits : List HostAccess
  hostOut : List HostReply
  dropped : BitVec 32
  bar0 : List (Nat × W)
  transit : List Transit
  msix : List (BitVec 11)
  purges : List Purge
  master : Master
  keys : List (Nat × (KeyState × Fin 64))
  keyRetired : BitVec 512
  keyBits : List (Nat × BitVec 512)
  pageKeys : List (Nat × (Nat × BitVec 512))
  kem : BitVec 512
  aliasKey : BitVec 256
  aliasCert : Option AliasCert
  islandErrors : BitVec 32
  lease : Vector LeaseRecord 3
  fwCores : Vector FwCore 5
  measure : Vector (BitVec 512) 8
  rollback : W
  staged : Option Update
  commitAt : W
  quotes : List Quote
  power : Power
  ckpt : CkptPhase
  ckptGangs : List (Nat × List Cl)
  ckptBefore : List (Nat × Preempt)
  ckptTier : List (BitVec 12 × BitVec 4)
  ckptKey : BitVec 256 × List Byte
  images : List CkptImage
  reports : List (Nat × Nat)
  lost : List (Nat × (W × Nat))
  deriving DecidableEq, Repr

def LoopLevel.reset : LoopLevel := ⟨0, 0, 0⟩

def Strand.reset : Strand where
  state := .idle
  pc := 0
  regs := Vector.replicate 32 0
  qAt := 0
  qDue := 0
  issues := 0
  preds := 1
  flights := []
  ctl := []
  xstatus := 0
  xcause := 0
  xepc := 0
  xtval := 0
  xstklim := 0
  xscratch := 0
  xfpmode := 0
  xfflags := 0
  lastAt := 0
  lastPos := 0
  xtmask := 0
  xrep := 0
  xt := 0
  xlates := []
  xlateN := 0
  xtId := 0
  loop0 := .reset
  loop1 := .reset
  flq := []
  flqHead := 0
  flqHalt := none
  pend := []
  inRep := false
  gapUntil := 0
  swUntil := 0
  drainUntil := 0
  zWait := false
  wait := none
  fw := none
  stopped := false
  asyncs := []
  mboxInt := none
  tried := 0
  tld := false

def Handle.zero : Handle := ⟨0, 0, 0, 0, 0, 0, 0, 0, 0, 0, 0⟩

def Queue.reset : Queue := ⟨[], 1, 0, 0⟩

/-- A weight set that no wload has loaded (R205): zeros, no class. -/
def WeightSet.empty : WeightSet := ⟨0, 0, false, 0, []⟩

/-- A table slot at kernel start (R223): every segment evaluates to +0. -/
def TableSlot.empty : TableSlot := ⟨0, []⟩

def Tile.reset : Tile where
  sems := Vector.replicate 32 0
  semQ := []
  semNew := []
  rings := Vector.replicate 32 .empty
  tmpls := []
  queues := Vector.replicate 4 .reset
  amends := []
  links := []
  fwds := []
  tlds := []
  streamTlb := []
  decls := []
  accOld := (0, [])
  accLand := []
  redLand := []
  sets := Vector.replicate 2 .empty
  slots := Vector.replicate 2 .empty

def Core.reset : Core where
  strands := Vector.replicate 4 .reset
  handles := Vector.replicate 32 .zero
  hflights := []
  xjoin := 0
  xgen := 0
  xvalid := 0
  xtbase := 0
  mbox := Vector.replicate 8 0
  mboxHost := 0
  superseded := 0
  mboxAt := Vector.replicate 8 0
  order := [0, 1, 2, 3]
  issued := 0
  ctl := []
  dcache := []
  tlb := []
  gang := none
  xframe := 0
  frameTicks := 0
  narrowed := false
  toNarrow := false
  slipCount := 0
  slips := []
  events := []
  didDone := false
  divertedHere := false
  bin := 0
  suspect := false
  passes := 0
  corrected := 0
  correctedAt := []
  idleSince := 0
  clockGated := false
  powerGated := false
  tiles := Vector.replicate 8 .reset

def ScopeEntry.reset : ScopeEntry := ⟨0, false, false, false, false⟩

def Context.reset : Context where
  state := .free
  root := 0
  dkey := 0
  agc := 0
  pf := 0
  kf := 0
  mc := 0
  keymap := 0
  cbase := 0
  ccnt := 0
  sbase := 0
  scnt := 0
  pwt := 0
  pwn := 0
  cmap := Vector.replicate 64 none
  refused := 0
  saveBase := 0
  fenceLimit := 0
  scopes := Vector.replicate 32 .reset
  bufs := Vector.replicate 64 (0, 0)
  admits := []

/-- The record of a module whose flash nothing has written: it disables nothing, and its image is empty, with that image's hash (log 1). -/
def ConfigRecord.blank : ConfigRecord where
  magic := 0x7a636631
  format := 1
  res0 := 0
  security := 0
  part := 0x3231354d2d345a4b
  serial := 0
  clusterDisable := 0
  bins := 0
  res1 := 0
  tileDisable := 0
  imageHash := 0x26cd1d2886857501e3d3b6959d1900f558c53a2c40e9e3114cf9f5f13a12b215a6805c47c1dcd1e05958e24f1682c9976e755a18dc67b5c8c59a3aa2cc739fa6
  helper := 0
  cert := 0
  sig := 0

def DieTables.empty : DieTables := ⟨[], Vector.replicate 2 [], []⟩

/-- A compute die without power (R423); auditor EN 1, K 12, phase 0 (R405); re-rank interval 100 us (R317). -/
def DieRec.reset : DieRec where
  state := .off
  goal := .off
  uncore := false
  auditOn := true
  auditK := 12
  auditPh := 0
  auditCount := 0
  audSelected := 0
  audSkipped := 0
  audAbandoned := 0
  audCompared := 0
  audMismatch := 0
  audits := []
  programs := []
  rerankUs := 100
  rerankAt := 0
  ranked := []
  pool := []
  spill := []
  tables := Vector.replicate 3 .empty
  corrections := 0
  stackErrors := Vector.replicate 2 0
  frameErrors := []
  frameBad := []
  counts := []
  admitWait := none
  placeWait := none

def LeaseRecord.reset : LeaseRecord := ⟨0, false, 0, 0, 0, 0, 0⟩

/-- The budget is 3.6 kW (R426). -/
def Power.reset : Power where
  narrowed := []
  budget := 3600000
  samples := []
  alarm := false
  coldPlate := false
  alarmAt := none
  overAt := none
  calmAt := none
  widenAt := 0
  noPlace := []
  faultLine := false
  limits := []

/-- A firmware core: its strands are at firmware level (R427). -/
def FwCore.reset : FwCore where
  image := []
  standby := none
  restarting := false
  strands := Vector.replicate 4 { Strand.reset with xstatus := 2 }
  handles := Vector.replicate 32 .zero
  hflights := []
  xjoin := 0
  xgen := 0
  xvalid := 0
  xtbase := 0
  order := [0, 1, 2, 3]
  issued := 0
  ctl := []

/-- A firmware core that starts, or starts anew, in an image: strand 0 runs from its first word (log 61). -/
def FwCore.start (image : List Byte) : FwCore :=
  { FwCore.reset with
    image := image
    strands := FwCore.reset.strands.set 0 { Strand.reset with xstatus := 0x302, state := .run } }

/-- The module without power, right before the BMC applies it (R422): the router island is Off, every die is Off. -/
def State.reset : State where
  cycle := 0
  fresh := 0
  agenda := []
  todo := []
  turn := 0
  cur := ⟨0, 0, 0⟩
  ticked := 0
  mem := []
  poison := []
  cores := Vector.replicate 64 .reset
  gangs := []
  saved := []
  made := 0
  ctxs := Vector.replicate 64 .reset
  faultq := Vector.replicate 4 []
  islandFaults := []
  launches := []
  queues := []
  copies := []
  dies := Vector.replicate 4 .reset
  xtick := 0
  xtime := 0
  time := ⟨0, 0, false, 0, 0⟩
  launched := false
  config := .blank
  flash := .blank
  flashImage := []
  flashVer := 0
  island := .off
  bootError := 0
  drainUntil := 0
  endpoint := 0
  routes := []
  ports := Vector.replicate 16 .down
  ctrs := []
  slots := []
  chains := []
  fabricOut := []
  peerWaits := []
  peerOut := []
  islandTlb := []
  slices := Vector.replicate 64 none
  hostWaits := []
  hostOut := []
  dropped := 0
  bar0 := []
  transit := []
  msix := []
  purges := []
  master := ⟨0, 0, false⟩
  keys := []
  keyRetired := 0
  keyBits := []
  pageKeys := []
  kem := 0
  aliasKey := 0
  aliasCert := none
  islandErrors := 0
  lease := Vector.replicate 3 .reset
  fwCores := Vector.replicate 5 .reset
  measure := Vector.replicate 8 0
  rollback := 0
  staged := none
  commitAt := 0
  quotes := []
  power := .reset
  ckpt := .idle
  ckptGangs := []
  ckptBefore := []
  ckptTier := []
  ckptKey := (0, [])
  images := []
  reports := []
  lost := []

end Sys2Proof.Machine
end

