-- ==== Sys2Proof/Machine/Ops.lean ====
section
/-! DEFINITION. The named operations on strands and cores: registers and results in flight (02 R48 to R67), control
registers (R55 to R62), issue, marks and the rendezvous (R68 to R70), the end-of-body check (04 R117), taking an
exception and returning from one (09 R293 to R297, 05 R162), halting (04 R114). -/

namespace Sys2Proof.Machine

/-! Access to the parts of the state. -/

def State.core (s : State) (c : Cl) : Core := s.cores.get c
def State.setCore (s : State) (c : Cl) (x : Core) : State := { s with cores := s.cores.set c.val x }
def State.modCore (s : State) (c : Cl) (f : Core → Core) : State := s.setCore c (f (s.core c))
def Core.strand (x : Core) (k : Sn) : Strand := x.strands.get k
def Core.setStrand (x : Core) (k : Sn) (t : Strand) : Core := { x with strands := x.strands.set k.val t }
def Core.modStrand (x : Core) (k : Sn) (f : Strand → Strand) : Core := x.setStrand k (f (x.strand k))
def State.strand (s : State) (c : Cl) (k : Sn) : Strand := (s.core c).strand k
def State.setStrand (s : State) (c : Cl) (k : Sn) (t : Strand) : State := s.modCore c (·.setStrand k t)
def State.modStrand (s : State) (c : Cl) (k : Sn) (f : Strand → Strand) : State := s.setStrand c k (f (s.strand c k))
def Core.tile (x : Core) (t : Tl) : Tile := x.tiles.get t
def Core.setTile (x : Core) (t : Tl) (y : Tile) : Core := { x with tiles := x.tiles.set t.val y }
def State.tile (s : State) (c : Cl) (t : Tl) : Tile := (s.core c).tile t
def State.setTile (s : State) (c : Cl) (t : Tl) (y : Tile) : State := s.modCore c (·.setTile t y)
def State.modTile (s : State) (c : Cl) (t : Tl) (f : Tile → Tile) : State := s.setTile c t (f (s.tile c t))

/-- The core, and the strand, whose word issues. -/
def State.myCore (s : State) : Core := s.core s.cur.c
def State.me (s : State) : Strand := s.strand s.cur.c s.cur.k
def State.modMyCore (s : State) (f : Core → Core) : State := s.modCore s.cur.c f
def State.modMe (s : State) (f : Strand → Strand) : State := s.modStrand s.cur.c s.cur.k f

/-- The gang of an identity, and the gang a cluster is in. -/
def State.gang? (s : State) (g : Nat) : Option Gang := s.gangs.find? (·.id == g)
def State.gangOf (s : State) (c : Cl) : Option Gang := (s.core c).gang.bind s.gang?
def State.modGang (s : State) (g : Nat) (f : Gang → Gang) : State :=
  { s with gangs := s.gangs.map fun x => if x.id = g then f x else x }

/-- The context a cluster runs in; context 0 when no gang holds it. -/
def State.ctxOf (s : State) (c : Cl) : Fin 64 := (s.gangOf c).elim 0 (·.ctx)
def State.ctx (s : State) (x : Fin 64) : Context := s.ctxs.get x
def State.modCtx (s : State) (x : Fin 64) (f : Context → Context) : State :=
  { s with ctxs := s.ctxs.set x.val (f (s.ctx x)) }

/-- Dies, launches and queues. -/
def State.die (s : State) (d : Die) : DieRec := s.dies.get d
def State.modDie (s : State) (d : Die) (f : DieRec → DieRec) : State := { s with dies := s.dies.set d.val (f (s.die d)) }

/-- Bytes and stall ticks of a buffer of a context, counted by a die until a gang of the context leaves (R345). -/
def State.countBuffer (s : State) (d : Die) (x : Fin 64) (b bytes stall : Nat) : State :=
  s.modDie d fun y =>
    let k := x.val * 64 + b
    let old := tabGet y.counts k (0, 0)
    { y with counts := tabSet y.counts k (old.1 + bytes, old.2 + stall) }

def State.dieRuns (s : State) (d : Die) : Bool := (s.die d).state == .run
def State.launch? (s : State) (l : Nat) : Option Launch := s.launches.find? (·.id == l)
def State.modLaunch (s : State) (l : Nat) (f : Launch → Launch) : State :=
  { s with launches := s.launches.map fun x => if x.id = l then f x else x }
/-- A fault-queue entry reaches a die's firmware core (R346). -/
def State.addFault (s : State) (d : Die) (e : FaultEntry) : State := { s with faultq := s.faultq.set d.val (s.faultq.get d ++ [e]) }

/-- The tick of a core cycle (R2). -/
def tickOf (cycle : Nat) : Nat := cycle / 3

/-! Registers and results in flight. -/

/-- A write to a register is in flight and its bound has not passed (R64, R65); for q its latest writer counts alone (R49). -/
def Strand.regBusy (t : Strand) (cycle : Nat) (f : Sreg) : Bool :=
  if f = 0 then decide (cycle < t.qDue) else t.flights.any fun x => decide (cycle < x.due) && x.dest == .reg f

def Strand.predBusy (t : Strand) (cycle : Nat) (p : Preg) : Bool :=
  t.flights.any fun x => decide (cycle < x.due) && match x.dest with
    | .preds m => m.getLsbD p.toNat
    | _ => false

/-- q holds a value the next word may read (R49): its writer is at most three issues back. -/
def Strand.qLive (t : Strand) : Bool := t.qAt ≠ 0 && decide (t.issues + 1 ≤ t.qAt + 3)

/-- A scalar field as a source (rd of R93). A read that R49, R64 or R65 leaves undefined gives a free value; pos tells
the operand positions of one word apart. -/
def rd (s : State) (f : Sreg) (pos : Nat) : W :=
  let t := s.me
  if t.regBusy s.cycle f then Config.freeWord s.fresh pos
  else if f = 0 ∧ t.qLive = false then Config.freeWord s.fresh pos
  else t.regs.get f.toFin

/-- A predicate as a source (R50, R104): p0 reads true. -/
def rdp (s : State) (p : Preg) (pos : Nat) : Bool :=
  if p = 0 then true
  else if s.me.predBusy s.cycle p then Config.freeBool s.fresh pos
  else s.me.preds.getLsbD p.toNat

/-- A write to a scalar field with its latency bound (wr of R93, R63). Field 0 writes q (R49). -/
def Strand.wrReg (t : Strand) (cycle : Nat) (f : Sreg) (v : W) (bound : Nat) (fl : Option (BitVec 5)) : Strand :=
  { t with
    regs := t.regs.set f.toNat v (by have := f.isLt; omega)
    flights := t.flights ++ [⟨.reg f, cycle + bound, fl, cycle⟩]
    qAt := if f = 0 then t.issues + 1 else t.qAt
    qDue := if f = 0 then cycle + bound else t.qDue }

def wr (f : Sreg) (v : W) (bound : Nat) (s : State) : State := s.modMe (·.wrReg s.cycle f v bound none)

/-- A write of the predicates in mask (R50): p0 is never written. -/
def Strand.wrPreds (t : Strand) (cycle : Nat) (mask v : BitVec 8) (bound : Nat) (fl : Option (BitVec 5)) : Strand :=
  let m := mask &&& 0xfe
  { t with
    preds := (t.preds &&& ~~~m) ||| (v &&& m)
    flights := t.flights ++ [⟨if m = 0 then .nothing else .preds m, cycle + bound, fl, cycle⟩] }

def wrp (p : Preg) (v : Bool) (bound : Nat) (fl : Option (BitVec 5)) (s : State) : State :=
  s.modMe (·.wrPreds s.cycle (1 <<< p.toNat) (if v then 0xff else 0) bound fl)

/-- A landing (R58): the sticky flags gather, LAST is replaced. -/
def Strand.landFlags (t : Strand) : Option (BitVec 5) → Strand
  | none => t
  | some f => { t with xfflags := (t.xfflags &&& 0x1f) ||| f.setWidth 13 ||| (f.setWidth 13 <<< 8) }

/-- How many of the results that stay in flight are older than the youngest that lands flags at a core cycle. -/
def olderThanLast (cycle : Nat) : List Flight → Nat → Option Nat → Option Nat
  | [], _, p => p
  | x :: r, n, p =>
    if x.due ≤ cycle then olderThanLast cycle r n (if x.fl.isSome then some n else p) else olderThanLast cycle r (n + 1) p

/-- Every result whose bound has passed lands, in issue order (R64); LAST is the youngest's (R58). -/
def Strand.landDue (t : Strand) (cycle : Nat) : Strand :=
  let t' := (t.flights.filter (fun x => decide (x.due ≤ cycle))).foldl (fun a x => a.landFlags x.fl) t
  let p := olderThanLast cycle t.flights 0 none
  { t' with
    flights := t.flights.filter (fun x => decide (cycle < x.due))
    lastAt := if p.isSome then cycle else t.lastAt
    lastPos := p.getD t.lastPos }

/-- The latest bound in flight, xlates included (R67), or the cycle itself. -/
def Strand.latest (t : Strand) (cycle : Nat) : Nat :=
  t.xlates.foldl (fun a x => max a x.due) (t.flights.foldl (fun a x => max a x.due) cycle)

/-! Control registers (R55 to R62). -/

def stBit (w : W) (i : Nat) : Bool := w.getLsbD i
def setBit (w : W) (i : Nat) (b : Bool) : W := if b then w ||| (1 <<< i) else w &&& ~~~((1 : W) <<< i)

/-- The allotment of a strand (R57): 8, 16, 24 or 32. -/
def Strand.allot (t : Strand) : Nat := 8 * ((t.xstatus.toNat / 256) % 4 + 1)

/-- xflq (R59): HEAD, COUNT, HALT, HIDX. -/
def Strand.xflq (t : Strand) : W :=
  BitVec.ofNat 64 (t.flqHead.toNat + 8 * t.flq.length +
    match t.flqHalt with
    | some h => 128 + 256 * h.idx.toNat
    | none => 0)

/-- xid (R59): strand, cluster within the die, die, context. -/
def xidOf (c : Cl) (k : Sn) (ctx : Fin 64) : W :=
  BitVec.ofNat 64 (k.val + 4 * (c.val % 16) + 64 * (c.val / 16) + 256 * ctx.val)

/-- xstatus as read: NM shows the power-narrowed mode (R283). -/
def xstatusOf (co : Core) (t : Strand) : W := setBit t.xstatus 4 co.narrowed

/-- The value of a control register as strand k of cluster c reads it; none for an unassigned number (R55, R56). -/
def readCtl (s : State) (c : Cl) (k : Sn) (n : BitVec 8) : Option W :=
  let co := s.core c
  let t := co.strand k
  match n.toNat with
  | 0x00 => some (xstatusOf co t)
  | 0x01 => some t.xcause
  | 0x02 => some t.xepc
  | 0x03 => some t.xtval
  | 0x04 => some t.xstklim
  | 0x05 => some (t.xfpmode.setWidth 64)
  | 0x06 => some (t.xfflags.setWidth 64)
  | 0x07 => some (t.xtmask.setWidth 64)
  | 0x08 => some t.xrep
  | 0x09 => some t.xt
  | 0x0a => some (co.xjoin.setWidth 64)
  | 0x0b => some (xidOf c k (s.ctxOf c))
  | 0x0c => some co.xtbase
  | 0x0d => some t.xscratch
  | 0x0e => some t.xflq
  | 0x0f => some (co.xgen.setWidth 64)
  | 0x10 => some (co.mbox.get 0)
  | 0x11 => some (co.mbox.get 1)
  | 0x12 => some (co.mbox.get 2)
  | 0x13 => some (co.mbox.get 3)
  | 0x14 => some (co.mbox.get 4)
  | 0x15 => some (co.mbox.get 5)
  | 0x16 => some (co.mbox.get 6)
  | 0x17 => some (co.mbox.get 7)
  | 0x18 => some t.loop0.count
  | 0x19 => some t.loop0.start
  | 0x1a => some t.loop0.last
  | 0x1b => some t.loop1.count
  | 0x1c => some t.loop1.start
  | 0x1d => some t.loop1.last
  | 0x20 => some s.xtick
  | 0x21 => some co.xframe
  | 0x22 => some co.xvalid
  | 0x23 => some s.xtime
  | _ => none

/-- How a control register may be written (R55): at task level, at firmware level only, or never. -/
inductive CtlAccess where
  | task | firmware | never
  deriving DecidableEq, Repr

def ctlAccess (n : BitVec 8) : CtlAccess :=
  let v := n.toNat
  if v = 0x09 ∨ v = 0x0b ∨ v = 0x0f ∨ v = 0x20 ∨ v = 0x21 ∨ v = 0x23 then .never
  else if v = 0x0c ∨ v = 0x0e then .firmware
  else if v ≤ 0x1d ∨ v = 0x22 then .task
  else .never

/-- Registers that belong to the core and not to a strand (R55). -/
def ctlCore (n : BitVec 8) : Bool :=
  let v := n.toNat
  v == 0x0a || v == 0x0c || (decide (0x10 ≤ v) && decide (v ≤ 0x17)) || v == 0x22

/-- The new value of a register, from the operation and the old value (R160). -/
def CtlOp.apply (op : CtlOp) (old v : W) : W :=
  match op with
  | .write => v
  | .set => old ||| v
  | .clear => old &&& ~~~v

/-- A program counter is a multiple of 4 (R71): the low bits of what it is taken from are ignored. -/
def alignPc (w : W) : W := w &&& ~~~3

/-- The end-of-body check (R117) on the word at w: the loop counts after it, and where the body starts again if it does. -/
def loopCheck (t : Strand) (w : W) : Strand × Option W :=
  let hit1 : Bool := t.loop1.count ≠ 0 && w == t.loop1.last
  let t1 := if hit1 then { t with loop1 := { t.loop1 with count := t.loop1.count - 1 } } else t
  if hit1 && t1.loop1.count ≠ 0 then (t1, some t1.loop1.start)
  else
    let hit0 : Bool := t1.loop0.count ≠ 0 && w == t1.loop0.last
    let t0 := if hit0 then { t1 with loop0 := { t1.loop0 with count := t1.loop0.count - 1 } } else t1
    (t0, if hit0 && t0.loop0.count ≠ 0 then some t0.loop0.start else none)

/-- The strand goes on behind the word at w: to the body start if the check returns there, else to next (R117). Of a body start
that xwr left unaligned the low bits are ignored (R71, log 69). -/
def endCheck (t : Strand) (w next : W) : Strand :=
  { (loopCheck t w).1 with pc := ((loopCheck t w).2.map alignPc).getD next }

/-- The repetition of R121 is over: the strand goes on behind the repeated word, which is checked. -/
def Strand.endRep (t : Strand) : Strand :=
  endCheck { t with xrep := 0, inRep := false } (t.pc + 4) (t.pc + 8)

/-- A control-register write of a strand takes effect (R56, R57, R59): reserved and read-only bits stay. A count written to
xrep outside a repetition is stored, and starts none before an eret (log 67). -/
def Strand.applyCtl (t : Strand) (n : BitVec 8) (op : CtlOp) (v : W) : Strand :=
  match n.toNat with
  | 0x00 =>
    let x := op.apply t.xstatus v
    { t with xstatus := (t.xstatus &&& ~~~0x5) ||| (x &&& 0x5) }
  | 0x01 => { t with xcause := op.apply t.xcause v &&& 0xffff01ff }
  | 0x02 => { t with xepc := op.apply t.xepc v }
  | 0x03 => { t with xtval := op.apply t.xtval v }
  | 0x04 => { t with xstklim := op.apply t.xstklim v }
  | 0x05 => { t with xfpmode := (op.apply (t.xfpmode.setWidth 64) v).setWidth 3 }
  | 0x06 => { t with xfflags := (op.apply (t.xfflags.setWidth 64) v).setWidth 13 &&& 0x1f1f }
  | 0x07 => { t with xtmask := (op.apply (t.xtmask.setWidth 64) v).setWidth 8 }
  | 0x08 =>
    let x := op.apply t.xrep v
    if t.inRep ∧ x.setWidth 32 = (0 : BitVec 32) then t.endRep else { t with xrep := x }
  | 0x0d => { t with xscratch := op.apply t.xscratch v }
  | 0x0e =>
    let x := (op.apply t.xflq v).toNat
    { t with
      flqHead := BitVec.ofNat 3 x
      flq := (t.flq ++ List.replicate 8 (FlqEntry.mk 0 .waiting)).take (min 8 (bits x 3 4))
      flqHalt := if bits x 7 1 = 1 then some ⟨BitVec.ofNat 3 (bits x 8 3), (t.flqHalt.map FlqHalt.fault).getD (XFault.mk 0x20 0 false)⟩
        else none }
  | 0x18 => { t with loop0 := { t.loop0 with count := op.apply t.loop0.count v } }
  | 0x19 => { t with loop0 := { t.loop0 with start := op.apply t.loop0.start v } }
  | 0x1a => { t with loop0 := { t.loop0 with last := op.apply t.loop0.last v } }
  | 0x1b => { t with loop1 := { t.loop1 with count := op.apply t.loop1.count v } }
  | 0x1c => { t with loop1 := { t.loop1 with start := op.apply t.loop1.start v } }
  | 0x1d => { t with loop1 := { t.loop1 with last := op.apply t.loop1.last v } }
  | _ => t

/-- The rendezvous completes when every strand of the effective mask has arrived (R70): strands in xjoin that run. With an
empty effective mask it is complete, and a standing arrival ends (log 67). A strand that has arrived and is taken out of xjoin by a
write stays held until the others' rendezvous completes (DESIGN CHOICE, log 69). -/
def Core.settleRendezvous (x : Core) : Core :=
  let ready := (List.finRange 4).all fun k => !(x.xjoin.getLsbD k.val) || (x.strand k).state != .run || (x.strand k).zWait
  if ready then { x with strands := x.strands.each fun t => { t with zWait := false } } else x

/-- A core-scope control-register write takes effect (R56, R61, R62); a new xjoin may complete the rendezvous (R70). -/
def Core.applyCtl (x : Core) (cycle : Nat) (n : BitVec 8) (op : CtlOp) (v : W) : Core :=
  let i := n.toNat
  if i = 0x0a then { x with xjoin := (op.apply (x.xjoin.setWidth 64) v).setWidth 4 }.settleRendezvous
  else if i = 0x0c then { x with xtbase := op.apply x.xtbase v }
  else if i = 0x22 then { x with xvalid := if op = .clear then x.xvalid else x.xvalid ||| v }
  else
    let m : Fin 8 := Fin.ofNat 8 i
    { x with mbox := x.mbox.set m.val (op.apply (x.mbox.get m) v), mboxAt := x.mboxAt.set m.val (cycle + 1) }

/-- The writes of a strand that take effect by a core cycle, in issue order (R56). -/
def Strand.settleCtl (t : Strand) (cycle : Nat) : Strand :=
  let t' := (t.ctl.filter (fun x => decide (x.due ≤ cycle))).foldl (fun a x => a.applyCtl x.num x.op x.val) t
  { t' with ctl := t.ctl.filter (fun x => decide (cycle < x.due)) }

def Core.settleCtl (x : Core) (cycle : Nat) : Core :=
  let x' := (x.ctl.filter (fun w => decide (w.due ≤ cycle))).foldl (fun a w => a.applyCtl cycle w.num w.op w.val) x
  { x' with ctl := x.ctl.filter (fun w => decide (cycle < w.due)) }

/-! Issue (R68 to R70, R272). -/

/-- The gap field after issue (R68, R69): switch-away holds until the latest bound in flight, or acts as gap 01. -/
def Strand.applyGap (t : Strand) (cycle : Nat) (gap : BitVec 2) : Strand :=
  match gap.toNat with
  | 0 => t
  | 1 => { t with gapUntil := cycle + 2 }
  | 2 => { t with gapUntil := cycle + 3 }
  | _ =>
    if cycle < t.latest cycle then { t with swUntil := t.latest cycle } else { t with gapUntil := cycle + 2 }

/-- The strand arrives at the rendezvous by a Z-marked word (R70). -/
def Core.arriveZ (x : Core) (k : Sn) : Core :=
  if x.xjoin.getLsbD k.val ∧ (x.strand k).state = .run then
    (x.modStrand k fun t => { t with zWait := true }).settleRendezvous
  else x

/-- The word issues (R43, R49, R272): it counts, its gap applies, the recency order turns, its rendezvous mark arrives
(under a repetition with the last iteration, R122). -/
def issue (m : Marks) (s : State) : State :=
  let k := s.cur.k
  let last := !s.me.inRep || decide ((s.me.xrep.setWidth 32 : BitVec 32) = 1)
  let s1 := s.modMyCore fun x =>
    let x1 := x.modStrand k fun t => { (t.applyGap s.cycle m.gap) with issues := t.issues + 1 }
    let x2 := { x1 with order := x1.order.filter (· ≠ k) ++ [k], issued := s.cycle + 1 }
    if m.z ∧ last then x2.arriveZ k else x2
  { s1 with fresh := s1.fresh + 1 }

/-- The strand goes on behind a word that issued without a trap (R117, R121): to a target, past the word with the
end-of-body check, or to the next iteration of a repetition. -/
def Strand.advance (t : Strand) (target : Option W) : Strand :=
  if t.inRep then
    let c := (t.xrep.setWidth 32 : BitVec 32)
    let d := ((t.xrep >>> 32).setWidth 32 : BitVec 32)
    if c = 1 ∨ c = 0 then t.endRep
    else { t with xrep := (c - 1).setWidth 64 ||| ((d + 1).setWidth 64 <<< 32) }
  else match target with
    | some pc => { t with pc := pc }
    | none => endCheck t t.pc (t.pc + 4)

/-- A word issues and the strand goes on (R117). -/
def retire (m : Marks) (s : State) : State := (issue m s).modMe (·.advance none)

/-- A transfer of control issues (R113). -/
def retireTo (m : Marks) (target : W) (s : State) : State := (issue m s).modMe (·.advance (some target))

/-- A word that cannot issue in this core cycle (R272): nothing changes but that the selector has passed it by. -/
def hold (s : State) : State := s.modMe fun t => { t with tried := s.cycle + 1 }

/-! Exceptions. -/

/-- Address of the text of a gang's kernel (R292). -/
def Gang.text (g : Gang) : W := g.base + BitVec.ofNat 64 g.image.textOff

/-- The handler of a cause code (R292): its own entry, else the default; none when that is not valid either. -/
def Gang.handler (g : Gang) (code : BitVec 8) : Option W :=
  let e := (g.image.traps[code.toNat]?).getD 0
  let e' := if e.getLsbD 63 then e else (g.image.traps[0]?).getD 0
  if e'.getLsbD 63 then some (alignPc (g.text + (e'.setWidth 32).setWidth 64)) else none

/-- An event for the launch's completion record (R295, R334). -/
def Core.addEvent (x : Core) (e : FirstEvent) : Core := { x with events := x.events ++ [e] }

/-- A pending asynchronous trap finds a strand (R186): the recorded one while it lives, else the lowest in Run, else the
completion record. -/
def Core.addAsync (x : Core) (cycle : Nat) (k : Sn) (a : AsyncTrap) : Core :=
  let live := (x.strand k).state == .run || (x.strand k).state == .handler
  let who := if live then some k else (List.finRange 4).find? fun j => (x.strand j).state == .run
  match who with
  | some j => x.modStrand j fun t => { t with asyncs := t.asyncs ++ [a] }
  | none => x.addEvent ⟨cycle, k, a.code.setWidth 64 ||| (a.detail.setWidth 64 <<< 16), 0, a.tval, false, true⟩

/-- A wait that holds a strand is withdrawn, having taken nothing, and loses its place (R141, R146, R285). -/
def Core.withdraw (x : Core) (k : Sn) : Core :=
  if (x.strand k).wait.isSome then
    { x.modStrand k fun t => { t with wait := none } with
      tiles := x.tiles.each fun y =>
        { y with semQ := y.semQ.filter (·.who ≠ .strand k), semNew := y.semNew.filter (·.who ≠ .strand k) } }
  else x

/-- The effects of halting a strand (R114, R70, R186): the queue's unpopped results go, its traps go to another strand,
the rendezvous completes among those that remain. -/
def Core.haltStrand (x : Core) (cycle : Nat) (k : Sn) : Core :=
  let t := x.strand k
  let x1 := (x.withdraw k).setStrand k
    { t with state := .halted, flq := [], inRep := false, zWait := false, wait := none, fw := none, mboxInt := none, asyncs := [] }
  (t.asyncs.foldl (fun a y => a.addAsync cycle k y) x1).settleRendezvous

/-- The participants of a barrier: declared strands of every member that have not halted (R151). -/
def participants (s : State) (g : Gang) : Nat :=
  (g.members.map fun m => (s.core m.phys).strands.toList.countP fun t => t.state == .run || t.state == .handler).sum

/-- A phase completes when as many strands have arrived as take part (R152). -/
def settleBarrier (s : State) (g : Gang) (b : Barrier) : Barrier :=
  if b.arrived ≠ [] ∧ participants s g ≤ b.arrived.length then ⟨b.phase + 1, []⟩ else b

/-- While a node-boundary request waits, b15 does not complete at once: its strands stand ungranted until the yield point of
the tick is tested (R350). -/
def Gang.keepsOpen (g : Gang) (b : Nat) : Bool := b == 15 && g.preempt == some .node

/-- A strand of cluster c has halted: pending phases of its gang's barriers that now have every participant complete (R151). -/
def State.settleBars (s : State) (c : Cl) : State :=
  match s.gangOf c with
  | some g =>
    let settled (y : Gang) (b : Fin 16) : Barrier := if g.keepsOpen b.val then y.bars.get b else settleBarrier s g (y.bars.get b)
    s.modGang g.id fun y => { y with bars := Vector.ofFn (settled y) }
  | none => s

/-- Strand k of cluster c halts (R114), in this core cycle for its gang's barriers too. -/
def State.halt (s : State) (c : Cl) (k : Sn) : State := (s.modCore c (·.haltStrand s.cycle k)).settleBars c

/-- A trap's registers (R293): xepc, xcause, xtval; IE and LVL are saved, IE cleared, TR set. -/
def Strand.saveTrap (t : Strand) (code : BitVec 8) (fwl : Bool) (detail : BitVec 16) (tval epc : W) : Strand :=
  let x := t.xstatus
  { t with
    xepc := epc
    xcause := code.setWidth 64 ||| (if fwl then 0x100 else 0) ||| (detail.setWidth 64 <<< 16)
    xtval := tval
    xstatus := setBit (setBit (setBit (setBit x 2 (stBit x 0)) 3 (stBit x 1)) 0 false) 6 true }

/-- Entering the handler (R293, R294): its first word is eligible three core cycles after the later of now and the latest
bound in flight; q becomes undefined (R49). -/
def Strand.enterHandler (t : Strand) (cycle : Nat) (pc : W) : Strand :=
  { t with
    state := .handler
    pc := pc
    qAt := 0
    inRep := false
    wait := none
    tld := false
    drainUntil := t.latest cycle + 3 }

/-- Taking an exception on strand k of cluster c (R293, R295). `sync` marks a synchronous cause: in the handler it is a
double trap, which halts the strand and changes none of the trap registers; a cause without a valid handler halts it
too. Control-register writes under way take effect first. -/
def takeTrap (s : State) (c : Cl) (k : Sn) (sync : Bool) (code : BitVec 8) (fwl : Bool) (detail : BitVec 16)
    (tval epc : W) : State :=
  let t := (s.strand c k).settleCtl (s.cycle + 2)
  let cause : W := code.setWidth 64 ||| (if fwl then 0x100 else 0) ||| (detail.setWidth 64 <<< 16)
  let s' := { s with fresh := s.fresh + 1 }
  if sync ∧ t.state = .handler then
    (s'.modCore c (·.addEvent ⟨s.cycle, k, cause, epc, tval, true, false⟩)).halt c k
  else
    let t' := t.saveTrap code fwl detail tval epc
    match (s.gangOf c).bind (·.handler code) with
    | some pc => s'.modCore c fun x => ((x.withdraw k).setStrand k (t'.enterHandler s.cycle pc)).settleRendezvous
    | none => (s'.modCore c fun x => ((x.withdraw k).setStrand k t').addEvent ⟨s.cycle, k, cause, epc, tval, false, false⟩).halt c k

/-- A synchronous trap of the word that issues (R290 class S): epc is the word's address, or the rep word's (R123). -/
def trap (s : State) (code : BitVec 8) (detail : BitVec 16) (tval : W) : State :=
  takeTrap s s.cur.c s.cur.k true code false detail tval s.me.pc

/-- Illegal instruction: the word in xtval (R79, R94). -/
def trapIllegal (s : State) : State := trap s 0x01 0 (s.cur.word.setWidth 64)

/-- Address fault (R127, R128). -/
def trapAddress (s : State) (reason : Nat) (x : W) : State := trap s 0x04 (BitVec.ofNat 16 reason) x

/-- Object identity (R128): kind 1 semaphore, 2 ring, 3 barrier, 4 waitv, 5 engine queue. -/
def objId (kind tile num : Nat) : BitVec 16 := BitVec.ofNat 16 (kind * 4096 + tile * 256 + num)

/-- Object fault (R128). -/
def trapObject (s : State) (reason : Nat) (ident : BitVec 16) : State := trap s 0x05 ident (BitVec.ofNat 64 reason)

/-- A firmware-level cause holds the strand (R297): nothing of its registers changes; the die's firmware core receives
the fault (R346). -/
def firmHold (s : State) (c : Cl) (k : Sn) (code : BitVec 8) (detail : BitVec 16) (tval : W) : State :=
  let t := s.strand c k
  let e : FaultEntry :=
    { code := code, write := code != 0x22 && detail == 1, src := 0, ctx := s.ctxOf c, cluster := c, unit := k.val, tile := 0,
      operand := 0, va := tval, seq := t.pc, n := 0, agent := none }
  let s1 := s.setStrand c k { t with fw := some ⟨code, detail, tval⟩ }
  { s1.addFault (dieOf c) e with fresh := s1.fresh + 1 }

/-- The word that issues faults on translation (R128, R347): detail 0 for a read, 1 for a write. -/
def holdTranslation (s : State) (code : BitVec 8) (write : Bool) (addr : W) : State :=
  firmHold s s.cur.c s.cur.k code (if write then 1 else 0) addr

/-- A launch records an event of a purge (R403). -/
def Launch.purgeEvent (l : Launch) (e : LaunchEvent) (onChip : Bool) : Launch :=
  { l with faulted := true, offChip := l.offChip || !onChip, events := l.events ++ [e], consumed := some (l.consumed.getD e) }

/-- The request tag of a launch's packet (R313). -/
def Launch.tag (l : Launch) : BitVec 16 := BitVec.ofNat 16 (bits ((l.packet[6]?).getD 0).toNat 48 16)

/-- A launch that a purge of a context and tag reaches: one that has not ended, or has a gang that is not released (R401). -/
def State.bears (s : State) (x : Fin 64) (tag : BitVec 16) (l : Launch) : Bool :=
  l.ctx == x && l.tag == tag && (l.status.isNone || s.gangs.any (·.launch == l.id))

/-- Work of a context and tag has consumed poison (R399): the launches reached record the event, and the purge follows. -/
def beginPurge (s : State) (x : Fin 64) (tag : BitVec 16) (e : LaunchEvent) (onChip : Bool) : State :=
  { s with
    launches := s.launches.map fun l => if s.bears x tag l then l.purgeEvent e onChip else l
    todo := .purge x tag :: s.todo }

/-- A machine check of a strand (R399): it is held, and its launch's context and tag are purged. -/
def machineCheck (s : State) (c : Cl) (k : Sn) (unit : Nat) (addr : W) : State :=
  let e : FirstEvent := ⟨s.cycle, k, BitVec.ofNat 64 (unit * 2 ^ 16 + 0x122), (s.strand c k).pc, addr, false, false⟩
  let s1 := firmHold s c k 0x22 (BitVec.ofNat 16 unit) addr
  match s.gangOf c with
  | some g => beginPurge s1 g.ctx g.tag ⟨c, false, e⟩ (unit ≠ 4)
  | none => s1

/-- A task record is created in a die's pool, or in its spill queue when the pool is full (R322, R323). -/
def addRecord (d : Die) (r : TaskRec) (s : State) : State :=
  let r' := { r with made := s.made }
  { s.modDie d fun x =>
      if x.pool.length < 4096 ∧ x.spill = [] then { x with pool := x.pool ++ [r'] } else { x with spill := x.spill ++ [r'] } with
    made := s.made + 1 }

/-- Return from an exception (R162, R67): IE and LVL come back, TR clears; a repetition resumes at the rep word (R123);
q is undefined. -/
def Strand.eret (t : Strand) : Strand :=
  let x := t.xstatus
  { t with
    state := .run
    xstatus := setBit (setBit (setBit x 0 (stBit x 2)) 1 (stBit x 3)) 6 false
    inRep := decide ((t.xrep.setWidth 32 : BitVec 32) ≠ 0)
    pc := alignPc t.xepc
    qAt := 0 }

/-- The first register field at or beyond the allotment, in the order d, a, b, c (R47, R94). -/
def badField (n : Nat) (fields : List Nat) : Option Nat := fields.find? (fun f => decide (n ≤ f))

/-- The frame of every word (R43, R47): a word issues only on a strand in Run or Handler; its register fields are checked
against the allotment before anything changes; then it has its own effect. -/
def issueWord (fields : List Nat) (body : State → State) (s : State) : Host.Outcome State Fault Refusal :=
  if s.me.state = .run ∨ s.me.state = .handler then
    match badField s.me.allot fields with
    | some f => .next (trap s 0x02 (BitVec.ofNat 16 f) (s.cur.word.setWidth 64))
    | none => .next (body s)
  else .fault .noRunningStrand

/-- A word with a condition that makes it illegal when it issues (R56, R162, R163): the illegal-instruction trap comes
before the allotment fault (R79). -/
def issueLegal (legal : State → Bool) (fields : List Nat) (body : State → State) (s : State) :
    Host.Outcome State Fault Refusal :=
  if legal s then issueWord fields body s else issueWord [] trapIllegal s

/-- A word that writes one scalar register and goes on (R63). -/
def writeBack (m : Marks) (d : Sreg) (v : W) (bound : Nat) (s : State) : State := retire m (wr d v bound s)

end Sys2Proof.Machine
end

