-- ==== Sys2Proof/Machine/Operands.lean ====
section
/-! DEFINITION. Operand forms: immediates and displacements (03 R77), addresses of memory words (05 R130), conditions
(04 R102), the rounding mode in force (04 R106). -/

namespace Sys2Proof.Machine

/-- A signed immediate, extended to 64 bits (R77). -/
def simm {n : Nat} (i : BitVec n) : W := i.signExtend 64

/-- An unsigned immediate. -/
def uimm {n : Nat} (i : BitVec n) : W := i.setWidth 64

/-- A displacement in words (R77, R113). -/
def disp {n : Nat} (i : BitVec n) : W := i.signExtend 64 <<< 2

/-- The address of a MEM-format word: base plus off6 scaled by the access size, modulo 2^64 (R130). -/
def memAddr (base : W) (off : BitVec 6) (n : Nat) : W := base + off.signExtend 64 * BitVec.ofNat 64 n

/-- The conditions of cmp, cmpi and waitv (R102, R153): 0 eq, 1 ne, 2 lt, 3 ge, 4 ltu, 5 geu. -/
def condHolds (cond : Nat) (x y : W) : Bool :=
  match cond with
  | 0 => x == y
  | 1 => x != y
  | 2 => BitVec.slt x y
  | 3 => !BitVec.slt x y
  | 4 => BitVec.ult x y
  | _ => !BitVec.ult x y

/-- xfpmode.RM in force at issue (R106): codes 5 to 7 round as RNE. -/
def rmNow (s : State) : Nat := if s.me.xfpmode.toNat ≤ 4 then s.me.xfpmode.toNat else 0

end Sys2Proof.Machine
end

