-- ==== Sys2Proof/Machine/Alu.lean ====
section
/-! DEFINITION. Integer, immediate, bitfield, select and multiply-add words (04 R95 to R100). -/

namespace Sys2Proof.Machine

/-! Results (R96). -/

/-- Bits 127:64 of the signed product. -/
def mulHigh (x y : W) : W := BitVec.ofInt 64 (x.toInt * y.toInt / 2 ^ 64)

/-- Bits 127:64 of the unsigned product. -/
def mulHighU (x y : W) : W := BitVec.ofNat 64 (x.toNat * y.toNat / 2 ^ 64)

def intMax : W := 0x7fffffffffffffff
def intMin : W := 0x8000000000000000

/-- Signed quotient, truncated and saturated; a zero divisor gives the limit with the dividend's sign. -/
def divS (x y : W) : W :=
  if y = 0 then (if 0 < x.toInt then intMax else if x.toInt < 0 then intMin else 0)
  else if x = intMin ∧ y.toInt = -1 then intMax
  else BitVec.ofInt 64 (x.toInt.tdiv y.toInt)

/-- Unsigned quotient; a zero divisor gives all ones, or 0 for 0. -/
def divU (x y : W) : W :=
  if y = 0 then (if x = 0 then 0 else BitVec.allOnes 64) else BitVec.ofNat 64 (x.toNat / y.toNat)

/-- Signed remainder with the sign of x; 0 for a zero divisor. -/
def remS (x y : W) : W := if y = 0 then 0 else BitVec.ofInt 64 (x.toInt.tmod y.toInt)

def remU (x y : W) : W := if y = 0 then 0 else BitVec.ofNat 64 (x.toNat % y.toNat)

/-- Shift count: the low six bits. -/
def shCount (y : W) : Nat := y.toNat % 64

def sraBy (x : W) (n : Nat) : W := x.sshiftRight n

def minS (x y : W) : W := if y.slt x then y else x
def maxS (x y : W) : W := if x.slt y then y else x
def minU (x y : W) : W := if y.ult x then y else x
def maxU (x y : W) : W := if x.ult y then y else x

def leadingZeros (x : W) : W := if x = 0 then 64 else BitVec.ofNat 64 (63 - Nat.log2 x.toNat)

def trailingZeros (x : W) : W := BitVec.ofNat 64 (((List.range 64).find? fun i => x.getLsbD i).getD 64)

def popCount (x : W) : W := BitVec.ofNat 64 ((List.range 64).countP fun i => x.getLsbD i)

/-- A three-register word: rd(a) and rd(b) to d with a latency bound. -/
def alu3 (f : W → W → W) (bound : Nat) (m : Marks) (d a b : Sreg) (s : State) : Host.Outcome State Fault Refusal :=
  issueWord [d.toNat, a.toNat, b.toNat] (fun s => writeBack m d (f (rd s a 1) (rd s b 2)) bound s) s

/-- A one-source word: rd(a) to d. -/
def alu2 (f : W → W) (bound : Nat) (m : Marks) (d a : Sreg) (s : State) : Host.Outcome State Fault Refusal :=
  issueWord [d.toNat, a.toNat] (fun s => writeBack m d (f (rd s a 1)) bound s) s

def execAdd (m : Marks) (d a b : Sreg) (s : State) := alu3 (· + ·) 1 m d a b s
def execSub (m : Marks) (d a b : Sreg) (s : State) := alu3 (· - ·) 1 m d a b s
def execMul (m : Marks) (d a b : Sreg) (s : State) := alu3 (· * ·) 3 m d a b s
def execMulh (m : Marks) (d a b : Sreg) (s : State) := alu3 mulHigh 3 m d a b s
def execMulhu (m : Marks) (d a b : Sreg) (s : State) := alu3 mulHighU 3 m d a b s
def execDiv (m : Marks) (d a b : Sreg) (s : State) := alu3 divS 34 m d a b s
def execDivu (m : Marks) (d a b : Sreg) (s : State) := alu3 divU 34 m d a b s
def execRem (m : Marks) (d a b : Sreg) (s : State) := alu3 remS 34 m d a b s
def execRemu (m : Marks) (d a b : Sreg) (s : State) := alu3 remU 34 m d a b s
def execAnd (m : Marks) (d a b : Sreg) (s : State) := alu3 (· &&& ·) 1 m d a b s
def execOr (m : Marks) (d a b : Sreg) (s : State) := alu3 (· ||| ·) 1 m d a b s
def execXor (m : Marks) (d a b : Sreg) (s : State) := alu3 (· ^^^ ·) 1 m d a b s
def execAndn (m : Marks) (d a b : Sreg) (s : State) := alu3 (fun x y => x &&& ~~~y) 1 m d a b s
def execShl (m : Marks) (d a b : Sreg) (s : State) := alu3 (fun x y => x <<< shCount y) 1 m d a b s
def execShr (m : Marks) (d a b : Sreg) (s : State) := alu3 (fun x y => x >>> shCount y) 1 m d a b s
def execSra (m : Marks) (d a b : Sreg) (s : State) := alu3 (fun x y => sraBy x (shCount y)) 1 m d a b s
def execMin (m : Marks) (d a b : Sreg) (s : State) := alu3 minS 1 m d a b s
def execMax (m : Marks) (d a b : Sreg) (s : State) := alu3 maxS 1 m d a b s
def execMinu (m : Marks) (d a b : Sreg) (s : State) := alu3 minU 1 m d a b s
def execMaxu (m : Marks) (d a b : Sreg) (s : State) := alu3 maxU 1 m d a b s
def execClz (m : Marks) (d a : Sreg) (s : State) := alu2 leadingZeros 1 m d a s
def execCtz (m : Marks) (d a : Sreg) (s : State) := alu2 trailingZeros 1 m d a s
def execPopc (m : Marks) (d a : Sreg) (s : State) := alu2 popCount 1 m d a s

/-! Immediate forms (R98). -/

def execAddi (m : Marks) (d a : Sreg) (i : BitVec 13) (s : State) := alu2 (· + simm i) 1 m d a s
def execAndi (m : Marks) (d a : Sreg) (i : BitVec 13) (s : State) := alu2 (· &&& simm i) 1 m d a s
def execOri (m : Marks) (d a : Sreg) (i : BitVec 13) (s : State) := alu2 (· ||| simm i) 1 m d a s
def execXori (m : Marks) (d a : Sreg) (i : BitVec 13) (s : State) := alu2 (· ^^^ simm i) 1 m d a s
def execShli (m : Marks) (d a : Sreg) (sh : BitVec 6) (s : State) := alu2 (· <<< sh.toNat) 1 m d a s
def execShri (m : Marks) (d a : Sreg) (sh : BitVec 6) (s : State) := alu2 (· >>> sh.toNat) 1 m d a s
def execSrai (m : Marks) (d a : Sreg) (sh : BitVec 6) (s : State) := alu2 (sraBy · sh.toNat) 1 m d a s

/-- li (R98). -/
def execLi (m : Marks) (d : Sreg) (i : BitVec 18) (s : State) : Host.Outcome State Fault Refusal :=
  issueWord [d.toNat] (fun s => writeBack m d (simm i) 1 s) s

/-- lih: d is source and destination (R98). -/
def execLih (m : Marks) (d : Sreg) (i : BitVec 18) (s : State) : Host.Outcome State Fault Refusal :=
  issueWord [d.toNat] (fun s => writeBack m d ((rd s d 0 <<< 18) ||| uimm i) 1 s) s

/-! Bitfields, select, multiply-add (R100). The word's len holds the length less one. -/

/-- 2^L - 1 for L = len + 1. -/
def fieldMask (len : BitVec 6) : W := BitVec.ofNat 64 (2 ^ (len.toNat + 1) - 1)

def execBfx (m : Marks) (d a : Sreg) (pos len : BitVec 6) (s : State) : Host.Outcome State Fault Refusal :=
  alu2 (fun x => (x >>> pos.toNat) &&& fieldMask len) 1 m d a s

/-- bfi: d is also a source (R100). -/
def execBfi (m : Marks) (d a : Sreg) (pos len : BitVec 6) (s : State) : Host.Outcome State Fault Refusal :=
  issueWord [d.toNat, a.toNat] (fun s =>
    let k := fieldMask len <<< pos.toNat
    writeBack m d ((rd s d 0 &&& ~~~k) ||| ((rd s a 1 &&& fieldMask len) <<< pos.toNat)) 1 s) s

def execSel (m : Marks) (d a b : Sreg) (p : Preg) (sense : Bool) (s : State) : Host.Outcome State Fault Refusal :=
  issueWord [d.toNat, a.toNat, b.toNat] (fun s =>
    writeBack m d (if rdp s p 4 != sense then rd s a 1 else rd s b 2) 1 s) s

def execMadd (m : Marks) (d a b c : Sreg) (s : State) : Host.Outcome State Fault Refusal :=
  issueWord [d.toNat, a.toNat, b.toNat, c.toNat] (fun s =>
    writeBack m d (rd s a 1 * rd s b 2 + rd s c 3) 3 s) s

end Sys2Proof.Machine
end

