-- ==== Sys2Proof/Machine/Firmware.lean ====
section
/-! DEFINITION. Firmware cores and the leader (16 R427 to R429, R438): the lease record as the island reads it, which cores run, and
which requests of firmware are taken. -/

namespace Sys2Proof.Machine

/-- The majority of three, with how many copies it corrects; none when all disagree (R409). -/
def vote {α : Type} [DecidableEq α] (a b c : α) : Option (α × Nat) :=
  if a = b then some (a, if c = a then 0 else 1)
  else if a = c then some (a, 1)
  else if b = c then some (b, 1)
  else none

/-- The lease record as the island reads it (R428): the majority; a disagreement of all three leaves the lease vacant. -/
def State.leaseNow (s : State) : LeaseRecord :=
  match vote (s.lease.get 0) (s.lease.get 1) (s.lease.get 2) with
  | some v => v.1
  | none =>
    let t := max (s.lease.get 0).term.toNat (max (s.lease.get 1).term.toNat (s.lease.get 2).term.toNat)
    { s.lease.get 0 with v := false, term := BitVec.ofNat 32 (t + 1), expiry := s.xtime }

def State.setLease (s : State) (r : LeaseRecord) : State := { s with lease := Vector.replicate 3 r }

/-- The island has booted, and its cores run until the reset. -/
def State.firmwareRuns (s : State) : Bool := s.island == .forward || s.island == .attached || s.island == .drain

/-- A firmware core that runs: core 4 while the island does, a die's core while its die is in Run. -/
def State.coreRuns (s : State) (f : Fin 5) : Bool :=
  s.firmwareRuns && !(s.fwCores.get f).restarting && (decide (f = 4) || s.dieRuns (Fin.ofNat 4 f.val))

/-- Core f leads. -/
def State.leads (s : State) (f : Fin 5) : Bool := s.coreRuns f && s.leaseNow.v && s.leaseNow.holder.toNat == f.val

/-- The island takes a request that only the leader makes: it carries the term of the lease (R428). -/
def State.heeds (s : State) (term : BitVec 32) : Bool := s.firmwareRuns && s.leaseNow.term == term

/-- A firmware core takes fault-queue entries, but for the time in which it restarts into a new image (R438). -/
def State.attends (s : State) (f : Fin 5) : Bool := !(s.fwCores.get f).restarting

/-- The firmware core of a die (R427). -/
def dieCore (d : Die) : Fin 5 := Fin.ofNat 5 d.val

/-- What firmware does about an entry of a core's fault queue. -/
def byCore (f : Fin 5) (s t : State) : State := if s.attends f then t else s

end Sys2Proof.Machine
end

