-- ==== Sys2Proof/Machine/Memory.lean ====
section
/-! DEFINITION. Memory as one list of bytes over numbered locations, and the data cache (08 R245 to R251). -/

namespace Sys2Proof.Machine

/-! Location numbers: HBM at its physical address below 2^39 (R342), then each cluster's vault (R249), each tile's
scratchpad (R4) and accumulator store (R247). -/

def hbmSize : Nat := 2 ^ 39
def vaultLoc (c : Cl) (off : Nat) : Nat := 2 ^ 40 + c.val * 2 ^ 24 + off
def spadLoc (c : Cl) (t : Tl) (off : Nat) : Nat := 2 ^ 41 + (c.val * 8 + t.val) * 2 ^ 20 + off
def accLoc (c : Cl) (t : Tl) (off : Nat) : Nat := 2 ^ 42 + (c.val * 8 + t.val) * 2 ^ 18 + off

/-- What an unlisted location reads as: zero, the contents SRAM has after die boot (R423); for HBM the model's choice
(log 3). -/
def blankByte : Byte := 0

/-- The byte at a location. -/
def memGet : List Host.Cell → Nat → Byte
  | [], _ => blankByte
  | (a, b) :: r, x => if a = x then b else if x < a then blankByte else memGet r x

/-- The list with one byte written, in canonical form: addresses rise, and no entry holds what an unlisted location
reads as. -/
def memSet : List Host.Cell → Nat → Byte → List Host.Cell
  | [], x, v => if v = blankByte then [] else [(x, v)]
  | (a, b) :: r, x, v =>
    if x < a then (if v = blankByte then (a, b) :: r else (x, v) :: (a, b) :: r)
    else if a = x then (if v = blankByte then r else (x, v) :: r)
    else (a, b) :: memSet r x v

/-- Addresses rise strictly from lo on, and no entry holds the blank byte. -/
def memWfFrom : Nat → List Host.Cell → Bool
  | _, [] => true
  | lo, (a, b) :: r => decide (lo ≤ a) && decide (b ≠ blankByte) && memWfFrom (a + 1) r

/-- The canonical form of the memory list. -/
def Memory.wf (m : List Host.Cell) : Bool := memWfFrom 0 m

/-- Where an access under a retired key goes (R355, R434): nothing is stored there, and it reads as zeros. -/
def nowhere : Nat := 2 ^ 43

/-- The home die of a device-memory location (R248). -/
def homeDie (x : Nat) : Die := Fin.ofNat 4 (x / 2 ^ 37)

/-- Device memory behind an uncore that is off (R411): reads return poison, writes are dropped. -/
def State.uncoreOff (s : State) (x : Nat) : Bool := decide (x < hbmSize) && !(s.die (homeDie x)).uncore

def State.byte (s : State) (x : Nat) : Byte := memGet s.mem x
def State.setByte (s : State) (x : Nat) (v : Byte) : State :=
  if nowhere ≤ x ∨ s.uncoreOff x = true then s else { s with mem := memSet s.mem x v }

/-- n bytes at home, ascending (R12). -/
def readHome (s : State) (x : Nat) : Nat → List Byte
  | 0 => []
  | n + 1 => s.byte x :: readHome s (x + 1) n

def writeBytes (s : State) (x : Nat) : List Byte → State
  | [] => s
  | b :: r => writeBytes (s.setByte x b) (x + 1) r

/-- The marks that a write of n bytes leaves (R398): one that covers a whole line clears its mark, unless the write is dropped
at an uncore that is off (R411). -/
def State.marksPast (s : State) (x n : Nat) : List Nat :=
  if s.uncoreOff x then s.poison else s.poison.filter fun l => !(decide (x ≤ 64 * l) && decide (64 * l + 64 ≤ x + n))

/-- A write at home. -/
def writeHome (s : State) (x : Nat) (bs : List Byte) : State := writeBytes { s with poison := s.marksPast x bs.length } x bs

/-- A byte that an agent writes in ascending order after `run` others: the last of a line that it has written whole clears the
line's mark (R398). -/
def State.putByte (s : State) (x : Nat) (v : Byte) (run : Nat) : State :=
  { s with poison := if 63 ≤ run ∧ x % 64 = 63 then s.marksPast (x / 64 * 64) 64 else s.poison }.setByte x v

/-- The first poisoned line that an access of n bytes touches (R398). -/
def State.poisonedIn (s : State) (x n : Nat) : Option Nat :=
  if s.uncoreOff x then some (x / 64) else s.poison.find? fun l => decide (64 * l < x + n) && decide (x < 64 * l + 64)

/-- The unit code of a location (R400). -/
def unitAt (x : Nat) : Nat := if x < 2 ^ 40 then 4 else if x < 2 ^ 41 then 3 else if x < 2 ^ 42 then 1 else 2

/-- The address of a location in its own cluster's aperture (R249); a physical address for device memory. -/
def apertureOf (x : Nat) : W :=
  if x < 2 ^ 40 then BitVec.ofNat 64 x
  else if x < 2 ^ 41 then BitVec.ofNat 64 (0xb * 2 ^ 60 + x % 2 ^ 24)
  else if x < 2 ^ 42 then BitVec.ofNat 64 (0x8 * 2 ^ 60 + x % 2 ^ 23)
  else BitVec.ofNat 64 (0xa * 2 ^ 60 + (x - 2 ^ 42) / 2 ^ 18 % 8 * 2 ^ 20 + x % 2 ^ 18)

/-! The data cache (R251): lines of the cluster's own vault. -/

/-- The vault line of a location, when it is a vault location of cluster c. -/
def lineOf (c : Cl) (x : Nat) : Option Nat :=
  if x / 2 ^ 24 = 2 ^ 16 + c.val then some (x % 2 ^ 24 / 64) else none

def Core.line? (co : Core) (l : Nat) : Option DLine := co.dcache.find? (·.line == l)

/-- A dirty line's bytes reach the vault. -/
def writeBackLine (c : Cl) (d : DLine) (s : State) : State :=
  if d.dirty = BitVec.allOnes 64 then writeHome s (vaultLoc c (d.line * 64)) d.data
  else (List.range 64).foldl (fun s i =>
    if d.dirty.getLsbD i then s.setByte (vaultLoc c (d.line * 64 + i)) ((d.data[i]?).getD 0) else s) s

/-- The write-back of one line, which stays in the cache, clean. -/
def cleanLine (c : Cl) (l : Nat) (s : State) : State :=
  match (s.core c).line? l with
  | some d => (writeBackLine c d s).modCore c fun x =>
      { x with dcache := x.dcache.map fun y => if y.line = l then { y with dirty := 0 } else y }
  | none => s

/-- A line leaves the cache; its dirty bytes are written back, so no store is lost (R251, R136). -/
def dropLine (c : Cl) (l : Nat) (s : State) : State :=
  (cleanLine c l s).modCore c fun x => { x with dcache := x.dcache.filter (·.line ≠ l) }

/-- Write-back of every dirty line (R258), and invalidation of every line. -/
def cleanAll (c : Cl) (s : State) : State := (s.core c).dcache.foldl (fun s d => cleanLine c d.line s) s
def dropAll (c : Cl) (s : State) : State :=
  (cleanAll c s).modCore c fun x => { x with dcache := [] }

/-- Which line a fill evicts is open (R251): none, or any line; some line when the cache is full at 512. -/
def victim (s : State) (c : Cl) (l : Nat) : Option Nat :=
  let ls := (s.core c).dcache
  let i := Config.choice s.fresh l
  if ls.length < 512 then (ls[i % (ls.length + 1)]?).map (·.line) else (ls[i % ls.length]?).map (·.line)

/-- A line is brought into the cache (R251). -/
def fillLine (c : Cl) (l : Nat) (s : State) : State :=
  match (s.core c).line? l with
  | some _ => s
  | none =>
    let s1 := match victim s c l with
      | some v => dropLine c v s
      | none => s
    s1.modCore c fun x => { x with dcache := x.dcache ++ [⟨l, readHome s1 (vaultLoc c (l * 64)) 64, 0⟩] }

/-- A strand's load of n bytes within one line through the cache. -/
def cacheLoad (c : Cl) (x n : Nat) (s : State) : State × List Byte :=
  match lineOf c x with
  | some l =>
    let s1 := fillLine c l s
    let d := ((s1.core c).line? l).elim [] (·.data)
    (s1, (d.drop (x % 64)).take n)
  | none => (s, readHome s x n)

/-- Bytes bs laid over a line from index i on. -/
def patchBytes (d : List Byte) (i : Nat) (bs : List Byte) : List Byte := d.take i ++ bs ++ d.drop (i + bs.length)

/-- A strand's store within one line into the cache: it has performed at scope 0 (R252). -/
def cacheStore (c : Cl) (x : Nat) (bs : List Byte) (s : State) : State :=
  match lineOf c x with
  | some l =>
    let i := x % 64
    let mask : BitVec 64 := BitVec.ofNat 64 ((2 ^ bs.length - 1) * 2 ^ i)
    (fillLine c l s).modCore c fun co =>
      { co with dcache := co.dcache.map fun y =>
          if y.line = l then { y with data := patchBytes y.data i bs, dirty := y.dirty ||| mask } else y }
  | none => writeHome s x bs

/-- An engine of the cluster reads its own vault in space 3: dirty bytes come from the cache (R251). -/
def engineByte (s : State) (c : Cl) (x : Nat) : Byte :=
  match (lineOf c x).bind (s.core c).line? with
  | some d => if d.dirty.getLsbD (x % 64) then (d.data[x % 64]?).getD 0 else s.byte x
  | none => s.byte x

/-- An engine of the cluster writes its own vault in space 3: the line goes, its dirty bytes first (R251). -/
def engineWrite (c : Cl) (x : Nat) (bs : List Byte) (s : State) : State :=
  let ls := (List.range bs.length).filterMap fun i => lineOf c (x + i)
  writeHome (ls.eraseDups.foldl (fun s l => dropLine c l s) s) x bs

end Sys2Proof.Machine
end

