-- ==== Sys2Proof/Machine/Xts.lean ====
section
/-! DEFINITION. AES-256 in XTS mode over a line of 64 bytes, by which device memory is encrypted (00 R10, 16 R434); the spec
names the cipher, and its definition is the public standards' (log 29). -/

namespace Sys2Proof.Machine.Xts

/-! The field of 256 elements, and the substitution. -/

def xtime (b : Byte) : Byte := (b <<< 1) ^^^ (if b.msb then 0x1b else 0)

/-- The product of two elements. -/
def gmul (a b : Byte) : Byte :=
  ((List.range 8).foldl (fun p i => (xtime p.1, if b.getLsbD i then p.2 ^^^ p.1 else p.2)) (a, (0 : Byte))).2

/-- The inverse of an element, its 254th power; 0 of 0. -/
def ginv (a : Byte) : Byte :=
  ((List.range 7).foldl (fun (p : Byte × Byte) _ => let q := gmul p.1 p.1; (q, gmul p.2 q)) (a, 1)).2

def sub (a : Byte) : Byte :=
  let b := ginv a
  b ^^^ b.rotateLeft 1 ^^^ b.rotateLeft 2 ^^^ b.rotateLeft 3 ^^^ b.rotateLeft 4 ^^^ 0x63

/-- The substitution undone. -/
def unsub (a : Byte) : Byte := ginv (a.rotateLeft 1 ^^^ a.rotateLeft 3 ^^^ a.rotateLeft 6 ^^^ 0x05)

/-! The rounds, on 16 bytes, column after column. -/

def at_ (l : List Byte) (i : Nat) : Byte := (l[i]?).getD 0

def shiftRows (l : List Byte) : List Byte := (List.range 16).map fun i => at_ l ((i + 4 * (i % 4)) % 16)
def unshiftRows (l : List Byte) : List Byte := (List.range 16).map fun i => at_ l ((i + 12 * (i % 4)) % 16)

/-- Each column times a polynomial of four coefficients. -/
def mixWith (m : List Byte) (l : List Byte) : List Byte :=
  (List.range 16).map fun i => ((List.range 4).map fun j => gmul (at_ m ((j + 4 - i % 4) % 4)) (at_ l (i / 4 * 4 + j))).foldl (· ^^^ ·) 0

def mix : List Byte → List Byte := mixWith [2, 3, 1, 1]
def unmix : List Byte → List Byte := mixWith [14, 11, 13, 9]

def xorB (a b : List Byte) : List Byte := a.zipWith (· ^^^ ·) b

/-- The round constants. -/
def rcon : Nat → Byte
  | 0 => 1
  | n + 1 => xtime (rcon n)

/-- The next word of the key schedule. -/
def nextWord (ws : List (List Byte)) : List Byte :=
  let n := ws.length
  let t := (ws[n - 1]?).getD []
  let u :=
    if n % 8 = 0 then xorB (((t.drop 1) ++ t.take 1).map sub) [rcon (n / 8 - 1), 0, 0, 0]
    else if n % 8 = 4 then t.map sub else t
  xorB ((ws[n - 8]?).getD []) u

/-- The 15 round keys of a key of 32 bytes. -/
def roundKeys (key : List Byte) : List (List Byte) :=
  let ws := (List.range 52).foldl (fun ws _ => ws ++ [nextWord ws]) ((List.range 8).map fun i => (key.drop (4 * i)).take 4)
  (List.range 15).map fun r => ((ws.drop (4 * r)).take 4).flatten

/-- One block under AES-256. -/
def encrypt (ks : List (List Byte)) (l : List Byte) : List Byte :=
  match ks with
  | k :: r => xorB (shiftRows (((r.take 13).foldl (fun x k => xorB (mix (shiftRows (x.map sub))) k) (xorB l k)).map sub)) ((r[13]?).getD [])
  | [] => l

def decrypt (ks : List (List Byte)) (l : List Byte) : List Byte :=
  match ks.reverse with
  | k :: r => xorB ((unshiftRows ((r.take 13).foldl (fun x k => unmix (xorB ((unshiftRows x).map unsub) k)) (xorB l k))).map unsub) ((r[13]?).getD [])
  | [] => l

/-! XTS: the key pair of 512 bits, the tweak of a line its physical address. -/

/-- The tweak of the next block of a line. -/
def nextTweak (t : BitVec 128) : BitVec 128 := (t <<< 1) ^^^ (if t.msb then 0x87 else 0)

/-- A line's blocks, each through a cipher between two additions of its tweak. -/
def lineWith (f : List Byte → List Byte) (t : BitVec 128) (bs : List Byte) : List Byte :=
  ((List.range 4).foldl (fun (p : BitVec 128 × List Byte) j =>
    let w := bytesOf 16 p.1.toNat
    (nextTweak p.1, p.2 ++ xorB (f (xorB ((bs.drop (16 * j)).take 16) w)) w)) (t, [])).2

def keyBytes (key : BitVec 512) (i : Nat) : List Byte := ((bytesOf 64 key.toNat).drop (32 * i)).take 32

def tweak (key : BitVec 512) (a : Nat) : BitVec 128 := BitVec.ofNat 128 (ofBytes (encrypt (roundKeys (keyBytes key 1)) (bytesOf 16 a)))

/-- The line at a physical address as the stacks hold it under a key. -/
def lock (key : BitVec 512) (a : Nat) (bs : List Byte) : List Byte := lineWith (encrypt (roundKeys (keyBytes key 0))) (tweak key a) bs

/-- The bytes that a line of the stacks reads as under a key. -/
def unlock (key : BitVec 512) (a : Nat) (bs : List Byte) : List Byte := lineWith (decrypt (roundKeys (keyBytes key 0))) (tweak key a) bs

end Sys2Proof.Machine.Xts
end

