-- ==== Sys2Proof/Machine/Translate.lean ====
section
/-! DEFINITION. Scopes (08 R255 to R257), addresses (05 R127, 08 R249, R250), page tables, keys and TLBs (12 R339 to
R344). -/

namespace Sys2Proof.Machine

/-! Units the configuration record disables (R250, R431). -/

def State.tileOk (s : State) (c : Cl) (t : Tl) : Bool := !s.config.tileDisable.getLsbD (c.val * 8 + t.val)
def State.clusterEnabled (s : State) (c : Cl) : Bool := !s.config.clusterDisable.getLsbD c.val

/-- The physical cluster of a context's logical number (R339). -/
def State.physOf (s : State) (x : Fin 64) (logical : Nat) : Option Cl := (s.ctx x).cmap.get (Fin.ofNat 64 logical)

/-- cluster_ok of R250. -/
def State.clusterOk (s : State) (x : Fin 64) (logical : Nat) : Bool :=
  match s.physOf x logical with
  | some c => s.clusterEnabled c
  | none => false

/-- The physical cluster of a rank of the gang a cluster is in (R249, R339). -/
def State.rankCluster (s : State) (c : Cl) (rank : Nat) : Option Cl :=
  (s.gangOf c).bind fun g => (g.members[rank]?).bind fun m => s.physOf g.ctx m.logical.val

def State.gangSize (s : State) (c : Cl) : Nat := (s.gangOf c).elim 0 (·.members.length)

/-- The logical number of a cluster in its gang; its physical number outside a gang. -/
def State.logicalOf (s : State) (c : Cl) : Nat :=
  (((s.gangOf c).bind fun g => g.members.find? (·.phys == c)).map (·.logical.val)).getD c.val

/-! Scopes. -/

def allClusters : BitVec 64 := BitVec.allOnes 64

/-- The set of a scope-table entry for an issuer on cluster c (R255, R256). -/
def scopeSet (s : State) (c : Cl) (e : BitVec 5) : ScopeSet :=
  let me := s.logicalOf c
  let own : BitVec 64 := 1 <<< me
  match e.toNat with
  | 0 => ⟨own, false, false, false⟩
  | 1 => ⟨((s.gangOf c).elim own fun g => g.members.foldl (fun a m => a ||| (1 <<< m.logical.val)) own), false, false, false⟩
  | 2 => ⟨0xffff <<< (me / 16 * 16), false, false, false⟩
  | 3 => ⟨allClusters, true, false, false⟩
  | 31 => ⟨allClusters, true, true, true⟩
  | n =>
    let t := (s.ctx (s.ctxOf c)).scopes.get (Fin.ofNat 32 n)
    if t.v then ⟨t.map ||| own, t.i, t.h, t.f⟩ else ⟨allClusters, true, true, true⟩

/-- A scope that reaches beyond the issuer's cluster (R257). -/
def reachesBeyond (s : State) (c : Cl) (e : ScopeSet) : Bool :=
  (e.map &&& ~~~((1 : BitVec 64) <<< s.logicalOf c)) ≠ 0 || e.i || e.h || e.f

def ScopeSet.union (a b : ScopeSet) : ScopeSet := ⟨a.map ||| b.map, a.i || b.i, a.h || b.h, a.f || b.f⟩

/-! Encryption of device memory (R434). The list of memory holds each frame of 64 KiB as it reads under the key slot by which it was
last reached; what the stacks hold is that, locked under the key (log 29). -/

/-- The bytes of a frame that read so under one key, as they read under another: what the stacks hold stays. -/
def recryptFrame (old new : BitVec 512) (f : Nat) (s : State) : State :=
  (List.range 1024).foldl (fun z l =>
    let a := f * 2 ^ 16 + 64 * l
    writeBytes z a (Xts.unlock new a (Xts.lock old a (readHome s a 64)))) s

/-- A frame is reached by way of a key slot. Behind an uncore that is off none is (R411). -/
def keyFrame (k : Nat) (f : Nat) (s : State) : State :=
  let new := tabGet s.keyBits k 0
  if s.uncoreOff (f * 2 ^ 16) then s else match s.pageKeys.find? (·.1 == f) with
  | some x =>
    if x.2 = (k, new) then s
    else { (if x.2.2 = new then s else recryptFrame x.2.2 new f s) with pageKeys := tabSet s.pageKeys f (k, new) }
  | none => { s with pageKeys := tabSet s.pageKeys f (k, new) }

/-- A location of device memory is reached by way of a key slot; another is not encrypted. -/
def State.underKey (s : State) (a k : Nat) : State := if a < hbmSize then keyFrame k (a / 2 ^ 16) s else s

/-- A doubleword of a table of firmware's, which lies under slot 0. -/
def tableWord (s : State) (a : Nat) : Nat := ofBytes (readHome (s.underKey a 0) a 8)

/-! Page tables (R340 to R342). -/

/-- A leaf that a walk found: page, size, physical address of the page, permissions, request-key flag, key. -/
structure Leaf where
  large : Bool
  pa : Nat
  r : Bool
  w : Bool
  rk : Bool
  key : BitVec 9
  deriving DecidableEq, Repr

/-- A page-table entry at home; a table beyond device memory reads as invalid. -/
def readPte (s : State) (table idx : Nat) : Nat :=
  if table + 8 * idx + 8 ≤ hbmSize then tableWord s (table + 8 * idx) else 0

def pteNext (e : Nat) : Nat := bits e 16 32 * 2 ^ 16

def leafOf (large : Bool) (pa e : Nat) : Leaf :=
  ⟨large, pa, bits e 1 1 == 1, bits e 2 1 == 1, bits e 4 1 == 1, BitVec.ofNat 9 (bits e 52 9)⟩

/-- The leaf of a virtual address, when every entry on its path is valid (R342). -/
def walkLeaf (s : State) (x : Fin 64) (va : Nat) : Option Leaf :=
  let e3 := readPte s (s.ctx x).root.toNat (bits va 42 13)
  if e3 % 2 = 0 ∨ bits e3 3 1 = 1 then none
  else
    let e2 := readPte s (pteNext e3) (bits va 29 13)
    if e2 % 2 = 0 then none
    else if bits e2 3 1 = 1 then some (leafOf true (bits e2 29 19 * 2 ^ 29) e2)
    else
      let e1 := readPte s (pteNext e2) (bits va 16 13)
      if e1 % 2 = 0 then none else some (leafOf false (pteNext e1) e1)

/-- The physical address of va under a leaf. -/
def leafAddr (l : Leaf) (va : Nat) : Nat := l.pa + if l.large then va % 2 ^ 29 else va % 2 ^ 16

/-- The key a leaf names (R341): the launch's request key where the leaf asks for it and the packet gave one. -/
def leafKey (l : Leaf) (req : Option (BitVec 9)) : BitVec 9 := if l.rk then req.getD l.key else l.key

/-- A key the context owns that is not retired (R342). -/
def keyOk (s : State) (x : Fin 64) (k : BitVec 9) : Bool :=
  (s.ctx x).keymap.getLsbD k.toNat && !s.keyRetired.getLsbD k.toNat

/-- walk of R342: the page's TLB entry, or the cause 0x20 page fault or 0x21 key fault. -/
def walk (s : State) (x : Fin 64) (va : Nat) (rd wr : Bool) (req : Option (BitVec 9)) : Except (BitVec 8) TlbEntry :=
  match walkLeaf s x va with
  | none => .error 0x20
  | some l =>
    if hbmSize ≤ leafAddr l va then .error 0x20
    else if (rd && !l.r) || (wr && !l.w) then .error 0x20
    else if keyOk s x (leafKey l req) then
      .ok ⟨x, if l.large then va / 2 ^ 29 else va / 2 ^ 16, l.large, l.pa, l.r, l.w, leafKey l req⟩
    else .error 0x21

/-! TLBs (R343, R344). -/

def TlbEntry.covers (e : TlbEntry) (x : Fin 64) (va : Nat) : Bool :=
  e.ctx == x && e.page == (if e.large then va / 2 ^ 29 else va / 2 ^ 16)

def TlbEntry.addr (e : TlbEntry) (va : Nat) : Nat := e.pa + if e.large then va % 2 ^ 29 else va % 2 ^ 16

/-- The location an entry gives an address; an entry under a key that is retired, or is the context's no more, leads
nowhere (R355, R434). -/
def State.entryLoc (s : State) (e : TlbEntry) (va : Nat) : Nat :=
  if keyOk s e.ctx e.key then e.addr va else nowhere + va % 2 ^ 29

/-- The state in which an access reaches the location that an entry gives an address. -/
def State.entryView (s : State) (e : TlbEntry) (va : Nat) : State := s.underKey (s.entryLoc e va) e.key.toNat

/-- A translation through a TLB: a cached entry answers, stale or not, until it is invalidated (R344); else a walk. -/
def lookup (s : State) (tlb : List TlbEntry) (x : Fin 64) (va : Nat) (rd wr : Bool) (req : Option (BitVec 9)) :
    Except (BitVec 8) TlbEntry :=
  match tlb.find? (·.covers x va) with
  | some e => if (rd && !e.r) || (wr && !e.w) then .error 0x20 else .ok e
  | none => walk s x va rd wr req

/-- An entry is installed; when the TLB is full an open choice of entry makes room. -/
def tlbInstall (s : State) (size : Nat) (tlb : List TlbEntry) (e : TlbEntry) : List TlbEntry :=
  if tlb.contains e then tlb
  else (if tlb.length < size then tlb else tlb.eraseIdx (Config.choice s.fresh 1 % tlb.length)) ++ [e]

/-- The request key of the launch that runs on a cluster (R312, R341). -/
def State.requestKey (s : State) (c : Cl) : Option (BitVec 9) := (s.gangOf c).bind (·.key)

/-- A control core translates an address in its gang's context, through its TLB of 128 entries: the location, and the key. -/
def translateCore (s : State) (c : Cl) (va : Nat) (rd wr : Bool) : State × Except (BitVec 8) (Nat × BitVec 9) :=
  match lookup s (s.core c).tlb (s.ctxOf c) va rd wr (s.requestKey c) with
  | .ok e => ((s.entryView e va).modCore c fun x => { x with tlb := tlbInstall s 128 x.tlb e }, .ok (s.entryLoc e va, e.key))
  | .error k => (s, .error k)

/-- The island translates in a given context, through its TLB of 256 entries. -/
def translateIsland (s : State) (x : Fin 64) (va : Nat) (rd wr : Bool) (req : Option (BitVec 9)) :
    State × Except (BitVec 8) Nat :=
  match lookup s s.islandTlb x va rd wr req with
  | .ok e => ({ s.entryView e va with islandTlb := tlbInstall s 256 s.islandTlb e }, .ok (s.entryLoc e va))
  | .error k => (s, .error k)

/-! Addresses of the control core (R127, R249, R250). -/

/-- inspace of R250 for an aperture address. -/
def inspace (s : State) (c : Cl) (sp o n : Nat) : Bool :=
  let tileBits (b : Nat) : Tl := Fin.ofNat 8 b
  match sp with
  | 0 => o / 2 ^ 23 == 0 && s.tileOk c (tileBits (bits o 20 3)) && decide (o % 2 ^ 20 + n ≤ 0xc0000)
  | 1 => o / 2 ^ 29 == 0 && decide (bits o 23 6 < s.gangSize c) &&
      ((s.rankCluster c (bits o 23 6)).elim false fun p => s.tileOk p (tileBits (bits o 20 3))) &&
      decide (o % 2 ^ 20 + n ≤ 0xc0000)
  | 2 => o / 2 ^ 23 == 0 && bits o 18 2 == 0 && s.tileOk c (tileBits (bits o 20 3)) && decide (o % 2 ^ 18 + n ≤ 0x40000)
  | 3 => o / 2 ^ 24 == 0 && decide (o % 2 ^ 24 + n ≤ 0x1000000)
  | 4 => o / 2 ^ 30 == 0 && s.clusterOk (s.ctxOf c) (bits o 24 6) && decide (o % 2 ^ 24 + n ≤ 0x1000000)
  | _ => true

/-- target of R127: the space and offset of an address, or the reason of the address fault. -/
def target (s : State) (c : Cl) (x : W) (n : Nat) : Except Nat (Nat × Nat) :=
  let v := x.toNat
  if v % n ≠ 0 then .error 1
  else if v < 2 ^ 63 then (if bits v 55 8 ≠ 0 then .error 5 else .ok (5, v % 2 ^ 55))
  else
    let sp := bits v 60 3
    let o := v % 2 ^ 60
    if sp = 5 ∨ sp = 7 then .error 2
    else if inspace s c sp o n then .ok (sp, o)
    else .error 3

/-- The target a space and offset name, untranslated (R249). Space 3 is reached through the data cache. -/
def tgtOf (s : State) (c : Cl) (sp o : Nat) : Tgt :=
  let t : Tl := Fin.ofNat 8 (bits o 20 3)
  match sp with
  | 0 => .loc (spadLoc c t (o % 2 ^ 20)) 0
  | 1 => .loc (spadLoc ((s.rankCluster c (bits o 23 6)).getD c) t (o % 2 ^ 20)) 1
  | 2 => .loc (accLoc c t (o % 2 ^ 18)) 2
  | 3 => .loc (vaultLoc c (o % 2 ^ 24)) 3
  | 4 => .loc (vaultLoc ((s.physOf (s.ctxOf c) (bits o 24 6)).getD c) (o % 2 ^ 24)) 4
  | 5 => .virt (BitVec.ofNat 64 o)
  | _ => .peer (BitVec.ofNat 12 (bits o 48 12)) (BitVec.ofNat 4 (bits o 44 4)) (BitVec.ofNat 44 o)

/-- The location of a target where that is known without side effects, for the byte order of R132. -/
def tgtLoc (s : State) (c : Cl) : Tgt → Option Nat
  | .loc a _ _ => some a
  | .virt _ (some r) => some r.1
  | .virt va none => match lookup s (s.core c).tlb (s.ctxOf c) va.toNat false false (s.requestKey c) with
    | .ok e => some (e.addr va.toNat)
    | .error _ => none
  | .peer .. => none

end Sys2Proof.Machine
end

