-- ==== Sys2Proof/Machine/Flags.lean ====
section
/-! DEFINITION. Number formats, rounding and the flags of R31: exact values, the rounding of R27 and R28, conversions
(01 R17 to R34). The scalar FP32 words and the engine operators compute on exact values and round once (R27). -/

namespace Sys2Proof.Machine

/-- An exact value: NaN or infinity with a sign, or the sign and magnitude num / den of a finite value (den is not 0). -/
inductive XVal where
  | nan (neg : Bool)
  | inf (neg : Bool)
  | fin (neg : Bool) (num den : Nat)
  deriving DecidableEq, Repr

def XVal.isNan : XVal → Bool
  | .nan _ => true
  | _ => false

def XVal.isInf : XVal → Bool
  | .inf _ => true
  | _ => false

def XVal.isZero : XVal → Bool
  | .fin _ n _ => n == 0
  | _ => false

def XVal.sign : XVal → Bool
  | .nan s => s
  | .inf s => s
  | .fin s _ _ => s

def XVal.neg : XVal → XVal
  | .nan s => .nan s
  | .inf s => .inf (!s)
  | .fin s n d => .fin (!s) n d

def XVal.abs : XVal → XVal
  | .nan _ => .nan false
  | .inf _ => .inf false
  | .fin _ n d => .fin false n d

def XVal.ofInt (i : Int) : XVal := .fin (i < 0) i.natAbs 1

/-- +0. -/
def XVal.zero : XVal := .fin false 0 1

/-- Signed numerator. -/
def sgnNum (s : Bool) (n : Nat) : Int := if s then -(n : Int) else n

/-- num · 2^e for an integer exponent. -/
def XVal.scaled (s : Bool) (n : Nat) (e : Int) : XVal :=
  if 0 ≤ e then .fin s (n * 2 ^ e.toNat) 1 else .fin s n (2 ^ (-e).toNat)

/-! Exact arithmetic. A NaN that arithmetic produces has sign 0 (R20). -/

/-- Exact sum; a zero result takes its sign from R30 under rounding code rm. -/
def XVal.add (rm : Nat) : XVal → XVal → XVal
  | .nan _, _ => .nan false
  | _, .nan _ => .nan false
  | .inf s, .inf t => if s = t then .inf s else .nan false
  | .inf s, _ => .inf s
  | _, .inf s => .inf s
  | .fin s a b, .fin t c d =>
    let z := if b % d = 0 then sgnNum s a + sgnNum t (c * (b / d))
      else if d % b = 0 then sgnNum s (a * (d / b)) + sgnNum t c
      else sgnNum s (a * d) + sgnNum t (c * b)
    let den := if b % d = 0 then b else if d % b = 0 then d else b * d
    if z = 0 then .fin (if a = 0 ∧ c = 0 ∧ s = t then s else rm = 3) 0 1
    else .fin (z < 0) z.natAbs den

/-- Exact product; 0 times infinity is NaN. -/
def XVal.mul : XVal → XVal → XVal
  | .nan _, _ => .nan false
  | _, .nan _ => .nan false
  | .inf s, .inf t => .inf (s != t)
  | .inf s, .fin t c _ => if c = 0 then .nan false else .inf (s != t)
  | .fin s a _, .inf t => if a = 0 then .nan false else .inf (s != t)
  | .fin s a b, .fin t c d => .fin (s != t) (a * c) (b * d)

/-- Exact quotient (R106 Table 9). -/
def XVal.div : XVal → XVal → XVal
  | .nan _, _ => .nan false
  | _, .nan _ => .nan false
  | .inf _, .inf _ => .nan false
  | .inf s, .fin t _ _ => .inf (s != t)
  | .fin s _ _, .inf t => .fin (s != t) 0 1
  | .fin s a b, .fin t c d =>
    if c = 0 then (if a = 0 then .nan false else .inf (s != t)) else .fin (s != t) (a * d) (b * c)

/-- x < y of two values that are no NaN; zeros are equal. -/
def XVal.lt : XVal → XVal → Bool
  | .nan _, _ => false
  | _, .nan _ => false
  | .inf s, .inf t => s && !t
  | .inf s, _ => s
  | _, .inf t => !t
  | .fin s a b, .fin t c d => sgnNum s (a * d) < sgnNum t (c * b)

/-- x = y as values; false on a NaN. -/
def XVal.eqv (x y : XVal) : Bool := !x.isNan && !y.isNan && !x.lt y && !y.lt x

/-- Integer square root, floor, one bit a turn from bit n - 1 down. -/
def isqrtAux (v : Nat) : Nat → Nat → Nat
  | 0, r => r
  | n + 1, r => if (r + 2 ^ n) * (r + 2 ^ n) ≤ v then isqrtAux v n (r + 2 ^ n) else isqrtAux v n r

def isqrt (v : Nat) : Nat := isqrtAux v (Nat.log2 v / 2 + 1) 0

/-- A value that rounds as the square root of num / den does: the root cut to 2^-p, with a half step added when the
root is not that multiple (R27 rounds the exact root; p is past every boundary of the formats). -/
def sqrtVal (num den p : Nat) : Nat × Nat :=
  let r := isqrt (num * den * 4 ^ p)
  if r * r = num * den * 4 ^ p then (r, den * 2 ^ p) else (2 * r + 1, 2 * (den * 2 ^ p))

/-- Square root (R106 Table 9): a negative non-zero operand gives NaN. -/
def XVal.sqrt : XVal → XVal
  | .nan _ => .nan false
  | .inf s => if s then .nan false else .inf false
  | .fin s n d =>
    if n = 0 then .fin s 0 1
    else if s then .nan false
    else
      let p := Nat.log2 d + 80
      let r := sqrtVal n d p
      .fin false r.1 r.2

/-! Formats (R18, R19). -/

inductive FmtKind where
  | ieee | noInf | noSpecial
  deriving DecidableEq, Repr

/-- A floating-point format: mantissa width, exponent width, bias, which specials it has, its largest finite code. -/
structure Fmt where
  man : Nat
  exp : Nat
  bias : Nat
  kind : FmtKind
  maxCode : Nat
  deriving DecidableEq, Repr

def fp32 : Fmt := ⟨23, 8, 127, .ieee, 0x7f7fffff⟩
def fp16 : Fmt := ⟨10, 5, 15, .ieee, 0x7bff⟩
def bf16 : Fmt := ⟨7, 8, 127, .ieee, 0x7f7f⟩
def e5m2 : Fmt := ⟨2, 5, 15, .ieee, 0x7b⟩
def e4m3 : Fmt := ⟨3, 4, 7, .noInf, 0x7e⟩
def e2m1 : Fmt := ⟨1, 2, 1, .noSpecial, 0x7⟩

def Fmt.width (f : Fmt) : Nat := f.man + f.exp + 1

def Fmt.signed (f : Fmt) (neg : Bool) (code : Nat) : Nat := if neg then code + 2 ^ (f.man + f.exp) else code

/-- The canonical NaN (R19); E2M1 has none and gives code 0 (R31). -/
def Fmt.nan (f : Fmt) (neg : Bool) : Nat :=
  match f.kind with
  | .ieee => f.signed neg ((2 ^ f.exp - 1) * 2 ^ f.man + 2 ^ (f.man - 1))
  | .noInf => f.signed neg 0x7f
  | .noSpecial => 0

/-- The result for infinity and for overflow (special_in of R28). -/
def Fmt.special (f : Fmt) (neg sat : Bool) : Nat :=
  match f.kind with
  | .noSpecial => f.signed neg f.maxCode
  | .ieee => if sat then f.signed neg f.maxCode else f.signed neg ((2 ^ f.exp - 1) * 2 ^ f.man)
  | .noInf => if sat then f.signed neg f.maxCode else f.nan neg

/-- The exact value of a code (R18, R19). -/
def Fmt.decode (f : Fmt) (code : Nat) : XVal :=
  let s := code / 2 ^ (f.man + f.exp) % 2 == 1
  let e := code / 2 ^ f.man % 2 ^ f.exp
  let m := code % 2 ^ f.man
  let plain := if e = 0 then XVal.scaled s m (1 - (f.bias : Int) - f.man)
    else XVal.scaled s (2 ^ f.man + m) ((e : Int) - f.bias - f.man)
  match f.kind with
  | .noSpecial => plain
  | .noInf => if e = 2 ^ f.exp - 1 ∧ m = 2 ^ f.man - 1 then .nan s else plain
  | .ieee => if e = 2 ^ f.exp - 1 then (if m = 0 then .inf s else .nan s) else plain

/-- floor(log2(num / den)) of a positive value. -/
def ilog2 (num den : Nat) : Int :=
  let k : Int := (Nat.log2 num : Int) - Nat.log2 den
  let below := if 0 ≤ k then num < den * 2 ^ k.toNat else num * 2 ^ (-k).toNat < den
  if below then k - 1 else k

/-- The flags of R31 as bits: 0 NV, 1 DZ, 2 OF, 3 UF, 4 NX. -/
structure FlagSet where
  nv : Bool := false
  dz : Bool := false
  of : Bool := false
  uf : Bool := false
  nx : Bool := false
  deriving DecidableEq, Repr

def FlagSet.none : FlagSet := {}

def FlagSet.bits (f : FlagSet) : BitVec 5 :=
  BitVec.ofNat 5 (f.nv.toNat + 2 * f.dz.toNat + 4 * f.of.toNat + 8 * f.uf.toNat + 16 * f.nx.toNat)

/-- Whether the magnitude below, with discarded fraction r / q, is rounded up (R27). rm 5 is SR with the draw. -/
def roundUp (rm draw : Nat) (neg : Bool) (lo r q : Nat) : Bool :=
  match rm with
  | 1 => false
  | 2 => r ≠ 0 && !neg
  | 3 => r ≠ 0 && neg
  | 4 => q ≤ 2 * r
  | 5 => r ≠ 0 && 65536 ≤ r * 65536 / q + draw
  | _ => q < 2 * r || (2 * r == q && lo % 2 == 1)

/-- round of R27, with overflow of R28: the code, and the flags OF, UF and NX of R31. -/
def roundTo (f : Fmt) (rm draw : Nat) (sat : Bool) : XVal → Nat × FlagSet
  | .nan s => (f.nan s, .none)
  | .inf s => (f.special s sat, .none)
  | .fin s num den =>
    if num = 0 then (f.signed s 0, .none)
    else
      let emin : Int := 1 - (f.bias : Int)
      let e := max (ilog2 num den) emin
      let sh := e - f.man
      let n := if 0 ≤ sh then num else num * 2 ^ (-sh).toNat
      let q := if 0 ≤ sh then den * 2 ^ sh.toNat else den
      let lo := n / q
      let r := n % q
      let mag := lo + (roundUp rm draw s lo r q).toNat
      let code := (e - emin).toNat * 2 ^ f.man + mag
      if f.maxCode < code then
        let c := if rm = 1 ∨ (rm = 3 ∧ s = false) ∨ (rm = 2 ∧ s = true) then f.signed s f.maxCode else f.special s sat
        (c, { of := true, nx := true })
      else (f.signed s code, { nx := r ≠ 0, uf := r ≠ 0 && code < 2 ^ f.man })

/-- The integer that a finite value rounds to, and whether it changed (R33). -/
def roundInt (rm draw : Nat) (neg : Bool) (num den : Nat) : Int × Bool :=
  let lo := num / den
  let r := num % den
  (sgnNum neg (lo + (roundUp rm draw neg lo r den).toNat), r ≠ 0)

/-- Conversion to an integer of w bits (R33): the code, and NV and NX. -/
def toIntTy (w : Nat) (signed : Bool) (rm draw : Nat) (sat : Bool) (v : XVal) : Nat × FlagSet :=
  let lo : Int := if signed then -(2 ^ (w - 1) : Nat) else 0
  let hi : Int := if signed then (2 ^ (w - 1) : Nat) - 1 else (2 ^ w : Nat) - 1
  let ovf : Nat := if signed then 2 ^ (w - 1) else 2 ^ w - 1
  let lim (neg : Bool) : Nat := if sat then ((if neg then lo else hi) % (2 ^ w : Nat)).toNat else ovf
  match v with
  | .nan _ => (if sat then 0 else ovf, { nv := true })
  | .inf s => (lim s, { nv := true })
  | .fin s n d =>
    let (i, inexact) := roundInt rm draw s n d
    if i < lo ∨ hi < i then (lim (i < 0), { nv := true }) else ((i % (2 ^ w : Nat)).toNat, { nx := inexact })

/-- One stochastic draw: the next state of a lane's generator (R29). -/
def lfsrNext (st : BitVec 16) : BitVec 16 :=
  let fb := st.getLsbD 15 ^^ st.getLsbD 13 ^^ st.getLsbD 12 ^^ st.getLsbD 10
  (st <<< 1) ||| (BitVec.ofBool fb).setWidth 16

/-- The seed of lane l (R29). -/
def lfsrSeed (seed l : Nat) : BitVec 16 :=
  let v := BitVec.ofNat 16 (seed + 0x6d2b * l)
  if v = 0 then 1 else v

/-- A Z-scale (R24): NaN, or an exact value. -/
def zdecode (code : Nat) : XVal :=
  let e := code / 8 % 128
  let f := code % 8
  if e = 127 then .nan false
  else if e = 0 then XVal.scaled false f (-65)
  else XVal.scaled false (8 + f) ((e : Int) - 66)

/-- An FP32 operand: bits[31:0] (R48, R106). -/
def f32 (w : W) : XVal := fp32.decode (w.toNat % 2 ^ 32)

/-- Scalar FP32 result: rounding code, value and the flags NV and DZ of the operation (fwr of R106). -/
def fround (rm : Nat) (pre : FlagSet) (v : XVal) : W × FlagSet :=
  let (c, fl) := roundTo fp32 rm 0 false v
  (BitVec.ofNat 64 c, { fl with nv := pre.nv, dz := pre.dz })

/-- NV of a sum (R106 Table 9): infinities of opposite sign. -/
def nvAdd (x y : XVal) : FlagSet := { nv := !x.isNan && !y.isNan && (x.isInf && y.isInf && x.sign != y.sign) }

/-- NV of a product: zero times infinity. -/
def nvMul (x y : XVal) : Bool := (x.isZero && y.isInf) || (x.isInf && y.isZero)

/-- NV and DZ of a quotient. -/
def nvDiv (x y : XVal) : FlagSet :=
  { nv := (x.isZero && y.isZero) || (x.isInf && y.isInf)
    dz := !x.isNan && !x.isInf && !x.isZero && y.isZero }

/-- NV of a square root. -/
def nvSqrt (x : XVal) : FlagSet := { nv := !x.isNan && !x.isZero && x.sign }

/-- NV of a fused multiply-add: zero times infinity whatever c holds, or an infinite product against c. -/
def nvFma (x y z : XVal) : FlagSet :=
  let p := x.mul y
  { nv := nvMul x y || (!x.isNan && !y.isNan && !z.isNan && (p.isInf && z.isInf && p.sign != z.sign)) }

/-- fclass (R108). -/
def fclassOf (a : Nat) : W :=
  let v := fp32.decode (a % 2 ^ 32)
  let e := bits a 23 8
  let cls := match v with
    | .nan _ => 4
    | .inf _ => 3
    | .fin _ n _ => if n = 0 then 0 else if e = 0 then 1 else 2
  let int := match v with
    | .fin _ n d => n % d == 0
    | _ => false
  BitVec.ofNat 64 (cls + 8 * bits a 31 1 + 16 * int.toNat + 256 * e)

end Sys2Proof.Machine
end

