-- ==== Sys2Proof/Machine/Values.lean ====
section
/-! DEFINITION. Elements of operands: their types, values, conversions and combinations (01 R17 to R34, 07 R201, R238). -/

namespace Sys2Proof.Machine

/-- unit of R155: bytes of an element; E2M1 counts elements. -/
def unitOf (ty : Nat) : Nat :=
  if ty = 0 ∨ ty = 8 ∨ ty = 11 then 4
  else if ty = 1 ∨ ty = 2 ∨ ty = 7 ∨ ty = 10 ∨ ty = 13 then 2
  else if ty = 12 then 8
  else 1

/-- Bits of an element (R173). -/
def typeBits (ty : Nat) : Nat := if ty = 5 then 4 else 8 * unitOf ty

/-- The floating types are 0 to 5 (R17). -/
def isFloatTy (ty : Nat) : Bool := decide (ty ≤ 5)
/-- The signed integer types (R17). -/
def signedTy (ty : Nat) : Bool := ty == 6 || ty == 7 || ty == 8 || ty == 12

/-- An element's value: exact float or exact integer. -/
inductive Val where
  | f (x : XVal)
  | i (z : Int)
  deriving DecidableEq, Repr

def fmtOf (ty : Nat) : Fmt :=
  match ty with
  | 0 => fp32
  | 1 => fp16
  | 2 => bf16
  | 3 => e5m2
  | 4 => e4m3
  | _ => e2m1

def valOf (ty code : Nat) : Val :=
  if isFloatTy ty then .f ((fmtOf ty).decode code)
  else if signedTy ty then .i (sx code (typeBits ty)) else .i (zx code (typeBits ty))

/-- The exact real of a value. -/
def Val.real : Val → XVal
  | .f x => x
  | .i z => .ofInt z

/-- FTZ (R21): a subnormal FP32, FP16 or BF16 code becomes zero of its sign. -/
def flushCode (ftz : Bool) (ty code : Nat) : Nat :=
  let man := if ty = 0 then 23 else if ty = 1 then 10 else 7
  let exp := if ty = 1 then 5 else 8
  if ftz ∧ ty ≤ 2 ∧ bits code man exp = 0 then bits code (man + exp) 1 * 2 ^ (man + exp) else code

/-- An integer narrowed to a type (R34): saturated, or its low bits. -/
def narrow (ty : Nat) (sat : Bool) (z : Int) : Nat :=
  let w := typeBits ty
  let lo : Int := if signedTy ty then -(2 ^ (w - 1) : Nat) else 0
  let hi : Int := if signedTy ty then ((2 ^ (w - 1) : Nat) : Int) - 1 else ((2 ^ w : Nat) : Int) - 1
  let y := if sat then max lo (min hi z) else z
  (y % (2 ^ w : Nat)).toNat

/-- The code a value is written as, and whether it passes through a rounding (R201): a float is rounded once, to a float
type or to an integer (R33); an integer narrows (R34). -/
def encodeWith (ty rm draw : Nat) (sat ftz : Bool) (x : Val) : Nat :=
  flushCode ftz ty (match x, isFloatTy ty with
    | .i z, false => narrow ty sat z
    | .f y, false => (toIntTy (typeBits ty) (signedTy ty) rm draw sat y).1
    | x, true => (roundTo (fmtOf ty) rm draw sat x.real).1)

/-- A write of a value to a type draws from a lane (R29, R202): all but integer to integer. -/
def draws (ty : Nat) (x : Val) : Bool :=
  match x with
  | .i _ => isFloatTy ty
  | .f _ => true

/-- The saturate choice that a conversion from type ta to type td takes for a value. An exact pair of Table 6 keeps an
infinity (R32), and widening to a wider integer type only extends (R34); between integers of one width it saturates (log 67). -/
def convertSat (ta td : Nat) (sat : Bool) (x : Val) : Bool :=
  let exactPair := (td == 0 && (ta == 1 || ta == 2 || ta == 3)) || ((td == 1 || td == 2) && ta == 3)
  match x with
  | .f y => sat && !(y.isInf && exactPair)
  | .i _ => sat && (isFloatTy td || decide (typeBits td ≤ typeBits ta))

/-- Order of fmin and fmax: −0 below +0 (R107). -/
def belowF (x y : XVal) : Bool := x.lt y || (x.isZero && y.isZero && x.sign && !y.sign)

/-- The smaller and the larger of two values as fmin and fmax take them (R107). -/
def xmin (a b : XVal) : XVal := if a.isNan || b.isNan then .nan false else if belowF b a then b else a
def xmax (a b : XVal) : XVal := if a.isNan || b.isNan then .nan false else if belowF a b then b else a

/-- A function on values of one class. -/
def lift3 (fx : XVal → XVal → XVal → XVal) (fi : Int → Int → Int → Int) (x y c : Val) : Val :=
  match x, y, c with
  | .i a, .i b, .i d => .i (fi a b d)
  | x, y, c => .f (fx x.real y.real c.real)

/-! Combining (R238). -/

/-- What a combining access leaves in an element of D whose code is old, with an element of A whose code is a. -/
def Combine.apply (k : Combine) (old a : Nat) : Nat :=
  let x := valOf k.dty (flushCode k.ftz k.dty old)
  let y := valOf k.aty a
  let arith (g : XVal → XVal → XVal) (h : Int → Int → Int) : Nat :=
    encodeWith k.dty k.rm k.draw k.sat k.ftz (lift3 (fun x y _ => g x y) (fun x y _ => h x y) x y (.i 0))
  let word : Nat := (match y with
    | .i z => z % (2 ^ typeBits k.dty : Nat)
    | .f _ => 0).toNat
  match k.cop with
  | 0 => arith (fun x y => x.add k.rm y) (· + ·)
  | 1 => arith xmin min
  | 2 => arith xmax max
  | 3 => old &&& word
  | 4 => old ||| word
  | _ => old ^^^ word

end Sys2Proof.Machine
end

