-- ==== Sys2Proof/Machine/Peer.lean ====
section
/-! DEFINITION. Atomic operations (05 R138), trigger counters and the tests of armed heads (13 R370, R371, R374), peer
windows and counter windows, refusals, accesses at an endpoint (13 R360 to R364). -/

namespace Sys2Proof.Machine

/-- The new value, none for no write, and the returned value of an atomic (R138); codes of rem.amo, 10 is cas. -/
def amoApply (op : AmoOp) (x y z : W) : Option W × W :=
  match op.val with
  | 0 => (some (x + y), x)
  | 1 => (some (x &&& y), x)
  | 2 => (some (x ||| y), x)
  | 3 => (some (x ^^^ y), x)
  | 4 => (some (if y.slt x then y else x), x)
  | 5 => (some (if x.slt y then y else x), x)
  | 6 => (some (if y.ult x then y else x), x)
  | 7 => (some (if x.ult y then y else x), x)
  | 8 => (some y, x)
  | 9 =>
    if x.toNat + y.toNat ≤ z.toNat then (some (x + y), setBit x 63 true) else (none, setBit x 63 false)
  | _ => (if x = y then some z else none, x)

def wordAt (s : State) (a : Nat) : W := BitVec.ofNat 64 (ofBytes (readHome s a 8))
def setWordAt (s : State) (a : Nat) (v : W) : State := writeHome s a (bytesOf 8 v.toNat)

/-- An atomic at home: the state and the returned word. -/
def amoHome (s : State) (a : Nat) (op : AmoOp) (y z : W) : State × W :=
  let r := amoApply op (wordAt s a) y z
  (match r.1 with
    | some v => setWordAt s a v
    | none => s, r.2)

/-- A refusal is counted in the source context (R364). -/
def countRefusal (x : Fin 64) (s : State) : State := s.modCtx x fun c => { c with refused := c.refused + 1 }

/-! Slots and counters. -/

def blankSlot : Slot := ⟨0, .free, [], 0, 0, 0, 0, false⟩
def State.slot (s : State) (i : Nat) : Slot := tabGet s.slots i blankSlot
def State.setSlot (s : State) (i : Nat) (v : Slot) : State := { s with slots := tabSet s.slots i v }

/-- A field of a descriptor's doubleword (R372). -/
def Slot.fld (d : Slot) (i lo len : Nat) : Nat := bits ((d.dw[i]?).getD 0).toNat lo len

def Slot.follower (d : Slot) : Bool := d.fld 0 3 1 == 1

/-- The physical counter a head watches. -/
def headCounter (s : State) (d : Slot) : Nat := (s.ctx d.ctx).cbase + d.fld 0 4 13

def State.counter (s : State) (n : Nat) : W := tabGet s.ctrs n 0

/-- A counter has reached a threshold (R371). -/
def reached (c t : W) : Bool := decide ((c - t).toNat < 2 ^ 63)

/-- An armed head at its threshold fires: its chain is under way (R374). No new chain fires during a checkpoint (R417). -/
def testHead (i : Nat) (s : State) : State :=
  let d := s.slot i
  if s.ckpt = .idle ∧ d.state = .armed ∧ d.follower = false ∧ reached (s.counter (headCounter s d)) d.thr then
    { s.setSlot i { d with state := .firing } with chains := s.chains ++ [⟨i, i, d.dw, 0, none⟩] }
  else s

/-- The heads of a counter are tested in ascending slot order (R374). -/
def testHeads (n : Nat) (s : State) : State :=
  (s.slots.map (·.1)).foldl (fun s i => if headCounter s (s.slot i) = n then testHead i s else s) s

/-- An addition to a physical counter, modulo 2^64, and the tests after it (R370, R374). -/
def addCounter (n : Nat) (v : W) (s : State) : State :=
  testHeads n { s with ctrs := tabSet s.ctrs n (s.counter n + v) }

/-- The physical counter of a context's local number; none outside the partition (R360). -/
def State.localCounter (s : State) (x : Fin 64) (n : Nat) : Option Nat :=
  if n < (s.ctx x).ccnt then some ((s.ctx x).cbase + n) else none

def State.localSlot (s : State) (x : Fin 64) (n : Nat) : Option Nat :=
  if n < (s.ctx x).scnt then some ((s.ctx x).sbase + n) else none

/-! Peer accesses. -/

/-- An entry reaches the island's firmware core, once while it waits (R346). -/
def State.islandEnter (s : State) (e : FaultEntry) : State :=
  if s.islandFaults.contains e then s else { s with islandFaults := s.islandFaults ++ [e] }

/-- A fault-queue entry of an island agent that tries again by itself, entered once while it waits (R346, R363). -/
def islandFault (s : State) (who : FaultAgent) (x : Fin 64) (code : BitVec 8) (write : Bool) (va : W) : State :=
  let e : FaultEntry :=
    { code := code, write := write, src := 2, ctx := x, cluster := 0, unit := 0, tile := 0, operand := 0, va := va, seq := 0, n := 0,
      agent := some who }
  s.islandEnter e

/-- The entries of an agent for an address leave the queue: its access has performed or failed. -/
def dropIslandFault (s : State) (who : FaultAgent) (va : W) : State :=
  { s with islandFaults := s.islandFaults.filter fun e => !(e.agent == some who && e.va == va) }

def PeerOp.size : PeerOp → Nat
  | .read n => n
  | .write bs => bs.length
  | .amo .. => 8
  | .combine k _ => unitOf k.dty
  | .nibble .. => 1

def PeerOp.writes : PeerOp → Bool
  | .read _ => false
  | _ => true

/-- It reads, and so consumes poison (R398). -/
def PeerOp.reads : PeerOp → Bool
  | .read _ => true
  | .amo .. => true
  | .combine .. => true
  | _ => false

/-- An access at home, one indivisible step (R238). -/
def homeOp (s : State) (a : Nat) (op : PeerOp) : State × PeerAns :=
  match op with
  | .read n => (s, .data (readHome s a n))
  | .write bs => (writeHome s a bs, .done)
  | .amo o y z => let r := amoHome s a o y z; (r.1, .old r.2)
  | .combine k x => (writeHome s a (bytesOf (unitOf k.dty) (k.apply (ofBytes (readHome s a (unitOf k.dty))) x)), .done)
  | .nibble hi code => (writeHome s a (bytesOf 1 (setBits (s.byte a).toNat (4 * hi.toNat) 4 code)), .done)

/-- A die whose pages a peer finds absent (R364, R411, R423). -/
def DieRec.absent (d : DieRec) : Bool := d.state == .off || d.state == .reset || d.state == .fenced

/-- The context takes accesses of an endpoint (R363). -/
def State.admitted (s : State) (x : Fin 64) (src : BitVec 12) : Bool := (s.ctx x).state == .active && (s.ctx x).admits.contains src

/-- What an endpoint answers (R363, R364, R399). -/
inductive EndAns where
  | ans (r : PeerAns)
  | fault (code : BitVec 8)
  deriving DecidableEq, Repr

/-- An access that arrives at this endpoint for context x from endpoint src (R363, R411): a failed check answers endpoint
absent; poison is marked; a translation fault is firmware's. -/
def endpointAccess (s : State) (src : BitVec 12) (x : Fin 64) (va : W) (op : PeerOp) : State × EndAns :=
  if s.admitted x src then
    match translateIsland s x va.toNat op.reads op.writes none with
    | (s1, .ok a) =>
      if a < hbmSize ∧ (s.die (homeDie a)).absent = true then (s, .ans (.refused 1))
      else if op.reads = true ∧ (s1.poisonedIn a op.size).isSome = true then (s1, .ans (.poisoned (readHome s1 a op.size)))
      else let r := homeOp s1 a op; (r.1, .ans r.2)
    | (s1, .error k) => (s1, .fault k)
  else (s, .ans (.refused 1))

/-- The same for an access of this module to its own endpoint: a fault waits, entered for the agent; firmware may leave it
unresolved. -/
def ownAccess (s : State) (who : FaultAgent) (x : Fin 64) (va : W) (op : PeerOp) : State × PeerAns :=
  match endpointAccess s s.endpoint x va op with
  | (s1, .ans r) => (dropIslandFault s1 who va, r)
  | (s1, .fault k) =>
    if s.attends 4 && Config.freeBool s.fresh 8 then (dropIslandFault s1 who va, .refused 1) else (islandFault s1 who x k op.writes va, .wait)

/-- A counter window (R362): an aligned doubleword store adds, an aligned doubleword load reads. -/
def counterWindow (s : State) (x : Fin 64) (first : W) (o : Nat) (op : PeerOp) : State × PeerAns :=
  match s.localCounter x (first.toNat + o / 8), op with
  | some n, .write bs => if o % 8 = 0 ∧ bs.length = 8 then (addCounter n (BitVec.ofNat 64 (ofBytes bs)) s, .done) else (s, .refused 2)
  | some n, .read k => if o % 8 = 0 ∧ k = 8 then (s, .data (bytesOf 8 (s.counter n).toNat)) else (s, .refused 2)
  | _, _ => (s, .refused 2)

/-- The kinds of access that a counter window takes (R362). -/
def counterOp : PeerOp → Bool
  | .read _ => true
  | .write _ => true
  | _ => false

/-- The doublewords of a peer-window descriptor (R361 Table 2). -/
def PeerWindow.words (w : PeerWindow) : List W :=
  [BitVec.ofNat 64 (w.ep.toNat + 2 ^ 16 * w.win.toNat + 2 ^ 24 * w.rd.toNat + 2 ^ 25 * w.wr.toNat + 2 ^ 26 * w.at_.toNat
      + 2 ^ 31 * w.valid.toNat + 2 ^ 32 * w.rctx.val),
    w.rbase, BitVec.ofNat 64 (w.len % 2 ^ 48), 0]

/-- The descriptor that three doublewords hold. -/
def PeerWindow.ofWords (d0 d1 d2 : W) : PeerWindow :=
  let x := d0.toNat
  { ep := BitVec.ofNat 12 x, win := BitVec.ofNat 4 (bits x 16 4), rd := d0.getLsbD 24, wr := d0.getLsbD 25, at_ := d0.getLsbD 26,
    valid := d0.getLsbD 31, rctx := Fin.ofNat 64 (bits x 32 6), rbase := d1, len := bits d2.toNat 0 48 }

/-- Where descriptor i of a context's table lies (R360), which is aligned to 64 bytes; beyond device memory there is none. -/
def Context.windowLoc (c : Context) (i : Nat) : Nat :=
  let a := c.pwt.toNat / 64 * 64 + 32 * i
  if a + 32 ≤ hbmSize then a else nowhere

/-- The peer-window table of a context, as it stands in device memory (R360, R361). -/
def State.windows (s : State) (x : Fin 64) : List PeerWindow :=
  (List.range (s.ctx x).pwn).map fun i =>
    let a := (s.ctx x).windowLoc i
    .ofWords (BitVec.ofNat 64 (tableWord s a)) (BitVec.ofNat 64 (tableWord s (a + 8))) (BitVec.ofNat 64 (tableWord s (a + 16)))

/-- The first valid descriptor of an endpoint and window (R361). -/
def State.window (s : State) (x : Fin 64) (ep : BitVec 12) (win : BitVec 4) : Option PeerWindow :=
  (s.windows x).find? fun w => w.valid && w.ep == ep && w.win == win

def PeerWindow.permits (w : PeerWindow) : PeerOp → Bool
  | .read _ => w.rd
  | .write _ => w.wr
  | .amo .. => w.at_
  | .combine .. => w.at_
  | .nibble .. => w.wr

def Route.port (r : Route) (i : Nat) : Fin 16 :=
  match i with
  | 0 => r.prt0
  | 1 => r.prt1
  | 2 => r.prt2
  | _ => r.prt3

def State.route (s : State) (ep : BitVec 12) : Route := tabGet s.routes ep.toNat (Route.mk false 0 0 0 0 0)

/-- The port by which traffic of a class leaves (R358). -/
def Route.portOf (r : Route) (cls : Nat) : Fin 16 := r.port (cls % (r.cnt.val + 1))

/-- Endpoint ep can be reached (R358, R364, R422): a valid routing entry with a port that is up, of an island that takes new
traffic. -/
def State.routed (s : State) (ep : BitVec 12) : Bool :=
  let r := s.route ep
  (s.island == .forward || s.island == .attached) && r.v && (List.range (r.cnt.val + 1)).any fun i => s.ports.get (r.port i) != .down

/-- The data a peer's memory returns: free values (R361; nothing here fixes another module's memory). -/
def peerData (s : State) (n : Nat) : List Byte := (List.range n).map fun i => (Config.freeWord s.fresh (64 + i)).setWidth 8

/-- What another endpoint answers (R362 to R364, R399): a refusal, reason 2 only for a counter number beyond its partition;
data that may be poisoned; nothing here fixes which, or the values. -/
def peerAnswer (s : State) (win : BitVec 4) (op : PeerOp) : PeerAns :=
  if Config.freeBool s.fresh 9 then .refused (if win = 15 ∧ Config.freeBool s.fresh 11 = true then 2 else 1)
  else if op.reads ∧ win ≠ 15 ∧ Config.freeBool s.fresh 10 = true then .poisoned (peerData s op.size)
  else match op with
    | .read n => .data (peerData s n)
    | .amo .. => .old (Config.freeWord s.fresh 63)
    | _ => .done

/-- A refusal is counted (R364). -/
def countAns (x : Fin 64) (r : State × PeerAns) : State × PeerAns :=
  match r.2 with
  | .refused k => (countRefusal x r.1, .refused k)
  | a => (r.1, a)

/-- The access leaves for another endpoint by its class's port (R358). -/
def sendPeer (s : State) (x : Fin 64) (cls : Nat) (ep : BitVec 12) (win : BitVec 4) (o : Nat) (op : PeerOp) : State :=
  { s with fabricOut := s.fabricOut ++ [⟨x, cls, (s.route ep).portOf cls, ep, win, o, op⟩] }

/-- A space-6 access of an agent in context x and a class (R361 to R364). The route to the own endpoint is internal (R358). -/
def peerAccess (s : State) (who : FaultAgent) (x : Fin 64) (cls : Nat) (ep : BitVec 12) (win : BitVec 4) (o : Nat) (op : PeerOp) :
    State × PeerAns :=
  match s.window x ep win with
  | none => countAns x (s, .refused 2)
  | some w =>
    if w.len < o + op.size ∨ w.permits op = false then countAns x (s, .refused 2)
    else if win = 15 ∧ (op.size ≠ 8 ∨ o % 8 ≠ 0 ∨ counterOp op = false) then countAns x (s, .refused 2)
    else if ep = s.endpoint then
      countAns x (if win = 15 then (if s.admitted w.rctx s.endpoint then counterWindow s w.rctx w.rbase o op else (s, .refused 1))
        else ownAccess s who w.rctx (w.rbase + BitVec.ofNat 64 o) op)
    else if s.routed ep = false then countAns x (s, .refused 1)
    else countAns x (sendPeer s x cls ep win o op, peerAnswer s win op)

end Sys2Proof.Machine
end

