-- ==== Sys2Proof/Machine/Access.lean ====
section
/-! DEFINITION. Accesses under way: their order within a strand, and performing one (05 R131 to R140, 08 R251 to R258, 13
R376 to R382). -/

namespace Sys2Proof.Machine

/-! Order (R132, R136, R140, R253). -/

def AccKind.slot? : AccKind → Option (BitVec 3)
  | .load k _ _ => some k
  | .amo k _ _ _ => some k
  | .trig k _ _ _ => some k
  | _ => none

def AccKind.isFence : AccKind → Bool
  | .fence _ => true
  | _ => false

/-- The classes an access stands in: its own, or a fence's. -/
def Pend.classes (p : Pend) : BitVec 16 :=
  match p.kind with
  | .fence m => m
  | _ => 1 <<< p.cls

/-- How many bytes an access touches. -/
def Pend.size (p : Pend) : Nat :=
  match p.kind with
  | .store bs => bs.length
  | .load _ n _ => n
  | .amo .. => 8
  | .trig _ 0 _ _ => 64
  | .move _ _ n _ => n
  | _ => 0

/-- Two accesses touch a byte of one location (R132): by location, or by peer address as the source writes it. -/
def overlap (s : State) (c : Cl) (t : Tgt) (n : Nat) (u : Tgt) (m : Nat) : Bool :=
  match t, u with
  | .peer e w o, .peer f v q => e == f && w == v && decide (o.toNat < q.toNat + m) && decide (q.toNat < o.toNat + n)
  | .peer .., _ => false
  | _, .peer .. => false
  | _, _ => match tgtLoc s c t, tgtLoc s c u with
    | some a, some b => decide (a < b + m) && decide (b < a + n)
    | _, _ => false

/-- A later access q of a strand may not perform before an earlier access p. -/
def ordered (s : State) (c : Cl) (p q : Pend) : Bool :=
  p.acq.isSome && !p.kind.isFence || q.rel.isSome && !q.kind.isFence || (p.classes &&& q.classes) ≠ 0 ||
    q.byteOrder && overlap s c p.tgt p.size q.tgt q.size

/-- The access side is halted at or before this entry (R54). -/
def Strand.heldByHalt (t : Strand) (p : Pend) : Bool :=
  match t.flqHalt, p.kind.slot? with
  | some h, some k => decide ((h.idx - t.flqHead).toNat ≤ (k - t.flqHead).toNat)
  | _, _ => false

/-- An access that writes what it reads. -/
def AccKind.writes : AccKind → Bool
  | .amo .. => true
  | _ => false

/-- The far access as the queue's access side leaves it once its translation has succeeded (R54): it stands. -/
def Pend.translated (s : State) (c : Cl) (p : Pend) : State × Option Pend :=
  match p.kind.slot?, p.tgt with
  | some _, .virt va none =>
    match translateCore s c va.toNat true p.kind.writes with
    | (s1, .ok r) => (s1, some { p with tgt := .virt va (some r) })
    | (_, .error _) => (s, none)
  | _, _ => (s, some p)

/-- A far access waits at a translation that does not succeed now (R54). -/
def Pend.stuck (s : State) (c : Cl) (p : Pend) : Bool := (p.translated s c).2.isNone

/-- The accesses before a far access are translated before it performs, so that none of them faults behind it; none if one of
them is stuck (R54). -/
def translateOlder (c : Cl) (k : Sn) (ps : List Pend) (s : State) : Option State :=
  ps.foldl (fun o p => o.bind fun z => match p.translated z c with
    | (z1, some q) => some (z1.modStrand c k fun t => { t with pend := t.pend.replace p q })
    | (_, none) => none) (some s)

/-- The j-th access under way may perform: every earlier one it is ordered after has, and a far access only while no older
far access is stuck (R54). -/
def canPerform (s : State) (c : Cl) (k : Sn) (j : Nat) : Bool :=
  let t := s.strand c k
  match t.pend[j]? with
  | none => false
  | some q => !t.heldByHalt q && (t.pend.take j).all fun p => !ordered s c p q && (q.kind.slot?.isNone || !p.stuck s c)

/-! Delivery (R53, R133, R135). -/

/-- The entry of a queue slot receives a result. -/
def Strand.deliver (t : Strand) (slot : BitVec 3) (r : FlqResult) : Strand :=
  let i := (slot - t.flqHead).toNat
  { t with flq := t.flq.mapIdx fun n e => if n = i then { e with res := r } else e }

/-- A loaded value, extended (R129 Table 3). -/
def extend (signed : Bool) (bs : List Byte) : W :=
  let v := ofBytes bs
  if signed then BitVec.ofInt 64 (sx v (8 * bs.length)) else BitVec.ofNat 64 v

/-! Performing. -/

/-- A release at a scope beyond the cluster writes back every dirty line (R258). -/
def releaseAt (c : Cl) (e : ScopeSet) (s : State) : State := if reachesBeyond s c e then cleanAll c s else s

/-- An acquire at a scope beyond the cluster invalidates every line (R258). -/
def acquireAt (c : Cl) (e : ScopeSet) (s : State) : State := if reachesBeyond s c e then dropAll c s else s

/-- The line of a location of the own vault leaves the cache before an access at the memory (R136, R139), by whichever space
the strand names it. -/
def leaveCache (c : Cl) (a : Nat) (s : State) : State := (lineOf c a).elim s fun l => dropLine c l s

/-- The poisoned line of this module that a read of a strand at a target consumes (R398, R399). -/
def Tgt.poison (s : State) (t : Tgt) (n : Nat) : Option Nat :=
  match t with
  | .loc a _ _ => s.poisonedIn a n
  | _ => none

/-- What performing came to: done; or a translation fault that stops it. -/
inductive Performed where
  | done (s : State)
  | fault (s : State) (code : BitVec 8) (addr : W) (write : Bool)
  | wait (s : State)

/-- Where an access that was translated under a key goes when it performs: nowhere, once the key is retired or the context's no
more (R355, R434). -/
def State.keyedLoc (s : State) (x : Fin 64) (r : Nat × BitVec 9) : Nat :=
  if hbmSize ≤ r.1 ∨ keyOk s x r.2 = true then r.1 else nowhere + r.1 % 2 ^ 29

/-- An access that was translated performs: by way of its key. -/
def reachKeyed (s : State) (c : Cl) (r : Nat × BitVec 9) : State × Except (BitVec 8) Tgt :=
  let a := s.keyedLoc (s.ctxOf c) r
  (s.underKey a r.2.toNat, .ok (.loc a 5 (some r.2)))

/-- A target translated for an access (R127, R342). -/
def resolve (s : State) (c : Cl) (t : Tgt) (rd wr : Bool) : State × Except (BitVec 8) Tgt :=
  match t with
  | .virt va none => match translateCore s c va.toNat rd wr with
    | (s1, .ok r) => (s1, .ok (.loc r.1 5 (some r.2)))
    | (s1, .error k) => (s1, .error k)
  | .virt _ (some r) => reachKeyed s c r
  | .loc a _ (some k) => reachKeyed s c (a, k)
  | t => (s, .ok t)

def Tgt.va : Tgt → W
  | .virt va _ => va
  | _ => 0

/-- The key under which an access has been translated and not yet performed. -/
def Pend.key? (p : Pend) : Option (BitVec 9) :=
  match p.tgt with
  | .loc _ _ k => k
  | .virt _ r => r.map (·.2)
  | .peer .. => none

/-- The aperture address of a peer target, for xtval (R128). -/
def peerAddress (ep : BitVec 12) (win : BitVec 4) (off : BitVec 44) : W :=
  BitVec.ofNat 64 (0xe * 2 ^ 60 + ep.toNat * 2 ^ 48 + win.toNat * 2 ^ 44 + off.toNat)

/-- The address by which an agent of cluster c names a location in a space (R249): in space 1 by its cluster's rank in the gang, in
space 4 by its cluster's logical number. -/
def addressIn (s : State) (c : Cl) (sp a : Nat) : W :=
  let phys : Cl := if a < 2 ^ 41 then Fin.ofNat 64 (a / 2 ^ 24) else Fin.ofNat 64 (a / 2 ^ 23)
  match sp with
  | 1 => BitVec.ofNat 64 (0x9 * 2 ^ 60 + ((List.range 64).findIdx fun i => s.rankCluster c i == some phys) * 2 ^ 23 + a % 2 ^ 23)
  | 4 => BitVec.ofNat 64 (0xc * 2 ^ 60 + ((List.range 64).findIdx fun i => s.physOf (s.ctxOf c) i == some phys) * 2 ^ 24 + a % 2 ^ 24)
  | _ => apertureOf a

/-- The address by which a strand of cluster c reached a target, for xtval. -/
def tgtAddress (s : State) (c : Cl) (t : Tgt) : W :=
  match t with
  | .loc a sp _ => addressIn s c sp a
  | .virt va _ => va
  | .peer e w o => peerAddress e w o

/-- The bytes of a strand's access in spaces 1, 4, 5 and 6 count for buffer 0 (R345). -/
def countAccess (c : Cl) (t : Tgt) (n : Nat) (s : State) : State :=
  let hot := match t with
    | .loc _ sp _ => [1, 4, 5].contains sp
    | _ => true
  if hot then s.countBuffer (dieOf c) (s.ctxOf c) 0 n 0 else s

/-- Bytes of an accumulator store that are about to be written are kept as they stand, for the tick (R247). -/
def Tile.noteOld (y : Tile) (tick : Nat) (bs : List OldByte) : Tile :=
  { y with accOld := (tick, (if y.accOld.1 = tick then y.accOld.2 else []) ++ bs) }

/-- A strand is about to write bytes: of an accumulator store they are kept. -/
def keepAcc (a n : Nat) (s : State) : State :=
  if 2 ^ 42 ≤ a ∧ a < 2 ^ 42 + 2 ^ 27 then
    s.modTile (Fin.ofNat 64 ((a - 2 ^ 42) / 2 ^ 21)) (Fin.ofNat 8 ((a - 2 ^ 42) / 2 ^ 18)) fun y =>
      y.noteOld (tickOf s.cycle) ((List.range n).map fun i => ⟨none, a + i, s.byte (a + i)⟩)
  else s

/-- A store performs in this module (R131, R136): into the data cache, by which space 3 is reached (R251), or at home. -/
def storeAt (s : State) (c : Cl) (t : Tgt) (bs : List Byte) (atMemory : Bool) : State :=
  match t with
  | .loc a sp _ => countAccess c t bs.length (if sp = 3 ∧ atMemory = false then cacheStore c a bs s else writeHome (keepAcc a bs.length (leaveCache c a s)) a bs)
  | _ => s

/-- A store at a peer, by doublewords ascending (R131, R156), where a refusal is only counted: the bytes left when the
endpoint makes one wait. -/
def storePeer (who : FaultAgent) (x : Fin 64) (cls : Nat) (ep : BitVec 12) (w : BitVec 4) :
    Nat → Nat → List Byte → State → State × List Byte
  | 0, _, bs, s => (s, bs)
  | n + 1, o, bs, s =>
    match peerAccess s who x cls ep w o (.write (bs.take 8)) with
    | (s1, .wait) => (s1, bs)
    | (s1, _) => if bs.length ≤ 8 then (s1, []) else storePeer who x cls ep w n (o + 8) (bs.drop 8) { s1 with fresh := s1.fresh + 1 }

/-- A read at a peer, by doublewords ascending (R196, R377), up to the first that brings no data. -/
def loadPeer (who : FaultAgent) (x : Fin 64) (cls : Nat) (ep : BitVec 12) (w : BitVec 4) :
    Nat → Nat → Nat → List Byte → State → State × PeerAns
  | 0, _, _, got, s => (s, .data got)
  | n + 1, o, left, got, s =>
    match peerAccess s who x cls ep w o (.read (min left 8)) with
    | (s1, .data bs) =>
      if left ≤ 8 then (s1, .data (got ++ bs)) else loadPeer who x cls ep w n (o + 8) (left - 8) (got ++ bs) { s1 with fresh := s1.fresh + 1 }
    | r => r

/-- A read of strand k in a class (R130, R133, R136): bytes, a refusal, a poisoned answer, or a wait at an endpoint. -/
def loadAt (s : State) (c : Cl) (k : Sn) (cls : Nat) (t : Tgt) (n : Nat) (atMemory : Bool) : State × PeerAns :=
  match t with
  | .loc a sp _ =>
    if sp = 3 ∧ atMemory = false then let r := cacheLoad c a n s; (r.1, .data r.2)
    else let s1 := leaveCache c a s; (countAccess c t n s1, .data (readHome s1 a n))
  | .peer ep w o => match loadPeer (.access c k) (s.ctxOf c) cls ep w 32 o.toNat n [] s with
    | (s1, .data bs) => (countAccess c t n s1, .data bs)
    | r => r
  | .virt .. => (s, .data [])

/-- A slot word (R378). -/
def slotWord (d : Slot) : W :=
  let st := match d.state with
    | .free => 0 | .armed => 1 | .firing => 2 | .done => 3 | .orphaned => 4 | .cancelled => 5 | .failed => 6
  BitVec.ofNat 64 (st + 16 * d.follower.toNat + 256 * (d.lst % 8) + 2 ^ 16 * (min d.fires 0xffff) + 2 ^ 32 * (d.thr.toNat % 2 ^ 32))

/-- The size in bytes of an element type that acopy combines under cop, none where it refuses (R238): floats but E2M1
and ZSCALE under add, min and max; integers under every assigned cop. -/
def combineSize (ty cop : Nat) : Option Nat :=
  if 5 < cop then none
  else if ty ≤ 4 then (if cop < 3 then (if ty = 0 then some 4 else if ty ≤ 2 then some 2 else some 1) else none)
  else match ty with
  | 0x6 => some 1
  | 0x7 => some 2
  | 0x8 => some 4
  | 0x9 => some 1
  | 0xa => some 2
  | 0xb => some 4
  | 0xc => some 8
  | _ => none

/-- An address that a descriptor may name as dst or src (R372): a device virtual or a space-6 address. -/
def descAddr (a : Nat) : Bool := decide (a < 2 ^ 55) || bits a 60 4 == 0xe

/-- A malformed descriptor (R372). -/
def malformed (s : State) (x : Fin 64) (dw : List W) : Bool :=
  let d : Slot := { blankSlot with ctx := x, dw := dw }
  let act := d.fld 0 0 3
  let dst := d.fld 3 0 64
  let src := d.fld 4 0 64
  let combine := act == 3 && d.fld 0 51 1 == 1
  let size := combineSize (d.fld 0 52 4) (d.fld 0 48 3)
  act == 0 || act == 6 || act == 7
    || (!d.follower && decide ((s.ctx x).ccnt ≤ d.fld 0 4 13))
    || (d.fld 0 17 1 == 1 && decide ((s.ctx x).scnt ≤ d.fld 0 18 14))
    || (combine && match size with
        | none => true
        | some n => d.fld 5 0 48 % n != 0 || src % n != 0 || dst % n != 0)
    || ((act == 1 || act == 2 || act == 4) && dst % 8 != 0)
    || (act == 4 && decide (10 ≤ d.fld 0 48 4))
    || ((act == 1 || act == 3 || act == 4) && !descAddr dst)
    || (act == 2 && !(bits dst 60 4 == 0xe && bits dst 44 4 == 0xf))
    || (act == 3 && !descAddr src)

/-- trig.post installs a descriptor (R377): the delivered word. -/
def installSlot (s : State) (x : Fin 64) (dw : List W) (b : W) : State × W :=
  let n := b.toNat % 2 ^ 14
  let out (st : Nat) : W := BitVec.ofNat 64 (st + n * 2 ^ 16)
  match s.localSlot x n with
  | none => (s, out 1)
  | some i =>
    let old := s.slot i
    if old.state = .armed ∨ old.state = .firing then (s, out 2)
    else if malformed s x dw then (s, out 3)
    else
      let d : Slot := { ctx := x, state := .armed, dw := dw, thr := (dw[1]?).getD 0,
                        reps := bits ((dw[2]?).getD 0).toNat 32 32, lst := 0, fires := 0, cancel := false }
      (testHead i (s.setSlot i d), out 0)

/-- trig.cancel acts on the slot after its word is taken (R378). -/
def cancelSlot (i : Nat) (s : State) : State :=
  let d := s.slot i
  match d.state with
  | .armed => s.setSlot i { d with state := .cancelled }
  | .firing => s.setSlot i { d with cancel := true }
  | _ => s

def wordsOf : List Byte → List W
  | a :: b :: c :: d :: e :: f :: g :: h :: r => BitVec.ofNat 64 (ofBytes [a, b, c, d, e, f, g, h]) :: wordsOf r
  | _ => []

/-- The ports that are up, and those of them on lanes 0 to 3 (R379). -/
def portMasks (s : State) : Nat :=
  ((List.finRange 16).map fun i => match s.ports.get i with
    | .down => 0
    | .full => 2 ^ (16 + i.val)
    | .narrow => 2 ^ (16 + i.val) + 2 ^ (32 + i.val)).sum

/-- trig.query, trig.cancel and ctr.rd at the island (R378, R379): the word delivered, or a refusal. -/
def islandWord (s : State) (x : Fin 64) (op : Nat) (a b : W) : State × FlqResult :=
  if op = 4 then
    match a.toNat / 2 ^ 62 with
    | 2 => (s, .value (s.ctx x).refused)
    | 3 => (s, .value (BitVec.ofNat 64 (s.endpoint.toNat + portMasks s)))
    | _ => match s.localCounter x (a.toNat % 2 ^ 13) with
      | some n => (s, .value (s.counter n))
      | none => (countRefusal x s, .refused 2 a)
  else
    match s.localSlot x (b.toNat % 2 ^ 14) with
    | none => (s, .value 0xf)
    | some i => (if op = 1 then cancelSlot i s else s, .value (slotWord (s.slot i)))

/-! rem.st (R380): byte by byte, each address resolved as the copy engine reaches it. -/

/-- One byte for the copy engine, at home. -/
inductive ByteRead where
  | byte (s : State) (b : Byte)
  | fault (s : State) (code : BitVec 8) (write : Bool)
  | refused (s : State)
  | poison (s : State) (loc : Nat)
  | hold (s : State)

/-- What a peer's answer is to the copy engine; poison there is device memory's (R400). -/
def ByteRead.ofPeer (b : Byte) (r : State × PeerAns) : ByteRead :=
  match r.2 with
  | .data bs => .byte r.1 (bs.headD 0)
  | .done => .byte r.1 b
  | .wait => .hold r.1
  | .poisoned _ => .poison r.1 0
  | _ => .refused r.1

def copyByteIn (s : State) (c : Cl) (k : Sn) (x : W) : ByteRead :=
  match target s c x 1 with
  | .error _ => .refused (countRefusal (s.ctxOf c) s)
  | .ok (sp, o) => match tgtOf s c sp o with
    | .virt va _ => match translateIsland s (s.ctxOf c) va.toNat true false (s.requestKey c) with
      | (s1, .ok a) => (s1.poisonedIn a 1).elim (.byte s1 (s1.byte a)) fun l => .poison s1 (64 * l)
      | (s1, .error code) => .fault s1 code false
    | .loc a _ _ => (s.poisonedIn a 1).elim (.byte s (s.byte a)) fun l => .poison s (64 * l)
    | .peer ep w off => .ofPeer 0 (peerAccess s (.access c k) (s.ctxOf c) 0 ep w off.toNat (.read 1))

def copyByteOut (s : State) (c : Cl) (k : Sn) (x : W) (b : Byte) (run : Nat) : ByteRead :=
  match target s c x 1 with
  | .error _ => .refused (countRefusal (s.ctxOf c) s)
  | .ok (sp, o) => match tgtOf s c sp o with
    | .virt va _ => match translateIsland s (s.ctxOf c) va.toNat false true (s.requestKey c) with
      | (s1, .ok a) => .byte (s1.putByte a b run) b
      | (s1, .error code) => .fault s1 code true
    | .loc a _ _ => .byte ((keepAcc a 1 (leaveCache c a s)).putByte a b run) b
    | .peer ep w off => .ofPeer b (peerAccess s (.access c k) (s.ctxOf c) 0 ep w off.toNat (.write [b]))

/-- Poison that the copy engine reads for a strand at an address (R399): the move stops, and the launch's context and tag are
purged. -/
def movePoison (s : State) (c : Cl) (loc : Nat) (addr : W) : State :=
  match s.gangOf c with
  | some g =>
    let e : FirstEvent := ⟨s.cycle, 0, BitVec.ofNat 64 (unitAt loc * 2 ^ 16 + 0x122), 0, addr, false, false⟩
    beginPurge s g.ctx g.tag ⟨c, false, e⟩ (unitAt loc ≠ 4)
  | none => s

/-- A byte that a move has read or written counts as its space says (R345). -/
def countByte (c : Cl) (x : W) (s : State) : State :=
  match target s c x 1 with
  | .ok (sp, o) => countAccess c (tgtOf s c sp o) 1 s
  | .error _ => s

/-- Moves n bytes ascending, after `run` others; what is left when it stops at a fault, or waits at an endpoint: source, destination, bytes, and
the fault. -/
def moveBytes (c : Cl) (k : Sn) (src dst : W) (run : Nat) : Nat → State → State × Option (W × W × Nat × Option XFault)
  | 0, s => (s, none)
  | n + 1, s =>
    match copyByteIn s c k src with
    | .refused s1 => (s1, none)
    | .poison s1 l => (movePoison s1 c l src, none)
    | .hold s1 => (s1, some (src, dst, n + 1, none))
    | .fault s1 code w => (s1, some (src, dst, n + 1, some ⟨code, src, w⟩))
    | .byte s1 b =>
      match copyByteOut { s1 with fresh := s1.fresh + 1 } c k dst b run with
      | .refused s2 => (s2, none)
      | .poison s2 _ => (s2, none)
      | .hold s2 => (s2, some (src, dst, n + 1, none))
      | .fault s2 code w => (s2, some (src, dst, n + 1, some ⟨code, dst, w⟩))
      | .byte s2 _ => moveBytes c k (src + 1) (dst + 1) (run + 1) n (countByte c src (countByte c dst s2))

/-- The first addresses by which a line of the own vault is named: space 3, and the cluster's number in space 4 (R249). -/
def lineNames (s : State) (c : Cl) (l : Nat) : List Nat :=
  (0xb * 2 ^ 60 + l * 64) :: ((List.range 64).filter fun i => s.physOf (s.ctxOf c) i == some c).map fun i => 0xc * 2 ^ 60 + i * 2 ^ 24 + l * 64

/-- The cache lines of a range of the own vault (R380): source lines are written back, destination lines dropped. -/
def rangeLines (s : State) (c : Cl) (x : W) (n : Nat) : List Nat :=
  ((s.core c).dcache.map (·.line)).filter fun l =>
    (lineNames s c l).any fun lo => decide (x.toNat < lo + 64) && decide (lo < x.toNat + n)

/-! Taking an access out of the list and performing it. -/

/-- What a far access's queue entry receives from an answer to an address (R53, R135, R399); a peer's poison is device memory's
(R400). -/
def farResult (at_ : W) (signed : Bool) : PeerAns → FlqResult
  | .data bs => .value (extend signed bs)
  | .old v => .value v
  | .refused why => .refused (BitVec.ofNat 16 why) at_
  | .poisoned _ => .poisoned 0 at_
  | _ => .value 0

/-- Performs one access of strand k (R131 to R140, R376 to R382); the caller has checked its order and takes it from the
list. -/
def performPend (s0 : State) (c : Cl) (k : Sn) (p : Pend) : Performed :=
  let x := s0.ctxOf c
  let s := { (match p.rel with | some e => releaseAt c e s0 | none => s0) with fresh := s0.fresh + 1 }
  let atMem := p.byteOrder
  let at_ := tgtAddress s c p.tgt
  match p.kind with
  | .store bs =>
    match p.tgt with
    | .peer ep w o =>
      match storePeer (.access c k) x p.cls ep w 32 o.toNat bs s with
      | (s1, []) => .done (countAccess c p.tgt bs.length s1)
      | (s1, rest) =>
        let q : Pend := { p with kind := .store rest, tgt := .peer ep w (o + BitVec.ofNat 44 (bs.length - rest.length)) }
        .wait ((countAccess c p.tgt (bs.length - rest.length) s1).modStrand c k fun t => { t with pend := t.pend.replace p q })
    | t => match resolve s c t false true with
      | (s1, .ok u) => .done (storeAt s1 c u bs atMem)
      | (s1, .error _) => .done s1
  | .load slot n sg =>
    match resolve s c p.tgt true false with
    | (s1, .error code) => .fault s1 code p.tgt.va false
    | (s1, .ok t) =>
      if let some l := t.poison s1 n then .done (s1.modStrand c k (·.deliver slot (.poisoned (64 * l) at_))) else
      let r := loadAt s1 c k p.cls t n atMem
      let s2 := match p.acq with | some e => acquireAt c e r.1 | none => r.1
      match r.2 with
      | .wait => .wait r.1
      | a => .done (s2.modStrand c k (·.deliver slot (farResult at_ sg a)))
  | .amo slot op y z =>
    match resolve s c p.tgt true true with
    | (s1, .error code) => .fault s1 code p.tgt.va true
    | (s1, .ok (.loc a sp _)) =>
      if let some l := s1.poisonedIn a 8 then .done (s1.modStrand c k (·.deliver slot (.poisoned (64 * l) at_))) else
      let r := amoHome (keepAcc a 8 (leaveCache c a s1)) a op y z
      .done ((countAccess c (.loc a sp) 8 r.1).modStrand c k (·.deliver slot (.value r.2)))
    | (s1, .ok (.peer ep w o)) =>
      let r := peerAccess s1 (.access c k) x p.cls ep w o.toNat (.amo op y z)
      match r.2 with
      | .wait => .wait r.1
      | a => .done ((countAccess c p.tgt 8 r.1).modStrand c k (·.deliver slot (farResult at_ false a)))
    | (s1, .ok (.virt ..)) => .done s1
  | .fence _ => .done (match p.acq with | some e => acquireAt c e s | none => s)
  | .ctrAdd n v => .done (match s.localCounter x n.toNat with
      | some i => addCounter i v s
      | none => countRefusal x s)
  | .trig slot 0 _ b =>
    match resolve s c p.tgt true false with
    | (s1, .error code) => .fault s1 code p.tgt.va false
    | (s1, .ok t) =>
      if let some l := t.poison s1 64 then .done (s1.modStrand c k (·.deliver slot (.poisoned (64 * l) at_))) else
      let r := loadAt s1 c k p.cls t 64 false
      match r.2 with
      | .wait => .wait r.1
      | .data bs =>
        let q := installSlot r.1 x (wordsOf bs) b
        .done (q.1.modStrand c k (·.deliver slot (.value q.2)))
      | a => .done (r.1.modStrand c k (·.deliver slot (farResult at_ false a)))
  | .trig slot op a b =>
    let r := islandWord s x op a b
    .done (r.1.modStrand c k (·.deliver slot r.2))
  | .sig v => match p.tgt with
    | .peer ep w o =>
      if w = 15 then .done (countAccess c p.tgt 8 (peerAccess s (.access c k) x p.cls ep w o.toNat (.write (bytesOf 8 v.toNat))).1) else .done (countRefusal x s)
    | _ => .done (countRefusal x s)
  | .valid v => .done (s.modCore c fun y => { y with xvalid := y.xvalid ||| v })
  | .spawn d l nd n base =>
    match s.launch? l with
    | some x =>
      .done (if x.reefed ∨ x.status.isSome then s
        else addRecord d ⟨l, nd, 0, n, base, (x.nodes[nd]?).elim 0 (·.stride), x.rank, 0, false⟩ s)
    | none => .done s
  | .move src dst n _ =>
    let s1 := (rangeLines s c src n).foldl (fun s l => cleanLine c l s) s
    let s2 := (rangeLines s c dst n).foldl (fun s l => dropLine c l s) s1
    match moveBytes c k src dst 0 n s2 with
    | (s3, none) => .done s3
    | (s3, some (a, b, left, f)) =>
      let s4 := f.elim s3 fun f => islandFault s3 (.source (.move c k)) x f.code f.write f.addr
      let q : Pend := { p with kind := .move a b left f.isSome }
      .wait (s4.modStrand c k fun t => { t with pend := t.pend.replace p q })

/-- The access side halts at an entry whose translation fails (R54); the die's firmware core receives the fault. -/
def haltFlq (s : State) (c : Cl) (k : Sn) (slot : BitVec 3) (code : BitVec 8) (addr : W) (write : Bool) (pc : W) : State :=
  let e : FaultEntry :=
    { code := code, write := write, src := 0, ctx := s.ctxOf c, cluster := c, unit := k.val, tile := 0, operand := 0,
      va := addr, seq := pc, n := 0, agent := none }
  let s1 := s.modStrand c k fun t => { t with flqHalt := some ⟨slot, ⟨code, addr, write⟩⟩ }
  s1.addFault (dieOf c) e

/-- Takes access j out of the list. -/
def Strand.dropPend (t : Strand) (j : Nat) : Strand := { t with pend := t.pend.eraseIdx j }

/-- The j-th access under way of a strand performs, if its order allows it now; else nothing changes. -/
def performAt (s : State) (c : Cl) (k : Sn) (j : Nat) : State :=
  match (s.strand c k).pend[j]? with
  | none => s
  | some p =>
    if canPerform s c k j then
      match (if p.kind.slot?.isSome then translateOlder c k ((s.strand c k).pend.take j) s else some s) with
      | none => s
      | some s0 => match performPend s0 c k p with
        | .done s1 => s1.modStrand c k (·.dropPend j)
        | .fault s1 code addr write => match p.kind.slot? with
          | some slot => haltFlq s1 c k slot code addr write p.pc
          | none => s1
        | .wait s1 => s1
    else s

/-! Accesses that must have performed before something else does. -/

/-- Which accesses of a list must perform before an access q: those q is ordered after, and those they are. -/
def neededFor (s : State) (c : Cl) (first : Pend → Bool) : List Pend → List Bool
  | [] => []
  | p :: r =>
    let rest := neededFor s c first r
    (first p || ((r.zip rest).any fun x => x.2 && ordered s c p x.1)) :: rest

/-- Performs the marked accesses in program order; none if one of them cannot perform now. -/
def performMarked (c : Cl) (k : Sn) : List (Pend × Bool) → State → Option State
  | [], s => some s
  | (p, false) :: r, s =>
    if r.any (fun q => q.2 && q.1.kind.slot?.isSome) then
      (translateOlder c k [p] s).bind (performMarked c k r)
    else performMarked c k r s
  | (p, true) :: r, s =>
    if (s.strand c k).heldByHalt p then none
    else match performPend s c k p with
    | .done s1 => performMarked c k r (s1.modStrand c k fun t => { t with pend := t.pend.erase p })
    | _ => none

/-- Everything that must perform before a new access of this strand has performed, or the word holds (R132, R136, R140,
R142): the oldest first. -/
def performBefore (s : State) (first : Pend → Bool) : Option State :=
  let ps := s.me.pend
  performMarked s.cur.c s.cur.k (ps.zip (neededFor s s.cur.c first ps)) s

/-- The order a plain access of a class and target needs (R132, R136). -/
def before (s : State) (q : Pend) (p : Pend) : Bool := ordered s s.cur.c p q

end Sys2Proof.Machine
end

