-- ==== Sys2Proof/WellFormed.lean ====
section
/-! DEFINITION. Well-formed instructions: the conditions on a word's fields that its layout admits but R76 and R79 call
illegal. Register fields beyond an allotment are no part of this: they trap when the word issues (R47). -/

namespace Sys2Proof

/-- The conditions of R76 and R79 on the fields of a word. A step that has no word has none. -/
def WellFormed : Instr → Bool
  | .tlbi _ _ kind => kind.toNat < 2
  | .loop _ _ _ fin => fin.toNat ≠ 0
  | .loopi _ _ _ fin => fin.toNat ≠ 0
  | .cas _ _ _ b _ => b.toNat ≠ 0
  | .amoBadd _ _ _ b _ => b.toNat ≠ 0
  | .remAmoBadd _ _ _ b => b.toNat ≠ 0
  | .ringDecl _ _ _ _ ns => ns.toNat ≠ 0
  | .ebind _ _ _ _ slot => slot.toNat ≠ 3
  | .hSet _ _ _ f => f.toNat < 11
  | .hGet _ _ _ f => f.toNat < 11
  | .hAdv _ _ _ f => f.toNat < 4
  | .bfx _ _ _ pos len => pos.toNat + len.toNat + 1 ≤ 64
  | .bfi _ _ _ pos len => pos.toNat + len.toNat + 1 ≤ 64
  | .cvtIF _ _ _ _ rm => rm.toNat < 5
  | .cvtFI _ _ _ _ rm => rm.toNat < 5
  | .cvtFBf _ _ _ rm => rm.toNat < 5
  | .cvtBfF _ _ _ rm => rm.toNat < 5
  | _ => true

/-- The rows of the opcode table that have a word (R71 to R81); the others are steps without one (95). -/
def Instr.isWord : Instr → Bool
  | .repIteration => false
  | .waitvReread _ _ => false
  | .xlateDeliver _ _ _ => false
  | .resultLand _ _ _ => false
  | .gapEnd _ _ => false
  | .switchAwayEnd _ _ => false
  | .storePerform _ _ _ => false
  | .farAccessComplete _ _ _ => false
  | .farAccessRefused _ _ _ => false
  | .farAccessTranslationFault _ _ _ => false
  | .flqRestart _ _ => false
  | .waitExpiry _ _ => false
  | .tileTick _ _ => false
  | .hostMailboxWrite _ _ _ => false
  | .mailboxInterrupt _ _ => false
  | .asyncTrapDelivery _ _ => false
  | .firmwareResume _ _ => false
  | .firmwareReflect _ _ => false
  | .templateTick _ _ => false
  | .blockStart _ _ _ => false
  | .blockComplete _ _ _ => false
  | .scheduleMiss _ _ _ => false
  | .engineFaultResume _ _ _ => false
  | .matrixRowLand _ _ => false
  | .reductionLand _ _ => false
  | .tmplLdWrite _ _ => false
  | .mma _ _ => false
  | .mmaZ _ _ => false
  | .mmaChain _ _ => false
  | .wload _ _ => false
  | .accZero _ _ => false
  | .accLd _ _ => false
  | .vAdd _ _ => false
  | .vSub _ _ => false
  | .vMul _ _ => false
  | .vFma _ _ => false
  | .vMin _ _ => false
  | .vMax _ _ => false
  | .vAbs _ _ => false
  | .vNeg _ _ => false
  | .clamp _ _ => false
  | .vCvt _ _ => false
  | .scale _ _ => false
  | .cmpsel _ _ => false
  | .redsum _ _ => false
  | .redmax _ _ => false
  | .redmin _ _ => false
  | .scan _ _ => false
  | .bcast _ _ => false
  | .perm _ _ => false
  | .qblk _ _ => false
  | .dqblk _ _ => false
  | .accRd _ _ => false
  | .tload _ _ => false
  | .tint _ _ => false
  | .exp2 _ _ => false
  | .rcp _ _ => false
  | .rsqrt _ _ => false
  | .bucket _ _ => false
  | .hashcell _ _ => false
  | .iota _ _ => false
  | .sortnet _ _ => false
  | .emit _ _ => false
  | .copy _ _ _ => false
  | .gather _ _ _ => false
  | .scatter _ _ _ => false
  | .scatterBkt _ _ _ => false
  | .fill _ _ _ => false
  | .acopy _ _ _ => false
  | .signal _ _ _ => false
  | .prefetch _ _ _ => false
  | .ctrPost _ _ _ => false
  | .auditReplay _ _ => false
  | .deviceTick => false
  | .xframeAdvance _ => false
  | .fabricTimeTick => false
  | .queueTake _ => false
  | .launchPacket _ => false
  | .copyPacket _ => false
  | .noOpPacket _ => false
  | .rerank _ => false
  | .admission _ => false
  | .placement _ => false
  | .spillReturn _ => false
  | .gangRelease _ => false
  | .reefPoint _ => false
  | .reefDiversion _ => false
  | .reefBudgetExpiry _ => false
  | .completionRecordWrite _ => false
  | .queueTableWrite _ _ => false
  | .rankProgramInstall _ _ _ => false
  | .firmwareTableWrite _ => false
  | .contextCreate _ _ => false
  | .contextKill _ => false
  | .killComplete _ => false
  | .nodeBoundaryRequest _ => false
  | .yieldPointSave _ => false
  | .generationFenceRequest _ => false
  | .fenceSnapshot _ => false
  | .fenceAbandon _ => false
  | .gangRestore _ _ => false
  | .peerAccessArrive _ => false
  | .routeUpdate _ _ => false
  | .portRetrain _ _ => false
  | .flitResend _ => false
  | .counterAddition _ _ => false
  | .chainActionComplete _ => false
  | .triggerOrphan _ => false
  | .ptpMessage _ => false
  | .hostRead _ _ => false
  | .hostWrite _ _ _ => false
  | .hostFetchadd _ _ _ => false
  | .hostCas _ _ _ _ => false
  | .supersededBitsRead _ => false
  | .poisonConsumption _ _ => false
  | .purge _ _ => false
  | .purgeComplete _ _ => false
  | .tableScrub => false
  | .dieFence _ => false
  | .masterReplace => false
  | .queueReset _ => false
  | .queueResetComplete _ => false
  | .clusterRetest _ _ => false
  | .checkpointRequest _ => false
  | .checkpointStream => false
  | .checkpointResume => false
  | .checkpointRestore _ _ => false
  | .powerApply => false
  | .powerRemove => false
  | .islandResetRequest => false
  | .drainEnd => false
  | .diePowerOn _ => false
  | .dieResetRelease _ => false
  | .dieBootComplete _ => false
  | .dieDrain _ _ => false
  | .dieDrainComplete _ => false
  | .powerSample _ _ => false
  | .powerBudgetWrite _ => false
  | .coldPlateAlarm _ => false
  | .idleClockGate _ => false
  | .idlePowerGate _ => false
  | .leaseRenew _ => false
  | .leaseCheck _ => false
  | .leaseCas _ _ => false
  | .leaseVacate => false
  | .firmwarePrepare _ _ _ => false
  | .firmwareCommit _ => false
  | .quoteRequest _ => false
  | .measurementExtend _ _ => false
  | .keyAssign _ _ => false
  | .keyRetire _ => false
  | .keyRetireComplete _ => false
  | .unassignedEncoding => false
  | .transitTraffic _ => false
  | .islandAgentFaultResolved _ => false
  | .faultLeftUnresolved _ => false
  | .faultPolicyEndLaunch _ => false
  | .remStComplete _ _ _ => false
  | .fencedDieReset _ _ => false
  | .firmwareSwitch _ => false
  | _ => true

end Sys2Proof
end

