-- ==== Sys2Proof/Decode.lean ====
section
/-! DEFINITION. Decoding and encoding of instruction words (03 R71 to R81). -/

namespace Sys2Proof

/-- Why a word is no instruction: each is an illegal-instruction trap with the word in xtval (R79). `shortWord`: fewer
than four bytes were given, which no fetch of a whole word does. -/
inductive DecodeError where
  | unassignedMajor | unassignedMinor | tlbiKind | loopEndZero | pairBaseZero | ringSlotsZero | ebindSlot
  | handleField | fieldPastEnd | roundingMode | shortWord
  deriving DecidableEq, Repr

/-- The k-bit field whose lowest bit is bit lo. -/
def fld (k n lo : Nat) : BitVec k := BitVec.ofNat k (n / 2 ^ lo)

/-- Bit lo. -/
def bit (n lo : Nat) : Bool := n / 2 ^ lo % 2 == 1

/-- Bits 25 and 24:23 of a non-patch word (R72). -/
def marksOf (n : Nat) : Marks := ⟨bit n 25, fld 2 n 23⟩

/-- Major 0x00 (R75, R79). -/
def decodeSys (n : Nat) : Except DecodeError Instr :=
  match n % 2 ^ 5 with
  | 1 => .ok (.nop (marksOf n))
  | 2 => .ok (.xrd (marksOf n) (fld 5 n 18) (fld 8 n 5))
  | 3 => .ok (.xwr (marksOf n) (fld 5 n 13) (fld 8 n 5))
  | 4 => .ok (.xset (marksOf n) (fld 5 n 13) (fld 8 n 5))
  | 5 => .ok (.xclr (marksOf n) (fld 5 n 13) (fld 8 n 5))
  | 6 => .ok (.svc (marksOf n) (fld 8 n 5))
  | 7 => .ok (.brk (marksOf n) (fld 8 n 5))
  | 8 => .ok (.eret (marksOf n))
  | 9 => if 2 ≤ n / 2 ^ 5 % 2 ^ 8 then .error .tlbiKind else .ok (.tlbi (marksOf n) (fld 5 n 13) (fld 8 n 5))
  | _ => .error .unassignedMinor

/-- Major 0x01 (R75, R79). -/
def decodeAlu3 (n : Nat) : Except DecodeError Instr :=
  match n % 2 ^ 8 with
  | 0 => .ok (.add (marksOf n) (fld 5 n 18) (fld 5 n 13) (fld 5 n 8))
  | 1 => .ok (.sub (marksOf n) (fld 5 n 18) (fld 5 n 13) (fld 5 n 8))
  | 2 => .ok (.mul (marksOf n) (fld 5 n 18) (fld 5 n 13) (fld 5 n 8))
  | 3 => .ok (.mulh (marksOf n) (fld 5 n 18) (fld 5 n 13) (fld 5 n 8))
  | 4 => .ok (.mulhu (marksOf n) (fld 5 n 18) (fld 5 n 13) (fld 5 n 8))
  | 5 => .ok (.div (marksOf n) (fld 5 n 18) (fld 5 n 13) (fld 5 n 8))
  | 6 => .ok (.divu (marksOf n) (fld 5 n 18) (fld 5 n 13) (fld 5 n 8))
  | 7 => .ok (.rem (marksOf n) (fld 5 n 18) (fld 5 n 13) (fld 5 n 8))
  | 8 => .ok (.remu (marksOf n) (fld 5 n 18) (fld 5 n 13) (fld 5 n 8))
  | 9 => .ok (.and (marksOf n) (fld 5 n 18) (fld 5 n 13) (fld 5 n 8))
  | 10 => .ok (.or (marksOf n) (fld 5 n 18) (fld 5 n 13) (fld 5 n 8))
  | 11 => .ok (.xor (marksOf n) (fld 5 n 18) (fld 5 n 13) (fld 5 n 8))
  | 12 => .ok (.andn (marksOf n) (fld 5 n 18) (fld 5 n 13) (fld 5 n 8))
  | 13 => .ok (.shl (marksOf n) (fld 5 n 18) (fld 5 n 13) (fld 5 n 8))
  | 14 => .ok (.shr (marksOf n) (fld 5 n 18) (fld 5 n 13) (fld 5 n 8))
  | 15 => .ok (.sra (marksOf n) (fld 5 n 18) (fld 5 n 13) (fld 5 n 8))
  | 16 => .ok (.min (marksOf n) (fld 5 n 18) (fld 5 n 13) (fld 5 n 8))
  | 17 => .ok (.max (marksOf n) (fld 5 n 18) (fld 5 n 13) (fld 5 n 8))
  | 18 => .ok (.minu (marksOf n) (fld 5 n 18) (fld 5 n 13) (fld 5 n 8))
  | 19 => .ok (.maxu (marksOf n) (fld 5 n 18) (fld 5 n 13) (fld 5 n 8))
  | 20 => .ok (.clz (marksOf n) (fld 5 n 18) (fld 5 n 13))
  | 21 => .ok (.ctz (marksOf n) (fld 5 n 18) (fld 5 n 13))
  | 22 => .ok (.popc (marksOf n) (fld 5 n 18) (fld 5 n 13))
  | _ => .error .unassignedMinor

/-- Major 0x06 (R75, R79). -/
def decodeShift (n : Nat) : Except DecodeError Instr :=
  match n / 2 ^ 11 % 2 ^ 2 with
  | 0 => .ok (.shli (marksOf n) (fld 5 n 18) (fld 5 n 13) (fld 6 n 0))
  | 1 => .ok (.shri (marksOf n) (fld 5 n 18) (fld 5 n 13) (fld 6 n 0))
  | 2 => .ok (.srai (marksOf n) (fld 5 n 18) (fld 5 n 13) (fld 6 n 0))
  | _ => .error .unassignedMinor

/-- Major 0x09 (R75, R79). -/
def decodeCmp (n : Nat) : Except DecodeError Instr :=
  match n % 2 ^ 8 with
  | 0 => .ok (.cmpEq (marksOf n) (fld 3 n 20) (fld 5 n 13) (fld 5 n 8))
  | 1 => .ok (.cmpNe (marksOf n) (fld 3 n 20) (fld 5 n 13) (fld 5 n 8))
  | 2 => .ok (.cmpLt (marksOf n) (fld 3 n 20) (fld 5 n 13) (fld 5 n 8))
  | 3 => .ok (.cmpGe (marksOf n) (fld 3 n 20) (fld 5 n 13) (fld 5 n 8))
  | 4 => .ok (.cmpLtu (marksOf n) (fld 3 n 20) (fld 5 n 13) (fld 5 n 8))
  | 5 => .ok (.cmpGeu (marksOf n) (fld 3 n 20) (fld 5 n 13) (fld 5 n 8))
  | _ => .error .unassignedMinor

/-- Major 0x0a (R75, R79). -/
def decodeCmpi (n : Nat) : Except DecodeError Instr :=
  match n / 2 ^ 10 % 2 ^ 3 with
  | 0 => .ok (.cmpiEq (marksOf n) (fld 3 n 20) (fld 5 n 13) (fld 10 n 0))
  | 1 => .ok (.cmpiNe (marksOf n) (fld 3 n 20) (fld 5 n 13) (fld 10 n 0))
  | 2 => .ok (.cmpiLt (marksOf n) (fld 3 n 20) (fld 5 n 13) (fld 10 n 0))
  | 3 => .ok (.cmpiGe (marksOf n) (fld 3 n 20) (fld 5 n 13) (fld 10 n 0))
  | 4 => .ok (.cmpiLtu (marksOf n) (fld 3 n 20) (fld 5 n 13) (fld 10 n 0))
  | 5 => .ok (.cmpiGeu (marksOf n) (fld 3 n 20) (fld 5 n 13) (fld 10 n 0))
  | _ => .error .unassignedMinor

/-- Major 0x0b (R75, R79). -/
def decodePred (n : Nat) : Except DecodeError Instr :=
  match n % 2 ^ 8 with
  | 0 => .ok (.pand (marksOf n) (fld 3 n 20) (fld 3 n 17) (fld 3 n 14))
  | 1 => .ok (.por (marksOf n) (fld 3 n 20) (fld 3 n 17) (fld 3 n 14))
  | 2 => .ok (.pxor (marksOf n) (fld 3 n 20) (fld 3 n 17) (fld 3 n 14))
  | 3 => .ok (.pandn (marksOf n) (fld 3 n 20) (fld 3 n 17) (fld 3 n 14))
  | 4 => .ok (.pmov (marksOf n) (fld 3 n 20) (fld 3 n 17))
  | 5 => .ok (.psave (marksOf n) (fld 5 n 18))
  | 6 => .ok (.pload (marksOf n) (fld 5 n 13))
  | _ => .error .unassignedMinor

/-- Major 0x0c (R75, R79). -/
def decodeFp3 (n : Nat) : Except DecodeError Instr :=
  match n % 2 ^ 8 with
  | 0 => .ok (.fadd (marksOf n) (fld 5 n 18) (fld 5 n 13) (fld 5 n 8))
  | 1 => .ok (.fsub (marksOf n) (fld 5 n 18) (fld 5 n 13) (fld 5 n 8))
  | 2 => .ok (.fmul (marksOf n) (fld 5 n 18) (fld 5 n 13) (fld 5 n 8))
  | 3 => .ok (.fdiv (marksOf n) (fld 5 n 18) (fld 5 n 13) (fld 5 n 8))
  | 4 => .ok (.fsqrt (marksOf n) (fld 5 n 18) (fld 5 n 13))
  | 5 => .ok (.fmin (marksOf n) (fld 5 n 18) (fld 5 n 13) (fld 5 n 8))
  | 6 => .ok (.fmax (marksOf n) (fld 5 n 18) (fld 5 n 13) (fld 5 n 8))
  | 7 => .ok (.fabs (marksOf n) (fld 5 n 18) (fld 5 n 13))
  | 8 => .ok (.fneg (marksOf n) (fld 5 n 18) (fld 5 n 13))
  | 9 => .ok (.fsgnj (marksOf n) (fld 5 n 18) (fld 5 n 13) (fld 5 n 8))
  | 10 => .ok (.fclass (marksOf n) (fld 5 n 18) (fld 5 n 13))
  | 16 => .ok (.fcmpEq (marksOf n) (fld 3 n 20) (fld 5 n 13) (fld 5 n 8))
  | 17 => .ok (.fcmpLt (marksOf n) (fld 3 n 20) (fld 5 n 13) (fld 5 n 8))
  | 18 => .ok (.fcmpLe (marksOf n) (fld 3 n 20) (fld 5 n 13) (fld 5 n 8))
  | 19 => .ok (.fcmpUn (marksOf n) (fld 3 n 20) (fld 5 n 13) (fld 5 n 8))
  | _ => .error .unassignedMinor

/-- Major 0x0f (R75, R79). -/
def decodeJmp (n : Nat) : Except DecodeError Instr :=
  match n / 2 ^ 22 % 2 ^ 1 with
  | 0 => .ok (.jmp (marksOf n) (fld 22 n 0))
  | _ => .ok (.call (marksOf n) (fld 22 n 0))

/-- Major 0x10 (R75, R79). -/
def decodeJreg (n : Nat) : Except DecodeError Instr :=
  match n % 2 ^ 8 with
  | 0 => .ok (.jmpr (marksOf n) (fld 5 n 13))
  | 1 => .ok (.callr (marksOf n) (fld 5 n 13))
  | 2 => .ok (.ret (marksOf n))
  | 3 => .ok (.halt (marksOf n))
  | _ => .error .unassignedMinor

/-- Major 0x11 (R75, R79). -/
def decodeLoop (n : Nat) : Except DecodeError Instr :=
  match n / 2 ^ 21 % 2 ^ 1 with
  | 0 => if n % 2 ^ 13 = 0 then .error .loopEndZero else .ok (.loop (marksOf n) (bit n 22) (fld 5 n 13) (fld 13 n 0))
  | _ => if n % 2 ^ 10 = 0 then .error .loopEndZero else .ok (.loopi (marksOf n) (bit n 22) (fld 11 n 10) (fld 10 n 0))

/-- Major 0x12 (R75, R79). -/
def decodeRep (n : Nat) : Except DecodeError Instr :=
  match n / 2 ^ 22 % 2 ^ 1 with
  | 0 => .ok (.rep (marksOf n) (fld 5 n 13) (fld 3 n 10) (fld 3 n 7) (fld 3 n 4))
  | _ => .ok (.repImm (marksOf n) (fld 9 n 13) (fld 3 n 10) (fld 3 n 7) (fld 3 n 4))

/-- Major 0x13 (R75, R79). -/
def decodeLd (n : Nat) : Except DecodeError Instr :=
  match n / 2 ^ 6 % 2 ^ 3 with
  | 0 => .ok (.ldB (marksOf n) (fld 5 n 18) (fld 5 n 13) (fld 4 n 9) (fld 6 n 0))
  | 1 => .ok (.ldBu (marksOf n) (fld 5 n 18) (fld 5 n 13) (fld 4 n 9) (fld 6 n 0))
  | 2 => .ok (.ldH (marksOf n) (fld 5 n 18) (fld 5 n 13) (fld 4 n 9) (fld 6 n 0))
  | 3 => .ok (.ldHu (marksOf n) (fld 5 n 18) (fld 5 n 13) (fld 4 n 9) (fld 6 n 0))
  | 4 => .ok (.ldW (marksOf n) (fld 5 n 18) (fld 5 n 13) (fld 4 n 9) (fld 6 n 0))
  | 5 => .ok (.ldWu (marksOf n) (fld 5 n 18) (fld 5 n 13) (fld 4 n 9) (fld 6 n 0))
  | 6 => .ok (.ldD (marksOf n) (fld 5 n 18) (fld 5 n 13) (fld 4 n 9) (fld 6 n 0))
  | _ => .error .unassignedMinor

/-- Major 0x14 (R75, R79). -/
def decodeSt (n : Nat) : Except DecodeError Instr :=
  match n / 2 ^ 6 % 2 ^ 3 with
  | 0 => .ok (.stB (marksOf n) (fld 5 n 18) (fld 5 n 13) (fld 4 n 9) (fld 6 n 0))
  | 1 => .ok (.stH (marksOf n) (fld 5 n 18) (fld 5 n 13) (fld 4 n 9) (fld 6 n 0))
  | 2 => .ok (.stW (marksOf n) (fld 5 n 18) (fld 5 n 13) (fld 4 n 9) (fld 6 n 0))
  | 3 => .ok (.stD (marksOf n) (fld 5 n 18) (fld 5 n 13) (fld 4 n 9) (fld 6 n 0))
  | _ => .error .unassignedMinor

/-- Major 0x15 (R75, R79). -/
def decodeFar (n : Nat) : Except DecodeError Instr :=
  match n / 2 ^ 6 % 2 ^ 3 with
  | 0 => .ok (.ldqB (marksOf n) (fld 5 n 18) (fld 5 n 13) (fld 4 n 9) (fld 6 n 0))
  | 1 => .ok (.ldqBu (marksOf n) (fld 5 n 18) (fld 5 n 13) (fld 4 n 9) (fld 6 n 0))
  | 2 => .ok (.ldqH (marksOf n) (fld 5 n 18) (fld 5 n 13) (fld 4 n 9) (fld 6 n 0))
  | 3 => .ok (.ldqHu (marksOf n) (fld 5 n 18) (fld 5 n 13) (fld 4 n 9) (fld 6 n 0))
  | 4 => .ok (.ldqW (marksOf n) (fld 5 n 18) (fld 5 n 13) (fld 4 n 9) (fld 6 n 0))
  | 5 => .ok (.ldqWu (marksOf n) (fld 5 n 18) (fld 5 n 13) (fld 4 n 9) (fld 6 n 0))
  | 6 => .ok (.ldqD (marksOf n) (fld 5 n 18) (fld 5 n 13) (fld 4 n 9) (fld 6 n 0))
  | _ =>
    match n / 2 ^ 11 % 2 ^ 2 with
    | 0 => .ok (.ldqAcq (marksOf n) (fld 5 n 18) (fld 5 n 13) (fld 5 n 0))
    | 1 => .ok (.stRel (marksOf n) (fld 5 n 18) (fld 5 n 13) (fld 5 n 0))
    | 2 => .ok (.pop (marksOf n))
    | _ => .error .unassignedMinor

/-- Major 0x16 (R75, R79). -/
def decodeAmo (n : Nat) : Except DecodeError Instr :=
  match n / 2 ^ 5 % 2 ^ 3 with
  | 0 => .ok (.amoAdd (marksOf n) (fld 5 n 18) (fld 5 n 13) (fld 5 n 8) (fld 5 n 0))
  | 1 => .ok (.amoAnd (marksOf n) (fld 5 n 18) (fld 5 n 13) (fld 5 n 8) (fld 5 n 0))
  | 2 => .ok (.amoOr (marksOf n) (fld 5 n 18) (fld 5 n 13) (fld 5 n 8) (fld 5 n 0))
  | 3 => .ok (.amoXor (marksOf n) (fld 5 n 18) (fld 5 n 13) (fld 5 n 8) (fld 5 n 0))
  | 4 => .ok (.amoMin (marksOf n) (fld 5 n 18) (fld 5 n 13) (fld 5 n 8) (fld 5 n 0))
  | 5 => .ok (.amoMax (marksOf n) (fld 5 n 18) (fld 5 n 13) (fld 5 n 8) (fld 5 n 0))
  | 6 => .ok (.amoMinu (marksOf n) (fld 5 n 18) (fld 5 n 13) (fld 5 n 8) (fld 5 n 0))
  | _ => .ok (.amoMaxu (marksOf n) (fld 5 n 18) (fld 5 n 13) (fld 5 n 8) (fld 5 n 0))

/-- Major 0x17 (R75, R79). -/
def decodeCas (n : Nat) : Except DecodeError Instr :=
  match n / 2 ^ 5 % 2 ^ 3 with
  | 0 => if n / 2 ^ 8 % 2 ^ 5 = 0 then .error .pairBaseZero else .ok (.cas (marksOf n) (fld 5 n 18) (fld 5 n 13) (fld 5 n 8) (fld 5 n 0))
  | 1 => .ok (.amoSwap (marksOf n) (fld 5 n 18) (fld 5 n 13) (fld 5 n 8) (fld 5 n 0))
  | 2 => if n / 2 ^ 8 % 2 ^ 5 = 0 then .error .pairBaseZero else .ok (.amoBadd (marksOf n) (fld 5 n 18) (fld 5 n 13) (fld 5 n 8) (fld 5 n 0))
  | _ => .error .unassignedMinor

/-- Major 0x19 (R75, R79). -/
def decodeSem (n : Nat) : Except DecodeError Instr :=
  match n / 2 ^ 21 % 2 ^ 2 with
  | 0 => .ok (.semWait (marksOf n) (fld 3 n 18) (fld 5 n 13) (fld 9 n 4) (fld 4 n 0))
  | 1 => .ok (.semPost (marksOf n) (fld 3 n 18) (fld 5 n 13) (fld 9 n 4))
  | 2 => .ok (.semRd (marksOf n) (fld 3 n 18) (fld 5 n 13) (fld 5 n 8))
  | _ => .error .unassignedMinor

/-- Major 0x1a (R75, R79). -/
def decodeRing (n : Nat) : Except DecodeError Instr :=
  match n / 2 ^ 21 % 2 ^ 2 with
  | 0 => if n % 2 ^ 8 = 0 then .error .ringSlotsZero else .ok (.ringDecl (marksOf n) (fld 3 n 18) (fld 5 n 13) (fld 5 n 8) (fld 8 n 0))
  | 1 => .ok (.ringWait (marksOf n) (fld 3 n 18) (fld 5 n 13) (fld 9 n 4) (fld 4 n 0))
  | 2 => .ok (.ringRel (marksOf n) (fld 3 n 18) (fld 5 n 13) (fld 9 n 4))
  | _ => .ok (.ringWp (marksOf n) (fld 3 n 18) (fld 5 n 13) (fld 5 n 8))

/-- Major 0x1b (R75, R79). -/
def decodeBar (n : Nat) : Except DecodeError Instr :=
  match n / 2 ^ 21 % 2 ^ 2 with
  | 0 => .ok (.barArrive (marksOf n) (fld 4 n 17))
  | 1 => .ok (.barWait (marksOf n) (fld 4 n 17) (fld 4 n 0))
  | 2 => .ok (.barSync (marksOf n) (fld 4 n 17) (fld 4 n 0))
  | _ => .error .unassignedMinor

/-- Major 0x1c (R75, R79). -/
def decodeWaitv (n : Nat) : Except DecodeError Instr :=
  match n / 2 ^ 20 % 2 ^ 3 with
  | 0 => .ok (.waitvEq (marksOf n) (bit n 19) (fld 5 n 13) (fld 5 n 8) (fld 4 n 0))
  | 1 => .ok (.waitvNe (marksOf n) (bit n 19) (fld 5 n 13) (fld 5 n 8) (fld 4 n 0))
  | 2 => .ok (.waitvLt (marksOf n) (bit n 19) (fld 5 n 13) (fld 5 n 8) (fld 4 n 0))
  | 3 => .ok (.waitvGe (marksOf n) (bit n 19) (fld 5 n 13) (fld 5 n 8) (fld 4 n 0))
  | 4 => .ok (.waitvLtu (marksOf n) (bit n 19) (fld 5 n 13) (fld 5 n 8) (fld 4 n 0))
  | 5 => .ok (.waitvGeu (marksOf n) (bit n 19) (fld 5 n 13) (fld 5 n 8) (fld 4 n 0))
  | _ => .error .unassignedMinor

/-- Major 0x1d (R75, R79). -/
def decodeEngine (n : Nat) : Except DecodeError Instr :=
  match n / 2 ^ 19 % 2 ^ 4 with
  | 0 => .ok (.tmask (marksOf n) (fld 5 n 0))
  | 1 => .ok (.epatch (marksOf n) (fld 2 n 17) (fld 6 n 11) (fld 5 n 6) (bit n 5) (fld 5 n 0))
  | 2 => if n % 2 ^ 2 = 3 then .error .ebindSlot else .ok (.ebind (marksOf n) (fld 2 n 17) (fld 6 n 11) (fld 5 n 6) (fld 2 n 0))
  | 3 => .ok (.eissue (marksOf n) (fld 2 n 17) (fld 6 n 11))
  | 4 => .ok (.efence (marksOf n) (fld 2 n 17) (bit n 16) (fld 4 n 0))
  | 5 => .ok (.egen (marksOf n) (fld 5 n 6))
  | 6 => .ok (.estat (marksOf n) (fld 2 n 17) (fld 5 n 6) (fld 3 n 0))
  | 7 => .ok (.tmplLd (marksOf n) (fld 2 n 17) (fld 6 n 11) (fld 5 n 0))
  | 8 => .ok (.tmplSt (marksOf n) (fld 2 n 17) (fld 6 n 11) (fld 5 n 0))
  | _ => .error .unassignedMinor

/-- Major 0x1e (R75, R79). -/
def decodeHandle (n : Nat) : Except DecodeError Instr :=
  match n / 2 ^ 20 % 2 ^ 3 with
  | 0 => .ok (.hLd (marksOf n) (fld 5 n 15) (fld 5 n 10) (fld 4 n 6))
  | 1 => .ok (.hSt (marksOf n) (fld 5 n 15) (fld 5 n 10) (fld 4 n 6))
  | 2 => if 11 ≤ n / 2 ^ 6 % 2 ^ 4 then .error .handleField else .ok (.hSet (marksOf n) (fld 5 n 15) (fld 5 n 10) (fld 4 n 6))
  | 3 => if 11 ≤ n / 2 ^ 6 % 2 ^ 4 then .error .handleField else .ok (.hGet (marksOf n) (fld 5 n 15) (fld 5 n 10) (fld 4 n 6))
  | 4 => if 4 ≤ n / 2 ^ 6 % 2 ^ 4 then .error .handleField else .ok (.hAdv (marksOf n) (fld 5 n 15) (fld 5 n 10) (fld 4 n 6))
  | 5 => .ok (.hMov (marksOf n) (fld 5 n 15) (fld 5 n 10))
  | 6 => .ok (.hClr (marksOf n) (fld 5 n 15))
  | _ => .error .unassignedMinor

/-- Major 0x20 (R75, R79). -/
def decodeTask (n : Nat) : Except DecodeError Instr :=
  match n % 2 ^ 8 with
  | 0 => .ok (.spawn (marksOf n) (fld 5 n 13) (fld 5 n 8))
  | 1 => .ok (.taskDone (marksOf n))
  | 2 => .ok (.validSet (marksOf n) (fld 5 n 13))
  | _ => .error .unassignedMinor

/-- Major 0x21 (R75, R79). -/
def decodeTrig (n : Nat) : Except DecodeError Instr :=
  match n % 2 ^ 8 with
  | 0 => .ok (.trigPost (marksOf n) (fld 5 n 18) (fld 5 n 13) (fld 5 n 8))
  | 1 => .ok (.trigCancel (marksOf n) (fld 5 n 18) (fld 5 n 8))
  | 2 => .ok (.trigQuery (marksOf n) (fld 5 n 18) (fld 5 n 8))
  | 3 => .ok (.ctrAdd (marksOf n) (fld 5 n 13) (fld 5 n 8))
  | 4 => .ok (.ctrRd (marksOf n) (fld 5 n 18) (fld 5 n 13))
  | _ => .error .unassignedMinor

/-- Major 0x22 (R75, R79). -/
def decodeRemote (n : Nat) : Except DecodeError Instr :=
  match n % 2 ^ 8 with
  | 0 => .ok (.remSt (marksOf n) (fld 5 n 18) (fld 5 n 13) (fld 5 n 8))
  | 1 => .ok (.remSig (marksOf n) (fld 5 n 13) (fld 5 n 8))
  | 16 => .ok (.remAmoAdd (marksOf n) (fld 5 n 18) (fld 5 n 13) (fld 5 n 8))
  | 17 => .ok (.remAmoAnd (marksOf n) (fld 5 n 18) (fld 5 n 13) (fld 5 n 8))
  | 18 => .ok (.remAmoOr (marksOf n) (fld 5 n 18) (fld 5 n 13) (fld 5 n 8))
  | 19 => .ok (.remAmoXor (marksOf n) (fld 5 n 18) (fld 5 n 13) (fld 5 n 8))
  | 20 => .ok (.remAmoMin (marksOf n) (fld 5 n 18) (fld 5 n 13) (fld 5 n 8))
  | 21 => .ok (.remAmoMax (marksOf n) (fld 5 n 18) (fld 5 n 13) (fld 5 n 8))
  | 22 => .ok (.remAmoMinu (marksOf n) (fld 5 n 18) (fld 5 n 13) (fld 5 n 8))
  | 23 => .ok (.remAmoMaxu (marksOf n) (fld 5 n 18) (fld 5 n 13) (fld 5 n 8))
  | 24 => .ok (.remAmoSwap (marksOf n) (fld 5 n 18) (fld 5 n 13) (fld 5 n 8))
  | 25 => if n / 2 ^ 8 % 2 ^ 5 = 0 then .error .pairBaseZero else .ok (.remAmoBadd (marksOf n) (fld 5 n 18) (fld 5 n 13) (fld 5 n 8))
  | _ => .error .unassignedMinor

/-- Major 0x23 (R75, R79). -/
def decodeTime (n : Nat) : Except DecodeError Instr :=
  match n % 2 ^ 8 with
  | 0 => .ok (.rdtick (marksOf n) (fld 5 n 18))
  | 1 => .ok (.rdframe (marksOf n) (fld 5 n 18))
  | 2 => .ok (.rdtime (marksOf n) (fld 5 n 18))
  | _ => .error .unassignedMinor

/-- Major 0x24 (R75, R79). -/
def decodeFrame (n : Nat) : Except DecodeError Instr :=
  match n / 2 ^ 22 % 2 ^ 1 with
  | 0 => .ok (.enter (marksOf n) (fld 18 n 0))
  | _ => .ok (.leave (marksOf n) (fld 18 n 0))

/-- Major 0x25 (R75, R79). -/
def decodeBitfield (n : Nat) : Except DecodeError Instr :=
  match n / 2 ^ 12 % 2 ^ 1 with
  | 0 => if 64 < n / 2 ^ 6 % 2 ^ 6 + n % 2 ^ 6 + 1 then .error .fieldPastEnd else .ok (.bfx (marksOf n) (fld 5 n 18) (fld 5 n 13) (fld 6 n 6) (fld 6 n 0))
  | _ => if 64 < n / 2 ^ 6 % 2 ^ 6 + n % 2 ^ 6 + 1 then .error .fieldPastEnd else .ok (.bfi (marksOf n) (fld 5 n 18) (fld 5 n 13) (fld 6 n 6) (fld 6 n 0))

/-- Major 0x28 (R75, R79). -/
def decodeCvt (n : Nat) : Except DecodeError Instr :=
  match n / 2 ^ 4 % 2 ^ 4 with
  | 0 => if 5 ≤ n % 2 ^ 3 then .error .roundingMode else .ok (.cvtIF (marksOf n) (fld 5 n 18) (fld 5 n 13) (bit n 3) (fld 3 n 0))
  | 1 => if 5 ≤ n % 2 ^ 3 then .error .roundingMode else .ok (.cvtFI (marksOf n) (fld 5 n 18) (fld 5 n 13) (bit n 3) (fld 3 n 0))
  | 2 => if 5 ≤ n % 2 ^ 3 then .error .roundingMode else .ok (.cvtFBf (marksOf n) (fld 5 n 18) (fld 5 n 13) (fld 3 n 0))
  | 3 => if 5 ≤ n % 2 ^ 3 then .error .roundingMode else .ok (.cvtBfF (marksOf n) (fld 5 n 18) (fld 5 n 13) (fld 3 n 0))
  | _ => .error .unassignedMinor

/-- A patch word (R73): bits 29:28 are the engine, and every value of the rest is legal. -/
def decodePatch (n : Nat) : Except DecodeError Instr :=
  match n / 2 ^ 28 % 2 ^ 2 with
  | 0 => .ok (.pwL (fld 6 n 22) (bit n 21) (fld 5 n 16) (fld 16 n 0))
  | 1 => .ok (.pwM (fld 6 n 22) (bit n 21) (fld 5 n 16) (fld 16 n 0))
  | 2 => .ok (.pwV (fld 6 n 22) (bit n 21) (fld 5 n 16) (fld 16 n 0))
  | _ => .ok (.pwS (fld 6 n 22) (bit n 21) (fld 5 n 16) (fld 16 n 0))

/-- The instruction a word stands for, from its major code (R72, R78). -/
def decodeNat (n : Nat) : Except DecodeError Instr :=
  match n / 2 ^ 26 % 2 ^ 6 with
  | 0x00 => decodeSys n
  | 0x01 => decodeAlu3 n
  | 0x02 => .ok (.addi (marksOf n) (fld 5 n 18) (fld 5 n 13) (fld 13 n 0))
  | 0x03 => .ok (.andi (marksOf n) (fld 5 n 18) (fld 5 n 13) (fld 13 n 0))
  | 0x04 => .ok (.ori (marksOf n) (fld 5 n 18) (fld 5 n 13) (fld 13 n 0))
  | 0x05 => .ok (.xori (marksOf n) (fld 5 n 18) (fld 5 n 13) (fld 13 n 0))
  | 0x06 => decodeShift n
  | 0x07 => .ok (.li (marksOf n) (fld 5 n 18) (fld 18 n 0))
  | 0x08 => .ok (.lih (marksOf n) (fld 5 n 18) (fld 18 n 0))
  | 0x09 => decodeCmp n
  | 0x0a => decodeCmpi n
  | 0x0b => decodePred n
  | 0x0c => decodeFp3 n
  | 0x0d => .ok (.fma (marksOf n) (fld 5 n 18) (fld 5 n 13) (fld 5 n 8) (fld 5 n 3))
  | 0x0e => .ok (.br (marksOf n) (fld 3 n 20) (bit n 19) (fld 19 n 0))
  | 0x0f => decodeJmp n
  | 0x10 => decodeJreg n
  | 0x11 => decodeLoop n
  | 0x12 => decodeRep n
  | 0x13 => decodeLd n
  | 0x14 => decodeSt n
  | 0x15 => decodeFar n
  | 0x16 => decodeAmo n
  | 0x17 => decodeCas n
  | 0x18 => .ok (.fence (marksOf n) (fld 16 n 7) (fld 5 n 0))
  | 0x19 => decodeSem n
  | 0x1a => decodeRing n
  | 0x1b => decodeBar n
  | 0x1c => decodeWaitv n
  | 0x1d => decodeEngine n
  | 0x1e => decodeHandle n
  | 0x1f => .ok (.xlate (marksOf n) (fld 5 n 13) (bit n 12))
  | 0x20 => decodeTask n
  | 0x21 => decodeTrig n
  | 0x22 => decodeRemote n
  | 0x23 => decodeTime n
  | 0x24 => decodeFrame n
  | 0x25 => decodeBitfield n
  | 0x26 => .ok (.sel (marksOf n) (fld 5 n 18) (fld 5 n 13) (fld 5 n 8) (fld 3 n 5) (bit n 4))
  | 0x27 => .ok (.madd (marksOf n) (fld 5 n 18) (fld 5 n 13) (fld 5 n 8) (fld 5 n 3))
  | 0x28 => decodeCvt n
  | 0x29 => .error .unassignedMajor
  | 0x2a => .error .unassignedMajor
  | 0x2b => .error .unassignedMajor
  | 0x2c => .ok (.hint (marksOf n) (fld 2 n 26) (fld 23 n 0))
  | 0x2d => .ok (.hint (marksOf n) (fld 2 n 26) (fld 23 n 0))
  | 0x2e => .ok (.hint (marksOf n) (fld 2 n 26) (fld 23 n 0))
  | 0x2f => .ok (.hint (marksOf n) (fld 2 n 26) (fld 23 n 0))
  | _ => decodePatch n

/-- The instruction of a 32-bit word, or the reason it is illegal (R79). -/
def decode (w : BitVec 32) : Except DecodeError Instr := decodeNat w.toNat

/-- Reads one word, stored little-endian (R71), from the front of a list of bytes. -/
def decodeBytes : List Byte → Except DecodeError (Instr × List Byte)
  | b0 :: b1 :: b2 :: b3 :: rest =>
    match decode (BitVec.ofNat 32 (ofBytes [b0, b1, b2, b3])) with
    | .ok i => .ok (i, rest)
    | .error e => .error e
  | _ => .error .shortWord

/-- The instruction that an opcode-table row of nbits bits and value w decodes to. -/
def decodeTableWord (nbits w : Nat) : Option Instr :=
  match decodeBytes (bytesOf 4 (w % 2 ^ nbits)) with
  | .ok (i, _) => some i
  | .error _ => none

/-- The marks in their place (R72). -/
def Marks.enc (m : Marks) : Nat := m.z.toNat * 2 ^ 25 + m.gap.toNat * 2 ^ 23

/-- A field value moved to its lowest bit. -/
def at_ (v lo : Nat) : Nat := v * 2 ^ lo

/-- A word as the sum of its codes and its fields in place (R73, R74). -/
def wordOf (codes : Nat) (fields : List Nat) : Nat := codes + fields.sum

/-- The word of an instruction, from its major and minor codes and its fields (R73 to R79); 0, which is no assigned
word, for a step that has no word. -/
def encodeNat : Instr → Nat
  | .nop m => wordOf 0x00000001 [m.enc]
  | .xrd m d xr => wordOf 0x00000002 [m.enc, at_ d.toNat 18, at_ xr.toNat 5]
  | .xwr m a xr => wordOf 0x00000003 [m.enc, at_ a.toNat 13, at_ xr.toNat 5]
  | .xset m a xr => wordOf 0x00000004 [m.enc, at_ a.toNat 13, at_ xr.toNat 5]
  | .xclr m a xr => wordOf 0x00000005 [m.enc, at_ a.toNat 13, at_ xr.toNat 5]
  | .svc m n => wordOf 0x00000006 [m.enc, at_ n.toNat 5]
  | .brk m n => wordOf 0x00000007 [m.enc, at_ n.toNat 5]
  | .eret m => wordOf 0x00000008 [m.enc]
  | .tlbi m a kind => wordOf 0x00000009 [m.enc, at_ a.toNat 13, at_ kind.toNat 5]
  | .add m d a b => wordOf 0x04000000 [m.enc, at_ d.toNat 18, at_ a.toNat 13, at_ b.toNat 8]
  | .sub m d a b => wordOf 0x04000001 [m.enc, at_ d.toNat 18, at_ a.toNat 13, at_ b.toNat 8]
  | .mul m d a b => wordOf 0x04000002 [m.enc, at_ d.toNat 18, at_ a.toNat 13, at_ b.toNat 8]
  | .mulh m d a b => wordOf 0x04000003 [m.enc, at_ d.toNat 18, at_ a.toNat 13, at_ b.toNat 8]
  | .mulhu m d a b => wordOf 0x04000004 [m.enc, at_ d.toNat 18, at_ a.toNat 13, at_ b.toNat 8]
  | .div m d a b => wordOf 0x04000005 [m.enc, at_ d.toNat 18, at_ a.toNat 13, at_ b.toNat 8]
  | .divu m d a b => wordOf 0x04000006 [m.enc, at_ d.toNat 18, at_ a.toNat 13, at_ b.toNat 8]
  | .rem m d a b => wordOf 0x04000007 [m.enc, at_ d.toNat 18, at_ a.toNat 13, at_ b.toNat 8]
  | .remu m d a b => wordOf 0x04000008 [m.enc, at_ d.toNat 18, at_ a.toNat 13, at_ b.toNat 8]
  | .and m d a b => wordOf 0x04000009 [m.enc, at_ d.toNat 18, at_ a.toNat 13, at_ b.toNat 8]
  | .or m d a b => wordOf 0x0400000a [m.enc, at_ d.toNat 18, at_ a.toNat 13, at_ b.toNat 8]
  | .xor m d a b => wordOf 0x0400000b [m.enc, at_ d.toNat 18, at_ a.toNat 13, at_ b.toNat 8]
  | .andn m d a b => wordOf 0x0400000c [m.enc, at_ d.toNat 18, at_ a.toNat 13, at_ b.toNat 8]
  | .shl m d a b => wordOf 0x0400000d [m.enc, at_ d.toNat 18, at_ a.toNat 13, at_ b.toNat 8]
  | .shr m d a b => wordOf 0x0400000e [m.enc, at_ d.toNat 18, at_ a.toNat 13, at_ b.toNat 8]
  | .sra m d a b => wordOf 0x0400000f [m.enc, at_ d.toNat 18, at_ a.toNat 13, at_ b.toNat 8]
  | .min m d a b => wordOf 0x04000010 [m.enc, at_ d.toNat 18, at_ a.toNat 13, at_ b.toNat 8]
  | .max m d a b => wordOf 0x04000011 [m.enc, at_ d.toNat 18, at_ a.toNat 13, at_ b.toNat 8]
  | .minu m d a b => wordOf 0x04000012 [m.enc, at_ d.toNat 18, at_ a.toNat 13, at_ b.toNat 8]
  | .maxu m d a b => wordOf 0x04000013 [m.enc, at_ d.toNat 18, at_ a.toNat 13, at_ b.toNat 8]
  | .clz m d a => wordOf 0x04000014 [m.enc, at_ d.toNat 18, at_ a.toNat 13]
  | .ctz m d a => wordOf 0x04000015 [m.enc, at_ d.toNat 18, at_ a.toNat 13]
  | .popc m d a => wordOf 0x04000016 [m.enc, at_ d.toNat 18, at_ a.toNat 13]
  | .addi m d a i => wordOf 0x08000000 [m.enc, at_ d.toNat 18, at_ a.toNat 13, at_ i.toNat 0]
  | .andi m d a i => wordOf 0x0c000000 [m.enc, at_ d.toNat 18, at_ a.toNat 13, at_ i.toNat 0]
  | .ori m d a i => wordOf 0x10000000 [m.enc, at_ d.toNat 18, at_ a.toNat 13, at_ i.toNat 0]
  | .xori m d a i => wordOf 0x14000000 [m.enc, at_ d.toNat 18, at_ a.toNat 13, at_ i.toNat 0]
  | .shli m d a sh => wordOf 0x18000000 [m.enc, at_ d.toNat 18, at_ a.toNat 13, at_ sh.toNat 0]
  | .shri m d a sh => wordOf 0x18000800 [m.enc, at_ d.toNat 18, at_ a.toNat 13, at_ sh.toNat 0]
  | .srai m d a sh => wordOf 0x18001000 [m.enc, at_ d.toNat 18, at_ a.toNat 13, at_ sh.toNat 0]
  | .li m d i => wordOf 0x1c000000 [m.enc, at_ d.toNat 18, at_ i.toNat 0]
  | .lih m d i => wordOf 0x20000000 [m.enc, at_ d.toNat 18, at_ i.toNat 0]
  | .cmpEq m p a b => wordOf 0x24000000 [m.enc, at_ p.toNat 20, at_ a.toNat 13, at_ b.toNat 8]
  | .cmpNe m p a b => wordOf 0x24000001 [m.enc, at_ p.toNat 20, at_ a.toNat 13, at_ b.toNat 8]
  | .cmpLt m p a b => wordOf 0x24000002 [m.enc, at_ p.toNat 20, at_ a.toNat 13, at_ b.toNat 8]
  | .cmpGe m p a b => wordOf 0x24000003 [m.enc, at_ p.toNat 20, at_ a.toNat 13, at_ b.toNat 8]
  | .cmpLtu m p a b => wordOf 0x24000004 [m.enc, at_ p.toNat 20, at_ a.toNat 13, at_ b.toNat 8]
  | .cmpGeu m p a b => wordOf 0x24000005 [m.enc, at_ p.toNat 20, at_ a.toNat 13, at_ b.toNat 8]
  | .cmpiEq m p a i => wordOf 0x28000000 [m.enc, at_ p.toNat 20, at_ a.toNat 13, at_ i.toNat 0]
  | .cmpiNe m p a i => wordOf 0x28000400 [m.enc, at_ p.toNat 20, at_ a.toNat 13, at_ i.toNat 0]
  | .cmpiLt m p a i => wordOf 0x28000800 [m.enc, at_ p.toNat 20, at_ a.toNat 13, at_ i.toNat 0]
  | .cmpiGe m p a i => wordOf 0x28000c00 [m.enc, at_ p.toNat 20, at_ a.toNat 13, at_ i.toNat 0]
  | .cmpiLtu m p a i => wordOf 0x28001000 [m.enc, at_ p.toNat 20, at_ a.toNat 13, at_ i.toNat 0]
  | .cmpiGeu m p a i => wordOf 0x28001400 [m.enc, at_ p.toNat 20, at_ a.toNat 13, at_ i.toNat 0]
  | .pand m d a b => wordOf 0x2c000000 [m.enc, at_ d.toNat 20, at_ a.toNat 17, at_ b.toNat 14]
  | .por m d a b => wordOf 0x2c000001 [m.enc, at_ d.toNat 20, at_ a.toNat 17, at_ b.toNat 14]
  | .pxor m d a b => wordOf 0x2c000002 [m.enc, at_ d.toNat 20, at_ a.toNat 17, at_ b.toNat 14]
  | .pandn m d a b => wordOf 0x2c000003 [m.enc, at_ d.toNat 20, at_ a.toNat 17, at_ b.toNat 14]
  | .pmov m d a => wordOf 0x2c000004 [m.enc, at_ d.toNat 20, at_ a.toNat 17]
  | .psave m d => wordOf 0x2c000005 [m.enc, at_ d.toNat 18]
  | .pload m a => wordOf 0x2c000006 [m.enc, at_ a.toNat 13]
  | .fadd m d a b => wordOf 0x30000000 [m.enc, at_ d.toNat 18, at_ a.toNat 13, at_ b.toNat 8]
  | .fsub m d a b => wordOf 0x30000001 [m.enc, at_ d.toNat 18, at_ a.toNat 13, at_ b.toNat 8]
  | .fmul m d a b => wordOf 0x30000002 [m.enc, at_ d.toNat 18, at_ a.toNat 13, at_ b.toNat 8]
  | .fdiv m d a b => wordOf 0x30000003 [m.enc, at_ d.toNat 18, at_ a.toNat 13, at_ b.toNat 8]
  | .fsqrt m d a => wordOf 0x30000004 [m.enc, at_ d.toNat 18, at_ a.toNat 13]
  | .fmin m d a b => wordOf 0x30000005 [m.enc, at_ d.toNat 18, at_ a.toNat 13, at_ b.toNat 8]
  | .fmax m d a b => wordOf 0x30000006 [m.enc, at_ d.toNat 18, at_ a.toNat 13, at_ b.toNat 8]
  | .fabs m d a => wordOf 0x30000007 [m.enc, at_ d.toNat 18, at_ a.toNat 13]
  | .fneg m d a => wordOf 0x30000008 [m.enc, at_ d.toNat 18, at_ a.toNat 13]
  | .fsgnj m d a b => wordOf 0x30000009 [m.enc, at_ d.toNat 18, at_ a.toNat 13, at_ b.toNat 8]
  | .fclass m d a => wordOf 0x3000000a [m.enc, at_ d.toNat 18, at_ a.toNat 13]
  | .fcmpEq m p a b => wordOf 0x30000010 [m.enc, at_ p.toNat 20, at_ a.toNat 13, at_ b.toNat 8]
  | .fcmpLt m p a b => wordOf 0x30000011 [m.enc, at_ p.toNat 20, at_ a.toNat 13, at_ b.toNat 8]
  | .fcmpLe m p a b => wordOf 0x30000012 [m.enc, at_ p.toNat 20, at_ a.toNat 13, at_ b.toNat 8]
  | .fcmpUn m p a b => wordOf 0x30000013 [m.enc, at_ p.toNat 20, at_ a.toNat 13, at_ b.toNat 8]
  | .fma m d a b c => wordOf 0x34000000 [m.enc, at_ d.toNat 18, at_ a.toNat 13, at_ b.toNat 8, at_ c.toNat 3]
  | .br m p sense disp => wordOf 0x38000000 [m.enc, at_ p.toNat 20, at_ sense.toNat 19, at_ disp.toNat 0]
  | .jmp m i => wordOf 0x3c000000 [m.enc, at_ i.toNat 0]
  | .call m i => wordOf 0x3c400000 [m.enc, at_ i.toNat 0]
  | .jmpr m a => wordOf 0x40000000 [m.enc, at_ a.toNat 13]
  | .callr m a => wordOf 0x40000001 [m.enc, at_ a.toNat 13]
  | .ret m => wordOf 0x40000002 [m.enc]
  | .halt m => wordOf 0x40000003 [m.enc]
  | .loop m lv a fin => wordOf 0x44000000 [m.enc, at_ lv.toNat 22, at_ a.toNat 13, at_ fin.toNat 0]
  | .loopi m lv cnt fin => wordOf 0x44200000 [m.enc, at_ lv.toNat 22, at_ cnt.toNat 10, at_ fin.toNat 0]
  | .rep m a sd sa sb => wordOf 0x48000000 [m.enc, at_ a.toNat 13, at_ sd.toNat 10, at_ sa.toNat 7, at_ sb.toNat 4]
  | .repImm m cnt sd sa sb => wordOf 0x48400000 [m.enc, at_ cnt.toNat 13, at_ sd.toNat 10, at_ sa.toNat 7, at_ sb.toNat 4]
  | .ldB m d a cls off => wordOf 0x4c000000 [m.enc, at_ d.toNat 18, at_ a.toNat 13, at_ cls.toNat 9, at_ off.toNat 0]
  | .ldBu m d a cls off => wordOf 0x4c000040 [m.enc, at_ d.toNat 18, at_ a.toNat 13, at_ cls.toNat 9, at_ off.toNat 0]
  | .ldH m d a cls off => wordOf 0x4c000080 [m.enc, at_ d.toNat 18, at_ a.toNat 13, at_ cls.toNat 9, at_ off.toNat 0]
  | .ldHu m d a cls off => wordOf 0x4c0000c0 [m.enc, at_ d.toNat 18, at_ a.toNat 13, at_ cls.toNat 9, at_ off.toNat 0]
  | .ldW m d a cls off => wordOf 0x4c000100 [m.enc, at_ d.toNat 18, at_ a.toNat 13, at_ cls.toNat 9, at_ off.toNat 0]
  | .ldWu m d a cls off => wordOf 0x4c000140 [m.enc, at_ d.toNat 18, at_ a.toNat 13, at_ cls.toNat 9, at_ off.toNat 0]
  | .ldD m d a cls off => wordOf 0x4c000180 [m.enc, at_ d.toNat 18, at_ a.toNat 13, at_ cls.toNat 9, at_ off.toNat 0]
  | .stB m d a cls off => wordOf 0x50000000 [m.enc, at_ d.toNat 18, at_ a.toNat 13, at_ cls.toNat 9, at_ off.toNat 0]
  | .stH m d a cls off => wordOf 0x50000040 [m.enc, at_ d.toNat 18, at_ a.toNat 13, at_ cls.toNat 9, at_ off.toNat 0]
  | .stW m d a cls off => wordOf 0x50000080 [m.enc, at_ d.toNat 18, at_ a.toNat 13, at_ cls.toNat 9, at_ off.toNat 0]
  | .stD m d a cls off => wordOf 0x500000c0 [m.enc, at_ d.toNat 18, at_ a.toNat 13, at_ cls.toNat 9, at_ off.toNat 0]
  | .ldqB m d a cls off => wordOf 0x54000000 [m.enc, at_ d.toNat 18, at_ a.toNat 13, at_ cls.toNat 9, at_ off.toNat 0]
  | .ldqBu m d a cls off => wordOf 0x54000040 [m.enc, at_ d.toNat 18, at_ a.toNat 13, at_ cls.toNat 9, at_ off.toNat 0]
  | .ldqH m d a cls off => wordOf 0x54000080 [m.enc, at_ d.toNat 18, at_ a.toNat 13, at_ cls.toNat 9, at_ off.toNat 0]
  | .ldqHu m d a cls off => wordOf 0x540000c0 [m.enc, at_ d.toNat 18, at_ a.toNat 13, at_ cls.toNat 9, at_ off.toNat 0]
  | .ldqW m d a cls off => wordOf 0x54000100 [m.enc, at_ d.toNat 18, at_ a.toNat 13, at_ cls.toNat 9, at_ off.toNat 0]
  | .ldqWu m d a cls off => wordOf 0x54000140 [m.enc, at_ d.toNat 18, at_ a.toNat 13, at_ cls.toNat 9, at_ off.toNat 0]
  | .ldqD m d a cls off => wordOf 0x54000180 [m.enc, at_ d.toNat 18, at_ a.toNat 13, at_ cls.toNat 9, at_ off.toNat 0]
  | .ldqAcq m d a scope => wordOf 0x540001c0 [m.enc, at_ d.toNat 18, at_ a.toNat 13, at_ scope.toNat 0]
  | .stRel m d a scope => wordOf 0x540009c0 [m.enc, at_ d.toNat 18, at_ a.toNat 13, at_ scope.toNat 0]
  | .pop m => wordOf 0x540011c0 [m.enc]
  | .amoAdd m d a b scope => wordOf 0x58000000 [m.enc, at_ d.toNat 18, at_ a.toNat 13, at_ b.toNat 8, at_ scope.toNat 0]
  | .amoAnd m d a b scope => wordOf 0x58000020 [m.enc, at_ d.toNat 18, at_ a.toNat 13, at_ b.toNat 8, at_ scope.toNat 0]
  | .amoOr m d a b scope => wordOf 0x58000040 [m.enc, at_ d.toNat 18, at_ a.toNat 13, at_ b.toNat 8, at_ scope.toNat 0]
  | .amoXor m d a b scope => wordOf 0x58000060 [m.enc, at_ d.toNat 18, at_ a.toNat 13, at_ b.toNat 8, at_ scope.toNat 0]
  | .amoMin m d a b scope => wordOf 0x58000080 [m.enc, at_ d.toNat 18, at_ a.toNat 13, at_ b.toNat 8, at_ scope.toNat 0]
  | .amoMax m d a b scope => wordOf 0x580000a0 [m.enc, at_ d.toNat 18, at_ a.toNat 13, at_ b.toNat 8, at_ scope.toNat 0]
  | .amoMinu m d a b scope => wordOf 0x580000c0 [m.enc, at_ d.toNat 18, at_ a.toNat 13, at_ b.toNat 8, at_ scope.toNat 0]
  | .amoMaxu m d a b scope => wordOf 0x580000e0 [m.enc, at_ d.toNat 18, at_ a.toNat 13, at_ b.toNat 8, at_ scope.toNat 0]
  | .cas m d a b scope => wordOf 0x5c000000 [m.enc, at_ d.toNat 18, at_ a.toNat 13, at_ b.toNat 8, at_ scope.toNat 0]
  | .amoSwap m d a b scope => wordOf 0x5c000020 [m.enc, at_ d.toNat 18, at_ a.toNat 13, at_ b.toNat 8, at_ scope.toNat 0]
  | .amoBadd m d a b scope => wordOf 0x5c000040 [m.enc, at_ d.toNat 18, at_ a.toNat 13, at_ b.toNat 8, at_ scope.toNat 0]
  | .fence m cmask scope => wordOf 0x60000000 [m.enc, at_ cmask.toNat 7, at_ scope.toNat 0]
  | .semWait m t k cnt lim => wordOf 0x64000000 [m.enc, at_ t.toNat 18, at_ k.toNat 13, at_ cnt.toNat 4, at_ lim.toNat 0]
  | .semPost m t k cnt => wordOf 0x64200000 [m.enc, at_ t.toNat 18, at_ k.toNat 13, at_ cnt.toNat 4]
  | .semRd m t k d => wordOf 0x64400000 [m.enc, at_ t.toNat 18, at_ k.toNat 13, at_ d.toNat 8]
  | .ringDecl m t g h ns => wordOf 0x68000000 [m.enc, at_ t.toNat 18, at_ g.toNat 13, at_ h.toNat 8, at_ ns.toNat 0]
  | .ringWait m t g cnt lim => wordOf 0x68200000 [m.enc, at_ t.toNat 18, at_ g.toNat 13, at_ cnt.toNat 4, at_ lim.toNat 0]
  | .ringRel m t g cnt => wordOf 0x68400000 [m.enc, at_ t.toNat 18, at_ g.toNat 13, at_ cnt.toNat 4]
  | .ringWp m t g d => wordOf 0x68600000 [m.enc, at_ t.toNat 18, at_ g.toNat 13, at_ d.toNat 8]
  | .barArrive m b => wordOf 0x6c000000 [m.enc, at_ b.toNat 17]
  | .barWait m b lim => wordOf 0x6c200000 [m.enc, at_ b.toNat 17, at_ lim.toNat 0]
  | .barSync m b lim => wordOf 0x6c400000 [m.enc, at_ b.toNat 17, at_ lim.toNat 0]
  | .waitvEq m dw a b lim => wordOf 0x70000000 [m.enc, at_ dw.toNat 19, at_ a.toNat 13, at_ b.toNat 8, at_ lim.toNat 0]
  | .waitvNe m dw a b lim => wordOf 0x70100000 [m.enc, at_ dw.toNat 19, at_ a.toNat 13, at_ b.toNat 8, at_ lim.toNat 0]
  | .waitvLt m dw a b lim => wordOf 0x70200000 [m.enc, at_ dw.toNat 19, at_ a.toNat 13, at_ b.toNat 8, at_ lim.toNat 0]
  | .waitvGe m dw a b lim => wordOf 0x70300000 [m.enc, at_ dw.toNat 19, at_ a.toNat 13, at_ b.toNat 8, at_ lim.toNat 0]
  | .waitvLtu m dw a b lim => wordOf 0x70400000 [m.enc, at_ dw.toNat 19, at_ a.toNat 13, at_ b.toNat 8, at_ lim.toNat 0]
  | .waitvGeu m dw a b lim => wordOf 0x70500000 [m.enc, at_ dw.toNat 19, at_ a.toNat 13, at_ b.toNat 8, at_ lim.toNat 0]
  | .tmask m a => wordOf 0x74000000 [m.enc, at_ a.toNat 0]
  | .epatch m e t f go a => wordOf 0x74080000 [m.enc, at_ e.toNat 17, at_ t.toNat 11, at_ f.toNat 6, at_ go.toNat 5, at_ a.toNat 0]
  | .ebind m e t h slot => wordOf 0x74100000 [m.enc, at_ e.toNat 17, at_ t.toNat 11, at_ h.toNat 6, at_ slot.toNat 0]
  | .eissue m e t => wordOf 0x74180000 [m.enc, at_ e.toNat 17, at_ t.toNat 11]
  | .efence m e all lim => wordOf 0x74200000 [m.enc, at_ e.toNat 17, at_ all.toNat 16, at_ lim.toNat 0]
  | .egen m d => wordOf 0x74280000 [m.enc, at_ d.toNat 6]
  | .estat m e d tile => wordOf 0x74300000 [m.enc, at_ e.toNat 17, at_ d.toNat 6, at_ tile.toNat 0]
  | .tmplLd m e t a => wordOf 0x74380000 [m.enc, at_ e.toNat 17, at_ t.toNat 11, at_ a.toNat 0]
  | .tmplSt m e t a => wordOf 0x74400000 [m.enc, at_ e.toNat 17, at_ t.toNat 11, at_ a.toNat 0]
  | .hLd m h x cls => wordOf 0x78000000 [m.enc, at_ h.toNat 15, at_ x.toNat 10, at_ cls.toNat 6]
  | .hSt m h x cls => wordOf 0x78100000 [m.enc, at_ h.toNat 15, at_ x.toNat 10, at_ cls.toNat 6]
  | .hSet m h x f => wordOf 0x78200000 [m.enc, at_ h.toNat 15, at_ x.toNat 10, at_ f.toNat 6]
  | .hGet m h x f => wordOf 0x78300000 [m.enc, at_ h.toNat 15, at_ x.toNat 10, at_ f.toNat 6]
  | .hAdv m h x f => wordOf 0x78400000 [m.enc, at_ h.toNat 15, at_ x.toNat 10, at_ f.toNat 6]
  | .hMov m h x => wordOf 0x78500000 [m.enc, at_ h.toNat 15, at_ x.toNat 10]
  | .hClr m h => wordOf 0x78600000 [m.enc, at_ h.toNat 15]
  | .xlate m a wr => wordOf 0x7c000000 [m.enc, at_ a.toNat 13, at_ wr.toNat 12]
  | .spawn m a b => wordOf 0x80000000 [m.enc, at_ a.toNat 13, at_ b.toNat 8]
  | .taskDone m => wordOf 0x80000001 [m.enc]
  | .validSet m a => wordOf 0x80000002 [m.enc, at_ a.toNat 13]
  | .trigPost m d a b => wordOf 0x84000000 [m.enc, at_ d.toNat 18, at_ a.toNat 13, at_ b.toNat 8]
  | .trigCancel m d b => wordOf 0x84000001 [m.enc, at_ d.toNat 18, at_ b.toNat 8]
  | .trigQuery m d b => wordOf 0x84000002 [m.enc, at_ d.toNat 18, at_ b.toNat 8]
  | .ctrAdd m a b => wordOf 0x84000003 [m.enc, at_ a.toNat 13, at_ b.toNat 8]
  | .ctrRd m d a => wordOf 0x84000004 [m.enc, at_ d.toNat 18, at_ a.toNat 13]
  | .remSt m d a b => wordOf 0x88000000 [m.enc, at_ d.toNat 18, at_ a.toNat 13, at_ b.toNat 8]
  | .remSig m a b => wordOf 0x88000001 [m.enc, at_ a.toNat 13, at_ b.toNat 8]
  | .remAmoAdd m d a b => wordOf 0x88000010 [m.enc, at_ d.toNat 18, at_ a.toNat 13, at_ b.toNat 8]
  | .remAmoAnd m d a b => wordOf 0x88000011 [m.enc, at_ d.toNat 18, at_ a.toNat 13, at_ b.toNat 8]
  | .remAmoOr m d a b => wordOf 0x88000012 [m.enc, at_ d.toNat 18, at_ a.toNat 13, at_ b.toNat 8]
  | .remAmoXor m d a b => wordOf 0x88000013 [m.enc, at_ d.toNat 18, at_ a.toNat 13, at_ b.toNat 8]
  | .remAmoMin m d a b => wordOf 0x88000014 [m.enc, at_ d.toNat 18, at_ a.toNat 13, at_ b.toNat 8]
  | .remAmoMax m d a b => wordOf 0x88000015 [m.enc, at_ d.toNat 18, at_ a.toNat 13, at_ b.toNat 8]
  | .remAmoMinu m d a b => wordOf 0x88000016 [m.enc, at_ d.toNat 18, at_ a.toNat 13, at_ b.toNat 8]
  | .remAmoMaxu m d a b => wordOf 0x88000017 [m.enc, at_ d.toNat 18, at_ a.toNat 13, at_ b.toNat 8]
  | .remAmoSwap m d a b => wordOf 0x88000018 [m.enc, at_ d.toNat 18, at_ a.toNat 13, at_ b.toNat 8]
  | .remAmoBadd m d a b => wordOf 0x88000019 [m.enc, at_ d.toNat 18, at_ a.toNat 13, at_ b.toNat 8]
  | .rdtick m d => wordOf 0x8c000000 [m.enc, at_ d.toNat 18]
  | .rdframe m d => wordOf 0x8c000001 [m.enc, at_ d.toNat 18]
  | .rdtime m d => wordOf 0x8c000002 [m.enc, at_ d.toNat 18]
  | .enter m n => wordOf 0x90000000 [m.enc, at_ n.toNat 0]
  | .leave m n => wordOf 0x90400000 [m.enc, at_ n.toNat 0]
  | .bfx m d a pos len => wordOf 0x94000000 [m.enc, at_ d.toNat 18, at_ a.toNat 13, at_ pos.toNat 6, at_ len.toNat 0]
  | .bfi m d a pos len => wordOf 0x94001000 [m.enc, at_ d.toNat 18, at_ a.toNat 13, at_ pos.toNat 6, at_ len.toNat 0]
  | .sel m d a b p sense => wordOf 0x98000000 [m.enc, at_ d.toNat 18, at_ a.toNat 13, at_ b.toNat 8, at_ p.toNat 5, at_ sense.toNat 4]
  | .madd m d a b c => wordOf 0x9c000000 [m.enc, at_ d.toNat 18, at_ a.toNat 13, at_ b.toNat 8, at_ c.toNat 3]
  | .cvtIF m d a u rm => wordOf 0xa0000000 [m.enc, at_ d.toNat 18, at_ a.toNat 13, at_ u.toNat 3, at_ rm.toNat 0]
  | .cvtFI m d a u rm => wordOf 0xa0000010 [m.enc, at_ d.toNat 18, at_ a.toNat 13, at_ u.toNat 3, at_ rm.toNat 0]
  | .cvtFBf m d a rm => wordOf 0xa0000020 [m.enc, at_ d.toNat 18, at_ a.toNat 13, at_ rm.toNat 0]
  | .cvtBfF m d a rm => wordOf 0xa0000030 [m.enc, at_ d.toNat 18, at_ a.toNat 13, at_ rm.toNat 0]
  | .hint m hh v => wordOf 0xb0000000 [m.enc, at_ hh.toNat 26, at_ v.toNat 0]
  | .pwL t go f v => wordOf 0xc0000000 [at_ t.toNat 22, at_ go.toNat 21, at_ f.toNat 16, at_ v.toNat 0]
  | .pwM t go f v => wordOf 0xd0000000 [at_ t.toNat 22, at_ go.toNat 21, at_ f.toNat 16, at_ v.toNat 0]
  | .pwV t go f v => wordOf 0xe0000000 [at_ t.toNat 22, at_ go.toNat 21, at_ f.toNat 16, at_ v.toNat 0]
  | .pwS t go f v => wordOf 0xf0000000 [at_ t.toNat 22, at_ go.toNat 21, at_ f.toNat 16, at_ v.toNat 0]
  | _ => 0

/-- The 32-bit word of an instruction (R71). -/
def encode (i : Instr) : BitVec 32 := BitVec.ofNat 32 (encodeNat i)

end Sys2Proof
end

