-- ==== Sys2Proof/Machine/Fetch.lean ====
section
/-! DEFINITION. Fetching a word from the text of the running kernel (09 R292, R295; 08 R251). -/

namespace Sys2Proof.Machine

/-- The word of a gang's text at a program counter; none outside the text (R295). -/
def Gang.word (g : Gang) (pc : W) : Option (BitVec 32) :=
  let off := (pc - g.text).toNat
  if off % 4 = 0 then g.image.text[off / 4]? else none

/-- The word that strands of cluster c fetch at pc. -/
def fetch (s : State) (c : Cl) (pc : W) : Option (BitVec 32) := (s.gangOf c).bind (·.word pc)

/-- The fetch fault (R295): the pc in xtval; xepc holds the strand's pc, under a repetition the rep word's (R123). -/
def trapFetch (s : State) (pc : W) : State := trap s 0x0e 1 pc

end Sys2Proof.Machine
end

