-- ==== Sys2Proof/Machine/Flow.lean ====
section
/-! DEFINITION. Branches, jumps, calls, halt, loops, the repeat prefix and stack frames (04 R112 to R124). -/

namespace Sys2Proof.Machine

/-- A word that trap entry, a loop or a mask write overtakes: older writes under way to the registers in ns are dropped,
so that a younger write keeps its place (R65). -/
def Strand.dropCtl (t : Strand) (ns : List Nat) : Strand :=
  { t with ctl := t.ctl.filter fun w => !ns.contains w.num.toNat }

def execBr (m : Marks) (p : Preg) (sense : Bool) (i : BitVec 19) (s : State) : Host.Outcome State Fault Refusal :=
  issueWord [] (fun s => if rdp s p 1 != sense then retireTo m (s.me.pc + disp i) s else retire m s) s

def execJmp (m : Marks) (i : BitVec 22) (s : State) : Host.Outcome State Fault Refusal :=
  issueWord [] (fun s => retireTo m (s.me.pc + disp i) s) s

/-- call: ra is s1, bound 1 (R113, R63). -/
def execCall (m : Marks) (i : BitVec 22) (s : State) : Host.Outcome State Fault Refusal :=
  issueWord [] (fun s => retireTo m (s.me.pc + disp i) (wr 1 (s.me.pc + 4) 1 s)) s

def execJmpr (m : Marks) (a : Sreg) (s : State) : Host.Outcome State Fault Refusal :=
  issueWord [a.toNat] (fun s => retireTo m (rd s a 1 &&& ~~~3) s) s

/-- callr: the target is read before ra is written (R113). -/
def execCallr (m : Marks) (a : Sreg) (s : State) : Host.Outcome State Fault Refusal :=
  issueWord [a.toNat] (fun s => retireTo m (rd s a 1 &&& ~~~3) (wr 1 (s.me.pc + 4) 1 s)) s

def execRet (m : Marks) (s : State) : Host.Outcome State Fault Refusal :=
  issueWord [] (fun s => retireTo m (rd s 1 1 &&& ~~~3) s) s

/-- halt (R114). -/
def execHalt (m : Marks) (s : State) : Host.Outcome State Fault Refusal :=
  issueWord [] (fun s => (issue m s).halt s.cur.c s.cur.k) s

/-! Loops (R115, R116). -/

def Strand.setLoop (t : Strand) (lv : Bool) (l : LoopLevel) : Strand :=
  if lv then { t with loop1 := l }.dropCtl [0x1b, 0x1c, 0x1d] else { t with loop0 := l }.dropCtl [0x18, 0x19, 0x1a]

/-- A loop word arms its level for n passes over the body of e words; n = 0 skips the body and is a transfer (R116). -/
def loopWord (m : Marks) (lv : Bool) (n : W) (e : Nat) (s : State) : State :=
  let pc := s.me.pc
  let last := pc + BitVec.ofNat 64 (4 * e)
  if n = 0 then retireTo m (last + 4) s else retire m (s.modMe (·.setLoop lv ⟨n, pc + 4, last⟩))

def execLoop (m : Marks) (lv : Bool) (a : Sreg) (fin : BitVec 13) (s : State) : Host.Outcome State Fault Refusal :=
  issueWord [a.toNat] (fun s => loopWord m lv (rd s a 1) fin.toNat s) s

def execLoopi (m : Marks) (lv : Bool) (cnt : BitVec 11) (fin : BitVec 10) (s : State) :
    Host.Outcome State Fault Refusal :=
  issueWord [] (fun s => loopWord m lv (uimm cnt) fin.toNat s) s

/-! The repeat prefix (R119 to R121). -/

/-- Words that may not be repeated (R120). -/
def noRepeat : Instr → Bool
  | .br .. => true
  | .jmp .. => true
  | .call .. => true
  | .jmpr .. => true
  | .callr .. => true
  | .ret .. => true
  | .halt .. => true
  | .loop .. => true
  | .loopi .. => true
  | .rep .. => true
  | .repImm .. => true
  | .enter .. => true
  | .leave .. => true
  | .svc .. => true
  | .brk .. => true
  | .eret .. => true
  | _ => false

/-- The repeated word may stand under rep (R120): illegal words among the majors named there may not either, so the
major decides for a word of majors 0x0E to 0x12 and 0x24. -/
def repeatable (w : BitVec 32) : Bool :=
  let mj := w.toNat / 2 ^ 26
  !(decide (0x0e ≤ mj) && decide (mj ≤ 0x12)) && mj != 0x24 &&
    match decode w with
    | .ok i => !noRepeat i
    | .error _ => true

/-- A strand after a rep word (R118, R121): the rep word is checked at its own address, and a return to a body start
abandons the repetition; a count of 0 skips the repeated word, which is checked, and writes no xrep; else the repetition is
under way. Earlier writes of xrep still under way are overtaken where xrep is written. -/
def Strand.startRep (t : Strand) (n : BitVec 32) : Strand :=
  let t1 := (loopCheck t t.pc).1
  match (loopCheck t t.pc).2 with
  | some back => { t1.dropCtl [0x08] with pc := alignPc back, xrep := 0 }
  | none =>
    if n = 0 then endCheck t1 (t1.pc + 4) (t1.pc + 8)
    else { t1.dropCtl [0x08] with xrep := n.setWidth 64, inRep := true }

def repWord (m : Marks) (n : State → BitVec 32) (s : State) : State :=
  match fetch s s.cur.c (s.me.pc + 4) with
  | some w =>
    if repeatable w then (issue m s).modMe (·.startRep (n s)) else trap s 0x01 0 (w.setWidth 64)
  | none => (issue m s).modMe (·.startRep (n s))

/-- The word behind a rep word may not be repeated (R120). -/
def repeatsIllegal (s : State) : Bool := (fetch s s.cur.c (s.me.pc + 4)).elim false (!repeatable ·)

/-- rep with its count in a: bits 63:32 are ignored (R121). The illegal repeated word comes before the allotment (R79). -/
def execRep (m : Marks) (a : Sreg) (_sd _sa _sb : BitVec 3) (s : State) : Host.Outcome State Fault Refusal :=
  issueWord (if repeatsIllegal s then [] else [a.toNat]) (repWord m fun s => (rd s a 1).setWidth 32) s

def execRepImm (m : Marks) (cnt : BitVec 9) (_sd _sa _sb : BitVec 3) (s : State) : Host.Outcome State Fault Refusal :=
  issueWord [] (repWord m fun _ => cnt.setWidth 32) s

/-! Stack frames (R124). -/

/-- enter: an exact result below xstklim, below zero included, is the stack-limit fault. -/
def execEnter (m : Marks) (n : BitVec 18) (s : State) : Host.Outcome State Fault Refusal :=
  issueWord [] (fun s =>
    let new : Int := ((rd s 2 1).toNat : Int) - 16 * n.toNat
    if new < s.me.xstklim.toNat then trap s 0x03 0 (BitVec.ofInt 64 new)
    else writeBack m 2 (BitVec.ofInt 64 new) 1 s) s

def execLeave (m : Marks) (n : BitVec 18) (s : State) : Host.Outcome State Fault Refusal :=
  issueWord [] (fun s => writeBack m 2 (rd s 2 1 + BitVec.ofNat 64 (16 * n.toNat)) 1 s) s

end Sys2Proof.Machine
end

