-- ==== Sys2Proof/Machine/LoadStore.lean ====
section
/-! DEFINITION. Near loads, stores, far loads, pop, ordered far words, atomics and fence (05 R129 to R140). -/

namespace Sys2Proof.Machine

/-- A plain access of a class. -/
def plainPend (kind : AccKind) (cls : Nat) (t : Tgt) : Pend := ⟨kind, cls, t, none, none, false, 0⟩

/-- A near read (R130): what must come before has performed, or the word holds; the bytes come from the scratchpad, or
through the data cache. -/
def nearRead (s : State) (x : W) (n cls : Nat) (k : State → List Byte → Nat → State) : State :=
  match target s s.cur.c x n with
  | .error r => trapAddress s r x
  | .ok (sp, o) =>
    if sp ≠ 0 ∧ sp ≠ 3 then trapAddress s 4 x
    else
      let t := tgtOf s s.cur.c sp o
      if let some l := t.poison s n then machineCheck s s.cur.c s.cur.k (unitAt (64 * l)) x else
      match performBefore s (before s (plainPend (.load 0 n false) cls t)) with
      | none => hold s
      | some s1 =>
        let r := loadAt s1 s.cur.c s.cur.k cls t n false
        match r.2 with
        | .data bs => k r.1 bs (if sp = 0 then 12 else 48)
        | _ => r.1

def load (n : Nat) (signed : Bool) (m : Marks) (d a : Sreg) (cls : BitVec 4) (off : BitVec 6) (s : State) :
    Host.Outcome State Fault Refusal :=
  issueWord [d.toNat, a.toNat] (fun s =>
    nearRead s (memAddr (rd s a 1) off n) n cls.toNat fun s1 bs bound => writeBack m d (extend signed bs) bound s1) s

def execLdB (m : Marks) (d a : Sreg) (cls : BitVec 4) (off : BitVec 6) (s : State) := load 1 true m d a cls off s
def execLdBu (m : Marks) (d a : Sreg) (cls : BitVec 4) (off : BitVec 6) (s : State) := load 1 false m d a cls off s
def execLdH (m : Marks) (d a : Sreg) (cls : BitVec 4) (off : BitVec 6) (s : State) := load 2 true m d a cls off s
def execLdHu (m : Marks) (d a : Sreg) (cls : BitVec 4) (off : BitVec 6) (s : State) := load 2 false m d a cls off s
def execLdW (m : Marks) (d a : Sreg) (cls : BitVec 4) (off : BitVec 6) (s : State) := load 4 true m d a cls off s
def execLdWu (m : Marks) (d a : Sreg) (cls : BitVec 4) (off : BitVec 6) (s : State) := load 4 false m d a cls off s
def execLdD (m : Marks) (d a : Sreg) (cls : BitVec 4) (off : BitVec 6) (s : State) := load 8 false m d a cls off s

/-! Stores (R131). -/

/-- Entries of the store buffer in use: one for each posted line. -/
def Strand.storesBuffered (t : Strand) : Nat := t.pend.countP fun p => match p.kind with
  | .store _ => true
  | _ => false

/-- An access joins the strand's accesses under way. -/
def post (p : Pend) (s : State) : State := s.modMe fun t => { t with pend := t.pend ++ [{ p with pc := t.pc }] }

/-- The target of a store, translated now (R131): an address fault, a firmware-level hold, or the target. -/
def storeTarget (s : State) (x : W) (n : Nat) (k : State → Tgt → State) : State :=
  match target s s.cur.c x n with
  | .error r => trapAddress s r x
  | .ok (sp, o) =>
    match resolve s s.cur.c (tgtOf s s.cur.c sp o) false true with
    | (s1, .ok t) => k s1 t
    | (_, .error code) => holdTranslation s code true x

/-- A store word (R131): it holds while the buffer has no room, else posts. -/
def postStore (s : State) (x : W) (bs : List Byte) (cls : Nat) (rel : Option ScopeSet) (m : Marks) : State :=
  storeTarget s x bs.length fun s1 t =>
    if 16 ≤ s.me.storesBuffered then hold s
    else retire m (post ⟨.store bs, cls, t, none, rel, rel.isSome, 0⟩ s1)

def store (n : Nat) (m : Marks) (d a : Sreg) (cls : BitVec 4) (off : BitVec 6) (s : State) :
    Host.Outcome State Fault Refusal :=
  issueWord [d.toNat, a.toNat] (fun s =>
    postStore s (memAddr (rd s a 1) off n) (bytesOf n (rd s d 0).toNat) cls.toNat none m) s

def execStB (m : Marks) (d a : Sreg) (cls : BitVec 4) (off : BitVec 6) (s : State) := store 1 m d a cls off s
def execStH (m : Marks) (d a : Sreg) (cls : BitVec 4) (off : BitVec 6) (s : State) := store 2 m d a cls off s
def execStW (m : Marks) (d a : Sreg) (cls : BitVec 4) (off : BitVec 6) (s : State) := store 4 m d a cls off s
def execStD (m : Marks) (d a : Sreg) (cls : BitVec 4) (off : BitVec 6) (s : State) := store 8 m d a cls off s

/-! The far-load queue (R53, R133). -/

/-- The next entry is claimed for destination d. -/
def claim (d : Sreg) (s : State) : State := s.modMe fun t => { t with flq := t.flq ++ [⟨d, .waiting⟩] }

/-- The index the next entry takes. -/
def Strand.nextSlot (t : Strand) : BitVec 3 := t.flqHead + BitVec.ofNat 3 t.flq.length

/-- A word whose result goes to the queue (R53): it holds while eight entries are claimed, else claims one and posts its
access. -/
def queueWord (s : State) (d : Sreg) (p : BitVec 3 → Pend) (m : Marks) : State :=
  if 8 ≤ s.me.flq.length then hold s
  else retire m (claim d (post (p s.me.nextSlot) s))

/-- The target of a far access: address faults are precise, translation is the access's (R133, R54). -/
def farTarget (s : State) (x : W) (n : Nat) (k : Tgt → State) : State :=
  match target s s.cur.c x n with
  | .error r => trapAddress s r x
  | .ok (sp, o) => k (tgtOf s s.cur.c sp o)

def farLoad (n : Nat) (signed : Bool) (m : Marks) (d a : Sreg) (cls : BitVec 4) (off : BitVec 6) (s : State) :
    Host.Outcome State Fault Refusal :=
  issueWord [d.toNat, a.toNat] (fun s =>
    farTarget s (memAddr (rd s a 1) off n) n fun t =>
      queueWord s d (fun i => plainPend (.load i n signed) cls.toNat t) m) s

def execLdqB (m : Marks) (d a : Sreg) (cls : BitVec 4) (off : BitVec 6) (s : State) := farLoad 1 true m d a cls off s
def execLdqBu (m : Marks) (d a : Sreg) (cls : BitVec 4) (off : BitVec 6) (s : State) := farLoad 1 false m d a cls off s
def execLdqH (m : Marks) (d a : Sreg) (cls : BitVec 4) (off : BitVec 6) (s : State) := farLoad 2 true m d a cls off s
def execLdqHu (m : Marks) (d a : Sreg) (cls : BitVec 4) (off : BitVec 6) (s : State) := farLoad 2 false m d a cls off s
def execLdqW (m : Marks) (d a : Sreg) (cls : BitVec 4) (off : BitVec 6) (s : State) := farLoad 4 true m d a cls off s
def execLdqWu (m : Marks) (d a : Sreg) (cls : BitVec 4) (off : BitVec 6) (s : State) := farLoad 4 false m d a cls off s
def execLdqD (m : Marks) (d a : Sreg) (cls : BitVec 4) (off : BitVec 6) (s : State) := farLoad 8 false m d a cls off s

/-- ldq.acq (R136): class 0, ordered after every earlier access to its bytes, before every later access. -/
def execLdqAcq (m : Marks) (d a : Sreg) (scope : BitVec 5) (s : State) : Host.Outcome State Fault Refusal :=
  issueWord [d.toNat, a.toNat] (fun s =>
    farTarget s (rd s a 1) 8 fun t =>
      queueWord s d (fun i => ⟨.load i 8 false, 0, t, some (scopeSet s s.cur.c scope), none, true, 0⟩) m) s

/-- st.rel (R136): class 0, after every earlier access of the strand. -/
def execStRel (m : Marks) (d a : Sreg) (scope : BitVec 5) (s : State) : Host.Outcome State Fault Refusal :=
  issueWord [d.toNat, a.toNat] (fun s =>
    postStore s (rd s a 1) (bytesOf 8 (rd s d 0).toNat) 0 (some (scopeSet s s.cur.c scope)) m) s

/-- The oldest entry is freed (R53). -/
def Strand.popEntry (t : Strand) : Strand := { t with flq := t.flq.tail, flqHead := t.flqHead + 1 }

/-- xepc of a refused pop or tmpl.ld (R128, R135): the next word, or the rep word under a repetition (R123). -/
def Strand.pastPc (t : Strand) : W := if t.inRep then t.pc else t.pc + 4

/-- pop (R134, R135). A refused one takes its trap as a word that has not issued: its marks have no effect (R72, R291; DESIGN CHOICE, log
69). -/
def execPop (m : Marks) (s : State) : Host.Outcome State Fault Refusal :=
  issueWord [] (fun s =>
    match s.me.flq with
    | [] => trap s 0x06 0 0
    | e :: _ =>
      match e.res with
      | .waiting => hold s
      | .value v => writeBack m e.d v 1 (s.modMe (·.popEntry))
      | .poisoned l addr => machineCheck s s.cur.c s.cur.k (unitAt l) addr
      | .refused detail addr =>
        takeTrap (s.modMe (·.popEntry)) s.cur.c s.cur.k true 0x08 false detail addr s.me.pastPc) s

/-! Atomics (R137 to R139). -/

def atomic (op : AmoOp) (fields : List Nat) (z : State → W) (m : Marks) (d a b : Sreg) (s : State) :
    Host.Outcome State Fault Refusal :=
  issueWord fields (fun s =>
    farTarget s (rd s a 1) 8 fun t =>
      queueWord s d (fun i => plainPend (.amo i op (rd s b 2) (z s)) 0 t) m) s

/-- An atomic of one operand. -/
def amo (op : AmoOp) (m : Marks) (d a b : Sreg) (s : State) : Host.Outcome State Fault Refusal :=
  atomic op [d.toNat, a.toNat, b.toNat] (fun _ => 0) m d a b s

/-- An atomic of the register pair b, b + 1 (R76). -/
def amoPair (op : AmoOp) (m : Marks) (d a b : Sreg) (s : State) : Host.Outcome State Fault Refusal :=
  atomic op [d.toNat, a.toNat, b.toNat, b.toNat + 1] (fun s => rd s (b + 1) 3) m d a b s

def execAmoAdd (m : Marks) (d a b : Sreg) (_scope : BitVec 5) (s : State) := amo 0 m d a b s
def execAmoAnd (m : Marks) (d a b : Sreg) (_scope : BitVec 5) (s : State) := amo 1 m d a b s
def execAmoOr (m : Marks) (d a b : Sreg) (_scope : BitVec 5) (s : State) := amo 2 m d a b s
def execAmoXor (m : Marks) (d a b : Sreg) (_scope : BitVec 5) (s : State) := amo 3 m d a b s
def execAmoMin (m : Marks) (d a b : Sreg) (_scope : BitVec 5) (s : State) := amo 4 m d a b s
def execAmoMax (m : Marks) (d a b : Sreg) (_scope : BitVec 5) (s : State) := amo 5 m d a b s
def execAmoMinu (m : Marks) (d a b : Sreg) (_scope : BitVec 5) (s : State) := amo 6 m d a b s
def execAmoMaxu (m : Marks) (d a b : Sreg) (_scope : BitVec 5) (s : State) := amo 7 m d a b s
def execAmoSwap (m : Marks) (d a b : Sreg) (_scope : BitVec 5) (s : State) := amo 8 m d a b s
def execAmoBadd (m : Marks) (d a b : Sreg) (_scope : BitVec 5) (s : State) := amoPair 9 m d a b s
def execCas (m : Marks) (d a b : Sreg) (_scope : BitVec 5) (s : State) := amoPair 10 m d a b s

/-- fence (R140): a release and an acquire at one point for the classes of cmask; an empty mask does nothing. -/
def execFence (m : Marks) (cmask : BitVec 16) (scope : BitVec 5) (s : State) : Host.Outcome State Fault Refusal :=
  issueWord [] (fun s =>
    let e := scopeSet s s.cur.c scope
    retire m (if cmask = 0 then s else post ⟨.fence cmask, 0, .loc 0 0, some e, some e, false, 0⟩ s)) s

end Sys2Proof.Machine
end

