-- ==== Sys2Proof/Machine/Sync.lean ====
section
/-! DEFINITION. Waits, semaphores, rings, gang barriers and memory-word waits (05 R141 to R153, 09 R284 to R288). -/

namespace Sys2Proof.Machine

/-! Waits (R141). -/

/-- A wait issues and holds the strand; the strand's pc stays at the word until the grant. -/
def startWait (m : Marks) (obj : WaitObj) (lim : BitVec 4) (s : State) : State :=
  (issue m s).modMe fun t => { t with wait := some ⟨obj, s.cycle, s.cycle + 2 ^ (lim.toNat + 8)⟩ }

/-- A granted wait: an acquire at its scope (R142); the strand is eligible in the next core cycle. -/
def grantWait (c : Cl) (k : Sn) (e : ScopeSet) (s : State) : State :=
  (acquireAt c e s).modStrand c k fun t =>
    { ({ t with wait := none } : Strand).advance none with gapUntil := max t.gapUntil (s.cycle + 1) }

/-- Scope 0 of a cluster. -/
def scope0 (s : State) (c : Cl) : ScopeSet := scopeSet s c 0

/-- A wait word granted at issue. -/
def waitDone (m : Marks) (e : ScopeSet) (s : State) : State := retire m (acquireAt s.cur.c e s)

/-- A posting word (R142): it holds until every earlier access of the strand has performed, then has its effect. -/
def posting (s : State) (e : BitVec 5) (k : State → State) : State :=
  match performBefore s (fun _ => true) with
  | none => hold s
  | some s1 => k (releaseAt s1.cur.c (scopeSet s1 s1.cur.c e) s1)

/-! Semaphores (R144 to R146). -/

/-- A word that names an object of a tile: a tile that the configuration record disables is object fault 1 (R143). -/
def onTile (kind : Nat) (t : BitVec 3) (num : Nat) (s : State) (k : Tl → State) : State :=
  let tl : Tl := t.toFin
  if s.tileOk s.cur.c tl then k tl else trapObject s 1 (objId kind t.toNat num)

def Tile.sem (y : Tile) (k : BitVec 5) : BitVec 16 := y.sems.get k.toFin
def Tile.setSem (y : Tile) (k : BitVec 5) (v : BitVec 16) : Tile :=
  { y with sems := y.sems.set k.toNat v (by have := k.isLt; omega) }

def execSemWait (m : Marks) (t : BitVec 3) (k : BitVec 5) (cnt : BitVec 9) (lim : BitVec 4) (s : State) :
    Host.Outcome State Fault Refusal :=
  issueWord [] (fun s => onTile 1 t k.toNat s fun tl =>
    if cnt = 0 then waitDone m (scope0 s s.cur.c) s
    else startWait m (.sem tl k cnt.toNat) lim
      (s.modTile s.cur.c tl fun y => { y with semNew := y.semNew ++ [⟨k.toNat, .strand s.cur.k, cnt.toNat⟩] })) s

def execSemPost (m : Marks) (t : BitVec 3) (k : BitVec 5) (cnt : BitVec 9) (s : State) :
    Host.Outcome State Fault Refusal :=
  issueWord [] (fun s => onTile 1 t k.toNat s fun tl =>
    let v := ((s.tile s.cur.c tl).sem k).toNat + cnt.toNat
    if 65535 < v then trapObject s 5 (objId 1 t.toNat k.toNat)
    else posting s 0 fun s1 => retire m (s1.modTile s1.cur.c tl (·.setSem k (BitVec.ofNat 16 v)))) s

def execSemRd (m : Marks) (t : BitVec 3) (k : BitVec 5) (d : Sreg) (s : State) : Host.Outcome State Fault Refusal :=
  issueWord [d.toNat] (fun s => onTile 1 t k.toNat s fun tl =>
    writeBack m d (((s.tile s.cur.c tl).sem k).setWidth 64) 12 s) s

/-! Rings (R147 to R150). -/

def Tile.ring (y : Tile) (g : BitVec 5) : Ring := y.rings.get g.toFin
def Tile.setRing (y : Tile) (g : BitVec 5) (v : Ring) : Tile :=
  { y with rings := y.rings.set g.toNat v (by have := g.isLt; omega) }

/-- Slots filled and not freed. -/
def Ring.used (r : Ring) : Nat := (r.fill - r.free).toNat

/-- inspace of R250 in the engine-window form, tile_ok taken as true: the region of n bytes at o of space sp. -/
def inspaceEng (s : State) (c : Cl) (sp o n : Nat) : Bool :=
  match sp with
  | 0 => o / 2 ^ 20 == 0 && decide (o % 2 ^ 20 + n ≤ 0xc0000)
  | 1 => o / 2 ^ 29 == 0 && decide (bits o 23 6 < s.gangSize c) && decide (o % 2 ^ 20 + n ≤ 0xc0000)
  | 2 => o / 2 ^ 18 == 0 && decide (o % 2 ^ 18 + n ≤ 0x40000)
  | 3 => o / 2 ^ 24 == 0 && decide (o % 2 ^ 24 + n ≤ 0x1000000)
  | 4 => o / 2 ^ 30 == 0 && s.clusterOk (s.ctxOf c) (bits o 24 6) && decide (o % 2 ^ 24 + n ≤ 0x1000000)
  | 5 => o / 2 ^ 55 == 0
  | _ => true

/-- A field of a block's wait or post object (R171). -/
def objKind (f : W) : Nat := bits f.toNat 33 3
def objNum (f : W) : Nat := bits f.toNat 16 13
def objCount (f : W) : Nat := bits f.toNat 0 16
/-- The tile it names, for a block on tile t. -/
def objTile (f : W) (t : Tl) : Tl := if bits f.toNat 32 1 = 1 then t else Fin.ofNat 8 (bits f.toNat 29 3)

/-- A block field that names ring g of tile t, in a block of tile t. -/
def namesRing (t : Tl) (g : BitVec 5) (f : W) : Bool :=
  (objKind f == 2 || objKind f == 3) && objNum f == g.toNat && objTile f t == t

/-- The field of a handle by its code (R79). -/
def Handle.field (h : Handle) (code : Nat) : W :=
  match code with
  | 0 => h.addr.setWidth 64
  | 1 => h.space.setWidth 64
  | 2 => h.type.setWidth 64
  | 3 => h.ext0.setWidth 64
  | 4 => h.str0.signExtend 64
  | 5 => h.ext1.setWidth 64
  | 6 => h.str1.signExtend 64
  | 7 => h.ext2.setWidth 64
  | 8 => h.str2.signExtend 64
  | 9 => h.ext3.setWidth 64
  | _ => h.str3.signExtend 64

def Handle.setField (h : Handle) (code : Nat) (v : W) : Handle :=
  match code with
  | 0 => { h with addr := v.setWidth 57 }
  | 1 => { h with space := v.setWidth 3 }
  | 2 => { h with type := v.setWidth 4 }
  | 3 => { h with ext0 := v.setWidth 16 }
  | 4 => { h with str0 := v.setWidth 32 }
  | 5 => { h with ext1 := v.setWidth 16 }
  | 6 => { h with str1 := v.setWidth 32 }
  | 7 => { h with ext2 := v.setWidth 16 }
  | 8 => { h with str2 := v.setWidth 32 }
  | 9 => { h with ext3 := v.setWidth 16 }
  | _ => { h with str3 := v.setWidth 32 }

/-- A handle of a cluster as a word reads it (R52): every field that a write in flight names is a free value. -/
def State.handleOf (s : State) (c : Cl) (h : BitVec 5) : Handle :=
  let co := s.core c
  (List.range 11).foldl (fun a i =>
    if co.hflights.any (fun x => x.h == h && x.mask.getLsbD i && decide (s.cycle < x.due)) then
      a.setField i (Config.freeWord s.fresh (16 + i))
    else a) (co.handles.get h.toFin)

def readHandle (s : State) (h : BitVec 5) : Handle := s.handleOf s.cur.c h

/-- What a ring.decl declares by its handle and its count of slots (R149); none where the handle allows no ring. -/
def ringOf (s : State) (c : Cl) (hd : Handle) (ns : BitVec 8) : Option Ring :=
  let z := 64 * hd.ext0.toNat
  if hd.ext0 = 0 ∨ 5 ≤ hd.space.toNat ∨ inspaceEng s c hd.space.toNat hd.addr.toNat (ns.toNat * z) = false then none
  else some ⟨true, hd.space, hd.addr.setWidth 64, z, ns.toNat, 0, 0, 0⟩

/-- A word on a declared ring (R150). -/
def onRing (t : BitVec 3) (g : BitVec 5) (s : State) (k : Tl → Ring → State) : State :=
  onTile 2 t g.toNat s fun tl =>
    let r := (s.tile s.cur.c tl).ring g
    if r.declared then k tl r else trapObject s 2 (objId 2 t.toNat g.toNat)

def execRingWait (m : Marks) (t : BitVec 3) (g : BitVec 5) (cnt : BitVec 9) (lim : BitVec 4) (s : State) :
    Host.Outcome State Fault Refusal :=
  issueWord [] (fun s => onRing t g s fun tl r =>
    if r.ns < cnt.toNat then trapObject s 3 (objId 2 t.toNat g.toNat)
    else if cnt = 0 then waitDone m (scope0 s s.cur.c) s
    else startWait m (.ring tl g cnt.toNat) lim s) s

def execRingRel (m : Marks) (t : BitVec 3) (g : BitVec 5) (cnt : BitVec 9) (s : State) :
    Host.Outcome State Fault Refusal :=
  issueWord [] (fun s => onRing t g s fun tl r =>
    if r.used < cnt.toNat then trapObject s 4 (objId 2 t.toNat g.toNat)
    else posting s 0 fun s1 =>
      retire m (s1.modTile s1.cur.c tl (·.setRing g { r with free := r.free + BitVec.ofNat 32 cnt.toNat }))) s

def execRingWp (m : Marks) (t : BitVec 3) (g : BitVec 5) (d : Sreg) (s : State) : Host.Outcome State Fault Refusal :=
  issueWord [d.toNat] (fun s => onRing t g s fun _ r =>
    writeBack m d (BitVec.ofNat 64 (r.fill.toNat * 2 ^ 32 + r.wb)) 12 s) s

/-! Gang barriers (R151, R152, R288). -/

def Gang.bar (g : Gang) (b : BitVec 4) : Barrier := g.bars.get b.toFin
def Gang.setBar (g : Gang) (b : BitVec 4) (v : Barrier) : Gang :=
  { g with bars := g.bars.set b.toNat v (by have := b.isLt; omega) }

/-- The strand that issues has arrived in the pending phase. -/
def hasArrived (s : State) (b : Barrier) : Bool := b.arrived.contains (s.cur.c, s.cur.k)

/-- An arrival, and the phase's completion with it. -/
def arriveBar (g : Gang) (b : BitVec 4) (s : State) : State :=
  let x : Barrier := ⟨(g.bar b).phase, (g.bar b).arrived ++ [(s.cur.c, s.cur.k)]⟩
  s.modGang g.id fun y => y.setBar b (if g.keepsOpen b.toNat then x else settleBarrier s g x)

/-- A barrier word acts on its gang's barrier; a strand outside a gang has none, and the word only goes on. -/
def onGang (m : Marks) (s : State) (k : Gang → State) : State :=
  match s.gangOf s.cur.c with
  | some g => k g
  | none => retire m s

def execBarArrive (m : Marks) (b : BitVec 4) (s : State) : Host.Outcome State Fault Refusal :=
  issueWord [] (fun s => onGang m s fun g =>
    if hasArrived s (g.bar b) then trapObject s 6 (objId 3 0 b.toNat)
    else posting s 1 fun s1 => retire m (arriveBar g b s1)) s

/-- bar.wait from the barrier as it stands (R152). -/
def barWait (m : Marks) (b : BitVec 4) (lim : BitVec 4) (s : State) : State :=
  match s.gangOf s.cur.c with
  | some g =>
    if hasArrived s (g.bar b) then startWait m (.bar b (g.bar b).phase) lim s
    else waitDone m (scopeSet s s.cur.c 1) s
  | none => retire m s

def execBarWait (m : Marks) (b : BitVec 4) (lim : BitVec 4) (s : State) : Host.Outcome State Fault Refusal :=
  issueWord [] (barWait m b lim) s

def execBarSync (m : Marks) (b : BitVec 4) (lim : BitVec 4) (s : State) : Host.Outcome State Fault Refusal :=
  issueWord [] (fun s => onGang m s fun g =>
    posting s 1 fun s1 => barWait m b lim (if hasArrived s (g.bar b) then s1 else arriveBar g b s1)) s

/-! waitv (R153). -/

def waitvBytes (dw : Bool) : Nat := if dw then 8 else 4

/-- The value compared: sign-extended for lt and ge, else zero-extended. -/
def waitvExt (cond : Nat) (dw : Bool) (v : Nat) : W :=
  if cond = 2 ∨ cond = 3 then BitVec.ofInt 64 (sx v (8 * waitvBytes dw)) else BitVec.ofNat 64 (zx v (8 * waitvBytes dw))

/-- What a read of a waitv came to: its value, a refusal, poison in a unit, a translation that fails, or no answer yet. -/
inductive WaitRead where
  | value (v : Nat)
  | refused
  | poisoned (unit : Nat)
  | faulted (code : BitVec 8)
  | none
  deriving DecidableEq, Repr

/-- One read of a waiting strand, once what must come before has performed. Each read translates anew, so that none goes by a
translation that a tlbi has dropped (R344, log 69). A refusal after the first of an issue is not counted again. -/
def waitvRead (s0 : State) (c : Cl) (k : Sn) (t0 : Tgt) (dw counted : Bool) : State × WaitRead :=
  let n := waitvBytes dw
  match resolve s0 c t0 true false with
  | (_, .error code) => (s0, .faulted code)
  | (s, .ok t) =>
    match t.poison s n with
    | some l => (s, .poisoned (unitAt (64 * l)))
    | .none =>
      let q : Pend := ⟨.load 0 n false, 0, t, .none, .none, true, 0⟩
      let ps := (s.strand c k).pend
      match performMarked c k (ps.zip (neededFor s c (fun p => ordered s c p q) ps)) s with
      | .none => (s, .none)
      | some s1 =>
        let s2 := { s1 with fresh := s1.fresh + 1 }
        let r := loadAt s2 c k 0 t n true
        match r.2 with
        | .data bs => (r.1, .value (ofBytes bs))
        | .refused _ => (if counted then { r.1 with ctxs := s2.ctxs } else r.1, .refused)
        | .poisoned _ => (r.1, .poisoned 4)
        | _ => (r.1, .none)

def waitvWord (cond : Nat) (m : Marks) (dw : Bool) (a b : Sreg) (lim : BitVec 4) (s : State) :
    Host.Outcome State Fault Refusal :=
  issueWord [a.toNat, b.toNat] (fun s =>
    let x := rd s a 1
    let y := waitvExt cond dw (rd s b 2).toNat
    match target s s.cur.c x (waitvBytes dw) with
    | .error r => trapAddress s r x
    | .ok (sp, o) =>
      let t := tgtOf s s.cur.c sp o
      let r := waitvRead s s.cur.c s.cur.k t dw false
      match r.2 with
      | .value v =>
        if condHolds cond (waitvExt cond dw v) y then waitDone m (scopeSet r.1 r.1.cur.c 31) r.1
        else startWait m (.mem cond dw t y (BitVec.ofNat 64 v) false) lim r.1
      | .refused => startWait m (.mem cond dw t y 0 true) lim r.1
      | .poisoned u => machineCheck r.1 r.1.cur.c r.1.cur.k u x
      | .faulted code => holdTranslation s code false x
      | .none => startWait m (.mem cond dw t y 0 false) lim r.1) s

def execWaitvEq (m : Marks) (dw : Bool) (a b : Sreg) (lim : BitVec 4) (s : State) := waitvWord 0 m dw a b lim s
def execWaitvNe (m : Marks) (dw : Bool) (a b : Sreg) (lim : BitVec 4) (s : State) := waitvWord 1 m dw a b lim s
def execWaitvLt (m : Marks) (dw : Bool) (a b : Sreg) (lim : BitVec 4) (s : State) := waitvWord 2 m dw a b lim s
def execWaitvGe (m : Marks) (dw : Bool) (a b : Sreg) (lim : BitVec 4) (s : State) := waitvWord 3 m dw a b lim s
def execWaitvLtu (m : Marks) (dw : Bool) (a b : Sreg) (lim : BitVec 4) (s : State) := waitvWord 4 m dw a b lim s
def execWaitvGeu (m : Marks) (dw : Bool) (a b : Sreg) (lim : BitVec 4) (s : State) := waitvWord 5 m dw a b lim s

end Sys2Proof.Machine
end

