-- ==== Sys2Proof/Machine/Handles.lean ====
section
/-! DEFINITION. Handle words (05 R154 to R156, 02 R51, R52, R63). -/

namespace Sys2Proof.Machine

/-- A handle write: the fields named stay undefined to readers until the bound passes (R52); it is one of the strand's
results in flight (R67, R69). -/
def wrHandle (h : BitVec 5) (v : Handle) (mask : BitVec 11) (bound : Nat) (s : State) : State :=
  (s.modMyCore fun x =>
    { x with
      handles := x.handles.set h.toNat v (by have := h.isLt; omega)
      hflights := x.hflights ++ [⟨h, mask, s.cycle + bound⟩] }).modMe fun t =>
    { t with flights := t.flights ++ [⟨.nothing, s.cycle + bound, none, s.cycle⟩] }

/-- All eleven fields. -/
def allFields : BitVec 11 := BitVec.allOnes 11

/-- A handle as 256 bits (R51 Table 2). -/
def Handle.toNat (h : Handle) : Nat :=
  h.addr.toNat + h.space.toNat * 2 ^ 57 + h.type.toNat * 2 ^ 60 + h.ext0.toNat * 2 ^ 64 + h.str0.toNat * 2 ^ 80
    + h.ext1.toNat * 2 ^ 112 + h.str1.toNat * 2 ^ 128 + h.ext2.toNat * 2 ^ 160 + h.str2.toNat * 2 ^ 176
    + h.ext3.toNat * 2 ^ 208 + h.str3.toNat * 2 ^ 224

def Handle.ofNat (v : Nat) : Handle :=
  let f (lo len : Nat) : BitVec len := BitVec.ofNat len (v / 2 ^ lo)
  ⟨f 0 57, f 57 3, f 60 4, f 64 16, f 80 32, f 112 16, f 128 32, f 160 16, f 176 32, f 208 16, f 224 32⟩

/-- h.ld (R156): near targets only; its bound is that of a near load. -/
def execHLd (m : Marks) (h : BitVec 5) (x : Sreg) (cls : BitVec 4) (s : State) : Host.Outcome State Fault Refusal :=
  issueWord [x.toNat] (fun s =>
    nearRead s (rd s x 1) 32 cls.toNat fun s1 bs bound =>
      retire m (wrHandle h (.ofNat (ofBytes bs)) allFields bound s1)) s

/-- h.st (R156): one store-buffer entry, to any space. -/
def execHSt (m : Marks) (h : BitVec 5) (x : Sreg) (cls : BitVec 4) (s : State) : Host.Outcome State Fault Refusal :=
  issueWord [x.toNat] (fun s => postStore s (rd s x 1) (bytesOf 32 (readHandle s h).toNat) cls.toNat none m) s

def execHSet (m : Marks) (h : BitVec 5) (x : Sreg) (f : BitVec 4) (s : State) : Host.Outcome State Fault Refusal :=
  issueWord [x.toNat] (fun s =>
    retire m (wrHandle h ((s.myCore.handles.get h.toFin).setField f.toNat (rd s x 1)) (1 <<< f.toNat) 1 s)) s

def execHGet (m : Marks) (h : BitVec 5) (x : Sreg) (f : BitVec 4) (s : State) : Host.Outcome State Fault Refusal :=
  issueWord [x.toNat] (fun s => writeBack m x ((readHandle s h).field f.toNat) 1 s) s

/-- The stride of dimension fs. -/
def Handle.stride (h : Handle) (dim : Nat) : Int :=
  match dim with
  | 0 => h.str0.toInt
  | 1 => h.str1.toInt
  | 2 => h.str2.toInt
  | _ => h.str3.toInt

/-- The stepped address of h.adv (R155): in space 6 the offset alone moves. -/
def Handle.advance (h : Handle) (dim : Nat) (steps : W) : BitVec 57 :=
  let v : Int := steps.toInt * h.stride dim * unitOf h.type.toNat
  if h.space = 6 then
    BitVec.ofNat 57 (setBits h.addr.toNat 0 41 (((h.addr.toNat % 2 ^ 41 : Nat) + v) % (2 ^ 41 : Int)).toNat)
  else h.addr + BitVec.ofInt 57 v

/-- h.adv reads the handle's fields, and names addr alone (R52). -/
def execHAdv (m : Marks) (h : BitVec 5) (x : Sreg) (f : BitVec 4) (s : State) : Host.Outcome State Fault Refusal :=
  issueWord [x.toNat] (fun s =>
    let old := s.myCore.handles.get h.toFin
    let v := (readHandle s h).advance f.toNat (rd s x 1)
    retire m (wrHandle h { old with addr := v } 1 1 s)) s

/-- h.mov: x names a handle and is not checked against the allotment (R154). -/
def execHMov (m : Marks) (h : BitVec 5) (x : Sreg) (s : State) : Host.Outcome State Fault Refusal :=
  issueWord [] (fun s => retire m (wrHandle h (readHandle s x) allFields 1 s)) s

def execHClr (m : Marks) (h : BitVec 5) (s : State) : Host.Outcome State Fault Refusal :=
  issueWord [] (fun s => retire m (wrHandle h .zero allFields 1 s)) s

end Sys2Proof.Machine
end

