-- ==== Sys2Proof/Machine/EngineWords.lean ====
section
/-! DEFINITION. Engine words and patch words (06 R187 to R196, R165 to R172). What they change in templates and queues
lands with the tile's next tick (R182, R197). -/

namespace Sys2Proof.Machine

def allEngines : List Eng := [.l, .m, .v, .s]

/-- The tiles that xtmask selects; disabled ones are ignored (R187). -/
def selected (s : State) : List Tl :=
  (List.finRange 8).filter fun t => s.me.xtmask.getLsbD t.val && s.tileOk s.cur.c t

/-- A change goes to every selected tile, in the core's issue order (R182). -/
def amendAll (as : List Amend) (s : State) : State :=
  (selected s).foldl (fun z t => z.modTile z.cur.c t fun y => { y with amends := y.amends ++ as }) s

/-! Queues as a word sees them. -/

def Tile.queue (y : Tile) (e : Eng) : Queue := y.queues.get (Fin.ofNat 4 e.code)
def Tile.setQueue (y : Tile) (e : Eng) (q : Queue) : Tile :=
  { y with queues := y.queues.set (e.code % 4) q (Nat.mod_lt _ (by decide)) }

def Amend.issuesTo (a : Amend) (e : Eng) : Bool :=
  match a with
  | .issue e' .. => e' == e
  | _ => false

/-- Issues of the control core that land at the next tick. -/
def Tile.goes (y : Tile) (e : Eng) : Nat := y.amends.countP (·.issuesTo e)
def Tile.linksTo (y : Tile) (e : Eng) : Nat := y.links.countP fun l => l.1 == e

/-- A queue has a free entry (R190): entries and issues on their way together leave one of the 16. -/
def Tile.hasRoom (y : Tile) (e : Eng) : Bool :=
  decide ((y.queue e).entries.length + y.linksTo e + y.goes e < 16)

def roomEverywhere (s : State) (e : Eng) : Bool := (selected s).all fun t => (s.tile s.cur.c t).hasRoom e

/-- A word with go, or eissue, holds until every selected tile has room (R190). -/
def needRoom (go : Bool) (e : Eng) (s : State) (k : State) : State := if go ∧ roomEverywhere s e = false then hold s else k

/-- The issue of a template by the strand, with the core's present generation (R166, R189, R194). -/
def goOf (s : State) (e : Eng) (t : BitVec 6) : Amend := .issue e t s.myCore.xgen s.cur.k

def goList (s : State) (go : Bool) (e : Eng) (t : BitVec 6) : List Amend := if go then [goOf s e t] else []

/-- A patch word (R189): no register fields, no marks, no trap. -/
def patchWord (e : Eng) (t : BitVec 6) (go : Bool) (f : BitVec 5) (v : BitVec 16) (s : State) :
    Host.Outcome State Fault Refusal :=
  issueWord [] (fun s =>
    needRoom go e s (retire .plain (amendAll (.patch e t f v :: goList s go e t) s))) s

def execPwL (t : BitVec 6) (go : Bool) (f : BitVec 5) (v : BitVec 16) (s : State) := patchWord .l t go f v s
def execPwM (t : BitVec 6) (go : Bool) (f : BitVec 5) (v : BitVec 16) (s : State) := patchWord .m t go f v s
def execPwV (t : BitVec 6) (go : Bool) (f : BitVec 5) (v : BitVec 16) (s : State) := patchWord .v t go f v s
def execPwS (t : BitVec 6) (go : Bool) (f : BitVec 5) (v : BitVec 16) (s : State) := patchWord .s t go f v s

/-- tmask (R188): the mask governs the very next word. -/
def execTmask (m : Marks) (a : Sreg) (s : State) : Host.Outcome State Fault Refusal :=
  issueWord [a.toNat] (fun s =>
    retire m (s.modMe fun t => { t with xtmask := (rd s a 1).setWidth 8 }.dropCtl [0x07])) s

/-- epatch (R191): the whole field, field 30 excepted when the change lands. -/
def execEpatch (m : Marks) (e : BitVec 2) (t : BitVec 6) (f : BitVec 5) (go : Bool) (a : Sreg) (s : State) :
    Host.Outcome State Fault Refusal :=
  issueWord [a.toNat] (fun s =>
    let g := Eng.ofCode e.toNat
    needRoom go g s (retire m (amendAll (.field g t f (rd s a 1) :: goList s go g t) s))) s

/-- The base ebind writes (R192): a packed peer address is expanded. -/
def Handle.base (h : Handle) : W :=
  if h.space = 6 then
    BitVec.ofNat 64 (bits h.addr.toNat 45 12 * 2 ^ 48 + bits h.addr.toNat 41 4 * 2 ^ 44 + h.addr.toNat % 2 ^ 41)
  else h.addr.setWidth 64

/-- The first stride that does not fit 21 bits (R192). -/
def Handle.wideStride (h : Handle) : Option Nat :=
  (List.range 4).find? fun j => decide (h.stride j < -(2 ^ 20)) || decide (2 ^ 20 ≤ h.stride j)

def execEbind (m : Marks) (e : BitVec 2) (t : BitVec 6) (h : BitVec 5) (slot : BitVec 2) (s : State) :
    Host.Outcome State Fault Refusal :=
  issueWord [] (fun s =>
    let hd := readHandle s h
    match hd.wideStride with
    | some j => trap s 0x0c (BitVec.ofNat 16 (4 + 2 * j)) (s.cur.word.setWidth 64)
    | none =>
      let st (j : Nat) : Nat := (BitVec.ofInt 21 (hd.stride j)).toNat
      retire m (amendAll [.bind (Eng.ofCode e.toNat) t slot hd.base
        (BitVec.ofNat 7 (hd.type.toNat + 16 * hd.space.toNat))
        (BitVec.ofNat 64 (st 0 + st 1 * 2 ^ 21 + st 2 * 2 ^ 42)) (BitVec.ofNat 21 (st 3))] s)) s

def execEissue (m : Marks) (e : BitVec 2) (t : BitVec 6) (s : State) : Host.Outcome State Fault Refusal :=
  issueWord [] (fun s =>
    let g := Eng.ofCode e.toNat
    needRoom true g s (retire m (amendAll [goOf s g t] s))) s

/-! efence (R193). -/

/-- The sequence number of the latest entry issued to a queue, issues of this tick included. -/
def Tile.latestSeq (y : Tile) (e : Eng) : BitVec 32 :=
  (y.queue e).next - 1 + if y.goes e = 0 then 0 else BitVec.ofNat 32 (y.linksTo e + y.goes e)

/-- Every entry of a queue up to a number has stopped (R193). -/
def Tile.stoppedUpTo (y : Tile) (e : Eng) (n : BitVec 32) : Bool :=
  decide (((y.queue e).next - 1 - n).toNat < 2 ^ 31) &&
    (y.queue e).entries.all fun b => decide (2 ^ 31 ≤ (n - b.seq).toNat)

/-- The queues an efence still awaits, lowest tile first, engines in the order L, M, V, S. -/
def awaited (s : State) (c : Cl) (ts : List (Tl × Eng × BitVec 32)) : List (Tl × Eng × BitVec 32) :=
  ts.filter fun x => !(s.tile c x.1).stoppedUpTo x.2.1 x.2.2

def execEfence (m : Marks) (e : BitVec 2) (all : Bool) (lim : BitVec 4) (s : State) :
    Host.Outcome State Fault Refusal :=
  issueWord [] (fun s =>
    let es := if all then allEngines else [Eng.ofCode e.toNat]
    let ts := (selected s).flatMap fun t => es.map fun g => (t, g, (s.tile s.cur.c t).latestSeq g)
    if awaited s s.cur.c ts = [] then waitDone m (scope0 s s.cur.c) s
    else startWait m (.efence (Eng.ofCode e.toNat) all ts) lim s) s

/-! egen and estat (R194, R195). -/

def execEgen (m : Marks) (d : Sreg) (s : State) : Host.Outcome State Fault Refusal :=
  issueWord [d.toNat] (fun s =>
    let g := s.myCore.xgen + 1
    writeBack m d (g.setWidth 64) 2 (s.modMyCore fun x => { x with xgen := g })) s

/-- An entry has started once it is past its gate and its wait. -/
def Entry.started (b : Entry) : Bool := b.phase == .running || b.phase == .ending

/-- The status word of Table 12. -/
def Queue.status (q : Queue) : W :=
  let head (p : EntryPhase) : Nat := (q.entries.head?.elim false fun b => b.phase == p).toNat
  BitVec.ofNat 64 (min 16 q.entries.length + 32 * (q.entries.any (·.started)).toNat + 64 * head .waiting
    + 128 * head .gated + 256 * (q.entries.any (·.fault.isSome)).toNat + 2 ^ 16 * q.last.toNat + 2 ^ 32 * q.done.toNat)

def execEstat (m : Marks) (e : BitVec 2) (d : Sreg) (tile : BitVec 3) (s : State) :
    Host.Outcome State Fault Refusal :=
  issueWord [d.toNat] (fun s =>
    onTile 5 tile e.toNat s fun tl => writeBack m d ((s.tile s.cur.c tl).queue (Eng.ofCode e.toNat)).status 12 s) s

/-! Templates (R165, R169, R191, R192). -/

def zeroBlock : Block := List.replicate 32 0

/-- The template an engine holds (R165). -/
def Tile.template (y : Tile) (e : Eng) (t : BitVec 6) : Block :=
  ((y.tmpls.find? fun x => x.e == e && x.t == t).map (·.f)).getD zeroBlock

/-- A template is replaced; one that is all zeros is not listed. -/
def Tile.setTemplate (y : Tile) (e : Eng) (t : BitVec 6) (f : Block) : Tile :=
  let others := y.tmpls.filter fun x => !(x.e == e && x.t == t)
  { y with tmpls := if f = zeroBlock then others else others ++ [⟨e, t, f⟩] }

/-- patch_rule (R169). -/
def patchRule (f : BitVec 5) (v : BitVec 16) (b : Block) : Block :=
  let old : W := (b[f.toNat]?).getD 0
  if f = 30 then b
  else if f = 10 ∨ f = 14 ∨ f = 18 then b.set f.toNat (old + v.signExtend 64)
  else b.set f.toNat (old &&& ~~~0xffff ||| v.setWidth 64)

/-- epatch's whole field (R191): field 30 is read-only. -/
def fieldRule (f : BitVec 5) (v : W) (b : Block) : Block := if f = 30 then b else b.set f.toNat v

/-- ebind's descriptor (R192): swizzle and reserved bits stay. -/
def bindRule (slot : BitVec 2) (base : W) (ts : BitVec 7) (st : W) (st3 : BitVec 21) (b : Block) : Block :=
  let i := 10 + 4 * slot.toNat
  let keep (j : Nat) (mask new : W) : W := ((b[j]?).getD 0 &&& mask) ||| new
  (((b.set i base).set (i + 1) (keep (i + 1) (~~~0x7f) (ts.setWidth 64))).set (i + 2)
    (keep (i + 2) ((1 : W) <<< 63) (st &&& ~~~((1 : W) <<< 63)))).set (i + 3) (keep (i + 3) ((1 : W) <<< 63) (st3.setWidth 64))

def Tile.modTemplate (y : Tile) (e : Eng) (t : BitVec 6) (g : Block → Block) : Tile :=
  y.setTemplate e t (g (y.template e t))

/-! ring.decl (R149). -/

/-- The blocks that issues on their way at a tile copy (R166, R182). -/
def goBlocks : List Amend → Tile → List Block
  | [], _ => []
  | .issue e n _ _ :: r, y => y.template e n :: goBlocks r y
  | .patch e n f v :: r, y => goBlocks r (y.modTemplate e n (patchRule f v))
  | .field e n f v :: r, y => goBlocks r (y.modTemplate e n (fieldRule f v))
  | .bind e n slot base ts st st3 :: r, y => goBlocks r (y.modTemplate e n (bindRule slot base ts st st3))

/-- An issued block of the tile that has not finished names the ring (R149); issues still to land at the tick count. -/
def ringBusy (y : Tile) (t : Tl) (g : BitVec 5) : Bool :=
  let names (f : Block) : Bool := namesRing t g ((f[2]?).getD 0) || namesRing t g ((f[3]?).getD 0)
  y.queues.toList.any (fun q => q.entries.any fun b => names b.f) || y.links.any (fun l => names (y.template l.1 l.2.1))
    || (goBlocks y.amends y).any names

/-- ring.decl (R149): it declares in the second step of a tick in which no block names the ring (R284), and the strand holds until
then. -/
def execRingDecl (m : Marks) (t : BitVec 3) (g : BitVec 5) (h : BitVec 5) (ns : BitVec 8) (s : State) :
    Host.Outcome State Fault Refusal :=
  issueWord [] (fun s => onTile 2 t g.toNat s fun tl =>
    let y := s.tile s.cur.c tl
    if s.me.tld then
      if y.decls.any (·.strand == s.cur.k) then hold s else retire m (s.modMe fun x => { x with tld := false })
    else match ringOf s s.cur.c (readHandle s h) ns with
      | none => if ringBusy y tl g then hold s else trapObject s 7 (objId 2 t.toNat g.toNat)
      | some _ =>
        hold ((s.modTile s.cur.c tl fun y => { y with decls := y.decls ++ [⟨s.cur.k, g, h, ns⟩] }).modMe fun x => { x with tld := true })) s

/-! tmpl.ld and tmpl.st (R196). -/

/-- The 64-byte lines of a read or a store of a whole template; a target of lines apart. -/
def Tgt.step (t : Tgt) (i : Nat) : Tgt :=
  match t with
  | .loc a c q => .loc (a + i) c q
  | .virt va r => .virt (va + BitVec.ofNat 64 i) (r.map fun x => (x.1 + i, x.2))
  | .peer e w o => .peer e w (o + BitVec.ofNat 44 i)

/-- What reading a template's lines came to: the bytes, a refusal, poison at a peer, or no answer yet. -/
inductive LinesEnd where
  | bytes (bs : List Byte)
  | refused (why : Nat)
  | poisoned
  | wait
  deriving DecidableEq, Repr

/-- The read of 256 bytes in class 0, ascending. -/
def readLines (c : Cl) (k : Sn) (t : Tgt) : List Nat → List Byte → State → State × LinesEnd
  | [], bs, s => (s, .bytes bs)
  | i :: r, bs, s =>
    match loadAt { s with fresh := s.fresh + 1 } c k 0 (t.step i) 64 false with
    | (s1, .data more) => readLines c k t r (bs ++ more) s1
    | (s1, .refused why) => (s1, .refused why)
    | (s1, .poisoned _) => (s1, .poisoned)
    | (s1, _) => (s1, .wait)

def lineSteps : List Nat := [0, 64, 128, 192]

/-- A template from 256 bytes. -/
def blockOf (bs : List Byte) : Block := (List.range 32).map fun i => BitVec.ofNat 64 (ofBytes ((bs.drop (8 * i)).take 8))

/-- tmpl.ld once its bytes are there: each selected tile's template is written at the next tick, behind the amendments that
were issued before (R182); the strand holds. -/
def loadTemplates (e : Eng) (t : BitVec 6) (f : Block) (s : State) : State :=
  let s1 := (selected s).foldl (fun z i => z.modTile z.cur.c i fun y =>
    { y with tlds := y.tlds ++ [⟨y.amends.length, z.cur.k, e, t, f⟩] }) s
  hold (s1.modMe fun x => { x with tld := true })

/-- Every template that the strand loads stands written. -/
def State.loadsDone (s : State) : Bool := (List.finRange 8).all fun i => (s.tile s.cur.c i).tlds.all (·.strand ≠ s.cur.k)

/-- tmpl.ld (R196): it holds issue until the templates stand written. -/
def execTmplLd (m : Marks) (e : BitVec 2) (t : BitVec 6) (a : Sreg) (s : State) : Host.Outcome State Fault Refusal :=
  issueWord [a.toNat] (fun s =>
    let x := rd s a 1
    if s.me.tld then
      if s.loadsDone then retire m (s.modMe fun x => { x with tld := false }) else hold s
    else if selected s = [] then retire m s
    else match target s s.cur.c x 256 with
      | .error r => trapAddress s r x
      | .ok (sp, o) =>
        match resolve s s.cur.c (tgtOf s s.cur.c sp o) true false with
        | (_, .error code) => holdTranslation s code false x
        | (s1, .ok tg) =>
          if let some l := tg.poison s1 256 then machineCheck s1 s1.cur.c s1.cur.k (unitAt (64 * l)) x else
          match performBefore s1 (before s1 (plainPend (.load 0 256 false) 0 tg)) with
          | none => hold s
          | some s2 =>
            match readLines s2.cur.c s2.cur.k tg lineSteps [] s2 with
            | (s3, .bytes bs) => loadTemplates (Eng.ofCode e.toNat) t (blockOf bs) s3
            | (s3, .refused why) =>
              takeTrap s3 s3.cur.c s3.cur.k true 0x08 false (BitVec.ofNat 16 why) x s3.me.pastPc
            | (s3, .poisoned) => machineCheck s3 s3.cur.c s3.cur.k 4 x
            | (s3, .wait) => hold { s with islandFaults := s3.islandFaults, fresh := s3.fresh }) s

/-- tmpl.st (R196): four store-buffer entries; it holds until earlier changes to the template have landed. -/
def execTmplSt (m : Marks) (e : BitVec 2) (t : BitVec 6) (a : Sreg) (s : State) : Host.Outcome State Fault Refusal :=
  issueWord [a.toNat] (fun s =>
    match selected s with
    | [] => retire m s
    | i :: _ =>
      let x := rd s a 1
      storeTarget s x 256 fun s1 tg =>
        let y := s.tile s.cur.c i
        if 12 < s.me.storesBuffered ∨ y.amends ≠ [] ∨ y.tlds ≠ [] then hold s
        else
          let bs := (y.template (Eng.ofCode e.toNat) t).flatMap fun v => bytesOf 8 v.toNat
          retire m (lineSteps.foldl (fun z j =>
            post (plainPend (.store ((bs.drop j).take 64)) 0 (tg.step j)) z) s1)) s

end Sys2Proof.Machine
end

