-- ==== Sys2Proof/Machine/Fp.lean ====
section
/-! DEFINITION. FP32 arithmetic, compares and conversions (04 R105 to R111). Results land with their flags (R58). -/

namespace Sys2Proof.Machine

/-- A result with its flags to d (fwr of R106; R58). -/
def fwr (m : Marks) (d : Sreg) (r : W × FlagSet) (bound : Nat) (s : State) : State :=
  retire m (s.modMe (·.wrReg s.cycle d r.1 bound (some r.2.bits)))

def fp2 (f : Nat → XVal → XVal → W × FlagSet) (bound : Nat) (m : Marks) (d a b : Sreg) (s : State) :
    Host.Outcome State Fault Refusal :=
  issueWord [d.toNat, a.toNat, b.toNat] (fun s => fwr m d (f (rmNow s) (f32 (rd s a 1)) (f32 (rd s b 2))) bound s) s

/-- Bit-level forms that raise no flag (R107, R108). -/
def fpBits2 (f : Nat → Nat → W) (m : Marks) (d a b : Sreg) (s : State) : Host.Outcome State Fault Refusal :=
  issueWord [d.toNat, a.toNat, b.toNat] (fun s => fwr m d (f (rd s a 1).toNat (rd s b 2).toNat, .none) 4 s) s

def fpBits1 (f : Nat → W) (m : Marks) (d a : Sreg) (s : State) : Host.Outcome State Fault Refusal :=
  issueWord [d.toNat, a.toNat] (fun s => fwr m d (f (rd s a 1).toNat, .none) 4 s) s

def execFadd (m : Marks) (d a b : Sreg) (s : State) := fp2 (fun rm x y => fround rm (nvAdd x y) (x.add rm y)) 4 m d a b s
def execFsub (m : Marks) (d a b : Sreg) (s : State) :=
  fp2 (fun rm x y => fround rm (nvAdd x y.neg) (x.add rm y.neg)) 4 m d a b s
def execFmul (m : Marks) (d a b : Sreg) (s : State) :=
  fp2 (fun rm x y => fround rm { nv := nvMul x y } (x.mul y)) 4 m d a b s
def execFdiv (m : Marks) (d a b : Sreg) (s : State) := fp2 (fun rm x y => fround rm (nvDiv x y) (x.div y)) 16 m d a b s

def execFsqrt (m : Marks) (d a : Sreg) (s : State) : Host.Outcome State Fault Refusal :=
  issueWord [d.toNat, a.toNat] (fun s => let x := f32 (rd s a 1); fwr m d (fround (rmNow s) (nvSqrt x) x.sqrt) 18 s) s

def execFma (m : Marks) (d a b c : Sreg) (s : State) : Host.Outcome State Fault Refusal :=
  issueWord [d.toNat, a.toNat, b.toNat, c.toNat] (fun s =>
    let x := f32 (rd s a 1); let y := f32 (rd s b 2); let z := f32 (rd s c 3)
    fwr m d (fround (rmNow s) (nvFma x y z) ((x.mul y).add (rmNow s) z)) 4 s) s

/-- The canonical NaN of arithmetic (R20), or a word built from a's low bits. -/
def unlessNan (a : Nat) (v : Nat) : W := if (fp32.decode (a % 2 ^ 32)).isNan then 0x7fc00000 else BitVec.ofNat 64 v

def fminmax (max : Bool) (a b : Nat) : W :=
  let x := fp32.decode (a % 2 ^ 32)
  let y := fp32.decode (b % 2 ^ 32)
  if x.isNan || y.isNan then 0x7fc00000
  else BitVec.ofNat 64 ((if (if max then belowF x y else belowF y x) then b else a) % 2 ^ 32)

def execFmin (m : Marks) (d a b : Sreg) (s : State) := fpBits2 (fminmax false) m d a b s
def execFmax (m : Marks) (d a b : Sreg) (s : State) := fpBits2 (fminmax true) m d a b s
def execFabs (m : Marks) (d a : Sreg) (s : State) := fpBits1 (fun x => unlessNan x (x % 2 ^ 31)) m d a s
def execFneg (m : Marks) (d a : Sreg) (s : State) :=
  fpBits1 (fun x => unlessNan x ((1 - bits x 31 1) * 2 ^ 31 + x % 2 ^ 31)) m d a s
def execFsgnj (m : Marks) (d a b : Sreg) (s : State) :=
  fpBits2 (fun x y => unlessNan x (bits y 31 1 * 2 ^ 31 + x % 2 ^ 31)) m d a b s
def execFclass (m : Marks) (d a : Sreg) (s : State) := fpBits1 fclassOf m d a s

/-- fcmp (R109): a predicate, bound 4; it lands no flag but replaces LAST (R58). -/
def fcmp (c : XVal → XVal → Bool) (m : Marks) (p : Preg) (a b : Sreg) (s : State) : Host.Outcome State Fault Refusal :=
  issueWord [a.toNat, b.toNat] (fun s => retire m (wrp p (c (f32 (rd s a 1)) (f32 (rd s b 2))) 4 (some 0) s)) s

def execFcmpEq (m : Marks) (p : Preg) (a b : Sreg) (s : State) := fcmp (fun x y => x.eqv y) m p a b s
def execFcmpLt (m : Marks) (p : Preg) (a b : Sreg) (s : State) := fcmp (fun x y => x.lt y) m p a b s
def execFcmpLe (m : Marks) (p : Preg) (a b : Sreg) (s : State) := fcmp (fun x y => x.lt y || x.eqv y) m p a b s
def execFcmpUn (m : Marks) (p : Preg) (a b : Sreg) (s : State) := fcmp (fun x y => x.isNan || y.isNan) m p a b s

/-! Conversions (R111): the rounding mode is the word's. -/

def cvtWord (f : W → W × FlagSet) (m : Marks) (d a : Sreg) (s : State) : Host.Outcome State Fault Refusal :=
  issueWord [d.toNat, a.toNat] (fun s => fwr m d (f (rd s a 1)) 4 s) s

def execCvtIF (m : Marks) (d a : Sreg) (u : Bool) (rm : BitVec 3) (s : State) : Host.Outcome State Fault Refusal :=
  cvtWord (fun x => fround rm.toNat .none (.ofInt (if u then (x.toNat : Int) else x.toInt))) m d a s

def execCvtFI (m : Marks) (d a : Sreg) (u : Bool) (rm : BitVec 3) (s : State) : Host.Outcome State Fault Refusal :=
  cvtWord (fun x => let r := toIntTy 64 (!u) rm.toNat 0 true (f32 x); (BitVec.ofNat 64 r.1, r.2)) m d a s

def execCvtFBf (m : Marks) (d a : Sreg) (rm : BitVec 3) (s : State) : Host.Outcome State Fault Refusal :=
  cvtWord (fun x => let r := roundTo bf16 rm.toNat 0 false (f32 x); (BitVec.ofNat 64 r.1, r.2)) m d a s

def execCvtBfF (m : Marks) (d a : Sreg) (rm : BitVec 3) (s : State) : Host.Outcome State Fault Refusal :=
  cvtWord (fun x => (BitVec.ofNat 64 (roundTo fp32 rm.toNat 0 false (bf16.decode (x.toNat % 2 ^ 16))).1, .none)) m d a s

end Sys2Proof.Machine
end

