-- ==== Sys2Proof/Machine/Pred.lean ====
section
/-! DEFINITION. Compares and predicate words (04 R101 to R104). -/

namespace Sys2Proof.Machine

/-- A compare of rd(a) with a second operand into predicate p (R102), bound 1. -/
def cmpWord (cond : Nat) (m : Marks) (p : Preg) (a : Sreg) (fields : List Nat) (y : State → W) (s : State) :
    Host.Outcome State Fault Refusal :=
  issueWord fields (fun s => retire m (wrp p (condHolds cond (rd s a 1) (y s)) 1 none s)) s

def cmp (cond : Nat) (m : Marks) (p : Preg) (a b : Sreg) (s : State) : Host.Outcome State Fault Refusal :=
  cmpWord cond m p a [a.toNat, b.toNat] (fun s => rd s b 2) s

def cmpi (cond : Nat) (m : Marks) (p : Preg) (a : Sreg) (i : BitVec 10) (s : State) : Host.Outcome State Fault Refusal :=
  cmpWord cond m p a [a.toNat] (fun _ => simm i) s

def execCmpEq (m : Marks) (p : Preg) (a b : Sreg) (s : State) := cmp 0 m p a b s
def execCmpNe (m : Marks) (p : Preg) (a b : Sreg) (s : State) := cmp 1 m p a b s
def execCmpLt (m : Marks) (p : Preg) (a b : Sreg) (s : State) := cmp 2 m p a b s
def execCmpGe (m : Marks) (p : Preg) (a b : Sreg) (s : State) := cmp 3 m p a b s
def execCmpLtu (m : Marks) (p : Preg) (a b : Sreg) (s : State) := cmp 4 m p a b s
def execCmpGeu (m : Marks) (p : Preg) (a b : Sreg) (s : State) := cmp 5 m p a b s
def execCmpiEq (m : Marks) (p : Preg) (a : Sreg) (i : BitVec 10) (s : State) := cmpi 0 m p a i s
def execCmpiNe (m : Marks) (p : Preg) (a : Sreg) (i : BitVec 10) (s : State) := cmpi 1 m p a i s
def execCmpiLt (m : Marks) (p : Preg) (a : Sreg) (i : BitVec 10) (s : State) := cmpi 2 m p a i s
def execCmpiGe (m : Marks) (p : Preg) (a : Sreg) (i : BitVec 10) (s : State) := cmpi 3 m p a i s
def execCmpiLtu (m : Marks) (p : Preg) (a : Sreg) (i : BitVec 10) (s : State) := cmpi 4 m p a i s
def execCmpiGeu (m : Marks) (p : Preg) (a : Sreg) (i : BitVec 10) (s : State) := cmpi 5 m p a i s

/-- A predicate operation of two sources (R103), bound 1. -/
def predOp (f : Bool → Bool → Bool) (m : Marks) (d a b : Preg) (s : State) : Host.Outcome State Fault Refusal :=
  issueWord [] (fun s => retire m (wrp d (f (rdp s a 1) (rdp s b 2)) 1 none s)) s

def execPand (m : Marks) (d a b : Preg) (s : State) := predOp (fun x y => x && y) m d a b s
def execPor (m : Marks) (d a b : Preg) (s : State) := predOp (fun x y => x || y) m d a b s
def execPxor (m : Marks) (d a b : Preg) (s : State) := predOp (fun x y => x != y) m d a b s
def execPandn (m : Marks) (d a b : Preg) (s : State) := predOp (fun x y => x && !y) m d a b s

/-- pmov: pb is reserved (R103). -/
def execPmov (m : Marks) (d a : Preg) (s : State) : Host.Outcome State Fault Refusal :=
  issueWord [] (fun s => retire m (wrp d (rdp s a 1) 1 none s)) s

/-- psave: predicate i in bit i; bit 0 is always 1 (R50, R103). -/
def execPsave (m : Marks) (d : Sreg) (s : State) : Host.Outcome State Fault Refusal :=
  issueWord [d.toNat] (fun s =>
    writeBack m d (BitVec.ofNat 64 (((List.range 8).map fun i => (rdp s (BitVec.ofNat 3 i) i).toNat * 2 ^ i).sum)) 1 s) s

/-- pload: p1 to p7 from bits 7:1 (R103). -/
def execPload (m : Marks) (a : Sreg) (s : State) : Host.Outcome State Fault Refusal :=
  issueWord [a.toNat] (fun s =>
    let v := rd s a 1
    retire m (s.modMe (·.wrPreds s.cycle 0xff (v.setWidth 8) 1 none))) s

end Sys2Proof.Machine
end

