-- ==== Sys2Proof/Machine/Remote.lean ====
section
/-! DEFINITION. xlate (05 R157, R158), trigger and counter words, remote words (13 R376 to R382). -/

namespace Sys2Proof.Machine

/-! xlate. -/

/-- The fields of xt (R158). -/
def xtWord (v r w l : Bool) (reason : Nat) : W :=
  BitVec.ofNat 64 (v.toNat + 2 * r.toNat + 4 * w.toNat + 8 * l.toNat + 256 * reason)

/-- The status of a device virtual address (R158): what walk finds; a cached translation answers while it is held. A leaf that
permits the access but lies beyond device memory exists, and is none of the other reasons: 2 (DEDUCED, log 69). -/
def xlateStatus (s : State) (c : Cl) (va : W) (wr : Bool) : State × W :=
  let x := s.ctxOf c
  match (s.core c).tlb.find? (·.covers x va.toNat) with
  | some e => (s, xtWord true e.r e.w e.large (if (if wr then e.w else e.r) then 0 else 2))
  | none =>
    match walkLeaf s x va.toNat with
    | none => (s, xtWord false false false false 1)
    | some l =>
      if (if wr then l.w else l.r) then
        match walk s x va.toNat (!wr) wr (s.requestKey c) with
        | .ok e =>
          (s.modCore c fun y => { y with tlb := tlbInstall s 128 y.tlb e }, xtWord true l.r l.w l.large 0)
        | .error k => (s, xtWord true l.r l.w l.large (if k = 0x21 then 5 else 2))
      else (s, xtWord true l.r l.w l.large 2)

/-- The status xlate delivers for an address (R158). -/
def xlateResult (s : State) (c : Cl) (va : W) (wr : Bool) : State × W :=
  let v := va.toNat
  if v < 2 ^ 63 then
    if bits v 55 8 ≠ 0 then (s, xtWord false false false false 4) else xlateStatus s c va wr
  else if bits v 60 3 ≤ 4 then (s, xtWord true true true false 0)
  else (s, xtWord false false false false 3)

/-- xlate (R157): a fifth outstanding one holds issue. -/
def execXlate (m : Marks) (a : Sreg) (wr : Bool) (s : State) : Host.Outcome State Fault Refusal :=
  issueWord [a.toNat] (fun s =>
    if 4 ≤ s.me.xlates.length then hold s
    else retire m (s.modMe fun t =>
      { t with xlates := t.xlates ++ [⟨t.xlateN + 1, rd s a 1, wr, s.cycle + 400⟩], xlateN := t.xlateN + 1 })) s

/-- A pending translation delivers (R157, R158): xt shows the strand's most recent xlate. -/
def deliverXlate (c : Cl) (k : Sn) (j : Nat) (s : State) : State :=
  match (s.strand c k).xlates[j]? with
  | none => s
  | some p =>
    let r := xlateResult { s with fresh := s.fresh + 1 } c p.va p.wr
    r.1.modStrand c k fun t =>
      { t with
        xlates := t.xlates.eraseIdx j
        xt := if t.xtId ≤ p.id then r.2 else t.xt
        xtId := max t.xtId p.id }

def execXlateDeliver (c : Cl) (k : Sn) (j : Nat) (s : State) : Host.Outcome State Fault Refusal :=
  .next (deliverXlate c k j s)

/-! Trigger and counter words. -/

/-- Scope 3, the scope of the release of trigger and counter words (R377, R379). -/
def scope3 (s : State) : ScopeSet := scopeSet s s.cur.c 3

/-- trig.post (R377): the read of 64 bytes in class 0, then a release at scope 3, then installation. -/
def execTrigPost (m : Marks) (d a b : Sreg) (s : State) : Host.Outcome State Fault Refusal :=
  issueWord [d.toNat, a.toNat, b.toNat] (fun s =>
    farTarget s (rd s a 1) 64 fun t =>
      queueWord s d (fun i => ⟨.trig i 0 (rd s a 1) (rd s b 2), 0, t, none, some (scope3 s), false, 0⟩) m) s

/-- A word answered by the island alone (R378, R379): class 0, no address. -/
def islandQueueWord (op : Nat) (d : Sreg) (x y : W) (m : Marks) (s : State) : State :=
  queueWord s d (fun i => plainPend (.trig i op x y) 0 (.loc 0 0)) m

def execTrigCancel (m : Marks) (d b : Sreg) (s : State) : Host.Outcome State Fault Refusal :=
  issueWord [d.toNat, b.toNat] (fun s => islandQueueWord 1 d 0 (rd s b 2) m s) s
def execTrigQuery (m : Marks) (d b : Sreg) (s : State) : Host.Outcome State Fault Refusal :=
  issueWord [d.toNat, b.toNat] (fun s => islandQueueWord 2 d 0 (rd s b 2) m s) s
def execCtrRd (m : Marks) (d a : Sreg) (s : State) : Host.Outcome State Fault Refusal :=
  issueWord [d.toNat, a.toNat] (fun s => islandQueueWord 4 d (rd s a 1) 0 m s) s

/-- ctr.add (R379): posted, a release at scope 3 for every class. -/
def execCtrAdd (m : Marks) (a b : Sreg) (s : State) : Host.Outcome State Fault Refusal :=
  issueWord [a.toNat, b.toNat] (fun s =>
    retire m (post ⟨.ctrAdd ((rd s a 1).setWidth 13) (rd s b 2), 0, .loc 0 0, none, some (scope3 s), false, 0⟩ s)) s

/-! Remote words. -/

def Pend.isMove (p : Pend) : Bool :=
  match p.kind with
  | .move .. => true
  | _ => false

/-- rem.st (R380): both addresses resolve at issue; a fifth move in progress holds. -/
def execRemSt (m : Marks) (d a b : Sreg) (s : State) : Host.Outcome State Fault Refusal :=
  issueWord [d.toNat, a.toNat, b.toNat] (fun s =>
    let dst := rd s d 0
    let src := rd s a 1
    let n := (rd s b 2).toNat % 2 ^ 32
    farTarget s src 1 fun _ => farTarget s dst 1 fun _ =>
      if 4 ≤ s.me.pend.countP (·.isMove) then hold s
      else retire m (post ⟨.move src dst n false, 0, .loc 0 0, none, none, false, 0⟩ s)) s

/-- rem.sig (R381): a space-6 address; a release at scope 31 for every class. -/
def execRemSig (m : Marks) (a b : Sreg) (s : State) : Host.Outcome State Fault Refusal :=
  issueWord [a.toNat, b.toNat] (fun s =>
    farTarget s (rd s a 1) 8 fun t =>
      retire m (post ⟨.sig (rd s b 2), 0, t, none, some (scopeSet s s.cur.c 31), false, 0⟩ s)) s

/-- rem.amo (R382): an atomic of Table 7 of 05 at home, in class 0. -/
def remAmo (op : AmoOp) (m : Marks) (d a b : Sreg) (s : State) : Host.Outcome State Fault Refusal :=
  if op = 9 then amoPair op m d a b s else amo op m d a b s

def execRemAmoAdd (m : Marks) (d a b : Sreg) (s : State) := remAmo 0 m d a b s
def execRemAmoAnd (m : Marks) (d a b : Sreg) (s : State) := remAmo 1 m d a b s
def execRemAmoOr (m : Marks) (d a b : Sreg) (s : State) := remAmo 2 m d a b s
def execRemAmoXor (m : Marks) (d a b : Sreg) (s : State) := remAmo 3 m d a b s
def execRemAmoMin (m : Marks) (d a b : Sreg) (s : State) := remAmo 4 m d a b s
def execRemAmoMax (m : Marks) (d a b : Sreg) (s : State) := remAmo 5 m d a b s
def execRemAmoMinu (m : Marks) (d a b : Sreg) (s : State) := remAmo 6 m d a b s
def execRemAmoMaxu (m : Marks) (d a b : Sreg) (s : State) := remAmo 7 m d a b s
def execRemAmoSwap (m : Marks) (d a b : Sreg) (s : State) := remAmo 8 m d a b s
def execRemAmoBadd (m : Marks) (d a b : Sreg) (s : State) := remAmo 9 m d a b s

end Sys2Proof.Machine
end

