-- ==== Sys2Proof/Machine/System.lean ====
section
/-! DEFINITION. System words, time reads and hints (05 R159 to R164, 03 R78 to R80, 02 R56, 08 R267). -/

namespace Sys2Proof.Machine

def execNop (m : Marks) (s : State) : Host.Outcome State Fault Refusal := issueWord [] (retire m) s

/-- hint: a hint-region word that no function uses issues as a no-operation (R80). -/
def execHint (m : Marks) (_hh : BitVec 2) (_v : BitVec 23) (s : State) : Host.Outcome State Fault Refusal :=
  issueWord [] (retire m) s

/-! Control registers (R56, R160). -/

def ctlReadable (xr : BitVec 8) (s : State) : Bool := (readCtl s s.cur.c s.cur.k xr).isSome

/-- A write is legal to an assigned register, at firmware level where the register asks for it (R55, R56). -/
def ctlWritable (xr : BitVec 8) (s : State) : Bool :=
  match ctlAccess xr with
  | .task => true
  | .firmware => stBit s.me.xstatus 1
  | .never => false

/-- The mailbox of a control-register number. -/
def mailboxOf (xr : BitVec 8) : Option (Fin 8) :=
  if 0x10 ≤ xr.toNat ∧ xr.toNat ≤ 0x17 then some (Fin.ofNat 8 xr.toNat) else none

/-- Reading a mailbox that the host wrote acquires at scope 31 and clears the flag (R267). -/
def mailboxRead (xr : BitVec 8) (s : State) : State :=
  match mailboxOf xr with
  | some i =>
    if s.myCore.mboxHost.getLsbD i.val then
      (acquireAt s.cur.c (scopeSet s s.cur.c 31) s).modMyCore fun x =>
        { x with mboxHost := x.mboxHost &&& ~~~((1 : BitVec 8) <<< i.val) }
    else s
  | none => s

def execXrd (m : Marks) (d : Sreg) (xr : BitVec 8) (s : State) : Host.Outcome State Fault Refusal :=
  issueLegal (ctlReadable xr) [d.toNat] (fun s =>
    if xr = 0x09 ∧ s.me.xlates ≠ [] then hold s
    else writeBack m d ((readCtl s s.cur.c s.cur.k xr).getD 0) 2 (mailboxRead xr s)) s

/-- A control-register write goes under way; it takes effect two core cycles after its issue (R56). -/
def ctlWrite (op : CtlOp) (m : Marks) (a : Sreg) (xr : BitVec 8) (s : State) : Host.Outcome State Fault Refusal :=
  issueLegal (ctlWritable xr) [a.toNat] (fun s =>
    let w : CtlWrite := ⟨s.cycle + 2, xr, op, rd s a 1⟩
    retire m (if ctlCore xr then s.modMyCore (fun x => { x with ctl := x.ctl ++ [w] })
      else s.modMe fun t => { t with ctl := t.ctl ++ [w] })) s

def execXwr (m : Marks) (a : Sreg) (xr : BitVec 8) (s : State) := ctlWrite .write m a xr s
def execXset (m : Marks) (a : Sreg) (xr : BitVec 8) (s : State) := ctlWrite .set m a xr s
def execXclr (m : Marks) (a : Sreg) (xr : BitVec 8) (s : State) := ctlWrite .clear m a xr s

/-! Calls to the handler and the return (R161, R162). The marks of a word that traps have no effect (R79). -/

def execSvc (_m : Marks) (n : BitVec 8) (s : State) : Host.Outcome State Fault Refusal :=
  issueWord [] (fun s => trap s 0x09 0 (n.setWidth 64)) s

def execBrk (_m : Marks) (n : BitVec 8) (s : State) : Host.Outcome State Fault Refusal :=
  issueWord [] (fun s => trap s 0x0a 0 (n.setWidth 64)) s

def execEret (m : Marks) (s : State) : Host.Outcome State Fault Refusal :=
  issueLegal (fun s => stBit s.me.xstatus 6) [] (fun s => (issue m s).modMe (·.eret)) s

/-! tlbi (R163). -/

def tlbiHit (kind : BitVec 8) (ctx : Fin 64) (v : W) (e : TlbEntry) : Bool :=
  if kind = 0 then e.covers ctx v.toNat else e.ctx.val == v.toNat % 64

/-- The translations go from the core's TLB and from the stream TLBs of the cluster's engines. -/
def Core.tlbi (hit : TlbEntry → Bool) (x : Core) : Core :=
  { x with
    tlb := x.tlb.filter (!hit ·)
    tiles := x.tiles.each fun y => { y with streamTlb := y.streamTlb.filter (!hit ·.2) } }

/-- The strand has an access whose address has been translated and that has not performed (R54, R131, R344). -/
def Strand.translatedAccess (t : Strand) : Bool := t.pend.any (·.key?.isSome)

/-- A core's accesses to translated addresses have performed. -/
def Core.storesHome (x : Core) : Bool := x.strands.toList.all (!·.translatedAccess)

/-- tlbi holds until the accesses translated through what it drops have performed (R344 step 3). -/
def execTlbi (m : Marks) (a : Sreg) (kind : BitVec 8) (s : State) : Host.Outcome State Fault Refusal :=
  issueLegal (fun s => stBit s.me.xstatus 1) [a.toNat] (fun s =>
    if s.myCore.storesHome then retire m (s.modMyCore (·.tlbi (tlbiHit kind (s.ctxOf s.cur.c) (rd s a 1)))) else hold s) s

/-! Time reads (R164). -/

def execRdtick (m : Marks) (d : Sreg) (s : State) : Host.Outcome State Fault Refusal :=
  issueWord [d.toNat] (fun s => writeBack m d s.xtick 2 s) s
def execRdframe (m : Marks) (d : Sreg) (s : State) : Host.Outcome State Fault Refusal :=
  issueWord [d.toNat] (fun s => writeBack m d s.myCore.xframe 2 s) s
def execRdtime (m : Marks) (d : Sreg) (s : State) : Host.Outcome State Fault Refusal :=
  issueWord [d.toNat] (fun s => writeBack m d s.xtime 2 s) s

end Sys2Proof.Machine
end

