-- ==== Sys2Proof/Machine/Task.lean ====
section
/-! DEFINITION. spawn, done and valid.set (11 R325 to R329). -/

namespace Sys2Proof.Machine

/-- A node is named by another node's successor mask (R319). -/
def Launch.hasPredecessor (l : Launch) (m : Nat) : Bool := l.nodes.any fun n => n.succ.getLsbD m

/-- Enabled clusters of a die. -/
def State.enabledOf (s : State) (d : Die) : Nat :=
  (List.finRange 64).countP fun c => dieOf c == d && s.clusterEnabled c

/-- Records on their way to a die's pool (R327). -/
def State.spawnsTo (s : State) (d : Die) : Nat :=
  (s.cores.toList.map fun x => (x.strands.toList.map fun t => t.pend.countP fun p => match p.kind with
    | .spawn e .. => e == d
    | _ => false).sum).sum

/-- The pool or the spill queue of a die has a free record (R322, R323, R327). -/
def State.recordFree (s : State) (d : Die) : Bool :=
  decide ((s.die d).pool.length + (s.die d).spill.length + s.spawnsTo d < 4096 + 65536)

/-- A spawn that the launch does not accept issues with no other effect (R327). -/
def rejectSpawn (m : Marks) (l : Launch) (s : State) : State :=
  retire m (s.modLaunch l.id fun x => { x with rejectedSpawns := x.rejectedSpawns + 1 })

/-- The counts rise when the spawn issues (R325). -/
def Launch.raise (l : Launch) (m n : Nat) : Launch :=
  { l with
    outstanding := l.outstanding + n
    nodes := l.nodes.mapIdx fun i x => if i = m then { x with outstanding := x.outstanding + n } else x }

/-- The die a spawn names (R327). -/
def spawnDie (s : State) (v : W) : Die :=
  let own := dieOf s.cur.c
  let d : Die := Fin.ofNat 4 (bits v.toNat 32 2)
  if v.getLsbD 34 ∨ s.dieRuns d = false then own else d

def execSpawn (m : Marks) (a b : Sreg) (s : State) : Host.Outcome State Fault Refusal :=
  issueWord [a.toNat, b.toNat] (fun s =>
    let v := rd s a 1
    let base := rd s b 2
    let nd := bits v.toNat 0 6
    let n := bits v.toNat 8 24
    match (s.gangOf s.cur.c).bind fun g => s.launch? g.launch with
    | none => retire m s
    | some l =>
      if l.reefed ∨ n = 0 then retire m s
      else if l.nodes.length ≤ nd ∨ l.hasPredecessor nd then rejectSpawn m l s
      else
        let d := spawnDie s v
        if (l.nodes[nd]?).elim true (fun x => !x.wide && decide (s.enabledOf d < x.size)) then rejectSpawn m l s
        else if s.recordFree d = false then hold s
        else retire m (post ⟨.spawn d l.id nd n base, 0, .loc 0 0, none, some (scopeSet s s.cur.c 3), false, 0⟩
          (s.modLaunch l.id (·.raise nd n)))) s

/-- done (R328): halt's effects; the cluster has executed done. -/
def execTaskDone (m : Marks) (s : State) : Host.Outcome State Fault Refusal :=
  issueWord [] (fun s => ((issue m s).modMyCore fun x => { x with didDone := true }).halt s.cur.c s.cur.k) s

/-- valid.set (R329): a release at scope 31, and after it the bits; it does not hold issue. -/
def execValidSet (m : Marks) (a : Sreg) (s : State) : Host.Outcome State Fault Refusal :=
  issueWord [a.toNat] (fun s =>
    retire m (post ⟨.valid (rd s a 1), 0, .loc 0 0, none, some (scopeSet s s.cur.c 31), false, 0⟩ s)) s

end Sys2Proof.Machine
end

