-- ==== Sys2Proof/Machine/Repeat.lean ====
section
/-! DEFINITION. One iteration of a repeated word (04 R119 to R123). -/

namespace Sys2Proof.Machine

/-- The meaning of a word that may be repeated (R120). -/
def execRepeated (i : Instr) (s : State) : Host.Outcome State Fault Refusal :=
  match i with
  | .nop m => execNop m s
  | .xrd m d xr => execXrd m d xr s
  | .xwr m a xr => execXwr m a xr s
  | .xset m a xr => execXset m a xr s
  | .xclr m a xr => execXclr m a xr s
  | .tlbi m a kind => execTlbi m a kind s
  | .add m d a b => execAdd m d a b s
  | .sub m d a b => execSub m d a b s
  | .mul m d a b => execMul m d a b s
  | .mulh m d a b => execMulh m d a b s
  | .mulhu m d a b => execMulhu m d a b s
  | .div m d a b => execDiv m d a b s
  | .divu m d a b => execDivu m d a b s
  | .rem m d a b => execRem m d a b s
  | .remu m d a b => execRemu m d a b s
  | .and m d a b => execAnd m d a b s
  | .or m d a b => execOr m d a b s
  | .xor m d a b => execXor m d a b s
  | .andn m d a b => execAndn m d a b s
  | .shl m d a b => execShl m d a b s
  | .shr m d a b => execShr m d a b s
  | .sra m d a b => execSra m d a b s
  | .min m d a b => execMin m d a b s
  | .max m d a b => execMax m d a b s
  | .minu m d a b => execMinu m d a b s
  | .maxu m d a b => execMaxu m d a b s
  | .clz m d a => execClz m d a s
  | .ctz m d a => execCtz m d a s
  | .popc m d a => execPopc m d a s
  | .addi m d a i => execAddi m d a i s
  | .andi m d a i => execAndi m d a i s
  | .ori m d a i => execOri m d a i s
  | .xori m d a i => execXori m d a i s
  | .shli m d a sh => execShli m d a sh s
  | .shri m d a sh => execShri m d a sh s
  | .srai m d a sh => execSrai m d a sh s
  | .li m d i => execLi m d i s
  | .lih m d i => execLih m d i s
  | .cmpEq m p a b => execCmpEq m p a b s
  | .cmpNe m p a b => execCmpNe m p a b s
  | .cmpLt m p a b => execCmpLt m p a b s
  | .cmpGe m p a b => execCmpGe m p a b s
  | .cmpLtu m p a b => execCmpLtu m p a b s
  | .cmpGeu m p a b => execCmpGeu m p a b s
  | .cmpiEq m p a i => execCmpiEq m p a i s
  | .cmpiNe m p a i => execCmpiNe m p a i s
  | .cmpiLt m p a i => execCmpiLt m p a i s
  | .cmpiGe m p a i => execCmpiGe m p a i s
  | .cmpiLtu m p a i => execCmpiLtu m p a i s
  | .cmpiGeu m p a i => execCmpiGeu m p a i s
  | .pand m d a b => execPand m d a b s
  | .por m d a b => execPor m d a b s
  | .pxor m d a b => execPxor m d a b s
  | .pandn m d a b => execPandn m d a b s
  | .pmov m d a => execPmov m d a s
  | .psave m d => execPsave m d s
  | .pload m a => execPload m a s
  | .fadd m d a b => execFadd m d a b s
  | .fsub m d a b => execFsub m d a b s
  | .fmul m d a b => execFmul m d a b s
  | .fdiv m d a b => execFdiv m d a b s
  | .fsqrt m d a => execFsqrt m d a s
  | .fmin m d a b => execFmin m d a b s
  | .fmax m d a b => execFmax m d a b s
  | .fabs m d a => execFabs m d a s
  | .fneg m d a => execFneg m d a s
  | .fsgnj m d a b => execFsgnj m d a b s
  | .fclass m d a => execFclass m d a s
  | .fcmpEq m p a b => execFcmpEq m p a b s
  | .fcmpLt m p a b => execFcmpLt m p a b s
  | .fcmpLe m p a b => execFcmpLe m p a b s
  | .fcmpUn m p a b => execFcmpUn m p a b s
  | .fma m d a b c => execFma m d a b c s
  | .ldB m d a cls off => execLdB m d a cls off s
  | .ldBu m d a cls off => execLdBu m d a cls off s
  | .ldH m d a cls off => execLdH m d a cls off s
  | .ldHu m d a cls off => execLdHu m d a cls off s
  | .ldW m d a cls off => execLdW m d a cls off s
  | .ldWu m d a cls off => execLdWu m d a cls off s
  | .ldD m d a cls off => execLdD m d a cls off s
  | .stB m d a cls off => execStB m d a cls off s
  | .stH m d a cls off => execStH m d a cls off s
  | .stW m d a cls off => execStW m d a cls off s
  | .stD m d a cls off => execStD m d a cls off s
  | .ldqB m d a cls off => execLdqB m d a cls off s
  | .ldqBu m d a cls off => execLdqBu m d a cls off s
  | .ldqH m d a cls off => execLdqH m d a cls off s
  | .ldqHu m d a cls off => execLdqHu m d a cls off s
  | .ldqW m d a cls off => execLdqW m d a cls off s
  | .ldqWu m d a cls off => execLdqWu m d a cls off s
  | .ldqD m d a cls off => execLdqD m d a cls off s
  | .ldqAcq m d a scope => execLdqAcq m d a scope s
  | .stRel m d a scope => execStRel m d a scope s
  | .pop m => execPop m s
  | .amoAdd m d a b scope => execAmoAdd m d a b scope s
  | .amoAnd m d a b scope => execAmoAnd m d a b scope s
  | .amoOr m d a b scope => execAmoOr m d a b scope s
  | .amoXor m d a b scope => execAmoXor m d a b scope s
  | .amoMin m d a b scope => execAmoMin m d a b scope s
  | .amoMax m d a b scope => execAmoMax m d a b scope s
  | .amoMinu m d a b scope => execAmoMinu m d a b scope s
  | .amoMaxu m d a b scope => execAmoMaxu m d a b scope s
  | .cas m d a b scope => execCas m d a b scope s
  | .amoSwap m d a b scope => execAmoSwap m d a b scope s
  | .amoBadd m d a b scope => execAmoBadd m d a b scope s
  | .fence m cmask scope => execFence m cmask scope s
  | .semWait m t k cnt lim => execSemWait m t k cnt lim s
  | .semPost m t k cnt => execSemPost m t k cnt s
  | .semRd m t k d => execSemRd m t k d s
  | .ringDecl m t g h ns => execRingDecl m t g h ns s
  | .ringWait m t g cnt lim => execRingWait m t g cnt lim s
  | .ringRel m t g cnt => execRingRel m t g cnt s
  | .ringWp m t g d => execRingWp m t g d s
  | .barArrive m b => execBarArrive m b s
  | .barWait m b lim => execBarWait m b lim s
  | .barSync m b lim => execBarSync m b lim s
  | .waitvEq m dw a b lim => execWaitvEq m dw a b lim s
  | .waitvNe m dw a b lim => execWaitvNe m dw a b lim s
  | .waitvLt m dw a b lim => execWaitvLt m dw a b lim s
  | .waitvGe m dw a b lim => execWaitvGe m dw a b lim s
  | .waitvLtu m dw a b lim => execWaitvLtu m dw a b lim s
  | .waitvGeu m dw a b lim => execWaitvGeu m dw a b lim s
  | .tmask m a => execTmask m a s
  | .epatch m e t f go a => execEpatch m e t f go a s
  | .ebind m e t h slot => execEbind m e t h slot s
  | .eissue m e t => execEissue m e t s
  | .efence m e all lim => execEfence m e all lim s
  | .egen m d => execEgen m d s
  | .estat m e d tile => execEstat m e d tile s
  | .tmplLd m e t a => execTmplLd m e t a s
  | .tmplSt m e t a => execTmplSt m e t a s
  | .hLd m h x cls => execHLd m h x cls s
  | .hSt m h x cls => execHSt m h x cls s
  | .hSet m h x f => execHSet m h x f s
  | .hGet m h x f => execHGet m h x f s
  | .hAdv m h x f => execHAdv m h x f s
  | .hMov m h x => execHMov m h x s
  | .hClr m h => execHClr m h s
  | .xlate m a wr => execXlate m a wr s
  | .spawn m a b => execSpawn m a b s
  | .taskDone m => execTaskDone m s
  | .validSet m a => execValidSet m a s
  | .trigPost m d a b => execTrigPost m d a b s
  | .trigCancel m d b => execTrigCancel m d b s
  | .trigQuery m d b => execTrigQuery m d b s
  | .ctrAdd m a b => execCtrAdd m a b s
  | .ctrRd m d a => execCtrRd m d a s
  | .remSt m d a b => execRemSt m d a b s
  | .remSig m a b => execRemSig m a b s
  | .remAmoAdd m d a b => execRemAmoAdd m d a b s
  | .remAmoAnd m d a b => execRemAmoAnd m d a b s
  | .remAmoOr m d a b => execRemAmoOr m d a b s
  | .remAmoXor m d a b => execRemAmoXor m d a b s
  | .remAmoMin m d a b => execRemAmoMin m d a b s
  | .remAmoMax m d a b => execRemAmoMax m d a b s
  | .remAmoMinu m d a b => execRemAmoMinu m d a b s
  | .remAmoMaxu m d a b => execRemAmoMaxu m d a b s
  | .remAmoSwap m d a b => execRemAmoSwap m d a b s
  | .remAmoBadd m d a b => execRemAmoBadd m d a b s
  | .rdtick m d => execRdtick m d s
  | .rdframe m d => execRdframe m d s
  | .rdtime m d => execRdtime m d s
  | .bfx m d a pos len => execBfx m d a pos len s
  | .bfi m d a pos len => execBfi m d a pos len s
  | .sel m d a b p sense => execSel m d a b p sense s
  | .madd m d a b c => execMadd m d a b c s
  | .cvtIF m d a u rm => execCvtIF m d a u rm s
  | .cvtFI m d a u rm => execCvtFI m d a u rm s
  | .cvtFBf m d a rm => execCvtFBf m d a rm s
  | .cvtBfF m d a rm => execCvtBfF m d a rm s
  | .hint m hh v => execHint m hh v s
  | .pwL t go f v => execPwL t go f v s
  | .pwM t go f v => execPwM t go f v s
  | .pwV t go f v => execPwV t go f v s
  | .pwS t go f v => execPwS t go f v s
  | _ => issueWord [] trapIllegal s

/-- Which of the positions d[22:18], a[17:13], b[12:8] a word uses as scalar register fields (R121). -/
def stepsAt : Instr → Bool × Bool × Bool
  | .xrd .. => (true, false, false)
  | .li .. => (true, false, false)
  | .lih .. => (true, false, false)
  | .psave .. => (true, false, false)
  | .rdtick .. => (true, false, false)
  | .rdframe .. => (true, false, false)
  | .rdtime .. => (true, false, false)
  | .xwr .. => (false, true, false)
  | .xset .. => (false, true, false)
  | .xclr .. => (false, true, false)
  | .tlbi .. => (false, true, false)
  | .cmpiEq .. => (false, true, false)
  | .cmpiNe .. => (false, true, false)
  | .cmpiLt .. => (false, true, false)
  | .cmpiGe .. => (false, true, false)
  | .cmpiLtu .. => (false, true, false)
  | .cmpiGeu .. => (false, true, false)
  | .pload .. => (false, true, false)
  | .xlate .. => (false, true, false)
  | .validSet .. => (false, true, false)
  | .add .. => (true, true, true)
  | .sub .. => (true, true, true)
  | .mul .. => (true, true, true)
  | .mulh .. => (true, true, true)
  | .mulhu .. => (true, true, true)
  | .div .. => (true, true, true)
  | .divu .. => (true, true, true)
  | .rem .. => (true, true, true)
  | .remu .. => (true, true, true)
  | .and .. => (true, true, true)
  | .or .. => (true, true, true)
  | .xor .. => (true, true, true)
  | .andn .. => (true, true, true)
  | .shl .. => (true, true, true)
  | .shr .. => (true, true, true)
  | .sra .. => (true, true, true)
  | .min .. => (true, true, true)
  | .max .. => (true, true, true)
  | .minu .. => (true, true, true)
  | .maxu .. => (true, true, true)
  | .fadd .. => (true, true, true)
  | .fsub .. => (true, true, true)
  | .fmul .. => (true, true, true)
  | .fdiv .. => (true, true, true)
  | .fmin .. => (true, true, true)
  | .fmax .. => (true, true, true)
  | .fsgnj .. => (true, true, true)
  | .fma .. => (true, true, true)
  | .amoAdd .. => (true, true, true)
  | .amoAnd .. => (true, true, true)
  | .amoOr .. => (true, true, true)
  | .amoXor .. => (true, true, true)
  | .amoMin .. => (true, true, true)
  | .amoMax .. => (true, true, true)
  | .amoMinu .. => (true, true, true)
  | .amoMaxu .. => (true, true, true)
  | .cas .. => (true, true, true)
  | .amoSwap .. => (true, true, true)
  | .amoBadd .. => (true, true, true)
  | .trigPost .. => (true, true, true)
  | .remSt .. => (true, true, true)
  | .remAmoAdd .. => (true, true, true)
  | .remAmoAnd .. => (true, true, true)
  | .remAmoOr .. => (true, true, true)
  | .remAmoXor .. => (true, true, true)
  | .remAmoMin .. => (true, true, true)
  | .remAmoMax .. => (true, true, true)
  | .remAmoMinu .. => (true, true, true)
  | .remAmoMaxu .. => (true, true, true)
  | .remAmoSwap .. => (true, true, true)
  | .remAmoBadd .. => (true, true, true)
  | .sel .. => (true, true, true)
  | .madd .. => (true, true, true)
  | .clz .. => (true, true, false)
  | .ctz .. => (true, true, false)
  | .popc .. => (true, true, false)
  | .addi .. => (true, true, false)
  | .andi .. => (true, true, false)
  | .ori .. => (true, true, false)
  | .xori .. => (true, true, false)
  | .shli .. => (true, true, false)
  | .shri .. => (true, true, false)
  | .srai .. => (true, true, false)
  | .fsqrt .. => (true, true, false)
  | .fabs .. => (true, true, false)
  | .fneg .. => (true, true, false)
  | .fclass .. => (true, true, false)
  | .ldB .. => (true, true, false)
  | .ldBu .. => (true, true, false)
  | .ldH .. => (true, true, false)
  | .ldHu .. => (true, true, false)
  | .ldW .. => (true, true, false)
  | .ldWu .. => (true, true, false)
  | .ldD .. => (true, true, false)
  | .stB .. => (true, true, false)
  | .stH .. => (true, true, false)
  | .stW .. => (true, true, false)
  | .stD .. => (true, true, false)
  | .ldqB .. => (true, true, false)
  | .ldqBu .. => (true, true, false)
  | .ldqH .. => (true, true, false)
  | .ldqHu .. => (true, true, false)
  | .ldqW .. => (true, true, false)
  | .ldqWu .. => (true, true, false)
  | .ldqD .. => (true, true, false)
  | .ldqAcq .. => (true, true, false)
  | .stRel .. => (true, true, false)
  | .ctrRd .. => (true, true, false)
  | .bfx .. => (true, true, false)
  | .bfi .. => (true, true, false)
  | .cvtIF .. => (true, true, false)
  | .cvtFI .. => (true, true, false)
  | .cvtFBf .. => (true, true, false)
  | .cvtBfF .. => (true, true, false)
  | .cmpEq .. => (false, true, true)
  | .cmpNe .. => (false, true, true)
  | .cmpLt .. => (false, true, true)
  | .cmpGe .. => (false, true, true)
  | .cmpLtu .. => (false, true, true)
  | .cmpGeu .. => (false, true, true)
  | .fcmpEq .. => (false, true, true)
  | .fcmpLt .. => (false, true, true)
  | .fcmpLe .. => (false, true, true)
  | .fcmpUn .. => (false, true, true)
  | .waitvEq .. => (false, true, true)
  | .waitvNe .. => (false, true, true)
  | .waitvLt .. => (false, true, true)
  | .waitvGe .. => (false, true, true)
  | .waitvLtu .. => (false, true, true)
  | .waitvGeu .. => (false, true, true)
  | .spawn .. => (false, true, true)
  | .ctrAdd .. => (false, true, true)
  | .remSig .. => (false, true, true)
  | .semRd .. => (false, false, true)
  | .ringWp .. => (false, false, true)
  | .trigCancel .. => (true, false, true)
  | .trigQuery .. => (true, false, true)
  | _ => (false, false, false)

/-- A MEM-format word, whose off6 is stepped in place of b (R121). -/
def stepsOffset (w : Nat) : Bool :=
  let mj := w / 2 ^ 26
  mj == 0x13 || mj == 0x14 || (mj == 0x15 && decide (w / 2 ^ 6 % 8 < 7))

/-- A word whose second pair register b + 1 is checked too (R76). -/
def pairBase : Instr → Bool
  | .cas .. => true
  | .amoBadd .. => true
  | .remAmoBadd .. => true
  | _ => false

/-- The conditions that make a word illegal only when it issues (R56, R163). -/
def legalNow (s : State) : Instr → Bool
  | .xrd _ _ xr => ctlReadable xr s
  | .xwr _ _ xr => ctlWritable xr s
  | .xset _ _ xr => ctlWritable xr s
  | .xclr _ _ xr => ctlWritable xr s
  | .tlbi .. => stBit s.me.xstatus 1
  | _ => true

/-- A field stepped j times (R121), an exact integer. -/
def stepped (w lo : Nat) (used : Bool) (step : BitVec 3) (j : Nat) : Int :=
  (bits w lo 5 : Nat) + if used then step.toInt * j else 0

/-- The steps of a rep word. -/
def stepsOf : Instr → Option (BitVec 3 × BitVec 3 × BitVec 3)
  | .rep _ _ sd sa sb => some (sd, sa, sb)
  | .repImm _ _ sd sa sb => some (sd, sa, sb)
  | _ => none

/-- Iteration j of word w, which decodes to i, with the steps of its rep word (R121): the illegal conditions, then the
allotment, then the stepped word's own effect. The offending word in xtval is the repeated word as fetched (log 67). -/
def iterate (w : Nat) (i : Instr) (sd sa sb : BitVec 3) (s : State) : Host.Outcome State Fault Refusal :=
  let j := (s.me.xrep >>> 32).toNat
  let use := stepsAt i
  let d := stepped w 18 use.1 sd j
  let a := stepped w 13 use.2.1 sa j
  let b := stepped w 8 use.2.2 sb j
  let off : Int := sx w 6 + sb.toInt * j
  let n := s.me.allot
  let bad (u : Bool) (v : Int) : Bool := u && (decide (v < 0) || decide ((n : Int) ≤ v))
  let fails := [(use.1, d), (use.2.1, a), (use.2.2, b), (pairBase i, b + 1)].find? fun x => bad x.1 x.2
  if legalNow s i = false ∨ (pairBase i = true ∧ b = 0) ∨ (stepsOffset w = true ∧ (off < -32 ∨ 31 < off)) then
    issueWord [] trapIllegal s
  else match fails with
    | some x => issueWord [] (fun s => trap s 0x02 (BitVec.ofInt 16 x.2) (s.cur.word.setWidth 64)) s
    | none =>
      let w1 := setBits (setBits (setBits w 18 5 (if use.1 then d.toNat else bits w 18 5)) 13 5
        (if use.2.1 then a.toNat else bits w 13 5)) 8 5 (if use.2.2 then b.toNat else bits w 8 5)
      let w2 := if stepsOffset w then setBits w1 0 6 (off % 64).toNat else w1
      match decode (BitVec.ofNat 32 w2) with
      | .ok i' => execRepeated i' s
      | .error _ => issueWord [] trapIllegal s

/-- The next iteration of the repetition under way (R122, R123): the rep word and the repeated word are fetched again. -/
def execRepIteration (s : State) : Host.Outcome State Fault Refusal :=
  if s.me.inRep = false then .next s
  else match fetch s s.cur.c s.me.pc with
    | none => issueWord [] (fun s => trapFetch s s.me.pc) s
    | some rw =>
      match (decode rw).toOption.bind stepsOf with
      | none => .next (s.modMe fun t => { t with inRep := false })
      | some (sd, sa, sb) =>
        match fetch s s.cur.c (s.me.pc + 4) with
        | none => issueWord [] (fun s => trapFetch s (s.me.pc + 4)) s
        | some w =>
          let s1 := { s with cur := { s.cur with word := w } }
          match decode w with
          | .ok i => if repeatable w then iterate w.toNat i sd sa sb s1 else issueWord [] trapIllegal s1
          | .error _ => issueWord [] trapIllegal s1

/-- A word with no instruction (R79): the illegal-instruction trap with the word in xtval. -/
def execUnassignedEncoding (s : State) : Host.Outcome State Fault Refusal := issueWord [] trapIllegal s

end Sys2Proof.Machine
end

