-- ==== Sys2Proof/Machine/FrontEnd.lean ====
section
/-! DEFINITION. Submission queues, packets and ranking (11 R308 to R317), copy packets (11 R315), and the accesses that
front ends and island agents make in a context's memory (11 R311, 12 R347). -/

namespace Sys2Proof.Machine

/-! Accesses of front ends and island agents. -/

/-- A fault-queue entry of a front end or an island agent (R346). -/
def agentEntry (x : Fin 64) (code : BitVec 8) (write : Bool) (va : W) : FaultEntry :=
  { code := code, write := write, src := 2, ctx := x, cluster := 0, unit := 0, tile := 0, operand := 0, va := va, seq := 0, n := 0,
    agent := none }

/-- The entry of one agent (R346): two that fault alike each enter their own. -/
def FaultEntry.by_ (e : FaultEntry) (f : FaultSource) : FaultEntry := { e with agent := some (.source f) }

/-- It reaches a die's firmware core, once while it waits; it leaves when firmware has dealt with it (R347). -/
def State.frontFault (s : State) (d : Die) (e : FaultEntry) : State := if (s.faultq.get d).contains e then s else s.addFault d e
def State.dropFault (s : State) (d : Die) (e : FaultEntry) : State :=
  { s with faultq := s.faultq.set d.val ((s.faultq.get d).filter (· ≠ e)), islandFaults := s.islandFaults.filter (· ≠ e) }

/-- Translation of a device virtual address of 55 bits (R340). -/
def agentTranslate (s : State) (x : Fin 64) (va : W) (rd wr : Bool) (req : Option (BitVec 9)) : State × Except (BitVec 8) Nat :=
  if va.toNat < 2 ^ 55 then translateIsland s x va.toNat rd wr req else (s, .error 0x20)

/-- A range cut at line boundaries: first addresses and lengths. -/
def linePieces : Nat → W → Nat → List (W × Nat)
  | 0, _, _ => []
  | k + 1, a, n =>
    if n = 0 then [] else
    let m := min n (64 - a.toNat % 64)
    (a, m) :: linePieces k (a + BitVec.ofNat 64 m) (n - m)

def readPieces (x : Fin 64) (req : Option (BitVec 9)) : List (W × Nat) → State → State × Except FaultEntry (List Byte)
  | [], s => (s, .ok [])
  | (a, n) :: r, s =>
    match agentTranslate s x a true false req with
    | (s1, .error k) => (s1, .error (agentEntry x k false a))
    | (s1, .ok pa) =>
      match readPieces x req r s1 with
      | (s2, .ok bs) => (s2, .ok (readHome s1 pa n ++ bs))
      | z => z

/-- Reads n bytes of a context's memory, ascending; the fault of the first page that has none. -/
def readVirt (s : State) (x : Fin 64) (req : Option (BitVec 9)) (a : W) (n : Nat) : State × Except FaultEntry (List Byte) :=
  readPieces x req (linePieces (n / 64 + 2) a n) s

def writePieces (x : Fin 64) : List (W × Nat) → List Byte → State → State × Option FaultEntry
  | [], _, s => (s, none)
  | (a, n) :: r, bs, s =>
    match agentTranslate s x a false true none with
    | (s1, .error k) => (s1, some (agentEntry x k true a))
    | (s1, .ok pa) => writePieces x r (bs.drop n) (writeHome s1 pa (bs.take n))

/-- Writes bytes to a context's memory, ascending; the fault that stops it. -/
def writeVirt (s : State) (x : Fin 64) (a : W) (bs : List Byte) : State × Option FaultEntry :=
  writePieces x (linePieces (bs.length / 64 + 2) a bs.length) bs s

/-! The queue table (R308, R309). -/

def blankQueue : SubQueue where
  d := ⟨0, 0, 0, 0, 0, 0, false, false, 0, 0, 0, 0⟩
  state := .disabled
  olap := 0
  flap := 0
  taken := none
  open_ := []
  skip := none
  mirror := none

def State.queue (s : State) (i : Nat) : SubQueue := tabGet s.queues i blankQueue
def State.setQueue (s : State) (i : Nat) (q : SubQueue) : State := { s with queues := tabSet s.queues i q }
def State.modQueue (s : State) (i : Nat) (g : SubQueue → SubQueue) : State := s.setQueue i (g (s.queue i))

/-- Slots of a queue: 2^lgn. -/
def SubQueue.slots (q : SubQueue) : Nat := 2 ^ q.d.lgn
def SubQueue.lap (q : SubQueue) : BitVec 32 := BitVec.ofNat 32 (q.d.ridx.toNat / q.slots)

/-- A message-signalled interrupt of the queue, when it asks for them (R308, R335). -/
def notify (q : SubQueue) (s : State) : State := if q.d.mv then { s with msix := s.msix ++ [q.d.msi] } else s

/-- The mirror of the read index is written (R311); on a fault it waits. -/
def writeMirror (i : Nat) (s : State) : State :=
  let q := s.queue i
  if q.d.rmir = 0 then s
  else match writeVirt s q.d.ctx q.d.rmir (bytesOf 8 q.d.ridx.toNat) with
    | (s1, none) => s1.modQueue i fun z => { z with mirror := none }
    | (s1, some e) =>
      let e' := e.by_ (.mirror i)
      (s1.modQueue i fun z => { z with mirror := some (q.d.ridx, e') }).frontFault q.d.die e'

/-- QUEUE_TABLE_WRITE (R308, R309): the leader writes a descriptor; a queue that is being reset stays so. -/
def execQueueTableWrite (i : Fin 1024) (w : FromLeader QueueDesc) (s : State) : Host.Outcome State Fault Refusal :=
  let q := s.queue i.val
  let r := w.what
  let st := if q.state = .resetting then .resetting
    else if r.en ∧ 6 ≤ r.lgn ∧ r.lgn ≤ 16 then .active else .disabled
  let s1 := s.setQueue i.val { q with d := r, state := st }
  .next (if s.heeds w.term = false then s else if r.ridx ≠ q.d.ridx ∨ q.state = .halted then writeMirror i.val s1 else s1)

/-! Taking a packet (R311, R312). -/

/-- A fault on the write index or a slot: the queue's later turns wait. -/
def queueFault (s : State) (i : Nat) (e : FaultEntry) : State :=
  (s.modQueue i fun q => { q with skip := some (e.by_ (.queue i)) }).frontFault (s.queue i).d.die (e.by_ (.queue i))

/-- The queue halts on an overrun, or on a fault that stays unresolved (R311). -/
def haltQueue (s : State) (i : Nat) (expected found : BitVec 32) : State :=
  notify (s.queue i) (s.modQueue i fun q => { q with state := .halted, olap := expected, flap := found, skip := none })

/-- A packet of the queue has completed. -/
def completePacket (s : State) (i : Nat) (index : W) : State := s.modQueue i fun q => { q with open_ := q.open_.filter (· ≠ index) }

/-- A packet is taken in its lap: the read index goes on, the mirror follows, the packet goes to its unit. -/
def takePacket (s : State) (i : Fin 1024) (ws : List W) : State :=
  let q := s.queue i.val
  let ri := q.d.ridx
  let type := bits (ws.headD 0).toNat 0 4
  let next : List Work :=
    if type = 1 then [.launchPacket i] else if type = 2 then [.copyPacket i] else if type = 3 then [.noOpPacket i] else []
  let s1 := s.setQueue i.val
    { q with
      d := { q.d with ridx := ri + 1 }
      taken := if type ≤ 3 then some (ws, ri) else none
      open_ := if type ≤ 3 then q.open_ ++ [ri] else q.open_ }
  let s2 := writeMirror i.val s1
  { s2 with todo := next ++ s2.todo }

/-- The front end of the queue's die may take a packet now. -/
def mayTake (s : State) (q : SubQueue) : Bool :=
  q.state == .active && q.skip.isNone && q.taken.isNone && s.dieRuns q.d.die && decide ((s.die q.d.die).ranked.length < 256)
    && s.ckpt == .idle

/-- QUEUE_TAKE (R311): one turn of a queue. -/
def execQueueTake (i : Fin 1024) (s : State) : Host.Outcome State Fault Refusal :=
  let q := s.queue i.val
  let x := q.d.ctx
  if mayTake s q = false then .next s
  else match readVirt s x none q.d.widx 8 with
  | (s1, .error e) => .next (queueFault s1 i.val e)
  | (s1, .ok w) =>
    if ofBytes w ≤ q.d.ridx.toNat then .next s1
    else match readVirt s1 x none (q.d.base + BitVec.ofNat 64 (64 * (q.d.ridx.toNat % q.slots))) 64 with
    | (s2, .error e) => .next (queueFault s2 i.val e)
    | (s2, .ok bs) =>
      let ws := wordsOf bs
      let h := (ws.headD 0).toNat
      let lap : BitVec 32 := BitVec.ofNat 32 (bits h 32 32)
      if bits h 0 4 = 0 ∨ lap = q.lap - 1 then .next s2
      else if lap ≠ q.lap then .next (haltQueue s2 i.val q.lap lap)
      else if bits h 4 1 = 1 ∧ q.open_ ≠ [] then .next s2
      else .next (takePacket s2 i ws)

/-- The packet the queue has handed on, when it is of a type. -/
def SubQueue.handed (q : SubQueue) (type : Nat) : Option (List W × W) := q.taken.filter fun p => bits (p.1.headD 0).toNat 0 4 == type

/-- NO_OP_PACKET (R312): it completes when it is taken. -/
def execNoOpPacket (i : Fin 1024) (s : State) : Host.Outcome State Fault Refusal :=
  match (s.queue i.val).handed 3 with
  | some p => .next (completePacket (s.modQueue i.val fun q => { q with taken := none }) i.val p.2)
  | none => .next s

/-! Rank programs (R316). -/

/-- A 32-bit word's major code. -/
def majorOf (w : BitVec 32) : Nat := w.toNat / 2 ^ 26

/-- The scratch machine a rank program runs on: one strand with 16 registers. -/
def rankMachine (s : State) (regs : List W) : State :=
  let t : Strand := { Strand.reset with
    state := .run, xstatus := 0x100, regs := Vector.ofFn fun i => (regs[i.val]?).getD 0 }
  { s with cores := s.cores.set 0 { Core.reset with strands := Core.reset.strands.set 0 t }, cur := ⟨0, 0, 0⟩ }

/-- One scalar word on the scratch machine; its results have landed before the next. -/
def rankWord (w : BitVec 32) (i : Instr) (s : State) : Option State :=
  match execRepeated i { s with cur := ⟨0, 0, w⟩ } with
  | .next s1 => if (s1.strand 0 0).state = .run then some (s1.modStrand 0 0 fun t => { t with flights := [], qDue := 0 }) else none
  | _ => none

/-- Runs a program from word i on: every transfer goes forward. -/
def rankRun (ws : List (BitVec 32)) : Nat → Nat → State → State
  | 0, _, s => s
  | n + 1, i, s =>
    match ws[i]? with
    | none => s
    | some w => match decode w with
      | .ok (.halt _) => s
      | .ok (.br _ p sense d) => rankRun ws n (if (p == 0 || (s.strand 0 0).preds.getLsbD p.toNat) != sense then i + d.toNat else i + 1) s
      | .ok x => match rankWord w x s with
        | some s1 => rankRun ws n (i + 1) s1
        | none => s
      | .error _ => s

/-- A word that a rank program may hold: of the majors listed, its fields below s16. -/
def rankAccepts (s : State) (w : BitVec 32) : Bool :=
  let m := majorOf w
  match decode w with
  | .ok (.halt _) => true
  | .ok (.nop _) => true
  | .ok (.br _ _ _ d) => !d.msb && d != 0
  | .ok x => (decide (1 ≤ m ∧ m ≤ 0xb) || decide (0x25 ≤ m ∧ m ≤ 0x27)) && (rankWord w x (rankMachine s [])).isSome
  | .error _ => false

/-- RANK_PROGRAM_INSTALL (R316): a program that breaks a condition leaves the slot as it was. -/
def execRankProgramInstall (d : Die) (slot : Fin 8) (ws : List (BitVec 32)) (s : State) : Host.Outcome State Fault Refusal :=
  .next (if ws.length ≤ 32 ∧ ws.all (rankAccepts s) = true then s.modDie d fun x => { x with programs := tabSet x.programs slot.val ws }
    else s)

/-! Launch packets (R313). -/

def Launch.word (l : Launch) (i : Nat) : Nat := ((l.packet[i]?).getD 0).toNat
def Launch.header (l : Launch) : Nat := l.word 0
def Launch.deadline (l : Launch) : Nat := l.word 2
def Launch.key (l : Launch) : Option (BitVec 9) :=
  if bits l.header 7 1 = 1 then some (BitVec.ofNat 9 (bits l.header 8 9)) else none
def Launch.budget (l : Launch) : Nat := bits (l.word 6) 32 16

/-- The slack in nanoseconds (R316): saturated; the greatest when there is no deadline. -/
def Launch.slack (l : Launch) (now : W) : Int :=
  if l.deadline = 0 then 2 ^ 63 - 1
  else max (-(2 ^ 63)) (min (2 ^ 63 - 1) ((l.deadline : Int) - now.toNat - bits (l.word 6) 0 32))

/-- A launch's rank at this moment (R316): its queue's program, the empty one where none is installed. -/
def rankNow (s : State) (l : Launch) : Int :=
  let q := (s.queue l.queue.val).d
  let age := (s.xtime - l.taken).toNat / 1000
  let regs : List W := [0, 0, 0, BitVec.ofInt 64 (l.slack s.xtime), BitVec.ofNat 64 (bits (l.word 7) 0 8), BitVec.ofNat 64 age,
    BitVec.ofNat 64 l.queue.val, q.qprio.setWidth 64, BitVec.ofNat 64 l.ctx.val]
  let prog := tabGet (s.die l.die).programs q.rp.val []
  (((rankRun prog 33 0 (rankMachine s regs)).strand 0 0).regs.get 3).toInt

/-- A launch as its packet enters the ranked queue. -/
def newLaunch (s : State) (i : Fin 1024) (ws : List W) (index : W) : Launch where
  id := s.made
  packet := ws
  index := index
  queue := i
  die := (s.queue i.val).d.die
  ctx := (s.queue i.val).d.ctx
  phase := .ranked
  taken := s.xtime
  rank := 0
  nodes := []
  outstanding := 0
  placed := 0
  started := false
  rejectedSpawns := 0
  reefed := false
  status := none
  validity := 0
  doneAtReef := 0
  tAdmit := 0
  tPlace := 0
  tReef := 0
  slipSum := 0
  slipLog := none
  events := []
  consumed := none
  faulted := false
  replayed := false
  purging := false
  offChip := false
  clustersDone := true
  recordWait := none

/-- LAUNCH_PACKET (R313, R317): the launch is ranked and joins the ranked queue of its die. -/
def execLaunchPacket (i : Fin 1024) (s : State) : Host.Outcome State Fault Refusal :=
  match (s.queue i.val).handed 1 with
  | some p =>
    let l := newLaunch s i p.1 p.2
    let s1 := s.modQueue i.val fun q => { q with taken := none }
    .next ({ s1 with launches := s1.launches ++ [{ l with rank := rankNow s l }], made := s1.made + 1, launched := true }.modDie l.die
      fun d => { d with ranked := d.ranked ++ [l.id] })
  | none => .next s

/-- The waiting launches of a die. -/
def State.isRanked (s : State) (d : Die) (l : Launch) : Bool := (s.die d).ranked.contains l.id

/-- RERANK (R317): at the die's interval, every waiting entry anew. -/
def execRerank (d : Die) (s : State) : Host.Outcome State Fault Refusal :=
  let now := tickOf s.cycle
  .next (if now < (s.die d).rerankAt then s
    else { s with launches := s.launches.map fun l => if s.isRanked d l then { l with rank := rankNow s l } else l }.modDie d
      fun x => { x with rerankAt := now + 600 * x.rerankUs })

/-! Copy packets (R315). -/

/-- What one byte of an island agent's access came to; of poison, the unit and the address. -/
inductive AgentByte where
  | byte (s : State) (b : Byte)
  | fault (s : State) (e : FaultEntry)
  | refused (s : State) (why : Nat)
  | poison (s : State) (unit : Nat) (addr : W)
  | hold (s : State)

/-- An aperture address of space 6 (R249). -/
def isPeerAddr (a : W) : Bool := bits a.toNat 60 4 == 0xe

/-- A peer access that an island agent makes in a class by a space-6 address. -/
def agentPeer (s : State) (who : FaultSource) (x : Fin 64) (cls : Nat) (a : W) (op : PeerOp) : State × PeerAns :=
  peerAccess { s with fresh := s.fresh + 1 } (.source who) x cls (BitVec.ofNat 12 (bits a.toNat 48 12)) (BitVec.ofNat 4 (bits a.toNat 44 4))
    (bits a.toNat 0 44) op

/-- What a peer's answer is to a byte; poison there is device memory's (R400). -/
def AgentByte.ofPeer (a : W) (b : Byte) (r : State × PeerAns) : AgentByte :=
  match r.2 with
  | .data bs => .byte r.1 (bs.headD 0)
  | .done => .byte r.1 b
  | .wait => .hold r.1
  | .refused k => .refused r.1 k
  | .poisoned _ => .poison r.1 4 a
  | .old _ => .byte r.1 b

/-- A byte of a source: device virtual, or at a peer. -/
def agentIn (s : State) (who : FaultSource) (x : Fin 64) (cls : Nat) (a : W) : AgentByte :=
  if isPeerAddr a then .ofPeer a 0 (agentPeer s who x cls a (.read 1))
  else match agentTranslate s x a true false none with
    | (s1, .error k) => .fault s1 ((agentEntry x k false a).by_ who)
    | (s1, .ok pa) => match s1.poisonedIn pa 1 with
      | some l => .poison s1 (unitAt (64 * l)) a
      | none => .byte s1 (s1.byte pa)

/-- A byte to a destination, after `run` others in ascending order. -/
def agentOut (s : State) (who : FaultSource) (x : Fin 64) (cls : Nat) (a : W) (b : Byte) (run : Nat) : AgentByte :=
  if isPeerAddr a then .ofPeer a b (agentPeer s who x cls a (.write [b]))
  else match agentTranslate s x a false true none with
    | (s1, .error k) => .fault s1 ((agentEntry x k true a).by_ who)
    | (s1, .ok pa) => .byte (s1.putByte pa b run) b

def CopyJob.word (j : CopyJob) (i : Nat) : W := (j.packet[i]?).getD 0
def CopyJob.length (j : CopyJob) : Nat := bits (j.word 3).toNat 0 48
def CopyJob.tag (j : CopyJob) : BitVec 16 := BitVec.ofNat 16 (bits (j.word 6).toNat 48 16)

/-- An address a copy packet may not name (R315): another aperture space. -/
def otherAperture (a : W) : Bool := a.msb && !isPeerAddr a

/-- A malformed copy packet. -/
def CopyJob.malformed (j : CopyJob) : Bool :=
  otherAperture (j.word 1) || otherAperture (j.word 2) || decide ((j.word 4).toNat % 8 ≠ 0)

def State.ctxOfQueue (s : State) (q : Fin 1024) : Fin 64 := (s.queue q.val).d.ctx

/-- The copy job of a queue that runs: the oldest. -/
def State.copyJob? (s : State) (q : Fin 1024) : Option CopyJob := s.copies.find? (·.queue == q)
def State.putCopy (s : State) (j : CopyJob) : State :=
  { s with copies := s.copies.map fun z => if z.queue = j.queue ∧ z.index = j.index then j else z }
def State.dropCopy (s : State) (j : CopyJob) : State :=
  { s with copies := s.copies.filter fun z => !(z.queue == j.queue && z.index == j.index) }

/-- A copy ends: its completion doubleword, then its packet is complete. A fault on the doubleword is waited for. -/
def finishCopy (s : State) (j : CopyJob) (status : Nat) : State :=
  let x := s.ctxOfQueue j.queue
  let v := BitVec.ofNat 64 (status * 2 ^ 56 + bits (j.word 5).toNat 0 56)
  match writeVirt s x (j.word 4 &&& ~~~7) (bytesOf 8 v.toNat) with
  | (s1, none) => completePacket (s1.dropCopy j) j.queue.val j.index
  | (s1, some e) =>
    let e' := e.by_ (.copy j.queue.val)
    (s1.putCopy { j with stopped := some status, waits := some e' }).frontFault (s.queue j.queue.val).d.die e'

/-- The event of consumption by something other than a strand (R290, R403): the unit and the address. -/
def consumerEvent (s : State) (unit : Nat) (addr : W) : LaunchEvent :=
  ⟨0, false, ⟨s.cycle, 0, BitVec.ofNat 64 (unit * 2 ^ 16 + 0x122), 0, addr, false, false⟩⟩

/-- Moves up to n more bytes of a copy; each is read and written for buffer 0 (R345). -/
def copyBytes (x : Fin 64) : Nat → CopyJob → State → State × CopyJob × Option AgentByte
  | 0, j, s => (s, j, none)
  | n + 1, j, s =>
    if j.length ≤ j.moved then (s, j, none)
    else match agentIn s (.copy j.queue.val) x 0 (j.word 1 + BitVec.ofNat 64 j.moved) with
    | .byte s1 b => match agentOut s1 (.copy j.queue.val) x 0 (j.word 2 + BitVec.ofNat 64 j.moved) b j.moved with
      | .byte s2 _ => copyBytes x n { j with moved := j.moved + 1 } (s2.countBuffer (s.queue j.queue.val).d.die x 0 2 0)
      | r => (s1, j, some r)
    | r => (s, j, some r)

/-- One turn of the copy engine on a job: to the next 4 KiB boundary of the copy, or to its end. -/
def copyTurn (s : State) (j : CopyJob) : State :=
  let x := s.ctxOfQueue j.queue
  match j.stopped with
  | some st => finishCopy s j st
  | none =>
    if j.malformed then finishCopy s j 5
    else match copyBytes x (4096 - j.moved % 4096) j s with
    | (s1, j1, none) => if j1.length ≤ j1.moved then finishCopy s1 j1 0 else s1.putCopy j1
    | (_, j1, some (.refused s1 _)) => finishCopy s1 j1 3
    | (_, j1, some (.fault s1 e)) => (s1.putCopy { j1 with waits := some e }).frontFault (s.queue j.queue.val).d.die e
    | (_, j1, some (.poison s1 u a)) => beginPurge (s1.putCopy j1) x j.tag (consumerEvent s1 u a) (decide (u ≠ 4))
    | (_, j1, some (.hold s1)) => s1.putCopy j1
    | (s1, j1, some (.byte ..)) => s1.putCopy j1

/-- A purge of a copy's context and tag is under way (R402): a copy that has not been stopped is held. -/
def CopyJob.purged (s : State) (j : CopyJob) : Bool :=
  j.stopped.isNone && s.purges.any fun p => p.ctx == s.ctxOfQueue j.queue && p.tag == j.tag

/-- COPY_PACKET (R315): a packet handed on becomes a job; the oldest job of the queue goes on. -/
def execCopyPacket (i : Fin 1024) (s : State) : Host.Outcome State Fault Refusal :=
  let s1 : State := match (s.queue i.val).handed 2 with
    | some p => { s.modQueue i.val fun q => { q with taken := none } with
        copies := s.copies ++ [CopyJob.mk i p.1 p.2 0 none none] }
    | none => s
  match s1.copyJob? i with
  | some j => .next (if j.waits.isSome ∨ j.purged s = true ∨ s.ckpt ≠ .idle ∨ (s.queue i.val).state = .resetting then s1 else copyTurn s1 j)
  | none => .next s1

end Sys2Proof.Machine
end

