-- ==== Sys2Proof/Machine/Blocks.lean ====
section
/-! DEFINITION. Control blocks: their fields (06 R168 to R175), window addresses (06 R176, R174), which operands an operator
uses and what it accepts (07 R198, R203, R205 to R241), and the checks of a block at issue and at start (06 R184). -/

namespace Sys2Proof.Machine

/-! Fields. -/

def fld (f : Block) (i : Nat) : Nat := ((f[i]?).getD 0).toNat
def fbits (f : Block) (i lo len : Nat) : Nat := bits (fld f i) lo len

def opOf (f : Block) : Nat := fbits f 0 0 8
def ndimOf (f : Block) : Nat := fbits f 0 8 3
def ftzOf (f : Block) : Bool := fbits f 0 13 1 == 1
def satOf (f : Block) : Bool := fbits f 0 14 1 == 1
def rmOf (f : Block) : Nat := fbits f 0 16 3
def clsOf (f : Block) : Nat := fbits f 0 19 4

/-- ext[j] of R176. -/
def extOf (f : Block) (j : Nat) : Nat := if j < ndimOf f then fbits f (4 + j) 0 32 else 1
def totalOf (f : Block) : Nat := ((List.range 6).map (extOf f)).prod
def rowsOf (f : Block) : Nat := totalOf f / extOf f 0

/-- The index vector of linear number n (R176, R200): d0 fastest. -/
def indexOf (f : Block) (n : Nat) : List Nat :=
  ((List.range 6).foldl (fun a j => (a.1 ++ [a.2 % max 1 (extOf f j)], a.2 / max 1 (extOf f j))) (([] : List Nat), n)).1

/-- Operand descriptors (R172): o is 0 D, 1 A, 2 B. -/
def tyOf (f : Block) (o : Nat) : Nat := fbits f (11 + 4 * o) 0 4
def spaceOf (f : Block) (o : Nat) : Nat := fbits f (11 + 4 * o) 4 3
def swzOf (f : Block) (o : Nat) : Nat := fbits f (11 + 4 * o) 8 3
def strideOf (f : Block) (o j : Nat) : Int := sx (fbits f (12 + 4 * o + j / 3) (21 * (j % 3)) 21) 21

/-- The base with the per-tile step, in the unit of type ty (R176). -/
def baseOf (f : Block) (o : Nat) (t : Tl) (ty : Nat) : Int :=
  fld f (10 + 4 * o) + t.val * (if ty = 5 then 128 else 64) * sx (fbits f 29 (16 * o) 16) 16

/-- An address modulo 2^64. -/
def wrap64 (a : Int) : Nat := (a % (2 ^ 64 : Nat)).toNat

/-- addr of R176, with the strides scaled for type ty. -/
def addrAs (f : Block) (o : Nat) (i : List Nat) (t : Tl) (ty : Nat) : Nat :=
  wrap64 (baseOf f o t ty + ((List.range (ndimOf f)).map fun j => (((i[j]?).getD 0 : Nat) : Int) * strideOf f o j * unitOf ty).sum)

def addrOf (f : Block) (o : Nat) (i : List Nat) (t : Tl) : Nat := addrAs f o i t (tyOf f o)

/-- The swizzle of R174 on a byte address. -/
def swizzle (swz space a : Nat) : Nat :=
  if space ≤ 1 ∧ 1 ≤ swz ∧ swz ≤ 4 then setBits a 6 5 (bits a 6 5 ^^^ bits a (10 + swz) 5) else a

/-- Element a + k of a run of contiguous elements, in the unit of type ty. -/
def stepAddr (a : Nat) (k : Int) (ty : Nat) : Nat := wrap64 (a + k * unitOf ty)

/-! Types. -/

/-- The float and integer types of R214. -/
def fltTypes : List Nat := [0, 1, 2, 3, 4]
def intTypes : List Nat := [6, 7, 8, 9, 10, 11]
/-- The types cvt converts (R216). -/
def cvtTypes : List Nat := [0, 1, 2, 3, 4, 5, 6, 7, 8, 9, 10, 11]
def wideTypes : List Nat := [0, 1, 2]
/-- The types wload and mma read (R207, R208). -/
def setTypes : List Nat := [1, 2, 3, 4, 5, 6]

/-! Operators (R198 Table 1). Codes: M 1 mma, 2 mma.z, 3 mma.chain, 4 wload, 5 acc.zero, 6 acc.ld; V as Table 1; L and S
1 copy, 2 gather, 3 scatter, 4 scatter.bkt, 5 fill, 6 acopy, 7 signal, 8 prefetch, 9 ctr.post. -/

def opKnown (e : Eng) (op : Nat) : Bool :=
  match e with
  | .m => decide (1 ≤ op ∧ op ≤ 6)
  | .v => decide (1 ≤ op ∧ op ≤ 0xc) || decide (0x10 ≤ op ∧ op ≤ 0x15) || decide (0x18 ≤ op ∧ op ≤ 0x1a) ||
      decide (0x20 ≤ op ∧ op ≤ 0x24) || decide (0x28 ≤ op ∧ op ≤ 0x2c)
  | _ => decide (1 ≤ op ∧ op ≤ 9)

/-- The operands a block uses (R172, R198), its parameters as they stand. -/
def usedOps (e : Eng) (f : Block) : List Nat :=
  let op := opOf f
  match e with
  | .m => if op ≤ 3 then [0, 1] else if op = 4 then [2] else if op = 5 then [0] else [0, 1]
  | .v =>
    if op ≤ 6 then (if fbits f 22 0 1 = 1 then [0, 1] else [0, 1, 2])
    else if op = 0xb ∨ op = 0xc ∨ op = 0x15 then [0, 1, 2]
    else if op = 0x1a then (if fbits f 22 0 1 = 1 then [0, 1, 2] else [0, 1])
    else if op = 0x20 ∨ op = 0x2c then [1]
    else if op = 0x28 then
      (if fbits f 22 1 1 = 1 then [0] else []) ++ [1] ++ if fbits f 22 0 1 = 1 then [2] else []
    else if op = 0x2a then [0]
    else if op = 0x2b then (if fbits f 22 1 1 = 1 then [0, 1, 2] else [0, 1])
    else [0, 1]
  | _ => if op = 1 ∨ op = 6 then [0, 1] else if op ≤ 4 then [0, 1, 2] else if op = 5 ∨ op = 7 then [0] else [1]

/-- The operator takes stochastic rounding (R198, column SR). -/
def srOk (e : Eng) (op : Nat) : Bool :=
  match e with
  | .m => false
  | .v => decide (op ≤ 0xc) || decide (0x18 ≤ op ∧ op ≤ 0x1a) || decide (0x21 ≤ op ∧ op ≤ 0x24)
  | _ => decide (op ≤ 4) || op == 6

/-- The operand spaces an operator accepts (R203; R222 for acc.rd). -/
def spaceOk (e : Eng) (op o sp : Nat) : Bool :=
  match e with
  | .m => if o = 0 ∨ op = 3 then sp == 2 else sp == 0 || sp == 1 || sp == 3
  | .v => if op = 0x20 then sp == 0 || sp == 3 else if op = 0x1a ∧ o = 1 then sp == 2 else sp == 0 || sp == 2 || sp == 3
  | _ => decide (sp ≤ 6)

/-! What the issue checks know of a weight set (R209). -/

/-- The class of a type as wload records it: 1 integer, 2 floating. -/
def setClass (ty : Nat) : Nat := if ty = 6 then 1 else 2

/-- Class, block-scale flag and type of a set as the most recent wload on the queue that loads anything (R177) will leave it;
none without one. -/
def setAhead (y : Tile) (k : Nat) : Option (Nat × Bool × Nat) :=
  match (y.queue .m).entries.reverse.find? (fun b => opOf b.f == 4 && fbits b.f 22 10 1 == k && totalOf b.f != 0) with
  | some b => some (setClass (tyOf b.f 2), fbits b.f 22 11 1 == 1, tyOf b.f 2)
  | none =>
    let w := y.sets.get (Fin.ofNat 2 k)
    if w.cls = 0 then none else some (w.cls, w.bs, w.ty)

/-- Reason 2 for mma, mma.z and mma.chain (R206, R208 to R210). -/
def mmaTypesOk (y : Tile) (f : Block) : Bool :=
  let a := tyOf f 1
  let d := tyOf f 0
  let b := tyOf f 2
  let chain := opOf f == 3
  let float := chain || a != 6
  setTypes.contains b &&
    (if chain then a == 0 && d == 0 else setTypes.contains a && d == (if a = 6 then 8 else 0)) &&
    (chain || fbits f 22 11 1 == 0 || a == 4 || a == 5) &&
    match setAhead y (fbits f 22 10 1) with
    | some (cls, _, ty) => b == ty && (if float then cls == 2 else cls == 1)
    | none => true

/-- The used operands are all of one class of R214. -/
def oneClass (f : Block) (os : List Nat) : Bool :=
  os.all (fun o => fltTypes.contains (tyOf f o)) || os.all fun o => intTypes.contains (tyOf f o)

/-- The types that the vector engine moves within a row (R214, R219): neither E2M1 nor Z-scale. -/
def rowTypes : List Nat := fltTypes ++ intTypes

/-- copy's type rules (R233). -/
def copyTypes (d a : Nat) : Bool := (d == a && decide (d ≤ 13)) || (cvtTypes.contains d && cvtTypes.contains a)

/-- acopy's type rules (R238). -/
def acopyTypes (d a cop : Nat) : Bool :=
  decide (d ≤ 12) && decide (a ≤ 12) && d != 5 && a != 5 && isFloatTy d == isFloatTy a &&
    !(isFloatTy d && decide (3 ≤ cop ∧ cop ≤ 5))

def indexTypes : List Nat := [8, 10, 11]

/-- The used operands have types the operator accepts (reason 2). Where an entry names none they are the model's (DESIGN CHOICE, log
69): acc.rd's D any float or integer type of R214 and its B, the scale, a float type (R222); bcast's and perm's D and A of any two
row types, and INT64 to itself in bcast alone (R219); a reduction's and a scan's D of A's class (R217). -/
def typesOk (y : Tile) (e : Eng) (f : Block) : Bool :=
  let op := opOf f
  let d := tyOf f 0
  let a := tyOf f 1
  let b := tyOf f 2
  (usedOps e f).all (fun o => decide (tyOf f o ≤ 13)) &&
    match e with
    | .m =>
      if op ≤ 3 then mmaTypesOk y f
      else if op = 4 then setTypes.contains b && (fbits f 22 11 1 == 0 || b == 4 || b == 5)
      else if op = 5 then d == 0 || d == 8
      else (d == 0 && wideTypes.contains a) || (d == 8 && (a == 8 || a == 7))
    | .v =>
      if op ≤ 9 ∨ op = 0xb ∨ (0x10 ≤ op ∧ op ≤ 0x13) then oneClass f (usedOps e f)
      else if op = 0xa then cvtTypes.contains d && cvtTypes.contains a
      else if op = 0xc then [d, a, b].all fltTypes.contains
      else if op = 0x14 then (d == a && d == 12) || (rowTypes.contains d && rowTypes.contains a)
      else if op = 0x15 then rowTypes.contains d && rowTypes.contains a && [7, 8, 10, 11].contains b
      else if op = 0x18 then (d == 4 || d == 5) && wideTypes.contains a
      else if op = 0x19 then wideTypes.contains d && (a == 4 || a == 5)
      else if op = 0x1a then
        (a == 0 || a == 8) && (fltTypes.contains d || intTypes.contains d) && (fbits f 22 0 1 == 0 || fltTypes.contains b)
      else if op = 0x20 then true
      else if op ≤ 0x24 then wideTypes.contains a && (fltTypes.contains d || intTypes.contains d)
      else if op = 0x28 then [8, 10, 11].contains a && (fbits f 22 1 1 == 0 || d == 10 || d == 11)
      else if op = 0x29 then a == 8 && d == 11
      else if op = 0x2a then fltTypes.contains d || intTypes.contains d
      else if op = 0x2b then [0, 8, 11].contains a && d == a && (fbits f 22 1 1 == 0 || [0, 8, 11].contains b)
      else [7, 8, 10, 11].contains a
    | _ =>
      if op = 1 then copyTypes d a
      else if op = 2 ∨ op = 4 then copyTypes d a && indexTypes.contains b
      else if op = 3 then
        indexTypes.contains b && if fbits f 22 33 1 = 1 then acopyTypes d a (fbits f 22 36 3) else copyTypes d a
      else if op = 6 then acopyTypes d a (fbits f 22 36 3)
      else if op = 7 then d == 12 || d == 8 || d == 11
      else true

/-! Parameters (reason 11). -/

/-- An auxiliary table of n bytes reaches beyond the scratchpad (R203). -/
def auxBad (base n : Nat) : Bool := decide (0xc0000 < base + n)

/-- Lowest and highest offset of a window, in elements, leaving out d0 when asked. -/
def spanOf (f : Block) (o : Nat) (drop0 : Bool) : Int × Int :=
  ((List.range (ndimOf f)).filter fun j => !(drop0 && j == 0)).foldl (fun a j =>
    let x := (((extOf f j : Nat) : Int) - 1) * strideOf f o j
    (a.1 + min x 0, a.2 + max x 0)) (0, 0)

/-- wload's capacity of a type in rows (R205). -/
def capacityOf (ty : Nat) : Nat := if ty = 5 then 512 else if ty = 1 ∨ ty = 2 then 128 else 256

/-- Words of the scale tables of qblk and dqblk (R220). -/
def blocksOf (f : Block) : Nat := rowsOf f * ((extOf f 0 + 31) / 32)

def mmaParamsBad (y : Tile) (f : Block) : Bool :=
  let kw := fbits f 22 0 10
  let bs := fbits f 22 11 1 == 1
  let chain := opOf f == 3
  let setBs := match setAhead y (fbits f 22 10 1) with
    | some (_, b, _) => b
    | none => false
  kw == 0 || decide ((if chain then 128 else 512) < kw) || ((bs || setBs) && kw % 32 != 0)
    || (chain && (bs || fbits f 22 12 4 == 0 || decide (4 < fbits f 22 12 4)))
    || (!chain && bs && auxBad (fbits f 23 0 20 / 2 * 2) (2 * (totalOf f * kw / 32)))

/-- A parameter is reserved or reaches out of the scratchpad (reason 11). The bias row of acc.rd counts as 128 words whatever ext[0] is
(R222; DESIGN CHOICE, log 69). -/
def paramsBad (y : Tile) (e : Eng) (f : Block) : Bool :=
  let op := opOf f
  match e with
  | .m =>
    let kw := fbits f 22 0 10
    let bs := fbits f 22 11 1 == 1
    if op ≤ 3 then mmaParamsBad y f
    else if op = 4 then
      kw == 0 || decide (capacityOf (tyOf f 2) < kw)
        || (bs && (kw % 32 != 0 || auxBad (fbits f 23 0 20 / 2 * 2) (256 * (kw / 32))))
    else false
  | .v =>
    if op = 0xc then fbits f 22 4 3 == 7
    else if op = 0x18 ∨ op = 0x19 then auxBad (fbits f 23 0 20) (2 * blocksOf f)
    else if op = 0x1a then
      decide (2 ≤ fbits f 22 2 2) || (fbits f 22 1 1 == 1 && auxBad (fbits f 24 0 20 / 4 * 4) 512)
    else if op = 0x28 then
      let nb := fbits f 22 16 13
      nb == 0 || decide (4096 < nb) || auxBad (fbits f 23 0 20 / 4 * 4) (4 * nb)
    else if op = 0x29 then
      fbits f 22 0 1 == 0 && (fbits f 23 0 16 == 0 || fbits f 23 16 16 == 0 || fbits f 23 32 16 == 0)
    else if op = 0x2b then
      let p : Int := (fbits f 23 0 20 : Nat)
      let w := spanOf f 0 false
      fbits f 22 1 1 == 1 && totalOf f != 0 && (decide (p + 4 * w.1 < 0) || decide (0xc0000 < p + 4 * w.2 + 4))
    else false
  | _ =>
    if op = 3 then decide (6 ≤ fbits f 22 36 3)
    else if op = 4 then
      let nb := fbits f 22 48 13
      nb == 0 || decide (4096 < nb) || auxBad (fbits f 23 0 20 / 4 * 4) (4 * nb)
    else if op = 6 then decide (6 ≤ fbits f 22 36 3)
    else if op = 9 then decide (8192 < fbits f 22 0 13 + totalOf f)
    else false

/-- The auxiliary tables of a block in the tile's scratchpad (R203): offset, bytes, whether the block writes it. -/
def auxTables (e : Eng) (f : Block) : List (Nat × Nat × Bool) :=
  let op := opOf f
  let kw := fbits f 22 0 10
  let bs := fbits f 22 11 1 == 1
  match e with
  | .m =>
    if bs && decide (op ≤ 2) then [(fbits f 23 0 20 / 2 * 2, 2 * (totalOf f * kw / 32), false)]
    else if bs && op == 4 then [(fbits f 23 0 20 / 2 * 2, 256 * (kw / 32), false)] else []
  | .v =>
    if op = 0x18 ∨ op = 0x19 then [(fbits f 23 0 20, 2 * blocksOf f, op == 0x18)]
    else if op = 0x1a ∧ fbits f 22 1 1 = 1 then [(fbits f 24 0 20 / 4 * 4, 512, false)]
    else if op = 0x28 then [(fbits f 23 0 20 / 4 * 4, 4 * fbits f 22 16 13, true)]
    else if op = 0x2b ∧ fbits f 22 1 1 = 1 then
      let w := spanOf f 0 false
      [(((fbits f 23 0 20 : Nat) + 4 * w.1 : Int).toNat, (4 * (w.2 - w.1) + 4).toNat, true)]
    else []
  | _ => if op = 4 then [(fbits f 23 0 20 / 4 * 4, 4 * fbits f 22 48 13, true)] else []

/-! Windows (reason 8). -/

/-- The bytes of n contiguous elements at an address: first byte and length. -/
def byteRange (a n ty : Nat) : Nat × Nat :=
  if ty = 5 then (a / 2, (a + n - 1) / 2 - a / 2 + 1) else (a, n * unitOf ty)

/-- The extreme addresses of a used operand that descriptors and parameters alone determine, each with its contiguous
elements and the type that counts them. -/
def extremes (e : Eng) (f : Block) (t : Tl) (o : Nat) : List (Nat × Nat × Nat) :=
  let op := opOf f
  let window (ty n : Nat) (drop0 : Bool) : List (Nat × Nat × Nat) :=
    let w := spanOf f o drop0
    [w.1, w.2].map fun x => (wrap64 (baseOf f o t ty + x * unitOf ty), n, ty)
  let ty := tyOf f o
  let kw := fbits f 22 0 10
  let pitch : Int := sx (fbits f 24 0 32) 32
  let row : List (Nat × Nat × Nat) := (window ty 1 false).map fun x => (x.1 / 512 * 512, 128, 0)
  let indexed : List (Nat × Nat × Nat) :=
    let lim := fbits f 22 0 32
    if lim = 0 then []
    else ([0, (lim : Int) - 1].flatMap fun j => [0, (extOf f 0 : Int) - 1].map fun i0 =>
      (wrap64 (baseOf f o t ty + (j * pitch + i0 * strideOf f o 0) * unitOf ty), 1, ty))
  match e with
  | .m =>
    if op = 4 then
      (window ty 128 false).flatMap fun x => [0, ((kw : Int) - 1) * pitch].map fun k => (wrap64 (x.1 + k * unitOf ty), 128, ty)
    else if o = 0 ∨ op = 3 then row
    else window ty (if op = 6 then 128 else kw) false
  | .v =>
    if op = 0x20 then window 11 772 false
    else if op = 0x29 ∧ o = 1 then window ty 3 false
    else if op = 0x28 ∧ o = 2 then
      (if fbits f 22 16 13 = 1 then [] else [(wrap64 (baseOf f 2 t (tyOf f 1)), fbits f 22 16 13 - 1, tyOf f 1)])
    else window ty 1 ((decide (0x10 ≤ op ∧ op ≤ 0x12) && o == 0) || (op == 0xb && o == 2) || (op == 0x14 && o == 1))
  | _ =>
    if op = 9 then window 11 1 false
    else if (op = 2 ∧ o = 1) ∨ (op = 3 ∧ o = 0) then indexed
    else if op = 4 ∧ o = 0 then []
    else window ty 1 (decide (2 ≤ op ∧ op ≤ 4) && o == 2)

/-- An operand's window lies outside its space (reason 8); a zero-trip block is not checked (R177). -/
def rangeBad (s : State) (c : Cl) (t : Tl) (e : Eng) (f : Block) (o : Nat) : Bool :=
  let sp := spaceOf f o
  decide (sp ≤ 4) && totalOf f != 0 &&
    (extremes e f t o).any fun x =>
      let r := byteRange x.1 x.2.1 x.2.2
      !inspaceEng s c sp r.1 r.2

/-! The checks of R184. -/

/-- A wait or post object of a reserved kind or with a number above 31 (reason 7). -/
def objBad (x : W) (wait : Bool) : Bool :=
  decide (5 ≤ objKind x) || (wait && objKind x == 4) || (decide (1 ≤ objKind x ∧ objKind x ≤ 3) && decide (31 < objNum x))

/-- An object on a tile that the configuration record disables (reason 12): a semaphore, a ring or a barrier; a field of kind 0 or 4
names none on a tile (R184; DESIGN CHOICE, log 69). -/
def objOff (s : State) (c : Cl) (t : Tl) (x : W) : Bool :=
  decide (1 ≤ objKind x ∧ objKind x ≤ 3) && bits x.toNat 32 1 == 0 && !s.tileOk c (objTile x t)

/-- The reason of a block fault at issue; none when every check passes (R184). -/
def issueFault (s : State) (c : Cl) (t : Tl) (e : Eng) (f : Block) : Option Nat :=
  let op := opOf f
  let y := s.tile c t
  let w : W := (f[2]?).getD 0
  let p : W := (f[3]?).getD 0
  let used := usedOps e f
  if opKnown e op = false then some 1
  else if typesOk y e f = false then some 2
  else if used.any (fun o => !spaceOk e op o (spaceOf f o)) then some 3
  else if used.any (fun o => decide (spaceOf f o ≤ 1) && decide (5 ≤ swzOf f o)) then some 4
  else if ndimOf f = 7 then some 5
  else if 6 ≤ rmOf f ∨ (rmOf f = 5 ∧ srOk e op = false) then some 6
  else if objBad w true || objBad p false then some 7
  else if used.any (rangeBad s c t e f) then some 8
  else if paramsBad y e f then some 11
  else if objOff s c t w || objOff s c t p then some 12
  else none

/-- An object names a ring that is not declared, or counts more than its slots (reason 9). -/
def ringObjBad (s : State) (c : Cl) (t : Tl) (x : W) : Bool :=
  (objKind x == 2 || objKind x == 3) &&
    let r := (s.tile c (objTile x t)).ring (BitVec.ofNat 5 (objNum x))
    !r.declared || decide (r.ns < objCount x)

/-- The check at start (R183, R184). -/
def startFault (s : State) (c : Cl) (t : Tl) (f : Block) : Option Nat :=
  if ringObjBad s c t ((f[2]?).getD 0) || ringObjBad s c t ((f[3]?).getD 0) then some 9 else none

/-- xtval of a block fault or a schedule miss (R183). -/
def blockTval (seq : BitVec 32) (t : BitVec 6) (tile : Tl) (e : Eng) : W :=
  BitVec.ofNat 64 (seq.toNat * 2 ^ 32 + t.toNat * 2 ^ 16 + tile.val * 2 ^ 8 + e.code)

end Sys2Proof.Machine
end

