-- ==== Sys2Proof/Machine/Engine.lean ====
section
/-! DEFINITION. How an engine performs the elements of a running block: operand accesses (06 R176, 07 R200 to R204, 12 R343,
R348), conversions and lanes (07 R201, R202), the row driver, and what stops a block at an element (06 R184, R185, 15
R399). -/

namespace Sys2Proof.Machine

/-- The engine that performs. -/
structure Site where
  c : Cl
  t : Tl
  e : Eng
  deriving DecidableEq, Repr

/-- Why an element does not perform: an address outside its space (reason 13); a translation or key fault (R348); poison
(R399), its line's location, the operand and the address; a fault that waits at a peer endpoint (R203), with what it entered
there. -/
inductive Halt where
  | range
  | fault (f : EntryFault)
  | poison (loc operand : Nat) (addr : W)
  | wait (faults : List FaultEntry)
  deriving DecidableEq, Repr

/-- What elements work on: the machine, the entry, the bytes its accesses in spaces 1, 4, 5 and 6 count (R345), the
ranges written while a line is poisoned (R398), the virtual addresses of the space-5 locations placed (R346); in an audit's
replay (R407), what its reads are answered with, and then nothing is placed or written. -/
structure Run where
  s : State
  b : Entry
  hot : Nat
  wrote : List (Nat × Nat)
  names : List (Nat × W)
  feed : Option (List (List Byte))

/-- The address by which the block named a location of a space. -/
def Run.nameOf (r : Run) (c : Cl) (sp a : Nat) : W := (r.names.lookup a).getD (addressIn r.s c sp a)

/-- The work of an element: it performs whole, or halts and has no effect. -/
abbrev EngM := StateT Run (Except Halt)

/-! Translation (R343): the stream TLB, 16 entries, least recently used first. -/

/-- An entry becomes the most recently used one of its engine; the oldest goes when 17 would stand. -/
def useEntry (l : List (Eng × TlbEntry)) (e : Eng) (x : TlbEntry) : List (Eng × TlbEntry) :=
  let others := l.filter (· ≠ (e, x))
  (if 16 ≤ others.countP (·.1 == e) then others.eraseP (·.1 == e) else others) ++ [(e, x)]

def translateStream (s : State) (v : Site) (va : Nat) (rd wr : Bool) : State × Except (BitVec 8) Nat :=
  let mine := ((s.tile v.c v.t).streamTlb.filter (·.1 == v.e)).map (·.2)
  match lookup s mine (s.ctxOf v.c) va rd wr (s.requestKey v.c) with
  | .ok x => ((s.entryView x va).modTile v.c v.t fun y => { y with streamTlb := useEntry y.streamTlb v.e x }, .ok (s.entryLoc x va))
  | .error k => (s, .error k)

/-! Operand accesses. -/

/-- Bytes of one element. -/
def elemBytes (ty : Nat) : Nat := unitOf ty

/-- The target of an engine window address (R249). -/
def engineTgt (s : State) (v : Site) (sp o : Nat) : Tgt :=
  if sp = 0 then .loc (spadLoc v.c v.t (o % 2 ^ 20)) 0
  else if sp = 2 then .loc (accLoc v.c v.t (o % 2 ^ 18)) 2
  else tgtOf s v.c sp o

/-- Where the element at address a of operand o lies (locate of R176): its target and, for E2M1, its nibble. The address
is checked (reason 13) and translated (R348) before the element makes any access. -/
def place (v : Site) (o ty a : Nat) (rd wr : Bool) : EngM (Tgt × Nat) := do
  let r ← get
  if r.feed.isSome then return (.loc 0 0, a % 2)
  let sp := spaceOf r.b.f o
  let byte := swizzle (swzOf r.b.f o) sp (if ty = 5 then a / 2 else a)
  if sp ≤ 5 && !inspaceEng r.s v.c sp byte (elemBytes ty) then throw .range
  match engineTgt r.s v sp byte with
  | .virt va _ =>
    match translateStream r.s v va.toNat rd wr with
    | (s1, .ok x) => set { r with s := s1, names := (x, va) :: r.names }; return (.loc x 5, a % 2)
    | (_, .error k) => throw (.fault ⟨k, va, wr, o⟩)
  | tg => return (tg, a % 2)

/-- The accesses that R345 counts. -/
def countsHot (f : Block) (o n : Nat) : Nat := if o ≤ 2 ∧ [1, 4, 5, 6].contains (spaceOf f o) then n else 0

/-- One byte into the CRC of R407 (ECMA-182, most significant bit first). -/
def crcByte (crc : BitVec 64) (b : Byte) : BitVec 64 :=
  (List.range 8).foldl (fun x _ => if x.getLsbD 63 then (x <<< 1) ^^^ 0x42f0e1eba9ea3693 else x <<< 1)
    (crc ^^^ (b.setWidth 64 <<< 56))

/-- Bytes written enter the signature of an audit, bytes read its snapshot (R407). -/
def Entry.sign (b : Entry) (bs : List Byte) : Entry := { b with audit := b.audit.map fun x => { x with crc := bs.foldl crcByte x.crc } }
def Entry.note (b : Entry) (bs : List Byte) : Entry := { b with audit := b.audit.map fun x => { x with reads := x.reads ++ [bs] } }

/-- An emit's element, at the end of a tick, is one of the tick that follows (R230). -/
def leadOf (v : Site) (f : Block) : Nat := if v.e = .v ∧ opOf f = 0x2c then 1 else 0

/-- A byte as an engine reads it in a tick: one of the accumulator store that another engine, or a strand, has written in it reads as
before (R247). -/
def State.seenByte (s : State) (v : Site) (tick a : Nat) : Byte :=
  let old := (s.tile v.c v.t).accOld
  if old.1 = tick ∧ old.2.any (fun x => x.e == some v.e && x.loc == a) = false then
    ((old.2.find? (·.loc == a)).map (·.byte)).getD (s.byte a)
  else s.byte a

/-- What a replay's next read is answered with. -/
def replayed (n : Nat) : EngM (Option (List Byte)) := do
  let r ← get
  match r.feed with
  | some (bs :: more) => set { r with feed := some more }; return some bs
  | some [] => return some (List.replicate n 0)
  | none => return none

/-- A read in a replay takes the next answer; any other reads for itself. -/
def orReplay {α : Type} (n : Nat) (use : List Byte → α) (k : EngM α) : EngM α := do
  match ← replayed n with
  | some bs => return use bs
  | none => k

/-- An element's access at a peer (R203, R204): the answer, unless it waits or is poisoned. -/
def peerElement (v : Site) (o : Nat) (ep : BitVec 12) (w : BitVec 4) (off : BitVec 44) (op : PeerOp) : EngM PeerAns := do
  let r ← get
  match peerAccess { r.s with fresh := r.s.fresh + 1 } (.element v.c v.t v.e) (r.s.ctxOf v.c) (clsOf r.b.f) ep w off.toNat op with
  | (s1, .wait) => throw (.wait s1.islandFaults)
  | (_, .poisoned _) => throw (.poison 0 o (peerAddress ep w off))
  | (s1, a) =>
    set { r with s := s1, hot := r.hot + (match a with
      | .refused _ => 0
      | _ => op.size) }
    return a

/-- Reads n bytes; none when a peer read is refused (R204). -/
def fetch? (v : Site) (o : Nat) (tg : Tgt) (n : Nat) : EngM (Option (List Byte)) := orReplay n some do
  let r ← get
  match tg with
  | .loc a sp _ =>
    if let some l := r.s.poisonedIn a n then throw (.poison (64 * l) o (r.nameOf v.c sp a))
    let bs := (List.range n).map fun i => if sp = 3 then engineByte r.s v.c (a + i) else r.s.seenByte v (tickOf r.s.cycle + leadOf v r.b.f) (a + i)
    set { r with hot := r.hot + countsHot r.b.f o n, b := r.b.note bs }
    return some bs
  | .peer ep w off =>
    match ← peerElement v o ep w off (.read n) with
    | .data bs =>
      modify fun r => { r with b := r.b.note bs }
      return some bs
    | _ => return none
  | .virt .. => return none

/-- A refused read delivers zeros (R204). -/
def fetchBytes (v : Site) (o : Nat) (tg : Tgt) (n : Nat) : EngM (List Byte) := do
  match ← fetch? v o tg n with
  | some bs => return bs
  | none =>
    let z := List.replicate n 0
    modify fun r => { r with b := r.b.note z }
    return z

/-- The entry once bytes have been written: those to D count n for a ring's write pointer (R234), all enter a signature. -/
def Entry.wroteBytes (b : Entry) (o n : Nat) (bs : List Byte) : Entry :=
  { b with wb := if o = 0 then b.wb + n else b.wb }.sign bs

/-- Bytes written to a location of this module, of which n count for a ring's write pointer and `signed` enters a signature. -/
def writeLoc (v : Site) (o a sp : Nat) (bs : List Byte) (n : Nat) (signed : List Byte) : EngM Unit := do
  let r ← get
  set { r with
    s := if r.feed.isSome then r.s else if sp = 3 then engineWrite v.c a bs r.s else writeHome r.s a bs
    b := r.b.wroteBytes o n signed
    hot := r.hot + countsHot r.b.f o bs.length
    wrote := if r.s.poison.isEmpty then r.wrote else r.wrote ++ [(a, bs.length)] }

/-- Writes bytes; a refused peer write is discarded (R204). -/
def storeBytes (v : Site) (o : Nat) (tg : Tgt) (bs : List Byte) : EngM Unit := do
  match tg with
  | .loc a sp _ => writeLoc v o a sp bs bs.length bs
  | .peer ep w off => do
    let _ ← peerElement v o ep w off (.write bs)
    modify fun r => { r with b := r.b.wroteBytes o bs.length bs }
  | .virt .. => return ()

/-- Writes one half of a byte (R216), whose second half completes it for a ring's write pointer; no read. -/
def storeNibble (v : Site) (o : Nat) (tg : Tgt) (q code : Nat) : EngM Unit := do
  let r ← get
  let signed := bytesOf 1 (code * 2 ^ (4 * q))
  match tg with
  | .loc a sp _ =>
    let old := if sp = 3 then engineByte r.s v.c a else r.s.byte a
    writeLoc v o a sp (bytesOf 1 (setBits old.toNat (4 * q) 4 code)) q signed
  | .peer ep w off => do
    let _ ← peerElement v o ep w off (.nibble (q == 1) code)
    modify fun r => { r with b := r.b.wroteBytes o q signed }
  | .virt .. => return ()

/-- The code of the element at a place, read under FTZ (R201). -/
def readCode (v : Site) (o ty : Nat) (p : Tgt × Nat) : EngM Nat := do
  let bs ← fetchBytes v o p.1 (elemBytes ty)
  let r ← get
  let x := ofBytes bs
  return flushCode (ftzOf r.b.f) ty (if ty = 5 then bits x (4 * p.2) 4 else x)

/-- Writes an element's code as bits; an E2M1 code leaves the other nibble of its byte (R216). -/
def writeCode (v : Site) (o ty : Nat) (p : Tgt × Nat) (code : Nat) : EngM Unit :=
  if ty = 5 then storeNibble v o p.1 p.2 code else storeBytes v o p.1 (bytesOf (elemBytes ty) code)

/-! Auxiliary tables in the executing tile's scratchpad (R203). -/

def auxRead (v : Site) (off n : Nat) : EngM Nat := orReplay n ofBytes do
  let r ← get
  let a := spadLoc v.c v.t (off % 2 ^ 20)
  if let some l := r.s.poisonedIn a n then throw (.poison (64 * l) 1 (apertureOf a))
  let bs := readHome r.s a n
  set { r with b := r.b.note bs }
  return ofBytes bs

def auxWrite (v : Site) (off n x : Nat) : EngM Unit :=
  storeBytes v 3 (.loc (spadLoc v.c v.t (off % 2 ^ 20)) 0) (bytesOf n x)

/-! Values (R201, R202). -/

/-- A draw of the lane of d0 index i0 (R29, R202); 0 when the block does not round stochastically. -/
def drawLane (i0 : Nat) : EngM Nat := do
  let r ← get
  if rmOf r.b.f = 5 then
    let x := lfsrNext ((r.b.lanes[i0 % 256]?).getD 1)
    set { r with b := { r.b with lanes := r.b.lanes.set (i0 % 256) x } }
    return x.toNat
  else return 0

/-- The code a value is written as (R201) under the given saturate choice, with the lane's draw (R29, R202). -/
def encodeVal (ty i0 : Nat) (sat : Bool) (x : Val) : EngM Nat := do
  let d ← if draws ty x then drawLane i0 else pure 0
  let r ← get
  return encodeWith ty (rmOf r.b.f) d sat (ftzOf r.b.f) x

/-- A value "is written to D" (R201). -/
def writeVal (v : Site) (ty : Nat) (p : Tgt × Nat) (i0 : Nat) (sat : Bool) (x : Val) : EngM Unit := do
  writeCode v 0 ty p (← encodeVal ty i0 sat x)

/-- A conversion of a value of type ta to the element of D (R32 to R34, R201). -/
def writeConv (v : Site) (ta td : Nat) (p : Tgt × Nat) (i0 : Nat) (x : Val) : EngM Unit := do
  let r ← get
  writeVal v td p i0 (convertSat ta td (satOf r.b.f) x) x

/-- The value of the element at a place. -/
def readVal (v : Site) (o ty : Nat) (p : Tgt × Nat) : EngM Val := do
  return valOf ty (← readCode v o ty p)

/-- A move of an element of A to a place of D (R201): bits between equal types, else a conversion. -/
def moveTo (v : Site) (i0 : Nat) (pa pd : Tgt × Nat) : EngM Unit := do
  let r ← get
  let ta := tyOf r.b.f 1
  let td := tyOf r.b.f 0
  let code ← readCode v 1 ta pa
  if ta = td then writeCode v 0 td pd code else writeConv v ta td pd i0 (valOf ta code)

/-! Places by the nest's addresses. -/

/-- The index vector of d0 index i0 in the entry's present row. -/
def idx (b : Entry) (i0 : Nat) : List Nat := indexOf b.f (b.n / extOf b.f 0 * extOf b.f 0 + i0)

/-- The index vector with i0 replaced. -/
def idxAt (b : Entry) (i0 : Nat) : List Nat := i0 :: (idx b 0).tail

def placeAt (v : Site) (o : Nat) (i : List Nat) (rd wr : Bool) : EngM (Tgt × Nat) := do
  let r ← get
  place v o (tyOf r.b.f o) (addrOf r.b.f o i v.t) rd wr

/-- Operand o's value at an index vector. -/
def valAt (v : Site) (o : Nat) (i : List Nat) : EngM Val := do
  let p ← placeAt v o i true false
  let r ← get
  readVal v o (tyOf r.b.f o) p

/-! Stops. -/

/-- A block fault, detected at a core cycle, reaches the entry's recorded strand (R183, R186). -/
def blockFaultTrap (s : State) (v : Site) (at_ reason : Nat) (seq : BitVec 32) (t : BitVec 6) (strand : Sn) : State :=
  s.modCore v.c (·.addAsync s.cycle strand ⟨0x0b, BitVec.ofNat 16 reason, blockTval seq t v.t v.e, at_⟩)

/-- A saturating count of 32 bits. -/
def saturate32 (x : BitVec 32) : BitVec 32 := if x = BitVec.allOnes 32 then x else x + 1

/-- An audited block that stops without completing abandons its audit (R407). -/
def abandonAudit (s : State) (c : Cl) (b : Entry) : State :=
  if b.audit.isSome then s.modDie (dieOf c) fun d => { d with audAbandoned := saturate32 d.audAbandoned } else s

/-- An entry frees its slot and counts as stopped (R184, R195). -/
def Queue.stop (q : Queue) (seq : BitVec 32) : Queue := { q with entries := q.entries.filter (·.seq ≠ seq), done := seq }

def stopEntry (s : State) (v : Site) (b : Entry) : State :=
  s.modTile v.c v.t fun y => y.setQueue v.e ((y.queue v.e).stop b.seq)

/-- An entry is replaced in its queue. -/
def putEntry (s : State) (v : Site) (b : Entry) : State :=
  s.modTile v.c v.t fun y =>
    let q := y.queue v.e
    y.setQueue v.e { q with entries := q.entries.map fun x => if x.seq = b.seq then b else x }

/-- A fault-queue entry of an engine (R346). -/
def engineFault (s : State) (v : Site) (b : Entry) (f : EntryFault) : State :=
  let e : FaultEntry :=
    { code := f.code, write := f.write, src := 1, ctx := s.ctxOf v.c, cluster := v.c, unit := v.e.code, tile := v.t.val,
      operand := f.operand, va := f.addr, seq := b.seq.setWidth 64, n := b.n, agent := none }
  s.addFault (dieOf v.c) e

/-- The event that consumption by something other than a strand reports (R290, R403): the unit and the address. -/
def poisonEvent (s : State) (unit : Nat) (addr : W) : FirstEvent := ⟨s.cycle, 0, BitVec.ofNat 64 (unit * 2 ^ 16 + 0x122), 0, addr, false, false⟩

/-- An engine element has consumed poison (R399): the entry stops at the element, and context and tag are purged. -/
def enginePoison (s : State) (v : Site) (b : Entry) (unit operand : Nat) (addr : W) : State :=
  let f : EntryFault := ⟨0x22, addr, false, operand⟩
  let s1 := engineFault (putEntry s v { b with fault := some f }) v b f
  match s.gangOf v.c with
  | some g => beginPurge s1 g.ctx (BitVec.ofNat 16 (fbits b.f 28 16 16)) ⟨v.c, false, poisonEvent s unit addr⟩ (unit ≠ 4)
  | none => s1

/-! Rows. -/

/-- How an operator performs: the d0 positions one step takes, the steps one event takes, the step, the whole ticks the event
lasts, beyond them the units of work it takes and how many of them a tick serves (R242), whether it can go on now, and what it
makes up for when it stops between elements (R348). -/
structure OpBody where
  grain : Block → Nat
  whole : Bool
  step : Site → Nat → EngM Unit
  ticks : State → Site → Entry → Nat
  share : Site → Entry → Nat × Nat := fun _ _ => (0, 1)
  clear : State → Site → Entry → Bool
  settle : Site → EngM Unit := fun _ => pure ()

/-- Steps of a row from i0 on; the entry's n follows. What stands before a halted step stays. -/
def runSteps (step : Nat → EngM Unit) (grain e0 : Nat) : Nat → Nat → Run → Run × Option Halt
  | 0, _, r => (r, none)
  | k + 1, i0, r =>
    if e0 ≤ i0 then (r, none)
    else match (step i0).run r with
      | .ok (_, r1) =>
        let g := max 1 (min grain (e0 - i0))
        runSteps step grain e0 k (i0 + g) { r1 with b := { r1.b with n := r1.b.n + g } }
      | .error h => (r, some h)

/-- Lines that the row's writes cover together lose their poison (R398). -/
def clearPoison (wrote : List (Nat × Nat)) (s : State) : State :=
  if wrote.isEmpty then s
  else { s with poison := s.poison.filter fun l =>
      !((List.range 64).all fun i => wrote.any fun w => decide (w.1 ≤ 64 * l + i) && decide (64 * l + i < w.1 + w.2)) }

/-- The bytes of the elements are counted for the block's buffer (R345); the stall ticks are open. -/
def countBytes (s : State) (v : Site) (b : Entry) (n : Nat) : State :=
  if n = 0 then s
  else
    { s with fresh := s.fresh + 1 }.countBuffer (dieOf v.c) (s.ctxOf v.c) (fbits b.f 28 0 6) n (Config.choice s.fresh 2)

/-- A ring producer of the load engine raises its ring's write pointer (R234). -/
def raiseWb (s : State) (v : Site) (b : Entry) : State :=
  let p : W := (b.f[3]?).getD 0
  if v.e = .l ∧ objKind p = 2 then
    let g : BitVec 5 := BitVec.ofNat 5 (objNum p)
    s.modTile v.c (objTile p v.t) fun y =>
      let r := y.ring g
      y.setRing g { r with wb := max r.wb (min r.z b.wb) }
  else s

/-- The entry an engine performs: the first that runs and is not held. -/
def Queue.runner (q : Queue) : Option Entry := q.entries.find? fun b => b.phase == .running

/-- The tick after the last result under way of an engine lands (R212, R231). -/
def Tile.landedBy (y : Tile) (e : Eng) : Nat :=
  (if e = .m then y.accLand else if e = .v then y.redLand else []).foldl (fun a x => max a (x.due + 1)) 0

def landedBy (s : State) (v : Site) : Nat := (s.tile v.c v.t).landedBy v.e

/-- The engines of a cluster in bin 2 step on alternate ticks (R415). -/
def stepFactor (s : State) (v : Site) : Nat := if (s.core v.c).bin = 2 then 2 else 1

/-- The last tick in which the engine acts on a step that takes `ticks`, counted from now. -/
def lastTick (s : State) (v : Site) (ticks : Nat) : Nat := tickOf s.cycle + stepFactor s v * (ticks - 1)

/-- Bytes of the tile's accumulator store that a row has changed are kept for the tick (R247). -/
def keepOld (s : State) (v : Site) (f : Block) (s1 : State) : State :=
  if (usedOps v.e f).all (spaceOf f · ≠ 2) then s1 else
  let mine (l : List Host.Cell) := l.filter fun x => decide (accLoc v.c v.t 0 ≤ x.1) && decide (x.1 < accLoc v.c v.t 0 + 0x40000)
  let cells := mine s.mem
  let cells1 := mine s1.mem
  if cells = cells1 then s1
  else
    let as := ((cells ++ cells1).map (·.1)).eraseDups.filter fun a => s.byte a ≠ s1.byte a
    s1.modTile v.c v.t fun y =>
      y.noteOld (tickOf s.cycle) (as.map fun a => ⟨some v.e, a, s.byte a⟩)

/-- What the block has read joins the snapshot in its audit cluster's vault, in the order of reading, behind the block's fields (R407;
where it lies there is the model's choice, log 69). -/
def copyReads (b b1 : Entry) (s : State) : State :=
  match b.audit, b1.audit with
  | some x, some x1 =>
    let old := x.reads.flatten.length
    let all := x1.reads.flatten
    if 256 + all.length ≤ 2 ^ 24 then writeHome s (vaultLoc x1.cluster (256 + old)) (all.drop old) else s
  | _, _ => s

/-- The engine's turn on its running entry: one row, or what one event takes of it (R200, R231, R242). -/
def runRow (s : State) (v : Site) (op : OpBody) (b : Entry) : State :=
  if b.fault.isSome ∨ tickOf s.cycle + 1 < b.ready ∨ op.clear s v b = false then s
  else
    let e0 := extOf b.f 0
    let steps := if op.whole then e0 else 1
    let r0 := runSteps (op.step v) (op.grain b.f) e0 steps (b.n % max 1 e0) ⟨s, b, 0, [], [], none⟩
    let r := if r0.2.isSome || b.cutRow then (match (op.settle v).run { r0.1 with b := { r0.1.b with audit := none } } with
      | .ok (_, x) => ({ x with b := { x.b with audit := r0.1.b.audit } }, r0.2)
      | .error h => (r0.1, some h)) else r0
    let b1 := r.1.b
    let s1 := copyReads b b1 (countBytes (clearPoison r.1.wrote (keepOld s v b.f r.1.s)) v b r.1.hot)
    match r.2 with
    | none =>
      let u := op.share v b
      let used := (b.used + u.1) % u.2
      let next := max b.ready (tickOf s.cycle) + stepFactor s v * (op.ticks s v b + (b.used + u.1) / u.2)
      let last := totalOf b.f ≤ b1.n ∨ (b1.cutRow ∧ b1.n % max 1 e0 = 0)
      raiseWb (putEntry s1 v (if last then { b1 with ready := max (if used = 0 then next else next + 1) (landedBy s1 v), phase := .ending }
        else { b1 with ready := next, used := used })) v b1
    | some .range => abandonAudit (blockFaultTrap (stopEntry (raiseWb s1 v b1) v b1) v (s.cycle + leadOf v b.f) 13 b1.seq b1.t b1.strand) v.c b1
    | some (.fault f) => engineFault (raiseWb (putEntry s1 v { b1 with fault := some f }) v b1) v b1 f
    | some (.poison loc o addr) => enginePoison (raiseWb s1 v b1) v b1 (unitAt loc) o addr
    | some (.wait fs) => { raiseWb (putEntry s1 v b1) v b1 with islandFaults := fs, fresh := s1.fresh + 1 }

/-- The event of an operator: it acts when the engine's running entry carries its code. -/
def operator (code : Nat) (op : OpBody) (c : Cl) (t : Tl) (e : Eng) (s : State) : Host.Outcome State Fault Refusal :=
  match ((s.tile c t).queue e).runner with
  | some b => .next (if opOf b.f = code then runRow s ⟨c, t, e⟩ op b else s)
  | none => .next s

end Sys2Proof.Machine
end

