-- ==== Sys2Proof/Machine/VectorOps.lean ====
section
/-! DEFINITION. The vector engine's operators (07 R213 to R231, 01 R38 to R42). -/

namespace Sys2Proof.Machine

/-! Common parts. -/

/-- An immediate in A's class (R213): FP32 bits, or an INT32 value. Under FTZ it is taken as it stands, y0 as acc.rd's scale too;
R201 flushes elements that are read, and acc.rd's bias word is one (DESIGN CHOICE, log 67: R21 speaks of inputs). -/
def imm (f : Block) (x : Nat) : Val := if isFloatTy (tyOf f 1) then .f (fp32.decode (x % 2 ^ 32)) else .i (sx x 32)

def y0 (f : Block) : Val := imm f (fbits f 23 0 32)
def y1 (f : Block) : Val := imm f (fbits f 23 32 32)

/-- Ticks of a row whose lanes take 256 elements a tick, or 512 of 16 bits or narrower (R213, R231). -/
def laneTicks (_ : State) (v : Site) (b : Entry) : Nat :=
  let w := if (usedOps v.e b.f).all (fun o => decide (typeBits (tyOf b.f o) ≤ 16)) then 512 else 256
  (extOf b.f 0 + w - 1) / w

def rowTicks (mul per add : Nat) (_ : State) (_ : Site) (b : Entry) : Nat := mul * ((extOf b.f 0 + per - 1) / per) + add

/-- Contiguous elements an operator takes of an operand at one address, and the type that counts them. -/
def runOf (f : Block) (o : Nat) : Nat × Nat :=
  let op := opOf f
  if op = 0x20 then (772, 11) else if op = 0x29 ∧ o = 1 then (3, 8) else (1, tyOf f o)

/-- The location ranges of a row's elements: of all operands but the D of a reduction, which lands later in any case. -/
def rowSpans (s : State) (v : Site) (b : Entry) : List (Nat × Nat) :=
  let f := b.f
  let op := opOf f
  let at_ (o a ty : Nat) : List (Nat × Nat) :=
    match engineTgt s v (spaceOf f o) (swizzle (swzOf f o) (spaceOf f o) (if ty = 5 then a / 2 else a)) with
    | .loc x _ _ => [(x, unitOf ty)]
    | _ => []
  let os := (usedOps .v f).filter fun o => !(o == 0 && decide (0x10 ≤ op ∧ op ≤ 0x12)) && !(op == 0x28 && o == 2)
  (os.flatMap fun o => (List.range (extOf f 0)).flatMap fun i0 =>
    let n := runOf f o
    let a := addrAs f o (idxAt b i0) v.t n.2
    (List.range n.1).flatMap fun (k : Nat) => at_ o (stepAddr a k n.2) n.2)
  ++ (if op = 0x28 ∧ fbits f 22 0 1 = 1 then
      (List.range (fbits f 22 16 13 - 1)).flatMap fun (k : Nat) =>
        at_ 2 (stepAddr (wrap64 (baseOf f 2 v.t (tyOf f 1))) k (tyOf f 1)) (tyOf f 1)
    else [])
  ++ (auxTables .v f).map fun x => (spadLoc v.c v.t x.1, x.2.1)

/-- No result of a reduction is still on its way to bytes that the row reads or writes (R167, R200, R231). -/
def rowClear (s : State) (v : Site) (b : Entry) : Bool :=
  let land := (s.tile v.c v.t).redLand
  land.isEmpty || (rowSpans s v b).all fun x => land.all fun l => decide (x.1 + x.2 ≤ l.loc) || decide (l.loc + l.bytes.length ≤ x.1)

/-- An operator of the vector engine. -/
def vectorOp (step : Site → Nat → EngM Unit) (ticks : State → Site → Entry → Nat) : OpBody :=
  { grain := fun _ => 1, whole := true, step := step, ticks := ticks, clear := rowClear }

/-! Elementwise (R214 to R216). -/

/-- D(i) := F(x, y, c) of R214; two operands where `two`, the old D or y1 as c where `three`. -/
def stepArith (two three : Bool) (fx : Nat → XVal → XVal → XVal → XVal) (fi : Int → Int → Int → Int) (v : Site) (i0 : Nat) :
    EngM Unit := do
  let r ← get
  let f := r.b.f
  let i := idx r.b i0
  let useB := two && fbits f 22 0 1 == 0
  let useD := three && fbits f 22 1 1 == 0
  let y ← if useB then valAt v 2 i else pure (y0 f)
  let x ← valAt v 1 i
  let pd ← placeAt v 0 i useD true
  let c ← if useD then readVal v 0 (tyOf f 0) pd else pure (y1 f)
  writeVal v (tyOf f 0) pd i0 (satOf f) (lift3 (fx (rmOf f)) fi x y c)

def arithOp (two three : Bool) (fx : Nat → XVal → XVal → XVal → XVal) (fi : Int → Int → Int → Int) : OpBody :=
  vectorOp (stepArith two three fx fi) laneTicks

def vAddOp : OpBody := arithOp true false (fun rm x y _ => x.add rm y) fun x y _ => x + y
def execVAdd (c : Cl) (t : Tl) (s : State) : Host.Outcome State Fault Refusal := operator 1 vAddOp c t .v s
def vSubOp : OpBody := arithOp true false (fun rm x y _ => x.add rm y.neg) fun x y _ => x - y
def execVSub (c : Cl) (t : Tl) (s : State) : Host.Outcome State Fault Refusal := operator 2 vSubOp c t .v s
def vMulOp : OpBody := arithOp true false (fun _ x y _ => x.mul y) fun x y _ => x * y
def execVMul (c : Cl) (t : Tl) (s : State) : Host.Outcome State Fault Refusal := operator 3 vMulOp c t .v s
def vFmaOp : OpBody := arithOp true true (fun rm x y z => (x.mul y).add rm z) fun x y z => x * y + z
def execVFma (c : Cl) (t : Tl) (s : State) : Host.Outcome State Fault Refusal := operator 4 vFmaOp c t .v s
def vMinOp : OpBody := arithOp true false (fun _ x y _ => xmin x y) fun x y _ => min x y
def execVMin (c : Cl) (t : Tl) (s : State) : Host.Outcome State Fault Refusal := operator 5 vMinOp c t .v s
def vMaxOp : OpBody := arithOp true false (fun _ x y _ => xmax x y) fun x y _ => max x y
def execVMax (c : Cl) (t : Tl) (s : State) : Host.Outcome State Fault Refusal := operator 6 vMaxOp c t .v s
def vAbsOp : OpBody := arithOp false false (fun _ x _ _ => if x.isNan then .nan false else x.abs) fun x _ _ => (x.natAbs : Int)
def execVAbs (c : Cl) (t : Tl) (s : State) : Host.Outcome State Fault Refusal := operator 7 vAbsOp c t .v s
def vNegOp : OpBody := arithOp false false (fun _ x _ _ => if x.isNan then .nan false else x.neg) fun x _ _ => -x
def execVNeg (c : Cl) (t : Tl) (s : State) : Host.Outcome State Fault Refusal := operator 8 vNegOp c t .v s

/-- clamp (R215): hi where lo > hi. -/
def stepClamp (v : Site) (i0 : Nat) : EngM Unit := do
  let r ← get
  let f := r.b.f
  let i := idx r.b i0
  let x ← valAt v 1 i
  let pd ← placeAt v 0 i false true
  writeVal v (tyOf f 0) pd i0 (satOf f)
    (lift3 (fun x lo hi => xmin (xmax x lo) hi) (fun x lo hi => min (max x lo) hi) x (y0 f) (y1 f))

def clampOp : OpBody := vectorOp stepClamp laneTicks
def execClamp (c : Cl) (t : Tl) (s : State) : Host.Outcome State Fault Refusal := operator 9 clampOp c t .v s

/-- cvt (R216). -/
def stepCvt (v : Site) (i0 : Nat) : EngM Unit := do
  let r ← get
  let i := idx r.b i0
  let x ← valAt v 1 i
  let pd ← placeAt v 0 i false true
  writeConv v (tyOf r.b.f 1) (tyOf r.b.f 0) pd i0 x

def vCvtOp : OpBody := vectorOp stepCvt laneTicks
def execVCvt (c : Cl) (t : Tl) (s : State) : Host.Outcome State Fault Refusal := operator 0xa vCvtOp c t .v s

/-- scale (R215): one factor a row. -/
def stepScale (v : Site) (i0 : Nat) : EngM Unit := do
  let r ← get
  let f := r.b.f
  let y ← valAt v 2 (idxAt r.b 0)
  let x ← valAt v 1 (idx r.b i0)
  let pd ← placeAt v 0 (idx r.b i0) false true
  writeVal v (tyOf f 0) pd i0 (satOf f) (lift3 (fun x y _ => x.mul y) (fun x y _ => x * y) x y x)

def scaleOp : OpBody := vectorOp stepScale laneTicks
def execScale (c : Cl) (t : Tl) (s : State) : Host.Outcome State Fault Refusal := operator 0xb scaleOp c t .v s

/-- The conditions of cmpsel (R215). -/
def selects (cond : Nat) (x y : XVal) : Bool :=
  match cond with
  | 0 => x.eqv y
  | 1 => !x.eqv y
  | 2 => x.lt y
  | 3 => x.lt y || x.eqv y
  | 4 => y.lt x
  | 5 => y.lt x || x.eqv y
  | _ => x.isNan || y.isNan

/-- cmpsel (R215). -/
def stepCmpsel (v : Site) (i0 : Nat) : EngM Unit := do
  let r ← get
  let f := r.b.f
  let i := idx r.b i0
  let pb ← placeAt v 2 i true false
  let x ← valAt v 1 i
  let pd ← placeAt v 0 i false true
  let z ← if selects (fbits f 22 4 3) x.real (y0 f).real then readVal v 2 (tyOf f 2) pb else pure (y1 f)
  writeVal v (tyOf f 0) pd i0 (satOf f) z

def cmpselOp : OpBody := vectorOp stepCmpsel laneTicks
def execCmpsel (c : Cl) (t : Tl) (s : State) : Host.Outcome State Fault Refusal := operator 0xc cmpselOp c t .v s

/-! Reductions (R217, R39, R40). -/

/-- An FP32 sum rounded to nearest even. FTZ does not flush a partial sum of redsum or of scan (DESIGN CHOICE, log 67: R35 says it
of the accumulator, and nothing says it here). -/
def addRne (a b : XVal) : XVal := fp32.decode (roundTo fp32 0 0 false (a.add 0 b)).1

/-- Element i folds into lane i mod 256, in ascending order from the identity (R40). -/
def foldLanes (op : XVal → XVal → XVal) (unit : XVal) (xs : List XVal) : List XVal :=
  (List.range 256).map fun l => (xs.zipIdx.filter fun x => x.2 % 256 == l).foldl (fun a x => op a x.1) unit

/-- The tree of R39: lanes that differ in the highest bit combine first. -/
def reduceRow (op : XVal → XVal → XVal) : Nat → List XVal → XVal
  | 0, l => l.headD .zero
  | n + 1, l => reduceRow op n (List.zipWith op (l.take (2 ^ n)) (l.drop (2 ^ n)))

/-- A result on its way to D (R231): it lands 8 ticks after the row's last tick. -/
def landResult (v : Site) (ty ticks : Nat) (p : Tgt × Nat) (code : Nat) : EngM Unit := do
  let r ← get
  let bs := bytesOf (elemBytes ty) code
  match p.1 with
  | .loc a _ _ =>
    set { r with
      s := r.s.modTile v.c v.t fun y =>
        { y with redLand := y.redLand ++ [Landing.mk (lastTick r.s v ticks + 8) a bs] }
      b := r.b.sign bs }
  | _ => return ()

def stepReduce (op : XVal → XVal → XVal) (unit : XVal) (fi : List Int → Int) (v : Site) (_ : Nat) : EngM Unit := do
  let r ← get
  let f := r.b.f
  let xs ← (List.range (extOf f 0)).mapM fun i0 => valAt v 1 (idxAt r.b i0)
  let pd ← placeAt v 0 (idxAt r.b 0) false true
  let z : Val := if isFloatTy (tyOf f 1) then .f (reduceRow op 8 (foldLanes op unit (xs.map Val.real)))
    else .i (fi (xs.map fun x => match x with
      | .i z => z
      | .f _ => 0))
  let code ← encodeVal (tyOf f 0) 0 (satOf f) z
  landResult v (tyOf f 0) ((extOf f 0 + 255) / 256) pd code

def reduceOp (op : XVal → XVal → XVal) (unit : XVal) (fi : List Int → Int) : OpBody :=
  { vectorOp (stepReduce op unit fi) (rowTicks 1 256 0) with grain := fun f => extOf f 0 }

def redsumOp : OpBody := reduceOp addRne (.fin true 0 1) List.sum
def execRedsum (c : Cl) (t : Tl) (s : State) : Host.Outcome State Fault Refusal := operator 0x10 redsumOp c t .v s
def redmaxOp : OpBody := reduceOp xmax (.inf true) fun l => l.tail.foldl max (l.headD 0)
def execRedmax (c : Cl) (t : Tl) (s : State) : Host.Outcome State Fault Refusal := operator 0x11 redmaxOp c t .v s
def redminOp : OpBody := reduceOp xmin (.inf false) fun l => l.tail.foldl min (l.headD 0)
def execRedmin (c : Cl) (t : Tl) (s : State) : Host.Outcome State Fault Refusal := operator 0x12 redminOp c t .v s

/-! scan (R218). The running value is carried as sign and magnitude, or as an FP32 code. -/

def intCarry (z : Int) : List W := [if z < 0 then 1 else 0, BitVec.ofNat 64 z.natAbs]
def carryInt (l : List W) : Int := sgnNum (l.headD 0 == 1) ((l.tail.headD 0).toNat)

def scanStart (f : Block) : Val :=
  let mx := fbits f 22 1 1 == 1
  let ty := tyOf f 1
  if isFloatTy ty then .f (if mx then .inf true else .fin true 0 1)
  else .i (if mx && signedTy ty then -(2 ^ (typeBits ty - 1) : Nat) else 0)

def stepScan (v : Site) (i0 : Nat) : EngM Unit := do
  let r ← get
  let f := r.b.f
  let i := idx r.b i0
  let mx := fbits f 22 1 1 == 1
  let acc := if i0 = 0 then scanStart f
    else if isFloatTy (tyOf f 1) then .f (fp32.decode (r.b.carry.headD 0).toNat) else .i (carryInt r.b.carry)
  let x ← valAt v 1 i
  let pd ← placeAt v 0 i false true
  let next := lift3 (fun a x _ => if mx then xmax a x else a.add 0 x) (fun a x _ => if mx then max a x else a + x) acc x x
  let next := match next with
    | .f y => Val.f (fp32.decode (roundTo fp32 0 0 false y).1)
    | n => n
  writeVal v (tyOf f 0) pd i0 (satOf f) (if fbits f 22 0 1 = 1 then acc else next)
  modify fun r => { r with b := { r.b with carry := match next with
    | .f y => [BitVec.ofNat 64 (roundTo fp32 0 0 false y).1]
    | .i z => intCarry z } }

def scanOp : OpBody := vectorOp stepScan (rowTicks 1 32 0)
def execScan (c : Cl) (t : Tl) (s : State) : Host.Outcome State Fault Refusal := operator 0x13 scanOp c t .v s

/-! bcast and perm (R219). -/

def stepBcast (v : Site) (i0 : Nat) : EngM Unit := do
  let r ← get
  let pa ← placeAt v 1 (idxAt r.b 0) true false
  let pd ← placeAt v 0 (idx r.b i0) false true
  moveTo v i0 pa pd

def bcastOp : OpBody := vectorOp stepBcast laneTicks
def execBcast (c : Cl) (t : Tl) (s : State) : Host.Outcome State Fault Refusal := operator 0x14 bcastOp c t .v s

/-- perm: an index beyond the row writes y0's low bits as bits of D's type. -/
def stepPerm (v : Site) (i0 : Nat) : EngM Unit := do
  let r ← get
  let f := r.b.f
  let pb ← placeAt v 2 (idx r.b i0) true false
  let j ← readCode v 2 (tyOf f 2) pb
  let pd ← placeAt v 0 (idx r.b i0) false true
  if extOf f 0 ≤ j then writeCode v 0 (tyOf f 0) pd (fbits f 23 0 32)
  else do
    let x ← valAt v 1 (idxAt r.b j)
    writeConv v (tyOf f 1) (tyOf f 0) pd i0 x

def permOp : OpBody := vectorOp stepPerm laneTicks
def execPerm (c : Cl) (t : Tl) (s : State) : Host.Outcome State Fault Refusal := operator 0x15 permOp c t .v s

/-! Block-scaled types (R220, R221). -/

/-- The halfword of block j of the entry's present row. -/
def scaleAt (b : Entry) (i0 : Nat) : Nat :=
  fbits b.f 23 0 20 + 2 * (b.n / extOf b.f 0 * ((extOf b.f 0 + 31) / 32) + i0 / 32)

/-- The scale of a block of values (R220). -/
def blockScale (ty : Nat) (xs : List XVal) : Nat :=
  if xs.any fun x => x.isNan || x.isInf then 0x3f8
  else
    let m := xs.foldl (fun a x => xmax a x.abs) .zero
    if m.isZero then 0
    else
      let lim := m.div ((fmtOf ty).decode (fmtOf ty).maxCode)
      ((List.range 0x3f8).find? fun k => !(zdecode k).lt lim).getD 0x3f7

def stepQblk (v : Site) (i0 : Nat) : EngM Unit := do
  let r ← get
  let f := r.b.f
  let ty := tyOf f 0
  let js := (List.range (min 32 (extOf f 0 - i0))).map (i0 + ·)
  let xs ← js.mapM fun j => do return (← valAt v 1 (idxAt r.b j)).real
  let sc := blockScale ty xs
  auxWrite v (scaleAt r.b i0) 2 sc
  let _ ← (js.zip xs).mapM fun x => do
    let pd ← placeAt v 0 (idxAt r.b x.1) false true
    if sc = 0 ∨ sc = 0x3f8 then writeCode v 0 ty pd 0
    else writeVal v ty pd x.1 true (.f (x.2.div (zdecode sc)))

def qblkOp : OpBody := { vectorOp stepQblk (rowTicks 1 256 2) with grain := fun _ => 32 }
def execQblk (c : Cl) (t : Tl) (s : State) : Host.Outcome State Fault Refusal := operator 0x18 qblkOp c t .v s

def stepDqblk (v : Site) (i0 : Nat) : EngM Unit := do
  let r ← get
  let f := r.b.f
  let x ← valAt v 1 (idx r.b i0)
  let sc ← auxRead v (scaleAt r.b i0) 2
  let pd ← placeAt v 0 (idx r.b i0) false true
  let z := zdecode (sc % 2 ^ 10)
  writeVal v (tyOf f 0) pd i0 (satOf f)
    (.f (if z.isNan then .nan false else if z.isZero then .zero else x.real.mul z))

def dqblkOp : OpBody := vectorOp stepDqblk laneTicks
def execDqblk (c : Cl) (t : Tl) (s : State) : Host.Outcome State Fault Refusal := operator 0x19 dqblkOp c t .v s

/-! acc.rd (R222). -/

def relu (x : XVal) : XVal := if x.isNan then x else if x.sign then .zero else x

def stepAccRd (v : Site) (i0 : Nat) : EngM Unit := do
  let r ← get
  let f := r.b.f
  let i := idx r.b i0
  let clr := fbits f 22 4 1 == 1
  let sc ← if fbits f 22 0 1 = 1 then valAt v 2 i else pure (.f (fp32.decode (fbits f 23 0 32)))
  let pa ← placeAt v 1 i true clr
  let pd ← placeAt v 0 i false true
  let x ← readVal v 1 (tyOf f 1) pa
  let p := x.real.mul sc.real
  let y ← if fbits f 22 1 1 = 1 then do
      let b ← auxRead v (fbits f 24 0 20 / 4 * 4 + 4 * (i0 % 128)) 4
      pure (p.add (rmOf f) (fp32.decode (flushCode (ftzOf f) 0 b)))
    else pure p
  writeVal v (tyOf f 0) pd i0 (satOf f) (.f (if fbits f 22 2 2 = 1 then relu y else y))
  if clr then writeCode v 1 (tyOf f 1) pa 0

def accRdOp : OpBody := vectorOp stepAccRd laneTicks
def execAccRd (c : Cl) (t : Tl) (s : State) : Host.Outcome State Fault Refusal := operator 0x1a accRdOp c t .v s

/-! Tables (R223 to R225, R41, R42). -/

/-- tload of one iteration: 3,088 bytes, A taken as U32. -/
def stepTload (v : Site) (i0 : Nat) : EngM Unit := do
  let r ← get
  let f := r.b.f
  let base := addrAs f 1 (idx r.b i0) v.t 11
  let ws ← (List.range 772).mapM fun (k : Nat) => do
    let p ← place v 1 11 (stepAddr base k 11) true false
    readCode v 1 11 p
  let w (k : Nat) : BitVec 32 := BitVec.ofNat 32 ((ws[k]?).getD 0)
  let slot : TableSlot := ⟨w 0, (List.range 256).map fun i => (w (4 + 3 * i), w (5 + 3 * i), w (6 + 3 * i))⟩
  modify fun r => { r with s := r.s.modTile v.c v.t fun y =>
    { y with slots := y.slots.set (fbits f 22 0 1 % 2) slot (Nat.mod_lt _ (by decide)) } }

def tloadOp : OpBody := { vectorOp stepTload (fun _ _ _ => 49) with whole := false }
def execTload (c : Cl) (t : Tl) (s : State) : Host.Outcome State Fault Refusal := operator 0x20 tloadOp c t .v s

/-- tseg of R41: segment and position. -/
def tseg (x : Nat) (h : BitVec 32) : Nat × XVal :=
  let ss := h.getLsbD 20
  let n0 := h.toNat % 256 + 1
  let nseg := if ss then min n0 128 else n0
  let ebase := bits h.toNat 8 8
  let mb := min 8 (bits h.toNat 16 4)
  let e := bits x 23 8
  let m := x % 2 ^ 23
  let raw := (e - ebase) * 2 ^ mb + m / 2 ^ (23 - mb)
  let r : Nat × XVal :=
    if e < ebase then (0, .zero)
    else if nseg ≤ raw then (nseg - 1, .fin false 1 1)
    else (raw, .fin false (m % 2 ^ (23 - mb)) (2 ^ (23 - mb)))
  (if ss ∧ bits x 31 1 = 1 then r.1 + 128 else r.1, r.2)

/-- tinterp of R42 on an FP32 code. -/
def tinterp (x : Nat) (t : TableSlot) : XVal :=
  if (fp32.decode x).isNan then .nan false
  else
    let g := tseg x t.header
    let c := (t.seg[g.1]?).getD (0, 0, 0)
    let u := addRne ((fp32.decode c.2.2.toNat).mul g.2) (fp32.decode c.2.1.toNat)
    addRne (u.mul g.2) (fp32.decode c.1.toNat)

/-- D(i) := g of A(i), given as an FP32 code, by a separate rounding. -/
def stepFunc (g : State → Site → Block → Nat → XVal) (v : Site) (i0 : Nat) : EngM Unit := do
  let r ← get
  let f := r.b.f
  let x ← valAt v 1 (idx r.b i0)
  let pd ← placeAt v 0 (idx r.b i0) false true
  writeVal v (tyOf f 0) pd i0 (satOf f) (.f (g r.s v f (roundTo fp32 0 0 false x.real).1))

def tintOp : OpBody := vectorOp (stepFunc fun s v f x =>
    tinterp x ((s.tile v.c v.t).slots.get (Fin.ofNat 2 (fbits f 22 0 1)))) laneTicks
def execTint (c : Cl) (t : Tl) (s : State) : Host.Outcome State Fault Refusal := operator 0x21 tintOp c t .v s

/-- The product of 2^(2^-i) over the bits of a fraction, i from 1 on; p is 2^(2^-(i-1)), all scaled by 2^200. -/
def expBits : Nat → Nat → Nat → Nat → Nat
  | 0, _, _, acc => acc
  | n + 1, frac, p, acc =>
    let q := isqrt (p * 2 ^ 200)
    expBits n (frac * 2 % 2 ^ 50) q (if frac * 2 / 2 ^ 50 = 1 then acc * q / 2 ^ 200 else acc)

/-- 2^x rounded to FP32 (R225). A result that is not a power of two is no tie: the approximation, good to about 190
bits, is given a half step so that it rounds as the exact value (log 36). -/
def exp2Val (x : XVal) : XVal :=
  match x with
  | .nan _ => .nan false
  | .inf s => if s then .zero else .inf false
  | .fin s n d =>
    if n * 2 ^ 26 < d then .fin false 1 1
    else if d * 160 ≤ n then (if s then .zero else .inf false)
    else
      let z : Int := sgnNum s (n * 2 ^ 50) / d
      let whole := z / (2 ^ 50 : Nat)
      let frac := (z % (2 ^ 50 : Nat)).toNat
      if frac = 0 then XVal.scaled false 1 whole
      else XVal.scaled false (2 * expBits 50 frac (2 * 2 ^ 200) (2 ^ 200) + 1) (whole - 201)

def rcpVal (x : XVal) : XVal := if x.isNan then .nan false else (XVal.fin false 1 1).div x

def rsqrtVal (x : XVal) : XVal :=
  match x with
  | .nan _ => .nan false
  | .inf s => if s then .nan false else .zero
  | .fin s n d => if n = 0 then .inf s else if s then .nan false else (XVal.fin false d n).sqrt

/-- A built-in function: its value rounded to FP32, to nearest even. -/
def builtin (g : XVal → XVal) (_ : State) (_ : Site) (_ : Block) (x : Nat) : XVal :=
  fp32.decode (roundTo fp32 0 0 false (g (fp32.decode x))).1

def exp2Op : OpBody := vectorOp (stepFunc (builtin exp2Val)) laneTicks
def execExp2 (c : Cl) (t : Tl) (s : State) : Host.Outcome State Fault Refusal := operator 0x22 exp2Op c t .v s
def rcpOp : OpBody := vectorOp (stepFunc (builtin rcpVal)) laneTicks
def execRcp (c : Cl) (t : Tl) (s : State) : Host.Outcome State Fault Refusal := operator 0x23 rcpOp c t .v s
def rsqrtOp : OpBody := vectorOp (stepFunc (builtin rsqrtVal)) laneTicks
def execRsqrt (c : Cl) (t : Tl) (s : State) : Host.Outcome State Fault Refusal := operator 0x24 rsqrtOp c t .v s

/-! Keys, cells, sequences and sorting (R226 to R230). -/

def Val.int : Val → Int
  | .i z => z
  | .f _ => 0

/-- bucket (R226): splitters are read once, at the block's first element. -/
def stepBucket (v : Site) (i0 : Nat) : EngM Unit := do
  let r ← get
  let f := r.b.f
  let nb := fbits f 22 16 13
  let ta := tyOf f 1
  let split := fbits f 22 0 1 == 1
  let ss ← if split && r.b.n == 0 then
      (List.range (nb - 1)).mapM fun (k : Nat) => do
        let p ← place v 2 ta (stepAddr (wrap64 (baseOf f 2 v.t ta)) k ta) true false
        return BitVec.ofInt 64 (← readVal v 2 ta p).int
    else pure r.b.carry
  modify fun r => { r with b := { r.b with carry := ss } }
  let x := (← valAt v 1 (idx r.b i0)).int
  let k : Nat := if split then ss.countP fun y => decide (y.toInt ≤ x)
    else (min (x / (2 ^ fbits f 22 8 5 : Nat)) ((nb : Int) - 1)).toNat
  let w := fbits f 23 0 20 / 4 * 4 + 4 * k
  let old ← auxRead v w 4
  auxWrite v w 4 (old + 1)
  if fbits f 22 1 1 = 1 then do
    let pd ← placeAt v 0 (idx r.b i0) false true
    writeVal v (tyOf f 0) pd i0 (satOf f) (.i k)

def bucketOp : OpBody := vectorOp stepBucket (rowTicks 1 16 0)
def execBucket (c : Cl) (t : Tl) (s : State) : Host.Outcome State Fault Refusal := operator 0x28 bucketOp c t .v s

/-- The key of a cell (R227). -/
def cellKey (f : Block) (x y z : Nat) : Nat :=
  if fbits f 22 0 1 = 1 then
    (x * 0x9e3779b1 % 2 ^ 32 ^^^ y * 0x85ebca77 % 2 ^ 32 ^^^ z * 0xc2b2ae3d % 2 ^ 32) / 2 ^ fbits f 22 8 5
  else
    let nx := fbits f 23 0 16
    let ny := fbits f 23 16 16
    if x < nx ∧ y < ny ∧ z < fbits f 23 32 16 then (z * ny + y) * nx + x else 0xffffffff

def stepHashcell (v : Site) (i0 : Nat) : EngM Unit := do
  let r ← get
  let f := r.b.f
  let a := addrOf f 1 (idx r.b i0) v.t
  let ws ← (List.range 3).mapM fun (k : Nat) => do
    let p ← place v 1 8 (stepAddr a k 8) true false
    readCode v 1 8 p
  let pd ← placeAt v 0 (idx r.b i0) false true
  writeCode v 0 (tyOf f 0) pd (cellKey f (ws.headD 0) (ws.tail.headD 0) (ws.tail.tail.headD 0))

def hashcellOp : OpBody := vectorOp stepHashcell laneTicks
def execHashcell (c : Cl) (t : Tl) (s : State) : Host.Outcome State Fault Refusal := operator 0x29 hashcellOp c t .v s

/-- iota (R228). -/
def stepIota (v : Site) (i0 : Nat) : EngM Unit := do
  let r ← get
  let f := r.b.f
  let pd ← placeAt v 0 (idx r.b i0) false true
  writeVal v (tyOf f 0) pd i0 (satOf f) (.i (sx (fbits f 23 0 32) 32 + r.b.n * sx (fbits f 23 32 32) 32))

def iotaOp : OpBody := vectorOp stepIota laneTicks
def execIota (c : Cl) (t : Tl) (s : State) : Host.Outcome State Fault Refusal := operator 0x2a iotaOp c t .v s

/-- One key stands before another (R229): NaNs last in both directions. -/
def keyBefore (ty : Nat) (desc : Bool) (a b : Nat) : Bool :=
  match valOf ty a, valOf ty b with
  | .i x, .i y => if desc then decide (y < x) else decide (x < y)
  | x, y =>
    if x.real.isNan then false
    else if y.real.isNan then true
    else if desc then belowF y.real x.real else belowF x.real y.real

def insertKey (before : Nat → Nat → Bool) (x : Nat × Nat) : List (Nat × Nat) → List (Nat × Nat)
  | [] => [x]
  | y :: r => if before y.1 x.1 then y :: insertKey before x r else x :: y :: r

/-- A stable sort. -/
def sortKeys (before : Nat → Nat → Bool) (l : List (Nat × Nat)) : List (Nat × Nat) := l.foldr (insertKey before) []

/-- sortnet of one group of 64 (R229). -/
def stepSortnet (v : Site) (i0 : Nat) : EngM Unit := do
  let r ← get
  let f := r.b.f
  let ty := tyOf f 1
  let pay := fbits f 22 1 1 == 1
  let js := (List.range (min 64 (extOf f 0 - i0))).map (i0 + ·)
  let xs ← js.mapM fun j => do
    let q ← if pay then do
        let pb ← placeAt v 2 (idxAt r.b j) true false
        readCode v 2 (tyOf f 2) pb
      else pure 0
    let pa ← placeAt v 1 (idxAt r.b j) true false
    return (← readCode v 1 ty pa, q)
  let _ ← (js.zip (sortKeys (keyBefore ty (fbits f 22 0 1 == 1)) xs)).mapM fun x => do
    let i := idxAt r.b x.1
    let pd ← placeAt v 0 i false true
    writeCode v 0 ty pd x.2.1
    if pay then
      auxWrite v (wrap64 (fbits f 23 0 20 + (addrOf f 0 i v.t : Int) - baseOf f 0 v.t ty)) 4 x.2.2

def sortnetOp : OpBody := { vectorOp stepSortnet (rowTicks 4 64 0) with grain := fun _ => 64 }
def execSortnet (c : Cl) (t : Tl) (s : State) : Host.Outcome State Fault Refusal := operator 0x2b sortnetOp c t .v s

/-- emit (R230): one element a tick, forwarded in the third step of the next tick's changes (R182). -/
def stepEmit (v : Site) (i0 : Nat) : EngM Unit := do
  let r ← get
  let f := r.b.f
  let x := (← valAt v 1 (idx r.b i0)).int
  let z := x * sx (fbits f 23 0 32) 32 + sx (fbits f 23 32 32) 32
  let y : Nat := if fbits f 22 0 1 = 1 then (max 0 (min 65535 z)).toNat else (z % (2 ^ 16 : Nat)).toNat
  if fbits f 31 21 1 = 1 then
    modify fun r => { r with s := r.s.modTile v.c v.t fun t =>
      { t with fwds := t.fwds ++ [(Eng.ofCode (fbits f 31 8 2), BitVec.ofNat 6 (fbits f 31 10 6), BitVec.ofNat 5 (fbits f 31 16 5),
          BitVec.ofNat 16 y)] } }

def emitOp : OpBody := { vectorOp stepEmit (fun _ _ _ => 1) with whole := false }
def execEmit (c : Cl) (t : Tl) (s : State) : Host.Outcome State Fault Refusal := operator 0x2c emitOp c t .v s

end Sys2Proof.Machine
end

