-- ==== Sys2Proof/Machine/MoveOps.lean ====
section
/-! DEFINITION. The load and store engines' operators (07 R232 to R242). -/

namespace Sys2Proof.Machine

/-! Rates (R242): the whole ticks of a row, the units of work beside them and how many units a tick serves. -/

/-- The 64-byte lines that a row touches with the operand that touches most. -/
def rowLines (v : Site) (b : Entry) : Nat :=
  (usedOps v.e b.f).foldl (fun a o =>
    let r := byteRange (addrOf b.f o (idxAt b 0) v.t) (extOf b.f 0) (tyOf b.f o)
    max a ((r.1 + r.2 + 63) / 64 - r.1 / 64)) 0

/-- 512 bytes a tick, in whole lines, where every used operand steps by one along d0, else 64 elements. -/
def moveShare (v : Site) (b : Entry) : Nat × Nat :=
  if (usedOps v.e b.f).all fun o => strideOf b.f o 0 == 1 then (rowLines v b, 8) else (extOf b.f 0, 64)

/-- Rows that an index places: 64 elements a tick, and a tick for the index. -/
def indexedTicks (_ : State) (_ : Site) (_ : Entry) : Nat := 1
def indexedShare (_ : Site) (b : Entry) : Nat × Nat := (extOf b.f 0, 64)

/-- An operator of the load and store engines. -/
def moveOperator (code : Nat) (op : OpBody) (c : Cl) (t : Tl) (e : Eng) (s : State) : Host.Outcome State Fault Refusal :=
  match e with
  | .l => operator code op c t .l s
  | .s => operator code op c t .s s
  | _ => .next s

/-- The position of an indexed operand's element, in elements of its type (R235). -/
def indexedPos (f : Block) (o j i0 : Nat) : Int := j * sx (fbits f 24 0 32) 32 + i0 * strideOf f o 0

def limOf (f : Block) : Nat := fbits f 22 0 32

/-- The position that stands for a dropped row of scatter.bkt. -/
def noRow : Nat := 2 ^ 63

/-- The byte address that element m forms for an operand, as far as indices are known: those of the row under way, and of a scatter
all; none where it makes no access. A row's own index is read at its first element, and a scatter's before any (R235). -/
def elementAddr (v : Site) (b : Entry) (o m : Nat) : Option Nat :=
  let f := b.f
  let op := opOf f
  let e0 := max 1 (extOf f 0)
  let ty := if op = 9 then 11 else tyOf f o
  let byte (a : Nat) : Nat := if ty = 5 then a / 2 else a
  let byNest : Option Nat := some (byte (addrAs f o (indexOf f m) v.t ty))
  let at_ (j : Nat) : Option Nat := some (byte (wrap64 (baseOf f o v.t ty + indexedPos f o j (m % e0) * unitOf ty)))
  let j := (b.carry.headD 0).toNat
  let here : Bool := m / e0 == b.n / e0
  match op with
  | 2 =>
    if o = 2 then (if m % e0 = 0 then byNest else none)
    else if o = 1 then (if here ∧ j < limOf f then at_ j else none)
    else if here ∧ limOf f ≤ j ∧ fbits f 22 32 1 = 0 then none else byNest
  | 3 => (b.carry.dropLast[m / e0]?).bind fun k =>
    if limOf f ≤ k.toNat ∨ o = 2 then none else if o = 0 then at_ k.toNat else byNest
  | 4 =>
    if o = 2 then (if m % e0 = 0 then byNest else none)
    else if o = 0 then (if here ∧ j ≠ noRow then at_ j else none)
    else if here ∧ j = noRow then none else byNest
  | _ => byNest

/-- The byte address of a space-5 operand's element, and that of the next element that makes an access. -/
def pagesAt (v : Site) (b : Entry) (o : Nat) : Option (Nat × Nat) :=
  let e0 := max 1 (extOf b.f 0)
  let row := b.n / e0
  let later := (b.n + 1) :: (List.range (rowsOf b.f - row - 1)).map fun k => (row + 1 + k) * e0
  if spaceOf b.f o ≠ 5 then none
  else (elementAddr v b o b.n).bind fun a =>
    (later.findSome? fun m => if m < totalOf b.f then elementAddr v b o m else none).map fun a1 => (a, a1)

/-- Behind the last element address in a page, the engine walks the next page, in element order (R242, R343). A walk that fails
installs nothing. -/
def walkAhead (v : Site) : EngM Unit := do
  let r ← get
  if r.feed.isNone then
    set { r with s := (usedOps v.e r.b.f).foldl (fun s o => match pagesAt v r.b o with
      | some (a, a1) => if a / 2 ^ 16 = a1 / 2 ^ 16 ∨ 2 ^ 55 ≤ a1 then s
          else (translateStream s v a1 (o != 0) (o == 0)).1
      | none => s) r.s }

/-- An operator's rows on the load and store engines. -/
def moveOp (step : Site → Nat → EngM Unit) (ticks : State → Site → Entry → Nat) (share : Site → Entry → Nat × Nat) : OpBody :=
  { grain := fun _ => 1, whole := true, step := fun v i0 => do
      step v i0
      walkAhead v
    ticks := ticks, share := share, clear := fun _ _ _ => true }

def noTicks (_ : State) (_ : Site) (_ : Entry) : Nat := 0

/-! Copy and fill (R233, R237). -/

def stepCopy (v : Site) (i0 : Nat) : EngM Unit := do
  let r ← get
  let pa ← placeAt v 1 (idx r.b i0) true false
  let pd ← placeAt v 0 (idx r.b i0) false true
  moveTo v i0 pa pd

def copyOp : OpBody := moveOp stepCopy noTicks moveShare

def execCopy (c : Cl) (t : Tl) (e : Eng) (s : State) : Host.Outcome State Fault Refusal :=
  moveOperator 1 copyOp c t e s

def stepFill (v : Site) (i0 : Nat) : EngM Unit := do
  let r ← get
  let pd ← placeAt v 0 (idx r.b i0) false true
  writeCode v 0 (tyOf r.b.f 0) pd (fld r.b.f 23)

def fillOp : OpBody := moveOp stepFill noTicks moveShare

def execFill (c : Cl) (t : Tl) (e : Eng) (s : State) : Host.Outcome State Fault Refusal :=
  moveOperator 5 fillOp c t e s

/-! Combining (R238). -/

/-- D := cop(D, A's code) at a place: one indivisible read and write of an element, counted once (R345); refused, it is discarded, and its lane
draws nothing (R204). -/
def combineAt (v : Site) (i0 : Nat) (pd : Tgt × Nat) (cop aty a : Nat) : EngM Unit := do
  let r ← get
  let f := r.b.f
  let td := tyOf f 0
  let draw ← if isFloatTy td && decide (cop < 3) then drawLane i0 else pure 0
  let k : Combine := ⟨td, aty, cop, rmOf f, draw, satOf f, ftzOf f⟩
  match pd.1 with
  | .peer ep w off =>
    match ← peerElement v 0 ep w off (.combine k a) with
    | .done => modify fun z => { z with b := z.b.wroteBytes 0 (elemBytes td) [] }
    | _ => modify fun z => { z with b := { z.b with lanes := r.b.lanes } }
  | tg =>
    match ← fetch? v 0 tg (elemBytes td) with
    | some bs =>
      modify fun z => { z with hot := z.hot - countsHot f 0 (elemBytes td) }
      writeCode v 0 td pd (k.apply (ofBytes bs) a)
    | none => return ()

/-- D := cop(D, A) at two places. -/
def combineTo (v : Site) (i0 : Nat) (pa pd : Tgt × Nat) : EngM Unit := do
  let r ← get
  let f := r.b.f
  combineAt v i0 pd (fbits f 22 36 3) (tyOf f 1) (← readCode v 1 (tyOf f 1) pa)

def stepAcopy (v : Site) (i0 : Nat) : EngM Unit := do
  let r ← get
  let pa ← placeAt v 1 (idx r.b i0) true false
  let pd ← placeAt v 0 (idx r.b i0) true true
  combineTo v i0 pa pd

def execAcopy (c : Cl) (t : Tl) (e : Eng) (s : State) : Host.Outcome State Fault Refusal :=
  moveOperator 6 (moveOp stepAcopy noTicks moveShare) c t e s

/-! Indexed copies (R235, R236). -/

def placeIndexed (v : Site) (o j i0 : Nat) (rd wr : Bool) : EngM (Tgt × Nat) := do
  let r ← get
  let ty := tyOf r.b.f o
  place v o ty (wrap64 (baseOf r.b.f o v.t ty + indexedPos r.b.f o j i0 * unitOf ty)) rd wr

/-- The index of the row of an index vector. -/
def readIndex (v : Site) (i : List Nat) : EngM Nat := do
  let pb ← placeAt v 2 (0 :: i.tail) true false
  let r ← get
  readCode v 2 (tyOf r.b.f 2) pb

/-- The value that a row reads at its first element and keeps. -/
def rowValue (i0 : Nat) (read : EngM Nat) : EngM Nat := do
  let r ← get
  if i0 = 0 then
    let j ← read
    modify fun r => { r with b := { r.b with carry := [BitVec.ofNat 64 j] } }
    return j
  else return (r.b.carry.headD 0).toNat

def stepGather (v : Site) (i0 : Nat) : EngM Unit := do
  let r ← get
  let f := r.b.f
  let j ← rowValue i0 (readIndex v (idx r.b 0))
  if j < limOf f then do
    let pa ← placeIndexed v 1 j i0 true false
    let pd ← placeAt v 0 (idx r.b i0) false true
    moveTo v i0 pa pd
  else if fbits f 22 32 1 = 1 then do
    let pd ← placeAt v 0 (idx r.b i0) false true
    writeCode v 0 (tyOf f 0) pd (fld f 23)

def gatherOp : OpBody := moveOp stepGather indexedTicks indexedShare

def execGather (c : Cl) (t : Tl) (e : Eng) (s : State) : Host.Outcome State Fault Refusal :=
  moveOperator 2 gatherOp c t e s

/-- Every row's index, read before the block's first element and kept; the last of the kept words is the element from
which suppressed writes are still to be made up for. -/
def scatterIndices (v : Site) : EngM (List Nat) := do
  let r ← get
  if r.b.n = 0 then
    let js ← (List.range (rowsOf r.b.f)).mapM fun k => readIndex v (indexOf r.b.f (k * extOf r.b.f 0))
    modify fun r => { r with b := { r.b with carry := js.map (BitVec.ofNat 64) ++ [0] } }
    return js
  else return r.b.carry.dropLast.map (·.toNat)

/-- The D position of element m of a scatter; none in a dropped row. -/
def scatterPos (f : Block) (js : List Nat) (m : Nat) : Option Int :=
  match js[m / max 1 (extOf f 0)]? with
  | some j => if j < limOf f then some (indexedPos f 0 j (m % max 1 (extOf f 0))) else none
  | none => none

/-- Some element of a range writes the D element that element m writes (R236). -/
def writtenIn (f : Block) (js : List Nat) (m lo hi : Nat) : Bool :=
  (scatterPos f js m).isSome && (List.range (hi - lo)).any fun k => scatterPos f js (lo + k) == scatterPos f js m

/-- The write of element m of a scatter that replaces (dup 0). -/
def scatterWrite (v : Site) (f : Block) (js : List Nat) (m : Nat) : EngM Unit := do
  let e0 := max 1 (extOf f 0)
  let pa ← placeAt v 1 (indexOf f m) true false
  let pd ← placeIndexed v 0 ((js[m / e0]?).getD 0) (m % e0) false true
  moveTo v (m % e0) pa pd

/-- An element of a scatter translates its operands whether or not it writes (R348); a write that a later one of the block
replaces does not perform (R236). -/
def stepScatter (v : Site) (i0 : Nat) : EngM Unit := do
  let js ← scatterIndices v
  let r ← get
  let f := r.b.f
  let m := r.b.n
  match scatterPos f js m with
  | none => return ()
  | some _ =>
    let combine : Bool := fbits f 22 33 1 == 1
    let pa ← placeAt v 1 (idx r.b i0) true false
    let pd ← placeIndexed v 0 ((js[m / max 1 (extOf f 0)]?).getD 0) i0 combine true
    if combine then combineTo v i0 pa pd
    else if writtenIn f js m (m + 1) (totalOf f) then return ()
    else moveTo v i0 pa pd

/-- A scatter that stops at an element performs the writes before it whose later duplicate is still to come, in element order
(R348). They draw as their lanes stand and advance none (log 67): the block's later draws, and so its values, are those of a
run without the stop. -/
def settleScatter (v : Site) : EngM Unit := do
  let r ← get
  let f := r.b.f
  let js := r.b.carry.dropLast.map (·.toNat)
  let lo := ((r.b.carry.getLast?).getD 0).toNat
  if fbits f 22 33 1 = 0 ∧ 0 < r.b.n then do
    let ms := (List.range (r.b.n - lo)).map (lo + ·)
    let _ ← ms.mapM fun m =>
      if writtenIn f js m r.b.n (totalOf f) && !writtenIn f js m (m + 1) r.b.n then do
        scatterWrite v f js m
        modify fun x => { x with b := { x.b with lanes := r.b.lanes } }
      else pure ()
    modify fun x => { x with b := { x.b with carry := x.b.carry.dropLast ++ [BitVec.ofNat 64 r.b.n] } }

def scatterOp : OpBody := { moveOp stepScatter indexedTicks indexedShare with settle := settleScatter }

def execScatter (c : Cl) (t : Tl) (e : Eng) (s : State) : Host.Outcome State Fault Refusal :=
  moveOperator 3 scatterOp c t e s

/-- scatter.bkt: the row's bucket gives its position, and counts. A bucket at or above nb drops the row. -/
def stepScatterBkt (v : Site) (i0 : Nat) : EngM Unit := do
  let r ← get
  let f := r.b.f
  let nb := fbits f 22 48 13
  let table := fbits f 23 0 20 / 4 * 4
  let pos ← rowValue i0 (do
    let b ← readIndex v (idx r.b 0)
    if nb ≤ b then return noRow
    else do
      let p ← auxRead v (table + 4 * b) 4
      auxWrite v (table + 4 * b) 4 (p + 1)
      return p)
  if pos ≠ noRow then do
    let pa ← placeAt v 1 (idx r.b i0) true false
    let pd ← placeIndexed v 0 pos i0 false true
    moveTo v i0 pa pd

/-- 16 short rows a tick (R242). -/
def bucketTicks (_ : State) (_ : Site) (b : Entry) : Nat := if extOf b.f 0 ≤ 4 then 0 else 1
def bucketShare (v : Site) (b : Entry) : Nat × Nat := if extOf b.f 0 ≤ 4 then (1, 16) else indexedShare v b

def scatterBktOp : OpBody := moveOp stepScatterBkt bucketTicks bucketShare

def execScatterBkt (c : Cl) (t : Tl) (e : Eng) (s : State) : Host.Outcome State Fault Refusal :=
  moveOperator 4 scatterBktOp c t e s

/-! signal, prefetch, ctr.post (R239 to R241). -/

def stepSignal (v : Site) (i0 : Nat) : EngM Unit := do
  let r ← get
  let f := r.b.f
  let td := tyOf f 0
  let y := fld f 23 % 2 ^ typeBits td
  if fbits f 22 0 1 = 1 then do
    let pd ← placeAt v 0 (idx r.b i0) true true
    combineAt v i0 pd 0 td y
  else do
    let pd ← placeAt v 0 (idx r.b i0) false true
    writeCode v 0 td pd y

def execSignal (c : Cl) (t : Tl) (e : Eng) (s : State) : Host.Outcome State Fault Refusal :=
  moveOperator 7 (moveOp stepSignal (fun _ _ b => extOf b.f 0) fun _ _ => (0, 1)) c t e s

/-- The stream TLB's entry for a page that a space-6 address names, when the endpoint maps it: no access is translated by it
(R203), it only holds a place (R240). -/
def peerPage (s : State) (v : Site) (ep : BitVec 12) (w : BitVec 4) (off : BitVec 44) : Option TlbEntry :=
  let x := s.ctxOf v.c
  let mapped := match s.window x ep w with
    | some d => decide (off.toNat < d.len) && w != 15 && if ep = s.endpoint then
        s.admitted d.rctx ep && (walkLeaf s d.rctx (d.rbase.toNat + off.toNat)).isSome
      else s.routed ep && Config.freeBool s.fresh 12
    | none => false
  if mapped then some ⟨x, (peerAddress ep w off).toNat / 2 ^ 16, false, nowhere, false, false, 0⟩ else none

/-- prefetch installs the page of an element of a space-5 or space-6 window, when it has a mapping; nothing else (R240). -/
def stepPrefetch (v : Site) (i0 : Nat) : EngM Unit := do
  let r ← get
  let f := r.b.f
  let a := addrOf f 1 (idx r.b i0) v.t
  let va := if tyOf f 1 = 5 then a / 2 else a
  match engineTgt r.s v (spaceOf f 1) va with
  | .virt x _ => if va < 2 ^ 55 then set { r with s := (translateStream r.s v x.toNat false false).1 }
  | .peer ep w off => match peerPage r.s v ep w off with
    | some e => set { r with s := { r.s with fresh := r.s.fresh + 1 }.modTile v.c v.t fun y => { y with streamTlb := useEntry y.streamTlb v.e e } }
    | none => set { r with s := { r.s with fresh := r.s.fresh + 1 } }
  | .loc .. => return ()

/-- The page of an A address, as prefetch tells pages apart. -/
def pageOf (f : Block) (a : Nat) : Nat := (if tyOf f 1 = 5 then a / 2 else a) / 2 ^ 16

/-- One page a tick: an element in the page of the element before takes none. -/
def prefetchTicks (_ : State) (v : Site) (b : Entry) : Nat :=
  let pages := (List.range (extOf b.f 0)).map fun i0 => pageOf b.f (addrOf b.f 1 (idxAt b i0) v.t)
  let before := if b.n = 0 then none else some (pageOf b.f (addrOf b.f 1 (indexOf b.f (b.n - 1)) v.t))
  (pages.foldl (fun a p => (if a.2 = some p then a.1 else a.1 + 1, some p)) (0, before)).1

def execPrefetch (c : Cl) (t : Tl) (e : Eng) (s : State) : Host.Outcome State Fault Refusal :=
  moveOperator 8 (moveOp stepPrefetch prefetchTicks fun _ _ => (0, 1)) c t e s

/-- ctr.post: each element is added to the next counter of the context's partition. -/
def stepCtrPost (v : Site) (i0 : Nat) : EngM Unit := do
  let r ← get
  let f := r.b.f
  let pa ← place v 1 11 (addrAs f 1 (idx r.b i0) v.t 11) true false
  let x ← readCode v 1 11 pa
  modify fun z =>
    let ctx := z.s.ctxOf v.c
    { z with s := match z.s.localCounter ctx (fbits f 22 0 13 + r.b.n) with
        | some k => addCounter k (BitVec.ofNat 64 x) z.s
        | none => countRefusal ctx z.s }

def execCtrPost (c : Cl) (t : Tl) (e : Eng) (s : State) : Host.Outcome State Fault Refusal :=
  moveOperator 9 (moveOp stepCtrPost (fun _ _ b => extOf b.f 0) fun _ _ => (0, 1)) c t e s

end Sys2Proof.Machine
end

