-- ==== Sys2Proof/Machine/StrandEvents.lean ====
section
/-! DEFINITION. What comes about on a strand between its words: landings and ends of holds (02 R64, R68, R69), accesses
performing (05 R131 to R140, 02 R54, 13 R380), waits (05 R141, R153), mailboxes and interrupts (02 R61, 09 R291, R296, 06
R186), and what firmware does with a held strand (09 R297, 12 R347). An event that is not due, or has nothing to act on,
changes nothing (log 6). -/

namespace Sys2Proof.Machine

/-! Landings and ends of holds. -/

/-- RESULT_LAND (R64): the j-th result in flight reaches its destination before its bound, but after the core cycle of its
issue, and its flags with it; LAST stays with a younger result that has landed in this core cycle (R58). A read before the
bound stays undefined. -/
def landEarly (t : Strand) (cycle j : Nat) : Strand :=
  match t.flights[j]? with
  | some x =>
    if cycle ≤ x.born then t
    else
      let fs := t.flights.set j { x with fl := none }
      match x.fl with
      | none => { t with flights := fs }
      | some f =>
        if t.lastAt = cycle ∧ j < t.lastPos then { t with flights := fs, xfflags := t.xfflags ||| f.setWidth 13 }
        else { t.landFlags (some f) with flights := fs, lastAt := cycle, lastPos := j }
  | none => t

def execResultLand (c : Cl) (k : Sn) (j : Nat) (s : State) : Host.Outcome State Fault Refusal :=
  .next (s.modStrand c k (landEarly · s.cycle j))

/-- GAP_END (R68). -/
def execGapEnd (c : Cl) (k : Sn) (s : State) : Host.Outcome State Fault Refusal :=
  .next (if (s.strand c k).gapUntil ≤ s.cycle then s.modStrand c k fun t => { t with gapUntil := 0 } else s)

/-- SWITCH_AWAY_END (R69). -/
def execSwitchAwayEnd (c : Cl) (k : Sn) (s : State) : Host.Outcome State Fault Refusal :=
  .next (if (s.strand c k).swUntil ≤ s.cycle then s.modStrand c k fun t => { t with swUntil := 0 } else s)

/-! Accesses. -/

/-- STORE_PERFORM (R131): a posted access other than a rem.st performs. -/
def execStorePerform (c : Cl) (k : Sn) (j : Nat) (s : State) : Host.Outcome State Fault Refusal :=
  match (s.strand c k).pend[j]? with
  | some p => match p.kind with
    | .move .. => .next s
    | _ => .next (if p.kind.slot?.isNone then performAt s c k j else s)
  | none => .next s

/-- What a far access came to. -/
inductive FarEnd where
  | delivered | refused | faulted
  deriving DecidableEq, Repr

/-- The entry of a slot holds a refusal. -/
def Strand.slotRefused (t : Strand) (slot : BitVec 3) : Bool :=
  match (t.flq[(slot - t.flqHead).toNat]?).map FlqEntry.res with
  | some (FlqResult.refused _ _) => true
  | _ => false

/-- The j-th access, a far one, performs now, if that comes to the given end (R53, R54, R135). -/
def farEnd (want : FarEnd) (c : Cl) (k : Sn) (j : Nat) (s : State) : State :=
  match (s.strand c k).pend[j]? with
  | none => s
  | some p => match p.kind.slot? with
    | none => s
    | some slot =>
      if canPerform s c k j then
        match translateOlder c k ((s.strand c k).pend.take j) s with
        | none => s
        | some s0 => match performPend s0 c k p with
          | .done s1 =>
            if (s1.strand c k).slotRefused slot = decide (want = FarEnd.refused) ∧ want ≠ .faulted then s1.modStrand c k (·.dropPend j) else s
          | .fault s1 code addr write => if want = .faulted then haltFlq s1 c k slot code addr write p.pc else s
          | .wait s1 => if want = .delivered then s1 else s
      else s

def execFarAccessComplete (c : Cl) (k : Sn) (j : Nat) (s : State) : Host.Outcome State Fault Refusal :=
  .next (farEnd .delivered c k j s)
def execFarAccessRefused (c : Cl) (k : Sn) (j : Nat) (s : State) : Host.Outcome State Fault Refusal :=
  .next (farEnd .refused c k j s)
def execFarAccessTranslationFault (c : Cl) (k : Sn) (j : Nat) (s : State) : Host.Outcome State Fault Refusal :=
  .next (farEnd .faulted c k j s)

/-- REM_ST_COMPLETE (R380): the copy engine moves the bytes; it stops while a fault of the move is unresolved. -/
def execRemStComplete (c : Cl) (k : Sn) (j : Nat) (s : State) : Host.Outcome State Fault Refusal :=
  match (s.strand c k).pend[j]? with
  | some p => match p.kind with
    | .move _ _ _ waits => .next (if waits then s else performAt s c k j)
    | _ => .next s
  | none => .next s

/-! Waits. -/

/-- The value that a wait asks for and the value it observes, and its object (R128 Table 1, R152, R193, log 21). -/
def waitReport (s : State) (c : Cl) (w : WaitObj) : BitVec 16 × Nat × Nat :=
  match w with
  | .sem t k n => (objId 1 t.val k.toNat, n, ((s.tile c t).sem k).toNat)
  | .ring t g n => (objId 2 t.val g.toNat, n, ((s.tile c t).ring g).used)
  | .bar b _ => match s.gangOf c with
    | some g => (objId 3 0 b.toNat, participants s g, (g.bar b).arrived.length)
    | none => (objId 3 0 b.toNat, 0, 0)
  | .mem cond dw _ y seen _ => (BitVec.ofNat 16 (4 * 4096 + cond * 256 + dw.toNat), y.toNat % 2 ^ 32, seen.toNat % 2 ^ 32)
  | .efence e _ ts => match awaited s c ts with
    | (t, g, n) :: _ => (objId 5 t.val g.code, n.toNat, ((s.tile c t).queue g).done.toNat)
    | [] => (objId 5 0 e.code, 0, 0)

/-- A wait expires: it is withdrawn, and the wait-expiry trap is raised at the wait word (R141). -/
def expire (s : State) (c : Cl) (k : Sn) (w : Wait) : State :=
  let r := waitReport s c w.obj
  takeTrap s c k true 0x07 false r.1 (BitVec.ofNat 64 (r.2.1 + r.2.2 * 2 ^ 32)) (s.strand c k).pc

/-- The wait of a strand has its expiry cycle in this tick or before. -/
def Wait.expired (w : Wait) (cycle : Nat) : Bool := decide (tickOf w.expiry ≤ tickOf cycle)

/-- A re-read of a waitv finds poison in a unit (R399): the wait is withdrawn, and the strand is held. -/
def waitvPoisoned (s : State) (c : Cl) (k : Sn) (unit : Nat) (t : Tgt) : State :=
  machineCheck (s.modCore c (·.withdraw k)) c k unit (tgtAddress s c t)

/-- A re-read of a waitv finds its translation gone (R344, R347): the wait is withdrawn, and firmware holds the strand at the
word (log 69). -/
def waitvFaulted (s : State) (c : Cl) (k : Sn) (code : BitVec 8) (t : Tgt) : State :=
  firmHold (s.modCore c (·.withdraw k)) c k code 0 t.va

/-- The wait object after a read that did not satisfy its condition. -/
def rewait (c : Cl) (k : Sn) (o : WaitObj) (s : State) : State :=
  s.modStrand c k fun x => { x with wait := x.wait.map fun w => { w with obj := o } }

/-- WAITV_REREAD (R153): the grant follows the first read that satisfies the condition. -/
def execWaitvReread (c : Cl) (k : Sn) (s : State) : Host.Outcome State Fault Refusal :=
  match (s.strand c k).wait with
  | some ⟨.mem cond dw t y _ counted, _, _⟩ =>
    let r := waitvRead s c k t dw counted
    .next (match r.2 with
      | .value v =>
        if condHolds cond (waitvExt cond dw v) y then grantWait c k (scopeSet r.1 c 31) r.1
        else rewait c k (.mem cond dw t y (BitVec.ofNat 64 v) counted) r.1
      | .refused => rewait c k (.mem cond dw t y 0 true) r.1
      | .poisoned u => waitvPoisoned r.1 c k u t
      | .faulted code => waitvFaulted r.1 c k code t
      | .none => r.1)
  | _ => .next s

/-- The grant of a barrier wait (R152) or an efence (R193) whose condition holds; other waits are granted elsewhere. -/
def settleWait (s : State) (c : Cl) (k : Sn) : State :=
  match (s.strand c k).wait with
  | some ⟨.bar b phase, _, _⟩ =>
    match s.gangOf c with
    | some g => if (g.bar b).phase = phase then s else grantWait c k (scopeSet s c 1) s
    | none => s
  | some ⟨.efence _ _ ts, _, _⟩ => if awaited s c ts = [] then grantWait c k (scope0 s c) s else s
  | _ => s

/-- WAIT_EXPIRY at step 5 of the tick's order (R141, R284): only once the tiles have made this tick's grants; a barrier's or a
fence's condition that holds by then wins. -/
def execWaitExpiry (c : Cl) (k : Sn) (s : State) : Host.Outcome State Fault Refusal :=
  match (s.strand c k).wait with
  | some w =>
    .next (if w.expired s.cycle ∧ s.ticked = tickOf s.cycle + 1 then
      let s1 := settleWait s c k
      if (s1.strand c k).wait.isSome then expire s c k w else s1
    else s)
  | none => .next s

/-! Mailboxes, interrupts, asynchronous traps. -/

/-- The mailbox interrupt is pending on a strand (R296). -/
def Strand.markMailbox (t : Strand) (i : Fin 8) (v : W) : Strand :=
  if t.state = .run ∨ t.state = .handler then { t with mboxInt := some (i, v) } else t

/-- A host write reaches a mailbox, unless a strand's write reaches it in the same core cycle (R61). -/
def Core.hostMailbox (x : Core) (cycle : Nat) (i : Fin 8) (v : W) : Core :=
  if x.mboxAt.get i = cycle + 1 then { x with superseded := x.superseded ||| ((1 : BitVec 8) <<< i.val) }
  else
    { x with
      mbox := x.mbox.set i.val v
      mboxHost := x.mboxHost ||| ((1 : BitVec 8) <<< i.val)
      strands := x.strands.each (·.markMailbox i v) }

/-- A strand takes no event between its words while firmware holds it, or before it runs (R297). -/
def Strand.takesEvents (t : Strand) : Bool :=
  (t.state == .run || t.state == .handler) && t.fw.isNone && !t.stopped && !stBit t.xstatus 6

/-- The first of the strand's asynchronous traps has arisen by a core cycle (R291, R294). -/
def Strand.asyncDue (t : Strand) (cycle : Nat) : Bool := t.asyncs.head?.any fun a => decide (a.at_ ≤ cycle)

/-- The strand waits for a semaphore or a ring: an event takes it off only at the end of a tick (R284). -/
def Strand.tileWait (t : Strand) : Bool :=
  t.wait.any fun w => match w.obj with
    | .sem .. => true
    | .ring .. => true
    | _ => false

/-- ASYNC_TRAP_DELIVERY (R186, R291). -/
def execAsyncTrapDelivery (c : Cl) (k : Sn) (s : State) : Host.Outcome State Fault Refusal :=
  let t := s.strand c k
  match t.asyncs with
  | a :: r =>
    .next (if t.takesEvents ∧ t.asyncDue s.cycle then
      takeTrap (s.setStrand c k { t with asyncs := r }) c k false a.code false a.detail a.tval (t.settleCtl (s.cycle + 2)).pc
    else s)
  | [] => .next s

/-- MAILBOX_INTERRUPT (R291, R296): after the asynchronous traps, with IE set. -/
def execMailboxInterrupt (c : Cl) (k : Sn) (s : State) : Host.Outcome State Fault Refusal :=
  let t := s.strand c k
  match t.mboxInt with
  | some (i, v) =>
    .next (if t.takesEvents ∧ stBit t.xstatus 0 ∧ t.asyncDue s.cycle = false then
      takeTrap (s.setStrand c k { t with mboxInt := none }) c k false 0x10 false (BitVec.ofNat 16 i.val) v (t.settleCtl (s.cycle + 2)).pc
    else s)
  | none => .next s

/-! Firmware and a held strand. -/

/-- The fault-queue entries of a strand leave the queue (R346). -/
def State.clearFaults (s : State) (c : Cl) (k : Sn) : State :=
  { s with
    faultq := s.faultq.set (dieOf c).val
      ((s.faultq.get (dieOf c)).filter fun e => !(e.src == 0 && e.cluster == c && e.unit == k.val)) }

/-- FIRMWARE_RESUME (R297): the word issues again from its start. -/
def execFirmwareResume (c : Cl) (k : Sn) (s : State) : Host.Outcome State Fault Refusal :=
  .next (byCore (dieCore (dieOf c)) s (if (s.strand c k).fw.isSome then (s.modStrand c k fun t => { t with fw := none }).clearFaults c k else s))

/-- FLQ_RESTART (R54): the access side goes on at the faulting entry. -/
def execFlqRestart (c : Cl) (k : Sn) (s : State) : Host.Outcome State Fault Refusal :=
  .next (byCore (dieCore (dieOf c)) s
    (if (s.strand c k).flqHalt.isSome then (s.modStrand c k fun t => { t with flqHalt := none }).clearFaults c k else s))

/-- The policy of a context for a firmware-level cause (R338). -/
def Context.policy (x : Context) (code : BitVec 8) : BitVec 2 :=
  if code = 0x20 then x.pf else if code = 0x21 then x.kf else x.mc

/-- The strand stands at a pop that has reached the faulting entry (R347). -/
def popWaits (s : State) (c : Cl) (k : Sn) : Option FlqHalt :=
  let t := s.strand c k
  let w := (fetch s c (if t.inRep then t.pc + 4 else t.pc)).bind fun w => (decode w).toOption
  match t.flqHalt, w with
  | some h, some (.pop _) => if h.idx = t.flqHead ∧ (t.state = .run ∨ t.state = .handler) then some h else none
  | _, _ => none

/-- FIRMWARE_REFLECT (R297, R347): a held word's cause enters the handler, in the handler a double trap; a far access is
reflected at the pop that reaches its entry, which is freed unperformed, and the access side goes on behind it. A
translation fault is reflected only under policy 1 (R338). -/
def execFirmwareReflect (c : Cl) (k : Sn) (s : State) : Host.Outcome State Fault Refusal :=
  let t := s.strand c k
  let allowed (code : BitVec 8) : Bool := s.attends (dieCore (dieOf c)) && (code == 0x22 || (s.ctx (s.ctxOf c)).policy code == 1)
  match t.fw with
  | some f =>
    .next (if allowed f.code then
      takeTrap ((s.setStrand c k { t with fw := none }).clearFaults c k) c k true f.code true f.detail f.tval t.pc
    else s)
  | none => match popWaits s c k with
    | some h =>
      .next (if allowed h.fault.code then
        let s1 := s.modStrand c k fun t =>
          { t.popEntry with flqHalt := none, pend := t.pend.filter fun p => p.kind.slot? ≠ some h.idx }
        takeTrap (s1.clearFaults c k) c k true h.fault.code true (if h.fault.write then 1 else 0) h.fault.addr t.pastPc
      else s)
    | none => .next s

end Sys2Proof.Machine
end

