-- ==== Sys2Proof/Machine/TileEvents.lean ====
section
/-! DEFINITION. What a tile does each tick (06 R166 to R186, 09 R279 to R286): changes to templates and queues, the start
and the completion of blocks, waits and grants, schedule misses, landings; the choice of audited blocks (15 R405, R406);
the resumption of a held entry (12 R348). -/

namespace Sys2Proof.Machine

/-! Templates (R196). -/

/-- A loaded template (R196): fields 0 to 29 and 31. -/
def loadRule (new b : Block) : Block := new.set 30 ((b[30]?).getD 0)

/-! Issue (R166, R183, R184). -/

/-- The request tag of the launch that runs on a cluster. -/
def State.tagOf (s : State) (c : Cl) : BitVec 16 := (s.gangOf c).elim 0 (·.tag)

/-- A queue's number among those of the module. -/
def Site.number (v : Site) : Nat := (v.c.val * 8 + v.t.val) * 4 + v.e.code

/-- The cut of a fence under way that stands behind a sequence number comes one nearer (R351). -/
def Preempt.lessOne (n : Nat) (next : BitVec 32) : Preempt → Preempt
  | .fence cuts limit => .fence (cuts.map fun x => if x.1 = n ∧ x.2 ≠ next ∧ (x.2 - next).toNat < 2 ^ 31 then (x.1, x.2 - 1) else x) limit
  | p => p

/-- What an efence awaits of a queue's issues that are still on their way moves by a number (R193). -/
def moveTargets (by_ : BitVec 32) (s : State) (v : Site) : State :=
  let next := ((s.tile v.c v.t).queue v.e).next
  s.modCore v.c fun x => { x with strands := x.strands.each fun k =>
    { k with wait := k.wait.map fun w => match w.obj with
        | .efence e all ts => { w with obj := .efence e all (ts.map fun y =>
            if y.1 = v.t ∧ y.2.1 = v.e ∧ (y.2.2 - next).toNat < 2 ^ 31 then (y.1, y.2.1, y.2.2 + by_) else y) }
        | _ => w } }

/-- An issue that never becomes an entry takes no sequence number; an efence that counted on it waits for one fewer, and a cut
behind it comes nearer. -/
def dropTarget (s : State) (v : Site) (q : Queue) : State :=
  let s1 : State := match (s.core v.c).gang with
    | some g => s.modGang g fun y => { y with preempt := y.preempt.map (Preempt.lessOne v.number q.next) }
    | none => s
  moveTargets (-1) s1 v

/-- The generators of R29, one a lane, when the block rounds stochastically. -/
def seedLanes (f : Block) : List (BitVec 16) :=
  if rmOf f = 5 then (List.range 256).map (lfsrSeed (fbits f 27 0 16)) else []

/-- A block as an issue stamps it (R166): tag, generation, sequence number. -/
def stampBlock (tag : BitVec 16) (gen seq : BitVec 32) (f : Block) : Block :=
  (f.set 28 ((((f[28]?).getD 0 : W) &&& ~~~(0xffff0000 : W)) ||| (tag.setWidth 64 <<< 16))).set 30
    (gen.setWidth 64 ||| (seq.setWidth 64 <<< 32))

/-- Issue of a copy of a template: the checks, then the copy at the tail of the queue; template and entry show tag, generation and
sequence number. -/
def issueCopy (s : State) (v : Site) (t : BitVec 6) (gen : BitVec 32) (strand : Sn) (f0 : Block) : State :=
  let y := s.tile v.c v.t
  let q := y.queue v.e
  match issueFault s v.c v.t v.e f0 with
  | some reason => blockFaultTrap (dropTarget s v q) v (s.cycle + 1) reason 0 t strand
  | none =>
    let stamp := stampBlock (s.tagOf v.c) gen q.next
    let f := stamp f0
    let b : Entry :=
      { f := f, t := t, seq := q.next, gen := gen, strand := strand, phase := .queued, n := 0, lanes := seedLanes f,
        carry := [], ready := 0, used := 0, fault := none, missed := false, noLink := false, cutRow := false, wb := 0,
        tallied := false, audit := none }
    s.setTile v.c v.t ((y.setTemplate v.e t (stamp (y.template v.e t))).setQueue v.e { q with entries := q.entries ++ [b], next := q.next + 1 })

/-- Issue of a template as it stands (R166). -/
def issueEntry (s : State) (v : Site) (t : BitVec 6) (gen : BitVec 32) (strand : Sn) : State :=
  issueCopy s v t gen strand ((s.tile v.c v.t).template v.e t)

/-- One change from the control core (R182). -/
def applyAmend (c : Cl) (t : Tl) (a : Amend) (s : State) : State :=
  match a with
  | .patch e n f v => s.modTile c t (·.modTemplate e n (patchRule f v))
  | .field e n f v => s.modTile c t (·.modTemplate e n (fieldRule f v))
  | .bind e n slot base ts st st3 => s.modTile c t (·.modTemplate e n (bindRule slot base ts st st3))
  | .issue e n gen k => issueEntry s ⟨c, t, e⟩ n gen k

/-- The core's changes, in issue order, up to the first template that a tmpl.ld is still to write; without one, all of them,
and then the forwards in element order (R182). -/
def runAmends (c : Cl) (t : Tl) (s : State) : State :=
  let y := s.tile c t
  let n := (y.tlds.head?).elim y.amends.length (·.before)
  let s1 := (y.amends.take n).foldl (fun z a => applyAmend c t a z) (s.modTile c t fun x =>
    { x with amends := x.amends.drop n, tlds := x.tlds.map fun l => { l with before := l.before - n } })
  if y.tlds.isEmpty then
    y.fwds.foldl (fun z f => z.modTile c t (·.modTemplate f.1 f.2.1 (patchRule f.2.2.1 f.2.2.2)))
      (s1.modTile c t fun x => { x with fwds := [] })
  else s1

/-- A link on its way: engine, template, generation, strand. -/
abbrev Link := Eng × BitVec 6 × BitVec 32 × Sn

/-- A link issues (R181): the issues of the core's that are on their way follow it, and so does what an efence awaits of them. -/
def issueLink (c : Cl) (t : Tl) (s : State) (l : Link) : State :=
  issueEntry (moveTargets 1 s ⟨c, t, l.1⟩) ⟨c, t, l.1⟩ l.2.1 l.2.2.1 l.2.2.2

/-- The links of a tile, in engine order. -/
def Tile.linkOrder (y : Tile) : List Link := allEngines.flatMap fun e => y.links.filter (·.1 == e)

/-- A generation fence of the cluster's gang is under way. -/
def State.fencing (s : State) (c : Cl) : Bool := ((s.gangOf c).bind (·.preempt)).elim false (· != .node)

/-- TEMPLATE_TICK (R182): links in engine order, then the core's changes and the forwards. Behind a fence's request, what a link
copied joins its queue behind the issues that stand ahead of the cut (R351). -/
def execTemplateTick (c : Cl) (t : Tl) (s : State) : Host.Outcome State Fault Refusal :=
  let y := s.tile c t
  let s1 := s.modTile c t fun x => { x with links := [] }
  .next (if s.fencing c then
    (y.linkOrder.map fun l => (l, y.template l.1 l.2.1)).foldl (fun z x => issueCopy z ⟨c, t, x.1.1⟩ x.1.2.1 x.1.2.2.1 x.1.2.2.2 x.2)
      (runAmends c t s1)
  else runAmends c t (y.linkOrder.foldl (issueLink c t) s1))

/-- TMPL_LD_WRITE (R196): in its place among the core's changes, which then go on. What was read is written even where an interrupt has
taken the strand off its word in the meantime (DESIGN CHOICE, log 69). -/
def execTmplLdWrite (c : Cl) (t : Tl) (s : State) : Host.Outcome State Fault Refusal :=
  match (s.tile c t).tlds with
  | [] => .next s
  | x :: r => .next (runAmends c t (s.modTile c t fun y => { y.modTemplate x.e x.t (loadRule x.f) with tlds := r }))

/-! Stamps (R180, R280 to R282). -/

def stampOf (f : Block) : Nat := fbits f 1 0 48
def lastFrame (f : Block) : Nat := stampOf f + fbits f 1 48 15
def stamped (f : Block) : Bool := fbits f 1 63 1 == 1

/-- Frame x lies at or after frame y, modulo 2^48 by the half-range rule. -/
def frameReached (x y : Nat) : Bool := decide ((x % 2 ^ 48 + 2 ^ 48 - y % 2 ^ 48) % 2 ^ 48 < 2 ^ 47)

def gateOpen (co : Core) (f : Block) : Bool := !stamped f || frameReached co.xframe.toNat (stampOf f)
def isLate (co : Core) (f : Block) : Bool := stamped f && frameReached co.xframe.toNat (lastFrame f + 1)

/-- A slip-log entry (R282 Table 3). -/
def slipEntry (co : Core) (v : Site) (b : Entry) : BitVec 128 :=
  let frame := co.xframe.toNat % 2 ^ 48
  let late := (frame + 2 ^ 49 - lastFrame b.f % 2 ^ 48) % 2 ^ 48
  BitVec.ofNat 128 (frame + 2 ^ 48 * min late 0xffff + 2 ^ 64 * b.seq.toNat + 2 ^ 96 * b.t.toNat + 2 ^ 102 * v.e.code
    + 2 ^ 104 * v.t.val + 2 ^ 107 * fbits b.f 0 28 1)

/-- A late grant is counted, and logged while the log has room. -/
def logSlip (v : Site) (b : Entry) (co : Core) : Core :=
  if isLate co b.f then
    { co with
      slipCount := saturate32 co.slipCount
      slips := if co.slips.length < 64 then co.slips ++ [slipEntry co v b] else co.slips }
  else co

/-- The identity of a block's wait object (R281). -/
def waitIdentity (f : Block) (t : Tl) : BitVec 16 :=
  let w : W := (f[2]?).getD 0
  if objKind w = 0 then 0 else objId (if objKind w = 1 then 1 else 2) (objTile w t).val (objNum w)

/-- A strict entry that has not been granted in time raises its trap once. -/
def missOf (s : State) (v : Site) (b : Entry) : Bool :=
  fbits b.f 0 28 1 == 1 && !b.started && !b.missed && isLate (s.core v.c) b.f

/-- The schedule-miss trap of an entry (R281), once, detected at a core cycle. -/
def raiseMiss (v : Site) (at_ : Nat) (s : State) (b : Entry) : State :=
  (putEntry s v { b with missed := true }).modCore v.c (·.addAsync s.cycle b.strand
    ⟨0x0d, waitIdentity b.f v.t, blockTval b.seq b.t v.t v.e, at_⟩)

/-- SCHEDULE_MISS (R280, R281), before the grants of the tick. -/
def execScheduleMiss (c : Cl) (t : Tl) (e : Eng) (s : State) : Host.Outcome State Fault Refusal :=
  let v : Site := ⟨c, t, e⟩
  .next ((((s.tile c t).queue e).entries.filter (missOf s v)).foldl (raiseMiss v s.cycle) s)

/-! Audits (15 R405, R406). -/

/-- A byte range of a space: 0 with locations of this module, else the space and its addresses. -/
structure Window where
  space : Nat
  lo : Nat
  hi : Nat
  deriving DecidableEq, Repr

/-- An operand's window; none when data determines it. A swizzle moves a line within 2 KiB (R174), so a swizzled window is
taken in whole 2 KiB. -/
def windowOf (s : State) (v : Site) (f : Block) (o : Nat) : Option Window :=
  let sp := spaceOf f o
  let g := if sp ≤ 1 ∧ 1 ≤ swzOf f o then 2048 else 1
  match (extremes v.e f v.t o).map fun x => byteRange x.1 x.2.1 x.2.2 with
  | [] => none
  | r :: rs =>
    let lo := rs.foldl (fun a x => min a x.1) r.1 / g * g
    let hi := (rs.foldl (fun a x => max a (x.1 + x.2)) (r.1 + r.2) + g - 1) / g * g
    match engineTgt s v sp lo with
    | .loc a _ _ => some ⟨0, a, a + (hi - lo)⟩
    | _ => some ⟨sp, lo, hi⟩

/-- A table's window in the tile's scratchpad. -/
def auxWindow (v : Site) (x : Nat × Nat × Bool) : Window := ⟨0, spadLoc v.c v.t x.1, spadLoc v.c v.t x.1 + x.2.1⟩

/-- The operands an auditable block reads and writes; a D that the operator updates in place is no overlap with itself. -/
def readOps (e : Eng) (f : Block) : List Nat := (usedOps e f).filter (· ≠ 0)

/-- D is read before it is written (R208, R210, R214). -/
def readsD (e : Eng) (f : Block) : Bool :=
  match e with
  | .m => opOf f == 1 || opOf f == 3
  | .v => opOf f == 4 && fbits f 22 1 1 == 0
  | _ => false

def writeOps (e : Eng) (f : Block) : List Nat := (usedOps e f).filter (· = 0)

/-- The windows a block reads, and those it writes, each with the space of an operand whose window data determines. -/
def readWindows (s : State) (v : Site) (f : Block) : List (Option Window × Nat) :=
  (readOps v.e f).map (fun o => (windowOf s v f o, spaceOf f o)) ++
    ((auxTables v.e f).filter (!·.2.2)).map fun x => (some (auxWindow v x), 0)

def writeWindows (s : State) (v : Site) (f : Block) : List (Option Window × Nat) :=
  (writeOps v.e f).map (fun o => (windowOf s v f o, spaceOf f o)) ++
    ((auxTables v.e f).filter (·.2.2)).map fun x => (some (auxWindow v x), 0)

/-- Two windows overlap; where data determines one, any other of its space does. -/
def windowsMeet (x y : Option Window × Nat) : Bool :=
  match x.1, y.1 with
  | some a, some b => a.space == b.space && decide (a.lo < b.hi) && decide (b.lo < a.hi)
  | _, _ => x.2 == y.2

def auditedOp (e : Eng) (f : Block) : Bool :=
  let op := opOf f
  match e with
  | .m => true
  | .v => op != 0x28 && op != 0x2c && op != 0x20 && !(op == 0x1a && fbits f 22 4 1 == 1)
  | _ => decide (op = 1 ∨ op = 2 ∨ op = 4 ∨ op = 5 ∨ (op = 3 ∧ fbits f 22 33 1 = 0))

/-- The bytes of engine state that a block reads (R406). -/
def stateBytes (e : Eng) (f : Block) : Nat :=
  let op := opOf f
  if e = .m ∧ op ≤ 3 then 2 ^ 15 else if e = .v ∧ op = 0x21 then 3088
  else if (e = .l ∨ e = .s) ∧ op = 4 then 4 * fbits f 22 48 13 else 0

/-- A cluster that an audit may use: enabled, of the die, in no gang, in bin 0. -/
def State.idleCluster (s : State) (d : Die) (c : Cl) : Bool :=
  dieOf c == d && s.clusterEnabled c && (s.core c).gang.isNone && (s.core c).bin == 0

/-- The audit cluster of a block that is eligible (R406), beyond the header's bit: the die's lowest idle cluster. -/
def auditCluster (s : State) (v : Site) (f : Block) : Option Cl :=
  let rs := readWindows s v f
  let read := rs ++ if readsD v.e f then [(windowOf s v f 0, spaceOf f 0)] else []
  if auditedOp v.e f && rs.all (fun x => (writeWindows s v f).all fun y => !windowsMeet x y) &&
      decide ((read.map fun x => x.1.elim 0 fun w => w.hi - w.lo).sum + stateBytes v.e f ≤ 2 ^ 22) then
    (List.finRange 64).find? (s.idleCluster (dieOf v.c))
  else none

/-- A block whose header asks for an audit starts (R405, R406): an eligible one is counted; the one that takes the count of the
die's phase is selected. One that is not eligible then is skipped, and takes no count. The snapshot of a selected block begins with its
32 fields (R407; log 69: where in the vault). -/
def auditStart (s : State) (v : Site) (b : Entry) : State :=
  let d := s.die (dieOf v.c)
  let m := 2 ^ min d.auditK 20
  let hit : Bool := d.auditCount.toNat % m == d.auditPh.toNat % m
  let a := auditCluster s v b.f
  let y := s.tile v.c v.t
  let s1 := s.modDie (dieOf v.c) fun x =>
    { x with
      auditCount := if a.isSome then x.auditCount + 1 else x.auditCount
      audSelected := if hit then saturate32 x.audSelected else x.audSelected
      audSkipped := if hit && a.isNone then saturate32 x.audSkipped else x.audSkipped }
  let x := a.filter fun _ => hit
  let s2 := x.elim s1 fun c => writeHome s1 (vaultLoc c 0) (b.f.flatMap fun w => bytesOf 8 w.toNat)
  putEntry s2 v { b with tallied := true, audit := x.map fun c => ⟨c, BitVec.allOnes 64, [], y.sets, y.slots⟩ }

/-- Every engine queue of a cluster, by tile, engines in the order L, M, V, S. -/
def tileSites (c : Cl) : List Site := (List.finRange 8).flatMap fun t => allEngines.map fun e => ⟨c, t, e⟩

/-- The entries of a queue whose start in the tick that ends an audit still has to count. -/
def untallied (s : State) (v : Site) : List Entry :=
  ((s.tile v.c v.t).queue v.e).entries.filter fun b => (b.phase == .running || b.phase == .ending) && !b.tallied &&
    fbits b.f 0 29 1 == 1 && decide (b.ready ≤ tickOf s.cycle + if totalOf b.f = 0 then 1 else 0)

/-- A block has started: it is counted where the die's auditor is enabled. -/
def tallyStart (v : Site) (s : State) (b : Entry) : State :=
  if (s.die (dieOf v.c)).auditOn then auditStart s v b else putEntry s v { b with tallied := true }

/-- The starts of a tick are counted by cluster, tile and engine (R405). -/
def tallyStarts (cs : List Cl) (s : State) : State :=
  cs.foldl (fun z c => (tileSites c).foldl (fun z v => (untallied z v).foldl (tallyStart v) z) z) s

/-! Start and grant (R167, R176 to R178, R197). -/

/-- The block runs from a tick on: a late grant is logged; a zero-trip block has no row, and ends in that tick. -/
def startRun (s : State) (v : Site) (b : Entry) (from_ : Nat) : State :=
  let zero : Bool := totalOf b.f == 0
  let b1 := { b with phase := if zero then .ending else .running, ready := if zero then from_ + 1 else from_ }
  (putEntry (s.modCore v.c (logSlip v b)) v b1).modTile v.c v.t fun y => y.setQueue v.e { y.queue v.e with last := b.t }

/-- The block comes to its wait, in the tick that follows (R178). Where it is granted there at once, a schedule miss of that
tick comes before (R280). -/
def reachWait (s : State) (v : Site) (b : Entry) : State :=
  let w : W := (b.f[2]?).getD 0
  if objKind w = 0 ∨ objCount w = 0 then
    if missOf s v b then startRun (raiseMiss v (s.cycle + 1) s b) v { b with missed := true } (tickOf s.cycle + 2)
    else startRun s v b (tickOf s.cycle + 2)
  else
    let s1 := putEntry s v { b with phase := .waiting }
    if objKind w = 1 then
      s1.modTile v.c (objTile w v.t) fun y => { y with semNew := y.semNew ++ [⟨objNum w, .block v.t v.e, objCount w⟩] }
    else s1

/-- An entry stands behind the cut of a generation fence that is under way (R351): it does not start. -/
def State.behindCut (s : State) (v : Site) (b : Entry) : Bool :=
  match (s.gangOf v.c).bind (·.preempt) with
  | some (.fence cuts _) => decide ((b.seq - tabGet cuts v.number 0).toNat < 2 ^ 31)
  | _ => false

/-- The entry that may start: the first that has not, behind entries that have made their last access. -/
def Queue.starter (q : Queue) : Option Entry :=
  match q.entries.dropWhile (·.phase == .ending) with
  | b :: _ => if b.phase = .queued ∨ b.phase = .gated then some b else none
  | [] => none

/-- BLOCK_START (R176): start check, gate, wait, for the tick that follows. -/
def execBlockStart (c : Cl) (t : Tl) (e : Eng) (s : State) : Host.Outcome State Fault Refusal :=
  let v : Site := ⟨c, t, e⟩
  match ((s.tile c t).queue e).starter.filter fun b => !s.behindCut v b with
  | none => .next s
  | some b =>
    match if b.phase = .queued then startFault s c t b.f else none with
    | some reason => .next (blockFaultTrap (stopEntry s v b) v (s.cycle + 1) reason b.seq b.t b.strand)
    | none => .next (if gateOpen (s.core c) b.f then reachWait s v b else putEntry s v { b with phase := .gated })

/-! Waits and grants of a tile (R146, R284 to R286). -/

/-- The place of an arrival among those of its tick (R146). -/
def arrivalKey (w : SemWait) : Nat :=
  match w.who with
  | .strand k => k.val
  | .block t e => 4 + 8 * e.code + t.val

def insertArrival (w : SemWait) : List SemWait → List SemWait
  | [] => [w]
  | x :: r => if arrivalKey w < arrivalKey x then w :: x :: r else x :: insertArrival w r

/-- The tick's arrivals join the queue. -/
def Tile.takeArrivals (y : Tile) : Tile := { y with semQ := y.semQ ++ y.semNew.foldr insertArrival [], semNew := [] }

/-- A granted wait of a strand or a block. -/
def grantTo (c : Cl) (who : Waiter) (s : State) : State :=
  match who with
  | .strand k => grantWait c k (scope0 s c) s
  | .block t e =>
    match ((s.tile c t).queue e).entries.find? (·.phase == .waiting) with
    | some b => startRun s ⟨c, t, e⟩ b (tickOf s.cycle + 1)
    | none => s

/-- A block's wait whose entry stands behind a cut is not granted (R351). -/
def waitCut (s : State) (c : Cl) (w : SemWait) : Bool :=
  match w.who with
  | .strand _ => false
  | .block t e => (((s.tile c t).queue e).entries.find? (·.phase == .waiting)).elim false (s.behindCut ⟨c, t, e⟩)

/-- Grants in arrival order; a wait that is not met bars the later ones of its semaphore. -/
def grantSems (c : Cl) (t : Tl) : List SemWait → List Nat → State → State
  | [], _, s => s
  | w :: r, barred, s =>
    let v := ((s.tile c t).sem (BitVec.ofNat 5 w.k)).toNat
    if w.cnt ≤ v ∧ barred.contains w.k = false ∧ waitCut s c w = false then
      grantSems c t r barred (grantTo c w.who (s.modTile c t fun y =>
        { y.setSem (BitVec.ofNat 5 w.k) (BitVec.ofNat 16 (v - w.cnt)) with semQ := y.semQ.erase w }))
    else grantSems c t r (w.k :: barred) s

/-- A wait on a ring's filled or free side is met (R178). -/
def ringMet (r : Ring) (filled : Bool) (n : Nat) : Bool :=
  if filled then decide (n ≤ r.used) else decide (n + r.used ≤ r.ns)

/-- A strand's ring wait on the tile is met. -/
def strandRing (s : State) (c : Cl) (t : Tl) (k : Sn) : Bool :=
  match (s.strand c k).wait with
  | some ⟨.ring u g n, _, _⟩ => u == t && ringMet ((s.tile c t).ring g) true n
  | _ => false

/-- A block's post names a ring. -/
def postsTo (v : Site) (b : Entry) (t : Tl) (g : Nat) : Bool :=
  let p : W := (b.f[3]?).getD 0
  (objKind p == 2 || objKind p == 3) && objTile p v.t == t && objNum p == g

/-- A block's ring wait on the tile is met (R286). While an earlier block of its queue has still to post on the same ring it is not
(R303, R304): a wait that takes nothing would else be met by slots that this block is about to fill or to use. -/
def blockRing (s : State) (c : Cl) (t : Tl) (v : Site) : Option Entry :=
  let es := ((s.tile c v.t).queue v.e).entries
  (es.find? (·.phase == .waiting)).filter fun b =>
    let w : W := (b.f[2]?).getD 0
    (objKind w == 2 || objKind w == 3) && objTile w v.t == t && !s.behindCut v b &&
      !((es.takeWhile (·.phase != .waiting)).any fun x => postsTo v x t (objNum w)) &&
      ringMet ((s.tile c t).ring (BitVec.ofNat 5 (objNum w))) (objKind w == 2) (objCount w)

/-- A strand's semaphore or ring wait on the tile has expired. -/
def expiredHere (s : State) (c : Cl) (t : Tl) (k : Sn) : Option Wait :=
  (s.strand c k).wait.filter fun w => w.expired s.cycle && !(s.strand c k).stopped && match w.obj with
    | .sem u _ _ => u == t
    | .ring u _ _ => u == t
    | _ => false

/-- Every engine queue of a cluster, engine by engine. -/
def sitesOf (c : Cl) : List Site := allEngines.flatMap fun e => (List.finRange 8).map fun t => ⟨c, t, e⟩

/-- One ring.decl takes its turn: its strand may have been taken off its word by an interrupt, and then it declares nothing; a block
may still name its ring, and then it waits; its handle may allow no ring any more, and then the word raises its fault. -/
def takeDecl (c : Cl) (t : Tl) (s : State) (d : RingDecl) : State :=
  let y := s.tile c t
  if (s.strand c d.strand).tld = false then s
  else if ringBusy y t d.g then s.setTile c t { y with decls := y.decls ++ [d] }
  else match ringOf s c (s.handleOf c d.h) d.ns with
    | some r => s.setTile c t (y.setRing d.g r)
    | none => s.modStrand c d.strand fun k => { k with tld := false }

/-- The declarations of a tick. -/
def takeDecls (c : Cl) (t : Tl) (s : State) : State :=
  (s.tile c t).decls.foldl (takeDecl c t) (s.modTile c t fun y => { y with decls := [] })

/-- TILE_TICK (R284): declarations, arrivals, grants, expiries; posts have taken effect before. -/
def execTileTick (c : Cl) (t : Tl) (s : State) : Host.Outcome State Fault Refusal :=
  let s1 := (takeDecls c t s).modTile c t (·.takeArrivals)
  let s2 := grantSems c t (s1.tile c t).semQ [] s1
  let s3 := (List.finRange 4).foldl (fun z k => if strandRing z c t k then grantWait c k (scope0 z c) z else z) s2
  let s4 := (sitesOf c).foldl (fun z v => match blockRing z c t v with
    | some b => startRun z v b (tickOf z.cycle + 1)
    | none => z) s3
  .next ((List.finRange 4).foldl (fun z k => match expiredHere z c t k with
    | some w => expire z c k w
    | none => z) s4)

/-! Completion (R178, R179, R181, R184). -/

/-- The post of a completing block; none when it would break its object's bounds (reason 10). -/
def postObj (s : State) (v : Site) (b : Entry) : Option State :=
  let p : W := (b.f[3]?).getD 0
  let t := objTile p v.t
  let g : BitVec 5 := BitVec.ofNat 5 (objNum p)
  let n := objCount p
  let y := s.tile v.c t
  let r := y.ring g
  match objKind p with
  | 1 => if 65535 < (y.sem g).toNat + n then none else some (s.setTile v.c t (y.setSem g (y.sem g + BitVec.ofNat 16 n)))
  | 2 => if r.ns < r.used + n then none
    else some (s.setTile v.c t (y.setRing g { r with fill := r.fill + BitVec.ofNat 32 n, wb := 0 }))
  | 3 => if r.used < n then none else some (s.setTile v.c t (y.setRing g { r with free := r.free + BitVec.ofNat 32 n }))
  | 4 => some (match s.localCounter (s.ctxOf v.c) (objNum p) with
    | some k => addCounter k (BitVec.ofNat 64 n) s
    | none => countRefusal (s.ctxOf v.c) s)
  | _ => some s

/-- The audited block's signature awaits its replay (R407). -/
def recordAudit (s : State) (v : Site) (b : Entry) : State :=
  match b.audit with
  | some r => s.modDie (dieOf v.c) fun d => { d with audits := d.audits ++ [⟨v.c, v.t, v.e, s.ctxOf v.c, b, r, ~~~r.crc⟩] }
  | none => s

/-- The entry that has come to its end: the head, all its results landed. -/
def Queue.finisher (q : Queue) (tick : Nat) : Option Entry :=
  q.entries.head?.filter fun b => b.phase == .ending && decide (b.ready ≤ tick + 1)

/-- BLOCK_COMPLETE (R176): post, slot, link. -/
def execBlockComplete (c : Cl) (t : Tl) (e : Eng) (s : State) : Host.Outcome State Fault Refusal :=
  let v : Site := ⟨c, t, e⟩
  match ((s.tile c t).queue e).finisher (tickOf s.cycle) with
  | none => .next s
  | some b =>
    if b.cutRow then .next (abandonAudit (stopEntry s v b) c b)
    else match postObj s v b with
    | none => .next (abandonAudit (blockFaultTrap (stopEntry s v b) v s.cycle 10 b.seq b.t b.strand) c b)
    | some s1 =>
      let s2 := recordAudit (stopEntry s1 v b) v b
      .next (if fbits b.f 31 6 1 = 1 ∧ b.noLink = false then
        s2.modTile c t fun y => { y with links := y.links ++ [(e, BitVec.ofNat 6 (fbits b.f 31 0 6), b.gen, b.strand)] }
      else s2)

/-! Landings (R212, R231). -/

/-- A result lands, at the end of its tick: a read of that tick has returned what stood there before (R247). -/
def landBytes (c : Cl) (s : State) (l : Landing) : State := engineWrite c l.loc l.bytes s

/-- MATRIX_ROW_LAND. -/
def execMatrixRowLand (c : Cl) (t : Tl) (s : State) : Host.Outcome State Fault Refusal :=
  let l := (s.tile c t).accLand
  let due (x : Landing) : Bool := decide (x.due ≤ tickOf s.cycle)
  .next ((l.filter due).foldl (landBytes c) (s.modTile c t fun y => { y with accLand := l.filter fun x => !due x }))

/-- REDUCTION_LAND. -/
def execReductionLand (c : Cl) (t : Tl) (s : State) : Host.Outcome State Fault Refusal :=
  let l := (s.tile c t).redLand
  let due (x : Landing) : Bool := decide (x.due ≤ tickOf s.cycle)
  .next ((l.filter due).foldl (landBytes c) (s.modTile c t fun y => { y with redLand := l.filter fun x => !due x }))

/-! Resumption (R348). -/

/-- An engine entry's fault leaves the fault queue. -/
def State.clearEngineFault (s : State) (v : Site) (seq : BitVec 32) : State :=
  { s with
    faultq := s.faultq.set (dieOf v.c).val ((s.faultq.get (dieOf v.c)).filter fun x =>
      !(x.src == 1 && x.cluster == v.c && x.tile == v.t.val && x.unit == v.e.code && x.seq == seq.setWidth 64)) }

/-- ENGINE_FAULT_RESUME: firmware has resolved a translation fault; the block goes on at its element. -/
def execEngineFaultResume (c : Cl) (t : Tl) (e : Eng) (s : State) : Host.Outcome State Fault Refusal :=
  let v : Site := ⟨c, t, e⟩
  match ((s.tile c t).queue e).entries.find? fun b => b.fault.isSome with
  | some b =>
    .next (if b.fault.any (·.code ≠ 0x22) ∧ s.attends (dieCore (dieOf c)) then (putEntry s v { b with fault := none, ready := tickOf s.cycle + 1 }).clearEngineFault v b.seq
      else s)
  | none => .next s

end Sys2Proof.Machine
end

