-- ==== Sys2Proof/Machine/Launches.lean ====
section
/-! DEFINITION. Admission, graphs, placement, kernel start, release (11 R314 to R325, 02 R45, 03 R90 to R92, 09 R287 to
R289), reefing (11 R330 to R333, 09 R298) and the completion record (11 R334, R335). -/

namespace Sys2Proof.Machine

/-! Images (03 R90 to R92). -/

/-- The little-endian number of n bytes at an offset. -/
def fieldAt (bs : List Byte) (o n : Nat) : Nat := ofBytes ((bs.drop o).take n)

/-- The template slots of an image, in the order in which they lie (R91). -/
def templateOrder (h : List Byte) : List (Eng × BitVec 6) :=
  allEngines.flatMap fun e => ((List.range 64).filter fun i => bits (fieldAt h (0x48 + 8 * e.code) 8) i 1 == 1).map
    fun i => (e, BitVec.ofNat 6 i)

/-- A template as the front end writes it: field 30 and the tag are zero (R171, R91). -/
def imageBlock (bs : List Byte) : Block :=
  let f := blockOf bs
  (f.set 30 0).set 28 ((f[28]?).getD 0 &&& ~~~(0xffff0000 : W))

/-- The image that header and sections hold. -/
def buildImage (h text traps data rings tmpls : List Byte) : Image where
  strands := fieldAt h 6 1
  allots := (List.range 4).map fun k => bits (fieldAt h 7 1) (2 * k) 2
  stack := fieldAt h 0xc 4
  entries := (List.range 4).map fun k => fieldAt h (0x10 + 4 * k) 4
  reef := if fieldAt h 0x20 4 = 0xffffffff then none else some (fieldAt h 0x20 4)
  text := (List.range (text.length / 4)).map fun i => BitVec.ofNat 32 (fieldAt text (4 * i) 4)
  textOff := fieldAt h 0x24 4
  traps := (List.range (traps.length / 8)).map fun i => BitVec.ofNat 64 (fieldAt traps (8 * i) 8)
  trapsOff := fieldAt h 0x2c 4
  data := data
  rings := (List.range (rings.length / 32)).map fun i => (rings.drop (32 * i)).take 32
  tmpls := (templateOrder h).zipIdx.map fun x => ⟨x.1.1, x.1.2, imageBlock ((tmpls.drop (256 * x.2)).take 256)⟩

/-- Reads the sections one after another; the first fault stops it. -/
def readAll (x : Fin 64) (req : Option (BitVec 9)) : List (W × Nat) → State → State × Except FaultEntry (List (List Byte))
  | [], s => (s, .ok [])
  | (a, n) :: r, s =>
    match readVirt s x req a n with
    | (s1, .error e) => (s1, .error e)
    | (s1, .ok bs) =>
      match readAll x req r s1 with
      | (s2, .ok more) => (s2, .ok (bs :: more))
      | z => z

/-- Reads a kernel image; none where magic or version is another. Section offsets are taken as they stand, aligned or not, and the field
of the image's size is not used (R90; DESIGN CHOICE, log 69). -/
def readImage (s : State) (x : Fin 64) (req : Option (BitVec 9)) (a : W) : State × Except FaultEntry (Option Image) :=
  match readVirt s x req a 128 with
  | (s1, .error e) => (s1, .error e)
  | (s1, .ok h) =>
    if fieldAt h 0 4 ≠ 0x7a726b31 ∨ fieldAt h 4 2 ≠ 1 then (s1, .ok none)
    else
      let sec (o n : Nat) : W × Nat := (a + BitVec.ofNat 64 (fieldAt h o 4), n)
      match readAll x req [sec 0x24 (fieldAt h 0x28 4), sec 0x2c (min 512 (fieldAt h 0x30 4)), sec 0x34 (fieldAt h 0x38 4),
          sec 0x3c (32 * fieldAt h 0x40 2), sec 0x68 (256 * (templateOrder h).length)] s1 with
      | (s2, .error e) => (s2, .error e)
      | (s2, .ok [t, tr, d, r, tm]) => (s2, .ok (some (buildImage h t tr d r tm)))
      | (s2, .ok _) => (s2, .ok none)

/-- The engine-window form of inspace that admission uses (R91): gang size and configuration record. tile_ok is taken as true for
space 1, as R149 and R250 say of the form (DEDUCED, log 67: R91 lets the configuration record serve for it). -/
def regionOk (s : State) (size sp o n : Nat) : Bool :=
  match sp with
  | 0 => o / 2 ^ 20 == 0 && decide (o % 2 ^ 20 + n ≤ 0xc0000)
  | 1 => o / 2 ^ 29 == 0 && decide (bits o 23 6 < size) && decide (o % 2 ^ 20 + n ≤ 0xc0000)
  | 2 => o / 2 ^ 18 == 0 && decide (o % 2 ^ 18 + n ≤ 0x40000)
  | 3 => o / 2 ^ 24 == 0 && decide (o % 2 ^ 24 + n ≤ 0x1000000)
  | 4 => o / 2 ^ 30 == 0 && s.clusterEnabled (Fin.ofNat 64 (bits o 24 6)) && decide (o % 2 ^ 24 + n ≤ 0x1000000)
  | _ => false

/-- A ring-table entry that ring.decl accepts (R314). -/
def ringEntryOk (s : State) (size : Nat) (r : List Byte) : Bool :=
  let z := fieldAt r 4 4
  let ns := fieldAt r 8 2
  decide (1 ≤ ns ∧ ns ≤ 255) && z % 64 == 0 && decide (0 < z ∧ z ≤ 64 * 65535) && regionOk s size (fieldAt r 2 1) (fieldAt r 16 8) (ns * z)

/-- What R314 asks of an image. -/
def imageOk (s : State) (size : Nat) (i : Image) : Bool :=
  decide (1 ≤ i.strands ∧ i.strands ≤ 4)
    && decide (((i.allots.take i.strands).map fun c => 8 * (c + 1)).sum ≤ 128)
    && decide (i.data.length + i.strands * i.stack ≤ 2 ^ 24)
    && i.traps.all (fun e => !e.msb || (decide (e.toNat % 2 ^ 32 < 4 * i.text.length) && e.toNat % 4 == 0))
    && i.rings.all (ringEntryOk s size)

/-! Graphs (R319). -/

/-- A node from its descriptor; a count of 0 takes the packet's. -/
def nodeOf (pcount : Nat) (d : List Byte) : Node where
  image := BitVec.ofNat 64 (fieldAt d 0 8)
  argOff := BitVec.ofNat 64 (fieldAt d 8 8)
  stride := fieldAt d 0x10 4
  count := if fieldAt d 0x14 4 = 0 then pcount else fieldAt d 0x14 4
  size := bits (fieldAt d 0x18 1) 0 6 + 1
  wide := bits (fieldAt d 0x18 1) 6 1 == 1
  reissue := bits (fieldAt d 0x18 1) 7 1 == 1
  succ := BitVec.ofNat 64 (fieldAt d 0x20 8)
  img := none
  isOpen := false
  complete := false
  outstanding := 0

/-- The one node of the direct form (R313). -/
def directNode (l : Launch) : Node :=
  let g := bits (l.word 7) 8 8
  { image := BitVec.ofNat 64 (l.word 1), argOff := 0, stride := bits (l.word 4) 0 32, count := bits (l.word 4) 32 32,
    size := bits g 0 6 + 1, wide := bits g 6 1 == 1, reissue := bits g 7 1 == 1, succ := 0, img := none, isOpen := false,
    complete := false, outstanding := 0 }

/-- The nodes of a launch; none for a graph whose node count is reserved. -/
def readNodes (s : State) (l : Launch) : State × Except FaultEntry (Option (List Node)) :=
  if bits l.header 5 1 = 0 then (s, .ok (some [directNode l]))
  else
    let a : W := BitVec.ofNat 64 (l.word 1)
    match readVirt s l.ctx l.key a 64 with
    | (s1, .error e) => (s1, .error e)
    | (s1, .ok h) =>
      let n := fieldAt h 0 1
      if n = 0 ∨ 64 < n then (s1, .ok none)
      else match readVirt s1 l.ctx l.key (a + 64) (64 * n) with
      | (s2, .error e) => (s2, .error e)
      | (s2, .ok d) => (s2, .ok (some ((List.range n).map fun k => nodeOf (bits (l.word 4) 32 32) ((d.drop (64 * k)).take 64))))

/-- Loads every node's image. -/
def loadNodes (l : Launch) : List Node → State → State × Except FaultEntry (List Node)
  | [], s => (s, .ok [])
  | n :: r, s =>
    match readImage s l.ctx l.key n.image with
    | (s1, .error e) => (s1, .error e)
    | (s1, .ok i) =>
      match loadNodes l r s1 with
      | (s2, .ok more) => (s2, .ok ({ n with img := i } :: more))
      | z => z

def State.enabledAll (s : State) : Nat := (List.finRange 64).countP fun c => s.clusterEnabled c

/-- What R314 and R319 ask of a node at index k of n. -/
def nodeOk (s : State) (l : Launch) (n k : Nat) (x : Node) : Bool :=
  x.image.toNat % 256 == 0
    && (List.range 64).all (fun j => !x.succ.getLsbD j || decide (k < j ∧ j < n))
    && (if x.wide then decide (2 ≤ x.size ∧ x.size ≤ s.enabledAll) else decide (x.size ≤ 16 ∧ x.size ≤ s.enabledOf l.die))
    && x.img.elim false (imageOk s x.size)

/-- The launch passes admission. -/
def launchOk (s : State) (l : Launch) (ns : List Node) : Bool :=
  l.word 1 % 256 == 0 && l.word 5 % 128 == 0
    && (l.key.elim true fun k => (s.ctx l.ctx).keymap.getLsbD k.toNat)
    && ns.zipIdx.all fun x => nodeOk s l ns.length x.2 x.1

/-! Node and launch progress (R320, R325, R333). -/

/-- A node opens (R320): one record with its count; a count of 0 creates no instance. -/
def openNode (lid k : Nat) (s : State) : State :=
  match s.launch? lid with
  | none => s
  | some l => match l.nodes[k]? with
    | none => s
    | some n =>
      let s1 := s.modLaunch lid fun x =>
        { x with
          outstanding := x.outstanding + n.count
          nodes := x.nodes.mapIdx fun i y => if i = k then { y with isOpen := true, outstanding := y.outstanding + n.count } else y }
      if n.count = 0 then s1
      else addRecord l.die ⟨lid, k, 0, n.count, BitVec.ofNat 64 (l.word 3) + n.argOff, n.stride, l.rank, 0, false⟩ s1

/-- An open node completes when every instance of it has finished. -/
def Node.settle (n : Node) : Node := { n with complete := n.complete || (n.isOpen && n.outstanding == 0) }

/-- A node whose last predecessor has completed. -/
def Launch.ripe (l : Launch) (k : Nat) : Bool :=
  (l.nodes[k]?).elim false (fun n => !n.isOpen) && l.hasPredecessor k &&
    l.nodes.all fun p => !p.succ.getLsbD k || p.complete

/-- Nodes complete and open until nothing changes; after the reef point, under a purge, and once the launch has a status,
none opens (R331, R348, R401). -/
def settleNodes (lid : Nat) : Nat → State → State
  | 0, s => s
  | n + 1, s =>
    let s1 := s.modLaunch lid fun l => { l with nodes := l.nodes.map (·.settle) }
    match s1.launch? lid with
    | none => s1
    | some l =>
      if l.reefed ∨ l.purging ∨ l.status.isSome then s1
      else settleNodes lid n (((List.range l.nodes.length).filter l.ripe).foldl (fun z k => openNode lid k z) s1)

/-- A gang of the launch is placed or saved. -/
def State.hasGang (s : State) (lid : Nat) : Bool := s.gangs.any (·.launch == lid) || s.saved.any (·.gang.launch == lid)

/-- The launch's status once its work is over (R320, R333). -/
def endStatus (s : State) (l : Launch) : Option Nat :=
  if l.status.isSome ∨ l.phase ≠ .admitted ∨ l.purging then l.status
  else if l.reefed then (if s.hasGang l.id then none else some (if l.clustersDone then 1 else 2))
  else if l.nodes.all (·.complete) ∧ l.outstanding = 0 then some 0 else none

/-- The launch has ended when it has a status. -/
def settleLaunch (lid : Nat) (s : State) : State :=
  let s1 := settleNodes lid 65 s
  match s1.launch? lid with
  | some l => match endStatus s1 l with
    | some st => s1.modLaunch lid fun x => { x with status := some st, phase := .ended }
    | none => s1
  | none => s1

/-- A launch ends with a status, whatever it did. -/
def endLaunch (lid st : Nat) (s : State) : State :=
  s.modLaunch lid fun l => if l.status.isSome then l else { l with status := some st, phase := .ended }

/-- An instance of a node has finished (R320, R325). -/
def finishInstance (lid k : Nat) (s : State) : State :=
  settleLaunch lid (s.modLaunch lid fun l =>
    { l with
      started := true
      outstanding := l.outstanding - 1
      nodes := l.nodes.mapIdx fun i y => if i = k then { y with outstanding := y.outstanding - 1 } else y })

/-! Admission (R314, R318). -/

/-- The launch that leaves the ranked queue next (R317): lowest rank, then the order of taking. -/
def State.rankedHead (s : State) (d : Die) : Option Launch :=
  ((s.die d).ranked.filterMap s.launch?).foldl (fun a l => match a with
    | none => some l
    | some b => if l.rank < b.rank then some l else a) none

def unrank (l : Launch) (s : State) : State := s.modDie l.die fun d => { d with ranked := d.ranked.filter (· ≠ l.id) }

/-- A purge of the launch's context and tag is under way (R402). -/
def State.purgingOf (s : State) (l : Launch) : Bool := s.purges.any fun p => p.ctx == l.ctx && p.tag == l.tag

/-- The roots of a graph. -/
def rootsOf (ns : List Node) : List Nat := (List.range ns.length).filter fun k => !(ns.any fun n => n.succ.getLsbD k)

/-- The launch is admitted: its roots open. Where each of them has a count of 0, the launch is complete at once (R318), and no
other node opens. -/
def admitLaunch (l : Launch) (ns : List Node) (s : State) : State :=
  let s1 := (unrank l s).modLaunch l.id fun x => { x with phase := .admitted, nodes := ns, outstanding := 0, tAdmit := s.xtime }
  let s2 := (rootsOf ns).foldl (fun z k => openNode l.id k z) s1
  if (rootsOf ns).all fun k => (ns[k]?).elim true (·.count == 0) then
    endLaunch l.id 0 (s2.modLaunch l.id fun x => { x with nodes := x.nodes.map (·.settle) })
  else settleLaunch l.id s2

/-- The die's task pool takes a launch of n roots (R318). -/
def State.poolTakes (s : State) (d : Die) (n : Nat) : Bool := decide ((s.die d).pool.length + 256 + n < 4096)

/-- ADMISSION (R318): once the pool has room, the head launch, its checks, its roots; a fault waits for firmware (R314). -/
def execAdmission (d : Die) (s : State) : Host.Outcome State Fault Refusal :=
  match s.rankedHead d with
  | none => .next s
  | some l =>
    if s.dieRuns d = false ∨ (s.die d).admitWait.isSome ∨ (s.die d).spill ≠ [] ∨ s.purgingOf l ∨ s.ckpt ≠ .idle then .next s
    else
      let wait (s1 : State) (e : FaultEntry) : State :=
        (s1.modDie d fun x => { x with admitWait := some (e.by_ (.admission d), l.id) }).frontFault d (e.by_ (.admission d))
      let reject (s1 : State) : State := endLaunch l.id 6 (unrank l s1)
      match readNodes s l with
      | (s1, .error e) => .next (wait s1 e)
      | (s1, .ok none) => .next (if s1.poolTakes d 0 then reject s1 else s1)
      | (s1, .ok (some ns)) =>
        if s1.poolTakes d (rootsOf ns).length = false then .next s1
        else match loadNodes l ns s1 with
        | (s2, .error e) => .next (wait s2 e)
        | (s2, .ok ns2) => .next (if launchOk s2 l ns2 then admitLaunch l ns2 s2 else reject s2)

/-- SPILL_RETURN (R323). -/
def execSpillReturn (d : Die) (s : State) : Host.Outcome State Fault Refusal :=
  .next (s.modDie d fun x =>
    let n := 4096 - x.pool.length
    { x with pool := x.pool ++ x.spill.take n, spill := x.spill.drop n })

/-! Placement (R321, R324). -/

/-- A record with the die whose pool holds it. -/
def State.records (s : State) : List (Die × TaskRec) := (List.finRange 4).flatMap fun d => (s.die d).pool.map fun r => (d, r)

/-- A record's launch, node and image. -/
def State.recordNode (s : State) (r : TaskRec) : Option (Launch × Node × Image) :=
  (s.launch? r.launch).bind fun l => (l.nodes[r.node]?).bind fun n => n.img.map fun i => (l, n, i)

/-- One record stands before another in the device-wide order (R324). -/
def recordBefore (s : State) (a b : TaskRec) : Bool :=
  let begun (r : TaskRec) : Bool := (s.launch? r.launch).elim false (·.started)
  if begun a ≠ begun b then begun a
  else if a.rank ≠ b.rank then decide (a.rank < b.rank) else decide (a.made < b.made)

def insertRecord (s : State) (x : Die × TaskRec) : List (Die × TaskRec) → List (Die × TaskRec)
  | [] => [x]
  | y :: r => if recordBefore s x.2 y.2 then x :: y :: r else y :: insertRecord s x r

/-- The records in the device-wide order. -/
def State.placeOrder (s : State) : List (Die × TaskRec) := s.records.foldl (fun a x => insertRecord s x a) []

/-- The quadrant island of a cluster (16 R425). -/
def quadrantOf (c : Cl) : Fin 16 := Fin.ofNat 16 (c.val / 4)

/-- A cluster that a placement may take. -/
def State.freeCluster (s : State) (c : Cl) : Bool :=
  let x := s.core c
  s.clusterEnabled c && s.dieRuns (dieOf c) && x.gang.isNone && x.bin != 3 && !x.suspect && !s.power.noPlace.contains (quadrantOf c)

/-- Logical numbers for members (R339): the physical number if free, else the lowest free one of its die. -/
def assignLogical : List Cl → Vector (Option Cl) 64 → List Member × Vector (Option Cl) 64
  | [], m => ([], m)
  | c :: r, m =>
    let free := (List.finRange 64).filter fun i => (m.get i).isNone
    let i := if free.contains c then c else ((free.find? fun j => j.val / 16 == c.val / 16).getD ((free.head?).getD c))
    let z := assignLogical r (m.set i.val (some c))
    (⟨c, i⟩ :: z.1, z.2)

/-- A ring-table entry is declared at kernel start (R91): on the tiles of its mask; space 4 needs the context's map. A ring number
of 32 or more is taken modulo 32 (DESIGN CHOICE, log 67). -/
def declareRing (s : State) (c : Cl) (x : Fin 64) (r : List Byte) (t : Tl) (y : Tile) : Tile :=
  let sp := fieldAt r 2 1
  let base := fieldAt r 16 8
  if bits (fieldAt r 1 1) t.val 1 = 1 ∧ s.tileOk c t ∧ (sp ≠ 4 ∨ s.clusterOk x (bits base 24 6)) then
    y.setRing (BitVec.ofNat 5 (fieldAt r 0 1))
      ⟨true, BitVec.ofNat 3 sp, BitVec.ofNat 64 base, fieldAt r 4 4, fieldAt r 8 2, 0, 0, 0⟩
  else y

/-- A tile at kernel start (R91, R165, R223, R286). -/
def startTile (s : State) (c : Cl) (g : Gang) (t : Tl) (old : Tile) : Tile :=
  g.image.rings.foldl (fun y r => declareRing s c g.ctx r t y)
    { Tile.reset with tmpls := g.image.tmpls.filter fun x => x.f ≠ zeroBlock, streamTlb := old.streamTlb }

/-- A strand at kernel start (R45, R92). -/
def startStrand (g : Gang) (k : Sn) : Strand :=
  if k.val < g.image.strands then
    { Strand.reset with
      state := .run
      pc := alignPc (g.text + BitVec.ofNat 64 ((g.image.entries[k.val]?).getD 0))
      regs := Strand.reset.regs.set 2 (BitVec.ofNat 64 (0xb000000001000000 - k.val * g.image.stack))
      xstatus := BitVec.ofNat 64 (256 * (g.image.allots[k.val]?).getD 0) }
  else Strand.reset

/-- What a cluster keeps from kernel to kernel: its TLBs, its bin and what was counted of it. -/
def Core.idleFrom (x : Core) (cycle : Nat) : Core :=
  { Core.reset with
    superseded := x.superseded
    issued := x.issued
    tlb := x.tlb
    narrowed := x.narrowed
    toNarrow := x.toNarrow
    bin := x.bin
    suspect := x.suspect
    passes := x.passes
    corrected := x.corrected
    correctedAt := x.correctedAt
    idleSince := cycle
    tiles := x.tiles.each fun y => { Tile.reset with streamTlb := y.streamTlb } }

/-- The power-narrowed mode of a gang (R283): a member's quadrant is narrowed. -/
def gangNarrowed (s : State) (g : Gang) : Bool := g.members.any fun m => s.power.narrowed.contains (quadrantOf m.phys)

/-- A member's core at kernel start (R45, R321). -/
def startCore (s : State) (g : Gang) (args : List W) (c : Cl) (rank : Nat) : Core :=
  let x := (s.core c).idleFrom s.cycle
  let last := BitVec.ofNat 64 (g.inst * 2 ^ 32 + (g.members.length - 1) * 256 + rank)
  { x with
    strands := Vector.ofFn (startStrand g)
    xtbase := g.base + BitVec.ofNat 64 g.image.trapsOff
    mbox := Vector.ofFn fun i => if i = 7 then last else (args[i.val]?).getD 0
    gang := some g.id
    narrowed := gangNarrowed s g
    toNarrow := gangNarrowed s g
    tiles := Vector.ofFn fun t => startTile s c g t (x.tile t) }

/-- Audits that use a cluster, running or waiting for their replay, are abandoned, and counted (R407). -/
def State.abandonOn (s : State) (c : Cl) : State :=
  let uses (b : Entry) : Bool := b.audit.any (·.cluster == c)
  let d := dieOf c
  let running := (s.cores.toList.map fun x => (x.tiles.toList.map fun y =>
    (y.queues.toList.map fun q => q.entries.countP uses).sum).sum).sum
  let n := (s.die d).audits.countP (·.snap.cluster == c) + running
  if n = 0 then s
  else
    { s with cores := s.cores.each fun x => { x with tiles := x.tiles.each fun y => { y with queues := y.queues.each fun q =>
        { q with entries := q.entries.map fun b => if uses b then { b with audit := none } else b } } } }.modDie d fun x =>
      { x with
        audits := x.audits.filter (·.snap.cluster ≠ c)
        audAbandoned := (List.range n).foldl (fun a _ => saturate32 a) x.audAbandoned }

/-- Every member's core starts in one tick; the data section goes to each vault (R92, R287). -/
def startGang (g : Gang) (args : List W) (s0 : State) : State :=
  let s := g.members.foldl (fun z m => z.abandonOn m.phys) s0
  let s1 := { s with gangs := s.gangs ++ [g] }
  g.members.zipIdx.foldl (fun z m =>
    (writeHome z (vaultLoc m.1.phys 0) g.image.data).setCore m.1.phys (startCore s1 g args m.1.phys m.2)) s1

/-- The record's next instance has been placed or stopped; the record goes with its last. -/
def advanceRecord (d : Die) (r : TaskRec) (s : State) : State :=
  s.modDie d fun x =>
    { x with pool := x.pool.filterMap fun y =>
        if y = r then (if r.left ≤ 1 then none else some { r with next := r.next + 1, left := r.left - 1 }) else some y }

/-- An instance stopped before it is placed (R321). -/
def stopInstance (d : Die) (r : TaskRec) (cause : Nat) (a : W) (s : State) : State :=
  let e : LaunchEvent := ⟨0, true, ⟨s.cycle, 0, BitVec.ofNat 64 cause, 0, a, false, false⟩⟩
  finishInstance r.launch r.node ((advanceRecord d r s).modLaunch r.launch fun l => { l with events := l.events ++ [e] })

/-- The address of the argument record of a record's next instance. -/
def TaskRec.argument (r : TaskRec) : W := r.base + BitVec.ofNat 64 (r.next * r.stride)

/-- An instance is placed on clusters in ascending order. One that a fenced die had held is in the count already (R413). -/
def placeOn (d : Die) (r : TaskRec) (l : Launch) (n : Node) (img : Image) (cs : List Cl) (args : List W) (s : State) : State :=
  let z := assignLogical cs (s.ctx l.ctx).cmap
  let g : Gang :=
    { id := s.made, members := z.1, wide := n.wide, ctx := l.ctx, launch := l.id, node := r.node, inst := r.next,
      arg := r.base, tag := l.tag, key := l.key, image := img, base := n.image, bars := Vector.replicate 16 ⟨0, []⟩, preempt := none, diverted := false }
  let s1 := { s.modCtx l.ctx fun x => { x with cmap := z.2 } with made := s.made + 1 }
  (advanceRecord d r (startGang g args s1)).modLaunch l.id fun x =>
    { x with placed := if r.again then x.placed else x.placed + 1, started := true, tPlace := if x.placed = 0 then s.xtime else x.tPlace }

/-- A saved gang of a reefed launch waits for its restore, which comes ahead of every other placement (R331). -/
def SavedGang.awaitsReef (s : State) (g : SavedGang) : Bool :=
  (s.launch? g.gang.launch).elim false fun l => l.reefed && l.status.isNone && !l.purging

/-- The distributor of a die may place an instance of the node now (R324, R412): a wide one, only the master's. -/
def mayPlace (s : State) (d : Die) (n : Node) : Bool :=
  s.dieRuns d && (s.die d).placeWait.isNone && s.ckpt == .idle && (!n.wide || (s.master.die == d && !s.master.paused))
    && !s.saved.any (·.awaitsReef s)

/-- Records served in order (R324): the dies on which an earlier one waits, the clusters that earlier ones take, and whose turn it is:
the distributor, the pool, the record, the clusters of its next instance. -/
structure Served where
  shut : List Die
  held : List Cl
  turns : List (Die × Die × TaskRec × List Cl)

/-- One record is served: instances on the lowest-numbered free clusters of its die, or, wide, of the device. If one is left over, the
record holds what frees up: a die record on its own die, a wide one on every die. -/
def serveRecord (s : State) (a : Served) (x : Die × TaskRec) : Served :=
  match s.recordNode x.2 with
  | none => a
  | some (_, n, _) =>
    let by_ := if n.wide then s.master.die else x.1
    let cs := (List.finRange 64).filter fun c =>
      s.freeCluster c && !a.held.contains c && !a.shut.contains (dieOf c) && (n.wide || dieOf c == x.1)
    let k := if mayPlace s by_ n then min x.2.left (cs.length / n.size) else 0
    { shut := if k < x.2.left then (if n.wide then List.finRange 4 else x.1 :: a.shut) else a.shut
      held := a.held ++ cs.take (k * n.size)
      turns := if 0 < k then a.turns ++ [(by_, x.1, x.2, cs.take n.size)] else a.turns }

/-- What the distributor of a die places next: the pool, the record, the clusters. -/
def State.nextPlacement (s : State) (d : Die) : Option (Die × TaskRec × List Cl) :=
  ((s.placeOrder.foldl (serveRecord s) ⟨[], [], []⟩).turns.find? (·.1 == d)).map (·.2)

/-- PLACEMENT (R324): the distributor of a die places the next instance whose turn it is. -/
def execPlacement (d : Die) (s : State) : Host.Outcome State Fault Refusal :=
  match s.nextPlacement d with
  | none => .next s
  | some (dd, r, cs) =>
    match s.recordNode r with
    | none => .next s
    | some (l, n, img) =>
      let a := r.argument
      if a.toNat % 8 ≠ 0 then .next (stopInstance dd r 0x10004 a s)
      else match readVirt s l.ctx l.key a 56 with
      | (s1, .error e) =>
        .next ((s1.modDie d fun x => { x with placeWait := some (e.by_ (.placement d), dd, r) }).frontFault d (e.by_ (.placement d)))
      | (s1, .ok bs) => .next (placeOn dd r l n img cs (wordsOf bs) s1)

/-! Release (R289). -/

/-- A member is finished. -/
def memberFinished (x : Core) : Bool :=
  x.strands.toList.all (fun t => (t.state == .halted || t.state == .idle) && t.pend.isEmpty && t.asyncs.isEmpty)
    && x.tiles.toList.all (fun y => y.queues.toList.all (·.entries.isEmpty) && y.amends.isEmpty && y.links.isEmpty
      && y.accLand.isEmpty && y.redLand.isEmpty)
    && x.dcache.all (fun d => d.dirty == 0)

/-- The counts of a die's buffers reach the context's record (R345). -/
def flushCounts (x : Fin 64) (d : Die) (s : State) : State :=
  let mine := (s.die d).counts.filter fun e => e.1 / 64 == x.val
  let s1 := s.modDie d fun y => { y with counts := y.counts.filter fun e => e.1 / 64 != x.val }
  s1.modCtx x fun c => { c with bufs := mine.foldl (fun b e =>
    let i : Fin 64 := Fin.ofNat 64 e.1
    b.set i.val ((b.get i).1 + BitVec.ofNat 64 e.2.1, (b.get i).2 + BitVec.ofNat 64 e.2.2)) c.bufs }

/-- A member's slips go to its launch. -/
def Launch.collectSlips (l : Launch) (c : Cl) (x : Core) : Launch :=
  { l with
    slipSum := min (2 ^ 32 - 1) (l.slipSum + x.slipCount.toNat)
    slipLog := if l.slipLog.isNone ∧ x.slipCount ≠ 0 then some (c, x.slips) else l.slipLog }

/-- What a member leaves to its launch: validity, slips, events, whether a diverted member executed done. -/
def Launch.collect (l : Launch) (c : Cl) (x : Core) : Launch :=
  { l.collectSlips c x with
    validity := l.validity ||| x.xvalid
    events := l.events ++ x.events.map fun e => ⟨c, false, e⟩
    clustersDone := l.clustersDone && (!x.divertedHere || x.didDone) }

/-- The map entries of a gang's members are free again (R339). -/
def freeLogical (g : Gang) (s : State) : State :=
  s.modCtx g.ctx fun x => { x with cmap := g.members.foldl (fun m k => m.set k.logical.val none) x.cmap }

/-- A gang leaves its clusters: what it counted is kept, control writes still under way among it (R56), and its clusters are
free. -/
def leaveClusters (g : Gang) (s : State) : State :=
  let s1 := g.members.foldl (fun z m =>
    (z.modLaunch g.launch (·.collect m.phys ((z.core m.phys).settleCtl (z.cycle + 2)))).setCore m.phys ((z.core m.phys).idleFrom z.cycle)) s
  freeLogical g { (List.finRange 4).foldl (fun z d => flushCounts g.ctx d z) s1 with gangs := s1.gangs.filter (·.id ≠ g.id) }

/-- GANG_RELEASE (R289): every member is finished; the instance has finished. -/
def execGangRelease (i : Nat) (s : State) : Host.Outcome State Fault Refusal :=
  match s.gang? i with
  | none => .next s
  | some g =>
    .next (if g.members.all fun m => memberFinished (s.core m.phys) then finishInstance g.launch g.node (leaveClusters g s) else s)

/-! Reefing (R330 to R333, R298). -/

/-- Every record of a launch goes (R331). -/
def dropRecords (lid : Nat) (s : State) : State :=
  { s with dies := s.dies.each fun d =>
      { d with pool := d.pool.filter (·.launch ≠ lid), spill := d.spill.filter (·.launch ≠ lid) } }

/-- Instances of a launch that are placed or saved. -/
def State.liveInstances (s : State) (lid k : Nat) : Nat :=
  s.gangs.countP (fun g => g.launch == lid && g.node == k) + s.saved.countP fun g => g.gang.launch == lid && g.gang.node == k

/-- A strand of a stopped launch halts (R333). -/
def stopStrands (cycle : Nat) (x : Core) : Core :=
  (List.finRange 4).foldl (fun y k => if (y.strand k).state = .run ∨ (y.strand k).state = .handler then y.haltStrand cycle k else y) x

/-- How a reef leaves an engine queue (R331, R185): what has not started goes; what runs follows no link, and an
abortable block stops at its row. -/
def reefQueue (stopAll : Bool) (q : Queue) : Queue :=
  { q with entries := (q.entries.filter fun b => b.started && !(stopAll && b.fault.isSome)).map fun b =>
      { b with noLink := true, cutRow := b.cutRow || stopAll || fbits b.f 0 15 1 == 1 } }

/-- A running entry that is cut between rows ends there, in no tick before the one given. -/
def cutEnding (tick : Nat) (b : Entry) : Entry :=
  if b.cutRow ∧ b.phase = .running ∧ b.n % max 1 (extOf b.f 0) = 0 ∧ b.fault.isNone then { b with phase := .ending, ready := max b.ready tick } else b

/-- A change that is no issue. -/
def Amend.plain : Amend → Bool
  | .issue .. => false
  | _ => true

/-- The queues of a tile at a reef; links and issues on their way go before they take a number or write fields 28 and 30 (R185; DESIGN
CHOICE, log 69), and waits of blocks lose their place. -/
def reefTile (stopAll : Bool) (tick : Nat) (y : Tile) : Tile :=
  { y with
    queues := Vector.ofFn fun i =>
      let q := reefQueue stopAll (y.queues.get i)
      { q with entries := q.entries.map (cutEnding (max tick (y.landedBy (Eng.ofCode i.val)))) }
    links := []
    amends := y.amends.filter (·.plain)
    tlds := y.tlds.map fun l => { l with before := (y.amends.take l.before).countP (·.plain) }
    semQ := y.semQ.filter fun w => match w.who with
      | .block .. => false
      | .strand _ => true
    semNew := y.semNew.filter fun w => match w.who with
      | .block .. => false
      | .strand _ => true }

/-- Every member of a gang. -/
def modMembers (g : Gang) (f : Core → Core) (s : State) : State := g.members.foldl (fun z m => z.modCore m.phys f) s

/-- Nothing under way in a core lands any more (R333): accesses that have not performed, control writes, results of engines. -/
def Core.dropLate (x : Core) : Core :=
  { x with
    ctl := []
    strands := x.strands.each fun t => { t with pend := [], ctl := [] }
    tiles := x.tiles.each fun y => { y with accLand := [], redLand := [], fwds := [], tlds := [], decls := [] } }

/-- The audits of a gang's entries that pass are abandoned (R407). -/
def abandonThose (p : Entry → Bool) (g : Gang) (s : State) : State :=
  g.members.foldl (fun z m => (z.core m.phys).tiles.toList.foldl (fun w y => y.queues.toList.foldl (fun v q =>
    (q.entries.filter p).foldl (fun u b => abandonAudit u m.phys b) v) w) z) s

/-- A gang of a stopped launch (R333): strands halt, entries go or stop at their row, nothing later lands. -/
def stopGang (g : Gang) (s : State) : State :=
  modMembers g (fun x =>
    let y := (stopStrands s.cycle x).dropLate
    { y with tiles := y.tiles.each (reefTile true (tickOf s.cycle)) })
    ((abandonThose (·.fault.isSome) g s).modGang g.id fun y => { y with diverted := true })

/-- The faults of a gang's strands (src 0), and of its engines (up to src 1), leave the fault queues: what waited for them
is abandoned (R332, R348). -/
def dropFaults (g : Gang) (src : Nat) (s : State) : State :=
  { s with faultq := s.faultq.each fun q => q.filter fun e => !(decide (e.src ≤ src) && g.members.any fun m => m.phys == e.cluster) }

/-- The saved gangs of a launch are discarded; what their members had to leave to it is kept (R334). -/
def dropSaved (lid : Nat) (s : State) : State :=
  let mine : List SavedGang := s.saved.filter fun (g : SavedGang) => g.gang.launch == lid
  let left : List (Cl × Core) := mine.flatMap fun (g : SavedGang) => (g.gang.members.zip g.members).map fun m => (m.1.phys, m.2.core)
  { s with saved := s.saved.filter (·.gang.launch ≠ lid) }.modLaunch lid fun l => left.foldl (fun (l : Launch) (m : Cl × Core) => l.collect m.1 m.2) l

/-- The launch is stopped: its budget has run out (R333). -/
def stopLaunch (lid : Nat) (s : State) : State :=
  let s1 := (s.gangs.filter (·.launch == lid)).foldl (fun z g => dropFaults g 1 (stopGang g z)) s
  settleLaunch lid ((dropSaved lid s1).modLaunch lid fun l => { l with clustersDone := false })

/-- The reef point of a launch has come (R330). -/
def Launch.reefDue (l : Launch) (now : W) : Bool :=
  l.deadline != 0 && decide (l.deadline ≤ now.toNat) && !l.reefed && l.status.isNone && !l.purging

/-- Completed nodes as a mask (R334). -/
def Launch.doneMask (l : Launch) : BitVec 64 := l.nodes.zipIdx.foldl (fun m x => if x.1.complete then m ||| (1 <<< x.2) else m) 0

/-- REEF_POINT (R330, R331, R333). -/
def execReefPoint (lid : Nat) (s : State) : Host.Outcome State Fault Refusal :=
  match s.launch? lid with
  | none => .next s
  | some l =>
    if l.reefDue s.xtime = false then .next s
    else
      let s1 := (dropRecords lid (unrank l s)).modLaunch lid fun x =>
        { x with
          reefed := true
          tReef := s.xtime
          doneAtReef := x.doneMask
          outstanding := ((List.range x.nodes.length).map (s.liveInstances lid)).sum
          nodes := x.nodes.mapIdx fun k n => { n with outstanding := s.liveInstances lid k } }
      if l.placed = 0 then .next (endLaunch lid 3 s1)
      else if l.budget = 0 then .next (stopLaunch lid s1)
      else .next (settleLaunch lid s1)

/-- One strand is diverted (R332, R298): its asynchronous traps go to the record. `cycle` is the first core cycle of the tick in
which diversion begins (R294). -/
def divertStrand (cycle : Nat) (g : Gang) (k : Sn) (x : Core) : Core :=
  let t := x.strand k
  if t.state ≠ .run ∧ t.state ≠ .handler then x
  else
    let evs := t.asyncs.map fun a =>
      FirstEvent.mk cycle k ((a.code.setWidth 64 : W) ||| ((a.detail.setWidth 64 : W) <<< 16)) 0 a.tval false true
    let t0 := t.settleCtl (cycle + 2)
    let t1 := { t0 with
      state := .run
      xepc := t0.pc
      xstatus := setBit (setBit (setBit t0.xstatus 5 true) 6 false) 0 false
      loop0 := { t0.loop0 with count := 0 }
      loop1 := { t0.loop1 with count := 0 }
      xrep := 0
      inRep := false
      qAt := 0
      flq := []
      flqHead := 0
      flqHalt := none
      pend := t.pend.filter fun p => p.kind.slot?.isNone
      fw := none
      wait := none
      zWait := false
      tld := false
      mboxInt := none
      asyncs := []
      stopped := false
      drainUntil := t.latest cycle + 3 }
    let y := (x.withdraw k).setStrand k t1
    let z := { y with events := y.events ++ evs, divertedHere := true, didDone := false }
    match g.image.reef with
    | some o => z.modStrand k fun u => { u with pc := alignPc (g.text + BitVec.ofNat 64 o) }
    | none => z.haltStrand cycle k

/-- A gang is diverted: its engine queues first, then its strands; a generation fence under way is abandoned (R351). -/
def divertGang (g : Gang) (s : State) : State :=
  modMembers g (fun x =>
    let y := { x with tiles := x.tiles.each (reefTile false (tickOf s.cycle)) }
    ((List.finRange 4).foldl (fun z k => divertStrand (s.cycle + 1) g k z) y).settleRendezvous)
    (s.modGang g.id fun y => { y with diverted := true, preempt := if y.preempt = some .node then y.preempt else none })

/-- REEF_DIVERSION (R332): at the end of the reef-point tick, for the tick after it, before any block of that tick starts (R331),
every gang of the launch. -/
def execReefDiversion (lid : Nat) (s : State) : Host.Outcome State Fault Refusal :=
  match s.launch? lid with
  | some l =>
    .next (if l.reefed then
      (s.gangs.filter fun g => g.launch == lid && !g.diverted).foldl (fun z g => dropFaults g 0 (divertGang g z)) s
    else s)
  | none => .next s

/-- The budget of a reefed launch has run out (R333). -/
def Launch.budgetOver (l : Launch) (now : W) : Bool :=
  l.reefed && l.status.isNone && !l.purging && decide (l.tReef.toNat + 1000 * l.budget ≤ now.toNat)

/-- REEF_BUDGET_EXPIRY (R333). -/
def execReefBudgetExpiry (lid : Nat) (s : State) : Host.Outcome State Fault Refusal :=
  match s.launch? lid with
  | some l => .next (if l.budgetOver s.xtime then stopLaunch lid s else s)
  | none => .next s

/-! The completion record (R334, R335). -/

/-- The earliest of the events that pass. -/
def earliest (p : LaunchEvent → Bool) (es : List LaunchEvent) : Option LaunchEvent :=
  (es.filter p).foldl (fun a e => match a with
    | none => some e
    | some b => if e.e.time < b.e.time then some e else a) none

/-- The event the record reports: the earliest; of a purged launch the consuming one (R403), unless an earlier event had set the
faulted flag. -/
def Launch.firstEvent (l : Launch) : Option LaunchEvent :=
  match l.consumed with
  | none => earliest (fun _ => true) l.events
  | some c => if l.events.any (fun e => !e.e.async && decide (e.e.time < c.e.time)) then earliest (fun _ => true) l.events else some c

/-- The record's doublewords 0 to 15 and the slip log (Table 9). -/
def recordWords (l : Launch) (now : W) : List W :=
  let faulted := l.faulted || l.events.any fun e => !e.e.async
  let flags := 256 * faulted.toNat + 512 * (l.events.any (·.e.double)).toNat + 1024 * l.replayed.toNat
    + 2048 * (l.events.any (·.e.async)).toNat
  let d0 := (l.status.getD 0) % 256 + flags + 2 ^ 16 * l.tag.toNat + 2 ^ 32 * l.queue.val + 2 ^ 63
  let ev := l.firstEvent
  let d13 := ev.elim 0 fun e => e.cluster.val + 256 * e.e.strand.val + 4096 * e.notPlaced.toNat + 2 ^ 32 * l.events.length
  let log := l.slipLog.elim [] (·.2)
  [BitVec.ofNat 64 d0, l.index, l.validity, if l.reefed then l.doneAtReef else l.doneMask, l.tAdmit, l.tPlace, l.tReef, now,
    BitVec.ofNat 64 (l.placed % 2 ^ 32 + 2 ^ 32 * l.rejectedSpawns),
    BitVec.ofNat 64 (l.slipSum + 2 ^ 32 * l.slipLog.elim 0 (·.1.val)),
    ev.elim 0 (·.e.cause), ev.elim 0 (·.e.epc), ev.elim 0 (·.e.tval), BitVec.ofNat 64 d13, 0, 0]
    ++ (List.range 128).map fun i => BitVec.ofNat 64 (bits (((log[i / 2]?).getD 0 : BitVec 128).toNat) (64 * (i % 2)) 64)

/-- The record's address. -/
def Launch.recordAddr (l : Launch) : W := BitVec.ofNat 64 (l.word 5)

/-- The launch is over for the front end: a message where the queue asks for one, its packet is complete. -/
def closeLaunch (l : Launch) (s : State) : State :=
  let s1 := { s with launches := s.launches.filter (·.id ≠ l.id) }
  completePacket (notify (s1.queue l.queue.val) s1) l.queue.val l.index

/-- The record of a launch that has a status, and no gang left, is written: bytes 8 on first, then doubleword 0 (R335). -/
def writeRecord (lid : Nat) (s : State) : State :=
  match s.launch? lid with
  | none => s
  | some l =>
    if l.status.isNone ∨ l.purging ∨ l.recordWait.isSome ∨ s.hasGang lid then s
    else
      let bs := (recordWords l s.xtime).flatMap fun w => bytesOf 8 w.toNat
      let wait (s1 : State) (e : FaultEntry) : State :=
        (s1.modLaunch lid fun x => { x with recordWait := some (e.by_ (.record lid)) }).frontFault l.die (e.by_ (.record lid))
      match writeVirt s l.ctx (l.recordAddr + 8) (bs.drop 8) with
      | (s1, some e) => wait s1 e
      | (s1, none) => match writeVirt s1 l.ctx l.recordAddr (bs.take 8) with
        | (s2, some e) => wait s2 e
        | (s2, none) => closeLaunch l s2

/-- COMPLETION_RECORD_WRITE (R335). -/
def execCompletionRecordWrite (lid : Nat) (s : State) : Host.Outcome State Fault Refusal := .next (writeRecord lid s)

end Sys2Proof.Machine
end

