-- ==== Sys2Proof/Machine/Contexts.lean ====
section
/-! DEFINITION. Contexts (12 R337, R338, R355), pre-emption and restore (12 R349 to R354), and firmware's answer to a fault
by ending the launch (12 R338, R348). -/

namespace Sys2Proof.Machine

/-! Contexts. -/

/-- Counters and slots of a partition as it is granted (R370, R372): zero and Free. -/
def grantPartition (x : Fin 64) (s : State) : State :=
  let c := s.ctx x
  let inC (n : Nat) : Bool := decide (c.cbase ≤ n) && decide (n < c.cbase + c.ccnt)
  let inS (n : Nat) : Bool := decide (c.sbase ≤ n) && decide (n < c.sbase + c.scnt)
  { s with
    ctrs := s.ctrs.filter fun e => !inC e.1
    slots := s.slots.filter fun e => !inS e.1
    chains := s.chains.filter fun e => !inS e.head }

/-- The record that firmware writes for a new context (R337, R338): ageing 15; no key, no unit, no scope. -/
def ContextInit.record (r : ContextInit) : Context :=
  { Context.reset with
    state := .active, root := r.root, dkey := r.dkey, agc := 15, pf := r.pf, kf := r.kf, mc := r.mc, cbase := r.cbase, ccnt := r.ccnt,
    sbase := r.sbase, scnt := r.scnt, pwt := r.pwt, pwn := r.pwn, saveBase := r.saveBase, fenceLimit := r.fenceLimit }

/-- CONTEXT_CREATE (R337, R338): the leader writes the record and grants its partition. -/
def execContextCreate (x : Fin 64) (r : FromLeader ContextInit) (s : State) : Host.Outcome State Fault Refusal :=
  .next (if s.heeds r.term ∧ (s.ctx x).state = .free then grantPartition x (s.modCtx x fun _ => r.what.record) else s)

/-- A tile whose entries go where they stand: results under way land nowhere. -/
def Tile.discard (y : Tile) : Tile :=
  { reefTile true 0 y with
    queues := y.queues.each fun q => { q with entries := [] }
    accLand := []
    redLand := []
    fwds := []
    tlds := []
    decls := [] }

/-- Every entry of every queue of a gang goes where it stands (R355, R401): audits are abandoned. -/
def discardEntries (g : Gang) (s : State) : State :=
  modMembers g (fun x => { x with tiles := x.tiles.each (·.discard) }) (abandonThose (fun _ => true) g s)

/-- A gang stops at once: strands halt, entries go, what waited for firmware is abandoned. -/
def haltGang (g : Gang) (s : State) : State :=
  dropFaults g 1 (discardEntries g (modMembers g (stopStrands s.cycle) (s.modGang g.id fun y => { y with diverted := true, preempt := none })))

/-- A chain of a context's slot goes; armed and firing heads are cancelled. -/
def cancelOf (hit : Slot → Bool) (s : State) : State :=
  { s with
    slots := s.slots.map fun e => if hit e.2 ∧ (e.2.state = .armed ∨ e.2.state = .firing) then (e.1, { e.2 with state := .cancelled }) else e
    chains := s.chains.filter fun c => !hit (s.slot c.head) }

/-- The queues of a context stop being read (R355). -/
def stopQueues (x : Fin 64) (s : State) : State :=
  { s with queues := s.queues.map fun e => if e.2.d.ctx = x then
      (e.1, { e.2 with d := { e.2.d with en := false }, state := .disabled, taken := none, open_ := [], skip := none, mirror := none }) else e }

/-- What a killed context's strand still performs (R355): accesses to peers, and to its own SRAM. Writes to device memory are
under a retired key, and dropped. -/
def Pend.outlives (p : Pend) : Bool :=
  match p.tgt with
  | .loc a _ _ => decide (hbmSize ≤ a)
  | .virt .. => false
  | .peer .. => true

/-- The accesses of a killed context's strands under a retired key go (R355). -/
def Core.dropKeyed (x : Core) : Core := { x with strands := x.strands.each fun t => { t with pend := t.pend.filter (·.outlives) } }

/-- The faults that agents of a context have entered leave the queues: nobody waits for them any more. -/
def dropCtxFaults (x : Fin 64) (s : State) : State :=
  let gone (e : FaultEntry) : Bool := e.ctx == x && e.agent.elim true fun a => a != .source .host && a != .source .peer
  { s with faultq := s.faultq.each fun q => q.filter (!gone ·), islandFaults := s.islandFaults.filter (!gone ·) }

/-- Every launch of a context is gone without a record (R355). -/
def dropLaunches (x : Fin 64) (s : State) : State :=
  let mine := (s.launches.filter (·.ctx == x)).map (·.id)
  { s with
    launches := s.launches.filter (·.ctx ≠ x)
    saved := s.saved.filter (·.gang.ctx ≠ x)
    copies := s.copies.filter fun j => s.ctxOfQueue j.queue ≠ x
    dies := s.dies.each fun d =>
      { d with
        admitWait := d.admitWait.filter fun w => !mine.contains w.2
        placeWait := d.placeWait.filter fun w => !mine.contains w.2.2.launch
        ranked := d.ranked.filter fun l => !mine.contains l
        pool := d.pool.filter fun r => !mine.contains r.launch
        spill := d.spill.filter fun r => !mine.contains r.launch } }

/-- The keys of a context are retired at once. -/
def retireKeys (x : Fin 64) (s : State) : State :=
  { s with
    keyRetired := s.keyRetired ||| (s.ctx x).keymap
    keys := s.keys.map fun k => if (s.ctx x).keymap.getLsbD k.1 then (k.1, (.retired, k.2.2)) else k }

/-- An active context is killed (R355 steps 1 to 3). -/
def killContext (x : Fin 64) (s : State) : State :=
  if (s.ctx x).state ≠ .active then s
  else
    let s1 := retireKeys x (stopQueues x (s.modCtx x fun c => { c with state := .killing }))
    let s2 := (s1.gangs.filter (·.ctx == x)).foldl (fun z g => modMembers g (·.dropKeyed) (haltGang g z)) (dropCtxFaults x (dropLaunches x s1))
    cancelOf (fun d => d.ctx == x) s2

/-- CONTEXT_KILL (R355, R427): the leader's request. -/
def execContextKill (r : FromLeader (Fin 64)) (s : State) : Host.Outcome State Fault Refusal :=
  .next (if s.heeds r.term then killContext r.what s else s)

/-- KILL_COMPLETE (R355 steps 4 and 5): the keys are free, the context is Free, and the report (context, 3) tells the host
driver. -/
def execKillComplete (x : Fin 64) (s : State) : Host.Outcome State Fault Refusal :=
  .next (if (s.ctx x).state = .killing ∧ s.gangs.all (·.ctx ≠ x) = true then
    let km := (s.ctx x).keymap
    { s with
      keyRetired := s.keyRetired &&& ~~~km
      reports := s.reports ++ [(x.val, 3)]
      keys := s.keys.filter fun k => !km.getLsbD k.1
      keyBits := s.keyBits.filter fun k => !km.getLsbD k.1 }.modCtx x fun _ => .reset
  else s)

/-- FAULT_POLICY_END_LAUNCH (R338 policy 3, R348): as a budget expiry, with status 4. -/
def execFaultPolicyEndLaunch (lid : Nat) (s : State) : Host.Outcome State Fault Refusal :=
  match s.launch? lid with
  | none => .next s
  | some l =>
    if l.status.isSome ∨ (List.finRange 5).all (fun f => !s.attends f) then .next s
    else .next (stopLaunch lid (endLaunch lid 4 (dropRecords lid (unrank l s))))

/-! Saving (R349 to R351). -/

/-- A range of the memory list, by offset. -/
def cellsIn (m : List Host.Cell) (lo n : Nat) : List Host.Cell :=
  (m.filter fun c => decide (lo ≤ c.1) && decide (c.1 < lo + n)).map fun c => (c.1 - lo, c.2)

/-- A range reads as zeros. -/
def clearRange (lo n : Nat) (s : State) : State :=
  { s with mem := s.mem.filter fun c => !(decide (lo ≤ c.1) && decide (c.1 < lo + n)) }

def writeCells (lo : Nat) (cs : List Host.Cell) (s : State) : State := cs.foldl (fun z c => z.setByte (lo + c.1) c.2) s

/-- NODE_BOUNDARY_REQUEST (R349). -/
def execNodeBoundaryRequest (i : Nat) (s : State) : Host.Outcome State Fault Refusal :=
  .next (s.modGang i fun g => if g.preempt.isNone then { g with preempt := some .node } else g)

/-- The strand stands in a bar.sync on b15 that has not been granted. -/
def atYield (s : State) (c : Cl) (t : Strand) : Bool :=
  match t.wait.map Wait.obj with
  | some (.bar b _) => b == 15 && match (fetch s c t.pc).bind fun w => (decode w).toOption with
    | some (.barSync ..) => true
    | _ => false
  | _ => false

/-- A strand that counts as yielded: Halted or Idle, or at its yield point, with no trap pending. -/
def yielded (s : State) (c : Cl) (t : Strand) : Bool :=
  (t.state == .halted || t.state == .idle || atYield s c t) && t.asyncs.isEmpty && t.mboxInt.isNone && t.fw.isNone

/-- The tiles of a cluster hold no engine work. -/
def queuesIdle (x : Core) : Bool :=
  x.tiles.toList.all fun y => y.queues.toList.all (·.entries.isEmpty) && y.amends.isEmpty && y.links.isEmpty && y.tlds.isEmpty && y.decls.isEmpty

/-- A member's dirty lines go to its vault. -/
def cleanMembers (g : Gang) (s : State) : State := g.members.foldl (fun z m => cleanAll m.phys z) s

/-- Every strand of a member has yielded. -/
def strandsYield (s : State) (c : Cl) : Bool := (s.core c).strands.toList.all (yielded s c)

/-- A member whose strands have all yielded writes back its dirty lines. -/
def cleanYielded (g : Gang) (s : State) : State := g.members.foldl (fun z m => if strandsYield z m.phys then cleanAll m.phys z else z) s

/-- A member is at a yield point. -/
def memberYields (s : State) (c : Cl) : Bool :=
  let x := s.core c
  strandsYield s c && x.strands.toList.all (·.pend.isEmpty) && queuesIdle x && x.dcache.all (·.dirty == 0)

/-- b15 goes on when its gang cannot yield in it: a strand has come to it without yielding, or engine work is left that it may
have to wait for (DESIGN CHOICE, log 67). -/
def goOnB15 (g : Gang) (s : State) : State :=
  if g.members.all (fun m => strandsYield s m.phys && queuesIdle (s.core m.phys)) then s
  else s.modGang g.id fun y => y.setBar 15 (settleBarrier s g (y.bar 15))

/-- What a strand saves at a yield point (R350 Table 9); xepc is the bar.sync word. Results in flight have landed with their flags,
and control writes under way have taken effect (R56, R58). -/
def Strand.nodeSave (t0 : Strand) (cycle : Nat) : Strand :=
  let t := (t0.landDue (t0.latest cycle)).settleCtl (cycle + 2)
  if t.state = .idle then Strand.reset
  else { Strand.reset with
    state := if t.state = .halted then .halted else .run
    pc := t.pc
    xepc := if t.state = .halted then t.xepc else t.pc
    regs := Vector.ofFn fun i => if 1 ≤ i.val ∧ i.val ≤ 16 ∧ i.val < t.allot then t.regs.get i else 0
    preds := t.preds
    xstatus := t.xstatus &&& 0x300
    xfpmode := t.xfpmode
    xfflags := t.xfflags
    xstklim := t.xstklim }

/-- The vault bytes of a yield-point save: the data section and the stacks (R92). -/
def nodeVault (s : State) (g : Gang) (c : Cl) : List Host.Cell :=
  let n := g.image.strands * g.image.stack
  (cellsIn s.mem (vaultLoc c 0) (2 ^ 24)).filter fun x => decide (x.1 < g.image.data.length) || decide (2 ^ 24 - n ≤ x.1)

/-- The enabled tiles of a cluster. -/
def State.tilesOf (s : State) (c : Cl) : BitVec 8 := (List.finRange 8).foldl (fun m t => if s.tileOk c t then m ||| (1 <<< t.val) else m) 0

def nodeMember (s : State) (g : Gang) (m : Member) : SavedMember :=
  let x := (s.core m.phys).settleCtl (s.cycle + 2)
  { core := { Core.reset with
      strands := x.strands.each (·.nodeSave s.cycle), mbox := x.mbox, xvalid := x.xvalid, xframe := x.xframe, events := x.events,
      didDone := x.didDone, divertedHere := x.divertedHere, slipCount := 0 },
    die := dieOf m.phys, tiles := s.tilesOf m.phys, vault := nodeVault s g m.phys, spad := [], acc := [] }

/-- A gang leaves its clusters for its save area; its counts go to the context, and slips that the area does not hold to the launch. -/
def saveGang (g : Gang) (fence : Bool) (cut : List (BitVec 32 × Nat)) (ms : List SavedMember) (s : State) : State :=
  let s0 := if fence then s else g.members.foldl (fun z m => z.modLaunch g.launch (·.collectSlips m.phys (s.core m.phys))) s
  let s1 := g.members.foldl (fun z m => z.modCore m.phys (·.idleFrom z.cycle)) s0
  let s2 := freeLogical g ((List.finRange 4).foldl (fun z d => flushCounts g.ctx d z) s1)
  { s2 with gangs := s2.gangs.filter (·.id ≠ g.id), saved := s2.saved ++ [⟨{ g with preempt := none }, fence, cut, ms⟩] }

/-- YIELD_POINT_SAVE (R350). -/
def execYieldPointSave (i : Nat) (s : State) : Host.Outcome State Fault Refusal :=
  match s.gang? i with
  | none => .next s
  | some g =>
    if g.preempt ≠ some .node then .next s
    else
      let s1 := cleanYielded g s
      .next (if g.members.all (fun m => memberYields s1 m.phys) then saveGang g false [] (g.members.map (nodeMember s1 g)) s1
        else goOnB15 g s1)

/-- The issues to an engine, on their way at the request, of generations before the fence's. -/
def Tile.olderIssues (y : Tile) (e : Eng) (f : BitVec 32) : Nat :=
  y.amends.countP fun a => match a with
    | .issue e' _ g _ => e' == e && g != f
    | _ => false

/-- The sequence number of a queue's cut (R351): the first entry that has not started and bears the fence generation; else
behind every issue of an older one, and before the links yet to come. -/
def cutOf (y : Tile) (e : Eng) (f : BitVec 32) : BitVec 32 :=
  let q := y.queue e
  match q.entries.find? fun b => !b.started && b.gen == f with
  | some b => b.seq
  | none => q.next + BitVec.ofNat 32 (y.olderIssues e f)

/-- Words that hold issue have not issued (R351). -/
def Tile.dropHeld (y : Tile) : Tile := { y with tlds := [], decls := [] }

def cutsOf (x : Core) (c : Cl) : List (Nat × BitVec 32) :=
  (sitesOf c).map fun v => (v.number, cutOf (x.tile v.t) v.e x.xgen)

/-- A strand stops as for an interrupt (R351): its wait is withdrawn, xepc is its next word. A wait for a semaphore or a ring goes
in the last step of the tick, unless it is granted in it (R284). -/
def stopForFence (cycle : Nat) (x : Core) : Core :=
  (List.finRange 4).foldl (fun y k =>
    let t := y.strand k
    if t.state = .run ∨ t.state = .handler then
      (if t.tileWait then y else y.withdraw k).modStrand k fun u =>
        { u.settleCtl (cycle + 2) with stopped := true, tld := false, xepc := (u.settleCtl (cycle + 2)).pc, qAt := 0 }
    else y) x

/-- A gang's fence begins (R351 step 1). The limit is in microseconds; 0 is 1,000. -/
def beginFence (i : Nat) (s : State) : State :=
  match s.gang? i with
  | none => s
  | some g =>
      let us := if (s.ctx g.ctx).fenceLimit = 0 then 1000 else (s.ctx g.ctx).fenceLimit
      let cuts := g.members.flatMap fun m => cutsOf (s.core m.phys) m.phys
      modMembers g (fun x => stopForFence s.cycle { x with tiles := x.tiles.each (·.dropHeld) })
        (s.modGang i fun y => { y with preempt := some (.fence (tabSort cuts) (s.cycle + 1800 * us)) })
where
  tabSort (l : List (Nat × BitVec 32)) : List (Nat × BitVec 32) := l.foldl (fun t e => tabSet t e.1 e.2) []

/-- GENERATION_FENCE_REQUEST (R351): a gang without a pre-emption under way. -/
def execGenerationFenceRequest (i : Nat) (s : State) : Host.Outcome State Fault Refusal :=
  .next (if (s.gang? i).elim false (·.preempt.isNone) then beginFence i s else s)

/-- A member has settled behind its fence (R351 steps 2 and 3). -/
def memberSettled (s : State) (c : Cl) : Bool :=
  let x := s.core c
  (sitesOf c).all (fun v => ((x.tile v.t).queue v.e).entries.all fun b => !b.started && s.behindCut v b)
    && x.strands.toList.all (fun t => t.pend.isEmpty && t.flights.all (fun f => decide (f.due ≤ s.cycle))
      && t.xlates.all fun f => decide (f.due ≤ s.cycle))
    && x.tiles.toList.all (fun y => y.amends.isEmpty && y.links.isEmpty && y.accLand.isEmpty && y.redLand.isEmpty && y.fwds.isEmpty)
    && x.dcache.all (·.dirty == 0)

/-- What a strand saves behind a fence (R351 Table 10). -/
def Strand.fenceSave (t : Strand) (cycle : Nat) : Strand :=
  { t.landDue cycle with
    flights := [], ctl := [], xt := 0, xlates := [], gapUntil := 0, swUntil := 0, drainUntil := 0, wait := none, fw := none, tried := 0,
    tld := false }

/-- An entry saved unstarted. -/
def Entry.saved (b : Entry) : Entry := { b with phase := if b.phase = .waiting then .waiting else .queued, ready := 0 }

def fenceMember (s : State) (m : Member) : SavedMember :=
  let x := (s.core m.phys).settleCtl (s.cycle + 2)
  { core := { x with
      strands := x.strands.each (·.fenceSave s.cycle), hflights := [], ctl := [], dcache := [], tlb := [], gang := none,
      tiles := x.tiles.each fun y => { y.takeArrivals with
        queues := y.queues.each fun q => { q with entries := q.entries.map (·.saved) }, streamTlb := [] } },
    die := dieOf m.phys, tiles := s.tilesOf m.phys, vault := cellsIn s.mem (vaultLoc m.phys 0) (2 ^ 24),
    spad := (List.finRange 8).map fun t => cellsIn s.mem (spadLoc m.phys t 0) (2 ^ 20),
    acc := (List.finRange 8).map fun t => cellsIn s.mem (accLoc m.phys t 0) (2 ^ 18) }

/-- The cut vector (R351 Table 10): the last stopped number and the entries saved of every queue. -/
def cutVector (s : State) (g : Gang) : List (BitVec 32 × Nat) :=
  g.members.flatMap fun m => (sitesOf m.phys).map fun v =>
    let q := (s.tile v.c v.t).queue v.e
    (q.done, q.entries.length)

/-- FENCE_SNAPSHOT (R351 step 4). -/
def execFenceSnapshot (i : Nat) (s : State) : Host.Outcome State Fault Refusal :=
  match s.gang? i with
  | none => .next s
  | some g => match g.preempt with
    | some (.fence ..) =>
      let s1 := cleanMembers g s
      .next (if g.members.all (fun m => memberSettled s1 m.phys) = true then
        dropFaults g 1 (saveGang g true (cutVector s1 g) (g.members.map (fenceMember s1)) s1)
      else s)
    | _ => .next s

/-- A strand goes on at xepc as after eret, in the state it had. -/
def Strand.resume (t : Strand) : Strand :=
  if t.state = .run ∨ t.state = .handler then
    { t with stopped := false, pc := alignPc t.xepc, inRep := decide ((t.xrep.setWidth 32 : BitVec 32) ≠ 0), qAt := 0 }
  else { t with stopped := false }

/-- Strands and engines of a fenced gang go on. -/
def abandonFence (g : Gang) (s : State) : State :=
  modMembers g (fun x => { x with strands := x.strands.each (·.resume) }) (s.modGang g.id fun y => { y with preempt := none })

/-- FENCE_ABANDON (R351): the limit has passed. It fails a checkpoint that waits for the gang, and the report names the
gang (R417). -/
def execFenceAbandon (i : Nat) (s : State) : Host.Outcome State Fault Refusal :=
  match s.gang? i with
  | none => .next s
  | some g => match g.preempt with
    | some (.fence _ limit) =>
      .next (if limit ≤ s.cycle then
        let s1 := abandonFence g s
        if s.ckpt = .quiesce then
          { s1 with ckpt := .failed, reports := s1.reports ++ [(i, 2)], todo := .checkpointResume :: s1.todo }
        else s1
      else s)
    | _ => .next s

/-! Restoring (R350, R352). -/

/-- Restored memory of a member: its whole SRAM reads as zeros, then what was saved is there. -/
def restoreMemory (c : Cl) (m : SavedMember) (s : State) : State :=
  let s1 := writeCells (vaultLoc c 0) m.vault (clearRange (vaultLoc c 0) (2 ^ 24) s)
  (List.finRange 8).foldl (fun z t =>
    writeCells (accLoc c t 0) ((m.acc[t.val]?).getD []) (clearRange (accLoc c t 0) (2 ^ 18)
      (writeCells (spadLoc c t 0) ((m.spad[t.val]?).getD []) (clearRange (spadLoc c t 0) (2 ^ 20) z)))) s1

/-- A member's core after a restore at a yield point: as at kernel start, with the saved state over it. -/
def nodeCore (s : State) (g : Gang) (c : Cl) (m : SavedMember) : Core :=
  let x := startCore s g [] c 0
  { x with
    strands := m.core.strands.each (·.resume), mbox := m.core.mbox, xvalid := m.core.xvalid, xframe := m.core.xframe,
    events := m.core.events, didDone := m.core.didDone, divertedHere := m.core.divertedHere }

/-- A member's core after a restore behind a fence. -/
def fenceCore (s : State) (g : Gang) (c : Cl) (m : SavedMember) : Core :=
  let old := s.core c
  { m.core with
    strands := m.core.strands.each (·.resume)
    superseded := old.superseded
    issued := old.issued
    tlb := old.tlb
    gang := some g.id
    frameTicks := 0
    narrowed := gangNarrowed s g
    toNarrow := gangNarrowed s g
    bin := old.bin
    suspect := old.suspect
    passes := old.passes
    corrected := old.corrected
    correctedAt := old.correctedAt
    tiles := Vector.ofFn fun t => { m.core.tile t with streamTlb := (old.tile t).streamTlb, accOld := (0, []) } }

/-- The clusters a restore names meet the gang's shape (R350, R352): free, in number; behind a fence, the same tiles and
the same sharing of dies. -/
def shapeOk (s : State) (g : SavedGang) (cl : List Cl) : Bool :=
  let ms := g.members.zip cl
  decide (cl.length = g.members.length) && decide cl.Nodup && cl.all s.freeCluster
    && (g.gang.members.all fun m => ((s.ctx g.gang.ctx).cmap.get m.logical).isNone)
    && if g.fence then
      ms.all (fun m => m.1.tiles == s.tilesOf m.2) && ms.all fun m => ms.all fun n => (m.1.die == n.1.die) == (dieOf m.2 == dieOf n.2)
    else g.gang.wide || cl.all fun c => (cl.head?).elim true fun d => dieOf c == dieOf d

/-- A saved gang is back on clusters, its logical numbers with it (R339). -/
def restoreGang (sg : SavedGang) (cl : List Cl) (s0 : State) : State :=
  let s := cl.foldl (fun z c => z.abandonOn c) s0
  let move (c : Cl) : Cl := (((sg.gang.members.map (·.phys)).zip cl).find? fun p => p.1 == c).elim c (·.2)
  let g : Gang :=
    { sg.gang with
      members := (sg.gang.members.zip cl).map fun p => ⟨p.2, p.1.logical⟩
      bars := if sg.fence then sg.gang.bars.each fun b => { b with arrived := b.arrived.map fun a => (move a.1, a.2) }
        else Vector.replicate 16 ⟨0, []⟩ }
  let s1 := { s.modCtx g.ctx fun x => { x with cmap := g.members.foldl (fun m k => m.set k.logical.val (some k.phys)) x.cmap } with
    gangs := s.gangs ++ [g], saved := s.saved.filter (·.gang.id ≠ g.id) }
  let s2 := (sg.members.zip cl).foldl (fun z p =>
    let z1 := if sg.fence then restoreMemory p.2 p.1 z
      else writeCells (vaultLoc p.2 0) p.1.vault (clearRange (vaultLoc p.2 0) g.image.data.length
        (writeHome (restoreMemory p.2 { p.1 with vault := [] } z) (vaultLoc p.2 0) g.image.data))
    z1.setCore p.2 (if sg.fence then fenceCore s1 g p.2 p.1 else nodeCore s1 g p.2 p.1)) s1
  if (s2.launch? g.launch).elim false (·.reefed) ∧ g.diverted = false then divertGang g s2 else s2

/-- GANG_RESTORE (R350, R352): onto the clusters named in rank order; else the shape-mismatch report, and nothing changes. -/
def execGangRestore (i : Nat) (cl : List Cl) (s : State) : Host.Outcome State Fault Refusal :=
  match s.saved.find? (·.gang.id == i) with
  | none => .next s
  | some g => .next (if shapeOk s g cl then restoreGang g cl s else { s with reports := s.reports ++ [(i, 1)] })

end Sys2Proof.Machine
end

