-- ==== Sys2Proof/Machine/Sha3.lean ====
section
/-! DEFINITION. SHA3-512, by which measurement registers are extended (16 R436); the spec names the function, and its
definition is the public standard's (log 31). -/

namespace Sys2Proof.Machine.Sha3

/-- Lane i of a state of 25 lanes. -/
def lane (a : List W) (i : Nat) : W := (a[i]?).getD 0

def rho : List Nat := [0, 1, 62, 28, 27, 36, 44, 6, 55, 20, 3, 10, 43, 25, 39, 41, 45, 15, 21, 8, 18, 2, 61, 56, 14]

def rounds : List W :=
  [0x0000000000000001, 0x0000000000008082, 0x800000000000808a, 0x8000000080008000, 0x000000000000808b, 0x0000000080000001,
   0x8000000080008081, 0x8000000000008009, 0x000000000000008a, 0x0000000000000088, 0x0000000080008009, 0x000000008000000a,
   0x000000008000808b, 0x800000000000008b, 0x8000000000008089, 0x8000000000008003, 0x8000000000008002, 0x8000000000000080,
   0x000000000000800a, 0x800000008000000a, 0x8000000080008081, 0x8000000000008080, 0x0000000080000001, 0x8000000080008008]

def theta (a : List W) : List W :=
  let c := (List.range 5).map fun x => lane a x ^^^ lane a (x + 5) ^^^ lane a (x + 10) ^^^ lane a (x + 15) ^^^ lane a (x + 20)
  (List.range 25).map fun i => lane a i ^^^ lane c ((i + 4) % 5) ^^^ (lane c ((i + 1) % 5)).rotateLeft 1

def rhoPi (a : List W) : List W :=
  (List.range 25).map fun i =>
    let j := (i % 5 + 3 * (i / 5)) % 5 + 5 * (i % 5)
    (lane a j).rotateLeft ((rho[j]?).getD 0)

def chi (a : List W) : List W :=
  (List.range 25).map fun i =>
    let r := i / 5 * 5
    lane a i ^^^ (~~~(lane a (r + (i + 1) % 5)) &&& lane a (r + (i + 2) % 5))

def permute (a : List W) : List W :=
  rounds.foldl (fun a k => match chi (rhoPi (theta a)) with
    | x :: r => (x ^^^ k) :: r
    | [] => []) a

/-- Lanes of a block of bytes. -/
def lanes : List Byte → List W
  | a :: b :: c :: d :: e :: f :: g :: h :: r => BitVec.ofNat 64 (ofBytes [a, b, c, d, e, f, g, h]) :: lanes r
  | _ => []

/-- The message padded to whole blocks of 72 bytes. -/
def pad (m : List Byte) : List Byte :=
  let k := 72 - m.length % 72
  m ++ (if k = 1 then [0x86] else 0x06 :: List.replicate (k - 2) 0 ++ [0x80])

def absorb : Nat → List W → List Byte → List W
  | 0, a, _ => a
  | n + 1, a, m =>
    let b := lanes (m.take 72)
    absorb n (permute ((List.range 25).map fun i => lane a i ^^^ lane b i)) (m.drop 72)

/-- SHA3-512; byte 0 of the digest is its least significant byte. -/
def digest (m : List Byte) : BitVec 512 :=
  let p := pad m
  BitVec.ofNat 512 (ofBytes (((absorb (p.length / 72) (List.replicate 25 0) p).take 8).flatMap fun w => bytesOf 8 w.toNat))

/-- The extension of a register by the digest of an item (R436). -/
def extend (m d : BitVec 512) : BitVec 512 := digest (bytesOf 64 m.toNat ++ bytesOf 64 d.toNat)

end Sys2Proof.Machine.Sha3
end

