-- ==== Sys2Proof/Machine/Identity.lean ====
section
/-! DEFINITION. The configuration record and what its checks find in it, the module's identity and its alias (16 R430 to R432,
R435). Signatures, key generation and the unclonable function are free values (log 5, 28). -/

namespace Sys2Proof.Machine

/-- A list of numbers, each in its number of bytes, one after another. -/
def layBytes (l : List (Nat × Nat)) : List Byte := l.flatMap fun x => bytesOf x.1 x.2

/-- Bytes 0x0000 to 0x24ff of a record, over which it is signed (R431 Table 7). -/
def ConfigRecord.signedBytes (r : ConfigRecord) : List Byte :=
  layBytes [(4, r.magic.toNat), (2, r.format.toNat), (2, r.res0.toNat), (8, r.security.toNat), (16, r.part.toNat),
    (16, r.serial.toNat), (8, r.clusterDisable.toNat), (16, r.bins.toNat), (56, r.res1.toNat), (64, r.tileDisable.toNat),
    (64, r.imageHash.toNat), (1024, r.helper.toNat), (8192, r.cert.toNat)]

/-- The whole record. -/
def ConfigRecord.bytes (r : ConfigRecord) : List Byte := r.signedBytes ++ bytesOf 4627 r.sig.toNat

/-- The digest with which a measurement register takes a record (R436). -/
def ConfigRecord.digest (r : ConfigRecord) : BitVec 512 := Sha3.digest r.bytes

/-- The record bears the signature of the root key (R430 step 2). -/
def ConfigRecord.sigOk (r : ConfigRecord) : Bool := Config.dsaVerify Config.rootKey r.signedBytes r.sig

/-- The first n bits of SHA3-512 over the seed that a record's helper data yield, a byte, and more (R432). -/
def ConfigRecord.derive (r : ConfigRecord) (n : Nat) (label : Byte) (more : List Byte) : BitVec n :=
  (Sha3.digest (bytesOf 32 (Config.puf r.helper).toNat ++ label :: more)).setWidth n

/-- The identity key pair, and the public key that the certificate of the record names (R432 step 4 of R430). -/
def ConfigRecord.identity (r : ConfigRecord) : BitVec 256 := r.derive 256 1 []
def ConfigRecord.identityOk (r : ConfigRecord) : Bool := Config.dsaPublic r.identity == r.cert.setWidth 20736

/-- An image is the one whose hash the record holds (R430 step 5). -/
def ConfigRecord.imageOk (r : ConfigRecord) (image : List Byte) : Bool := Sha3.digest image == r.imageHash

/-- The bytes that an alias certificate is signed over: public key, registers, encapsulation key (log 28). -/
def aliasBody (pub : BitVec 20736) (regs : List (BitVec 512)) (ek : List Byte) : List Byte :=
  bytesOf 2592 pub.toNat ++ regs.flatMap (fun m => bytesOf 64 m.toNat) ++ ek

def AliasCert.bytes (x : AliasCert) : List Byte := aliasBody x.pub x.regs x.ek ++ bytesOf 4627 x.sig.toNat

/-- The certificate in whole doublewords. -/
def AliasCert.padded (x : AliasCert) : List Byte := x.bytes ++ List.replicate ((8 - x.bytes.length % 8) % 8) 0

/-- The alias key, bound to registers 0 to 2 (R432). -/
def ConfigRecord.aliasSeed (r : ConfigRecord) (regs : List (BitVec 512)) : BitVec 256 :=
  r.derive 256 2 (regs.flatMap fun m => bytesOf 64 m.toNat)

/-- The decapsulation key (R432). -/
def ConfigRecord.kemSeed (r : ConfigRecord) : BitVec 512 := r.derive 512 3 []

/-- The alias certificate of a boot (R432, R435): the identity key signs it; neither it nor the seed outlives the boot. -/
def ConfigRecord.certify (r : ConfigRecord) (regs : List (BitVec 512)) : AliasCert :=
  let pub := Config.dsaPublic (r.aliasSeed regs)
  let ek := Config.kemPublic r.kemSeed
  ⟨pub, regs, ek, Config.dsaSign r.identity (aliasBody pub regs ek)⟩

/-- The code of a failed boot from a record, a rollback counter and an image (R430); 0 for none. -/
def ConfigRecord.check (r : ConfigRecord) (rollback : W) (image : List Byte) : Nat :=
  if r.sigOk = false then 1
  else if r.security < rollback then 2
  else if r.identityOk = false then 3
  else if r.imageOk image = false then 4
  else 0

end Sys2Proof.Machine
end

