-- ==== Sys2Proof/Machine/Fabric.lean ====
section
/-! DEFINITION. The device's clocks (00 R2, 09 R279, 13 R369), the fabric: ports, routes, peers, counters, triggered
operations (13 R357 to R375), the host link (08 R266, 13 R367, R368), records that firmware writes (08 R256, 12 R338 to R344,
13 R360), and what firmware does about a fault of an agent that waits for it (12 R346, R347). -/

namespace Sys2Proof.Machine

/-! Clocks. -/

/-- DEVICE_TICK (R2). -/
def execDeviceTick (s : State) : Host.Outcome State Fault Refusal := .next { s with xtick := s.xtick + 1 }

/-- The frame divisor of a cluster (R279): doubled by the narrowed mode and by a member of the gang in bin 2. -/
def State.divisor (s : State) (c : Cl) : Nat :=
  let slow := (s.gangOf c).elim false fun g => g.members.any fun m => (s.core m.phys).bin == 2
  (if (s.core c).narrowed then 2 else 1) * (if slow then 2 else 1)

/-- A tick of a cluster's schedule clock. -/
def Core.frameTick (x : Core) (d : Nat) : Core :=
  if d ≤ x.frameTicks + 1 then { x with xframe := x.xframe + 1, frameTicks := 0 } else { x with frameTicks := x.frameTicks + 1 }

/-- XFRAME_ADVANCE (R279): the clock of a cluster in a gang. -/
def execXframeAdvance (c : Cl) (s : State) : Host.Outcome State Fault Refusal :=
  .next (if (s.core c).gang.isSome then s.modCore c (·.frameTick (s.divisor c)) else s)

/-- Fabric time after one tick of 5/3 ns at a slew in parts per million (R2, R369). -/
def FabricTime.tick (t : FabricTime) : FabricTime :=
  let n := t.ns.toNat * 2 ^ 32 + t.frac.toNat + (5 * 2 ^ 32 * (1000000 + t.slew)).toNat / 3000000
  { t with ns := BitVec.ofNat 64 (n / 2 ^ 32), frac := BitVec.ofNat 32 n }

/-- FABRIC_TIME_TICK (R369): every die receives the integer part. -/
def execFabricTimeTick (s : State) : Host.Outcome State Fault Refusal :=
  let t := s.time.tick
  .next { s with time := t, xtime := t.ns }

/-- PTP_MESSAGE (R369): a step is made only before the first launch after boot; a slew is at most 500 ppm. -/
def execPtpMessage (a : TimeAdjust) (s : State) : Host.Outcome State Fault Refusal :=
  .next (match a with
    | .step ns frac => if s.launched then s else { s with time := { s.time with ns := ns, frac := frac } }
    | .slew ppm offset => { s with time := { s.time with slew := max (-500) (min 500 ppm), offset := offset } }
    | .locked yes => { s with time := { s.time with lock := yes } })

/-! Ports and routes. -/

/-- ROUTE_UPDATE (R358, R359): the leader's, for the fabric manager (R427); no flit of the old port is outstanding when the entry
takes effect. -/
def execRouteUpdate (ep : BitVec 12) (r : FromLeader Route) (s : State) : Host.Outcome State Fault Refusal :=
  .next (if s.heeds r.term then { s with routes := tabSet s.routes ep.toNat r.what } else s)

/-- PORT_RETRAIN (R357). -/
def execPortRetrain (p : Fin 16) (st : PortState) (s : State) : Host.Outcome State Fault Refusal :=
  .next { s with ports := s.ports.set p.val st }

/-- FLIT_RESEND (R357): the flit that is not acknowledged is sent again; nothing else of the machine changes. -/
def execFlitResend (_ : Fin 16) (s : State) : Host.Outcome State Fault Refusal := .next s

/-- The island forwards transit traffic in these states (R422). -/
def State.forwards (s : State) : Bool := s.island == .forward || s.island == .attached || s.island == .drain

/-- TRANSIT_TRAFFIC (R358): traffic for another endpoint goes on by the port of its class in the routing table. Where no entry is
valid, or the port is down, it goes no further (R364). -/
def execTransitTraffic (m : Transit) (s : State) : Host.Outcome State Fault Refusal :=
  let r := s.route m.ep
  let p := r.portOf m.cls.val
  .next (if s.forwards ∧ m.ep ≠ s.endpoint ∧ r.v ∧ s.ports.get p ≠ .down then { s with transit := s.transit ++ [⟨p, m.ep, m.cls⟩] } else s)

/-! Peers. -/

/-- The island takes traffic (R422). -/
def State.islandUp (s : State) : Bool := s.island == .forward || s.island == .attached || s.island == .drain

/-- What a peer access comes to now (R362, R363). -/
def arrival (s : State) (a : PeerAccess) : State × EndAns :=
  if a.counter then
    if s.admitted a.rctx a.src then let r := counterWindow s a.rctx 0 a.addr.toNat a.op; (r.1, .ans r.2) else (s, .ans (.refused 1))
  else endpointAccess s a.src a.rctx a.addr a.op

/-- An earlier access of the same agent and class is held here (R268, R365). -/
def PeerAccess.behind (a : PeerAccess) (s : State) : Bool := s.peerWaits.any fun w => w.src == a.src && w.agent == a.agent && w.cls == a.cls

/-- The response to a peer. -/
def peerReply (a : PeerAccess) (s : State) (r : PeerAns) : State := { s with peerOut := s.peerOut ++ [(a.src, r)] }

/-- A peer access at this endpoint: held while a checkpoint runs (R417) or behind one of its agent and class; one that faults
waits for firmware. -/
def peerArrive (a : PeerAccess) (s : State) : State :=
  if s.islandUp = false then peerReply a s (.refused 1)
  else if s.ckpt ≠ .idle ∨ a.behind s = true then { s with peerWaits := s.peerWaits ++ [a] }
  else match arrival s a with
    | (s1, .ans r) => peerReply a s1 r
    | (s1, .fault k) =>
      let s2 := islandFault s1 (.source .peer) a.rctx k a.op.writes a.addr
      { s2 with peerWaits := s2.peerWaits ++ [a] }

/-- PEER_ACCESS_ARRIVE (R363, R364). -/
def execPeerAccessArrive (a : PeerAccess) (s : State) : Host.Outcome State Fault Refusal := .next (peerArrive a s)

/-- Held peer accesses are tried again, in order. -/
def retryPeers (s : State) : State := s.peerWaits.foldl (fun z a => peerArrive a z) { s with peerWaits := [] }

/-! Counters and chains. -/

/-- COUNTER_ADDITION (R370, R374). -/
def execCounterAddition (n : BitVec 13) (v : W) (s : State) : Host.Outcome State Fault Refusal := .next (addCounter n.toNat v s)

/-- What an action of a chain came to (R373, R374): performed; part of a copy moved; failed with its status; a fault; poison,
its unit and address; a wait at an endpoint. -/
inductive ActEnd where
  | done (s : State)
  | part (s : State) (moved : Nat)
  | failed (s : State) (lst : Nat)
  | fault (s : State) (moved : Nat) (e : FaultEntry)
  | poison (s : State) (unit : Nat) (addr : W)
  | hold (s : State) (moved : Nat)

/-- Who acts for a chain: its head's fault source, its context, the class of its action's accesses. -/
structure Actor where
  who : FaultSource
  x : Fin 64
  cls : Nat

def ActEnd.ofPeer (addr : W) (r : State × PeerAns) : ActEnd :=
  match r.2 with
  | .refused k => .failed r.1 k
  | .wait => .hold r.1 0
  | .poisoned _ => .poison r.1 4 addr
  | _ => .done r.1

/-- An access of an action to one aligned element, indivisible; what it reads goes on. -/
def actAccess (v : Actor) (a : W) (op : PeerOp) (s : State) (go : State → PeerAns → ActEnd) : ActEnd :=
  if isPeerAddr a then
    match agentPeer s v.who v.x v.cls a op with
    | (s1, .data bs) => go s1 (.data bs)
    | (s1, .done) => go s1 .done
    | (s1, .old y) => go s1 (.old y)
    | r => .ofPeer a r
  else match agentTranslate s v.x a op.reads op.writes none with
    | (s1, .error k) => .fault s1 0 ((agentEntry v.x k op.writes a).by_ v.who)
    | (s1, .ok p) =>
      match if op.reads then s1.poisonedIn p op.size else none with
      | some l => .poison s1 (unitAt (64 * l)) a
      | none => let r := homeOp s1 p op; go r.1 r.2

/-- The bytes of an action's elements count for buffer 0 (R345), with die 0 (DESIGN CHOICE, log 32). -/
def Actor.counts (v : Actor) (n : Nat) (s : State) : State := s.countBuffer 0 v.x 0 n 0

/-- A store, a signal or an atomic: one doubleword; an old value is discarded. -/
def actOne (v : Actor) (a : W) (op : PeerOp) (s : State) : ActEnd := actAccess v a op s fun s1 _ => .done (v.counts op.size s1)

/-- Counter post: a counter outside the partition fails with reason 2 (R370). -/
def actPost (s : State) (x : Fin 64) (n : Nat) (v : W) : ActEnd :=
  match s.localCounter x n with
  | some i => .done (addCounter i v s)
  | none => .failed (countRefusal x s) 2

/-- A byte of a plain copy to its destination, after `run` others. -/
def copyOut (v : Actor) (dst : W) (b : Byte) (run : Nat) (s : State) : ActEnd :=
  match agentOut s v.who v.x v.cls dst b run with
  | .byte s1 _ => .done (v.counts 1 s1)
  | .fault s1 e => .fault s1 0 e
  | .refused s1 k => .failed s1 k
  | .poison s1 u a => .poison s1 u a
  | .hold s1 => .hold s1 0

/-- One element of a copy: one byte, or, combining, one element of the type, whole: a float add rounds to nearest even and
does not saturate (R373). -/
def copyElement (v : Actor) (comb : Option (Nat × Nat)) (src dst : W) (run : Nat) (s : State) : ActEnd :=
  match comb with
  | none => actAccess v src (.read 1) s fun s1 r => copyOut v dst (match r with
      | .data bs => bs.headD 0
      | _ => 0) run s1
  | some (ty, cop) => actAccess v src (.read (unitOf ty)) s fun s1 r =>
      actOne v dst (.combine ⟨ty, ty, cop, 0, 0, false, false⟩ (match r with
      | .data bs => ofBytes bs
      | _ => 0)) s1

/-- An end with the bytes moved so far. -/
def ActEnd.at_ (moved : Nat) : ActEnd → ActEnd
  | .fault s _ e => .fault s moved e
  | .hold s _ => .hold s moved
  | e => e

/-- Moves up to k more elements of n bytes of a copy of len bytes. -/
def chainCopy (v : Actor) (n len : Nat) (comb : Option (Nat × Nat)) (src dst : W) : Nat → Nat → State → ActEnd
  | 0, moved, s => if len ≤ moved then .done s else .part s moved
  | k + 1, moved, s =>
    if len ≤ moved then .done s
    else match copyElement v comb (src + BitVec.ofNat 64 moved) (dst + BitVec.ofNat 64 moved) moved s with
      | .done s1 => chainCopy v n len comb src dst k (moved + n) (v.counts n s1)
      | e => e.at_ moved

/-- The action of a descriptor for the head h of context x, from the bytes already moved on (R373). -/
def actOf (s : State) (h : Nat) (x : Fin 64) (dw : List W) (moved : Nat) : ActEnd :=
  let d : Slot := { blankSlot with ctx := x, dw := dw }
  let w (i : Nat) : W := (dw[i]?).getD 0
  let v : Actor := ⟨.chain h, x, d.fld 0 36 4⟩
  match d.fld 0 0 3 with
  | 1 => actOne v (w 3) (.write (bytesOf 8 (w 4).toNat)) s
  | 2 => actOne v (w 3) (.write (bytesOf 8 (w 4).toNat)) s
  | 3 =>
    let comb := if d.fld 0 51 1 = 1 then some (d.fld 0 52 4, d.fld 0 48 3) else none
    let n := if comb.isSome then (combineSize (d.fld 0 52 4) (d.fld 0 48 3)).getD 1 else 1
    chainCopy v n (d.fld 5 0 48) comb (w 4) (w 3) ((4096 - moved % 4096) / n) moved s
  | 4 => actOne v (w 3) (.amo (Fin.ofNat 11 (d.fld 0 48 4)) (w 4) (w 5)) s
  | _ => actPost s x (d.fld 3 0 13) (w 4)

def State.chain? (s : State) (h : Nat) : Option Chain := s.chains.find? (·.head == h)
def State.dropChain (s : State) (h : Nat) : State := { s with chains := s.chains.filter (·.head ≠ h) }
def State.putChain (s : State) (ch : Chain) : State :=
  { s with chains := s.chains.map fun y => if y.head = ch.head then ch else y }

/-- An action that was refused or met an unresolved fault stops the chain: its head fails (R374). -/
def failChain (s : State) (h lst : Nat) : State := (s.setSlot h { s.slot h with state := .failed, lst := lst }).dropChain h

/-- The chain is over: the head is counted, and re-arms or is done (R374, R378). -/
def endChain (s : State) (h : Nat) : State :=
  let d0 := s.slot h
  let d := { d0 with fires := d0.fires + 1 }
  let s1 := s.dropChain h
  if d.cancel then s1.setSlot h { d with state := .cancelled, cancel := false }
  else if d.fld 0 32 1 = 1 ∧ d.reps ≠ 0 then
    testHead h (s1.setSlot h { d with
      state := .armed
      thr := d.thr + BitVec.ofNat 64 (d.fld 2 0 32)
      reps := if d.reps = 0xffffffff then d.reps else d.reps - 1 })
  else s1.setSlot h { d with state := .done }

/-- The armed follower that a descriptor links to (R374), by physical number. -/
def State.follows (s : State) (x : Fin 64) (dw : List W) : Option Nat :=
  let d : Slot := { blankSlot with dw := dw }
  if d.fld 0 17 1 = 1 then
    (s.localSlot x (d.fld 0 18 14)).filter fun i => (s.slot i).state == .armed && (s.slot i).follower
  else none

/-- The chain moves on behind a performed action. -/
def nextAction (s : State) (ch : Chain) : State :=
  match s.follows (s.slot ch.head).ctx ch.dw with
  | some i => s.putChain { ch with at_ := i, dw := (s.slot i).dw, moved := 0, waits := none }
  | none => endChain s ch.head

/-- The slot runs for another chain (R374). -/
def State.followerBusy (s : State) (ch : Chain) : Bool :=
  s.chains.any fun y => y.head != ch.head && y.at_ == ch.at_ && (y.moved != 0 || y.waits.isSome)

/-- CHAIN_ACTION_COMPLETE (R373, R374): the next action of a head's chain; a copy goes on to its next 4 KiB boundary. -/
def execChainActionComplete (h : BitVec 14) (s : State) : Host.Outcome State Fault Refusal :=
  match s.chain? h.toNat with
  | none => .next s
  | some ch =>
    let x := (s.slot ch.head).ctx
    if ch.waits.isSome ∨ s.followerBusy ch then .next s
    else match actOf s ch.head x ch.dw ch.moved with
      | .done s1 => .next (nextAction s1 ch)
      | .part s1 n => .next (s1.putChain { ch with moved := n })
      | .failed s1 k => .next (failChain s1 ch.head k)
      | .fault s1 n e => .next ((s1.putChain { ch with moved := n, waits := some e }).islandEnter e)
      | .hold s1 n => .next (s1.putChain { ch with moved := n })
      | .poison s1 u a => .next (beginPurge s1 x (BitVec.ofNat 16 (bits ((ch.dw[6]?).getD 0).toNat 0 16)) (consumerEvent s1 u a) (decide (u ≠ 4)))

/-- A head that names a trigger source (R372 dw6). -/
def Slot.names (d : Slot) : TrigSource → Bool
  | .die k => d.fld 6 16 1 == 1 && d.fld 6 17 1 == 0 && d.fld 6 18 2 == k.val
  | .endpoint e => d.fld 6 16 1 == 1 && d.fld 6 17 1 == 1 && d.fld 6 20 12 == e.toNat

/-- The source is gone: a die that is fenced or without power; an endpoint, as firmware finds it. -/
def State.sourceGone (s : State) : TrigSource → Bool
  | .die d => (s.die d).state == .fenced || (s.die d).state == .off
  | .endpoint _ => true

/-- TRIGGER_ORPHAN (R375). -/
def execTriggerOrphan (src : TrigSource) (s : State) : Host.Outcome State Fault Refusal :=
  .next (if s.sourceGone src then
    { s with slots := s.slots.map fun e =>
        if e.2.state = .armed ∧ e.2.follower = false ∧ e.2.names src = true then (e.1, { e.2 with state := .orphaned }) else e }
  else s)

/-! The host (R266, R367, R368). An address below 2^32 is one of BAR2; BAR0's follow it (log 68). -/

def bar0Base : Nat := 2 ^ 32

/-- Mailbox i of cluster c in the control window, and the superseded bits of cluster c. -/
def mailboxOff (c : Cl) (i : Fin 8) : Nat := 0x100000 + 0x40 * c.val + 8 * i.val
def supersededOff (c : Cl) : Nat := 0x101000 + 8 * c.val

def HostAccess.addr : HostAccess → W
  | .read a _ => a
  | .write a .. => a
  | .fetchadd a .. => a
  | .cas a .. => a
  | .mailbox c i _ => BitVec.ofNat 64 (bar0Base + mailboxOff c i)

def HostAccess.size : HostAccess → Nat
  | .read _ n => n
  | .write _ bs _ => bs.length
  | .fetchadd _ n _ => n
  | .cas _ n .. => n
  | .mailbox .. => 8

/-- A posted write. -/
def HostAccess.isWrite : HostAccess → Bool
  | .write .. => true
  | .mailbox .. => true
  | _ => false

/-- Ordered after the host's earlier posted writes: all but a write with Relaxed Ordering. -/
def HostAccess.after : HostAccess → Bool
  | .write _ _ ro => !ro
  | _ => true

/-- It is one to the control window. -/
def HostAccess.toBar0 (a : HostAccess) : Bool := decide (bar0Base ≤ a.addr.toNat)

/-- It would change device memory, and is held while a checkpoint runs (R417). -/
def HostAccess.heldByCkpt : HostAccess → Bool
  | .read .. => false
  | .mailbox .. => false
  | a => !a.toBar0

/-- The slice of BAR2 that an access lies in, and the address it maps to. -/
def State.sliceOf (s : State) (a : HostAccess) : Option (Fin 64 × W) :=
  if a.addr.toNat < 2 ^ 32 ∧ a.addr.toNat % 2 ^ 26 + a.size ≤ 2 ^ 26 then
    (s.slices.get (Fin.ofNat 64 (a.addr.toNat / 2 ^ 26))).map fun m => (m.1, m.2 + BitVec.ofNat 64 (a.addr.toNat % 2 ^ 26))
  else none

/-- An access that the function does not support: an atomic of another size, or not aligned (R310, R367). -/
def HostAccess.unsupported : HostAccess → Bool
  | .fetchadd a n _ => n != 8 || a.toNat % 8 != 0
  | .cas a n .. => n != 8 || a.toNat % 8 != 0
  | _ => false

/-- The failure of an access: a read completes unsupported, a write is dropped and counted. -/
def hostFail (s : State) (a : HostAccess) : State :=
  if a.isWrite then { s with dropped := s.dropped + 1 } else { s with hostOut := s.hostOut ++ [.unsupported] }

def hostReply (s : State) (r : HostReply) : State := { s with hostOut := s.hostOut ++ [r] }

/-! The control window (R368 Table 4). -/

def IslandPower.code : IslandPower → Nat
  | .off => 0 | .boot => 1 | .forward => 2 | .attached => 3 | .drain => 4

def DiePower.code : DiePower → Nat
  | .off => 0 | .reset => 1 | .boot => 2 | .run => 3 | .fenced => 4 | .drain => 5

/-- The doublewords of the control window that hold what was written there: the driver's request area, the MSI-X table. -/
def bar0Plain (off : Nat) : Bool := decide (0x10000 ≤ off ∧ off < 0x100000) || decide (0x300000 ≤ off ∧ off < 0x308000)

/-- The cluster whose superseded bits lie at an offset. -/
def supersededAt (off : Nat) : Option Cl :=
  if 0x101000 ≤ off ∧ off < 0x101200 then some (Fin.ofNat 64 ((off - 0x101000) / 8)) else none

/-- The doubleword that a read of the control window finds; none where it completes unsupported. State words are those of R422 and
R423; the rest of the identity block is not laid out, and reads as free values. No message is ever pending (log 68). -/
def bar0Word (s : State) (off : Nat) : Option W :=
  if s.island = .off then none
  else if off = 0x08 then some (BitVec.ofNat 64 (s.island.code + 2 ^ 8 * s.bootError.toNat))
  else if 0x10 ≤ off ∧ off < 0x30 then some (BitVec.ofNat 64 (s.die (Fin.ofNat 4 ((off - 0x10) / 8))).state.code)
  else if off < 0x10000 then some (Config.freeWord s.fresh (0x1000 + off))
  else if s.island = .boot then none
  else if bar0Plain off then some (tabGet s.bar0 off 0)
  else if off = 0x200000 then some s.xtime
  else if off = 0x200008 then
    some (BitVec.ofNat 64 (s.time.lock.toNat + 2 * (decide (s.time.slew ≠ 0)).toNat + 2 ^ 32 * s.time.offset.toNat))
  else if 0x308000 ≤ off ∧ off < 0x308100 then some 0
  else (supersededAt off).map fun c => (s.core c).superseded.setWidth 64

/-- The doublewords that an access of n bytes at an offset touches. -/
def dwordsOf (off n : Nat) : List Nat := (List.range ((off + n + 7) / 8 - off / 8)).map fun i => (off / 8 + i) * 8

/-- A read of the control window, which clears the superseded bits it returns. -/
def bar0Read (s : State) (off n : Nat) : State :=
  match (dwordsOf off n).mapM (bar0Word s) with
  | none => { s with hostOut := s.hostOut ++ [.unsupported] }
  | some ws =>
    let s1 := (dwordsOf off n).foldl (fun z o => match supersededAt o with
      | some c => z.modCore c fun x => { x with superseded := 0 }
      | none => z) s
    { s1 with
      fresh := s1.fresh + 1
      hostOut := s1.hostOut ++ [.data (((ws.flatMap fun w => bytesOf 8 w.toNat).drop (off % 8)).take n)] }

/-- A byte of the control window's plain doublewords is written. -/
def bar0Byte (s : State) (x : Nat × Byte) : State :=
  let o := x.1 / 8 * 8
  { s with bar0 := tabSet s.bar0 o (BitVec.ofNat 64 (setBits (tabGet s.bar0 o 0).toNat (8 * (x.1 % 8)) 8 x.2.toNat)) }

/-- The host's write reaches a mailbox (R61); dropped and counted when the cluster's die is not in run. -/
def mailboxWrite (c : Cl) (i : Fin 8) (v : W) (s : State) : State :=
  if s.dieRuns (dieOf c) then s.modCore c (·.hostMailbox s.cycle i v) else { s with dropped := s.dropped + 1 }

/-- A write to the control window: a mailbox takes a whole doubleword (R61), the plain parts any bytes; the rest is dropped. -/
def bar0Write (s : State) (off : Nat) (bs : List Byte) : State :=
  if 0x100000 ≤ off ∧ off < 0x101000 ∧ off % 8 = 0 ∧ bs.length = 8 then
    mailboxWrite (Fin.ofNat 64 ((off - 0x100000) / 0x40)) (Fin.ofNat 8 (off / 8)) (BitVec.ofNat 64 (ofBytes bs)) s
  else if (dwordsOf off bs.length).all bar0Plain then (bs.zipIdx.map fun x => (off + x.2, x.1)).foldl bar0Byte s
  else { s with dropped := s.dropped + 1 }

/-- An access to the control window. -/
def bar0Access (s : State) (a : HostAccess) : State :=
  let off := a.addr.toNat - bar0Base
  match a with
  | .mailbox c i v => mailboxWrite c i v s
  | .read _ n => if off + n ≤ 2 ^ 24 then bar0Read s off n else hostFail s a
  | .write _ bs _ => if off + bs.length ≤ 2 ^ 24 then bar0Write s off bs else hostFail s a
  | _ => hostFail s a

/-- An access performs at a location. -/
def hostAt (s : State) (x : Nat) (a : HostAccess) : State :=
  match a with
  | .write _ bs _ => writeHome s x bs
  | .read _ n =>
    hostReply s (if (s.poisonedIn x n).isSome then .poisoned (readHome s x n) else .data (readHome s x n))
  | .mailbox .. => s
  | .fetchadd _ _ v =>
    if (s.poisonedIn x 8).isSome then hostReply s (.poisoned (readHome s x 8))
    else let r := amoHome s x 0 v 0; hostReply r.1 (.data (bytesOf 8 r.2.toNat))
  | .cas _ _ y z =>
    if (s.poisonedIn x 8).isSome then hostReply s (.poisoned (readHome s x 8))
    else let r := amoHome s x 10 y z; hostReply r.1 (.data (bytesOf 8 r.2.toNat))

/-- Tries an access: it performs or fails; or its fault, for which it waits. -/
def hostTry (s : State) (a : HostAccess) : State × Option FaultEntry :=
  if a.toBar0 then (bar0Access s a, none) else
  match s.sliceOf a with
  | none => (hostFail s a, none)
  | some (x, va) =>
    if a.unsupported then (hostFail s a, none)
    else match agentTranslate s x va (!a.isWrite) (match a with | .read .. => false | _ => true) none with
      | (s1, .ok p) => (hostAt s1 p a, none)
      | (s1, .error k) => (s1, some ((agentEntry x k (match a with | .read .. => false | _ => true) va).by_ .host))

/-- An access of the host: it performs, fails, or waits behind an earlier posted write, a fault or a checkpoint (R417). -/
def hostAccess (s : State) (a : HostAccess) : State :=
  if s.island = .off then s
  else if s.island = .boot then (if a.toBar0 ∧ a.isWrite = false then bar0Access s a else hostFail s a)
  else if (a.heldByCkpt = true ∧ s.ckpt ≠ .idle) ∨ (a.after ∧ s.hostWaits.any (·.isWrite) = true) then { s with hostWaits := s.hostWaits ++ [a] }
  else match hostTry s a with
    | (s1, none) => s1
    | (s1, some e) => { s1 with hostWaits := s1.hostWaits ++ [a] }.islandEnter e

/-- Waiting accesses go on in order. -/
def retryHost (s : State) : State := s.hostWaits.foldl hostAccess { s with hostWaits := [] }

/-- HOST_READ (R266, R368). -/
def execHostRead (a : W) (n : Nat) (s : State) : Host.Outcome State Fault Refusal := .next (hostAccess s (.read a n))
/-- HOST_WRITE (R266, R368). -/
def execHostWrite (a : W) (bs : List Byte) (ro : Bool) (s : State) : Host.Outcome State Fault Refusal := .next (hostAccess s (.write a bs ro))
/-- HOST_FETCHADD (R310, R367). -/
def execHostFetchadd (a : W) (n : Nat) (v : W) (s : State) : Host.Outcome State Fault Refusal := .next (hostAccess s (.fetchadd a n v))
/-- HOST_CAS (R367). -/
def execHostCas (a : W) (n : Nat) (x y : W) (s : State) : Host.Outcome State Fault Refusal := .next (hostAccess s (.cas a n x y))

/-- SUPERSEDED_BITS_READ (R61, R368): a host read of the control window, which clears them. -/
def execSupersededBitsRead (c : Cl) (s : State) : Host.Outcome State Fault Refusal :=
  .next (hostAccess s (.read (BitVec.ofNat 64 (bar0Base + supersededOff c)) 8))

/-- HOST_MAILBOX_WRITE (R61, R267, R368): a posted write without Relaxed Ordering, behind the host's earlier posted writes. -/
def execHostMailboxWrite (c : Cl) (i : Fin 8) (v : W) (s : State) : Host.Outcome State Fault Refusal :=
  .next (hostAccess s (.mailbox c i v))

/-! Triplicated tables and page frames (R409, R410, R434). -/

/-- The entry-wise majority of three lists. -/
def voteList {α : Type} [DecidableEq α] (l m n : List α) : Option (List α × Nat) :=
  (List.range (max l.length (max m.length n.length))).foldl (fun acc i =>
    acc.bind fun r => (vote (l[i]?) (m[i]?) (n[i]?)).map fun v => (r.1 ++ v.1.toList, r.2 + v.2)) (some ([], 0))

/-- A die's tables voted, with the corrections made. -/
def voteTables (t : Vector DieTables 3) : Option (DieTables × Nat) :=
  let rows (k : Fin 2) := voteList ((t.get 0).remap.get k) ((t.get 1).remap.get k) ((t.get 2).remap.get k)
  match voteList (t.get 0).poison (t.get 1).poison (t.get 2).poison, rows 0, rows 1,
      voteList (t.get 0).frames (t.get 1).frames (t.get 2).frames with
  | some p, some q, some r, some f => some (⟨p.1, #v[q.1, r.1], f.1⟩, p.2 + q.2 + r.2 + f.2)
  | _, _, _, _ => none

/-- The three copies of a die's retired frames, voted, with the corrections made; none when they have no majority (R409, R410). -/
def State.votedFrames (s : State) (d : Die) : Option (List Nat × Nat) :=
  let t := (s.die d).tables
  voteList (t.get 0).frames (t.get 1).frames (t.get 2).frames

/-- The retired frames of a die. -/
def State.retiredOn (s : State) (d : Die) : Option (List Nat) := (s.votedFrames d).map (·.1)

/-- A read of a die's retired frames rewrites the copies that disagree, and counts them (R409). -/
def State.readFrames (s : State) (d : Die) : State :=
  match s.votedFrames d with
  | some v => s.modDie d fun x => { x with tables := x.tables.each fun t => { t with frames := v.1 }, corrections := x.corrections + v.2 }
  | none => s

/-- A row that a stack's controller replaces joins the three copies of its table, while there is room (R409). -/
def DieRec.remapRow (x : DieRec) (k : Fin 2) (row spare : Nat) : DieRec :=
  { x with tables := x.tables.each fun t =>
      if (t.remap.get k).length < 1024 then { t with remap := t.remap.set k.val (t.remap.get k ++ [(row, spare)]) } else t }

/-- The 64 KiB frames that a valid leaf entry maps (R341); an entry of a table that names the next one maps its frame alike. -/
def framesOf (e : Nat) : List Nat :=
  if e % 2 = 0 then []
  else if bits e 3 1 = 1 then (List.range 8192).map fun i => bits e 29 19 * 8192 + i
  else [pteNext e / 2 ^ 16]

/-- Firmware writes a page-table entry at home (R341, R409), whose frames lie on one die: one that would map a retired frame is not
written, and a die whose list of frames has no majority is fenced (R410). Tables lie under firmware's key, slot 0 (R434, PRESUMED, log 29). -/
def writePte (pa : Nat) (v : W) (s : State) : State :=
  let store (z : State) : State := writeHome (z.underKey pa 0) pa (bytesOf 8 v.toNat)
  let fs := (framesOf v.toNat).filter fun f => decide (f * 2 ^ 16 < hbmSize)
  match fs with
  | [] => store s
  | f :: _ =>
    let d := homeDie (f * 2 ^ 16)
    match s.retiredOn d with
    | none => { s with todo := .dieFence d :: s.todo }
    | some l => if fs.any fun f => l.contains f then s.readFrames d else store (s.readFrames d)

/-! Records that firmware writes. -/

/-- A descriptor of a context's peer-window table is written (R361). -/
def setWindow (x : Fin 64) (i : Nat) (w : PeerWindow) (s : State) : State :=
  let a := (s.ctx x).windowLoc i
  writeHome (s.underKey a 0) a (w.words.flatMap fun d => bytesOf 8 d.toNat)

/-- Which translations a tlbi drops: those of a page, or of a context (R163, R344). -/
def pageHit (x : Fin 64) (page : Option W) (e : TlbEntry) : Bool :=
  match page with
  | some va => e.covers x va.toNat
  | none => e.ctx == x

/-- The writes that only the leader makes (R427): scope tables, peer windows, partitions; and what the fabric manager and the host
driver ask for: the endpoint number, admission maps, BAR2 slices (DEDUCED, log 51). -/
def TableWrite.leaderOnly : TableWrite → Bool
  | .scope .. | .window .. | .partition .. | .admitPeer .. | .endpoint .. | .slice .. => true
  | .auditor .. | .ageing .. | .policy .. | .fenceLimit .. | .bufferClear .. | .pte .. | .rerank .. | .currentLimit .. | .request ..
  | .certificate .. | .remap .. | .islandTlbi .. | .dieTlbi .. => false

/-- Doublewords laid into the host driver's request area, from doubleword i of the window on (R368). -/
def layArea : Nat → List W → State → State
  | _, [], s => s
  | i, w :: r, s => layArea (i + 1) r (if 8 * i < 0x100000 then { s with bar0 := tabSet s.bar0 (8 * i) w } else s)

/-- FIRMWARE_TABLE_WRITE (R256, R317, R338, R341, R344, R358, R360 to R363, R368, R405, R409, R426). Entries 0 to 3 and 31 of a
scope table are the hardware's; endpoint 4,095 is never assigned. A die's tlbi drops nothing before the accesses translated through
what it drops are home (R344 step 3). The host driver fetches the alias certificate where firmware lays it (R432). A write of the leader under another term than the lease's is refused (R428). -/
def execFirmwareTableWrite (r : FromLeader TableWrite) (s : State) : Host.Outcome State Fault Refusal :=
  .next (if r.what.leaderOnly ∧ s.heeds r.term = false then s else match r.what with
    | .scope x e r => if 4 ≤ e.toNat ∧ e.toNat ≤ 30 then s.modCtx x fun c => { c with scopes := c.scopes.set e.toNat r (by have := e.isLt; omega) } else s
    | .auditor d en k ph => s.modDie d fun y => { y with auditOn := en, auditK := k, auditPh := ph }
    | .ageing x agc => s.modCtx x fun c => { c with agc := agc }
    | .policy x pf kf mc => s.modCtx x fun c => { c with pf := pf, kf := kf, mc := mc }
    | .partition x cb cc sb sc pt pn =>
      grantPartition x (s.modCtx x fun c => { c with cbase := cb, ccnt := cc, sbase := sb, scnt := sc, pwt := pt, pwn := pn })
    | .window x i v => setWindow x i.val v s
    | .admitPeer x ep yes => s.modCtx x fun c => { c with admits := c.admits.filter (· ≠ ep) ++ (if yes then [ep] else []) }
    | .fenceLimit x us => s.modCtx x fun c => { c with fenceLimit := us }
    | .bufferClear x b => s.modCtx x fun c => { c with bufs := c.bufs.set b.val (0, 0) }
    | .pte pa v => if pa % 8 = 0 ∧ pa + 8 ≤ hbmSize then writePte pa v s else s
    | .certificate off => if off % 8 = 0 ∧ 0x10000 ≤ off then s.aliasCert.elim s fun x => layArea (off / 8) (wordsOf x.padded) s else s
    | .request off v => if off % 8 = 0 ∧ 0x10000 ≤ off ∧ off < 0x100000 then { s with bar0 := tabSet s.bar0 off v } else s
    | .remap d k row spare => s.modDie d (·.remapRow k row spare)
    | .slice i m => { s with slices := s.slices.set i.val m }
    | .rerank d us => if 10 ≤ us ∧ us ≤ 10000 then s.modDie d fun y => { y with rerankUs := us } else s
    | .currentLimit i ma => { s with power := { s.power with limits := tabSet s.power.limits i.val ma } }
    | .endpoint ep => if ep = 4095 then s else { s with endpoint := ep }
    | .islandTlbi x page => { s with islandTlb := s.islandTlb.filter fun e => !pageHit x page e }
    | .dieTlbi d x page =>
      let cs := (List.finRange 64).filter fun c => dieOf c == d
      if cs.all fun c => (s.core c).storesHome then cs.foldl (fun z c => z.modCore c (·.tlbi (pageHit x page))) s else s)

/-! What firmware does about a waiting agent's fault (R347). -/

/-- The rem.st moves of a strand that wait. -/
def Pend.waitingMove (p : Pend) : Bool :=
  match p.kind with
  | .move _ _ _ w => w
  | _ => false

/-- The fault entries of a waiting move leave the queue. -/
def dropMoveFault (c : Cl) (k : Sn) (p : Pend) (s : State) : State :=
  match p.kind with
  | .move a b _ _ => dropIslandFault (dropIslandFault s (.source (.move c k)) a) (.source (.move c k)) b
  | _ => s

/-- The move goes on when it is next performed. -/
def Pend.unwait (p : Pend) : Pend :=
  match p.kind with
  | .move a b n _ => { p with kind := .move a b n false }
  | _ => p

/-- The entry of the host access that waits first leaves the queue. -/
def dropHostFault (s : State) : State :=
  match s.hostWaits with
  | a :: _ => (s.sliceOf a).elim s fun m => dropIslandFault s (.source .host) m.2
  | [] => s

/-- The peer access that waits for a fault: the first with an entry. -/
def State.faultingPeer (s : State) : Option PeerAccess :=
  s.peerWaits.find? fun a => s.islandFaults.any fun e => e.agent == some (.source .peer) && e.ctx == a.rctx && e.va == a.addr

/-- The core whose queue holds a waiting agent's entry (R427): the core of the die that serves it, or the island's. -/
def FaultSource.core (s : State) : FaultSource → Fin 5
  | .queue q | .mirror q | .copy q => dieCore (s.queue q).d.die
  | .record l => (s.launch? l).elim 4 fun x => dieCore x.die
  | .placement d | .admission d => dieCore d
  | .chain _ | .move .. | .host | .peer => 4

/-- ISLAND_AGENT_FAULT_RESOLVED (R346, R347): the source goes on from its faulting point. -/
def execIslandAgentFaultResolved (f : FaultSource) (s : State) : Host.Outcome State Fault Refusal :=
  let drop (d : Die) (e : Option FaultEntry) (s : State) : State := e.elim s fun e => s.dropFault d e
  .next (byCore (f.core s) s (match f with
    | .queue q =>
      let x := s.queue q
      drop x.d.die x.skip (if x.skip.isSome then s.modQueue q fun y => { y with skip := none } else s)
    | .mirror q =>
      let x := s.queue q
      if x.mirror.isSome then writeMirror q (drop x.d.die (x.mirror.map (·.2)) s) else s
    | .record l => (s.launch? l).elim s fun x =>
        drop x.die x.recordWait (s.modLaunch l fun y => { y with recordWait := none })
    | .copy q => (s.copyJob? (Fin.ofNat 1024 q)).elim s fun j =>
        drop (s.queue j.queue.val).d.die j.waits (s.putCopy { j with waits := none })
    | .chain h => (s.chain? h).elim s fun ch => drop 0 ch.waits (s.putChain { ch with waits := none })
    | .move c k =>
      let ps := (s.strand c k).pend.filter (·.waitingMove)
      (ps.foldl (fun z p => dropMoveFault c k p z) s).modStrand c k fun t => { t with pend := t.pend.map (·.unwait) }
    | .host => retryHost (dropHostFault s)
    | .peer => s.faultingPeer.elim s fun a => retryPeers (dropIslandFault s (.source .peer) a.addr)
    | .placement d => drop d ((s.die d).placeWait.map (·.1)) (s.modDie d fun y => { y with placeWait := none })
    | .admission d => drop d ((s.die d).admitWait.map (·.1)) (s.modDie d fun y => { y with admitWait := none })))

/-- The status of a copy whose fault stays (R315): 1 at the source, 2 at the destination. -/
def copyFailure (e : FaultEntry) : Nat := if e.write then 2 else 1

/-- A copy's fault stays: the copy ends; when the fault is on its completion doubleword, the doubleword is not written. -/
def failCopy (s : State) (j : CopyJob) (e : FaultEntry) : State :=
  if j.stopped.isSome then completePacket (s.dropCopy j) j.queue.val j.index else finishCopy s { j with waits := none } (copyFailure e)

/-- A placement's fault stays (R321): the instance whose argument it was stops before it is placed, with the fault's cause. -/
def failPlacement (d : Die) (e : FaultEntry) (dd : Die) (r : TaskRec) (s : State) : State :=
  let s1 := s.modDie d fun y => { y with placeWait := none }
  if (s1.die dd).pool.contains r then stopInstance dd r (0x100 + e.code.toNat) e.va s1 else s1

/-- An admission's fault stays (R314): status 6 for the launch whose packet it was. -/
def failAdmission (d : Die) (lid : Nat) (s : State) : State :=
  let s1 := s.modDie d fun y => { y with admitWait := none }
  ((s1.launch? lid).filter (s1.isRanked d)).elim s1 fun l => endLaunch l.id 6 (unrank l s1)

/-- FAULT_LEFT_UNRESOLVED: each source takes its failure (R311, R314, R315, R321, R335, R363, R368, R374, R380). -/
def execFaultLeftUnresolved (f : FaultSource) (s : State) : Host.Outcome State Fault Refusal :=
  .next (byCore (f.core s) s (match f with
    | .queue q =>
      let x := s.queue q
      x.skip.elim s fun e => haltQueue (s.dropFault x.d.die e) q x.lap x.lap
    | .mirror q =>
      let x := s.queue q
      x.mirror.elim s fun e => (s.modQueue q fun y => { y with mirror := none }).dropFault x.d.die e.2
    | .record l => (s.launch? l).elim s fun x => x.recordWait.elim s fun e =>
        let s1 := closeLaunch x (s.dropFault x.die e)
        { s1 with lost := s1.lost ++ [(x.queue.val, (x.index, x.status.getD 0))] }
    | .copy q => (s.copyJob? (Fin.ofNat 1024 q)).elim s fun j => j.waits.elim s fun e =>
        failCopy (s.dropFault (s.queue j.queue.val).d.die e) j e
    | .chain h => (s.chain? h).elim s fun ch => ch.waits.elim s fun e => failChain (s.dropFault 0 e) h 3
    | .move c k =>
      let ps := (s.strand c k).pend.filter (·.waitingMove)
      ps.foldl (fun z p => countRefusal (s.ctxOf c) (dropMoveFault c k p z))
        (s.modStrand c k fun t => { t with pend := t.pend.filter (!·.waitingMove) })
    | .host => match s.hostWaits with
      | a :: r => retryHost (hostFail { dropHostFault s with hostWaits := r } a)
      | [] => s
    | .peer => s.faultingPeer.elim s fun a =>
        retryPeers { peerReply a (dropIslandFault s (.source .peer) a.addr) (.refused 1) with peerWaits := s.peerWaits.erase a }
    | .placement d => (s.die d).placeWait.elim s fun w => failPlacement d w.1 w.2.1 w.2.2 (s.dropFault d w.1)
    | .admission d => (s.die d).admitWait.elim s fun w => failAdmission d w.2 (s.dropFault d w.1)))

end Sys2Proof.Machine
end

