-- ==== Sys2Proof/Machine/Matrix.lean ====
section
/-! DEFINITION. The matrix engine's operators (07 R205 to R212, 01 R35 to R37): one iteration of the nest an event. -/

namespace Sys2Proof.Machine

/-- Contiguous elements of an operand from an address on, as codes. -/
def readRun (v : Site) (o ty a n : Nat) : EngM (List Nat) :=
  (List.range n).mapM fun (k : Nat) => do
    let p ← place v o ty (stepAddr a k ty) true false
    readCode v o ty p

/-! Weights. -/

/-- An element under a block scale (R24, R25): a zero scale reads as zero, a NaN scale as NaN. The zero is +0 whatever the
element's sign (DESIGN CHOICE, log 67: R24 says only that the block reads as all zeros). -/
def scaled (x : XVal) (code : Nat) : XVal :=
  let z := zdecode code
  if z.isNan then .nan false else if z.isZero then .zero else x.mul z

/-- The weight of row k and column j of a set; rows beyond the loaded ones read as +0 (R205, R209). -/
def WeightSet.weight (w : WeightSet) (k j : Nat) : XVal :=
  match ((w.w[k]?).getD [])[j]? with
  | none => .zero
  | some (code, none) => (valOf w.ty code.toNat).real
  | some (code, some sc) => scaled (valOf w.ty code.toNat).real sc.toNat

/-- The same as an integer, for INT8 (R36). -/
def WeightSet.weightInt (w : WeightSet) (k j : Nat) : Int :=
  match ((w.w[k]?).getD [])[j]? with
  | some (code, _) => if w.cls = 1 then sx code.toNat 8 else 0
  | none => 0

def setNo (f : Block) : Nat := fbits f 22 10 1

/-- wload of one iteration (R207). -/
def stepWload (v : Site) (i0 : Nat) : EngM Unit := do
  let r ← get
  let f := r.b.f
  let ty := tyOf f 2
  let kw := fbits f 22 0 10
  let bs := fbits f 22 11 1 == 1
  let pitch : Int := sx (fbits f 24 0 32) 32
  let base := addrOf f 2 (idx r.b i0) v.t
  let rows ← (List.range kw).mapM fun (k : Nat) => do
    let codes ← readRun v 2 ty (stepAddr base ((k : Int) * pitch) ty) 128
    (codes.zipIdx).mapM fun (x : Nat × Nat) => do
      let sc ← if bs then auxRead v (fbits f 23 0 20 / 2 * 2 + 2 * (k / 32 * 128 + x.2)) 2 else pure 0
      return (BitVec.ofNat 16 x.1, if bs then some (BitVec.ofNat 10 sc) else none)
  modify fun r => { r with s := r.s.modTile v.c v.t fun y =>
    { y with sets := y.sets.set (setNo f % 2) ⟨setClass ty, kw, bs, ty, rows⟩ (Nat.mod_lt _ (by decide)) } }

/-! The products (R35, R36). -/

/-- The exact sum of a chunk's products: −0 only when every product is −0. -/
def chunkSum (ps : List XVal) : XVal := ps.foldl (fun a p => a.add 0 p) (.fin true 0 1)

/-- mma_element on FP32 words: a and the weights in chunks of 32 (R35). -/
def mmaFloat (ftz : Bool) (acc : Nat) (ps : List XVal) : Nat :=
  (List.range ((ps.length + 31) / 32)).foldl (fun acc c =>
    let chunk := chunkSum ((ps.drop (32 * c)).take 32)
    flushCode ftz 0 (roundTo fp32 0 0 false ((fp32.decode (flushCode ftz 0 acc)).add 0 chunk)).1) acc

def mmaInt (acc : Nat) (a : List Int) (w : Nat → Int) : Nat :=
  (((a.zipIdx).foldl (fun z x => z + x.1 * w x.2) (acc : Int)) % (2 ^ 32 : Nat)).toNat

/-- Words of 4 bytes. -/
def words4 : List Byte → List Nat
  | a :: b :: c :: d :: r => ofBytes [a, b, c, d] :: words4 r
  | _ => []

/-- The accumulator row that an operand's address names (R208). -/
def placeRow (v : Site) (o : Nat) (i : List Nat) (wr : Bool) : EngM (Tgt × Nat) := do
  let r ← get
  place v o 0 (addrOf r.b.f o i v.t / 512 * 512) (!wr) wr

/-! Rates (R212). -/

def narrowFactor (s : State) (v : Site) : Nat := if (s.core v.c).narrowed then 2 else 1

def mmaTicks (s : State) (v : Site) (b : Entry) : Nat :=
  let ty := tyOf b.f 1
  let a := addrOf b.f 1 (indexOf b.f b.n) v.t
  (max 1 ((fbits b.f 22 0 10 * typeBits ty + 2047) / 2048) + if a % (if ty = 5 then 128 else 64) = 0 then 0 else 1) * narrowFactor s v

/-- A row of results lands in the accumulator 4 ticks after its step, or 5 in the power-narrowed mode (R212): counted from the
last of the step's ticks (DEDUCED, log 67). -/
def landRow (v : Site) (ticks : Nat) (tg : Tgt) (ws : List Nat) : EngM Unit := do
  let r ← get
  let bs := ws.flatMap fun x => bytesOf 4 x
  let due := lastTick r.s v ticks + if (r.s.core v.c).narrowed then 5 else 4
  match tg with
  | .loc a _ _ =>
    set { r with
      s := r.s.modTile v.c v.t fun y => { y with accLand := y.accLand ++ [Landing.mk due a bs] }
      b := r.b.sign bs }
  | _ => return ()

/-- mma and mma.z (R208). FTZ acts on A and on the accumulator, not on a weight that a wload without FTZ left subnormal (DESIGN
CHOICE, log 67: R35's value() might flush it, R205 and R209 read the set's exact values). -/
def stepMma (fromZero : Bool) (v : Site) (i0 : Nat) : EngM Unit := do
  let r ← get
  let f := r.b.f
  let ta := tyOf f 1
  let kw := fbits f 22 0 10
  let bs := fbits f 22 11 1 == 1
  let w := (r.s.tile v.c v.t).sets.get (Fin.ofNat 2 (setNo f))
  let pd ← placeRow v 0 (idx r.b i0) true
  let codes ← readRun v 1 ta (addrOf f 1 (idx r.b i0) v.t) kw
  let scales ← (List.range (if bs then kw / 32 else 0)).mapM fun j =>
    auxRead v (fbits f 23 0 20 / 2 * 2 + 2 * (r.b.n * kw / 32 + j)) 2
  let old ← if fromZero then pure (List.replicate 128 0) else do
    let bytes ← fetchBytes v 0 pd.1 512
    pure (words4 bytes)
  let out := old.zipIdx.map fun x =>
    if ta = 6 then mmaInt x.1 (codes.map fun a => sx a 8) fun k => w.weightInt k x.2
    else mmaFloat (ftzOf f) x.1 (codes.zipIdx.map fun a =>
      let y := (valOf ta a.1).real
      (if bs then scaled y ((scales[a.2 / 32]?).getD 0) else y).mul (w.weight a.2 x.2))
  landRow v (mmaTicks r.s v r.b) pd.1 out

/-- mma.chain (R210): A's row passes through the down-converter. -/
def stepChain (v : Site) (i0 : Nat) : EngM Unit := do
  let r ← get
  let f := r.b.f
  let kw := fbits f 22 0 10
  let ct := fbits f 22 12 4
  let w := (r.s.tile v.c v.t).sets.get (Fin.ofNat 2 (setNo f))
  let pa ← placeRow v 1 (idx r.b i0) false
  let pd ← placeRow v 0 (idx r.b i0) true
  let arow ← fetchBytes v 1 pa.1 512
  let drow ← fetchBytes v 0 pd.1 512
  let a := ((words4 arow).take kw).map fun x =>
    let y := (roundTo (fmtOf ct) (rmOf f) 0 (satOf f) (fp32.decode (flushCode (ftzOf f) 0 x))).1
    (fmtOf ct).decode (flushCode (ftzOf f) ct y)
  let out := (words4 drow).zipIdx.map fun x =>
    mmaFloat (ftzOf f) x.1 (a.zipIdx.map fun y => y.1.mul (w.weight y.2 x.2))
  landRow v (narrowFactor r.s v) pd.1 out

/-- acc.zero (R211). -/
def stepAccZero (v : Site) (i0 : Nat) : EngM Unit := do
  let r ← get
  let p ← placeRow v 0 (idx r.b i0) true
  storeBytes v 0 p.1 (List.replicate 512 0)

/-- acc.ld (R211): every word exactly; a NaN is written as the canonical one, of FP32 too (R20; DESIGN CHOICE, log 69). -/
def stepAccLd (v : Site) (i0 : Nat) : EngM Unit := do
  let r ← get
  let f := r.b.f
  let p ← placeRow v 0 (idx r.b i0) true
  let codes ← readRun v 1 (tyOf f 1) (addrOf f 1 (idx r.b i0) v.t) 128
  let word (c : Nat) : Nat :=
    match valOf (tyOf f 1) c with
    | .i z => narrow 8 false z
    | .f x => flushCode (ftzOf f) 0 (roundTo fp32 0 0 false x).1
  storeBytes v 0 p.1 (codes.flatMap fun c => bytesOf 4 (word c))

/-! When a step may go on (R207, R212). -/

/-- The accumulator row of an operand at the entry's present iteration. -/
def rowLoc (s : State) (v : Site) (b : Entry) (o : Nat) : Nat :=
  match engineTgt s v 2 (addrOf b.f o (indexOf b.f b.n) v.t / 512 * 512) with
  | .loc a _ _ => a
  | _ => 0

/-- No result is still on its way to the row. -/
def rowLanded (s : State) (v : Site) (a : Nat) : Bool := (s.tile v.c v.t).accLand.all fun x => x.loc != a

/-- No wload to the entry's set stands before it in the queue (R207). -/
def setLoaded (s : State) (v : Site) (b : Entry) : Bool :=
  (((s.tile v.c v.t).queue v.e).entries.takeWhile (·.seq ≠ b.seq)).all fun x => !(opOf x.f == 4 && setNo x.f == setNo b.f)

def matrixOp (step : Site → Nat → EngM Unit) (ticks : State → Site → Entry → Nat) (clear : State → Site → Entry → Bool) :
    OpBody := { grain := fun _ => 1, whole := false, step := step, ticks := ticks, clear := clear }

def mmaOp : OpBody := matrixOp (stepMma false) mmaTicks fun s v b => setLoaded s v b && rowLanded s v (rowLoc s v b 0)
def execMma (c : Cl) (t : Tl) (s : State) : Host.Outcome State Fault Refusal := operator 1 mmaOp c t .m s
def mmaZOp : OpBody := matrixOp (stepMma true) mmaTicks setLoaded
def execMmaZ (c : Cl) (t : Tl) (s : State) : Host.Outcome State Fault Refusal := operator 2 mmaZOp c t .m s
def mmaChainOp : OpBody := matrixOp stepChain (fun s v _ => narrowFactor s v) fun s v b =>
    setLoaded s v b && rowLanded s v (rowLoc s v b 0) && rowLanded s v (rowLoc s v b 1)
def execMmaChain (c : Cl) (t : Tl) (s : State) : Host.Outcome State Fault Refusal := operator 3 mmaChainOp c t .m s
def wloadOp : OpBody := matrixOp stepWload (fun _ _ b => if fbits b.f 22 11 1 = 1 then 18 else 16) fun _ _ _ => true
def execWload (c : Cl) (t : Tl) (s : State) : Host.Outcome State Fault Refusal := operator 4 wloadOp c t .m s
def accZeroOp : OpBody := matrixOp stepAccZero (fun _ _ _ => 1) fun s v b => rowLanded s v (rowLoc s v b 0)
def execAccZero (c : Cl) (t : Tl) (s : State) : Host.Outcome State Fault Refusal := operator 5 accZeroOp c t .m s
def accLdOp : OpBody := matrixOp stepAccLd (fun _ _ _ => 1) fun s v b => rowLanded s v (rowLoc s v b 0)
def execAccLd (c : Cl) (t : Tl) (s : State) : Host.Outcome State Fault Refusal := operator 6 accLdOp c t .m s

end Sys2Proof.Machine
end

