-- ==== Sys2Proof/Machine/Containment.lean ====
section
/-! DEFINITION. Poison and its consumption (15 R397 to R400), purges and replay (15 R401 to R404), audits (15 R407, R408),
triplicated tables (15 R409, R410), fencing of a die (15 R411 to R413), queue reset (15 R414), bins (15 R415, R416), checkpoint
and restore (15 R417 to R420). -/

namespace Sys2Proof.Machine

/-! Poison. -/

/-- The die of a location: a line's home die, or the die of the cluster it lies in. -/
def dieAt (x : Nat) : Die :=
  if x < hbmSize then homeDie x
  else if x < 2 ^ 41 then Fin.ofNat 4 ((x - 2 ^ 40) / 2 ^ 28)
  else if x < 2 ^ 42 then Fin.ofNat 4 ((x - 2 ^ 41) / 2 ^ 27)
  else Fin.ofNat 4 ((x - 2 ^ 42) / 2 ^ 25)

/-- A poisoned line is logged in all three copies, unless the record is full (R409). -/
def logPoison (r : PoisonRec) (d : DieRec) : DieRec :=
  { d with tables := d.tables.each fun t => if t.poison.length < 4096 then { t with poison := t.poison ++ [r] } else t }

/-- A page frame is retired in all three copies, while there is room (R409). -/
def DieRec.retire (f : Nat) (x : DieRec) : DieRec :=
  { x with tables := x.tables.each fun t =>
      if t.frames.contains f || decide (2048 ≤ t.frames.length) then t else { t with frames := t.frames ++ [f] } }

/-- An uncorrectable error of device memory: the second in a frame retires it (R409). -/
def badFrame (pa : Nat) (s : State) : State :=
  let f := pa / 2 ^ 16
  s.modDie (homeDie pa) fun x =>
    let n := tabGet x.frameBad f 0 + 1
    let y := { x with frameBad := tabSet x.frameBad f n }
    if 2 ≤ n then y.retire f else y

/-- The poison record of a die has no room (R409). -/
def DieRec.poisonFull (x : DieRec) : Bool := x.tables.toList.any fun t => decide (4096 ≤ t.poison.length)

/-- An uncorrectable error poisons a line, which is logged with its unit; a full record notifies firmware, by the report (die, 4)
(R397, R409). -/
def poisonLineAs (s : State) (unit : Nat) (x : Fin 64) (tag : BitVec 16) (pa : Nat) : State :=
  if s.poison.contains (pa / 64) then s
  else
    let d := dieAt pa
    let s1 := { s with
      poison := s.poison ++ [pa / 64]
      reports := if (s.die d).poisonFull then s.reports ++ [(d.val, 4)] else s.reports }.modDie d
        (logPoison ⟨(apertureOf (pa / 64 * 64)).toNat, unit, x, tag⟩)
    if pa < hbmSize then badFrame pa s1 else s1

def poisonLine (s : State) (x : Fin 64) (tag : BitVec 16) (pa : Nat) : State := poisonLineAs s (unitAt pa) x tag pa

/-! Corrected errors (R397, R409, R416). -/

/-- Core cycles of a second and of an hour (R2). -/
def cyclesPerSecond : Nat := 1800000000
def cyclesPerHour : Nat := 3600 * cyclesPerSecond

/-- The times of a list within a span before now, with now. -/
def recent (now span : Nat) (l : List Nat) : List Nat := now :: l.filter fun t => decide (now < t + span)

/-- A corrected error of a cluster's stores: counted; 64 within a second make the cluster suspect. -/
def Core.correct (x : Core) (now : Nat) : Core :=
  let l := recent now cyclesPerSecond x.correctedAt
  { x with corrected := saturate32 x.corrected, correctedAt := l, suspect := x.suspect || decide (64 ≤ l.length) }

/-- A corrected error of device memory: counted for its stack; 16 within an hour retire the frame. Which half of a die's pages lies in
which of its stacks is the model's choice (log 68). -/
def correctHbm (pa : Nat) (s : State) : State :=
  let f := pa / 2 ^ 16
  let k : Fin 2 := Fin.ofNat 2 (pa / 2 ^ 36)
  s.modDie (homeDie pa) fun x =>
    let l := recent s.cycle cyclesPerHour (tabGet x.frameErrors f [])
    let y := { x with stackErrors := x.stackErrors.set k.val (saturate32 (x.stackErrors.get k)), frameErrors := tabSet x.frameErrors f l }
    if 16 ≤ l.length then y.retire f else y

/-- The cluster of an SRAM location. -/
def clusterAt (x : Nat) : Cl :=
  if x < 2 ^ 41 then Fin.ofNat 64 ((x - 2 ^ 40) / 2 ^ 24)
  else if x < 2 ^ 42 then Fin.ofNat 64 ((x - 2 ^ 41) / 2 ^ 23)
  else Fin.ofNat 64 ((x - 2 ^ 42) / 2 ^ 21)

/-- A read corrects a single error. -/
def correctAt (pa : Nat) (s : State) : State :=
  if pa < hbmSize then correctHbm pa s else s.modCore (clusterAt pa) (·.correct s.cycle)

/-- The context and tag of a cluster's launch. -/
def State.tagHere (s : State) (c : Cl) : Fin 64 × BitVec 16 := (s.ctxOf c, s.tagOf c)

/-- An engine entry's tag (R171). -/
def Entry.tag (b : Entry) : BitVec 16 := BitVec.ofNat 16 (fbits b.f 28 16 16)

/-- Numbers from 2^44 on stand for entries that are no memory: 2^44 + unit, units 5 to 8 of R400. -/
def badEntry (pa : Nat) : Option Nat := if 2 ^ 44 ≤ pa then some (5 + pa % 4) else none

/-- A cluster that takes a machine check of unit 6 or 7 is suspect (R416). -/
def suspectUnit (c : Cl) (u : Nat) (s : State) : State := if u = 6 ∨ u = 7 then s.modCore c fun x => { x with suspect := true } else s

/-- A strand consumes what is bad (R399, R416): a machine check, with the address, or 0 where it is no memory (R290). -/
def strandConsumes (s : State) (c : Cl) (k : Sn) (addr : W) (pa : Nat) : State :=
  let t := s.strand c k
  if (t.state ≠ .run ∧ t.state ≠ .handler) ∨ t.fw.isSome then s
  else match badEntry pa with
    | some u => suspectUnit c u (machineCheck s c k u 0)
    | none => machineCheck (poisonLine s (s.tagHere c).1 (s.tagHere c).2 pa) c k (unitAt pa) addr

/-- A running engine entry consumes a poisoned line, or is bad itself. -/
def engineConsumes (s : State) (v : Site) (operand : Nat) (addr : W) (pa : Nat) : State :=
  match ((s.tile v.c v.t).queue v.e).entries.head? with
  | some b =>
    if b.phase ≠ .running ∨ b.fault.isSome then s
    else match badEntry pa with
      | some u => suspectUnit v.c u (enginePoison s v b u operand 0)
      | none => enginePoison (poisonLine s (s.ctxOf v.c) b.tag pa) v b (unitAt pa) operand addr
  | none => s

/-- A copy packet or a chain consumes a poisoned line, or an entry of the island that is bad. -/
def agentConsumes (s : State) (x : Fin 64) (tag : BitVec 16) (addr : W) (pa : Nat) : State :=
  match badEntry pa with
  | some u => beginPurge s x tag (consumerEvent s u 0) true
  | none => beginPurge (poisonLine s x tag pa) x tag (consumerEvent s (unitAt pa) addr) (decide (unitAt pa ≠ 4))

/-- A line of a data cache is bad (R397): dirty, it is written back poisoned; clean, it is fetched anew when it is next read. -/
def cacheLineBad (c : Cl) (pa : Nat) (s : State) : State :=
  match (lineOf c pa).bind (s.core c).line? with
  | some d =>
    let s1 := dropLine c d.line s
    if d.dirty = 0 then s1 else poisonLineAs s1 5 (s.tagHere c).1 (s.tagHere c).2 pa
  | none => s

/-- The tag of a triggered operation's descriptor (R372). -/
def tagOfDesc (dw : List W) : BitVec 16 := BitVec.ofNat 16 (bits ((dw[6]?).getD 0).toNat 0 16)

/-- POISON_CONSUMPTION (R397 to R400): an access meets an error: an agent reads a line, or an entry, that is bad; or a single error is
corrected, and counted. -/
def execPoisonConsumption (x : Consumer) (pa : Nat) (s : State) : Host.Outcome State Fault Refusal :=
  .next (match x with
    | .strand c k addr => strandConsumes s c k addr pa
    | .engine c t e o addr => engineConsumes s ⟨c, t, e⟩ o.val addr pa
    | .copy q addr => (s.copyJob? (Fin.ofNat 1024 q)).elim s fun j => if j.stopped.isSome then s else agentConsumes s (s.ctxOfQueue j.queue) j.tag addr pa
    | .trigger h addr => (s.chain? h).elim s fun ch => agentConsumes s (s.slot ch.head).ctx (tagOfDesc ch.dw) addr pa
    | .corrected => correctAt pa s
    | .correctedEntry c => s.modCore c (·.correct s.cycle)
    | .correctedIsland => { s with islandErrors := saturate32 s.islandErrors }
    | .cacheLine c => cacheLineBad c pa s)

/-! Purges (R401, R402). -/

/-- A gang that a purge reaches: strands halt; entries, posted stores not yet performed and far-load entries go. -/
def purgeGang (g : Gang) (s : State) : State :=
  modMembers g (fun x => { x with strands := x.strands.each fun t => { t with pend := [], flq := [], flqHalt := none } }) (haltGang g s)

/-- What a die's front end waits for goes with the launches reached. -/
def clearWaits (ids : List Nat) (d : Die) (s : State) : State :=
  let s1 := ((s.die d).admitWait.filter fun w => ids.contains w.2).elim s fun w =>
    (s.dropFault d w.1).modDie d fun x => { x with admitWait := none }
  ((s1.die d).placeWait.filter fun w => ids.contains w.2.2.launch).elim s1 fun w =>
    (s1.dropFault d w.1).modDie d fun x => { x with placeWait := none }

/-- Launches reached (R401 Table 3): out of ranked queues, pools and spill queues; gangs halted; saved gangs discarded, their part of
the record kept (R334). One that had a status, while its gangs ran to their rows' ends, ends as the purge has it (R403). -/
def reachLaunches (ids : List Nat) (s : State) : State :=
  let s0 : State := ids.foldl (fun z i => dropSaved i z) ((List.finRange 4).foldl (fun z d => clearWaits ids d z) s)
  let s1 : State := { s0 with
    dies := s0.dies.each fun d =>
      { d with
        ranked := d.ranked.filter fun l => !ids.contains l
        pool := d.pool.filter fun r => !ids.contains r.launch
        spill := d.spill.filter fun r => !ids.contains r.launch }
    launches := s0.launches.map fun (l : Launch) =>
      if ids.contains l.id then { l with purging := true, status := none, phase := if l.status.isSome then .admitted else l.phase } else l }
  (s1.gangs.filter fun g => ids.contains g.launch).foldl (fun z g => purgeGang g z) s1

/-- Chains that work for a context and tag stop; their heads, and armed slots, are cancelled. -/
def purgeSlots (x : Fin 64) (tag : BitVec 16) (s : State) : State :=
  let hit (d : Slot) : Bool := d.ctx == x && tagOfDesc d.dw == tag
  let gone := s.chains.filter fun ch => hit (s.slot ch.head) || ((s.slot ch.head).ctx == x && tagOfDesc ch.dw == tag)
  let s1 := gone.foldl (fun z ch => z.setSlot ch.head { z.slot ch.head with state := .cancelled }) s
  { s1 with
    chains := s1.chains.filter fun ch => !gone.contains ch
    slots := s1.slots.map fun e => if hit e.2 ∧ e.2.state = .armed then (e.1, { e.2 with state := .cancelled }) else e }

/-- PURGE (R401), the response to a machine check (R399). -/
def execPurge (x : Fin 64) (tag : BitVec 16) (s : State) : Host.Outcome State Fault Refusal :=
  let ids := (s.launches.filter (s.bears x tag)).map (·.id)
  let s1 := purgeSlots x tag (reachLaunches ids s)
  let s2 := (s1.copies.filter fun j => s1.ctxOfQueue j.queue == x && j.tag == tag && j.stopped.isNone).foldl
    (fun z j => finishCopy z { j with waits := none } 4) s1
  .next { s2 with purges := s2.purges ++ [⟨x, tag, ids, true⟩] }

/-- The work of a purge is gone everywhere. -/
def purgeDone (s : State) (p : Purge) : Bool :=
  s.gangs.all (fun g => !p.launches.contains g.launch)
    && s.copies.all fun j => !(s.ctxOfQueue j.queue == p.ctx && j.tag == p.tag && j.stopped == some 4)

/-- The lowest-numbered die in run. -/
def State.lowestRun (s : State) : Option Die := (List.finRange 4).find? fun d => s.dieRuns d

/-- A purged launch may run once more (R404). -/
def replayable (s : State) (l : Launch) : Bool :=
  bits l.header 6 1 == 1 && !l.replayed && !l.offChip && !(l.deadline != 0 && decide (l.deadline ≤ s.xtime.toNat))
    && (s.ctx l.ctx).mc != 3 && (s.queue l.queue.val).state != .resetting

/-- The retained packet is ranked again for admission; the first attempt's events stay. -/
def replay (l : Launch) (s : State) : State :=
  let d := if s.dieRuns l.die then l.die else (s.lowestRun).getD l.die
  (s.modLaunch l.id fun x =>
    { x with
      die := d, phase := .ranked, nodes := [], outstanding := 0, placed := 0, started := false, rejectedSpawns := 0, reefed := false,
      validity := 0, doneAtReef := 0, tAdmit := 0, tPlace := 0, tReef := 0, slipSum := 0, slipLog := none, replayed := true, purging := false,
      clustersDone := true }).modDie d fun y => { y with ranked := y.ranked ++ [l.id] }

/-- A launch whose purge is complete is replayed, or ends with status 5 (R403). -/
def settlePurged (s : State) (id : Nat) : State :=
  match s.launch? id with
  | some l =>
    if replayable s l then replay l s
    else endLaunch id 5 (s.modLaunch id fun x => { x with purging := false })
  | none => s

/-- PURGE_COMPLETE (R402 to R404); then mc 2 kills the context where a machine check began the purge (R338). A launch that another purge still holds waits for
it. -/
def execPurgeComplete (x : Fin 64) (tag : BitVec 16) (s : State) : Host.Outcome State Fault Refusal :=
  match s.purges.find? fun p => p.ctx == x && p.tag == tag with
  | none => .next s
  | some p =>
    if purgeDone s p = false then .next s
    else
      let s1 := { s with purges := s.purges.erase p }
      let ids := p.launches.filter fun i => !(s1.purges.any fun q => q.launches.contains i) &&
        (s1.launch? i).elim false fun l => (s1.queue l.queue.val).state != .resetting
      let s2 := ids.foldl settlePurged s1
      .next (if (s2.ctx x).mc = 2 ∧ p.check then { s2 with todo := .contextKill x :: s2.todo } else s2)

/-! Audits (R407, R408). -/

def State.suspect (s : State) (c : Cl) : State := s.modCore c fun x => { x with suspect := true }

/-- The operators that may be audited (R406), by their codes. -/
def auditBody (e : Eng) (code : Nat) : Option OpBody :=
  match e with
  | .m => match code with
    | 1 => some mmaOp
    | 2 => some mmaZOp
    | 3 => some mmaChainOp
    | 4 => some wloadOp
    | 5 => some accZeroOp
    | 6 => some accLdOp
    | _ => none
  | .v => match code with
    | 1 => some vAddOp
    | 2 => some vSubOp
    | 3 => some vMulOp
    | 4 => some vFmaOp
    | 5 => some vMinOp
    | 6 => some vMaxOp
    | 7 => some vAbsOp
    | 8 => some vNegOp
    | 9 => some clampOp
    | 0xa => some vCvtOp
    | 0xb => some scaleOp
    | 0xc => some cmpselOp
    | 0x10 => some redsumOp
    | 0x11 => some redmaxOp
    | 0x12 => some redminOp
    | 0x13 => some scanOp
    | 0x14 => some bcastOp
    | 0x15 => some permOp
    | 0x18 => some qblkOp
    | 0x19 => some dqblkOp
    | 0x1a => some accRdOp
    | 0x21 => some tintOp
    | 0x22 => some exp2Op
    | 0x23 => some rcpOp
    | 0x24 => some rsqrtOp
    | 0x29 => some hashcellOp
    | 0x2a => some iotaOp
    | 0x2b => some sortnetOp
    | _ => none
  | _ => match code with
    | 1 => some copyOp
    | 2 => some gatherOp
    | 3 => some scatterOp
    | 4 => some scatterBktOp
    | 5 => some fillOp
    | _ => none

/-- A replay's rows, from the snapshot alone, until the block's elements are done. -/
def replayRows (op : OpBody) (v : Site) : Nat → Run → Run
  | 0, r => r
  | n + 1, r =>
    if totalOf r.b.f ≤ r.b.n then r
    else
      let e0 := extOf r.b.f 0
      let z := runSteps (op.step v) (op.grain r.b.f) e0 (if op.whole then e0 else 1) (r.b.n % max 1 e0) r
      if z.2.isSome then z.1 else replayRows op v n z.1

/-- The entry as a replay begins it. -/
def Audit.entry0 (a : Audit) : Entry :=
  { a.entry with
    phase := .running, n := 0, lanes := seedLanes a.entry.f, carry := [], fault := none, cutRow := false, wb := 0
    audit := some { a.snap with crc := BitVec.allOnes 64 } }

/-- The signature that a replay from the snapshot forms (R407): what the block wrote follows from what it read. -/
def Audit.replaySig (s : State) (a : Audit) : BitVec 64 :=
  let v : Site := ⟨a.cluster, a.tile, a.eng⟩
  match auditBody a.eng (opOf a.entry.f) with
  | none => a.crc
  | some op =>
    let s1 := s.modTile a.cluster a.tile fun y => { y with sets := a.snap.sets, slots := a.snap.slots }
    let r := replayRows op v (totalOf a.entry.f) ⟨s1, a.entry0, 0, [], [], some a.snap.reads⟩
    ~~~((r.b.audit.map (·.crc)).getD 0)

/-- A confirmed mismatch of the audited cluster: a machine check of unit 9, and the purge of the block's tag. The fault entry's
element is open; its address is 0 (R290). -/
def auditFails (s : State) (a : Audit) : State :=
  let e : FaultEntry :=
    { code := 0x22, write := false, src := 1, ctx := a.ctx, cluster := a.cluster, unit := a.eng.code, tile := a.tile.val, operand := 0,
      va := 0, seq := a.entry.seq.setWidth 64, n := Config.choice s.fresh 4, agent := none }
  let s1 := { (s.suspect a.cluster).addFault (dieOf a.cluster) e with fresh := s.fresh + 1 }
  beginPurge s1 a.ctx a.entry.tag ⟨a.cluster, false, ⟨s.cycle, 0, BitVec.ofNat 64 (9 * 2 ^ 16 + 0x122), 0, 0, false, false⟩⟩ true

/-- AUDIT_REPLAY (R407, R408): the die's oldest audit is replayed on its audit cluster, and, where the signatures differ, on another
idle one; abandoned when there is none. -/
def execAuditReplay (d : Die) (r : AuditInput) (s : State) : Host.Outcome State Fault Refusal :=
  match (s.die d).audits with
  | [] => .next s
  | a :: rest =>
    let s1 := s.modDie d fun x => { x with audits := rest }
    let abandon (z : State) : State := z.modDie d fun x => { x with audAbandoned := saturate32 x.audAbandoned }
    if s.idleCluster d a.snap.cluster = false then .next (abandon s1)
    else
      let sig := a.replaySig s
      let own := a.crc ^^^ r.own
      let first := sig ^^^ r.first
      let second := sig ^^^ r.second
      let s2 := s1.modDie d fun x => { x with audCompared := saturate32 x.audCompared }
      if first = own then .next s2
      else
        let s3 := s2.modDie d fun x => { x with audMismatch := saturate32 x.audMismatch }
        if (List.finRange 64).all fun c => c == a.snap.cluster || !s.idleCluster d c then .next (abandon s3)
        else if second = first then .next (auditFails s3 a)
        else if second = own then .next (s3.suspect a.snap.cluster)
        else .next ((s3.suspect a.cluster).suspect a.snap.cluster)

/-! Triplicated tables (R409, R410, R428). -/

/-- The scrub of one die. -/
def scrubDie (d : Die) (s : State) : State :=
  match voteTables (s.die d).tables with
  | some v => s.modDie d fun x => { x with tables := Vector.replicate 3 v.1, corrections := x.corrections + v.2 }
  | none => { s with todo := .dieFence d :: s.todo }

/-- TABLE_SCRUB (R409, R410): every entry of every copy; a die without a majority is fenced. -/
def execTableScrub (s : State) : Host.Outcome State Fault Refusal :=
  .next ((List.finRange 4).foldl (fun z d => scrubDie d z) (s.setLease s.leaseNow))

/-! Fencing a die (R411 to R413). -/

/-- A launch node may run again after a fence (R313, R319). -/
def State.reissuable (s : State) (launch node : Nat) : Bool :=
  (s.launch? launch).elim false fun l => (l.nodes[node]?).elim false (·.reissue)

/-- A gang has a member on the die. -/
def Gang.onDie (g : Gang) (d : Die) : Bool := g.members.any fun m => dieOf m.phys == d

/-- The island's attach map (R422): dies in Run. -/
def State.attachMap (s : State) : Nat := ((List.finRange 4).map fun d => if s.dieRuns d then 2 ^ d.val else 0).sum

/-- The island follows its attach map. -/
def State.reattach (s : State) : State :=
  if s.island = .forward ∧ s.attachMap ≠ 0 then { s with island := .attached }
  else if s.island = .attached ∧ s.attachMap = 0 then { s with island := .forward }
  else s

/-- What the front end of a die serves goes to another die: queues, ranked launches, launches that run (R411). What
waited for firmware there asks again. -/
def moveQueues (d e : Die) (s : State) : State :=
  let s1 : State := { s with
    queues := s.queues.map fun q =>
      if q.2.d.die = d then (q.1, { q.2 with d := { q.2.d with die := e }, skip := none, mirror := none }) else q
    launches := s.launches.map fun l => if l.die = d then { l with die := e, recordWait := none } else l
    copies := s.copies.map fun j => if (s.queue j.queue.val).d.die = d then { j with waits := none } else j
    faultq := s.faultq.set d.val ((s.faultq.get d).filter (·.src ≠ 2)) }
  (s1.modDie e fun x => { x with ranked := x.ranked ++ (s.die d).ranked }).modDie d fun x => { x with ranked := [] }

/-- The fenced die's own lists are empty. -/
def dropDieLists (d : Die) (s : State) : State :=
  s.modDie d fun x =>
    { x with pool := [], spill := [], admitWait := none, placeWait := none, audits := [],
             audAbandoned := (x.audits.foldl (fun n _ => saturate32 n) x.audAbandoned) }

/-- The queues of a die that leaves run go to the lowest die in run. -/
def evacuate (d : Die) (s : State) : State :=
  match s.lowestRun with
  | some e => if e = d then s else moveQueues d e s
  | none => s

/-- A die that leaves Run takes its roles with it: the lease's V is cleared (R429), wide placement pauses (R412). -/
def leaveRun (d : Die) (s : State) : State :=
  let l := s.leaseNow
  let s1 := if l.v ∧ l.holder.toNat = d.val then s.setLease { l with v := false } else s
  let s2 := if s1.master.die = d then { s1 with master := { s1.master with paused := true }, todo := .masterReplace :: s1.todo } else s1
  s2.reattach

/-- An instance that was placed, as the record that runs it again under its own index and argument base (R413). -/
def placedAgain (s : State) (g : Gang) : TaskRec :=
  let l := s.launch? g.launch
  ⟨g.launch, g.node, g.inst, 1, g.arg, (l.bind fun x => x.nodes[g.node]?).elim 0 (·.stride), l.elim 0 (·.rank), 0, true⟩

/-- The event of a launch that the fence of a die purges (R403, R413): the spec names no cause for it, so that is open (log 68). -/
def fenceEvent (d : Die) (id : Nat) (s : State) : State :=
  let e : LaunchEvent := ⟨Fin.ofNat 64 (16 * d.val), false, ⟨s.cycle, 0, Config.freeWord s.fresh 7, 0, 0, false, false⟩⟩
  { s.modLaunch id fun l => l.purgeEvent e true with fresh := s.fresh + 1 }

/-- DIE_FENCE (R411, R413): gangs with a member on the die are purged whole; instances and unplaced ranges of reissuable
nodes become records on the lowest die in run, or wait on this one while there is none, unless a purge, a stop or a reef has ended them
already (R331, R401); the launch of any other node is purged. -/
def execDieFence (d : Die) (s : State) : Host.Outcome State Fault Refusal :=
  if (s.die d).state ≠ .run ∧ (s.die d).state ≠ .drain then .next s
  else
    let s1 := s.modDie d fun x => { x with state := .fenced }
    let lost : List Gang := s.gangs.filter (·.onDie d)
    let recs : List TaskRec := (s.die d).pool ++ (s.die d).spill
    let ids := ((lost.filter fun g => !s.reissuable g.launch g.node).map (·.launch)
      ++ (recs.filter fun r => !s.reissuable r.launch r.node).map (·.launch)).eraseDups
    let past (r : TaskRec) : Bool := (s.launch? r.launch).elim true fun l => l.purging || l.status.isSome || l.reefed
    let again : List TaskRec := (recs ++ lost.map (placedAgain s)).filter fun r => !ids.contains r.launch && !past r
    let s2 := lost.foldl (fun z g => leaveClusters g (purgeGang g z)) (reachLaunches ids (ids.foldl (fun z i => fenceEvent d i z) s1))
    let s3 := dropDieLists d (evacuate d { s2 with
      purges := s2.purges ++ (ids.filterMap s2.launch?).map fun l => ⟨l.ctx, l.tag, [l.id], false⟩ })
    .next (leaveRun d (again.foldl (fun z r => addRecord ((s3.lowestRun).getD d) r z) s3))

/-- MASTER_REPLACE (R412): the lowest die in run, and the next term; the range log gives it its order. -/
def execMasterReplace (s : State) : Host.Outcome State Fault Refusal :=
  .next (match s.lowestRun with
    | some d => { s with master := ⟨d, s.master.term + 1, false⟩ }
    | none => s)

/-! Queue reset (R414). -/

def State.unfinishedOf (s : State) (i : Fin 1024) : List Nat :=
  (s.launches.filter fun l => l.queue == i && l.status.isNone).map (·.id)

/-- QUEUE_RESET (R414 steps 1 and 2): the leader's, for the host driver or the runtime (R427). -/
def execQueueReset (r : FromLeader (Fin 1024)) (s : State) : Host.Outcome State Fault Refusal :=
  let i := r.what
  let q := s.queue i.val
  if q.state = .resetting ∨ s.heeds r.term = false then .next s
  else
    let rest := q.open_.filter fun x => (q.taken.map (·.2)) ≠ some x
    let s1 := s.setQueue i.val { q with state := .resetting, taken := none, skip := none, mirror := none, open_ := rest }
    let s2 : State := { s1 with copies := s1.copies.map fun (j : CopyJob) => if j.queue = i ∧ j.stopped.isNone then { j with stopped := some 4, waits := none } else j }
    .next (reachLaunches (s2.unfinishedOf i) s2)

/-- QUEUE_RESET_COMPLETE (R414 steps 3 to 5): once every gang is released, status 4 is written everywhere; once that has
performed, the queue is disabled, and the report (queue, 7) says so. -/
def execQueueResetComplete (i : Fin 1024) (s : State) : Host.Outcome State Fault Refusal :=
  if (s.queue i.val).state ≠ .resetting ∨ s.gangs.any (fun g => (s.launch? g.launch).elim false (·.queue == i)) = true then .next s
  else
    let s1 := (s.unfinishedOf i).foldl (fun z l => endLaunch l 4 (z.modLaunch l fun x => { x with purging := false })) s
    let s2 := ((s1.launches.filter (·.queue == i)).map (·.id)).foldl (fun z l => writeRecord l z) s1
    let s3 := (s2.copies.filter fun j => j.queue == i && j.waits.isNone).foldl (fun z j => finishCopy z j (j.stopped.getD 4)) s2
    .next (if s3.launches.any (·.queue == i) ∨ s3.copies.any (·.queue == i) then s3
      else { s3.modQueue i.val (fun q => { q with state := .disabled, d := { q.d with en := false } }) with
        reports := s3.reports ++ [(i.val, 7)] })

/-! Bins (R415, R416). -/

/-- One bin down, never beyond Withdrawn. -/
def nextBin (b : Fin 4) : Fin 4 := if b = 3 then 3 else b + 1

/-- A retest of a suspect cluster: passes 0 before it is moved down, then 1 and one more for each pass in a row. -/
def Core.retest (x : Core) (pass : Bool) : Core :=
  let y := if x.passes = 0 then { x with bin := nextBin x.bin, passes := 1 } else x
  if y.bin = 3 then y
  else if pass then
    if 3 ≤ y.passes then { y with suspect := false, passes := 0 } else { y with passes := y.passes + 1 }
  else { y with bin := nextBin y.bin, passes := 1 }

/-- CLUSTER_RETEST (R416). -/
def execClusterRetest (c : Cl) (pass : Bool) (s : State) : Host.Outcome State Fault Refusal :=
  let x := s.core c
  .next (if x.suspect ∧ x.gang.isNone ∧ x.bin ≠ 3 then s.modCore c (·.retest pass) else s)

/-! Checkpoint and restore (R417 to R420). -/

/-- A generation fence of the gang is under way. -/
def Gang.fenced (g : Gang) : Bool := g.preempt.isSome && g.preempt != some .node

/-- CHECKPOINT_REQUEST (R417, R435): a checkpoint key is made, and encapsulated under the key the request names; a generation fence
begins for every gang that has none; a pre-emption at a node boundary gives way to it until the resume. -/
def execCheckpointRequest (r : CkptRequest) (s : State) : Host.Outcome State Fault Refusal :=
  .next (if s.ckpt ≠ .idle ∨ s.heeds r.term = false then s
    else
      let k : BitVec 256 := (Config.entropy s.fresh).setWidth 256
      let s1 : State := { s with
        ckpt := .quiesce, ckptTier := r.tier, ckptKey := (k, Config.kemEncaps r.ek k (Config.entropy (s.fresh + 1))), fresh := s.fresh + 2
        ckptGangs := (s.gangs.filter (!·.fenced)).map fun (g : Gang) => (g.id, g.members.map (·.phys))
        ckptBefore := s.gangs.filterMap fun (g : Gang) => g.preempt.map fun p => (g.id, p) }
      (s1.gangs.filter (!·.fenced)).foldl (fun z g => beginFence g.id z) s1)

/-- The retired frames of the part: of a die that has lost its majority, and is fenced, none is used (R410). -/
def State.retiredFrames (s : State) : List Nat := (List.finRange 4).flatMap fun d => (s.retiredOn d).getD []

/-- The frames of a segment that are present. -/
def CkptSegment.frames (g : CkptSegment) : List Nat := (List.range 16).filter fun f => g.present.getLsbD f

/-- What a segment's tag is formed over (Table 7). -/
def CkptSegment.bytes (g : CkptSegment) : List Byte :=
  bytesOf 8 g.num ++ bytesOf 8 g.base ++ bytesOf 8 g.present.toNat ++ bytesOf 2048 g.poison.toNat ++ bytesOf 8 0 ++ g.body

/-- Bytes under the checkpoint key, or back from it: the key stream of the segment goes over them. -/
def ckptCipher (key : BitVec 256) (num : Nat) (bs : List Byte) : List Byte := bs.mapIdx fun i b => b ^^^ Config.gcmStream key num i

/-- The segment of the MiB at a base, as the n-th of the stream (R419). -/
def segmentOf (s : State) (key : BitVec 256) (gone : List Nat) (n base : Nat) : CkptSegment :=
  let fs := (List.range 16).filter fun f => !gone.contains (base / 2 ^ 16 + f)
  let g : CkptSegment :=
    { num := n, base := base, present := fs.foldl (fun m f => m ||| (1 <<< f)) 0
      poison := (s.poison.filter fun l => decide (base ≤ 64 * l ∧ 64 * l < base + 2 ^ 20)).foldl (fun m l => m ||| (1 <<< (l - base / 64))) 0
      body := ckptCipher key n (fs.flatMap fun f => readHome s (base + f * 2 ^ 16) (2 ^ 16)), tag := 0 }
  { g with tag := Config.gcmTag key g.bytes }

/-- The MiB of the stacks that checkpoint engines stream, in ascending order (R417, R419): those of every die whose uncore is on. -/
def streamedMiB (s : State) : List Nat := (List.range (2 ^ 19)).filter fun m => (s.die (homeDie (m * 2 ^ 20))).uncore

/-- The hash over every segment's tag (R419). -/
def hashTags (ts : List (BitVec 128)) : BitVec 512 := Sha3.digest (ts.flatMap fun t => bytesOf 16 t.toNat)

/-- Every page as it reads under the key ID that it has (R419, R434). -/
def State.underPageKeys (s : State) : State := s.pageKeys.foldl (fun z p => keyFrame p.2.1 p.1 z) s

/-- The image of this moment (R418, R419). -/
def takeImage (s : State) : CkptImage :=
  let gone := s.retiredFrames
  let segs := (streamedMiB s).zipIdx.map fun x => segmentOf s.underPageKeys s.ckptKey.1 gone x.2 (x.1 * 2 ^ 20)
  let h := hashTags (segs.map (·.tag))
  { segments := segs, cipher := s.ckptKey.2, pageKeys := s.pageKeys.map fun p => (p.1, p.2.1), hash := h, sig := Config.leaderSign h
    ctrs := s.ctrs, slots := s.slots, queues := s.queues, ctxs := s.ctxs, saved := s.saved, clusters := s.ckptGangs }

/-- A die in service has lost the majority of its retired frames. -/
def State.framesLost (s : State) : List Die :=
  (List.finRange 4).filter fun d => ((s.die d).state == .run || (s.die d).state == .drain) && (s.retiredOn d).isNone

/-- CHECKPOINT_STREAM (R417 to R419): once every gang is saved and no chain is under way; a die whose retired frames have no majority
is fenced first (R410). -/
def execCheckpointStream (s : State) : Host.Outcome State Fault Refusal :=
  .next (if s.ckpt = .quiesce ∧ s.gangs = [] ∧ s.chains = [] then
    (if s.framesLost = [] then
        let s1 := (List.finRange 4).foldl (fun z d => z.readFrames d) s
        { s1 with images := s1.images ++ [takeImage s1], ckpt := .streamed }
      else { s with todo := s.framesLost.map .dieFence ++ s.todo })
  else s)

/-- A saved gang goes back onto given clusters, or stays saved and is reported (R352). -/
def restoreOn (z : State) (p : Nat × List Cl) : State :=
  match z.saved.find? (·.gang.id == p.1) with
  | some g => if shapeOk z g p.2 then restoreGang g p.2 z else { z with reports := z.reports ++ [(p.1, 1)] }
  | none => z

/-- Clusters that meet a saved gang's shape (R350, R352), the lowest that do, for the members in order. -/
def fitMembers (s : State) (g : SavedGang) : List SavedMember → List (SavedMember × Cl) → Option (List Cl)
  | [], got => some (got.map (·.2))
  | m :: r, got => (List.finRange 64).findSome? fun c =>
    let fits : Bool := s.freeCluster c && got.all (fun x => x.2 != c) &&
      if g.fence then m.tiles == s.tilesOf c && got.all fun x => (x.1.die == m.die) == (dieOf x.2 == dieOf c)
      else g.gang.wide || got.all fun x => dieOf x.2 == dieOf c
    if fits then fitMembers s g r (got ++ [(m, c)]) else none

/-- Firmware restores a saved gang of a reefed launch onto clusters that meet its shape, once there are such (R331). -/
def restoreReefed (id : Nat) (s : State) : State :=
  ((s.saved.find? (·.gang.id == id)).filter fun g => g.awaitsReef s &&
    (s.launch? g.gang.launch).elim false fun l => s.attends (dieCore l.die)).elim s fun g =>
      ((fitMembers s g g.members []).filter (shapeOk s g)).elim s fun cl => restoreGang g cl s

/-- A saved gang goes onto the clusters it left, or onto others that meet its shape (R420). -/
def restoreAnywhere (z : State) (p : Nat × List Cl) : State :=
  match z.saved.find? (·.gang.id == p.1) with
  | some g => if shapeOk z g p.2 then restoreGang g p.2 z else restoreOn z (p.1, (fitMembers z g g.members []).getD [])
  | none => z

/-- A pre-emption that the checkpoint's fence stood in for goes on (R417). -/
def preemptAgain (z : State) (p : Nat × Preempt) : State :=
  if p.2 = .node then z.modGang p.1 fun g => { g with preempt := some .node } else z

/-- CHECKPOINT_RESUME (R417): gangs go back onto the clusters they left, the checkpoint's fences still waiting are given up; what was
asked before it, held traffic and paused work go on, and every armed head is tested. -/
def execCheckpointResume (s : State) : Host.Outcome State Fault Refusal :=
  .next (if s.ckpt = .streamed ∨ s.ckpt = .failed then
    let s1 := { s with ckpt := .idle, ckptGangs := [], ckptBefore := [], ckptTier := [], ckptKey := (0, []) }
    let s2 := (s1.gangs.filter fun g => g.fenced && s.ckptGangs.any (·.1 == g.id)).foldl (fun z g => abandonFence g z) s1
    let s3 := s.ckptBefore.foldl preemptAgain (s.ckptGangs.foldl restoreOn s2)
    (s3.slots.map (·.1)).foldl (fun z i => testHead i z) (retryHost (retryPeers s3))
  else s)

/-- The cells of a segment once decrypted. -/
def CkptSegment.cells (key : BitVec 256) (g : CkptSegment) : List Host.Cell :=
  (ckptCipher key g.num g.body).mapIdx fun i b => (g.base + ((g.frames[i / 2 ^ 16]?).getD 0) * 2 ^ 16 + i % 2 ^ 16, b)

/-- An image holds a frame. -/
def CkptImage.holds (i : CkptImage) (f : Nat) : Bool :=
  i.segments.any fun g => g.base / 2 ^ 20 == f / 16 && g.present.getLsbD (f % 16)

/-- The poisoned lines of an image. -/
def CkptImage.poisoned (i : CkptImage) : List Nat :=
  i.segments.flatMap fun g => ((List.range 16384).filter fun l => g.poison.getLsbD l).map (g.base / 64 + ·)

/-- Device memory of an image over what is there: a frame that it leaves out keeps its contents. -/
def restoreMem (m : List Host.Cell) (key : BitVec 256) (i : CkptImage) : List Host.Cell :=
  i.segments.foldl (fun a g => (g.cells key).foldl (fun z c => memSet z c.1 c.2) a)
    (m.filter fun c => decide (hbmSize ≤ c.1) || !i.holds (c.1 / 2 ^ 16))

/-- The key slots that the contexts of an image own, each with its context. -/
def CkptImage.owned (i : CkptImage) : List (Nat × Fin 64) :=
  (List.finRange 64).flatMap fun x => (((List.range 512).filter fun k => (i.ctxs.get x).keymap.getLsbD k).map fun k => (k, x))

/-- Each of them is Empty: a slot that is Retired is never assigned (R434). -/
def State.slotsEmpty (s : State) (i : CkptImage) : Bool := i.owned.all fun k => s.keys.all (·.1 != k.1)

/-- The keys that the restored contexts own (R435): their slots are assigned to them, with new keys, under which each page of the
manifest is written (R420). -/
def restoreKeys (i : CkptImage) (s : State) : State :=
  let owned := i.owned
  let bits := owned.zipIdx.foldl (fun t k => tabSet t k.1.1 (Config.entropy (s.fresh + k.2))) s.keyBits
  { s with
    keys := owned.foldl (fun t k => tabSet t k.1 (.assigned, k.2)) s.keys
    keyBits := bits
    pageKeys := i.pageKeys.foldl (fun t p => tabSet t p.1 (p.2, tabGet bits p.2 0)) (s.pageKeys.filter fun p => !i.holds p.1)
    fresh := s.fresh + owned.length }

/-- The checks of a restore (R420): every segment's tag under the checkpoint key, the hash over the tags, its signature. -/
def restoreChecks (key : BitVec 256) (i : CkptImage) (r : RestoreInput) : Bool :=
  let tags := i.segments.mapIdx fun n g => g.tag ^^^ tabGet r.tagErr n 0
  let h := i.hash ^^^ r.hashErr
  (i.segments.zip tags).all (fun x => x.2 == Config.gcmTag key x.1.bytes) && h == hashTags tags && (i.sig ^^^ r.sigErr) == Config.leaderSign h

/-- CHECKPOINT_RESTORE (R420, R435): only while no context is Active. The checkpoint key comes encapsulated to this module's key. When a
check fails, every context of the manifest is killed. It waits while a slot that it needs is not Empty. -/
def execCheckpointRestore (image : Nat) (r : RestoreInput) (s : State) : Host.Outcome State Fault Refusal :=
  match s.images[image]? with
  | none => .next s
  | some i =>
    let key := Config.kemDecaps s.kem r.enc
    if s.heeds r.term = false ∨ s.ctxs.toList.any (·.state == .active) ∨ s.slotsEmpty i = false then .next s
    else if restoreChecks key i r = false then
      .next { s with ctxs := Vector.ofFn fun x => if (i.ctxs.get x).state = .active then Context.reset else s.ctx x }
    else
      let s1 := restoreKeys i { s with
        mem := restoreMem s.mem key i
        poison := s.poison.filter (fun l => decide (hbmSize ≤ 64 * l) || !i.holds (64 * l / 2 ^ 16)) ++ i.poisoned
        ctrs := i.ctrs, slots := i.slots, queues := i.queues, ctxs := i.ctxs, saved := i.saved }
      .next (i.clusters.foldl restoreAnywhere s1)

end Sys2Proof.Machine
end

