-- ==== Sys2Proof/Machine/Island.lean ====
section
/-! DEFINITION. States of the island and of the compute dies and their resets (16 R422 to R424, R430, R431), the power
arbiter (16 R425, R426), the firmware lease and hand-over (16 R427 to R429, R433, R438), key slots (16 R434), measurements and
quotes (16 R436, R437). -/

namespace Sys2Proof.Machine

/-- Core cycles of microseconds, and nanoseconds of milliseconds (R2). -/
def cyclesOfUs (us : Nat) : Nat := 1800 * us

/-! Resets and boot (R422, R424, R430). -/

/-- What stays when the island loses its state: the part's clock in the model, the flash, images on the safe tier, and
what has left the module. -/
def State.cleared (s : State) : State :=
  { State.reset with
    cycle := s.cycle, fresh := s.fresh, agenda := s.agenda, turn := s.turn, ticked := s.ticked, made := s.made, flash := s.flash,
    flashImage := s.flashImage, flashVer := s.flashVer, rollback := s.rollback, images := s.images, fabricOut := s.fabricOut,
    peerOut := s.peerOut, hostOut := s.hostOut, msix := s.msix, quotes := s.quotes, transit := s.transit }

/-- What an island reset leaves (R424): device memory keeps what is written there, with the keys it was written under, which are gone;
until a page is mapped again it is out of reach. -/
def State.islandReset (s : State) : State :=
  { s.cleared with
    mem := s.mem.filter fun (c : Host.Cell) => decide (c.1 < hbmSize), poison := s.poison.filter fun l => decide (64 * l < hbmSize), pageKeys := s.pageKeys }

/-- The code of a failed boot (R430); 0 for none. -/
def bootCode (s : State) : Nat := s.flash.check s.rollback s.flashImage

/-- Registers 0 to 2 as a boot extends them (R436): the ROM's digest, the record, the image. -/
def bootRegs (s : State) : List (BitVec 512) :=
  [Sha3.extend 0 Config.romDigest, Sha3.extend 0 s.flash.digest, Sha3.extend 0 (Sha3.digest s.flashImage)]

/-- A die that the configuration record does not wholly disable. -/
def ConfigRecord.hasDie (r : ConfigRecord) (d : Die) : Bool := bits r.clusterDisable.toNat (16 * d.val) 16 != 0xffff

/-- A cluster's starting bin (R415, R431). -/
def ConfigRecord.bin (r : ConfigRecord) (c : Cl) : Fin 4 := Fin.ofNat 4 (bits r.bins.toNat (2 * c.val) 2)

/-- The island boots from a cleared state (R430): on success core 4 starts in the image, the island is Forward-only, core 4 holds the lease with term 1, and
the leader takes every enabled die to Run. -/
def boot (s : State) : State :=
  if bootCode s ≠ 0 then { s with island := .boot, bootError := BitVec.ofNat 8 (bootCode s) }
  else
    { s with
      island := .forward
      bootError := 0
      config := s.flash
      fwCores := s.fwCores.set 4 (.start s.flashImage)
      cores := Vector.ofFn fun c => { Core.reset with bin := s.flash.bin c, idleSince := s.cycle }
      measure := Vector.ofFn fun i => ((bootRegs s)[i.val]?).getD 0
      keys := [(0, (.assigned, 0))]
      keyBits := [(0, Config.entropy s.fresh)]
      kem := s.flash.kemSeed
      aliasKey := s.flash.aliasSeed (bootRegs s)
      aliasCert := some (s.flash.certify (bootRegs s))
      fresh := s.fresh + 1
      lease := Vector.replicate 3 ⟨4, true, 0, 1, s.xtime + 10000000, s.flashVer, 0⟩
      todo := ((List.finRange 4).filter fun d => s.flash.hasDie d).flatMap fun d => [.diePowerOn d, .dieResetRelease d, .dieBootComplete d] }

/-- POWER_APPLY (R422, R430). -/
def execPowerApply (s : State) : Host.Outcome State Fault Refusal := .next (if s.island = .off then boot s.cleared else s)

/-- POWER_REMOVE (R422). -/
def execPowerRemove (s : State) : Host.Outcome State Fault Refusal := .next (if s.island = .off then s else s.cleared)

/-- ISLAND_RESET_REQUEST (R422): 10 ms at most until the reset. -/
def execIslandResetRequest (s : State) : Host.Outcome State Fault Refusal :=
  .next (if s.island = .forward ∨ s.island = .attached then { s with island := .drain, drainUntil := s.cycle + cyclesOfUs 10000 } else s)

/-- DRAIN_END (R422, R424): no flit of this module is outstanding between steps, so the reset may come at once. -/
def execDrainEnd (s : State) : Host.Outcome State Fault Refusal := .next (if s.island = .drain then boot s.islandReset else s)

/-! Compute dies (R423). -/

/-- DIE_POWER_ON: Off to Reset. -/
def execDiePowerOn (d : Die) (s : State) : Host.Outcome State Fault Refusal :=
  .next (if s.firmwareRuns ∧ (s.die d).state = .off then s.modDie d fun x => { x with state := .reset, uncore := false } else s)

/-- The SRAM ranges of a die: vaults, scratchpads, accumulator stores. -/
def sramOf (d : Die) : List (Nat × Nat) :=
  [(2 ^ 40 + d.val * 2 ^ 28, 2 ^ 28), (2 ^ 41 + d.val * 2 ^ 27, 2 ^ 27), (2 ^ 42 + d.val * 2 ^ 25, 2 ^ 25)]

/-- Every SRAM of the die reads zero, with valid check bits. -/
def zeroSram (d : Die) (s : State) : State :=
  (sramOf d).foldl (fun z r => clearRange r.1 r.2
    { z with poison := z.poison.filter fun l => !(decide (r.1 ≤ 64 * l) && decide (64 * l < r.1 + r.2)) }) s

/-- The clusters of a die out of reset: bins and what was counted of them are island state. -/
def freshCores (d : Die) (s : State) : State :=
  (List.finRange 64).foldl (fun z c => if dieOf c = d then z.modCore c fun x =>
    { x.idleFrom z.cycle with tlb := [], tiles := Vector.replicate 8 .reset } else z) s

/-- The stack controllers load their row-remap copy from the island's (R424). -/
def reloadRemap (t : Vector DieTables 3) : Vector DieTables 3 := t.set 0 { t.get 0 with remap := (t.get 1).remap }

/-- DIE_RESET_RELEASE: Reset to Boot. -/
def execDieResetRelease (d : Die) (s : State) : Host.Outcome State Fault Refusal :=
  .next (if s.firmwareRuns ∧ (s.die d).state = .reset then
    { freshCores d (zeroSram d s) with faultq := s.faultq.set d.val [] }.modDie d fun x =>
      { x with state := .boot, uncore := true, tables := reloadRemap x.tables }
  else s)

/-- The records of a die's pool and spill queue go to another die. -/
def moveRecords (d e : Die) (s : State) : State :=
  let rs := (s.die d).pool ++ (s.die d).spill
  rs.foldl (fun z r => addRecord e r z) (s.modDie d fun x => { x with pool := [], spill := [] })

/-- A die that has left service. -/
def DiePower.gone : DiePower → Bool
  | .off => true | .reset => true | .fenced => true | _ => false

/-- The queues and the records that a die left while no other was in run wait for the first that is (R411, R413). -/
def takeOver (d : Die) (s : State) : State :=
  ((List.finRange 4).filter fun e => (s.die e).state.gone).foldl (fun z e => moveRecords e d (moveQueues e d z)) s

/-- A die goes to Reset or Off; its pages are out of reach. -/
def sinkDie (d : Die) (g : DieGoal) (s : State) : State :=
  s.modDie d fun x => { x with state := if g = .off then .off else .reset, uncore := false }

/-- DIE_BOOT_COMPLETE: Boot to Run; a part whose master is not in run, or was lost while no die was, gets a new one (R412). A die whose checks fail goes back to
Reset, and the report (die, 5) logs it. -/
def execDieBootComplete (b : DieBoot) (s : State) : Host.Outcome State Fault Refusal :=
  let d := b.die
  .next (if s.firmwareRuns ∧ (s.die d).state = .boot then
    if b.passed = false then { sinkDie d .reset s with reports := s.reports ++ [(d.val, 5)] }
    else
      let s0 := { s with fwCores := s.fwCores.set (dieCore d).val (.start s.flashImage) }
      let s1 := takeOver d (s0.modDie d fun x => { x with state := .run }).reattach
      if s1.dieRuns s1.master.die ∧ s1.master.paused = false then s1 else { s1 with todo := .masterReplace :: s1.todo }
  else s)

/-- What a die's front end waits for is tried again elsewhere: its entries leave the queue. -/
def dropFrontFaults (d : Die) (s : State) : State :=
  let es := ((s.die d).admitWait.map (·.1)).toList ++ ((s.die d).placeWait.map (·.1)).toList
  (es.foldl (fun z e => z.dropFault d e) s).modDie d fun x => { x with admitWait := none, placeWait := none }

/-- DIE_DRAIN (R423): no new placement; its queues and their work go to a die in run, its roles are given up. -/
def execDieDrain (d : Die) (g : DieGoal) (s : State) : Host.Outcome State Fault Refusal :=
  .next (if (s.die d).state = .run then
    let s1 := s.modDie d fun x => { x with state := .drain, goal := g }
    let s2 := (s1.lowestRun).elim s1 fun e => moveRecords d e (moveQueues d e s1)
    leaveRun d (dropFrontFaults d s2)
  else s)

/-- DIE_DRAIN_COMPLETE (R423): its last gang is released or saved. -/
def execDieDrainComplete (d : Die) (s : State) : Host.Outcome State Fault Refusal :=
  .next (if (s.die d).state = .drain ∧ s.gangs.all (fun g => !g.onDie d) = true then sinkDie d (s.die d).goal s else s)

/-- FENCED_DIE_RESET (R411, R423): firmware takes the die to Reset or Off, or only its uncore's power away. -/
def execFencedDieReset (d : Die) (g : Option DieGoal) (s : State) : Host.Outcome State Fault Refusal :=
  .next (if (s.die d).state = .fenced then
    match g with
    | some g => sinkDie d g s
    | none => s.modDie d fun x => { x with uncore := false }
  else s)

/-! The power arbiter (R425, R426). -/

/-- The quadrants narrowed; a cluster's mode changes on the next tick boundary (R283). -/
def setNarrowed (l : List (Fin 16)) (s : State) : State :=
  let s1 : State := { s with power := { s.power with narrowed := l } }
  (List.finRange 64).foldl (fun z c =>
    let n := match s1.gangOf c with
      | some g => gangNarrowed s1 g
      | none => l.contains (quadrantOf c)
    z.modCore c fun x => { x with toNarrow := n }) s1

/-- The voltage of a power island in millivolts (R425 Table 4). -/
def voltage (s : State) (i : Nat) : Nat :=
  if i < 16 then
    (if (List.finRange 64).any fun c => c.val / 4 == i && ((s.core c).bin == 1 || (s.core c).bin == 2) then 775 else 750)
  else if i < 21 then 800 else if i = 21 then 850 else 700

/-- Module power of one sample in milliwatts, from the currents in milliamperes. -/
def samplePower (s : State) (ma : List Nat) : Nat := ((List.range 24).map fun i => voltage s i * (ma[i]?).getD 0).sum / 1000

def meanOf (l : List Nat) : Nat := l.sum / max 1 l.length

/-- The indices of a list with the greatest entries first, among those that pass; ties by number. -/
def greatest (p : Fin 16 → Bool) (w : List Nat) (n : Nat) : List (Fin 16) :=
  (((List.finRange 16).filter p).mergeSort fun a b => decide ((w[b.val]?).getD 0 ≤ (w[a.val]?).getD 0)).take n

/-- The alarm's causes (R426). -/
def alarmCause (s : State) (p : Nat) (ma : List Nat) : Bool :=
  decide (s.power.budget < p) || s.power.coldPlate || s.power.limits.any fun l => decide (l.2 < (ma[l.1]?).getD 0)

/-- A condition that has held since a cycle. -/
def since (now : Nat) (old : Option Nat) (holds : Bool) : Option Nat := if holds then some (old.getD now) else none
def heldFor (now : Nat) (t : Option Nat) (us : Nat) : Bool := t.elim false fun x => decide (x + cyclesOfUs us ≤ now)

/-- A sample is taken: power, alarm, and how long they have stood. The alarm stands until P ≤ 0.95 B. -/
def takeSample (ma : List Nat) (s : State) : State :=
  let ps := (samplePower s ma :: s.power.samples).take 10
  let p := meanOf ps
  let b := s.power.budget
  let alarm := alarmCause s p ma || (s.power.alarm && decide (95 * b < 100 * p))
  { s with power := { s.power with
      samples := ps
      alarm := alarm
      alarmAt := since s.cycle s.power.alarmAt alarm
      overAt := since s.cycle s.power.overAt (decide (110 * b < 100 * p))
      calmAt := since s.cycle s.power.calmAt (!alarm && decide (100 * p ≤ 85 * b)) } }

/-- Stage 1: one more quadrant is narrowed. -/
def stage1 (mm : List Nat) (s : State) : State :=
  if s.power.alarm ∧ 95 * s.power.budget < 100 * meanOf s.power.samples then
    match greatest (fun q => !s.power.narrowed.contains q) mm 1 with
    | q :: _ => setNarrowed (q :: s.power.narrowed) s
    | [] => s
  else s

/-- Stage 2: no new gang on the four quadrants of highest current; the report (0, 6) tells firmware. -/
def stage2 (ma : List Nat) (s : State) : State :=
  if s.power.narrowed.length = 16 ∧ heldFor s.cycle s.power.alarmAt 1000 = true ∧ s.power.noPlace = [] then
    { s with power := { s.power with noPlace := greatest (fun _ => true) ma 4 }, reports := s.reports ++ [(0, 6)] }
  else s

/-- Stage 3: the power-fault line. -/
def stage3 (s : State) : State :=
  if heldFor s.cycle s.power.overAt 10000 then { s with power := { s.power with faultLine := true } } else s

/-- The exit: stage 2 is released, then a quadrant every 100 us is widened, the one narrowed last first. -/
def widen (s : State) : State :=
  if heldFor s.cycle s.power.calmAt 1000 then
    if s.power.noPlace ≠ [] then { s with power := { s.power with noPlace := [], widenAt := s.cycle + cyclesOfUs 100 } }
    else match s.power.narrowed with
      | _ :: r =>
        if s.power.widenAt ≤ s.cycle then
          let s1 := setNarrowed r s
          { s1 with power := { s1.power with widenAt := s.cycle + cyclesOfUs 100 } }
        else s
      | [] => s
  else s

/-- POWER_SAMPLE (R426 Table 5): currents of the 24 islands, and of the matrix engines by quadrant. -/
def execPowerSample (ma mm : List Nat) (s : State) : Host.Outcome State Fault Refusal :=
  .next (widen (stage3 (stage2 ma (stage1 mm (takeSample ma s)))))

/-- POWER_BUDGET_WRITE (R426), in milliwatts. -/
def execPowerBudgetWrite (w : Nat) (s : State) : Host.Outcome State Fault Refusal :=
  .next { s with power := { s.power with budget := max 1000000 (min 3600000 w) } }

/-- COLD_PLATE_ALARM (R426). -/
def execColdPlateAlarm (on : Bool) (s : State) : Host.Outcome State Fault Refusal :=
  .next { s with power := { s.power with coldPlate := on } }

/-- IDLE_CLOCK_GATE (R426): a cluster in no gang. -/
def execIdleClockGate (c : Cl) (s : State) : Host.Outcome State Fault Refusal :=
  .next (if (s.core c).gang.isNone then s.modCore c fun x => { x with clockGated := true } else s)

/-- IDLE_POWER_GATE (R426): after 1 ms idle. -/
def execIdlePowerGate (c : Cl) (s : State) : Host.Outcome State Fault Refusal :=
  .next (if (s.core c).gang.isNone ∧ (s.core c).idleSince + cyclesOfUs 1000 ≤ s.cycle then s.modCore c fun x => { x with powerGated := true }
    else s)

/-! The lease (R428, R429). -/

/-- The record with its expiry moved 10 ms on; PH returns to 0 10 ms after a commit (R438). -/
def LeaseRecord.renew (r : LeaseRecord) (now commitAt : W) : LeaseRecord :=
  { r with expiry := now + 10000000, ph := if r.ph = 2 ∧ commitAt.toNat + 10000000 ≤ now.toNat then 0 else r.ph }

/-- LEASE_RENEW (R429). -/
def execLeaseRenew (f : Fin 5) (s : State) : Host.Outcome State Fault Refusal :=
  .next (if s.leads f then s.setLease (s.leaseNow.renew s.xtime s.commitAt) else s)

/-- LEASE_CHECK (R429): another core takes a vacant or lapsed lease with the next term. -/
def execLeaseCheck (f : Fin 5) (s : State) : Host.Outcome State Fault Refusal :=
  let r := s.leaseNow
  .next (if s.coreRuns f ∧ (r.v = false ∨ r.expiry.toNat ≤ s.xtime.toNat) ∧ s.leads f = false then
    s.setLease { r with holder := BitVec.ofNat 3 f.val, v := true, term := r.term + 1, expiry := s.xtime + 10000000 }
  else s)

/-- LEASE_CAS (R428): one step on the whole record, whose term only rises. -/
def execLeaseCas (old new : LeaseRecord) (s : State) : Host.Outcome State Fault Refusal :=
  .next (if s.leaseNow = old ∧ old.term ≤ new.term then s.setLease new else s)

/-- LEASE_VACATE (R429): the holder's die is not in Run. -/
def execLeaseVacate (s : State) : Host.Outcome State Fault Refusal :=
  let r := s.leaseNow
  .next (if r.v ∧ r.holder.toNat < 4 ∧ s.dieRuns (Fin.ofNat 4 r.holder.toNat) = false then s.setLease { r with v := false } else s)

/-! Firmware hand-over (R433, R438). -/

/-- FIRMWARE_PREPARE: the leader verifies the record and the image, stages them and sets PH to 1. -/
def execFirmwarePrepare (f : Fin 5) (ver : W) (u : Update) (s : State) : Host.Outcome State Fault Refusal :=
  .next (if s.leads f ∧ u.record.check s.rollback u.image = 0 then
    { s with staged := some u, fwCores := s.fwCores.each fun (y : FwCore) => { y with standby := some u.image } }.setLease
      { s.leaseNow with stg := ver, ph := 1 }
  else s)

/-- FIRMWARE_COMMIT: one step sets the version and the next term and extends register 3; the record goes to flash, which
register 4 measures; the rollback counter rises (R433, R436). -/
def execFirmwareCommit (f : Fin 5) (s : State) : Host.Outcome State Fault Refusal :=
  match s.staged with
  | none => .next s
  | some ⟨rec, image⟩ =>
    let r := s.leaseNow
    .next (if s.leads f ∧ r.ph = 1 then
      { s with
        measure := (s.measure.set 3 (Sha3.extend (s.measure.get 3) (Sha3.digest image))).set 4 (Sha3.extend (s.measure.get 4) rec.digest)
        flash := rec
        flashImage := image
        flashVer := r.stg
        rollback := if s.rollback < rec.security then rec.security else s.rollback
        staged := none
        commitAt := s.xtime
        fwCores := s.fwCores.each fun (x : FwCore) => { x with restarting := true } }.setLease
        { r with ver := r.stg, stg := 0, term := r.term + 1, ph := 2, expiry := s.xtime + 10000000 }
    else s)

/-- FIRMWARE_SWITCH: the core restarts into the new image; the holder renews. -/
def execFirmwareSwitch (f : Fin 5) (s : State) : Host.Outcome State Fault Refusal :=
  if (s.fwCores.get f).restarting = false then .next s
  else
    let x := s.fwCores.get f
    let s1 := { s with fwCores := s.fwCores.set f.val (.start (x.standby.getD x.image)) }
    .next (if s1.leads f then s1.setLease (s1.leaseNow.renew s.xtime s.commitAt) else s1)

/-! Key slots (R434). -/

/-- A slot's new key, from the island's entropy source; a frame reads as it gives when it is next reached under the slot. -/
def newKey (i : Nat) (s : State) : State :=
  { s with keyBits := tabSet s.keyBits i (Config.entropy s.fresh), fresh := s.fresh + 1 }

/-- A slot's key is erased. -/
def State.eraseKeys (s : State) (gone : Nat → Bool) : State := { s with keyBits := s.keyBits.filter fun k => !gone k.1 }

/-- KEY_ASSIGN: an Empty slot other than 0 gets a new key and an owner. -/
def execKeyAssign (x : Fin 64) (r : FromLeader (Fin 512)) (s : State) : Host.Outcome State Fault Refusal :=
  let i := r.what
  .next (if s.heeds r.term ∧ i ≠ 0 ∧ s.keys.all (fun k => k.1 ≠ i.val) = true ∧ (s.ctx x).state = .active then
    { newKey i.val s with keys := tabSet s.keys i.val (.assigned, x) }.modCtx x fun c => { c with keymap := c.keymap ||| (1 <<< i.val) }
  else s)

/-- The state and owner of a slot; none when it is Empty. -/
def State.keySlot (s : State) (i : Fin 512) : Option (KeyState × Fin 64) := (s.keys.find? fun k => k.1 == i.val).map (·.2)

/-- KEY_RETIRE: the leader takes a key from its context. -/
def execKeyRetire (r : FromLeader (Fin 512)) (s : State) : Host.Outcome State Fault Refusal :=
  let i := r.what
  match s.keySlot i with
  | some (.assigned, x) =>
    .next (if s.heeds r.term ∧ i ≠ 0 then
      { s with
        keys := tabSet s.keys i.val (.retired, x)
        keyRetired := s.keyRetired ||| (1 <<< i.val) }.modCtx x fun c => { c with keymap := c.keymap &&& ~~~((1 : BitVec 512) <<< i.val) }
    else s)
  | _ => .next s

/-- A strand's access translated under a key has not performed. -/
def State.keyInUse (s : State) (i : Fin 512) : Bool :=
  s.cores.toList.any fun x => x.strands.toList.any fun t => t.pend.any fun p => p.key? == some (BitVec.ofNat 9 i.val)

/-- KEY_RETIRE_COMPLETE: once no access is outstanding under the ID, the key is erased; a slot of a context that is being killed
waits for the kill (R355). -/
def execKeyRetireComplete (i : Fin 512) (s : State) : Host.Outcome State Fault Refusal :=
  match s.keySlot i with
  | some (.retired, x) =>
    .next (if (s.ctx x).keymap.getLsbD i.val ∨ s.keyInUse i then s
      else { s.eraseKeys (· == i.val) with
        keys := s.keys.filter (fun k => k.1 ≠ i.val), keyRetired := s.keyRetired &&& ~~~((1 : BitVec 512) <<< i.val) })
  | _ => .next s

/-! Measurements and quotes (R436, R437). -/

/-- MEASUREMENT_EXTEND: registers 5 to 7, by the leader; the others have steps of their own. -/
def execMeasurementExtend (q : FromLeader (Fin 8)) (dg : BitVec 512) (s : State) : Host.Outcome State Fault Refusal :=
  let r := q.what
  .next (if s.heeds q.term ∧ 5 ≤ r.val then { s with measure := s.measure.set r.val (Sha3.extend (s.measure.get r) dg) } else s)

/-- The doublewords of a number. -/
def dwords (n v : Nat) : List W := (List.range n).map fun i => BitVec.ofNat 64 (v / 2 ^ (64 * i))

/-- Bytes 0x000 to 0x29f of a quote (R437 Table 10). -/
def quoteWords (s : State) (nonce : BitVec 512) : List W :=
  let r := s.leaseNow
  [BitVec.ofNat 64 (0x7a717431 + 2 ^ 32 * 1 + 2 ^ 48 * r.ph.toNat), BitVec.ofNat 64 (r.term.toNat + 2 ^ 32 * r.holder.toNat)]
    ++ dwords 2 s.config.part.toNat ++ dwords 2 s.config.serial.toNat
    ++ [s.xtime, r.ver, r.stg, s.rollback, BitVec.ofNat 64 (s.island.code + 2 ^ 8 * s.attachMap), 0]
    ++ dwords 8 nonce.toNat ++ s.measure.toList.flatMap fun m => dwords 8 m.toNat

/-- QUOTE_REQUEST (R437): lease record and registers in one step, signed by the alias key. -/
def execQuoteRequest (nonce : BitVec 512) (s : State) : Host.Outcome State Fault Refusal :=
  .next (if s.islandUp then
    let ws := quoteWords s nonce
    { s with quotes := s.quotes ++ [⟨ws, Config.dsaSign s.aliasKey (ws.flatMap fun w => bytesOf 8 w.toNat)⟩] }
  else s)

end Sys2Proof.Machine
end

