-- ==== Sys2Proof/Machine/Dispatch.lean ====
section
/-! DEFINITION. One arm for each constructor of Instr. -/

namespace Sys2Proof.Machine

def exec (i : Instr) (s : State) : Host.Outcome State Fault Refusal :=
  match i with
  | .nop m => Sys2Proof.Machine.execNop m s
  | .xrd m d xr => Sys2Proof.Machine.execXrd m d xr s
  | .xwr m a xr => Sys2Proof.Machine.execXwr m a xr s
  | .xset m a xr => Sys2Proof.Machine.execXset m a xr s
  | .xclr m a xr => Sys2Proof.Machine.execXclr m a xr s
  | .svc m n => Sys2Proof.Machine.execSvc m n s
  | .brk m n => Sys2Proof.Machine.execBrk m n s
  | .eret m => Sys2Proof.Machine.execEret m s
  | .tlbi m a kind => Sys2Proof.Machine.execTlbi m a kind s
  | .add m d a b => Sys2Proof.Machine.execAdd m d a b s
  | .sub m d a b => Sys2Proof.Machine.execSub m d a b s
  | .mul m d a b => Sys2Proof.Machine.execMul m d a b s
  | .mulh m d a b => Sys2Proof.Machine.execMulh m d a b s
  | .mulhu m d a b => Sys2Proof.Machine.execMulhu m d a b s
  | .div m d a b => Sys2Proof.Machine.execDiv m d a b s
  | .divu m d a b => Sys2Proof.Machine.execDivu m d a b s
  | .rem m d a b => Sys2Proof.Machine.execRem m d a b s
  | .remu m d a b => Sys2Proof.Machine.execRemu m d a b s
  | .and m d a b => Sys2Proof.Machine.execAnd m d a b s
  | .or m d a b => Sys2Proof.Machine.execOr m d a b s
  | .xor m d a b => Sys2Proof.Machine.execXor m d a b s
  | .andn m d a b => Sys2Proof.Machine.execAndn m d a b s
  | .shl m d a b => Sys2Proof.Machine.execShl m d a b s
  | .shr m d a b => Sys2Proof.Machine.execShr m d a b s
  | .sra m d a b => Sys2Proof.Machine.execSra m d a b s
  | .min m d a b => Sys2Proof.Machine.execMin m d a b s
  | .max m d a b => Sys2Proof.Machine.execMax m d a b s
  | .minu m d a b => Sys2Proof.Machine.execMinu m d a b s
  | .maxu m d a b => Sys2Proof.Machine.execMaxu m d a b s
  | .clz m d a => Sys2Proof.Machine.execClz m d a s
  | .ctz m d a => Sys2Proof.Machine.execCtz m d a s
  | .popc m d a => Sys2Proof.Machine.execPopc m d a s
  | .addi m d a imm => Sys2Proof.Machine.execAddi m d a imm s
  | .andi m d a imm => Sys2Proof.Machine.execAndi m d a imm s
  | .ori m d a imm => Sys2Proof.Machine.execOri m d a imm s
  | .xori m d a imm => Sys2Proof.Machine.execXori m d a imm s
  | .shli m d a sh => Sys2Proof.Machine.execShli m d a sh s
  | .shri m d a sh => Sys2Proof.Machine.execShri m d a sh s
  | .srai m d a sh => Sys2Proof.Machine.execSrai m d a sh s
  | .li m d imm => Sys2Proof.Machine.execLi m d imm s
  | .lih m d imm => Sys2Proof.Machine.execLih m d imm s
  | .cmpEq m p a b => Sys2Proof.Machine.execCmpEq m p a b s
  | .cmpNe m p a b => Sys2Proof.Machine.execCmpNe m p a b s
  | .cmpLt m p a b => Sys2Proof.Machine.execCmpLt m p a b s
  | .cmpGe m p a b => Sys2Proof.Machine.execCmpGe m p a b s
  | .cmpLtu m p a b => Sys2Proof.Machine.execCmpLtu m p a b s
  | .cmpGeu m p a b => Sys2Proof.Machine.execCmpGeu m p a b s
  | .cmpiEq m p a imm => Sys2Proof.Machine.execCmpiEq m p a imm s
  | .cmpiNe m p a imm => Sys2Proof.Machine.execCmpiNe m p a imm s
  | .cmpiLt m p a imm => Sys2Proof.Machine.execCmpiLt m p a imm s
  | .cmpiGe m p a imm => Sys2Proof.Machine.execCmpiGe m p a imm s
  | .cmpiLtu m p a imm => Sys2Proof.Machine.execCmpiLtu m p a imm s
  | .cmpiGeu m p a imm => Sys2Proof.Machine.execCmpiGeu m p a imm s
  | .pand m d a b => Sys2Proof.Machine.execPand m d a b s
  | .por m d a b => Sys2Proof.Machine.execPor m d a b s
  | .pxor m d a b => Sys2Proof.Machine.execPxor m d a b s
  | .pandn m d a b => Sys2Proof.Machine.execPandn m d a b s
  | .pmov m d a => Sys2Proof.Machine.execPmov m d a s
  | .psave m d => Sys2Proof.Machine.execPsave m d s
  | .pload m a => Sys2Proof.Machine.execPload m a s
  | .fadd m d a b => Sys2Proof.Machine.execFadd m d a b s
  | .fsub m d a b => Sys2Proof.Machine.execFsub m d a b s
  | .fmul m d a b => Sys2Proof.Machine.execFmul m d a b s
  | .fdiv m d a b => Sys2Proof.Machine.execFdiv m d a b s
  | .fsqrt m d a => Sys2Proof.Machine.execFsqrt m d a s
  | .fmin m d a b => Sys2Proof.Machine.execFmin m d a b s
  | .fmax m d a b => Sys2Proof.Machine.execFmax m d a b s
  | .fabs m d a => Sys2Proof.Machine.execFabs m d a s
  | .fneg m d a => Sys2Proof.Machine.execFneg m d a s
  | .fsgnj m d a b => Sys2Proof.Machine.execFsgnj m d a b s
  | .fclass m d a => Sys2Proof.Machine.execFclass m d a s
  | .fcmpEq m p a b => Sys2Proof.Machine.execFcmpEq m p a b s
  | .fcmpLt m p a b => Sys2Proof.Machine.execFcmpLt m p a b s
  | .fcmpLe m p a b => Sys2Proof.Machine.execFcmpLe m p a b s
  | .fcmpUn m p a b => Sys2Proof.Machine.execFcmpUn m p a b s
  | .fma m d a b c => Sys2Proof.Machine.execFma m d a b c s
  | .br m p sense disp => Sys2Proof.Machine.execBr m p sense disp s
  | .jmp m imm => Sys2Proof.Machine.execJmp m imm s
  | .call m imm => Sys2Proof.Machine.execCall m imm s
  | .jmpr m a => Sys2Proof.Machine.execJmpr m a s
  | .callr m a => Sys2Proof.Machine.execCallr m a s
  | .ret m => Sys2Proof.Machine.execRet m s
  | .halt m => Sys2Proof.Machine.execHalt m s
  | .loop m lv a fin => Sys2Proof.Machine.execLoop m lv a fin s
  | .loopi m lv cnt fin => Sys2Proof.Machine.execLoopi m lv cnt fin s
  | .rep m a sd sa sb => Sys2Proof.Machine.execRep m a sd sa sb s
  | .repImm m cnt sd sa sb => Sys2Proof.Machine.execRepImm m cnt sd sa sb s
  | .repIteration => Sys2Proof.Machine.execRepIteration s
  | .ldB m d a cls off => Sys2Proof.Machine.execLdB m d a cls off s
  | .ldBu m d a cls off => Sys2Proof.Machine.execLdBu m d a cls off s
  | .ldH m d a cls off => Sys2Proof.Machine.execLdH m d a cls off s
  | .ldHu m d a cls off => Sys2Proof.Machine.execLdHu m d a cls off s
  | .ldW m d a cls off => Sys2Proof.Machine.execLdW m d a cls off s
  | .ldWu m d a cls off => Sys2Proof.Machine.execLdWu m d a cls off s
  | .ldD m d a cls off => Sys2Proof.Machine.execLdD m d a cls off s
  | .stB m d a cls off => Sys2Proof.Machine.execStB m d a cls off s
  | .stH m d a cls off => Sys2Proof.Machine.execStH m d a cls off s
  | .stW m d a cls off => Sys2Proof.Machine.execStW m d a cls off s
  | .stD m d a cls off => Sys2Proof.Machine.execStD m d a cls off s
  | .ldqB m d a cls off => Sys2Proof.Machine.execLdqB m d a cls off s
  | .ldqBu m d a cls off => Sys2Proof.Machine.execLdqBu m d a cls off s
  | .ldqH m d a cls off => Sys2Proof.Machine.execLdqH m d a cls off s
  | .ldqHu m d a cls off => Sys2Proof.Machine.execLdqHu m d a cls off s
  | .ldqW m d a cls off => Sys2Proof.Machine.execLdqW m d a cls off s
  | .ldqWu m d a cls off => Sys2Proof.Machine.execLdqWu m d a cls off s
  | .ldqD m d a cls off => Sys2Proof.Machine.execLdqD m d a cls off s
  | .ldqAcq m d a scope => Sys2Proof.Machine.execLdqAcq m d a scope s
  | .stRel m d a scope => Sys2Proof.Machine.execStRel m d a scope s
  | .pop m => Sys2Proof.Machine.execPop m s
  | .amoAdd m d a b scope => Sys2Proof.Machine.execAmoAdd m d a b scope s
  | .amoAnd m d a b scope => Sys2Proof.Machine.execAmoAnd m d a b scope s
  | .amoOr m d a b scope => Sys2Proof.Machine.execAmoOr m d a b scope s
  | .amoXor m d a b scope => Sys2Proof.Machine.execAmoXor m d a b scope s
  | .amoMin m d a b scope => Sys2Proof.Machine.execAmoMin m d a b scope s
  | .amoMax m d a b scope => Sys2Proof.Machine.execAmoMax m d a b scope s
  | .amoMinu m d a b scope => Sys2Proof.Machine.execAmoMinu m d a b scope s
  | .amoMaxu m d a b scope => Sys2Proof.Machine.execAmoMaxu m d a b scope s
  | .cas m d a b scope => Sys2Proof.Machine.execCas m d a b scope s
  | .amoSwap m d a b scope => Sys2Proof.Machine.execAmoSwap m d a b scope s
  | .amoBadd m d a b scope => Sys2Proof.Machine.execAmoBadd m d a b scope s
  | .fence m cmask scope => Sys2Proof.Machine.execFence m cmask scope s
  | .semWait m t k cnt lim => Sys2Proof.Machine.execSemWait m t k cnt lim s
  | .semPost m t k cnt => Sys2Proof.Machine.execSemPost m t k cnt s
  | .semRd m t k d => Sys2Proof.Machine.execSemRd m t k d s
  | .ringDecl m t g h ns => Sys2Proof.Machine.execRingDecl m t g h ns s
  | .ringWait m t g cnt lim => Sys2Proof.Machine.execRingWait m t g cnt lim s
  | .ringRel m t g cnt => Sys2Proof.Machine.execRingRel m t g cnt s
  | .ringWp m t g d => Sys2Proof.Machine.execRingWp m t g d s
  | .barArrive m b => Sys2Proof.Machine.execBarArrive m b s
  | .barWait m b lim => Sys2Proof.Machine.execBarWait m b lim s
  | .barSync m b lim => Sys2Proof.Machine.execBarSync m b lim s
  | .waitvEq m dw a b lim => Sys2Proof.Machine.execWaitvEq m dw a b lim s
  | .waitvNe m dw a b lim => Sys2Proof.Machine.execWaitvNe m dw a b lim s
  | .waitvLt m dw a b lim => Sys2Proof.Machine.execWaitvLt m dw a b lim s
  | .waitvGe m dw a b lim => Sys2Proof.Machine.execWaitvGe m dw a b lim s
  | .waitvLtu m dw a b lim => Sys2Proof.Machine.execWaitvLtu m dw a b lim s
  | .waitvGeu m dw a b lim => Sys2Proof.Machine.execWaitvGeu m dw a b lim s
  | .waitvReread c k => Sys2Proof.Machine.execWaitvReread c k s
  | .tmask m a => Sys2Proof.Machine.execTmask m a s
  | .epatch m e t f go a => Sys2Proof.Machine.execEpatch m e t f go a s
  | .ebind m e t h slot => Sys2Proof.Machine.execEbind m e t h slot s
  | .eissue m e t => Sys2Proof.Machine.execEissue m e t s
  | .efence m e all lim => Sys2Proof.Machine.execEfence m e all lim s
  | .egen m d => Sys2Proof.Machine.execEgen m d s
  | .estat m e d tile => Sys2Proof.Machine.execEstat m e d tile s
  | .tmplLd m e t a => Sys2Proof.Machine.execTmplLd m e t a s
  | .tmplSt m e t a => Sys2Proof.Machine.execTmplSt m e t a s
  | .hLd m h x cls => Sys2Proof.Machine.execHLd m h x cls s
  | .hSt m h x cls => Sys2Proof.Machine.execHSt m h x cls s
  | .hSet m h x f => Sys2Proof.Machine.execHSet m h x f s
  | .hGet m h x f => Sys2Proof.Machine.execHGet m h x f s
  | .hAdv m h x f => Sys2Proof.Machine.execHAdv m h x f s
  | .hMov m h x => Sys2Proof.Machine.execHMov m h x s
  | .hClr m h => Sys2Proof.Machine.execHClr m h s
  | .xlate m a wr => Sys2Proof.Machine.execXlate m a wr s
  | .xlateDeliver c k j => Sys2Proof.Machine.execXlateDeliver c k j s
  | .spawn m a b => Sys2Proof.Machine.execSpawn m a b s
  | .taskDone m => Sys2Proof.Machine.execTaskDone m s
  | .validSet m a => Sys2Proof.Machine.execValidSet m a s
  | .trigPost m d a b => Sys2Proof.Machine.execTrigPost m d a b s
  | .trigCancel m d b => Sys2Proof.Machine.execTrigCancel m d b s
  | .trigQuery m d b => Sys2Proof.Machine.execTrigQuery m d b s
  | .ctrAdd m a b => Sys2Proof.Machine.execCtrAdd m a b s
  | .ctrRd m d a => Sys2Proof.Machine.execCtrRd m d a s
  | .remSt m d a b => Sys2Proof.Machine.execRemSt m d a b s
  | .remSig m a b => Sys2Proof.Machine.execRemSig m a b s
  | .remAmoAdd m d a b => Sys2Proof.Machine.execRemAmoAdd m d a b s
  | .remAmoAnd m d a b => Sys2Proof.Machine.execRemAmoAnd m d a b s
  | .remAmoOr m d a b => Sys2Proof.Machine.execRemAmoOr m d a b s
  | .remAmoXor m d a b => Sys2Proof.Machine.execRemAmoXor m d a b s
  | .remAmoMin m d a b => Sys2Proof.Machine.execRemAmoMin m d a b s
  | .remAmoMax m d a b => Sys2Proof.Machine.execRemAmoMax m d a b s
  | .remAmoMinu m d a b => Sys2Proof.Machine.execRemAmoMinu m d a b s
  | .remAmoMaxu m d a b => Sys2Proof.Machine.execRemAmoMaxu m d a b s
  | .remAmoSwap m d a b => Sys2Proof.Machine.execRemAmoSwap m d a b s
  | .remAmoBadd m d a b => Sys2Proof.Machine.execRemAmoBadd m d a b s
  | .rdtick m d => Sys2Proof.Machine.execRdtick m d s
  | .rdframe m d => Sys2Proof.Machine.execRdframe m d s
  | .rdtime m d => Sys2Proof.Machine.execRdtime m d s
  | .enter m n => Sys2Proof.Machine.execEnter m n s
  | .leave m n => Sys2Proof.Machine.execLeave m n s
  | .bfx m d a pos len => Sys2Proof.Machine.execBfx m d a pos len s
  | .bfi m d a pos len => Sys2Proof.Machine.execBfi m d a pos len s
  | .sel m d a b p sense => Sys2Proof.Machine.execSel m d a b p sense s
  | .madd m d a b c => Sys2Proof.Machine.execMadd m d a b c s
  | .cvtIF m d a u rm => Sys2Proof.Machine.execCvtIF m d a u rm s
  | .cvtFI m d a u rm => Sys2Proof.Machine.execCvtFI m d a u rm s
  | .cvtFBf m d a rm => Sys2Proof.Machine.execCvtFBf m d a rm s
  | .cvtBfF m d a rm => Sys2Proof.Machine.execCvtBfF m d a rm s
  | .hint m hh v => Sys2Proof.Machine.execHint m hh v s
  | .pwL t go f v => Sys2Proof.Machine.execPwL t go f v s
  | .pwM t go f v => Sys2Proof.Machine.execPwM t go f v s
  | .pwV t go f v => Sys2Proof.Machine.execPwV t go f v s
  | .pwS t go f v => Sys2Proof.Machine.execPwS t go f v s
  | .resultLand c k j => Sys2Proof.Machine.execResultLand c k j s
  | .gapEnd c k => Sys2Proof.Machine.execGapEnd c k s
  | .switchAwayEnd c k => Sys2Proof.Machine.execSwitchAwayEnd c k s
  | .storePerform c k j => Sys2Proof.Machine.execStorePerform c k j s
  | .farAccessComplete c k j => Sys2Proof.Machine.execFarAccessComplete c k j s
  | .farAccessRefused c k j => Sys2Proof.Machine.execFarAccessRefused c k j s
  | .farAccessTranslationFault c k j => Sys2Proof.Machine.execFarAccessTranslationFault c k j s
  | .flqRestart c k => Sys2Proof.Machine.execFlqRestart c k s
  | .waitExpiry c k => Sys2Proof.Machine.execWaitExpiry c k s
  | .tileTick c t => Sys2Proof.Machine.execTileTick c t s
  | .hostMailboxWrite c imm v => Sys2Proof.Machine.execHostMailboxWrite c imm v s
  | .mailboxInterrupt c k => Sys2Proof.Machine.execMailboxInterrupt c k s
  | .asyncTrapDelivery c k => Sys2Proof.Machine.execAsyncTrapDelivery c k s
  | .firmwareResume c k => Sys2Proof.Machine.execFirmwareResume c k s
  | .firmwareReflect c k => Sys2Proof.Machine.execFirmwareReflect c k s
  | .templateTick c t => Sys2Proof.Machine.execTemplateTick c t s
  | .blockStart c t e => Sys2Proof.Machine.execBlockStart c t e s
  | .blockComplete c t e => Sys2Proof.Machine.execBlockComplete c t e s
  | .scheduleMiss c t e => Sys2Proof.Machine.execScheduleMiss c t e s
  | .engineFaultResume c t e => Sys2Proof.Machine.execEngineFaultResume c t e s
  | .matrixRowLand c t => Sys2Proof.Machine.execMatrixRowLand c t s
  | .reductionLand c t => Sys2Proof.Machine.execReductionLand c t s
  | .tmplLdWrite c t => Sys2Proof.Machine.execTmplLdWrite c t s
  | .mma c t => Sys2Proof.Machine.execMma c t s
  | .mmaZ c t => Sys2Proof.Machine.execMmaZ c t s
  | .mmaChain c t => Sys2Proof.Machine.execMmaChain c t s
  | .wload c t => Sys2Proof.Machine.execWload c t s
  | .accZero c t => Sys2Proof.Machine.execAccZero c t s
  | .accLd c t => Sys2Proof.Machine.execAccLd c t s
  | .vAdd c t => Sys2Proof.Machine.execVAdd c t s
  | .vSub c t => Sys2Proof.Machine.execVSub c t s
  | .vMul c t => Sys2Proof.Machine.execVMul c t s
  | .vFma c t => Sys2Proof.Machine.execVFma c t s
  | .vMin c t => Sys2Proof.Machine.execVMin c t s
  | .vMax c t => Sys2Proof.Machine.execVMax c t s
  | .vAbs c t => Sys2Proof.Machine.execVAbs c t s
  | .vNeg c t => Sys2Proof.Machine.execVNeg c t s
  | .clamp c t => Sys2Proof.Machine.execClamp c t s
  | .vCvt c t => Sys2Proof.Machine.execVCvt c t s
  | .scale c t => Sys2Proof.Machine.execScale c t s
  | .cmpsel c t => Sys2Proof.Machine.execCmpsel c t s
  | .redsum c t => Sys2Proof.Machine.execRedsum c t s
  | .redmax c t => Sys2Proof.Machine.execRedmax c t s
  | .redmin c t => Sys2Proof.Machine.execRedmin c t s
  | .scan c t => Sys2Proof.Machine.execScan c t s
  | .bcast c t => Sys2Proof.Machine.execBcast c t s
  | .perm c t => Sys2Proof.Machine.execPerm c t s
  | .qblk c t => Sys2Proof.Machine.execQblk c t s
  | .dqblk c t => Sys2Proof.Machine.execDqblk c t s
  | .accRd c t => Sys2Proof.Machine.execAccRd c t s
  | .tload c t => Sys2Proof.Machine.execTload c t s
  | .tint c t => Sys2Proof.Machine.execTint c t s
  | .exp2 c t => Sys2Proof.Machine.execExp2 c t s
  | .rcp c t => Sys2Proof.Machine.execRcp c t s
  | .rsqrt c t => Sys2Proof.Machine.execRsqrt c t s
  | .bucket c t => Sys2Proof.Machine.execBucket c t s
  | .hashcell c t => Sys2Proof.Machine.execHashcell c t s
  | .iota c t => Sys2Proof.Machine.execIota c t s
  | .sortnet c t => Sys2Proof.Machine.execSortnet c t s
  | .emit c t => Sys2Proof.Machine.execEmit c t s
  | .copy c t e => Sys2Proof.Machine.execCopy c t e s
  | .gather c t e => Sys2Proof.Machine.execGather c t e s
  | .scatter c t e => Sys2Proof.Machine.execScatter c t e s
  | .scatterBkt c t e => Sys2Proof.Machine.execScatterBkt c t e s
  | .fill c t e => Sys2Proof.Machine.execFill c t e s
  | .acopy c t e => Sys2Proof.Machine.execAcopy c t e s
  | .signal c t e => Sys2Proof.Machine.execSignal c t e s
  | .prefetch c t e => Sys2Proof.Machine.execPrefetch c t e s
  | .ctrPost c t e => Sys2Proof.Machine.execCtrPost c t e s
  | .auditReplay d r => Sys2Proof.Machine.execAuditReplay d r s
  | .deviceTick => Sys2Proof.Machine.execDeviceTick s
  | .xframeAdvance c => Sys2Proof.Machine.execXframeAdvance c s
  | .fabricTimeTick => Sys2Proof.Machine.execFabricTimeTick s
  | .queueTake q => Sys2Proof.Machine.execQueueTake q s
  | .launchPacket q => Sys2Proof.Machine.execLaunchPacket q s
  | .copyPacket q => Sys2Proof.Machine.execCopyPacket q s
  | .noOpPacket q => Sys2Proof.Machine.execNoOpPacket q s
  | .rerank d => Sys2Proof.Machine.execRerank d s
  | .admission d => Sys2Proof.Machine.execAdmission d s
  | .placement d => Sys2Proof.Machine.execPlacement d s
  | .spillReturn d => Sys2Proof.Machine.execSpillReturn d s
  | .gangRelease g => Sys2Proof.Machine.execGangRelease g s
  | .reefPoint l => Sys2Proof.Machine.execReefPoint l s
  | .reefDiversion l => Sys2Proof.Machine.execReefDiversion l s
  | .reefBudgetExpiry l => Sys2Proof.Machine.execReefBudgetExpiry l s
  | .completionRecordWrite l => Sys2Proof.Machine.execCompletionRecordWrite l s
  | .queueTableWrite q r => Sys2Proof.Machine.execQueueTableWrite q r s
  | .rankProgramInstall d slot ws => Sys2Proof.Machine.execRankProgramInstall d slot ws s
  | .firmwareTableWrite w => Sys2Proof.Machine.execFirmwareTableWrite w s
  | .contextCreate x r => Sys2Proof.Machine.execContextCreate x r s
  | .contextKill x => Sys2Proof.Machine.execContextKill x s
  | .killComplete x => Sys2Proof.Machine.execKillComplete x s
  | .nodeBoundaryRequest g => Sys2Proof.Machine.execNodeBoundaryRequest g s
  | .yieldPointSave g => Sys2Proof.Machine.execYieldPointSave g s
  | .generationFenceRequest g => Sys2Proof.Machine.execGenerationFenceRequest g s
  | .fenceSnapshot g => Sys2Proof.Machine.execFenceSnapshot g s
  | .fenceAbandon g => Sys2Proof.Machine.execFenceAbandon g s
  | .gangRestore g cl => Sys2Proof.Machine.execGangRestore g cl s
  | .peerAccessArrive a => Sys2Proof.Machine.execPeerAccessArrive a s
  | .routeUpdate ep r => Sys2Proof.Machine.execRouteUpdate ep r s
  | .portRetrain p st => Sys2Proof.Machine.execPortRetrain p st s
  | .flitResend p => Sys2Proof.Machine.execFlitResend p s
  | .counterAddition n v => Sys2Proof.Machine.execCounterAddition n v s
  | .chainActionComplete slot => Sys2Proof.Machine.execChainActionComplete slot s
  | .triggerOrphan src => Sys2Proof.Machine.execTriggerOrphan src s
  | .ptpMessage a => Sys2Proof.Machine.execPtpMessage a s
  | .hostRead a n => Sys2Proof.Machine.execHostRead a n s
  | .hostWrite a bs ro => Sys2Proof.Machine.execHostWrite a bs ro s
  | .hostFetchadd a n v => Sys2Proof.Machine.execHostFetchadd a n v s
  | .hostCas a n x y => Sys2Proof.Machine.execHostCas a n x y s
  | .supersededBitsRead c => Sys2Proof.Machine.execSupersededBitsRead c s
  | .poisonConsumption x pa => Sys2Proof.Machine.execPoisonConsumption x pa s
  | .purge x tag => Sys2Proof.Machine.execPurge x tag s
  | .purgeComplete x tag => Sys2Proof.Machine.execPurgeComplete x tag s
  | .tableScrub => Sys2Proof.Machine.execTableScrub s
  | .dieFence d => Sys2Proof.Machine.execDieFence d s
  | .masterReplace => Sys2Proof.Machine.execMasterReplace s
  | .queueReset q => Sys2Proof.Machine.execQueueReset q s
  | .queueResetComplete q => Sys2Proof.Machine.execQueueResetComplete q s
  | .clusterRetest c pass => Sys2Proof.Machine.execClusterRetest c pass s
  | .checkpointRequest r => Sys2Proof.Machine.execCheckpointRequest r s
  | .checkpointStream => Sys2Proof.Machine.execCheckpointStream s
  | .checkpointResume => Sys2Proof.Machine.execCheckpointResume s
  | .checkpointRestore image r => Sys2Proof.Machine.execCheckpointRestore image r s
  | .powerApply => Sys2Proof.Machine.execPowerApply s
  | .powerRemove => Sys2Proof.Machine.execPowerRemove s
  | .islandResetRequest => Sys2Proof.Machine.execIslandResetRequest s
  | .drainEnd => Sys2Proof.Machine.execDrainEnd s
  | .diePowerOn d => Sys2Proof.Machine.execDiePowerOn d s
  | .dieResetRelease d => Sys2Proof.Machine.execDieResetRelease d s
  | .dieBootComplete b => Sys2Proof.Machine.execDieBootComplete b s
  | .dieDrain d g => Sys2Proof.Machine.execDieDrain d g s
  | .dieDrainComplete d => Sys2Proof.Machine.execDieDrainComplete d s
  | .powerSample ma mm => Sys2Proof.Machine.execPowerSample ma mm s
  | .powerBudgetWrite w => Sys2Proof.Machine.execPowerBudgetWrite w s
  | .coldPlateAlarm on => Sys2Proof.Machine.execColdPlateAlarm on s
  | .idleClockGate c => Sys2Proof.Machine.execIdleClockGate c s
  | .idlePowerGate c => Sys2Proof.Machine.execIdlePowerGate c s
  | .leaseRenew f => Sys2Proof.Machine.execLeaseRenew f s
  | .leaseCheck f => Sys2Proof.Machine.execLeaseCheck f s
  | .leaseCas old new => Sys2Proof.Machine.execLeaseCas old new s
  | .leaseVacate => Sys2Proof.Machine.execLeaseVacate s
  | .firmwarePrepare f ver u => Sys2Proof.Machine.execFirmwarePrepare f ver u s
  | .firmwareCommit f => Sys2Proof.Machine.execFirmwareCommit f s
  | .quoteRequest nonce => Sys2Proof.Machine.execQuoteRequest nonce s
  | .measurementExtend r dg => Sys2Proof.Machine.execMeasurementExtend r dg s
  | .keyAssign x imm => Sys2Proof.Machine.execKeyAssign x imm s
  | .keyRetire imm => Sys2Proof.Machine.execKeyRetire imm s
  | .keyRetireComplete imm => Sys2Proof.Machine.execKeyRetireComplete imm s
  | .unassignedEncoding => Sys2Proof.Machine.execUnassignedEncoding s
  | .transitTraffic m => Sys2Proof.Machine.execTransitTraffic m s
  | .islandAgentFaultResolved f => Sys2Proof.Machine.execIslandAgentFaultResolved f s
  | .faultLeftUnresolved f => Sys2Proof.Machine.execFaultLeftUnresolved f s
  | .faultPolicyEndLaunch l => Sys2Proof.Machine.execFaultPolicyEndLaunch l s
  | .remStComplete c k j => Sys2Proof.Machine.execRemStComplete c k j s
  | .fencedDieReset d g => Sys2Proof.Machine.execFencedDieReset d g s
  | .firmwareSwitch f => Sys2Proof.Machine.execFirmwareSwitch f s

end Sys2Proof.Machine
end

