-- ==== Sys2Proof/Machine/Schedule.lean ====
section
/-! DEFINITION. What the machine does next (log 4): which strand issues, which steps of the machine come due at the end of a
core cycle and of a tick (09 R272 to R274, R279, R284), and the step. -/

namespace Sys2Proof.Machine

/-! Strands. -/

/-- A strand that the selector may consider in this core cycle (R272, R274). -/
def Strand.ready (t : Strand) (cycle : Nat) : Bool :=
  (t.state == .run || t.state == .handler) && t.fw.isNone && t.wait.isNone && !t.stopped && decide (t.tried ≠ cycle + 1)
    && decide (t.gapUntil ≤ cycle) && decide (t.swUntil ≤ cycle) && decide (t.drainUntil ≤ cycle) && !(t.zWait && t.state == .run)

/-- An interrupt, or an asynchronous trap, that the strand takes between two words (R291, R296). -/
def Strand.eventDue (t : Strand) (cycle : Nat) : Bool :=
  t.takesEvents && (t.asyncDue cycle || (t.mboxInt.isSome && stBit t.xstatus 0))

/-- The least recently issued strand of a core that may go on. A core issues one word a core cycle. -/
def Core.pick (x : Core) (cycle : Nat) : Option Sn :=
  if x.gang.isNone then none
  else match x.order.find? fun k => (x.strand k).eventDue cycle && !(x.strand k).tileWait with
    | some k => some k
    | none => if x.issued = cycle + 1 then none else x.order.find? fun k => (x.strand k).ready cycle

/-- The core whose turn it is, and its strand: clusters in rising order from the turn on. -/
def State.pick (s : State) : Option (Cl × Sn) :=
  (List.range 64).findSome? fun i =>
    let c : Cl := Fin.ofNat 64 (s.turn + i)
    ((s.core c).pick s.cycle).map fun k => (c, k)

/-- The strand is the current one, with the word it fetched; the next turn is the next cluster's. -/
def State.enter (s : State) (c : Cl) (k : Sn) (w : BitVec 32) : State := { s with cur := ⟨c, k, w⟩, turn := (c.val + 1) % 64 }

/-- The event that is due on a strand: an asynchronous trap before the mailbox interrupt (R291). -/
def runEvent (c : Cl) (k : Sn) (s : State) : Host.Outcome State Fault Refusal :=
  if (s.strand c k).asyncDue s.cycle then execAsyncTrapDelivery c k s else execMailboxInterrupt c k s

/-- A strand goes on: an event between its words, an iteration of its repetition, or the word at its program counter. -/
def runStrand (c : Cl) (k : Sn) (s : State) : Host.Outcome State Fault Refusal :=
  let t := s.strand c k
  if t.eventDue s.cycle then runEvent c k s
  else if t.inRep then execRepIteration (s.enter c k 0)
  else match fetch s c t.pc with
    | none => issueWord [] (fun s => trapFetch s t.pc) (s.enter c k 0)
    | some w => match decode w with
      | .ok i => exec i (s.enter c k w)
      | .error _ => execUnassignedEncoding (s.enter c k w)

/-! Firmware cores (00 R1, 08 R244, 16 R427). What a word does on one is what it does on a control core that has no tiles: the core
stands in for that of cluster 0 while its word runs. The spec lays out no memory for firmware, so a word that is not one of the core's
own registers and flow waits (log 61). -/

/-- The text of a firmware image (log 61). -/
def fwText (image : List Byte) : List (BitVec 32) :=
  (List.range (image.length / 4)).map fun i => BitVec.ofNat 32 (ofBytes ((image.drop (4 * i)).take 4))

def FwCore.asCore (f : FwCore) : Core :=
  { Core.reset with
    strands := f.strands, handles := f.handles, hflights := f.hflights, xjoin := f.xjoin, xgen := f.xgen, xvalid := f.xvalid
    xtbase := f.xtbase, order := f.order, issued := f.issued, ctl := f.ctl, gang := some 0 }

def FwCore.ofCore (f : FwCore) (x : Core) : FwCore :=
  { f with
    strands := x.strands, handles := x.handles, hflights := x.hflights, xjoin := x.xjoin, xgen := x.xgen, xvalid := x.xvalid
    xtbase := x.xtbase, order := x.order, issued := x.issued, ctl := x.ctl }

/-- The state in which a firmware core's word runs. -/
def coreMachine (f : Fin 5) (s : State) : State :=
  let x := s.fwCores.get f
  let g : Gang :=
    { id := 0, members := [⟨0, 0⟩], wide := false, ctx := 0, launch := s.made, node := 0, inst := 0, arg := 0, tag := 0, key := none
      image := { strands := 4, allots := [3, 3, 3, 3], stack := 0, entries := [], reef := none, text := fwText x.image, textOff := 0,
                 traps := [], trapsOff := 0, data := [], rings := [], tmpls := [] }
      base := 0, bars := Vector.replicate 16 ⟨0, []⟩, preempt := none, diverted := false }
  { s with cores := s.cores.set 0 x.asCore, gangs := [g] }

/-- A word of the core's own registers and flow: of the majors of arithmetic, predicates, floating point, transfers, loops,
frames, counters and control registers; or a handle word that reaches no memory. -/
def ownWord (w : BitVec 32) : Bool :=
  let m := majorOf w
  decide (m ≤ 0x12) || decide (0x23 ≤ m ∧ m ≤ 0x28) ||
    match decode w with
    | .ok (.hSet ..) | .ok (.hGet ..) | .ok (.hAdv ..) | .ok (.hMov ..) | .ok (.hClr ..) => true
    | _ => false

/-- The firmware core, and its strand, that may go on in this core cycle. -/
def State.pickCore (s : State) : Option (Fin 5 × Sn) :=
  (List.finRange 5).findSome? fun f =>
    if s.coreRuns f then ((s.fwCores.get f).asCore.pick s.cycle).map fun k => (f, k) else none

/-- A strand of a firmware core goes on: an own word issues, another waits. -/
def runCore (f : Fin 5) (k : Sn) (s : State) : Host.Outcome State Fault Refusal :=
  let z := coreMachine f s
  let pc := (z.strand 0 k).pc + if (z.strand 0 k).inRep then 4 else 0
  match (if (fetch z 0 pc).elim true ownWord then runStrand 0 k z else .next (hold (z.enter 0 k 0))) with
  | .next t => .next { s with fwCores := s.fwCores.set f.val ((s.fwCores.get f).ofCore (t.core 0)), fresh := t.fresh }
  | r => r

/-! The end of a core cycle. -/

/-- The clusters of gangs. -/
def placedCores (s : State) : List Cl := (List.finRange 64).filter fun c => (s.core c).gang.isSome

/-- The first access of a strand that may perform. -/
def nextAccess (s : State) (c : Cl) (k : Sn) : Option Nat :=
  let ps := (s.strand c k).pend
  (List.range ps.length).find? fun j => canPerform s c k j && !((ps[j]?).elim false (·.waitingMove))

/-- One access of each strand performs. -/
def performStrand (c : Cl) (s : State) (k : Sn) : State := (nextAccess s c k).elim s fun j => performAt s c k j

/-- Results, control writes and handle writes whose bound has passed have landed (R56, R64); in one core cycle the flags of results land
before a write of xfflags (R58; DESIGN CHOICE, log 69). -/
def Core.settle (x : Core) (cycle : Nat) : Core :=
  let y := { x with
    strands := x.strands.each fun (t : Strand) => (t.landDue cycle).settleCtl cycle
    hflights := x.hflights.filter fun h => decide (cycle < h.due) }
  y.settleCtl cycle

/-- The translations of a strand whose bound has passed deliver (R157). -/
def deliverDue (c : Cl) (s : State) (k : Sn) : State :=
  (List.range (s.strand c k).xlates.length).foldl (fun z _ =>
    if ((z.strand c k).xlates.head?).elim false (fun x => decide (x.due ≤ z.cycle)) then deliverXlate c k 0 z else z) s

/-- Waits that are tested each core cycle: a memory word, a barrier, a fence of engine work. -/
def testWait (c : Cl) (s : State) (k : Sn) : State :=
  match execWaitvReread c k s with
  | .next s1 => settleWait s1 c k
  | _ => s

/-- When no strand of a placed cluster runs, its dirty lines are written back (R289). -/
def flushIdle (c : Cl) (s : State) : State :=
  let x := s.core c
  if x.strands.toList.all (fun t => t.state == .halted || t.state == .idle) && x.dcache.any (·.dirty != 0) then cleanAll c s else s

/-- The next core cycle begins on one cluster. -/
def endCycle (s : State) (c : Cl) : State :=
  if (s.core c).gang.isNone then s
  else flushIdle c ((List.finRange 4).foldl (deliverDue c) (s.modCore c (·.settle s.cycle)))

/-- The accesses and the tests of waits of a core cycle on one cluster. -/
def actCycle (s : State) (c : Cl) : State :=
  let ks := List.finRange 4
  ks.foldl (testWait c) (ks.foldl (performStrand c) s)

/-- On a tick boundary a cluster takes the mode that the arbiter has asked for, and starts a new count of frames (R279, R283). -/
def Core.takeMode (x : Core) : Core := if x.narrowed = x.toNarrow then x else { x with narrowed := x.toNarrow, frameTicks := 0 }

/-- The next core cycle begins. -/
def nextCycle (s : State) : State :=
  let cs := placedCores s
  let s1 := cs.foldl actCycle s
  let s2 := if s1.cycle % 3 = 2 then { s1 with cores := s1.cores.each (·.takeMode) } else s1
  cs.foldl endCycle { s2 with cycle := s2.cycle + 1, fwCores := s2.fwCores.each fun f => f.ofCore (f.asCore.settle (s2.cycle + 1)) }

/-! The end of a tick. -/

/-- The strict entries of a tile that may have missed their frames (R281). -/
def missWork (s : State) (c : Cl) (t : Tl) : List Work :=
  (allEngines.filter fun e => ((s.tile c t).queue e).entries ≠ []).map (.scheduleMiss c t)

def isEmit (y : Tile) (e : Eng) : Bool := e == .v && ((y.queue .v).runner.elim false fun b => opOf b.f == 0x2c)

/-- The rows of a tile's engines; an emit's come later in the tick. -/
def rowWork (s : State) (c : Cl) (t : Tl) : List Work :=
  let y := s.tile c t
  (allEngines.filter fun e => (y.queue e).runner.isSome && !isEmit y e).map (.row c t)

/-- An emit takes its element once the tick's waits are granted (R230): so that the element of tick G + 1 + n is amended in it. -/
def emitWork (s : State) (c : Cl) (t : Tl) : List Work :=
  if ((s.tile c t).queue .v).entries.any (fun b => opOf b.f == 0x2c) then [.emitRow c t] else []

/-- Results that land in a tick, behind its reads (R247). -/
def landWork (s : State) (c : Cl) (t : Tl) : List Work :=
  let y := s.tile c t
  (if y.accLand.any fun l => decide (l.due ≤ tickOf s.cycle) then [.matrixRowLand c t] else [])
    ++ (if y.redLand.any fun l => decide (l.due ≤ tickOf s.cycle) then [.reductionLand c t] else [])

/-- Blocks of a cluster that end in a tick: engine by engine, so that their posts come in the order L, M, V, S (R284). -/
def endWork (s : State) (c : Cl) : List Work :=
  ((sitesOf c).filter fun v => ((s.tile c v.t).queue v.e).entries ≠ []).map fun v => .blockComplete c v.t v.e

/-- A cluster on which something waits. -/
def hasWaits (x : Core) : Bool :=
  x.strands.toList.any (·.wait.isSome)
    || x.tiles.toList.any fun y => y.decls ≠ [] || y.semNew ≠ [] || y.semQ ≠ [] || y.queues.toList.any fun q => q.entries.any (·.phase == .waiting)

/-- The blocks of a tile that may start in the tick that follows. -/
def startWork (s : State) (c : Cl) (t : Tl) : List Work :=
  let y := s.tile c t
  ((allEngines.filter fun e => (y.queue e).entries ≠ []).map (.blockStart c t))

/-- The changes to a tile's templates and queues, a tmpl.ld's in its place among them (R182, R196). -/
def changeWork (s : State) (c : Cl) (t : Tl) : List Work :=
  let y := s.tile c t
  if y.amends ≠ [] ∨ allEngines.any (fun e => (y.queue e).entries ≠ []) = true ∨ y.links ≠ [] ∨ y.fwds ≠ [] ∨ y.tlds ≠ [] then
    .templateTick c t :: y.tlds.map fun _ => .tmplLdWrite c t
  else []

/-- A die's front end in a tick (11 R317 to R324). -/
def dieWork (s : State) (d : Die) : List Work :=
  let x := s.die d
  if s.dieRuns d then
    (if x.rerankAt ≤ tickOf s.cycle ∧ x.ranked ≠ [] then [.rerank d] else [])
      ++ (if x.spill ≠ [] then [.spillReturn d] else []) ++ (if x.ranked ≠ [] then [.admission d] else [])
      ++ (if s.records ≠ [] then [.placement d] else [])
  else []

def queueWork (s : State) (q : Nat × SubQueue) : List Work :=
  let i : Fin 1024 := Fin.ofNat 1024 q.1
  (if mayTake s q.2 then [.queueTake i] else []) ++ (if s.copies.any (·.queue == i) then [.copyPacket i] else [])
    ++ (if q.2.state = .resetting then [.queueResetComplete i] else [])

/-- A launch past its reef point diverts what is placed of it, in the tick that follows, in which no entry of it starts (R331, R332). -/
def divertWork (s : State) (l : Launch) : List Work :=
  if l.reefed ∧ s.gangs.any (fun g => g.launch == l.id && !g.diverted) = true then [.reefDiversion l.id] else []

/-- A launch in a tick (11 R330 to R335). -/
def launchWork (l : Launch) : List Work :=
  (if l.status.isNone then [if l.reefed then .reefBudgetExpiry l.id else .reefPoint l.id] else [])
    ++ (if l.status.isSome then [.completionRecordWrite l.id] else [])

/-- A gang in a tick (09 R289, 12 R350, R351). -/
def gangWork (s : State) (g : Gang) : List Work :=
  (if g.members.all fun m => memberFinished (s.core m.phys) then [.gangRelease g.id] else [])
    ++ match g.preempt with
      | some .node => [.yieldPointSave g.id]
      | some (.fence _ limit) => .fenceSnapshot g.id :: (if limit ≤ s.cycle then [.fenceAbandon g.id] else [])
      | none => []

/-- Everything that comes due in a tick, in the order in which it comes about. -/
def tickWork (s : State) : List Work :=
  let cs := placedCores s
  let ts := List.finRange 8
  let perTile (f : Cl → Tl → List Work) : List Work := cs.flatMap fun c => ts.flatMap fun t => f c t
  perTile (missWork s) ++ perTile (rowWork s) ++ perTile (landWork s) ++ cs.flatMap (endWork s)
    ++ (cs.filter fun c => hasWaits (s.core c)).flatMap (fun c => ts.map (.tileTick c))
    ++ cs.flatMap (fun c => ((List.finRange 4).filter fun k => (s.strand c k).tileWait).map (.withdraw c))
    ++ cs.flatMap (fun c => ((List.finRange 4).filter fun k => !(s.strand c k).stopped && ((s.strand c k).wait).elim false (·.expired s.cycle)).map (.waitExpiry c))
    ++ [.deviceTick, .fabricTimeTick] ++ cs.map .xframeAdvance
    ++ s.launches.flatMap (divertWork s) ++ perTile (startWork s) ++ perTile (emitWork s) ++ perTile (changeWork s)
    ++ s.launches.flatMap launchWork ++ (s.saved.filter (·.awaitsReef s)).map (.reefRestore ·.gang.id) ++ s.gangs.flatMap (gangWork s) ++ s.queues.flatMap (queueWork s)
    ++ (List.finRange 4).flatMap (dieWork s)
    ++ s.purges.map (fun p => .purgeComplete p.ctx p.tag)
    ++ ((List.finRange 64).filter fun x => (s.ctx x).state = .killing).map .killComplete
    ++ (s.chains.filter (·.waits.isNone)).map fun ch => .chainActionComplete (BitVec.ofNat 14 ch.head)

/-! Running what is due. -/

/-- The matrix operators by their codes. -/
def matrixRow (op : Nat) (c : Cl) (t : Tl) (s : State) : Host.Outcome State Fault Refusal :=
  match op with
  | 1 => execMma c t s
  | 2 => execMmaZ c t s
  | 3 => execMmaChain c t s
  | 4 => execWload c t s
  | 5 => execAccZero c t s
  | 6 => execAccLd c t s
  | _ => .next s

/-- The vector operators by their codes. -/
def vectorRow (op : Nat) (c : Cl) (t : Tl) (s : State) : Host.Outcome State Fault Refusal :=
  match op with
  | 1 => execVAdd c t s
  | 2 => execVSub c t s
  | 3 => execVMul c t s
  | 4 => execVFma c t s
  | 5 => execVMin c t s
  | 6 => execVMax c t s
  | 7 => execVAbs c t s
  | 8 => execVNeg c t s
  | 9 => execClamp c t s
  | 0xa => execVCvt c t s
  | 0xb => execScale c t s
  | 0xc => execCmpsel c t s
  | 0x10 => execRedsum c t s
  | 0x11 => execRedmax c t s
  | 0x12 => execRedmin c t s
  | 0x13 => execScan c t s
  | 0x14 => execBcast c t s
  | 0x15 => execPerm c t s
  | 0x18 => execQblk c t s
  | 0x19 => execDqblk c t s
  | 0x1a => execAccRd c t s
  | 0x20 => execTload c t s
  | 0x21 => execTint c t s
  | 0x22 => execExp2 c t s
  | 0x23 => execRcp c t s
  | 0x24 => execRsqrt c t s
  | 0x28 => execBucket c t s
  | 0x29 => execHashcell c t s
  | 0x2a => execIota c t s
  | 0x2b => execSortnet c t s
  | 0x2c => execEmit c t s
  | _ => .next s

/-- The operators of the load and store engines by their codes. -/
def moveRow (op : Nat) (c : Cl) (t : Tl) (e : Eng) (s : State) : Host.Outcome State Fault Refusal :=
  match op with
  | 1 => execCopy c t e s
  | 2 => execGather c t e s
  | 3 => execScatter c t e s
  | 4 => execScatterBkt c t e s
  | 5 => execFill c t e s
  | 6 => execAcopy c t e s
  | 7 => execSignal c t e s
  | 8 => execPrefetch c t e s
  | 9 => execCtrPost c t e s
  | _ => .next s

/-- The running entry's operator acts for one event (R200). -/
def rowOf (c : Cl) (t : Tl) (e : Eng) (s : State) : Host.Outcome State Fault Refusal :=
  match ((s.tile c t).queue e).runner with
  | none => .next s
  | some b =>
    if tickOf s.cycle + (if opOf b.f = 0x2c ∧ e = .v then 1 else 0) < b.ready then .next s
    else match e with
      | .m => matrixRow (opOf b.f) c t s
      | .v => vectorRow (opOf b.f) c t s
      | _ => moveRow (opOf b.f) c t e s

/-- A row, and the next one while the entry is still due in this tick. -/
def runRowWork (c : Cl) (t : Tl) (e : Eng) (s : State) : Host.Outcome State Fault Refusal :=
  let before := (((s.tile c t).queue e).runner).map fun b => (b.seq, b.n)
  match rowOf c t e s with
  | .next s1 =>
    let again : Bool := match ((s1.tile c t).queue e).runner with
      | some b => b.fault.isNone && decide (b.ready ≤ tickOf s1.cycle) && decide (before ≠ some (b.seq, b.n))
      | none => false
    .next (if again then { s1 with todo := .row c t e :: s1.todo } else s1)
  | r => r

/-- The meaning of the event row that a piece of work stands for. -/
def runWork (w : Work) (s : State) : Host.Outcome State Fault Refusal :=
  match w with
  | .tileTick c t => execTileTick c t s
  | .templateTick c t => execTemplateTick c t s
  | .blockStart c t e => execBlockStart c t e s
  | .blockComplete c t e => execBlockComplete c t e s
  | .scheduleMiss c t e => execScheduleMiss c t e s
  | .row c t e => runRowWork c t e s
  | .emitRow c t => if isEmit (s.tile c t) .v then runRowWork c t .v s else .next s
  | .withdraw c k =>
    if (s.strand c k).stopped then .next (s.modCore c fun x => (x.withdraw k).modStrand k fun t => { t with xepc := t.pc })
    else if (s.strand c k).eventDue s.cycle && (s.strand c k).tileWait then runEvent c k s else .next s
  | .matrixRowLand c t => execMatrixRowLand c t s
  | .reductionLand c t => execReductionLand c t s
  | .tmplLdWrite c t => execTmplLdWrite c t s
  | .deviceTick => execDeviceTick s
  | .fabricTimeTick => execFabricTimeTick s
  | .xframeAdvance c => execXframeAdvance c s
  | .waitExpiry c k => execWaitExpiry c k s
  | .purge x tag => execPurge x tag s
  | .purgeComplete x tag => execPurgeComplete x tag s
  | .queueTake q => execQueueTake q s
  | .launchPacket q => match execLaunchPacket q s with
    | .next t => .next { t with todo := (t.launches.filter fun l => !s.launches.contains l).map (.reefPoint ·.id) ++ t.todo }
    | r => r
  | .copyPacket q => execCopyPacket q s
  | .noOpPacket q => execNoOpPacket q s
  | .queueResetComplete q => execQueueResetComplete q s
  | .rerank d => execRerank d s
  | .admission d => execAdmission d s
  | .placement d => execPlacement d s
  | .spillReturn d => execSpillReturn d s
  | .gangRelease g => execGangRelease g s
  | .reefPoint l => execReefPoint l s
  | .reefDiversion l => execReefDiversion l s
  | .reefBudgetExpiry l => execReefBudgetExpiry l s
  | .reefRestore g => .next (restoreReefed g s)
  | .completionRecordWrite l => execCompletionRecordWrite l s
  | .chainActionComplete h => execChainActionComplete h s
  | .killComplete x => execKillComplete x s
  | .yieldPointSave g => execYieldPointSave g s
  | .fenceSnapshot g => execFenceSnapshot g s
  | .fenceAbandon g => execFenceAbandon g s
  | .diePowerOn d => execDiePowerOn d s
  | .dieResetRelease d => execDieResetRelease d s
  | .dieBootComplete d => execDieBootComplete ⟨d, true⟩ s
  | .contextKill x => .next (killContext x s)
  | .masterReplace => execMasterReplace s
  | .dieFence d => execDieFence d s
  | .checkpointResume => execCheckpointResume s

/-- The work of a tick that ends. -/
def endTick (s : State) : State := { s with ticked := tickOf s.cycle + 1, todo := tickWork s }

/-- Time goes on: at the end of a tick its work is due before the next core cycle begins. -/
def advance (s : State) : State :=
  if s.cycle % 3 = 2 ∧ s.ticked ≠ tickOf s.cycle + 1 then endTick (tallyStarts (placedCores s) s) else nextCycle s

/-- One step: what the machine's own state calls for, then what comes from outside, then the boot of a module without
power, then a strand, a firmware core's after the clusters', then time. -/
def stepOne (s : State) : Host.Outcome State Fault Refusal :=
  match s.todo with
  | w :: r => runWork w { s with todo := r }
  | [] => match s.agenda with
    | i :: r => exec i { s with agenda := r }
    | [] =>
      if s.island = .off then execPowerApply s
      else match s.pick with
        | some (c, k) => runStrand c k s
        | none => match s.pickCore with
          | some (f, k) => runCore f k s
          | none => .next (advance s)

/-! A word to run (log 1). -/

/-- A kernel image of one strand with 32 registers, whose text is one word and a word of zeros. -/
def wordImage (w : BitVec 32) : Image :=
  { strands := 1, allots := [3], stack := 0, entries := [0], reef := none, text := [w, 0], textOff := 0, traps := [], trapsOff := 0,
    data := [], rings := [], tmpls := [] }

/-- A gang of cluster 0 alone, in context 0. -/
def wordGang (w : BitVec 32) (id : Nat) : Gang :=
  { id := id, members := [⟨0, 0⟩], wide := false, ctx := 0, launch := 0, node := 0, inst := 0, arg := 0, tag := 0, key := none, image := wordImage w,
    base := 0, bars := Vector.replicate 16 ⟨0, []⟩, preempt := none, diverted := false }

/-- The module runs, with that gang alone, nothing else due, and cluster 0's turn. -/
def placeWord (w : BitVec 32) (s : State) : State :=
  let s1 := { s with island := .attached, gangs := [], todo := [], agenda := [], turn := 0 }.modDie 0 fun d => { d with state := .run, uncore := true }
  let s2 := s1.modCtx 0 fun x => { x with state := .active, cmap := x.cmap.set 0 (some 0) }
  (startGang (wordGang w s.made) [] s2).modCore 0 fun x => { x with issued := 0 }

end Sys2Proof.Machine
end

