-- ==== Sys2Proof/Machine/Step.lean ====
section
/-! DEFINITION. The step, and a state in which a given word is the next that issues. -/

namespace Sys2Proof.Machine

/-- One step of the machine. -/
def step (s : State) : Host.Outcome State Fault Refusal := stepOne s

/-- The state with one kernel on cluster 0 of a running module, whose text is the given word and a word of zeros, about
to issue that word: it stands for the placement of a launch from outside (log 1). -/
def State.withFetchWord (s : State) (_nbits w : Nat) : State := placeWord (BitVec.ofNat 32 w) s

end Sys2Proof.Machine
end

