-- ==== Sys2Proof/Safety.lean ====
section
/-! DEFINITION. What claims about runs are stated in: the states a run reaches, and what a well-kept state is. -/

namespace Sys2Proof.Machine

/-- One step answers a next state. -/
def Steps (s t : State) : Prop := step s = .next t

/-- The states that a run from s reaches. -/
inductive Reaches (s : State) : State → Prop where
  | here : Reaches s s
  | more {t u : State} : Reaches s t → Steps t u → Reaches s u

/-- The run never stops: no state it reaches ends in a fault or a refusal. -/
def Safe (s : State) : Prop := ∀ t, Reaches s t → ∃ u, Steps t u

/-- Every field that the spec hard-wires reads as it says: p0 is true (02 R50), in every strand. -/
def State.p0 (s : State) : Prop := ∀ c k, (s.strand c k).preds.getLsbD 0 = true

/-- The memory is in its canonical form. -/
def State.memWf (s : State) : Prop := Memory.wf s.mem = true

/-! Where a word issues. -/

/-- The current strand may issue a word: it is in Run or Handler (02 R43). -/
def Runs (s : State) : Prop := s.me.state = .run ∨ s.me.state = .handler

/-- Every register field of the word lies below the strand's allotment (02 R47). -/
def Fits (s : State) (fields : List Nat) : Prop := ∀ f ∈ fields, f < s.me.allot

/-- A scalar field whose read the spec defines: no result is in flight to it, and q is live (02 R49, R64, R65). -/
def Readable (s : State) (f : Sreg) : Prop := s.me.regBusy s.cycle f = false ∧ (f = 0 → s.me.qLive = true)

/-- A predicate whose read the spec defines. -/
def ReadableP (s : State) (p : Preg) : Prop := p ≠ 0 → s.me.predBusy s.cycle p = false

/-! Frames: what a word leaves alone. -/

/-- Nothing but the control cores has changed, and the count of free values: memory, tables, gangs and clocks stand. -/
def sameOutside (s t : State) : Prop := { t with cores := s.cores, fresh := s.fresh } = s

/-- The clusters other than that of the current strand are the same. -/
def sameClusters (s t : State) : Prop := ∀ c, c ≠ s.cur.c → t.core c = s.core c

/-- The core of the current strand is the same, but for its strands and for which of them issued when. -/
def sameCore (s t : State) : Prop :=
  { t.core s.cur.c with strands := s.myCore.strands, order := s.myCore.order, issued := s.myCore.issued } = s.myCore

/-- The other strands of that core are the same, but that the rendezvous they wait at may have ended (02 R70). -/
def sameStrands (s t : State) : Prop :=
  ∀ k, k ≠ s.cur.k → { t.strand s.cur.c k with zWait := (s.strand s.cur.c k).zWait } = s.strand s.cur.c k

/-- What every word leaves alone that acts on its own strand only. -/
structure WordFrame (s t : State) : Prop where
  outside : sameOutside s t
  clusters : sameClusters s t
  core : sameCore s t
  strands : sameStrands s t

/-- A strand without what the issue of any word may change: where it goes on, its count of issues, its gap, its
rendezvous, the counts of its loops, its repetition (02 R68 to R70, 04 R117, R121). -/
def Strand.still (t : Strand) : Strand :=
  { t with
    pc := 0, issues := 0, gapUntil := 0, swUntil := 0, zWait := false, xrep := 0, inRep := false
    loop0 := { t.loop0 with count := 0 }
    loop1 := { t.loop1 with count := 0 } }

/-- The frame of a word that writes scalar field d: every other register, the predicates, the control registers stand. -/
structure RegFrame (s t : State) (d : Sreg) : Prop where
  word : WordFrame s t
  regs : ∀ r : Fin 32, r ≠ d.toFin → t.me.regs.get r = s.me.regs.get r
  strand : { t.me.still with regs := s.me.regs, qAt := s.me.qAt, qDue := s.me.qDue, flights := s.me.flights } = s.me.still

/-- The frame of a word that writes the predicates in a mask: every other predicate and every register stand. -/
structure PredFrame (s t : State) (mask : BitVec 8) : Prop where
  word : WordFrame s t
  preds : t.me.preds &&& ~~~mask = s.me.preds &&& ~~~mask
  strand : { t.me.still with preds := s.me.preds, flights := s.me.flights } = s.me.still

/-- The frame of a word that writes nothing but where its strand goes on. -/
structure FlowFrame (s t : State) : Prop where
  word : WordFrame s t
  strand : t.me.still = s.me.still

/-- A word completes and writes scalar field d: the value, its latency bound and its flags, and nothing else. -/
def WritesReg (i : Instr) (fields : List Nat) (d : Sreg) (v : State → W) (bound : Nat) (fl : State → Option (BitVec 5)) :
    Prop :=
  ∀ s, Runs s → Fits s fields → ∃ t, exec i s = .next t ∧ t.me.regs.get d.toFin = v s ∧
    t.me.flights = s.me.flights ++ [⟨.reg d, s.cycle + bound, fl s, s.cycle⟩] ∧ RegFrame s t d

/-- The mask of a predicate field as a destination: p0 is never written (02 R50). -/
def predMask (p : Preg) : BitVec 8 := if p = 0 then 0 else 1 <<< p.toNat

/-- A word completes and writes predicate p, when it is not p0, and nothing else. -/
def WritesPred (i : Instr) (fields : List Nat) (p : Preg) (v : State → Bool) (bound : Nat) (fl : State → Option (BitVec 5)) :
    Prop :=
  ∀ s, Runs s → Fits s fields → ∃ t, exec i s = .next t ∧ (p ≠ 0 → t.me.preds.getLsbD p.toNat = v s) ∧
    t.me.flights = s.me.flights ++ [⟨if p = 0 then .nothing else .preds (predMask p), s.cycle + bound, fl s, s.cycle⟩] ∧
    PredFrame s t (predMask p)

/-- Where a strand goes on behind a word that is no transfer, outside loops and repetitions (04 R117). -/
def plainPlace (t : Strand) : Prop := t.inRep = false ∧ t.loop0.count = 0 ∧ t.loop1.count = 0

/-- The state that a trap of the current word leaves: it completes as that trap entry, on its own words (09 R293). -/
def Traps (i : Instr) (s : State) (code : BitVec 8) (detail : BitVec 16) (tval : W) : Prop :=
  exec i s = .next (takeTrap s s.cur.c s.cur.k true code false detail tval s.me.pc)

/-! Where a strand goes on. -/

/-- Where a strand stands: its program counter and the counts of its loop levels 0 and 1. -/
def Strand.place (t : Strand) : W × W × W := (t.pc, t.loop0.count, t.loop1.count)

/-- Where a strand goes on behind a word at w that transfers nothing, next being the word after it: level 1 is checked
first, a count that reaches 0 falls through (04 R117). -/
def bodyEnd (t : Strand) (w next : W) : W × W × W :=
  let hit1 := t.loop1.count ≠ 0 ∧ w = t.loop1.last
  let hit0 := t.loop0.count ≠ 0 ∧ w = t.loop0.last
  if hit1 ∧ t.loop1.count ≠ 1 then (t.loop1.start &&& ~~~3, t.loop0.count, t.loop1.count - 1)
  else
    let c1 := if hit1 then 0 else t.loop1.count
    if hit0 then (if t.loop0.count = 1 then next else t.loop0.start &&& ~~~3, t.loop0.count - 1, c1) else (next, t.loop0.count, c1)

/-- A transfer of control completes: the strand goes on at the target, its loop counts stand, nothing else changes. -/
def Transfers (i : Instr) (fields : List Nat) (target : State → W) : Prop :=
  ∀ s, Runs s → Fits s fields → s.me.inRep = false →
    ∃ t, exec i s = .next t ∧ t.me.place = (target s, s.me.loop0.count, s.me.loop1.count) ∧ FlowFrame s t

/-- A word completes behind which the strand goes on with the end-of-body check, and nothing else changes. -/
def GoesOn (i : Instr) (fields : List Nat) : Prop :=
  ∀ s, Runs s → Fits s fields → s.me.inRep = false →
    ∃ t, exec i s = .next t ∧ t.me.place = bodyEnd s.me s.me.pc (s.me.pc + 4) ∧ FlowFrame s t

/-! Exceptions. -/

/-- The status after trap entry: IE and LVL saved in PIE and PLVL, IE clear, TR set, the rest as it was (09 R293). -/
def entered (x : W) : W :=
  (x &&& ~~~0x4d) ||| (if x.getLsbD 0 then 0x4 else 0) ||| (if x.getLsbD 1 then 0x8 else 0) ||| 0x40

/-- The status after eret: IE and LVL come back from PIE and PLVL, TR clears, the rest as it was (05 R162). -/
def returned (x : W) : W :=
  (x &&& ~~~0x43) ||| (if x.getLsbD 2 then 0x1 else 0) ||| (if x.getLsbD 3 then 0x2 else 0)

/-- What a trap entry at a handler leaves in its strand, u being the strand with its control writes in effect. -/
structure Entered (u t : Strand) (code : BitVec 8) (detail : BitVec 16) (tval epc handler : W) (cycle : Nat) : Prop where
  state : t.state = .handler
  pc : t.pc = handler
  xepc : t.xepc = epc
  xcause : t.xcause.toNat = code.toNat + 65536 * detail.toNat
  xtval : t.xtval = tval
  xstatus : t.xstatus = entered u.xstatus
  drained : t.drainUntil = u.latest cycle + 3
  rest : { t with
    state := u.state, pc := u.pc, xepc := u.xepc, xcause := u.xcause, xtval := u.xtval, xstatus := u.xstatus
    drainUntil := u.drainUntil, qAt := u.qAt, inRep := u.inRep, wait := u.wait, tld := u.tld, zWait := u.zWait } = u

/-! Memory words. -/

/-- The frame of a word that starts an access or claims a far-load queue entry: its strand's two lists apart, nothing
changes; memory changes when the access performs (05 R131, R133). -/
structure PendFrame (s t : State) : Prop where
  word : WordFrame s t
  strand : { t.me.still with pend := s.me.pend, flq := s.me.flq } = s.me.still

/-- The word does not issue in this core cycle, and the selector has passed it by. -/
def Holds (i : Instr) (s : State) : Prop := exec i s = .next (s.modMe fun t => { t with tried := s.cycle + 1 })

/-- A word that starts an access p under no condition completes so (05 R140, 13 R379). -/
def Posts (i : Instr) (fields : List Nat) (p : State → Pend) : Prop :=
  ∀ s, Runs s → Fits s fields →
    ∃ t, exec i s = .next t ∧ t.me.pend = s.me.pend ++ [p s] ∧ t.me.flq = s.me.flq ∧ PendFrame s t

/-- A far word: it claims a queue entry for d with its access p, holds while eight are claimed, and takes the address
fault at issue where its address x has no target for n bytes (05 R133). -/
def FarWord (i : Instr) (fields : List Nat) (d : Sreg) (x : State → W) (n : Nat) (p : State → Tgt → BitVec 3 → Pend) : Prop :=
  ∀ s, Runs s → Fits s fields →
    (∀ sp o, target s s.cur.c (x s) n = .ok (sp, o) → s.me.flq.length < 8 →
      ∃ t, exec i s = .next t ∧ t.me.flq = s.me.flq ++ [⟨d, .waiting⟩] ∧
        t.me.pend = s.me.pend ++ [p s (tgtOf s s.cur.c sp o) (s.me.flqHead + BitVec.ofNat 3 s.me.flq.length)] ∧ PendFrame s t) ∧
    (∀ v, target s s.cur.c (x s) n = .ok v → 8 ≤ s.me.flq.length → Holds i s) ∧
    (∀ r, target s s.cur.c (x s) n = .error r → Traps i s 0x04 (BitVec.ofNat 16 r) (x s))

/-- A store of n bytes: translated at issue, it posts its bytes while the store buffer has room, holds while it has none,
is held for firmware on a translation fault, and takes the address fault where its address has no target (05 R131). -/
def StoreWord (i : Instr) (fields : List Nat) (x : State → W) (n : Nat) (bs : State → List Byte) (cls : Nat)
    (rel : State → Option ScopeSet) : Prop :=
  ∀ s, Runs s → Fits s fields →
    (∀ sp o s1 u, target s s.cur.c (x s) n = .ok (sp, o) → resolve s s.cur.c (tgtOf s s.cur.c sp o) false true = (s1, .ok u) →
      (s.me.storesBuffered < 16 →
        ∃ t, exec i s = .next t ∧ t.me.flq = s.me.flq ∧ sameOutside s t ∧ PendFrame s1 t ∧
          t.me.pend = s.me.pend ++ [⟨.store (bs s), cls, u, none, rel s, (rel s).isSome, s.me.pc⟩]) ∧
      (16 ≤ s.me.storesBuffered → Holds i s)) ∧
    (∀ sp o s1 code, target s s.cur.c (x s) n = .ok (sp, o) →
      resolve s s.cur.c (tgtOf s s.cur.c sp o) false true = (s1, .error code) →
      exec i s = .next (firmHold s s.cur.c s.cur.k code 1 (x s))) ∧
    (∀ r, target s s.cur.c (x s) n = .error r → Traps i s 0x04 (BitVec.ofNat 16 r) (x s))

/-- No access under way must perform before a near read of n bytes at a target (05 R132, R136, R140). -/
def NothingBefore (s : State) (n cls : Nat) (u : Tgt) (byteOrder : Bool := false) : Prop :=
  ∀ p ∈ s.me.pend, ordered s s.cur.c p ⟨.load 0 n false, cls, u, none, none, byteOrder, 0⟩ = false

/-- A near load (05 R130): from a scratchpad of the cluster with bound 12, through the data cache from its vault with
bound 48; from another space, or without a target, the address fault. -/
def NearLoad (i : Instr) (n : Nat) (signed : Bool) (d a : Sreg) (cls : BitVec 4) (off : BitVec 6) : Prop :=
  ∀ s, Runs s → Fits s [d.toNat, a.toNat] →
    let c := s.cur.c
    let x := rd s a 1 + BitVec.ofInt 64 (off.toInt * n)
    let value (bs : List Byte) : W :=
      if signed then (BitVec.ofNat (8 * n) (ofBytes bs)).signExtend 64 else BitVec.ofNat 64 (ofBytes bs)
    let lands (t : State) (bound : Nat) : Prop := t.me.flights = s.me.flights ++ [⟨.reg d, s.cycle + bound, none, s.cycle⟩]
    (∀ o, target s c x n = .ok (0, o) →
      let l := spadLoc c (Fin.ofNat 8 (o / 2 ^ 20)) (o % 2 ^ 20)
      NothingBefore s n cls.toNat (.loc l 0) → s.poisonedIn l n = none →
      ∃ t, exec i s = .next t ∧ t.me.regs.get d.toFin = value (readHome s l n) ∧ lands t 12 ∧ RegFrame s t d) ∧
    (∀ o, target s c x n = .ok (3, o) →
      let l := vaultLoc c (o % 2 ^ 24)
      NothingBefore s n cls.toNat (.loc l 3) → s.poisonedIn l n = none →
      (∀ y, s.myCore.line? (o % 2 ^ 24 / 64) = some y →
        ∃ t, exec i s = .next t ∧ t.me.regs.get d.toFin = value ((y.data.drop (o % 64)).take n) ∧ lands t 48 ∧ RegFrame s t d) ∧
      (s.myCore.line? (o % 2 ^ 24 / 64) = none →
        ∃ t, exec i s = .next t ∧ t.me.regs.get d.toFin = value (readHome s l n) ∧ lands t 48)) ∧
    (∀ sp o, target s c x n = .ok (sp, o) → sp ≠ 0 → sp ≠ 3 → Traps i s 0x04 4 x) ∧
    (∀ r, target s c x n = .error r → Traps i s 0x04 (BitVec.ofNat 16 r) x)

/-! Words on objects of the cluster. -/

/-- The word leaves its strand and everything outside its cluster's core as they were, its strand's going on apart. -/
structure CoreFrame (s t : State) : Prop where
  outside : sameOutside s t
  clusters : sameClusters s t
  strands : sameStrands s t
  strand : t.me.still = s.me.still

/-- A wait is under way from this issue (05 R141): the strand stays at the word, with its expiry 2^(lim + 8) cycles on. -/
structure Waits (s t : State) (obj : WaitObj) (lim : BitVec 4) : Prop where
  wait : t.me.wait = some ⟨obj, s.cycle, s.cycle + 2 ^ (lim.toNat + 8)⟩
  pc : t.me.pc = s.me.pc
  strand : { t.me.still with wait := s.me.wait } = s.me.still
  mem : t.mem = s.mem

/-- The wait of strand k of cluster c is over and the strand goes on behind its word (05 R141). -/
structure Granted (s t : State) (c : Cl) (k : Sn) : Prop where
  wait : (t.strand c k).wait = none
  place : (s.strand c k).inRep = false →
    (t.strand c k).place = bodyEnd (s.strand c k) (s.strand c k).pc ((s.strand c k).pc + 4)
  strand : { (t.strand c k).still with wait := (s.strand c k).wait } = (s.strand c k).still

/-- A memory-word wait (05 R153): the word is read at the memory, where a data-cache line of it goes first; where the condition
holds the strand goes on, else it waits. Values compare signed for lt and ge, else unsigned. -/
def WaitvWord (i : Instr) (cond : Nat) (dw : Bool) (a b : Sreg) (lim : BitVec 4) : Prop :=
  ∀ s sp o s1 l cached key, Runs s → Fits s [a.toNat, b.toNat] → s.me.inRep = false →
    let n := if dw then 8 else 4
    target s s.cur.c (rd s a 1) n = .ok (sp, o) →
    resolve s s.cur.c (tgtOf s s.cur.c sp o) true false = (s1, .ok (.loc l cached key)) → s1.poisonedIn l n = none →
    NothingBefore s1 n 0 (.loc l cached key) true →
    let num (v : Nat) : Int := if cond = 2 ∨ cond = 3 then (BitVec.ofNat (8 * n) v).toInt else (v % 2 ^ (8 * n) : Nat)
    let read := ofBytes (readHome (leaveCache s.cur.c l s1) l n)
    let x := num read
    let y := num (rd s b 2).toNat
    let holds : Prop := match cond with
      | 0 => x = y
      | 1 => x ≠ y
      | 2 => x < y
      | 3 => y ≤ x
      | 4 => x < y
      | _ => y ≤ x
    (holds → ∃ t, exec i s = .next t ∧ t.me.place = bodyEnd s.me s.me.pc (s.me.pc + 4) ∧ t.me.still = s.me.still) ∧
    (¬holds → ∃ t, exec i s = .next t ∧ t.me.pc = s.me.pc ∧ { t.me.still with wait := s.me.wait } = s.me.still ∧
      t.me.wait = some ⟨.mem cond dw (tgtOf s s.cur.c sp o) (BitVec.ofInt 64 y) (BitVec.ofNat 64 read) false, s.cycle, s.cycle + 2 ^ (lim.toNat + 8)⟩)

/-- A word writes a handle (02 R52, R63): the fields in its mask are in flight until the bound passes, as one of the strand's
results; other handles, registers and memory stand. -/
structure WritesHandle (s t : State) (h : BitVec 5) (v : Handle) (mask : BitVec 11) (bound : Nat) : Prop where
  value : t.myCore.handles.get h.toFin = v
  others : ∀ g : Fin 32, g ≠ h.toFin → t.myCore.handles.get g = s.myCore.handles.get g
  flight : t.myCore.hflights = s.myCore.hflights ++ [⟨h, mask, s.cycle + bound⟩]
  flights : t.me.flights = s.me.flights ++ [⟨.nothing, s.cycle + bound, none, s.cycle⟩]
  outside : sameOutside s t
  clusters : sameClusters s t
  strand : { t.me.still with flights := s.me.flights } = s.me.still

/-- A tile that the strand's mask selects and the configuration record does not disable (06 R187). -/
def Chosen (s : State) (y : Tl) : Prop := s.me.xtmask.getLsbD y.val = true ∧ s.tileOk s.cur.c y = true

/-- A word hands changes to the chosen tiles, in order behind those under way, for their next tick (06 R182). -/
def Amends (i : Instr) (fields : List Nat) (ok : State → Prop) (as : State → List Amend) : Prop :=
  ∀ s, Runs s → Fits s fields → ok s → ∃ t, exec i s = .next t ∧ CoreFrame s t ∧
    ∀ y, (Chosen s y → (t.tile s.cur.c y).amends = (s.tile s.cur.c y).amends ++ as s) ∧
      (¬Chosen s y → t.tile s.cur.c y = s.tile s.cur.c y)

/-! Events. -/

/-- Nothing differs but strand k of cluster c. -/
structure OnStrand (s t : State) (c : Cl) (k : Sn) : Prop where
  rest : { t with cores := s.cores } = s
  cores : ∀ c', c' ≠ c → t.core c' = s.core c'
  core : { t.core c with strands := (s.core c).strands } = s.core c
  strands : ∀ k', k' ≠ k → t.strand c k' = s.strand c k'

/-- An event leaves strand k of cluster c as given, and nothing else differs. -/
def LeavesStrand (i : Instr) (s : State) (c : Cl) (k : Sn) (y : Strand) : Prop :=
  ∃ t, exec i s = .next t ∧ t.strand c k = y ∧ OnStrand s t c k

/-- An event leaves core c as given, and nothing else differs. -/
def LeavesCore (i : Instr) (s : State) (c : Cl) (y : Core) : Prop :=
  ∃ t, exec i s = .next t ∧ t.core c = y ∧ { t with cores := s.cores } = s ∧ ∀ c', c' ≠ c → t.core c' = s.core c'

/-- An event leaves tile y of cluster c as given, and nothing else differs. -/
def LeavesTile (i : Instr) (s : State) (c : Cl) (t : Tl) (y : Tile) : Prop :=
  ∃ u, exec i s = .next u ∧ u.tile c t = y ∧ { u with cores := s.cores } = s ∧ (∀ c', c' ≠ c → u.core c' = s.core c') ∧
    { u.core c with tiles := (s.core c).tiles } = s.core c ∧ ∀ t', t' ≠ t → u.tile c t' = s.tile c t'

/-! Gangs. -/

/-- The members of a gang stand on clusters of their own. -/
def Gang.Apart (g : Gang) : Prop := (g.members.map (·.phys)).Nodup

/-- A cluster that a gang has left (09 R289): of no gang, its strands Idle, its queues empty. -/
structure LeftIdle (x : Core) : Prop where
  gang : x.gang = none
  strands : ∀ k, (x.strand k).state = .idle
  queues : ∀ t e, ((x.tile t).queue e).entries = []

/-- A member of gang g with a rank has just started (02 R45, 11 R321): its declared strands run at their entries, the others are
Idle, its mailboxes hold the argument record and its place in the gang. -/
structure MemberStarts (g : Gang) (args : List W) (rank : Nat) (x : Core) : Prop where
  gang : x.gang = some g.id
  runs : ∀ k : Sn, k.val < g.image.strands →
    (x.strand k).state = .run ∧ (x.strand k).pc = (g.text + BitVec.ofNat 64 ((g.image.entries[k.val]?).getD 0)) &&& ~~~3
  idle : ∀ k : Sn, g.image.strands ≤ k.val → (x.strand k).state = .idle
  mbox : ∀ i : Fin 8, x.mbox.get i =
    if i.val < 7 then (args[i.val]?).getD 0 else BitVec.ofNat 64 (g.inst * 2 ^ 32 + (g.members.length - 1) * 256 + rank)

/-- A strand that a reef has diverted (11 R332, 09 R298), u being the strand with its control writes in effect. -/
structure StrandDiverted (g : Gang) (u t : Strand) : Prop where
  goesOn : ∀ o, g.image.reef = some o → t.state = .run ∧ t.pc = (g.text + BitVec.ofNat 64 o) &&& ~~~3
  halts : g.image.reef = none → t.state = .halted
  xepc : t.xepc = u.pc
  status : t.xstatus = (u.xstatus ||| 0x20) &&& ~~~0x41
  loops : t.loop0.count = 0 ∧ t.loop1.count = 0 ∧ t.xrep = 0 ∧ t.inRep = false
  queue : t.flq = []
  free : t.wait = none ∧ t.fw = none ∧ t.asyncs = [] ∧ t.mboxInt = none
  kept : t.regs = u.regs ∧ t.preds = u.preds ∧ ∀ p ∈ u.pend, p.kind.slot? = none → p ∈ t.pend

/-- A gang that a reef has diverted (11 R331, R332, 06 R185): its mark is set; strands in Run or Handler are diverted and their
asynchronous traps are on the record, the others stand; entries that have not started are gone, those that have follow no
link, and the abortable ones stop at their row. -/
structure GangDiverted (g : Gang) (s t : State) : Prop where
  gang : ∀ y, s.gang? g.id = some y → ∃ z, t.gang? g.id = some z ∧ z.diverted = true ∧ (y.preempt ≠ some .node → z.preempt = none)
  strands : ∀ m ∈ g.members, ∀ k, (s.strand m.phys k).state = .run ∨ (s.strand m.phys k).state = .handler →
    StrandDiverted g ((s.strand m.phys k).settleCtl (s.cycle + 3)) (t.strand m.phys k) ∧
      ∀ a ∈ (s.strand m.phys k).asyncs, ∃ e ∈ (t.core m.phys).events, e.strand = k ∧ e.async = true ∧ e.tval = a.tval
  others : ∀ m ∈ g.members, ∀ k, (s.strand m.phys k).state ≠ .run → (s.strand m.phys k).state ≠ .handler →
    { t.strand m.phys k with zWait := (s.strand m.phys k).zWait } = s.strand m.phys k
  entries : ∀ m ∈ g.members, ∀ y e, let q := ((t.tile m.phys y).queue e).entries
    q.map (·.seq) = (((s.tile m.phys y).queue e).entries.filter (·.started)).map (·.seq) ∧
      ∀ b ∈ q, b.noLink = true ∧ (fbits b.f 0 15 1 = 1 → b.cutRow = true)
  links : ∀ m ∈ g.members, ∀ y, (t.tile m.phys y).links = []
  elsewhere : ∀ c, c ∉ g.members.map (·.phys) → t.core c = s.core c
  mem : t.mem = s.mem

/-- A gang of a launch that is stopped (11 R333): its strands are Halted, nothing of theirs lands any more; entries that have not
started, or that stand at a fault, are gone, the others stop at their row and follow no link. -/
structure GangStopped (g : Gang) (s t : State) : Prop where
  strands : ∀ m ∈ g.members, ∀ k, (t.strand m.phys k).pend = [] ∧
    ((s.strand m.phys k).state = .idle → (t.strand m.phys k).state = .idle) ∧
    ((s.strand m.phys k).state ≠ .idle → (t.strand m.phys k).state = .halted)
  entries : ∀ m ∈ g.members, ∀ y e, let q := ((t.tile m.phys y).queue e).entries
    q.map (·.seq) = (((s.tile m.phys y).queue e).entries.filter fun b => b.started && b.fault.isNone).map (·.seq) ∧
      ∀ b ∈ q, b.noLink = true ∧ b.cutRow = true
  landing : ∀ m ∈ g.members, ∀ y, (t.tile m.phys y).links = [] ∧ (t.tile m.phys y).accLand = [] ∧ (t.tile m.phys y).redLand = []
  mem : t.mem = s.mem

/-- A gang has gone to its save area (12 R350, R351): it is among the saved gangs with what its members left, its clusters are
idle, its logical numbers are free; memory and the other clusters stand. -/
structure GangSaved (g : Gang) (fence : Bool) (cut : List (BitVec 32 × Nat)) (ms : List SavedMember) (s t : State) : Prop where
  saved : t.saved = s.saved ++ [⟨{ g with preempt := none }, fence, cut, ms⟩]
  gangs : t.gangs = s.gangs.filter (·.id ≠ g.id)
  idle : ∀ m ∈ g.members, LeftIdle (t.core m.phys)
  logical : ∀ m ∈ g.members, (t.ctx g.ctx).cmap.get m.logical = none
  elsewhere : ∀ c, c ∉ g.members.map (·.phys) → t.core c = s.core c
  mem : t.mem = s.mem

/-- What the save area holds of a strand at a yield point (12 R350 Table 9), u being the strand with its results landed and its
control writes in effect. -/
structure NodeSaved (u v : Strand) : Prop where
  state : v.state = if u.state = .idle then .idle else if u.state = .halted then .halted else .run
  xepc : u.state = .run → v.xepc = u.pc
  regs : u.state ≠ .idle → ∀ r : Fin 32, v.regs.get r = if 1 ≤ r.val ∧ r.val ≤ 16 ∧ r.val < u.allot then u.regs.get r else 0
  rest : u.state ≠ .idle → v.preds = u.preds ∧ v.xfpmode = u.xfpmode ∧ v.xfflags = u.xfflags ∧ v.xstklim = u.xstklim

/-- What the save area holds of a strand behind a generation fence (12 R351 Table 10), u being the strand with its results
landed. -/
structure FenceSaved (u v : Strand) : Prop where
  state : v.state = u.state ∧ v.xepc = u.xepc ∧ v.xstatus = u.xstatus
  regs : v.regs = u.regs ∧ v.preds = u.preds
  controls : v.xcause = u.xcause ∧ v.xtval = u.xtval ∧ v.xstklim = u.xstklim ∧ v.xfpmode = u.xfpmode ∧ v.xfflags = u.xfflags ∧
    v.xtmask = u.xtmask ∧ v.xrep = u.xrep ∧ v.loop0 = u.loop0 ∧ v.loop1 = u.loop1 ∧ v.xscratch = u.xscratch
  queues : v.flq = u.flq ∧ v.flqHead = u.flqHead ∧ v.flqHalt = u.flqHalt ∧ v.asyncs = u.asyncs
  free : v.wait = none ∧ v.fw = none ∧ v.flights = []

/-- A saved strand is back (12 R350, R352): it goes on at its xepc as after eret, with the registers that were saved. -/
structure StrandResumes (v t : Strand) : Prop where
  goesOn : v.state = .run ∨ v.state = .handler → t.state = v.state ∧ t.pc = v.xepc &&& ~~~3 ∧ t.stopped = false
  stays : v.state ≠ .run → v.state ≠ .handler → t.state = v.state
  kept : t.regs = v.regs ∧ t.preds = v.preds ∧ t.xepc = v.xepc ∧ t.xstatus = v.xstatus ∧ t.xfpmode = v.xfpmode ∧ t.xfflags = v.xfflags ∧
    t.xstklim = v.xstklim ∧ t.xcause = v.xcause ∧ t.xtval = v.xtval ∧ t.xscratch = v.xscratch ∧ t.flq = v.flq ∧ t.loop0 = v.loop0 ∧
    t.loop1 = v.loop1 ∧ t.xrep = v.xrep

/-- The cells of a save area lie in the ranges that they are of. -/
def SavedMember.InRange (m : SavedMember) : Prop :=
  (∀ x ∈ m.vault, x.1 < 2 ^ 24) ∧ (∀ l ∈ m.spad, ∀ x ∈ l, x.1 < 2 ^ 20) ∧ ∀ l ∈ m.acc, ∀ x ∈ l, x.1 < 2 ^ 18

/-! Engine elements. -/

/-- Entry b of a queue runs operator op from its first element on and may go on in this tick: not held, no stochastic rounding,
no flush to zero, no audit, no per-tile step, no poison, no row of the accumulator store written in this tick, no result of a
reduction still to land. -/
structure GoesNow (s : State) (v : Site) (b : Entry) (op : Nat) : Prop where
  runner : ((s.tile v.c v.t).queue v.e).runner = some b
  code : opOf b.f = op
  first : b.n = 0
  free : b.fault = none
  whole : b.cutRow = false
  due : b.ready ≤ tickOf s.cycle + 1
  mode : rmOf b.f ≠ 5
  noFlush : ftzOf b.f = false
  noAudit : b.audit = none
  noStep : fld b.f 29 = 0
  clean : s.poison = []
  quiet : tickOf s.cycle ≤ (s.tile v.c v.t).accOld.1 → (s.tile v.c v.t).accOld.2 = []
  landed : (s.tile v.c v.t).redLand = []
  form : s.memWf

/-- The same for a block of one element: a nest of no dimensions. -/
structure OneElem (s : State) (v : Site) (b : Entry) (op : Nat) : Prop extends GoesNow s v b op where
  dims : ndimOf b.f = 0

/-- The same for a block of one row: a nest of one dimension, of n elements. -/
structure OneRow (s : State) (v : Site) (b : Entry) (op n : Nat) : Prop extends GoesNow s v b op where
  dims : ndimOf b.f = 1
  row : extOf b.f 0 = n
  some : 0 < n

/-- The element of operand o at address a lies, unswizzled, at place l of its tile's scratchpad or accumulator, with n bytes
there. A place is the location of its byte; of an E2M1 element, which is half a byte, twice that and which half. -/
def At (v : Site) (f : Block) (o a l n : Nat) : Prop :=
  let half := tyOf f o = 5
  let y := if half then a / 2 else a
  let place (loc : Nat) : Nat := if half then 2 * loc + a % 2 else loc
  swzOf f o = 0 ∧
    (spaceOf f o = 0 ∧ l = place (spadLoc v.c v.t y) ∧ y + n ≤ 0xc0000 ∨
      spaceOf f o = 2 ∧ l = place (accLoc v.c v.t y) ∧ y + n ≤ 0x40000)

/-- The first element of operand o of a block lies at place l, with n bytes there. -/
def Lies (v : Site) (f : Block) (o l n : Nat) : Prop := At v f o (fld f (10 + 4 * o)) l n

/-- The code that stands at a place, of a type. -/
def codeAt (s : State) (ty l : Nat) : Nat :=
  if ty = 5 then bits (s.byte (l / 2)).toNat (4 * (l % 2)) 4 else ofBytes (readHome s l (unitOf ty))

/-- The bytes of an element of operand o at a place: the first, and how many. -/
def elemSpan (f : Block) (o l : Nat) : Nat × Nat := if tyOf f o = 5 then (l / 2, 1) else (l, unitOf (tyOf f o))

/-- Two ranges of bytes share none. -/
def Apart (p q : Nat × Nat) : Prop := p.1 + p.2 ≤ q.1 ∨ q.1 + q.2 ≤ p.1

/-- The code a value is written as under a saturate choice (07 R201): an integer narrows, a float rounds once to the type. -/
def codeUnder (f : Block) (sat : Bool) (ty : Nat) (x : Val) : Nat :=
  match x, isFloatTy ty with
  | .i z, false => narrow ty sat z
  | .f y, false => (toIntTy (typeBits ty) (signedTy ty) (rmOf f) 0 sat y).1
  | x, true => (roundTo (fmtOf ty) (rmOf f) 0 sat x.real).1

/-- The code a value is written as, under the header's saturate bit. -/
def writtenCode (f : Block) (ty : Nat) (x : Val) : Nat := codeUnder f (satOf f) ty x

/-- The code to which a value of A's type converts in D: infinity stays infinity where Table 6 calls the pair exact (01 R32),
and an integer keeps its value in a wider integer type of its sign, or its extended bits (R34), whatever the saturate bit. -/
def convertedCode (f : Block) (x : Val) : Nat :=
  let d := tyOf f 0
  let a := tyOf f 1
  let kept : Bool := match x with
    | .f y => y.isInf && decide ((d = 0 ∧ 1 ≤ a ∧ a ≤ 3) ∨ (1 ≤ d ∧ d ≤ 2 ∧ a = 3))
    | .i _ => !isFloatTy d && decide (typeBits a < typeBits d)
  codeUnder f (!kept && satOf f) d x

/-- A write to memory: bytes from a location on, or the half of a byte that a place names (07 R216). -/
inductive Stored where
  | bytes (a : Nat) (bs : List Byte)
  | half (l code : Nat)
  deriving DecidableEq, Repr

/-- What byte y holds after a write to memory m. -/
def Stored.on (m : Nat → Byte) (w : Stored) (y : Nat) : Byte :=
  match w with
  | .bytes a bs => if a ≤ y ∧ y < a + bs.length then (bs[y - a]?).getD 0 else m y
  | .half l code => if y = l / 2 then BitVec.ofNat 8 (setBits (m y).toNat (4 * (l % 2)) 4 code) else m y

/-- Memory after some writes, in order. -/
def afterWrites (ws : List Stored) (m : Nat → Byte) : Nat → Byte := ws.foldl Stored.on m

/-- What a one-element block does: the operands it uses and their bytes, what its parameters meet, its writes to memory in
order, its change of the tile apart from queues, rings and what the accumulator rows written in the tick held, and of the
machine apart from memory and clusters. -/
structure Element where
  used : Block → List (Nat × Nat)
  ok : State → Site → Block → (Nat → Nat) → Prop := fun _ _ _ _ => True
  writes : State → Site → Block → (Nat → Nat) → List Stored := fun _ _ _ _ => []
  tile : State → Site → Block → (Nat → Nat) → Tile → Tile := fun _ _ _ _ y => y
  rest : State → Site → Block → (Nat → Nat) → State := fun s _ _ _ => s

/-- The n elements of entry b are done: the entry ends and the other entries and queues stand; memory, tile and machine become
what is given; nothing else changes but the ring that a load block fills (R234). -/
structure AllDone (s u : State) (v : Site) (b : Entry) (n : Nat) (ws : List Stored) (tile : Tile) (rest : State) : Prop where
  ended : ∀ q ∈ ((u.tile v.c v.t).queue v.e).entries, q.seq = b.seq → q.phase = .ending ∧ q.n = n
  entries : ((u.tile v.c v.t).queue v.e).entries.filter (·.seq ≠ b.seq) = ((s.tile v.c v.t).queue v.e).entries.filter (·.seq ≠ b.seq)
  queues : ∀ e, e ≠ v.e → (u.tile v.c v.t).queue e = (s.tile v.c v.t).queue e
  bytes : ∀ y, u.byte y = afterWrites ws s.byte y
  tile : { u.tile v.c v.t with queues := (s.tile v.c v.t).queues, rings := (s.tile v.c v.t).rings, accOld := (s.tile v.c v.t).accOld } = tile
  tiles : ∀ t, t ≠ v.t → { u.tile v.c t with rings := (s.tile v.c t).rings } = s.tile v.c t
  core : { u.core v.c with tiles := (s.core v.c).tiles } = s.core v.c
  cores : ∀ c, c ≠ v.c → u.core c = s.core c
  rest : { u with mem := s.mem, cores := s.cores } = rest

/-- The element of entry b is done, as p says. -/
def ElementDone (s u : State) (v : Site) (b : Entry) (p : Element) (x : Nat → Nat) : Prop :=
  AllDone s u v b 1 (p.writes s v b.f x) (p.tile s v b.f x (s.tile v.c v.t)) (p.rest s v b.f x)

/-- An operator's event completes its element where its operands lie at places x. -/
def Performs (i : Cl → Tl → Instr) (e : Eng) (op : Nat) (p : Element) : Prop :=
  ∀ (s : State) (c : Cl) (t : Tl) (b : Entry) (x : Nat → Nat),
    let v : Site := ⟨c, t, e⟩
    OneElem s v b op → (∀ o ∈ p.used b.f, Lies v b.f o.1 (x o.1) o.2) → p.ok s v b.f x →
    ∃ u, exec (i c t) s = .next u ∧ ElementDone s u v b p x

/-- What a block of one row of n elements does: the operands it uses and how many elements of each, what its parameters meet,
its writes and its change of the tile; x o j is the place of element j of operand o. -/
structure RowOp where
  used : Nat → List (Nat × Nat)
  ok : Site → Block → Nat → (Nat → Nat → Nat) → Prop := fun _ _ _ _ => True
  writes : State → Site → Block → Nat → (Nat → Nat → Nat) → List Stored := fun _ _ _ _ _ => []
  tile : State → Site → Block → Nat → (Nat → Nat → Nat) → Tile → Tile := fun _ _ _ _ _ y => y

/-- An operator's event completes its row where its elements lie at places x. -/
def PerformsRow (i : Cl → Tl → Instr) (op : Nat) (p : RowOp) : Prop :=
  ∀ (s : State) (c : Cl) (t : Tl) (b : Entry) (n : Nat) (x : Nat → Nat → Nat),
    let v : Site := ⟨c, t, .v⟩
    OneRow s v b op n → (∀ o ∈ p.used n, ∀ j < o.2, At v b.f o.1 (addrOf b.f o.1 [j] t) (x o.1 j) 8) → p.ok v b.f n x →
    ∃ u, exec (i c t) s = .next u ∧ AllDone s u v b n (p.writes s v b.f n x) (p.tile s v b.f n x (s.tile c t)) s

/-- The value of operand o at location x o. -/
def valIn (s : State) (f : Block) (o : Nat) (x : Nat → Nat) : Val := valOf (tyOf f o) (codeAt s (tyOf f o) (x o))

/-- A function on values of one class; mixed values count as floats. -/
def onValues (fx : XVal → XVal → XVal) (fi : Int → Int → Int) : Val → Val → Val
  | .i a, .i b => .i (fi a b)
  | a, b => .f (fx a.real b.real)

/-- A value rounded to FP32, to nearest even. -/
def rne (x : XVal) : XVal := fp32.decode (roundTo fp32 0 0 false x).1

/-- The write of an element of operand o: a code; of D: a code, or a value (07 R201). -/
def codeTo (f : Block) (o l code : Nat) : List Stored :=
  if tyOf f o = 5 then [.half l code] else [.bytes l (bytesOf (unitOf (tyOf f o)) code)]
def codeToD (f : Block) (l code : Nat) : List Stored := codeTo f 0 l code
def toD (f : Block) (l : Nat) (y : Val) : List Stored := codeToD f l (writtenCode f (tyOf f 0) y)

/-- A conversion of a value of A's type to the element of D. -/
def convertToD (f : Block) (l : Nat) (y : Val) : List Stored := codeToD f l (convertedCode f y)

/-- A move of A's element at place a to D at place d: bits between equal types, else a conversion (R201). -/
def moved (s : State) (f : Block) (a d : Nat) : List Stored :=
  if tyOf f 1 = tyOf f 0 then codeToD f d (codeAt s (tyOf f 1) a)
  else convertToD f d (valOf (tyOf f 1) (codeAt s (tyOf f 1) a))

/-- A word of a table in the scratchpad. -/
def tableAt (s : State) (v : Site) (off n : Nat) : Nat := ofBytes (readHome s (spadLoc v.c v.t off) n)

/-! Rows of a nest (07 R200): elements one after another, each on the memory that the ones before it left, under the block's ftz
bit (01 R21) and its rounding mode, stochastic rounding among them (01 R29, 07 R202). -/

/-- Entry b of a queue runs operator op, stands at the start of a row of n elements of its nest and may go on in this tick: not held,
no audit, no poison, no row of the accumulator store written in this tick, no result of a reduction still to land. -/
structure NestRow (s : State) (v : Site) (b : Entry) (op n : Nat) : Prop where
  runner : ((s.tile v.c v.t).queue v.e).runner = some b
  code : opOf b.f = op
  row : extOf b.f 0 = n
  some : 0 < n
  start : b.n % n = 0
  inside : b.n + n ≤ totalOf b.f
  free : b.fault = none
  whole : b.cutRow = false
  due : b.ready ≤ tickOf s.cycle + 1
  noAudit : b.audit = none
  clean : s.poison = []
  quiet : tickOf s.cycle ≤ (s.tile v.c v.t).accOld.1 → (s.tile v.c v.t).accOld.2 = []
  landed : (s.tile v.c v.t).redLand = []
  form : s.memWf

/-- The element of operand o at index vector i lies at place l (06 R173, R174, R176): in its tile's scratchpad under the operand's
swizzle, in its accumulator store, or in its cluster's vault while the data cache holds nothing. A place is as in At. -/
def Placed (s : State) (v : Site) (f : Block) (o : Nat) (i : List Nat) (l : Nat) : Prop :=
  let a := addrOf f o i v.t
  let y := if tyOf f o = 5 then a / 2 else a
  let z := if 1 ≤ swzOf f o ∧ swzOf f o ≤ 4 then y ^^^ (y / 2 ^ (10 + swzOf f o) % 32 * 64) else y
  let place (loc : Nat) : Nat := if tyOf f o = 5 then 2 * loc + a % 2 else loc
  (spaceOf f o = 0 ∧ l = place (spadLoc v.c v.t z) ∧ z + unitOf (tyOf f o) ≤ 0xc0000) ∨
    (spaceOf f o = 2 ∧ l = place (accLoc v.c v.t y) ∧ y + unitOf (tyOf f o) ≤ 0x40000) ∨
    (spaceOf f o = 3 ∧ l = place (vaultLoc v.c y) ∧ y + unitOf (tyOf f o) ≤ 2 ^ 24 ∧ (s.core v.c).dcache = [])

/-- The code that stands at a place of a memory, of a type. -/
def codeIn (m : Nat → Byte) (ty l : Nat) : Nat :=
  if ty = 5 then bits (m (l / 2)).toNat (4 * (l % 2)) 4 else ofBytes ((List.range (unitOf ty)).map fun i => m (l + i))

/-- A code of a type under the block's ftz bit (01 R21): a subnormal FP32, FP16 or BF16 is zero of its sign. -/
def flushed (f : Block) (ty code : Nat) : Nat :=
  let m := if ty = 0 then 23 else if ty = 1 then 10 else 7
  let e := if ty = 1 then 5 else 8
  if ftzOf f = true ∧ ty ≤ 2 ∧ code / 2 ^ m % 2 ^ e = 0 then code / 2 ^ (m + e) % 2 * 2 ^ (m + e) else code

/-- The value of operand o at a place, as an engine reads it. -/
def valOn (m : Nat → Byte) (f : Block) (o l : Nat) : Val := valOf (tyOf f o) (flushed f (tyOf f o) (codeIn m (tyOf f o) l))

/-- A word of a table in the scratchpad. -/
def tableOn (m : Nat → Byte) (v : Site) (off n : Nat) : Nat := ofBytes ((List.range n).map fun i => m (spadLoc v.c v.t off + i))

/-- What an element writes to D: a code as it stands, or a value, rounded under a saturate choice (07 R201). -/
inductive Written where
  | code (c : Nat)
  | value (sat : Bool) (x : Val)

/-- A conversion of a value of A's type to D: the saturate choice is that of convertedCode. -/
def Written.convert (f : Block) (x : Val) : Written :=
  let kept : Bool := match x with
    | .f y => y.isInf && decide ((tyOf f 0 = 0 ∧ 1 ≤ tyOf f 1 ∧ tyOf f 1 ≤ 3) ∨ (1 ≤ tyOf f 0 ∧ tyOf f 0 ≤ 2 ∧ tyOf f 1 = 3))
    | .i _ => !isFloatTy (tyOf f 0) && decide (typeBits (tyOf f 1) < typeBits (tyOf f 0))
  .value (!kept && satOf f) x

/-- A move of A's element at place a: bits between equal types, else a conversion (07 R201). -/
def Written.move (m : Nat → Byte) (f : Block) (a : Nat) : Written :=
  if tyOf f 1 = tyOf f 0 then .code (flushed f (tyOf f 1) (codeIn m (tyOf f 1) a)) else .convert f (valOn m f 1 a)

/-- Memory and the generators of the 256 lanes, between two elements. -/
structure RowState where
  mem : Nat → Byte
  lanes : List (BitVec 16)

/-- An element at d0 index i0 is written to place l of D. A value that is rounded draws from its lane under rm 5, the generator
x^16 + x^14 + x^13 + x^11 + 1 advancing once (01 R29); an integer written to an integer type is not (01 R34). -/
def RowState.write (f : Block) (i0 l : Nat) (r : RowState) : Written → RowState
  | .code c => ⟨afterWrites (codeToD f l c) r.mem, r.lanes⟩
  | .value sat x =>
    let ty := tyOf f 0
    let old := (r.lanes[i0 % 256]?).getD 1
    let st : BitVec 16 := (old <<< 1) ||| if (old.getLsbD 15 ^^ old.getLsbD 13 ^^ old.getLsbD 12 ^^ old.getLsbD 10) then 1 else 0
    let rounds : Bool := match x with
      | .i _ => isFloatTy ty
      | .f _ => true
    let draw := rmOf f = 5 ∧ rounds = true
    let d := if draw then st.toNat else 0
    let code := match x, isFloatTy ty with
      | .i z, false => narrow ty sat z
      | .f y, false => (toIntTy (typeBits ty) (signedTy ty) (rmOf f) d sat y).1
      | x, true => (roundTo (fmtOf ty) (rmOf f) d sat x.real).1
    ⟨afterWrites (codeToD f l (flushed f ty code)) r.mem, if draw then r.lanes.set (i0 % 256) st else r.lanes⟩

/-- What an operator does on a row of a nest: the operands' elements it uses, by index vectors, for a row from linear number k on of n
elements; what element j writes, from the memory it finds; x o i is the place of operand o at index vector i. -/
structure NestOp where
  used : Block → Nat → Nat → List (Nat × List Nat)
  elem : Site → Block → Tile → (Nat → Byte) → Nat → Nat → (Nat → List Nat → Nat) → Written

/-- The elements of operands that stand at the row's own index vectors. -/
def atEach (os : List Nat) (f : Block) (k n : Nat) : List (Nat × List Nat) :=
  os.flatMap fun o => (List.range n).map fun j => (o, indexOf f (k + j))

/-- The row's index vector with i0 replaced. -/
def atPlace (f : Block) (k i0 : Nat) : List Nat := i0 :: (indexOf f k).tail

/-- A row of n elements of entry b is done: memory and lanes are what is given, the entry stands behind the row and ends with its last; the
other entries and queues stand; nothing else changes. -/
structure RowDone (s u : State) (v : Site) (b : Entry) (n : Nat) (r : RowState) : Prop where
  bytes : ∀ y, u.byte y = r.mem y
  entry : ∀ q ∈ ((u.tile v.c v.t).queue v.e).entries, q.seq = b.seq →
    q.n = b.n + n ∧ q.lanes = r.lanes ∧ q.f = b.f ∧ (q.phase = .ending ↔ b.n + n = totalOf b.f)
  entries : ((u.tile v.c v.t).queue v.e).entries.filter (·.seq ≠ b.seq) = ((s.tile v.c v.t).queue v.e).entries.filter (·.seq ≠ b.seq)
  queues : ∀ e, e ≠ v.e → (u.tile v.c v.t).queue e = (s.tile v.c v.t).queue e
  tile : { u.tile v.c v.t with queues := (s.tile v.c v.t).queues, accOld := (s.tile v.c v.t).accOld } = s.tile v.c v.t
  tiles : ∀ t, t ≠ v.t → u.tile v.c t = s.tile v.c t
  core : { u.core v.c with tiles := (s.core v.c).tiles } = s.core v.c
  cores : ∀ c, c ≠ v.c → u.core c = s.core c
  rest : { u with mem := s.mem, cores := s.cores } = s

/-- An operator's event completes a row of its nest where its elements lie at places x. -/
def PerformsNest (i : Cl → Tl → Instr) (op : Nat) (p : NestOp) : Prop :=
  ∀ (s : State) (c : Cl) (t : Tl) (b : Entry) (n : Nat) (x : Nat → List Nat → Nat),
    let v : Site := ⟨c, t, .v⟩
    NestRow s v b op n → (∀ o ∈ p.used b.f b.n n, Placed s v b.f o.1 o.2 (x o.1 o.2)) →
    ∃ u, exec (i c t) s = .next u ∧ RowDone s u v b n ((List.range n).foldl
      (fun r j => r.write b.f j (x 0 (indexOf b.f (b.n + j))) (p.elem v b.f (s.tile c t) r.mem b.n j x)) ⟨s.byte, b.lanes⟩)

/-- A vector operator that writes one value of the elements at its own index vector. -/
def Elementwise (i : Cl → Tl → Instr) (op : Nat) (used : Block → List Nat)
    (value : Site → Tile → Block → (Nat → Byte) → (Nat → Nat) → Val) : Prop :=
  PerformsNest i op
    { used := fun f => atEach (0 :: used f) f
      elem := fun v f y m k j x => .value (satOf f) (value v y f m fun o => x o (indexOf f (k + j))) }

/-- Where an element of a load or store block lies (06 R173, R174, 08 R249), of operand o at address a, to be written or read: l is its
location, t the machine once its page is at hand. Of spaces 0 to 5, and not of half a byte; of the vault while nothing is cached. -/
def Found (s : State) (v : Site) (f : Block) (o a : Nat) (wr : Bool) (t : State) (l : Nat) : Prop :=
  let n := unitOf (tyOf f o)
  let z := if 1 ≤ swzOf f o ∧ swzOf f o ≤ 4 then a ^^^ (a / 2 ^ (10 + swzOf f o) % 32 * 64) else a
  (spaceOf f o = 0 ∧ t = s ∧ l = spadLoc v.c v.t z ∧ z + n ≤ 0xc0000) ∨
    (spaceOf f o = 1 ∧ t = s ∧ z < 2 ^ 29 ∧ z / 2 ^ 23 < s.gangSize v.c ∧ z % 2 ^ 20 + n ≤ 0xc0000 ∧
      ∃ c, s.rankCluster v.c (z / 2 ^ 23) = some c ∧ l = spadLoc c (Fin.ofNat 8 (z / 2 ^ 20)) (z % 2 ^ 20)) ∨
    (spaceOf f o = 2 ∧ t = s ∧ l = accLoc v.c v.t a ∧ a + n ≤ 0x40000) ∨
    (spaceOf f o = 3 ∧ t = s ∧ l = vaultLoc v.c a ∧ a + n ≤ 2 ^ 24 ∧ (s.core v.c).dcache = []) ∨
    (spaceOf f o = 4 ∧ t = s ∧ a < 2 ^ 30 ∧ s.clusterOk (s.ctxOf v.c) (a / 2 ^ 24) = true ∧ a % 2 ^ 24 + n ≤ 2 ^ 24 ∧
      ∃ c, s.physOf (s.ctxOf v.c) (a / 2 ^ 24) = some c ∧ l = vaultLoc c (a % 2 ^ 24)) ∨
    (spaceOf f o = 5 ∧ a < 2 ^ 55 ∧ translateStream s v a (!wr) wr = (t, .ok l))

end Sys2Proof.Machine
end

