-- ==== Sys2Proof/Certificates/Slice0/Obligations.lean ====
section
/-! DEFINITION. The statements about this model: what its words and its steps do, from the numbered rules of the spec. -/

open Sys2Proof Sys2Proof.Machine

/-- R422, R423: before power is applied the island is Off, every compute die is Off and every strand Idle; memory lists
nothing. R45, R272, R279, R321: a gang's start on its clusters. A declared strand runs at its entry with its allotment,
registers zero but the stack pointer, p0 alone true, nothing in flight, queue, loop and repeat registers empty, strand 0 next
in the order; mailboxes hold the argument record and the place in the gang. Conventions of the model: log 1, 2. -/
def Obligations.ResetAndKernelStart : Prop :=
  (State.reset.island = .off ∧ (∀ d, (State.reset.die d).state = .off) ∧ (∀ c k, (State.reset.strand c k).state = .idle) ∧
    State.reset.mem = [] ∧ State.reset.memWf ∧ State.reset.gangs = [] ∧ State.reset.launches = []) ∧
  (∀ (s : State) (g : Gang) (args : List W) (rank : Nat) (m : Member), (g.members.map (·.phys)).Nodup → g.members[rank]? = some m →
    let x := (startGang g args s).core m.phys
    (∀ k : Sn, k.val < g.image.strands →
      let t := x.strand k
      t.state = .run ∧ t.pc = (g.text + BitVec.ofNat 64 ((g.image.entries[k.val]?).getD 0)) &&& ~~~3 ∧
        t.xstatus = BitVec.ofNat 64 (256 * (g.image.allots[k.val]?).getD 0) ∧
        (∀ r : Fin 32, t.regs.get r = if r = 2 then BitVec.ofNat 64 (0xb000000001000000 - k.val * g.image.stack) else 0) ∧
        t.preds = 1 ∧ t.qLive = false ∧ t.flights = [] ∧ t.flq = [] ∧ t.pend = [] ∧ t.loop0 = ⟨0, 0, 0⟩ ∧ t.loop1 = ⟨0, 0, 0⟩ ∧ t.xrep = 0 ∧
        t.xcause = 0 ∧ t.xepc = 0 ∧ t.xtval = 0 ∧ t.xstklim = 0 ∧ t.xfpmode = 0 ∧ t.xfflags = 0 ∧ t.xtmask = 0 ∧ t.xt = 0 ∧ t.xscratch = 0) ∧
      (∀ k : Sn, g.image.strands ≤ k.val → (x.strand k).state = .idle) ∧
      (∀ h, x.handles.get h = Handle.zero) ∧ x.xvalid = 0 ∧ x.xjoin = 0 ∧ x.xgen = 0 ∧ x.xframe = 0 ∧ x.order = [0, 1, 2, 3] ∧
      x.xtbase = g.base + BitVec.ofNat 64 g.image.trapsOff ∧
      ∀ i : Fin 8, x.mbox.get i = if i.val < 7 then (args[i.val]?).getD 0
        else BitVec.ofNat 64 (g.inst * 2 ^ 32 + (g.members.length - 1) * 256 + rank))

/-- R71, R79, R272, R295: when nothing else is due, the strand that the selector picks executes the word at its program
counter: the instruction its bits decode to, an illegal-instruction trap where they decode to none, a fetch fault outside the
text; a picked strand runs. Work that the machine's own state calls for, and what comes from outside, go first (log 4). A word
placed by withFetchWord is the next that executes (log 1). R1, R244: a firmware core's strand goes on when no cluster's does; its
step changes that core alone, and a word of its image executes as on a control core (that it waits for the clusters' turn: log 4;
what a firmware image is and where it starts: log 61, PRESUMED). -/
def Obligations.StepRunsDecodedWord : Prop :=
  (∀ (s : State) c k, s.todo = [] → s.agenda = [] → s.island ≠ .off → s.pick = some (c, k) →
    (s.strand c k).eventDue s.cycle = false →
    ((s.strand c k).state = .run ∨ (s.strand c k).state = .handler) ∧
    ((s.strand c k).inRep = false →
      (∀ w i, fetch s c (s.strand c k).pc = some w → decode w = .ok i → step s = exec i (s.enter c k w)) ∧
      (∀ w e, fetch s c (s.strand c k).pc = some w → decode w = .error e → step s = exec .unassignedEncoding (s.enter c k w)) ∧
      (fetch s c (s.strand c k).pc = none → step s = .next (trapFetch (s.enter c k 0) (s.strand c k).pc))) ∧
    ((s.strand c k).inRep = true → step s = exec .repIteration (s.enter c k 0))) ∧
  (∀ (s : State) w r, s.todo = w :: r → step s = runWork w { s with todo := r }) ∧
  (∀ (s : State) i r, s.todo = [] → s.agenda = i :: r → step s = exec i { s with agenda := r }) ∧
  (∀ s : State, s.todo = [] → s.agenda = [] → s.island ≠ .off → s.pick = none → s.pickCore = none → step s = .next (advance s)) ∧
  (∀ (s : State) f k, s.todo = [] → s.agenda = [] → s.island ≠ .off → s.pick = none → s.pickCore = some (f, k) →
    let x := s.fwCores.get f
    let v := x.strands.get k
    s.coreRuns f = true ∧
    (∃ t, step s = .next t ∧ { t with fwCores := s.fwCores, fresh := s.fresh } = s ∧ ∀ g, g ≠ f → t.fwCores.get g = s.fwCores.get g) ∧
    ∀ (w : BitVec 32) (m : Marks) (d : Sreg) (i : BitVec 18), v.eventDue s.cycle = false → v.inRep = false → v.pc.toNat % 4 = 0 →
      v.pc.toNat + 4 ≤ x.image.length → ofBytes ((x.image.drop v.pc.toNat).take 4) = w.toNat → decode w = .ok (.li m d i) →
      d ≠ 0 → d.toNat < v.allot → ∃ t, step s = .next t ∧ ((t.fwCores.get f).strands.get k).regs.get d.toFin = i.signExtend 64) ∧
  ∀ (s : State) (w : BitVec 32) i, decode w = .ok i → step (s.withFetchWord 32 w.toNat) = exec i ((s.withFetchWord 32 w.toNat).enter 0 0 w)

/-- The model never stops: every instruction answers a next state on a strand that runs, every step of the machine that is no
word on any state, and a step of the machine does when nothing comes from outside; a word's meaning asked for on a strand that
does not run, which no step does, is a fault by name. Conventions of the model: log 7. -/
def Obligations.EveryInstructionAnswers : Prop :=
  (∀ (i : Instr) (s : State), (s.me.state = .run ∨ s.me.state = .handler) → ∃ t, exec i s = .next t) ∧
  (∀ (i : Instr) (s : State), i.isWord = false → i ≠ .repIteration → i ≠ .unassignedEncoding → ∃ t, exec i s = .next t) ∧
  (∀ s : State, s.agenda = [] → ∃ t, step s = .next t) ∧
  ∀ (i : Instr) (s : State), i.isWord = true → s.me.state ≠ .run → s.me.state ≠ .handler → exec i s = .fault .noRunningStrand

/-- R68, R71 to R81: words written out bit by bit from the layouts decode to the instructions they stand for; unassigned codes
are refused. -/
def Obligations.DecodeWorkedWords : Prop :=
  let m : Marks := ⟨false, 0⟩
  decode 0x1c0c02c0 = .ok (.li m 3 0x2c0) ∧ decode 0x200c0000 = .ok (.lih m 3 0) ∧ decode 0x90000003 = .ok (.enter m 3) ∧
    decode 0x48408410 = .ok (.repImm m 4 1 0 1) ∧ decode 0x504040c0 = .ok (.stD m 16 2 0 0) ∧ decode 0x08184000 = .ok (.addi m 6 2 0) ∧
    decode 0x44201003 = .ok (.loopi m false 4 3) ∧ decode 0x4d94c180 = .ok (.ldD ⟨false, 3⟩ 5 6 0 0) ∧
    decode 0x040c6500 = .ok (.add m 3 3 5) ∧ decode 0x90400003 = .ok (.leave m 3) ∧ decode 0x40000003 = .ok (.halt m) ∧
    decode 0x60000482 = .ok (.fence m 9 2) ∧ decode 0x74000005 = .ok (.tmask m 5) ∧ decode 0x741c0000 = .ok (.eissue m 2 0) ∧
    decode 0x64002014 = .ok (.semWait m 0 1 1 4) ∧ decode 0x7420000f = .ok (.efence m 0 false 15) ∧
    decode 0 = .error .unassignedMinor ∧ decode 0x44201000 = .error .loopEndZero

/-- R71 to R81: for every well-formed instruction that has a word, its encoding decodes to it, so no two instructions share a
word and no bit of a field is dropped; and a word decodes only to a well-formed instruction. -/
def Obligations.DecodeEncode : Prop :=
  (∀ i : Instr, i.isWord = true → WellFormed i = true → decode (encode i) = .ok i) ∧
  ∀ (w : BitVec 32) (i : Instr), decode w = .ok i → i.isWord = true ∧ WellFormed i = true

/-- The memory list keeps its canonical form in every step: addresses rise strictly and no entry holds what an unlisted
address reads as, so equal memories are equal data. Conventions of the model: log 3. -/
def Obligations.MemoryCanonicalKept : Prop :=
  ∀ s t : State, s.memWf → step s = .next t → t.memWf

/-- R48, R49, R50, R64, R65, R93: a scalar source without a write in flight reads its register, q while it lives; p0 reads
true, another predicate without a write in flight reads its bit; a source that a write in flight names is a free value.
Conventions of the model: log 5, 10. -/
def Obligations.OperandReads : Prop :=
  ∀ (s : State) (f : Sreg) (p : Preg) (pos : Nat),
    (Readable s f → rd s f pos = s.me.regs.get f.toFin) ∧
    (s.me.regBusy s.cycle f = true → rd s f pos = Config.freeWord s.fresh pos) ∧
    (f = 0 → s.me.qLive = false → rd s f pos = Config.freeWord s.fresh pos) ∧
    rdp s 0 pos = true ∧
    (p ≠ 0 → ReadableP s p → rdp s p pos = s.me.preds.getLsbD p.toNat) ∧
    (p ≠ 0 → s.me.predBusy s.cycle p = true → rdp s p pos = Config.freeBool s.fresh pos)

/-- R96: sums, differences, logic and shifts write their result with bound 1 and nothing else. A shift counts by the low six
bits of y. R96: products: the low half, and the high half of the signed and of the unsigned product, with bound 3. Codes of
alu3 beyond 0x16 are unassigned. R96: division truncates towards zero and saturates; a zero divisor gives the limit with the
dividend's sign, and a zero remainder; none of it traps. Bound 34. R96: the smaller and the larger, signed and unsigned, with
bound 1. R96: clz, ctz and popc write a count n with bound 1: the leading zero bits, the trailing zero bits, the one bits of
x; 64 zero bits when x is 0.
Completes: add, sub, mul, mulh, mulhu, div, divu, rem, remu, and, or, xor, andn, shl, shr, sra, min, max, minu, maxu, clz,
ctz, popc. -/
def Obligations.AluWords : Prop :=
  (∀ (m : Marks) (d a b : Sreg),
    WritesReg (.add m d a b) [d.toNat, a.toNat, b.toNat] d (fun s => rd s a 1 + rd s b 2) 1 (fun _ => none) ∧
    WritesReg (.sub m d a b) [d.toNat, a.toNat, b.toNat] d (fun s => rd s a 1 - rd s b 2) 1 (fun _ => none) ∧
    WritesReg (.and m d a b) [d.toNat, a.toNat, b.toNat] d (fun s => rd s a 1 &&& rd s b 2) 1 (fun _ => none) ∧
    WritesReg (.or m d a b) [d.toNat, a.toNat, b.toNat] d (fun s => rd s a 1 ||| rd s b 2) 1 (fun _ => none) ∧
    WritesReg (.xor m d a b) [d.toNat, a.toNat, b.toNat] d (fun s => rd s a 1 ^^^ rd s b 2) 1 (fun _ => none) ∧
    WritesReg (.andn m d a b) [d.toNat, a.toNat, b.toNat] d (fun s => rd s a 1 &&& ~~~rd s b 2) 1 (fun _ => none) ∧
    WritesReg (.shl m d a b) [d.toNat, a.toNat, b.toNat] d
      (fun s => BitVec.ofNat 64 ((rd s a 1).toNat * 2 ^ ((rd s b 2).toNat % 64))) 1 (fun _ => none) ∧
    WritesReg (.shr m d a b) [d.toNat, a.toNat, b.toNat] d
      (fun s => BitVec.ofNat 64 ((rd s a 1).toNat / 2 ^ ((rd s b 2).toNat % 64))) 1 (fun _ => none) ∧
    WritesReg (.sra m d a b) [d.toNat, a.toNat, b.toNat] d
      (fun s => BitVec.ofInt 64 ((rd s a 1).toInt / 2 ^ ((rd s b 2).toNat % 64))) 1 (fun _ => none)) ∧
  ((∀ w : BitVec 32, w.toNat / 2 ^ 26 = 0x01 → 0x17 ≤ w.toNat % 2 ^ 8 → decode w = .error .unassignedMinor) ∧
  ∀ (m : Marks) (d a b : Sreg),
    WritesReg (.mul m d a b) [d.toNat, a.toNat, b.toNat] d
      (fun s => BitVec.ofNat 64 ((rd s a 1).toNat * (rd s b 2).toNat)) 3 (fun _ => none) ∧
    WritesReg (.mulh m d a b) [d.toNat, a.toNat, b.toNat] d
      (fun s => BitVec.ofInt 64 ((rd s a 1).toInt * (rd s b 2).toInt / 2 ^ 64)) 3 (fun _ => none) ∧
    WritesReg (.mulhu m d a b) [d.toNat, a.toNat, b.toNat] d
      (fun s => BitVec.ofNat 64 ((rd s a 1).toNat * (rd s b 2).toNat / 2 ^ 64)) 3 (fun _ => none)) ∧
  (∀ (m : Marks) (d a b : Sreg),
    WritesReg (.div m d a b) [d.toNat, a.toNat, b.toNat] d
      (fun s =>
        let x := (rd s a 1).toInt
        let y := (rd s b 2).toInt
        if y = 0 then (if 0 < x then 0x7fffffffffffffff else if x < 0 then 0x8000000000000000 else 0)
        else BitVec.ofInt 64 (min (2 ^ 63 - 1) (max (-(2 ^ 63)) (x.tdiv y)))) 34 (fun _ => none) ∧
    WritesReg (.divu m d a b) [d.toNat, a.toNat, b.toNat] d
      (fun s =>
        let x := (rd s a 1).toNat
        let y := (rd s b 2).toNat
        if y = 0 then (if x = 0 then 0 else 0xffffffffffffffff) else BitVec.ofNat 64 (x / y)) 34 (fun _ => none) ∧
    WritesReg (.rem m d a b) [d.toNat, a.toNat, b.toNat] d
      (fun s =>
        let x := (rd s a 1).toInt
        let y := (rd s b 2).toInt
        if y = 0 then 0 else BitVec.ofInt 64 (x - y * x.tdiv y)) 34 (fun _ => none) ∧
    WritesReg (.remu m d a b) [d.toNat, a.toNat, b.toNat] d
      (fun s =>
        let x := (rd s a 1).toNat
        let y := (rd s b 2).toNat
        if y = 0 then 0 else BitVec.ofNat 64 (x % y)) 34 (fun _ => none)) ∧
  (∀ (m : Marks) (d a b : Sreg),
    WritesReg (.min m d a b) [d.toNat, a.toNat, b.toNat] d
      (fun s => BitVec.ofInt 64 (min (rd s a 1).toInt (rd s b 2).toInt)) 1 (fun _ => none) ∧
    WritesReg (.max m d a b) [d.toNat, a.toNat, b.toNat] d
      (fun s => BitVec.ofInt 64 (max (rd s a 1).toInt (rd s b 2).toInt)) 1 (fun _ => none) ∧
    WritesReg (.minu m d a b) [d.toNat, a.toNat, b.toNat] d
      (fun s => BitVec.ofNat 64 (min (rd s a 1).toNat (rd s b 2).toNat)) 1 (fun _ => none) ∧
    WritesReg (.maxu m d a b) [d.toNat, a.toNat, b.toNat] d
      (fun s => BitVec.ofNat 64 (max (rd s a 1).toNat (rd s b 2).toNat)) 1 (fun _ => none)) ∧
  (∀ (m : Marks) (d a : Sreg),
    (∃ n : W → Nat, WritesReg (.clz m d a) [d.toNat, a.toNat] d (fun s => BitVec.ofNat 64 (n (rd s a 1))) 1 (fun _ => none) ∧
      ∀ x : W, n x ≤ 64 ∧ x.toNat < 2 ^ (64 - n x) ∧ (x ≠ 0 → 2 ^ (63 - n x) ≤ x.toNat ∧ n x < 64) ∧ (x = 0 → n x = 64)) ∧
    (∃ n : W → Nat, WritesReg (.ctz m d a) [d.toNat, a.toNat] d (fun s => BitVec.ofNat 64 (n (rd s a 1))) 1 (fun _ => none) ∧
      ∀ x : W, n x ≤ 64 ∧ (∀ i, i < n x → x.getLsbD i = false) ∧ (x ≠ 0 → x.getLsbD (n x) = true) ∧ (x = 0 → n x = 64)) ∧
    WritesReg (.popc m d a) [d.toNat, a.toNat] d
      (fun s => BitVec.ofNat 64 (((List.range 64).map fun i => ((rd s a 1).getLsbD i).toNat).sum)) 1 (fun _ => none))

/-- R98: the immediate forms, with bound 1: a 13-bit immediate is sign-extended; li sign-extends 18 bits; lih shifts its
destination left by 18 and puts its 18 bits below; a d of lih at or beyond the allotment is the allotment trap of R47.
Completes: addi, andi, ori, xori, shli, shri, srai, li, lih. -/
def Obligations.ImmediateWords : Prop :=
  ∀ (m : Marks) (d a : Sreg) (i : BitVec 13) (sh : BitVec 6) (j : BitVec 18),
    WritesReg (.addi m d a i) [d.toNat, a.toNat] d
      (fun s => BitVec.ofInt 64 ((rd s a 1).toInt + i.toInt)) 1 (fun _ => none) ∧
    WritesReg (.andi m d a i) [d.toNat, a.toNat] d (fun s => rd s a 1 &&& BitVec.ofInt 64 i.toInt) 1 (fun _ => none) ∧
    WritesReg (.ori m d a i) [d.toNat, a.toNat] d (fun s => rd s a 1 ||| BitVec.ofInt 64 i.toInt) 1 (fun _ => none) ∧
    WritesReg (.xori m d a i) [d.toNat, a.toNat] d (fun s => rd s a 1 ^^^ BitVec.ofInt 64 i.toInt) 1 (fun _ => none) ∧
    WritesReg (.shli m d a sh) [d.toNat, a.toNat] d
      (fun s => BitVec.ofNat 64 ((rd s a 1).toNat * 2 ^ sh.toNat)) 1 (fun _ => none) ∧
    WritesReg (.shri m d a sh) [d.toNat, a.toNat] d
      (fun s => BitVec.ofNat 64 ((rd s a 1).toNat / 2 ^ sh.toNat)) 1 (fun _ => none) ∧
    WritesReg (.srai m d a sh) [d.toNat, a.toNat] d
      (fun s => BitVec.ofInt 64 ((rd s a 1).toInt / 2 ^ sh.toNat)) 1 (fun _ => none) ∧
    WritesReg (.li m d j) [d.toNat] d (fun _ => BitVec.ofInt 64 j.toInt) 1 (fun _ => none) ∧
    WritesReg (.lih m d j) [d.toNat] d
      (fun s => BitVec.ofNat 64 ((rd s d 0).toNat * 2 ^ 18 + j.toNat)) 1 (fun _ => none) ∧
    ∀ s, Runs s → s.me.allot ≤ d.toNat → Traps (.lih m d j) s 0x02 (d.setWidth 16) (s.cur.word.setWidth 64)

/-- R100: bfx takes L = len + 1 bits at pos, zero-extended; bfi puts the low L bits of a at pos of d; sel takes a or b by a
predicate against its sense, read at issue; madd adds c to the product of a and b. Bound 1, madd's 3. The field ends at bit 63
at most, or the word is no instruction.
Completes: bfx, bfi, sel, madd. -/
def Obligations.FieldSelectMaddWords : Prop :=
  ∀ (m : Marks) (d a b c : Sreg) (pos len : BitVec 6) (p : Preg) (sense : Bool),
    WritesReg (.bfx m d a pos len) [d.toNat, a.toNat] d
      (fun s => BitVec.ofNat 64 ((rd s a 1).toNat / 2 ^ pos.toNat % 2 ^ (len.toNat + 1))) 1 (fun _ => none) ∧
    (pos.toNat + len.toNat + 1 ≤ 64 →
      WritesReg (.bfi m d a pos len) [d.toNat, a.toNat] d
        (fun s => BitVec.ofNat 64 (setBits (rd s d 0).toNat pos.toNat (len.toNat + 1) (rd s a 1).toNat)) 1 (fun _ => none)) ∧
    WritesReg (.sel m d a b p sense) [d.toNat, a.toNat, b.toNat] d
      (fun s => if (rdp s p 4 ^^ sense) = true then rd s a 1 else rd s b 2) 1 (fun _ => none) ∧
    WritesReg (.madd m d a b c) [d.toNat, a.toNat, b.toNat, c.toNat] d
      (fun s => BitVec.ofNat 64 ((rd s a 1).toNat * (rd s b 2).toNat + (rd s c 3).toNat)) 3 (fun _ => none)

/-- R102: the twelve compares write their predicate with bound 1; an immediate is sign-extended from 10 bits, for the unsigned
conditions too; p0 is not written, and its word checks its fields and issues as any other. Codes 6 and above are unassigned.
Completes: cmpEq, cmpNe, cmpLt, cmpGe, cmpLtu, cmpGeu, cmpiEq, cmpiNe, cmpiLt, cmpiGe, cmpiLtu, cmpiGeu. -/
def Obligations.CompareWords : Prop :=
  (∀ w : BitVec 32, (w.toNat / 2 ^ 26 = 0x09 ∧ 6 ≤ w.toNat % 2 ^ 8) ∨ (w.toNat / 2 ^ 26 = 0x0a ∧ 6 ≤ w.toNat / 2 ^ 10 % 2 ^ 3) →
    decode w = .error .unassignedMinor) ∧
  ∀ (m : Marks) (p : Preg) (a b : Sreg) (i : BitVec 10),
    WritesPred (.cmpEq m p a b) [a.toNat, b.toNat] p (fun s => decide (rd s a 1 = rd s b 2)) 1 (fun _ => none) ∧
    WritesPred (.cmpNe m p a b) [a.toNat, b.toNat] p (fun s => decide (rd s a 1 ≠ rd s b 2)) 1 (fun _ => none) ∧
    WritesPred (.cmpLt m p a b) [a.toNat, b.toNat] p (fun s => decide ((rd s a 1).toInt < (rd s b 2).toInt)) 1 (fun _ => none) ∧
    WritesPred (.cmpGe m p a b) [a.toNat, b.toNat] p (fun s => decide ((rd s b 2).toInt ≤ (rd s a 1).toInt)) 1 (fun _ => none) ∧
    WritesPred (.cmpLtu m p a b) [a.toNat, b.toNat] p (fun s => decide ((rd s a 1).toNat < (rd s b 2).toNat)) 1 (fun _ => none) ∧
    WritesPred (.cmpGeu m p a b) [a.toNat, b.toNat] p (fun s => decide ((rd s b 2).toNat ≤ (rd s a 1).toNat)) 1 (fun _ => none) ∧
    WritesPred (.cmpiEq m p a i) [a.toNat] p (fun s => decide ((rd s a 1).toInt = i.toInt)) 1 (fun _ => none) ∧
    WritesPred (.cmpiNe m p a i) [a.toNat] p (fun s => decide ((rd s a 1).toInt ≠ i.toInt)) 1 (fun _ => none) ∧
    WritesPred (.cmpiLt m p a i) [a.toNat] p (fun s => decide ((rd s a 1).toInt < i.toInt)) 1 (fun _ => none) ∧
    WritesPred (.cmpiGe m p a i) [a.toNat] p (fun s => decide (i.toInt ≤ (rd s a 1).toInt)) 1 (fun _ => none) ∧
    WritesPred (.cmpiLtu m p a i) [a.toNat] p
      (fun s => decide ((rd s a 1).toNat < (BitVec.ofInt 64 i.toInt).toNat)) 1 (fun _ => none) ∧
    WritesPred (.cmpiGeu m p a i) [a.toNat] p
      (fun s => decide ((BitVec.ofInt 64 i.toInt).toNat ≤ (rd s a 1).toNat)) 1 (fun _ => none)

/-- R50, R103: the predicate operations with bound 1; psave gathers the eight predicates, bit 0 always 1; pload sets p1 to p7
from bits 7:1 and leaves p0.
Completes: pand, por, pxor, pandn, pmov, psave, pload. -/
def Obligations.PredicateWords : Prop :=
  ∀ (m : Marks) (d a b : Preg) (r : Sreg),
    WritesPred (.pand m d a b) [] d (fun s => rdp s a 1 && rdp s b 2) 1 (fun _ => none) ∧
    WritesPred (.por m d a b) [] d (fun s => rdp s a 1 || rdp s b 2) 1 (fun _ => none) ∧
    WritesPred (.pxor m d a b) [] d (fun s => rdp s a 1 ^^ rdp s b 2) 1 (fun _ => none) ∧
    WritesPred (.pandn m d a b) [] d (fun s => rdp s a 1 && !rdp s b 2) 1 (fun _ => none) ∧
    WritesPred (.pmov m d a) [] d (fun s => rdp s a 1) 1 (fun _ => none) ∧
    (∃ v : State → W, WritesReg (.psave m r) [r.toNat] r v 1 (fun _ => none) ∧
      ∀ s, (v s).getLsbD 0 = true ∧ (∀ i : Preg, (v s).getLsbD i.toNat = rdp s i i.toNat) ∧ ∀ i, 8 ≤ i → (v s).getLsbD i = false) ∧
    (∀ s, Runs s → Fits s [r.toNat] → ∃ t, exec (.pload m r) s = .next t ∧
      (∀ i, 1 ≤ i → i < 8 → t.me.preds.getLsbD i = (rd s r 1).getLsbD i) ∧
      t.me.flights = s.me.flights ++ [⟨.preds 0xfe, s.cycle + 1, none, s.cycle⟩] ∧ PredFrame s t 0xfe)

/-- R63, R106: the FP32 words read the low halves of their sources, round the exact result once in the mode in force and write
it with an upper half of zero; its flags land with it. R106 Table 9: the special cases of the FP32 words: NaN operands,
infinities, zero divisors, negative roots. R18, R27: a code of FP32 that is no NaN rounds to itself in every rounding mode and
raises no flag; so what a word reads and writes back unchanged is never altered by the one rounding.
Completes: fadd, fsub, fmul, fdiv, fsqrt, fma. -/
def Obligations.FpArithmeticWords : Prop :=
  (∀ (m : Marks) (d a b c : Sreg),
    let x : State → XVal := fun s => fp32.decode ((rd s a 1).toNat % 2 ^ 32)
    let y : State → XVal := fun s => fp32.decode ((rd s b 2).toNat % 2 ^ 32)
    let z : State → XVal := fun s => fp32.decode ((rd s c 3).toNat % 2 ^ 32)
    let sum : State → W × FlagSet := fun s => fround (rmNow s) (nvAdd (x s) (y s)) ((x s).add (rmNow s) (y s))
    let dif : State → W × FlagSet := fun s => fround (rmNow s) (nvAdd (x s) (y s).neg) ((x s).add (rmNow s) (y s).neg)
    let pro : State → W × FlagSet := fun s => fround (rmNow s) { nv := nvMul (x s) (y s) } ((x s).mul (y s))
    let quo : State → W × FlagSet := fun s => fround (rmNow s) (nvDiv (x s) (y s)) ((x s).div (y s))
    let rot : State → W × FlagSet := fun s => fround (rmNow s) (nvSqrt (x s)) (x s).sqrt
    let fus : State → W × FlagSet := fun s => fround (rmNow s) (nvFma (x s) (y s) (z s)) (((x s).mul (y s)).add (rmNow s) (z s))
    WritesReg (.fadd m d a b) [d.toNat, a.toNat, b.toNat] d (fun s => (sum s).1) 4 (fun s => some (sum s).2.bits) ∧
    WritesReg (.fsub m d a b) [d.toNat, a.toNat, b.toNat] d (fun s => (dif s).1) 4 (fun s => some (dif s).2.bits) ∧
    WritesReg (.fmul m d a b) [d.toNat, a.toNat, b.toNat] d (fun s => (pro s).1) 4 (fun s => some (pro s).2.bits) ∧
    WritesReg (.fdiv m d a b) [d.toNat, a.toNat, b.toNat] d (fun s => (quo s).1) 16 (fun s => some (quo s).2.bits) ∧
    WritesReg (.fsqrt m d a) [d.toNat, a.toNat] d (fun s => (rot s).1) 18 (fun s => some (rot s).2.bits) ∧
    WritesReg (.fma m d a b c) [d.toNat, a.toNat, b.toNat, c.toNat] d (fun s => (fus s).1) 4 (fun s => some (fus s).2.bits) ∧
    (∀ s, rmNow s = if s.me.xfpmode.toNat ≤ 4 then s.me.xfpmode.toNat else 0) ∧
    (∀ rm pre v, (fround rm pre v).1.toNat < 2 ^ 32)) ∧
  (∀ (rm : Nat) (x y z : XVal) (s t : Bool) (n k : Nat),
    let nan : W := 0x7fc00000
    let inf (neg : Bool) : W := if neg then 0xff800000 else 0x7f800000
    let zero (neg : Bool) : W := if neg then 0x80000000 else 0
    (x.isNan ∨ y.isNan →
      fround rm (nvAdd x y) (x.add rm y) = (nan, .none) ∧ fround rm { nv := nvMul x y } (x.mul y) = (nan, .none) ∧
      fround rm (nvDiv x y) (x.div y) = (nan, .none)) ∧
    (x.isNan → fround rm (nvSqrt x) x.sqrt = (nan, .none)) ∧
    (x.isNan ∨ y.isNan ∨ z.isNan → (nvFma x y z).nv = false → fround rm (nvFma x y z) ((x.mul y).add rm z) = (nan, .none)) ∧
    (x.isNan ∨ y.isNan ∨ z.isNan → ¬(x.isZero ∧ y.isInf) → ¬(x.isInf ∧ y.isZero) → nvFma x y z = .none) ∧
    fround rm (nvAdd (.inf s) (.inf !s)) ((XVal.inf s).add rm (.inf !s)) = (nan, { nv := true }) ∧
    fround rm (nvAdd (.inf s) (.inf s)) ((XVal.inf s).add rm (.inf s)) = (inf s, .none) ∧
    (x.isZero → fround rm { nv := nvMul x (.inf t) } (x.mul (.inf t)) = (nan, { nv := true }) ∧
      fround rm { nv := nvMul (.inf t) x } ((XVal.inf t).mul x) = (nan, { nv := true })) ∧
    (x.isZero → y.isZero → fround rm (nvDiv x y) (x.div y) = (nan, { nv := true })) ∧
    fround rm (nvDiv (.inf s) (.inf t)) ((XVal.inf s).div (.inf t)) = (nan, { nv := true }) ∧
    (n ≠ 0 → y.isZero → fround rm (nvDiv (.fin s n k) y) ((XVal.fin s n k).div y) = (inf (s != y.sign), { dz := true })) ∧
    fround rm (nvDiv (.inf s) (.fin t n k)) ((XVal.inf s).div (.fin t n k)) = (inf (s != t), .none) ∧
    fround rm (nvDiv (.fin s n k) (.inf t)) ((XVal.fin s n k).div (.inf t)) = (zero (s != t), .none) ∧
    (n ≠ 0 → fround rm (nvSqrt (.fin true n k)) (XVal.fin true n k).sqrt = (nan, { nv := true })) ∧
    fround rm (nvSqrt (.inf true)) (XVal.inf true).sqrt = (nan, { nv := true }) ∧
    fround rm (nvSqrt (.fin s 0 k)) (XVal.fin s 0 k).sqrt = (zero s, .none) ∧
    fround rm (nvSqrt (.inf false)) (XVal.inf false).sqrt = (inf false, .none) ∧
    (x.isZero → fround rm (nvFma x (.inf t) z) ((x.mul (.inf t)).add rm z) = (nan, { nv := true }) ∧
      fround rm (nvFma (.inf t) x z) (((XVal.inf t).mul x).add rm z) = (nan, { nv := true })) ∧
    (x.mul y = .inf s → fround rm (nvFma x y (.inf !s)) ((x.mul y).add rm (.inf !s)) = (nan, { nv := true }))) ∧
  (∀ (rm c : Nat), c < 2 ^ 32 → (fp32.decode c).isNan = false →
    roundTo fp32 rm 0 false (fp32.decode c) = (c, .none))

/-- R20, R63, R107, R108: fabs, fneg, fsgnj, fmin, fmax and fclass work on bits and set no flag; a NaN operand of the first
five gives the one NaN. R63, R109: fcmp writes its predicate with bound 4: equal, less, less or equal, unordered; a NaN makes
the first three false; zeros are equal. It lands no flag. R32, R33, R63, R111: the conversions round in the mode their word
names. An integer that FP32 cannot hold exactly rounds; a value outside the integers' range gives the nearest limit, NaN gives
0, both with NV; BF16 widens exactly.
Completes: fmin, fmax, fabs, fneg, fsgnj, fclass, fcmpEq, fcmpLt, fcmpLe, fcmpUn, cvtIF, cvtFI, cvtFBf, cvtBfF. -/
def Obligations.FpSignCompareConvertWords : Prop :=
  (∀ (m : Marks) (d a b : Sreg),
    let isNan (x : W) : Bool := decide (0x7f800000 < x.toNat % 2 ^ 31)
    let val (x : W) : XVal := fp32.decode (x.toNat % 2 ^ 32)
    let below (x y : W) : Bool := (val x).lt (val y) || ((val x).isZero && (val y).isZero && x.getLsbD 31 && !y.getLsbD 31)
    let low (x : W) (sg : Bool) : W := BitVec.ofNat 64 (x.toNat % 2 ^ 31 + if sg then 2 ^ 31 else 0)
    WritesReg (.fabs m d a) [d.toNat, a.toNat] d
      (fun s => if isNan (rd s a 1) then 0x7fc00000 else low (rd s a 1) false) 4 (fun _ => some 0) ∧
    WritesReg (.fneg m d a) [d.toNat, a.toNat] d
      (fun s => if isNan (rd s a 1) then 0x7fc00000 else low (rd s a 1) (!(rd s a 1).getLsbD 31)) 4 (fun _ => some 0) ∧
    WritesReg (.fsgnj m d a b) [d.toNat, a.toNat, b.toNat] d
      (fun s => if isNan (rd s a 1) then 0x7fc00000 else low (rd s a 1) ((rd s b 2).getLsbD 31)) 4 (fun _ => some 0) ∧
    WritesReg (.fmin m d a b) [d.toNat, a.toNat, b.toNat] d
      (fun s => if isNan (rd s a 1) || isNan (rd s b 2) then 0x7fc00000
        else if below (rd s b 2) (rd s a 1) then low (rd s b 2) ((rd s b 2).getLsbD 31)
        else low (rd s a 1) ((rd s a 1).getLsbD 31)) 4 (fun _ => some 0) ∧
    WritesReg (.fmax m d a b) [d.toNat, a.toNat, b.toNat] d
      (fun s => if isNan (rd s a 1) || isNan (rd s b 2) then 0x7fc00000
        else if below (rd s a 1) (rd s b 2) then low (rd s b 2) ((rd s b 2).getLsbD 31)
        else low (rd s a 1) ((rd s a 1).getLsbD 31)) 4 (fun _ => some 0) ∧
    ∃ f : W → W, WritesReg (.fclass m d a) [d.toNat, a.toNat] d (fun s => f (rd s a 1)) 4 (fun _ => some 0) ∧
      ∀ x : W, (f x).toNat < 2 ^ 16 ∧ bits (f x).toNat 5 3 = 0 ∧ bits (f x).toNat 8 8 = bits x.toNat 23 8 ∧
        (f x).getLsbD 3 = x.getLsbD 31 ∧
        bits (f x).toNat 0 3 =
          (if bits x.toNat 23 8 = 255 then (if bits x.toNat 0 23 = 0 then 3 else 4)
           else if bits x.toNat 23 8 = 0 then (if bits x.toNat 0 23 = 0 then 0 else 1) else 2) ∧
        ((f x).getLsbD 4 = true ↔ ∃ sg n k, val x = .fin sg n k ∧ k ∣ n)) ∧
  (∀ (m : Marks) (p : Preg) (a b : Sreg),
    let x : State → XVal := fun s => fp32.decode ((rd s a 1).toNat % 2 ^ 32)
    let y : State → XVal := fun s => fp32.decode ((rd s b 2).toNat % 2 ^ 32)
    WritesPred (.fcmpEq m p a b) [a.toNat, b.toNat] p (fun s => (x s).eqv (y s)) 4 (fun _ => some 0) ∧
    WritesPred (.fcmpLt m p a b) [a.toNat, b.toNat] p (fun s => (x s).lt (y s)) 4 (fun _ => some 0) ∧
    WritesPred (.fcmpLe m p a b) [a.toNat, b.toNat] p (fun s => (x s).lt (y s) || (x s).eqv (y s)) 4 (fun _ => some 0) ∧
    WritesPred (.fcmpUn m p a b) [a.toNat, b.toNat] p (fun s => (x s).isNan || (y s).isNan) 4 (fun _ => some 0) ∧
    (∀ u v : XVal, u.isNan ∨ v.isNan → u.eqv v = false ∧ u.lt v = false) ∧
    (∀ u v : XVal, u.isZero → v.isZero → u.eqv v = true ∧ u.lt v = false) ∧
    (∀ s n k t i j, (XVal.fin s n k).lt (.fin t i j) = decide (sgnNum s n * j < sgnNum t i * k)) ∧
    (∀ s n k, (XVal.inf s).lt (.fin s n k) = s ∧ (XVal.fin s n k).lt (.inf s) = !s)) ∧
  (∀ (m : Marks) (d a : Sreg) (u : Bool) (rm : BitVec 3),
    let x : State → XVal := fun s => fp32.decode ((rd s a 1).toNat % 2 ^ 32)
    let int : State → Int := fun s => if u then ((rd s a 1).toNat : Int) else (rd s a 1).toInt
    let fr : State → Nat × FlagSet := fun s => roundTo fp32 rm.toNat 0 false (.fin (int s < 0) (int s).natAbs 1)
    let bf : State → Nat × FlagSet := fun s => roundTo bf16 rm.toNat 0 false (x s)
    let lo : Int := if u then 0 else -(2 ^ 63)
    let hi : Int := if u then 2 ^ 64 - 1 else 2 ^ 63 - 1
    WritesReg (.cvtIF m d a u rm) [d.toNat, a.toNat] d (fun s => BitVec.ofNat 64 (fr s).1) 4
      (fun s => some { (fr s).2 with nv := false, dz := false }.bits) ∧
    WritesReg (.cvtFBf m d a rm) [d.toNat, a.toNat] d (fun s => BitVec.ofNat 64 (bf s).1) 4 (fun s => some (bf s).2.bits) ∧
    (∃ f : XVal → W × FlagSet,
      WritesReg (.cvtFI m d a u rm) [d.toNat, a.toNat] d (fun s => (f (x s)).1) 4 (fun s => some (f (x s)).2.bits) ∧
      (∀ neg, f (.nan neg) = (0, { nv := true })) ∧
      (∀ neg, f (.inf neg) = (BitVec.ofInt 64 (if neg then lo else hi), { nv := true })) ∧
      ∀ neg n k, let r := roundInt rm.toNat 0 neg n k
        f (.fin neg n k) = if r.1 < lo then (BitVec.ofInt 64 lo, { nv := true })
          else if hi < r.1 then (BitVec.ofInt 64 hi, { nv := true }) else (BitVec.ofInt 64 r.1, { nx := r.2 })) ∧
    (∃ f : W → W,
      WritesReg (.cvtBfF m d a rm) [d.toNat, a.toNat] d (fun s => f (rd s a 1)) 4 (fun _ => some 0) ∧
      ∀ w : W, f w = if 0x7f80 < w.toNat % 2 ^ 15 then (if w.getLsbD 15 then 0xffc00000 else 0x7fc00000)
        else BitVec.ofNat 64 (w.toNat % 2 ^ 16 * 2 ^ 16)))

/-- R113, R118: the transfers. br goes when its predicate differs from its sense; displacements count words; a register target
loses its two low bits and is read before ra is written; a taken transfer skips the end-of-body check. R63, R124: enter lowers
sp by 16 n when the exact result is not below xstklim, else it takes the stack-limit trap with that result modulo 2^64; leave
raises sp by 16 n, modulo 2^64.
Completes: br, jmp, call, jmpr, callr, ret, enter, leave. -/
def Obligations.TransferAndFrameWords : Prop :=
  (∀ (m : Marks) (p : Preg) (sense : Bool) (near : BitVec 19) (far : BitVec 22) (a : Sreg),
    (∀ s, Runs s → s.me.inRep = false → ∃ t, exec (.br m p sense near) s = .next t ∧ FlowFrame s t ∧
      t.me.place = if (rdp s p 1 ^^ sense) = true
        then (s.me.pc + BitVec.ofInt 64 (4 * near.toInt), s.me.loop0.count, s.me.loop1.count)
        else bodyEnd s.me s.me.pc (s.me.pc + 4)) ∧
    Transfers (.jmp m far) [] (fun s => s.me.pc + BitVec.ofInt 64 (4 * far.toInt)) ∧
    Transfers (.jmpr m a) [a.toNat] (fun s => rd s a 1 &&& ~~~3) ∧
    Transfers (.ret m) [] (fun s => rd s 1 1 &&& ~~~3) ∧
    (∀ s, Runs s → s.me.inRep = false → ∃ t, exec (.call m far) s = .next t ∧
      t.me.place = (s.me.pc + BitVec.ofInt 64 (4 * far.toInt), s.me.loop0.count, s.me.loop1.count) ∧
      t.me.regs.get 1 = s.me.pc + 4 ∧ t.me.flights = s.me.flights ++ [⟨.reg 1, s.cycle + 1, none, s.cycle⟩] ∧ RegFrame s t 1) ∧
    (∀ s, Runs s → Fits s [a.toNat] → s.me.inRep = false → ∃ t, exec (.callr m a) s = .next t ∧
      t.me.place = (rd s a 1 &&& ~~~3, s.me.loop0.count, s.me.loop1.count) ∧
      t.me.regs.get 1 = s.me.pc + 4 ∧ t.me.flights = s.me.flights ++ [⟨.reg 1, s.cycle + 1, none, s.cycle⟩] ∧ RegFrame s t 1)) ∧
  (∀ (m : Marks) (n : BitVec 18) (s : State), Runs s →
    let new : Int := (rd s 2 1).toNat - 16 * n.toNat
    ((s.me.xstklim.toNat : Int) ≤ new → ∃ t, exec (.enter m n) s = .next t ∧
      (t.me.regs.get 2).toNat = new ∧ t.me.flights = s.me.flights ++ [⟨.reg 2, s.cycle + 1, none, s.cycle⟩] ∧ RegFrame s t 2) ∧
    (new < s.me.xstklim.toNat → Traps (.enter m n) s 0x03 0 (BitVec.ofInt 64 new)) ∧
    ∃ t, exec (.leave m n) s = .next t ∧ t.me.regs.get 2 = rd s 2 1 + BitVec.ofNat 64 (16 * n.toNat) ∧
      t.me.flights = s.me.flights ++ [⟨.reg 2, s.cycle + 1, none, s.cycle⟩] ∧ RegFrame s t 2)

/-- R80, R117: nop and the words of the hint region do nothing but go on; behind them, as behind every plain word that writes
a register or a predicate, the end-of-body check of both loop levels is made, level 1 first. R114, R328: halt and done halt
their strand at every level and take its unpopped results; registers, accesses under way and memory stand; a pending phase of
a barrier of its gang that lacks no other strand completes (R151; that it is tested at the halt, with arrivals at least the participants:
log 18, DEDUCED), but for b15 while a node-boundary request waits (log 67); traps that still wait for the strand go to the lowest
other strand in Run, in order, or else into the record of events (R186); done records that the cluster has executed it. R68, R69, R70, R272: what the issue of a word with its marks does to its strand: it counts for
the transient, its gap holds the next word for 1 or 2 cycles or until the latest bound in flight; a Z mark waits for the
strands of the mask. Conventions of the model: log 8.
Completes: nop, halt, taskDone, hint. -/
def Obligations.PlainWordsAndHalts : Prop :=
  (∀ (m : Marks) (h : BitVec 2) (v : BitVec 23) (d a b : Sreg) (p : Preg),
    GoesOn (.nop m) [] ∧ GoesOn (.hint m h v) [] ∧
    (∀ s, Runs s → Fits s [d.toNat, a.toNat, b.toNat] → s.me.inRep = false →
      ∃ t u, exec (.add m d a b) s = .next t ∧ t.me.place = bodyEnd s.me s.me.pc (s.me.pc + 4) ∧
        exec (.cmpEq m p a b) s = .next u ∧ u.me.place = bodyEnd s.me s.me.pc (s.me.pc + 4))) ∧
  (∀ (m : Marks) (s : State), Runs s → s.me.asyncs = [] → s.me.wait = none →
    let ends (t : State) : Prop := t.me.state = .halted ∧ t.me.flq = [] ∧ t.me.regs = s.me.regs ∧ t.me.preds = s.me.preds ∧
      t.me.pend = s.me.pend ∧ t.me.flights = s.me.flights ∧ t.me.xstatus = s.me.xstatus ∧ t.me.pc = s.me.pc ∧
      { t with cores := s.cores, fresh := s.fresh, gangs := s.gangs } = s ∧ sameClusters s t ∧ sameStrands s t ∧
      t.gangs = match s.gangOf s.cur.c with
        | some g => s.gangs.map fun y => if y.id = g.id then
            let bar (b : Fin 16) : Barrier :=
              let x := y.bars.get b
              if ¬(b = 15 ∧ g.preempt = some .node) ∧ x.arrived ≠ [] ∧ participants t g ≤ x.arrived.length then ⟨x.phase + 1, []⟩ else x
            { y with bars := Vector.ofFn bar }
          else y
        | none => s.gangs
    (∃ t, exec (.halt m) s = .next t ∧ ends t ∧ t.myCore.didDone = s.myCore.didDone) ∧
    (∃ t, exec (.taskDone m) s = .next t ∧ ends t ∧ t.myCore.didDone = true)) ∧
  (∀ (m : Marks) (s : State), Runs s → s.me.wait = none →
    ∃ t, exec (.halt m) s = .next t ∧ t.me.state = .halted ∧ t.me.asyncs = [] ∧
      (∀ j, j ≠ s.cur.k → (s.strand s.cur.c j).state = .run → (∀ i, i < j → i ≠ s.cur.k → (s.strand s.cur.c i).state ≠ .run) →
        (t.strand s.cur.c j).asyncs = (s.strand s.cur.c j).asyncs ++ s.me.asyncs ∧ t.myCore.events = s.myCore.events) ∧
      ((∀ j, j ≠ s.cur.k → (s.strand s.cur.c j).state ≠ .run) → t.myCore.events = s.myCore.events ++ s.me.asyncs.map fun a =>
        ⟨s.cycle, s.cur.k, a.code.setWidth 64 ||| (a.detail.setWidth 64 <<< 16), 0, a.tval, false, true⟩)) ∧
  (∀ (z : Bool) (g : BitVec 2) (s : State), Runs s → s.me.inRep = false →
    ∃ t, exec (.nop ⟨z, g⟩) s = .next t ∧ t.me.issues = s.me.issues + 1 ∧ t.myCore.issued = s.cycle + 1 ∧
      t.myCore.order = s.myCore.order.filter (· ≠ s.cur.k) ++ [s.cur.k] ∧
      (g = 0 → t.me.gapUntil = s.me.gapUntil ∧ t.me.swUntil = s.me.swUntil) ∧
      (g = 1 → t.me.gapUntil = s.cycle + 2 ∧ t.me.swUntil = s.me.swUntil) ∧
      (g = 2 → t.me.gapUntil = s.cycle + 3 ∧ t.me.swUntil = s.me.swUntil) ∧
      (g = 3 → s.me.latest s.cycle = s.cycle → t.me.gapUntil = s.cycle + 2 ∧ t.me.swUntil = s.me.swUntil) ∧
      (g = 3 → s.cycle < s.me.latest s.cycle → t.me.swUntil = s.me.latest s.cycle ∧ t.me.gapUntil = s.me.gapUntil) ∧
      let takesPart := z = true ∧ s.myCore.xjoin.getLsbD s.cur.k.val = true ∧ s.me.state = .run
      let missing (k : Sn) : Prop := k ≠ s.cur.k ∧ s.myCore.xjoin.getLsbD k.val = true ∧
        (s.strand s.cur.c k).state = .run ∧ (s.strand s.cur.c k).zWait = false
      (¬takesPart → ∀ k, (t.strand s.cur.c k).zWait = (s.strand s.cur.c k).zWait) ∧
      (takesPart → (∃ k, missing k) → t.me.zWait = true ∧
        ∀ k, k ≠ s.cur.k → (t.strand s.cur.c k).zWait = (s.strand s.cur.c k).zWait) ∧
      (takesPart → (¬∃ k, missing k) → ∀ k, (t.strand s.cur.c k).zWait = false))

/-- R115, R116: a loop word with count 0 goes behind the body and leaves its level; else it arms its level for the words
behind it, and the end-of-body check of its own address follows. Writes under way to those registers are overtaken. R118 to
R121: a rep word arms the repetition of the word behind it, with the low 32 bits of its count; a count of 0 skips that word,
with its own end-of-body check; a word that may not be repeated is the illegal-instruction trap with that word in xtval; a rep
word that ends a loop body abandons its repetition when the loop returns. R120: which decoded words may not stand under rep:
transfers, loops, rep, frames, svc, brk and eret, and nothing else of the words that decode. Conventions of the model: log 64.
Completes: loop, loopi, rep, repImm. -/
def Obligations.LoopAndRepeatWords : Prop :=
  (∀ (m : Marks) (lv : Bool) (a : Sreg) (wide : BitVec 13) (cnt : BitVec 11) (fin : BitVec 10) (s : State),
    Runs s → s.me.inRep = false →
    let armed (n : W) (e : Nat) : Strand :=
      let l : LoopLevel := ⟨n, s.me.pc + 4, s.me.pc + BitVec.ofNat 64 (4 * e)⟩
      if lv then { s.me with loop1 := l } else { s.me with loop0 := l }
    let effect (n : W) (e : Nat) (t : State) : Prop :=
      if n = 0 then t.me.place = (s.me.pc + BitVec.ofNat 64 (4 * e) + 4, s.me.loop0.count, s.me.loop1.count) ∧ FlowFrame s t
      else t.me.place = bodyEnd (armed n e) s.me.pc (s.me.pc + 4) ∧ WordFrame s t ∧
        { t.me.still with ctl := s.me.ctl } = (armed n e).still ∧
        t.me.ctl = s.me.ctl.filter (fun w => !(if lv then [0x1b, 0x1c, 0x1d] else [0x18, 0x19, 0x1a]).contains w.num.toNat)
    (Fits s [a.toNat] → ∃ t, exec (.loop m lv a wide) s = .next t ∧ effect (rd s a 1) wide.toNat t) ∧
    (∃ t, exec (.loopi m lv cnt fin) s = .next t ∧ effect (cnt.setWidth 64) fin.toNat t)) ∧
  (∀ (m : Marks) (a : Sreg) (cnt : BitVec 9) (sd sa sb : BitVec 3) (s : State) (w : BitVec 32),
    Runs s → s.me.inRep = false → fetch s s.cur.c (s.me.pc + 4) = some w →
    let effect (n : BitVec 32) (t : State) : Prop :=
      WordFrame s t ∧
      { t.me.still with ctl := s.me.ctl } = s.me.still ∧
      (n ≠ 0 → t.me.ctl = s.me.ctl.filter (fun x => !([0x08].contains x.num.toNat))) ∧
      (n = 0 → plainPlace s.me → t.me.ctl = s.me.ctl) ∧
      if (bodyEnd s.me s.me.pc s.me.pc).1 ≠ s.me.pc then t.me.place = bodyEnd s.me s.me.pc s.me.pc ∧ t.me.xrep = 0 ∧ t.me.inRep = false
      else plainPlace s.me →
        if n = 0 then t.me.pc = s.me.pc + 8 ∧ t.me.xrep = s.me.xrep ∧ t.me.inRep = false
        else t.me.pc = s.me.pc ∧ t.me.xrep = n.setWidth 64 ∧ t.me.inRep = true
    (repeatable w = true → Fits s [a.toNat] →
      ∃ t, exec (.rep m a sd sa sb) s = .next t ∧ effect ((rd s a 1).setWidth 32) t) ∧
    (repeatable w = true → ∃ t, exec (.repImm m cnt sd sa sb) s = .next t ∧ effect (cnt.setWidth 32) t) ∧
    (repeatable w = false → Traps (.repImm m cnt sd sa sb) s 0x01 0 (w.setWidth 64)) ∧
    (repeatable w = false → Traps (.rep m a sd sa sb) s 0x01 0 (w.setWidth 64))) ∧
  (∀ (w : BitVec 32) (i : Instr), decode w = .ok i →
    (repeatable w = false ↔ w.toNat / 2 ^ 26 ∈ [0x0e, 0x0f, 0x10, 0x11, 0x12, 0x24] ∨ ∃ m n, i = .svc m n ∨ i = .brk m n ∨ i = .eret m))

/-- R121, R122: an iteration j of a repeated word, of a rep with its count in a register or in its word, issues it with its d, a and b
stepped by j times the steps: an add, which writes the sum; addi, whose immediate does not step; fma and madd, whose c does not;
a near load, a store or a far load, whose off6 steps in place of b. It counts down and up, and the last one ends the
repetition, with the end-of-body check of the repeated word. The first stepped field outside the allotment, in the order d, a,
b and for a pair b + 1, is the allotment trap with that field; an off6 outside -32 to 31, and a pair base stepped to 0, are the
illegal-instruction trap, which comes first. Conventions of the model: log 24, 64, 67 (xtval holds the repeated word as fetched).
Completes: repIteration. -/
def Obligations.RepeatIteration : Prop :=
  ∀ (s : State) (i0 : Instr) (sd sa sb : BitVec 3) (w0 w : BitVec 32) (mi : Marks) (d a b : Sreg),
    Runs s → s.me.inRep = true → fetch s s.cur.c s.me.pc = some w0 → decode w0 = .ok i0 →
    ((∃ m n, i0 = .repImm m n sd sa sb) ∨ ∃ m r, i0 = .rep m r sd sa sb) →
    fetch s s.cur.c (s.me.pc + 4) = some w →
    let j := (s.me.xrep >>> 32).toNat
    let u : State := { s with cur := { s.cur with word := w } }
    let d' : Int := d.toNat + sd.toInt * j
    let a' : Int := a.toNat + sa.toInt * j
    let b' : Int := b.toNat + sb.toInt * j
    let at_ (v : Int) : Sreg := BitVec.ofInt 5 v
    let fits (v : Int) : Prop := 0 ≤ v ∧ v < s.me.allot
    let illegal : State := trap u 0x01 0 (w.setWidth 64)
    let outside (v : Int) : State := trap u 0x02 (BitVec.ofInt 16 v) (w.setWidth 64)
    (decode w = .ok (.add mi d a b) →
      (fits d' → fits a' → fits b' →
        exec .repIteration s = exec (.add mi (at_ d') (at_ a') (at_ b')) u ∧
        ∃ t, exec .repIteration s = .next t ∧
          t.me.regs.get (at_ d').toFin = rd u (at_ a') 1 + rd u (at_ b') 2 ∧
          (s.me.xrep.toNat % 2 ^ 32 ≤ 1 → t.me.xrep = 0 ∧ t.me.inRep = false ∧
            t.me.place = bodyEnd s.me (s.me.pc + 4) (s.me.pc + 8)) ∧
          (1 < s.me.xrep.toNat % 2 ^ 32 → j + 1 < 2 ^ 32 → t.me.inRep = true ∧ t.me.pc = s.me.pc ∧
            t.me.xrep.toNat = s.me.xrep.toNat - 1 + 2 ^ 32)) ∧
      (¬fits d' → exec .repIteration s = .next (outside d')) ∧
      (fits d' → ¬fits a' → exec .repIteration s = .next (outside a')) ∧
      (fits d' → fits a' → ¬fits b' → exec .repIteration s = .next (outside b'))) ∧
    (∀ imm, decode w = .ok (.addi mi d a imm) → fits d' → fits a' →
      exec .repIteration s = exec (.addi mi (at_ d') (at_ a') imm) u) ∧
    (∀ c, decode w = .ok (.fma mi d a b c) → fits d' → fits a' → fits b' →
      exec .repIteration s = exec (.fma mi (at_ d') (at_ a') (at_ b') c) u) ∧
    (∀ c, decode w = .ok (.madd mi d a b c) → fits d' → fits a' → fits b' →
      exec .repIteration s = exec (.madd mi (at_ d') (at_ a') (at_ b') c) u) ∧
    (∀ (form : Marks → Sreg → Sreg → BitVec 4 → BitVec 6 → Instr) (cls : BitVec 4) (off : BitVec 6),
      form ∈ [.ldB, .ldBu, .ldH, .ldHu, .ldW, .ldWu, .ldD, .stB, .stH, .stW, .stD, .ldqB, .ldqBu, .ldqH, .ldqHu, .ldqW, .ldqWu, .ldqD] →
      decode w = .ok (form mi d a cls off) →
      let off' : Int := off.toInt + sb.toInt * j
      (off' < -32 ∨ 31 < off' → exec .repIteration s = .next illegal) ∧
      (-32 ≤ off' → off' ≤ 31 →
        (fits d' → fits a' → exec .repIteration s = exec (form mi (at_ d') (at_ a') cls (BitVec.ofInt 6 off')) u) ∧
        (¬fits d' → exec .repIteration s = .next (outside d')) ∧
        (fits d' → ¬fits a' → exec .repIteration s = .next (outside a')))) ∧
    ∀ scope, decode w = .ok (.cas mi d a b scope) →
      (b' = 0 → exec .repIteration s = .next illegal) ∧
      (b' ≠ 0 → fits d' → fits a' →
        (fits b' → fits (b' + 1) → exec .repIteration s = exec (.cas mi (at_ d') (at_ a') (at_ b') scope) u) ∧
        (¬fits b' → exec .repIteration s = .next (outside b')) ∧
        (fits b' → ¬fits (b' + 1) → exec .repIteration s = .next (outside (b' + 1))))

/-- R47, R79, R94: a word with no instruction takes the illegal-instruction trap, with the word in xtval; a field at or beyond
the allotment takes the allotment trap, naming the first such field in the order d, a, b.
Completes: unassignedEncoding. -/
def Obligations.IllegalWordsTrap : Prop :=
  ∀ (s : State) (m : Marks) (d a b : Sreg), Runs s →
    Traps .unassignedEncoding s 0x01 0 (s.cur.word.setWidth 64) ∧
    (s.me.allot ≤ d.toNat → Traps (.add m d a b) s 0x02 (d.setWidth 16) (s.cur.word.setWidth 64)) ∧
    (d.toNat < s.me.allot → s.me.allot ≤ a.toNat → Traps (.add m d a b) s 0x02 (a.setWidth 16) (s.cur.word.setWidth 64)) ∧
    (d.toNat < s.me.allot → a.toNat < s.me.allot → s.me.allot ≤ b.toNat →
      Traps (.add m d a b) s 0x02 (b.setWidth 16) (s.cur.word.setWidth 64))

/-- R55, R57, R59: what each control-register number reads as; the numbers that name no register read as none, and a read of
them is the illegal-instruction trap. R56, R63, R157, R164: xrd writes its register with bound 2; a read of xt waits while an
xlate is under way; rdtick, rdframe and rdtime read their counters. The mailboxes that the host wrote are another statement's.
R267: a read of a mailbox that the host has written acquires, and clears the mark of that mailbox alone.
Completes: xrd, rdtick, rdframe, rdtime. -/
def Obligations.ControlRegisterReads : Prop :=
  (∀ (s : State) (c : Cl) (k : Sn),
    let t := s.strand c k
    let x := s.core c
    readCtl s c k 0x00 = some ((t.xstatus &&& ~~~0x10) ||| if x.narrowed then 0x10 else 0) ∧
    readCtl s c k 0x01 = some t.xcause ∧ readCtl s c k 0x02 = some t.xepc ∧ readCtl s c k 0x03 = some t.xtval ∧
    readCtl s c k 0x04 = some t.xstklim ∧ readCtl s c k 0x05 = some (t.xfpmode.setWidth 64) ∧
    readCtl s c k 0x06 = some (t.xfflags.setWidth 64) ∧ readCtl s c k 0x07 = some (t.xtmask.setWidth 64) ∧
    readCtl s c k 0x08 = some t.xrep ∧ readCtl s c k 0x09 = some t.xt ∧ readCtl s c k 0x0a = some (x.xjoin.setWidth 64) ∧
    readCtl s c k 0x0b = some (BitVec.ofNat 64 (k.val + 4 * (c.val % 16) + 64 * (c.val / 16) + 256 * (s.ctxOf c).val)) ∧
    readCtl s c k 0x0c = some x.xtbase ∧ readCtl s c k 0x0d = some t.xscratch ∧
    readCtl s c k 0x0e = some (BitVec.ofNat 64 (t.flqHead.toNat + 8 * t.flq.length +
      (t.flqHalt.map fun h => 128 + 256 * h.idx.toNat).getD 0)) ∧
    readCtl s c k 0x0f = some (x.xgen.setWidth 64) ∧
    (∀ i : Fin 8, readCtl s c k (0x10 + BitVec.ofFin (i.castLE (by decide))) = some (x.mbox.get i)) ∧
    readCtl s c k 0x18 = some t.loop0.count ∧ readCtl s c k 0x19 = some t.loop0.start ∧ readCtl s c k 0x1a = some t.loop0.last ∧
    readCtl s c k 0x1b = some t.loop1.count ∧ readCtl s c k 0x1c = some t.loop1.start ∧ readCtl s c k 0x1d = some t.loop1.last ∧
    readCtl s c k 0x20 = some s.xtick ∧ readCtl s c k 0x21 = some x.xframe ∧ readCtl s c k 0x22 = some x.xvalid ∧
    readCtl s c k 0x23 = some s.xtime ∧
    (∀ n : BitVec 8, n = 0x1e ∨ n = 0x1f ∨ 0x24 ≤ n → readCtl s c k n = none) ∧
    ∀ m d (n : BitVec 8), readCtl s s.cur.c s.cur.k n = none → Runs s → Traps (.xrd m d n) s 0x01 0 (s.cur.word.setWidth 64)) ∧
  (∀ (m : Marks) (d : Sreg) (n : BitVec 8),
    (∀ s v, Runs s → Fits s [d.toNat] → readCtl s s.cur.c s.cur.k n = some v → s.myCore.mboxHost = 0 →
      (n = 0x09 → s.me.xlates = []) → ∃ t, exec (.xrd m d n) s = .next t ∧ t.me.regs.get d.toFin = v ∧
        t.me.flights = s.me.flights ++ [⟨.reg d, s.cycle + 2, none, s.cycle⟩] ∧ RegFrame s t d) ∧
    (∀ s, Runs s → Fits s [d.toNat] → s.me.xlates ≠ [] → exec (.xrd m d 0x09) s = .next (s.modMe fun t => { t with tried := s.cycle + 1 })) ∧
    WritesReg (.rdtick m d) [d.toNat] d (fun s => s.xtick) 2 (fun _ => none) ∧
    WritesReg (.rdframe m d) [d.toNat] d (fun s => s.myCore.xframe) 2 (fun _ => none) ∧
    WritesReg (.rdtime m d) [d.toNat] d (fun s => s.xtime) 2 (fun _ => none)) ∧
  (∀ (m : Marks) (d : Sreg) (i : Fin 8) (s : State), Runs s → Fits s [d.toNat] → s.myCore.mboxHost.getLsbD i.val = true →
    let u := acquireAt s.cur.c (scopeSet s s.cur.c 31) s
    let n : BitVec 8 := 0x10 + BitVec.ofFin (i.castLE (by decide))
    ∃ t, exec (.xrd m d n) s = .next t ∧ t.me.regs.get d.toFin = s.myCore.mbox.get i ∧
      t.mem = u.mem ∧ t.myCore.mboxHost.getLsbD i.val = false ∧
      ∀ j : Fin 8, j ≠ i → t.myCore.mboxHost.getLsbD j.val = u.myCore.mboxHost.getLsbD j.val)

/-- R55, R56, R160: a write of a register that its level may write goes under way, with the value read at issue, to take
effect 2 core cycles later; a register that may not be written is the illegal-instruction trap. R57 to R62, R160: what a write
leaves when it takes effect: xwr writes, xset sets and xclr clears the bits that can be written; the status keeps all but IE
and PIE; xvalid only gathers bits. Conventions of the model: log 17.
Completes: xwr, xset, xclr. -/
def Obligations.ControlRegisterWrites : Prop :=
  (∀ (m : Marks) (a : Sreg) (n : BitVec 8) (s : State), Runs s →
    let never := n ∈ [0x09, 0x0b, 0x0f, 0x20, 0x21, 0x23, 0x1e, 0x1f] ∨ 0x24 ≤ n
    let firm : Prop := n = 0x0c ∨ n = 0x0e
    let shared : Prop := n = 0x0a ∨ n = 0x0c ∨ n = 0x22 ∨ (0x10 ≤ n ∧ n ≤ 0x17)
    let goes (i : Instr) (op : CtlOp) : Prop := ∃ t, exec i s = .next t ∧
      (¬shared → t.me.ctl = s.me.ctl ++ [⟨s.cycle + 2, n, op, rd s a 1⟩] ∧ t.myCore.ctl = s.myCore.ctl) ∧
      (shared → t.me.ctl = s.me.ctl ∧ t.myCore.ctl = s.myCore.ctl ++ [⟨s.cycle + 2, n, op, rd s a 1⟩]) ∧
      sameOutside s t ∧ sameClusters s t ∧ sameStrands s t ∧ { t.me.still with ctl := s.me.ctl } = s.me.still
    (¬never → (firm → s.me.xstatus.getLsbD 1 = true) → Fits s [a.toNat] →
      goes (.xwr m a n) .write ∧ goes (.xset m a n) .set ∧ goes (.xclr m a n) .clear) ∧
    (never ∨ (firm ∧ s.me.xstatus.getLsbD 1 = false) →
      Traps (.xwr m a n) s 0x01 0 (s.cur.word.setWidth 64) ∧ Traps (.xset m a n) s 0x01 0 (s.cur.word.setWidth 64) ∧
      Traps (.xclr m a n) s 0x01 0 (s.cur.word.setWidth 64))) ∧
  (∀ (t : Strand) (x : Core) (cyc : Nat) (op : CtlOp) (v : W),
    let new (old : W) : W := match op with
      | .write => v
      | .set => old ||| v
      | .clear => old &&& ~~~v
    (t.applyCtl 0x00 op v).xstatus = (t.xstatus &&& ~~~0x5) ||| (new t.xstatus &&& 0x5) ∧
    (t.applyCtl 0x01 op v).xcause = new t.xcause &&& 0xffff01ff ∧ (t.applyCtl 0x02 op v).xepc = new t.xepc ∧
    (t.applyCtl 0x03 op v).xtval = new t.xtval ∧ (t.applyCtl 0x04 op v).xstklim = new t.xstklim ∧
    ((t.applyCtl 0x05 op v).xfpmode.setWidth 64 : W) = new (t.xfpmode.setWidth 64) &&& 0x7 ∧
    ((t.applyCtl 0x06 op v).xfflags.setWidth 64 : W) = new (t.xfflags.setWidth 64) &&& 0x1f1f ∧
    ((t.applyCtl 0x07 op v).xtmask.setWidth 64 : W) = new (t.xtmask.setWidth 64) &&& 0xff ∧
    (t.inRep = false → (t.applyCtl 0x08 op v).xrep = new t.xrep) ∧ (t.applyCtl 0x0d op v).xscratch = new t.xscratch ∧
    (t.applyCtl 0x18 op v).loop0.count = new t.loop0.count ∧ (t.applyCtl 0x19 op v).loop0.start = new t.loop0.start ∧
    (t.applyCtl 0x1a op v).loop0.last = new t.loop0.last ∧ (t.applyCtl 0x1b op v).loop1.count = new t.loop1.count ∧
    (t.applyCtl 0x1c op v).loop1.start = new t.loop1.start ∧ (t.applyCtl 0x1d op v).loop1.last = new t.loop1.last ∧
    ((x.applyCtl cyc 0x0a op v).xjoin.setWidth 64 : W) = new (x.xjoin.setWidth 64) &&& 0xf ∧
    (x.applyCtl cyc 0x0c op v).xtbase = new x.xtbase ∧
    (x.applyCtl cyc 0x22 op v).xvalid = (if op = .clear then x.xvalid else x.xvalid ||| v) ∧
    ∀ i : Fin 8, (x.applyCtl cyc (0x10 + BitVec.ofFin (i.castLE (by decide))) op v).mbox.get i = new (x.mbox.get i))

/-- R292 to R295: every trap entry, with its detail; a cause without a valid handler halts the strand with its trap registers
written; a synchronous trap in a handler halts it with them untouched; both leave a record of the event. R292: the handler of
a cause is its own entry of the trap table when that is valid, else entry 0 when that is; its address is the entry's low 32
bits above the text. Conventions of the model: log 16, 17. -/
def Obligations.TrapEntryAndTable : Prop :=
  (∀ (s : State) (code : BitVec 8) (detail : BitVec 16) (v : W) (h : W), s.me.wait = none → s.me.ctl = [] → s.me.asyncs = [] →
    let t := trap s code detail v
    (s.me.state = .run → (s.gangOf s.cur.c).bind (·.handler code) = some h →
      WordFrame s t ∧ Entered s.me t.me code detail v s.me.pc h s.cycle) ∧
    (s.me.state = .run → (s.gangOf s.cur.c).bind (·.handler code) = none →
      t.me.state = .halted ∧ t.me.xepc = s.me.pc ∧ t.me.xtval = v ∧ t.me.xcause.toNat = code.toNat + 65536 * detail.toNat ∧
      t.me.regs = s.me.regs ∧ t.mem = s.mem ∧
      t.myCore.events = s.myCore.events ++ [⟨s.cycle, s.cur.k, code.setWidth 64 ||| (detail.setWidth 64 <<< 16), s.me.pc, v, false, false⟩]) ∧
    (s.me.state = .handler →
      t.me.state = .halted ∧ t.me.xepc = s.me.xepc ∧ t.me.xtval = s.me.xtval ∧ t.me.xcause = s.me.xcause ∧
      t.me.xstatus = s.me.xstatus ∧ t.me.regs = s.me.regs ∧ t.mem = s.mem ∧
      t.myCore.events = s.myCore.events ++ [⟨s.cycle, s.cur.k, code.setWidth 64 ||| (detail.setWidth 64 <<< 16), s.me.pc, v, true, false⟩])) ∧
  (∀ (g : Gang) (code : BitVec 8),
    let entry (i : Nat) : W := (g.image.traps[i]?).getD 0
    let at_ (e : W) : W := g.base + BitVec.ofNat 64 g.image.textOff + BitVec.ofNat 64 (e.toNat % 2 ^ 32)
    g.handler code =
      if (entry code.toNat).getLsbD 63 then some (at_ (entry code.toNat))
      else if (entry 0).getLsbD 63 then some (at_ (entry 0)) else none)

/-- R161, R292, R293: svc and brk take their exception: the strand goes to the handler of its cause, its pc in xepc, the cause
in xcause, the operand in xtval, IE and LVL saved and IE clear; nothing else of it changes but that its control writes under way
have taken effect (before the registers are saved: log 17, DEDUCED); in a handler, or with no valid handler, they are the double trap or the halt that R293 and R295 say. R67, R123, R162: eret goes back to
xepc, aligned, in Run, with IE and LVL from PIE and PLVL and TR clear; with a count left in xrep it resumes the repetition;
outside a handler it is the illegal-instruction trap. R163, R343: tlbi at firmware level drops from the core's TLB and its
engines' stream TLBs the translations of the page, or of the context, that its register names; it holds while an access of its core
stands at an address already translated (R344, log 67); at task level it is the illegal-instruction trap. Completes: svc,
brk, eret, tlbi. -/
def Obligations.SystemWords : Prop :=
  (∀ (m : Marks) (n : BitVec 8) (s : State), Runs s →
    Traps (.svc m n) s 0x09 0 (n.setWidth 64) ∧ Traps (.brk m n) s 0x0a 0 (n.setWidth 64)) ∧
  (∀ (m : Marks) (n : BitVec 8) (s : State) (h : W), s.me.state = .run → s.me.wait = none →
    let u := s.me.settleCtl (s.cycle + 2)
    ((s.gangOf s.cur.c).bind (·.handler 0x09) = some h →
      ∃ t, exec (.svc m n) s = .next t ∧ WordFrame s t ∧ Entered u t.me 0x09 0 (n.setWidth 64) s.me.pc h s.cycle) ∧
    ((s.gangOf s.cur.c).bind (·.handler 0x0a) = some h →
      ∃ t, exec (.brk m n) s = .next t ∧ WordFrame s t ∧ Entered u t.me 0x0a 0 (n.setWidth 64) s.me.pc h s.cycle)) ∧
  (∀ (m : Marks) (s : State), Runs s →
    (s.me.xstatus.getLsbD 6 = true → ∃ t, exec (.eret m) s = .next t ∧ t.me.state = .run ∧ t.me.pc = s.me.xepc &&& ~~~3 ∧
      t.me.xstatus = returned s.me.xstatus ∧ (t.me.inRep = true ↔ s.me.xrep.toNat % 2 ^ 32 ≠ 0) ∧ t.me.qAt = 0 ∧
      t.me.xepc = s.me.xepc ∧ t.me.xcause = s.me.xcause ∧ t.me.regs = s.me.regs ∧ t.me.preds = s.me.preds ∧ WordFrame s t) ∧
    (s.me.xstatus.getLsbD 6 = false → Traps (.eret m) s 0x01 0 (s.cur.word.setWidth 64))) ∧
  (∀ (m : Marks) (a : Sreg) (kind : BitVec 8) (s : State), Runs s →
    let hit (e : TlbEntry) : Bool :=
      if kind = 0 then e.covers (s.ctxOf s.cur.c) (rd s a 1).toNat else e.ctx.val == (rd s a 1).toNat % 64
    (s.me.xstatus.getLsbD 1 = true → Fits s [a.toNat] → s.myCore.storesHome = false → Holds (.tlbi m a kind) s) ∧
    (s.me.xstatus.getLsbD 1 = true → Fits s [a.toNat] → s.myCore.storesHome = true → ∃ t, exec (.tlbi m a kind) s = .next t ∧
      t.myCore.tlb = s.myCore.tlb.filter (fun e => !hit e) ∧
      (∀ y, (t.tile s.cur.c y).streamTlb = (s.tile s.cur.c y).streamTlb.filter (fun e => !hit e.2)) ∧
      sameOutside s t ∧ sameClusters s t ∧ t.me.still = s.me.still) ∧
    (s.me.xstatus.getLsbD 1 = false → Traps (.tlbi m a kind) s 0x01 0 (s.cur.word.setWidth 64)))

/-- R127, R249, R250: the target of an address for n bytes: device virtual addresses keep bits 55 to 62 clear; apertures 5 and 7 do
not exist; an offset must lie in its space; a misaligned address comes first. The spaces lie in memory as R249 says. -/
def Obligations.AddressTargets : Prop :=
  ∀ (s : State) (c : Cl) (x : W) (n : Nat), 0 < n →
    (x.toNat % n ≠ 0 → target s c x n = .error 1) ∧
    (x.toNat % n = 0 → x.getLsbD 63 = false →
      target s c x n = if bits x.toNat 55 8 = 0 then .ok (5, x.toNat) else .error 5) ∧
    (x.toNat % n = 0 → x.getLsbD 63 = true → (bits x.toNat 60 3 = 5 ∨ bits x.toNat 60 3 = 7) → target s c x n = .error 2) ∧
    (x.toNat % n = 0 → bits x.toNat 60 4 = 8 → target s c x n =
      if bits x.toNat 23 37 = 0 ∧ s.tileOk c (Fin.ofNat 8 (bits x.toNat 20 3)) = true ∧ x.toNat % 2 ^ 20 + n ≤ 0xc0000
      then .ok (0, x.toNat % 2 ^ 60) else .error 3) ∧
    (x.toNat % n = 0 → bits x.toNat 60 4 = 0xb → target s c x n =
      if bits x.toNat 24 36 = 0 ∧ x.toNat % 2 ^ 24 + n ≤ 2 ^ 24 then .ok (3, x.toNat % 2 ^ 60) else .error 3) ∧
    (x.toNat % n = 0 → bits x.toNat 60 4 = 9 → target s c x n =
      if bits x.toNat 29 31 = 0 ∧ bits x.toNat 23 6 < s.gangSize c ∧ s.tileOk c (Fin.ofNat 8 (bits x.toNat 20 3)) = true ∧
        x.toNat % 2 ^ 20 + n ≤ 0xc0000 then .ok (1, x.toNat % 2 ^ 60) else .error 3) ∧
    (x.toNat % n = 0 → bits x.toNat 60 4 = 0xa → target s c x n =
      if bits x.toNat 23 37 = 0 ∧ bits x.toNat 18 2 = 0 ∧ s.tileOk c (Fin.ofNat 8 (bits x.toNat 20 3)) = true ∧
        x.toNat % 2 ^ 18 + n ≤ 0x40000 then .ok (2, x.toNat % 2 ^ 60) else .error 3) ∧
    (x.toNat % n = 0 → bits x.toNat 60 4 = 0xc → target s c x n =
      if bits x.toNat 30 30 = 0 ∧ s.clusterOk (s.ctxOf c) (bits x.toNat 24 6) = true ∧ x.toNat % 2 ^ 24 + n ≤ 2 ^ 24
      then .ok (4, x.toNat % 2 ^ 60) else .error 3) ∧
    (∀ o r, s.rankCluster c (o / 2 ^ 23 % 64) = some r →
      tgtOf s c 1 o = .loc (2 ^ 41 + (r.val * 8 + o / 2 ^ 20 % 8) * 2 ^ 20 + o % 2 ^ 20) 1) ∧
    (x.toNat % n = 0 → bits x.toNat 60 4 = 0xe → target s c x n = .ok (6, x.toNat % 2 ^ 60)) ∧
    (∀ o, tgtOf s c 0 o = .loc (2 ^ 41 + (c.val * 8 + o / 2 ^ 20 % 8) * 2 ^ 20 + o % 2 ^ 20) 0) ∧
    (∀ o, tgtOf s c 2 o = .loc (2 ^ 42 + (c.val * 8 + o / 2 ^ 20 % 8) * 2 ^ 18 + o % 2 ^ 18) 2) ∧
    (∀ o, tgtOf s c 3 o = .loc (2 ^ 40 + c.val * 2 ^ 24 + o % 2 ^ 24) 3) ∧
    (∀ o p, s.physOf (s.ctxOf c) (o / 2 ^ 24 % 64) = some p → tgtOf s c 4 o = .loc (2 ^ 40 + p.val * 2 ^ 24 + o % 2 ^ 24) 4) ∧
    (∀ o, tgtOf s c 5 o = .virt (BitVec.ofNat 64 o))

/-- R63, R129, R130, R251: the near loads, with the size and extension of each form. Conventions of the model: log 9, 14.
Completes: ldB, ldBu, ldH, ldHu, ldW, ldWu, ldD. -/
def Obligations.NearLoads : Prop :=
  ∀ (m : Marks) (d a : Sreg) (cls : BitVec 4) (off : BitVec 6),
    NearLoad (.ldB m d a cls off) 1 true d a cls off ∧ NearLoad (.ldBu m d a cls off) 1 false d a cls off ∧
    NearLoad (.ldH m d a cls off) 2 true d a cls off ∧ NearLoad (.ldHu m d a cls off) 2 false d a cls off ∧
    NearLoad (.ldW m d a cls off) 4 true d a cls off ∧ NearLoad (.ldWu m d a cls off) 4 false d a cls off ∧
    NearLoad (.ldD m d a cls off) 8 false d a cls off

/-- R129, R131, R136, R156: the stores. They post the low bytes of their register, h.st the 32 bytes of its handle, to any
space; st.rel at its address exactly, in class 0, as a release at its scope. R140, R329, R379, R381: words that start an
access and go on: fence for its classes (with no class it does nothing), the counter addition, valid.set as a release at scope
31.
Completes: stB, stH, stW, stD, stRel, fence, hSt, validSet, ctrAdd, remSig. -/
def Obligations.StoreAndPostedWords : Prop :=
  (∀ (m : Marks) (d a : Sreg) (h : BitVec 5) (cls : BitVec 4) (off : BitVec 6) (scope : BitVec 5),
    let x (n : Nat) : State → W := fun s => rd s a 1 + BitVec.ofInt 64 (off.toInt * n)
    let low (n : Nat) : State → List Byte := fun s => bytesOf n (rd s d 0).toNat
    StoreWord (.stB m d a cls off) [d.toNat, a.toNat] (x 1) 1 (low 1) cls.toNat (fun _ => none) ∧
    StoreWord (.stH m d a cls off) [d.toNat, a.toNat] (x 2) 2 (low 2) cls.toNat (fun _ => none) ∧
    StoreWord (.stW m d a cls off) [d.toNat, a.toNat] (x 4) 4 (low 4) cls.toNat (fun _ => none) ∧
    StoreWord (.stD m d a cls off) [d.toNat, a.toNat] (x 8) 8 (low 8) cls.toNat (fun _ => none) ∧
    StoreWord (.stRel m d a scope) [d.toNat, a.toNat] (fun s => rd s a 1) 8 (low 8) 0 (fun s => some (scopeSet s s.cur.c scope)) ∧
    StoreWord (.hSt m h a cls) [a.toNat] (fun s => rd s a 1) 32 (fun s => bytesOf 32 (readHandle s h).toNat) cls.toNat (fun _ => none)) ∧
  (∀ (m : Marks) (a b : Sreg) (cmask : BitVec 16) (scope : BitVec 5),
    (cmask ≠ 0 → Posts (.fence m cmask scope) [] (fun s => ⟨.fence cmask, 0, .loc 0 0, some (scopeSet s s.cur.c scope),
      some (scopeSet s s.cur.c scope), false, s.me.pc⟩)) ∧
    GoesOn (.fence m 0 scope) [] ∧
    Posts (.ctrAdd m a b) [a.toNat, b.toNat] (fun s => ⟨.ctrAdd ((rd s a 1).setWidth 13) (rd s b 2), 0, .loc 0 0, none,
      some (scopeSet s s.cur.c 3), false, s.me.pc⟩) ∧
    Posts (.validSet m a) [a.toNat] (fun s => ⟨.valid (rd s a 1), 0, .loc 0 0, none, some (scopeSet s s.cur.c 31), false, s.me.pc⟩) ∧
    (∀ s sp o, Runs s → Fits s [a.toNat, b.toNat] → target s s.cur.c (rd s a 1) 8 = .ok (sp, o) →
      ∃ t, exec (.remSig m a b) s = .next t ∧ t.me.flq = s.me.flq ∧ PendFrame s t ∧
        t.me.pend = s.me.pend ++ [⟨.sig (rd s b 2), 0, tgtOf s s.cur.c sp o, none, some (scopeSet s s.cur.c 31), false, s.me.pc⟩]) ∧
    (∀ s r, Runs s → Fits s [a.toNat, b.toNat] → target s s.cur.c (rd s a 1) 8 = .error r →
      Traps (.remSig m a b) s 0x04 (BitVec.ofNat 16 r) (rd s a 1)))

/-- R12, R398: memory holds bytes. A write of bytes at a location gives each of them, in rising order, and leaves every other
byte; a doubleword read back after its store is the value, little-endian; the written memory keeps its form. R131, R132, R252:
a posted store performs: at home it writes its bytes there and leaves the strand's list, a data-cache line of the own vault that
space 4 names going first, and what stood in an accumulator row kept for the engines' reads of the tick (R247); a store to the own vault in space 3 goes into the line of the data cache that holds its bytes, and
memory stands. R355, R434: a store translated under a key reaches device memory by way of it, and none once the context has it no
more or it is retired. R345: a store in spaces 1, 4 and 5 adds its bytes to the launch's count in buffer 0. Conventions of the
model: log 3, 15, 29 (DESIGN CHOICE: what a frame reads as under another key), 32 (DEDUCED: buffer 0).
Completes: storePerform. -/
def Obligations.StoresPerform : Prop :=
  (∀ (s : State) (a : Nat) (bs : List Byte), a + bs.length ≤ 2 ^ 43 →
    (∀ i, i < bs.length → s.uncoreOff (a + i) = false) → s.memWf →
    (∀ i, i < bs.length → (writeHome s a bs).byte (a + i) = (bs[i]?).getD 0) ∧
    (∀ x, x < a ∨ a + bs.length ≤ x → (writeHome s a bs).byte x = s.byte x) ∧
    readHome (writeHome s a bs) a bs.length = bs ∧
    (writeHome s a bs).memWf ∧
    (∀ v : W, bs = bytesOf 8 v.toNat → wordAt (writeHome s a bs) a = v)) ∧
  (∀ (s : State) (c : Cl) (k : Sn) (j : Nat) (bs : List Byte) (cls a : Nat) (pc : W),
    canPerform s c k j = true →
    (∀ sp, (s.strand c k).pend[j]? = some ⟨.store bs, cls, .loc a sp, none, none, false, pc⟩ → sp ≠ 3 →
      let s0 := leaveCache c a { s with fresh := s.fresh + 1 }
      let s1 := keepAcc a bs.length s0
      let home := (writeHome s1 a bs).modStrand c k fun t => { t with pend := t.pend.eraseIdx j }
      let key := 64 * (s.ctxOf c).val
      (sp = 0 ∨ sp = 2 → exec (.storePerform c k j) s = .next home) ∧
        (∃ t, exec (.storePerform c k j) s = .next t ∧ { t with dies := s.dies } = home ∧
          (sp = 1 ∨ sp = 4 ∨ sp = 5 → (tabGet (t.die (dieOf c)).counts key (0, 0)).1 =
            (tabGet (s.die (dieOf c)).counts key (0, 0)).1 + bs.length)) ∧
        (a / 2 ^ 24 ≠ 2 ^ 16 + c.val → s0 = { s with fresh := s.fresh + 1 }) ∧
        (a / 2 ^ 24 = 2 ^ 16 + c.val → (s1.core c).line? (a % 2 ^ 24 / 64) = none) ∧
        (a < 2 ^ 42 → s1 = s0) ∧
        (∀ (c1 : Cl) (t1 : Tl) o, a = accLoc c1 t1 o → o < 2 ^ 18 →
          { s1.tile c1 t1 with accOld := (s0.tile c1 t1).accOld } = s0.tile c1 t1 ∧ (s1.tile c1 t1).accOld =
            (s.cycle / 3, (if (s0.tile c1 t1).accOld.1 = s.cycle / 3 then (s0.tile c1 t1).accOld.2 else []) ++
              (List.range bs.length).map fun i => ⟨none, a + i, s.byte (a + i)⟩))) ∧
    (∀ key, (s.strand c k).pend[j]? = some ⟨.store bs, cls, .loc a 5 (some key), none, none, false, pc⟩ → a + bs.length ≤ hbmSize →
      let s1 := { s with fresh := s.fresh + 1 }
      ∃ t, exec (.storePerform c k j) s = .next t ∧ (t.strand c k).pend = (s.strand c k).pend.eraseIdx j ∧
        (keyOk s (s.ctxOf c) key = true → t.mem = (writeHome (s1.underKey a key.toNat) a bs).mem) ∧
        (keyOk s (s.ctxOf c) key = false → t.mem = s.mem)) ∧
    (∀ y o, (s.strand c k).pend[j]? = some ⟨.store bs, cls, .loc (2 ^ 40 + c.val * 2 ^ 24 + o) 3, none, none, false, pc⟩ →
      o < 2 ^ 24 → (s.core c).line? (o / 64) = some y →
      ∃ t, exec (.storePerform c k j) s = .next t ∧ t.mem = s.mem ∧ (t.strand c k).pend = (s.strand c k).pend.eraseIdx j ∧
        ∃ z, (t.core c).line? (o / 64) = some z ∧
          z.data = y.data.take (o % 64) ++ bs ++ y.data.drop (o % 64 + bs.length) ∧
          z.dirty = y.dirty ||| BitVec.ofNat 64 ((2 ^ bs.length - 1) * 2 ^ (o % 64))))

/-- R53, R54, R127, R133, R136, R137, R139, R382: the far loads, ldq.acq and the atomics claim an entry of the far-load queue
and start their access; results come at the pop. Atomics are in class 0; cas and the bounded adds read a pair. R53, R376 to
R379: trig.post claims an entry and starts the read of its 64 bytes, released at scope 3; trig.cancel, trig.query and ctr.rd
claim one for the island's answer; each holds while eight are claimed.
Completes: ldqB, ldqBu, ldqH, ldqHu, ldqW, ldqWu, ldqD, ldqAcq, amoAdd, amoAnd, amoOr, amoXor, amoMin, amoMax, amoMinu,
amoMaxu, cas, amoSwap, amoBadd, trigPost, trigCancel, trigQuery, ctrRd, remAmoAdd, remAmoAnd, remAmoOr, remAmoXor, remAmoMin,
remAmoMax, remAmoMinu, remAmoMaxu, remAmoSwap, remAmoBadd. -/
def Obligations.FarAndTriggerWords : Prop :=
  (∀ (m : Marks) (d a b : Sreg) (cls : BitVec 4) (off : BitVec 6) (scope : BitVec 5),
    let far (i : Instr) (n : Nat) (sg : Bool) : Prop :=
      FarWord i [d.toNat, a.toNat] d (fun s => rd s a 1 + BitVec.ofInt 64 (off.toInt * n)) n
        (fun s u k => ⟨.load k n sg, cls.toNat, u, none, none, false, s.me.pc⟩)
    let one (i : Instr) (op : AmoOp) : Prop :=
      FarWord i [d.toNat, a.toNat, b.toNat] d (fun s => rd s a 1) 8
        (fun s u k => ⟨.amo k op (rd s b 2) 0, 0, u, none, none, false, s.me.pc⟩)
    let two (i : Instr) (op : AmoOp) : Prop :=
      FarWord i [d.toNat, a.toNat, b.toNat, b.toNat + 1] d (fun s => rd s a 1) 8
        (fun s u k => ⟨.amo k op (rd s b 2) (rd s (b + 1) 3), 0, u, none, none, false, s.me.pc⟩)
    far (.ldqB m d a cls off) 1 true ∧ far (.ldqBu m d a cls off) 1 false ∧ far (.ldqH m d a cls off) 2 true ∧
    far (.ldqHu m d a cls off) 2 false ∧ far (.ldqW m d a cls off) 4 true ∧ far (.ldqWu m d a cls off) 4 false ∧
    far (.ldqD m d a cls off) 8 false ∧
    FarWord (.ldqAcq m d a scope) [d.toNat, a.toNat] d (fun s => rd s a 1) 8
      (fun s u k => ⟨.load k 8 false, 0, u, some (scopeSet s s.cur.c scope), none, true, s.me.pc⟩) ∧
    one (.amoAdd m d a b scope) 0 ∧ one (.amoAnd m d a b scope) 1 ∧ one (.amoOr m d a b scope) 2 ∧ one (.amoXor m d a b scope) 3 ∧
    one (.amoMin m d a b scope) 4 ∧ one (.amoMax m d a b scope) 5 ∧ one (.amoMinu m d a b scope) 6 ∧ one (.amoMaxu m d a b scope) 7 ∧
    one (.amoSwap m d a b scope) 8 ∧ two (.amoBadd m d a b scope) 9 ∧ two (.cas m d a b scope) 10 ∧
    one (.remAmoAdd m d a b) 0 ∧ one (.remAmoAnd m d a b) 1 ∧ one (.remAmoOr m d a b) 2 ∧ one (.remAmoXor m d a b) 3 ∧
    one (.remAmoMin m d a b) 4 ∧ one (.remAmoMax m d a b) 5 ∧ one (.remAmoMinu m d a b) 6 ∧ one (.remAmoMaxu m d a b) 7 ∧
    one (.remAmoSwap m d a b) 8 ∧ two (.remAmoBadd m d a b) 9) ∧
  (∀ (m : Marks) (d a b : Sreg),
    let asks (i : Instr) (fields : List Nat) (kind : State → BitVec 3 → AccKind) : Prop :=
      ∀ s, Runs s → Fits s fields →
        (s.me.flq.length < 8 → ∃ t, exec i s = .next t ∧ t.me.flq = s.me.flq ++ [⟨d, .waiting⟩] ∧ PendFrame s t ∧
          t.me.pend = s.me.pend ++
            [⟨kind s (s.me.flqHead + BitVec.ofNat 3 s.me.flq.length), 0, .loc 0 0, none, none, false, s.me.pc⟩]) ∧
        (8 ≤ s.me.flq.length → Holds i s)
    FarWord (.trigPost m d a b) [d.toNat, a.toNat, b.toNat] d (fun s => rd s a 1) 64
      (fun s u k => ⟨.trig k 0 (rd s a 1) (rd s b 2), 0, u, none, some (scopeSet s s.cur.c 3), false, s.me.pc⟩) ∧
    asks (.trigCancel m d b) [d.toNat, b.toNat] (fun s k => .trig k 1 0 (rd s b 2)) ∧
    asks (.trigQuery m d b) [d.toNat, b.toNat] (fun s k => .trig k 2 0 (rd s b 2)) ∧
    asks (.ctrRd m d a) [d.toNat, a.toNat] (fun s k => .trig k 4 (rd s a 1) 0))

/-- R138: what an atomic makes of the doubleword x at its address, and the word it returns; a cas that does not match, and a
bounded add whose exact sum passes its bound, write nothing. R53, R54, R133, R135, R138: a far access that may perform
delivers to its entry: the bytes that a load reads at home, the old word of an atomic with its new value written, where a
data-cache line of the own vault goes first; an access outside the peer windows delivers a refusal. The far accesses before it
are translated first, so that none of them halts the access side behind it. Conventions of the model: log 12, 13.
Completes: farAccessComplete, farAccessRefused. -/
def Obligations.FarAccessesDeliver : Prop :=
  (∀ (x y z : W),
    amoApply 0 x y z = (some (x + y), x) ∧ amoApply 1 x y z = (some (x &&& y), x) ∧
    amoApply 2 x y z = (some (x ||| y), x) ∧ amoApply 3 x y z = (some (x ^^^ y), x) ∧
    amoApply 4 x y z = (some (BitVec.ofInt 64 (min x.toInt y.toInt)), x) ∧
    amoApply 5 x y z = (some (BitVec.ofInt 64 (max x.toInt y.toInt)), x) ∧
    amoApply 6 x y z = (some (BitVec.ofNat 64 (min x.toNat y.toNat)), x) ∧
    amoApply 7 x y z = (some (BitVec.ofNat 64 (max x.toNat y.toNat)), x) ∧
    amoApply 8 x y z = (some y, x) ∧
    amoApply 9 x y z = (if x.toNat + y.toNat ≤ z.toNat then (some (x + y), BitVec.ofNat 64 (2 ^ 63 + x.toNat % 2 ^ 63))
      else (none, BitVec.ofNat 64 (x.toNat % 2 ^ 63))) ∧
    amoApply 10 x y z = (if x = y then some z else none, x)) ∧
  (∀ (s : State) (c : Cl) (k : Sn) (j cls a sp n : Nat) (slot : BitVec 3) (sg : Bool) (op : AmoOp) (y z pc : W),
    canPerform s c k j = true → slot = (s.strand c k).flqHead →
    ∀ e es, (s.strand c k).flq = e :: es → e.res = .waiting →
    let entry (t : State) : Option FlqResult := ((t.strand c k).flq.head?).map FlqEntry.res
    ∀ u, translateOlder c k ((s.strand c k).pend.take j) s = some u →
    ((∀ p ∈ (s.strand c k).pend.take j, p.kind.slot? = none ∨ ∀ va, p.tgt ≠ .virt va none) → u = s) ∧
    let gone (t : State) : Prop := (t.strand c k).pend = (u.strand c k).pend.eraseIdx j ∧ (t.strand c k).flq.tail = es
    let home := leaveCache c a u
    ((s.strand c k).pend[j]? = some ⟨.load slot n sg, cls, .loc a sp, none, none, false, pc⟩ → sp ≠ 3 → u.poisonedIn a n = none →
      ∃ t, exec (.farAccessComplete c k j) s = .next t ∧ gone t ∧ t.mem = home.mem ∧
        entry t = some (.value (if sg then BitVec.ofInt 64 (sx (ofBytes (readHome home a n)) (8 * n))
          else BitVec.ofNat 64 (ofBytes (readHome home a n))))) ∧
    ((s.strand c k).pend[j]? = some ⟨.amo slot op y z, 0, .loc a sp, none, none, false, pc⟩ → u.poisonedIn a 8 = none →
      ∃ t, exec (.farAccessComplete c k j) s = .next t ∧ gone t ∧ entry t = some (.value (amoApply op (wordAt home a) y z).2) ∧
        t.mem = ((amoApply op (wordAt home a) y z).1.elim home (setWordAt home a)).mem) ∧
    (∀ ep win off, (s.strand c k).pend[j]? = some ⟨.load slot n sg, cls, .peer ep win off, none, none, false, pc⟩ →
      s.window (s.ctxOf c) ep win = none →
      ∃ t, exec (.farAccessRefused c k j) s = .next t ∧ gone t ∧ t.mem = u.mem ∧
        entry t = some (.refused 2 (BitVec.ofNat 64 (0xe * 2 ^ 60 + ep.toNat * 2 ^ 48 + win.toNat * 2 ^ 44 + off.toNat))) ∧
        (t.ctx (s.ctxOf c)).refused = (s.ctx (s.ctxOf c)).refused + 1))

/-- R54, R346: a far load, an acquiring load among them, or an atomic, whose translation fails halts the access side at its entry, for the die's firmware; a restart goes
on there, once the die's core attends to its queue (R438). The entry, and the access, stay. R53, R63, R134, R135: pop of a delivered value frees the oldest entry and writes
the recorded register, with bound 1; it waits while there is no result; with no entry it is the underflow trap; a refusal
frees the entry and is the far-access trap, with the next word in xepc and the recorded register unchanged; poison is a machine
check. Conventions of the
model: log 27.
Completes: pop, farAccessTranslationFault, flqRestart. -/
def Obligations.FarQueuePopAndHalt : Prop :=
  (∀ (s : State) (c : Cl) (k : Sn) (j cls n : Nat) (slot : BitVec 3) (sg : Bool) (va pc : W) (code : BitVec 8),
    (∀ kind acq order u, canPerform s c k j = true → translateOlder c k ((s.strand c k).pend.take j) s = some u →
      (s.strand c k).pend[j]? = some ⟨kind, cls, .virt va, acq, none, order, pc⟩ →
      let halts (write : Bool) : Prop := lookup u (u.core c).tlb (u.ctxOf c) va.toNat true write (u.requestKey c) = .error code →
        ∃ t, exec (.farAccessTranslationFault c k j) s = .next t ∧ (t.strand c k).flqHalt = some ⟨slot, ⟨code, va, write⟩⟩ ∧
          (t.strand c k).pend = (u.strand c k).pend ∧ (t.strand c k).flq = (u.strand c k).flq ∧ t.mem = u.mem ∧
          (t.faultq.get (dieOf c)).length = (u.faultq.get (dieOf c)).length + 1
      (kind = .load slot n sg → halts false) ∧ (∀ op y z, kind = .amo slot op y z → halts true)) ∧
    (s.attends (dieCore (dieOf c)) = false → exec (.flqRestart c k) s = .next s) ∧
    (∀ h, (s.strand c k).flqHalt = some h → s.attends (dieCore (dieOf c)) = true → ∃ t, exec (.flqRestart c k) s = .next t ∧
      { t with faultq := s.faultq } = s.modStrand c k (fun u => { u with flqHalt := none }) ∧
      t.faultq.get (dieOf c) = (s.faultq.get (dieOf c)).filter (fun e => !(e.src == 0 && e.cluster == c && e.unit == k.val)))) ∧
  (∀ (m : Marks) (s : State), Runs s →
    (s.me.flq = [] → Traps (.pop m) s 0x06 0 0) ∧
    (∀ d es, s.me.flq = ⟨d, .waiting⟩ :: es → Holds (.pop m) s) ∧
    (∀ d v es, s.me.flq = ⟨d, .value v⟩ :: es → ∃ t, exec (.pop m) s = .next t ∧
      t.me.regs.get d.toFin = v ∧ t.me.flq = es ∧ t.me.flqHead = s.me.flqHead + 1 ∧ WordFrame s t ∧
      t.me.flights = s.me.flights ++ [⟨.reg d, s.cycle + 1, none, s.cycle⟩] ∧ (∀ r : Fin 32, r ≠ d.toFin → t.me.regs.get r = s.me.regs.get r) ∧
      t.me.preds = s.me.preds ∧ t.me.pend = s.me.pend ∧ t.me.xstatus = s.me.xstatus) ∧
    (∀ d l x es, s.me.flq = ⟨d, .poisoned l x⟩ :: es → exec (.pop m) s = .next (machineCheck s s.cur.c s.cur.k (unitAt l) x)) ∧
    (∀ d detail x es, s.me.flq = ⟨d, .refused detail x⟩ :: es → s.me.inRep = false →
      exec (.pop m) s = .next (takeTrap (s.modMe fun t => { t with flq := es, flqHead := t.flqHead + 1 })
        s.cur.c s.cur.k true 0x08 false detail x (s.me.pc + 4))))

/-- R380: rem.st resolves both addresses at issue, source first, and starts one move of the low 32 bits of b bytes; it holds
while four moves are under way. R380: the move of n bytes between two ranges of scratchpad 0 that do not meet gives the
destination the source's bytes and changes no other byte; the access then leaves the list.
Completes: remSt, remStComplete. -/
def Obligations.RemoteStores : Prop :=
  (∀ (m : Marks) (d a b : Sreg) (s : State), Runs s → Fits s [d.toNat, a.toNat, b.toNat] →
    let moves := s.me.pend.countP fun p => match p.kind with
      | .move .. => true
      | _ => false
    (∀ u v, target s s.cur.c (rd s a 1) 1 = .ok u → target s s.cur.c (rd s d 0) 1 = .ok v →
      (moves < 4 → ∃ t, exec (.remSt m d a b) s = .next t ∧ t.me.flq = s.me.flq ∧ PendFrame s t ∧ t.me.pend = s.me.pend ++
        [⟨.move (rd s a 1) (rd s d 0) ((rd s b 2).toNat % 2 ^ 32) false, 0, .loc 0 0, none, none, false, s.me.pc⟩]) ∧
      (4 ≤ moves → Holds (.remSt m d a b) s)) ∧
    (∀ r, target s s.cur.c (rd s a 1) 1 = .error r → Traps (.remSt m d a b) s 0x04 (BitVec.ofNat 16 r) (rd s a 1)) ∧
    (∀ u r, target s s.cur.c (rd s a 1) 1 = .ok u → target s s.cur.c (rd s d 0) 1 = .error r →
      Traps (.remSt m d a b) s 0x04 (BitVec.ofNat 16 r) (rd s d 0))) ∧
  (∀ (s : State) (c : Cl) (k : Sn) (j src dst n cls : Nat) (pc : W),
    canPerform s c k j = true → s.tileOk c 0 = true → s.poison = [] → src + n ≤ 0xc0000 → dst + n ≤ 0xc0000 →
    (src + n ≤ dst ∨ dst + n ≤ src) → s.memWf →
    (s.strand c k).pend[j]? =
      some ⟨.move (BitVec.ofNat 64 (2 ^ 63 + src)) (BitVec.ofNat 64 (2 ^ 63 + dst)) n false, cls, .loc 0 0, none, none, false, pc⟩ →
    ∃ t, exec (.remStComplete c k j) s = .next t ∧ (t.strand c k).pend = (s.strand c k).pend.eraseIdx j ∧
      (∀ i, i < n → t.byte (spadLoc c 0 (dst + i)) = s.byte (spadLoc c 0 (src + i))) ∧
      ∀ x, x < spadLoc c 0 dst ∨ spadLoc c 0 dst + n ≤ x → t.byte x = s.byte x)

/-- R325, R327: a spawn that its launch accepts raises the counts when it issues and starts the creation of its record, a
release at scope 3; n = 0, or a reefed launch, has no effect; a node that does not exist or has a predecessor is rejected and
counted. R157: xlate starts a translation, the strand's next, with bound 400, and holds while four are under way; its delivery
shows in xt unless a younger one has delivered. R158: the word of xt: V, R, W and L in bits 0 to 3, the reason in bits 8 to
15: 0 usable, 1 no translation, 2 not permitted, 3 an aperture that xlate does not answer, 4 an address that is none, 5 a key
fault.
Completes: xlate, xlateDeliver, spawn. -/
def Obligations.SpawnAndTranslate : Prop :=
  (∀ (m : Marks) (a b : Sreg) (s : State) (g : Gang) (l : Launch), Runs s → Fits s [a.toNat, b.toNat] →
    s.gangOf s.cur.c = some g → s.launch? g.launch = some l →
    let v := (rd s a 1).toNat
    let nd := v % 2 ^ 6
    let n := bits v 8 24
    let named (t : State) : Option Launch := t.launch? l.id
    (l.reefed = true ∨ n = 0 → ∃ t, exec (.spawn m a b) s = .next t ∧ FlowFrame s t) ∧
    (l.reefed = false → n ≠ 0 → (l.nodes.length ≤ nd ∨ l.nodes.any (fun x => x.succ.getLsbD nd) = true) →
      ∃ t, exec (.spawn m a b) s = .next t ∧ named t = some { l with rejectedSpawns := l.rejectedSpawns + 1 } ∧
        t.me.still = s.me.still) ∧
    (∀ x, l.reefed = false → n ≠ 0 → l.nodes[nd]? = some x → l.nodes.any (fun y => y.succ.getLsbD nd) = false →
      (x.wide = true ∨ x.size ≤ s.enabledOf (spawnDie s (rd s a 1))) → s.recordFree (spawnDie s (rd s a 1)) = true →
      ∃ t l', exec (.spawn m a b) s = .next t ∧ named t = some l' ∧ l'.outstanding = l.outstanding + n ∧
        l'.nodes[nd]? = some { x with outstanding := x.outstanding + n } ∧
        t.me.pend = s.me.pend ++ [⟨.spawn (spawnDie s (rd s a 1)) l.id nd n (rd s b 2), 0, .loc 0 0, none,
          some (scopeSet s s.cur.c 3), false, s.me.pc⟩] ∧ t.me.regs = s.me.regs ∧ t.mem = s.mem)) ∧
  ((∀ (m : Marks) (a : Sreg) (wr : Bool) (s : State), Runs s → Fits s [a.toNat] →
    (s.me.xlates.length < 4 → ∃ t, exec (.xlate m a wr) s = .next t ∧ WordFrame s t ∧ t.me.xlateN = s.me.xlateN + 1 ∧
      t.me.xlates = s.me.xlates ++ [⟨s.me.xlateN + 1, rd s a 1, wr, s.cycle + 400⟩] ∧
      { t.me.still with xlates := s.me.xlates, xlateN := s.me.xlateN } = s.me.still) ∧
    (4 ≤ s.me.xlates.length → Holds (.xlate m a wr) s)) ∧
  ∀ (s : State) (c : Cl) (k : Sn) (j : Nat) (p : XlatePend), (s.strand c k).xlates[j]? = some p →
    ∃ t, exec (.xlateDeliver c k j) s = .next t ∧ (t.strand c k).xlates = (s.strand c k).xlates.eraseIdx j ∧
      (t.strand c k).xt = (if (s.strand c k).xtId ≤ p.id then (xlateResult { s with fresh := s.fresh + 1 } c p.va p.wr).2
        else (s.strand c k).xt) ∧
      (t.strand c k).regs = (s.strand c k).regs ∧ t.mem = s.mem) ∧
  (∀ (s : State) (c : Cl) (va : W) (wr : Bool),
    let status := (xlateResult s c va wr).2
    (va.getLsbD 63 = true → status = if bits va.toNat 60 3 ≤ 4 then 0x7 else 0x300) ∧
    (va.getLsbD 63 = false → bits va.toNat 55 8 ≠ 0 → status = 0x400) ∧
    (∀ l, va.toNat < 2 ^ 55 → (s.core c).tlb = [] → walkLeaf s (s.ctxOf c) va.toNat = some l → leafAddr l va.toNat < hbmSize →
      let flags : Nat := 1 + 2 * l.r.toNat + 4 * l.w.toNat + 8 * l.large.toNat
      ((if wr then l.w else l.r) = false → status = BitVec.ofNat 64 (flags + 0x200)) ∧
      ((if wr then l.w else l.r) = true → keyOk s (s.ctxOf c) (leafKey l (s.requestKey c)) = true → status = BitVec.ofNat 64 flags) ∧
      ((if wr then l.w else l.r) = true → keyOk s (s.ctxOf c) (leafKey l (s.requestKey c)) = false →
        status = BitVec.ofNat 64 (flags + 0x500))) ∧
    (va.toNat < 2 ^ 55 → (s.core c).tlb = [] → walkLeaf s (s.ctxOf c) va.toNat = none → status = 0x100))

/-- R128, R143 to R146: sem.wait of 0 goes on; else it waits behind the waits there; sem.post adds its count unless the sum
passes 65535, which is object fault 5; sem.rd reads, with bound 12; a disabled tile is object fault 1. R147 to R150: the ring
words. ring.decl, unless its handle's region does not lie in its space, hands its declaration to the tile, which makes it in the
next tick in which no block of the tile names the ring (R149, R284), and goes on behind it; else it holds while such a block is
there, and then raises object fault 7; the words on a ring
want it declared, a count within its slots, a release within its fill. R151, R152, R288: an arrival at a gang barrier joins the
phase, and ends it when as many have arrived as take part, b15 apart while a node-boundary request waits (R350); a second
arrival in one phase is object fault 6; bar.wait goes on when its strand has not arrived in the pending phase, else waits for
that phase; bar.sync arrives and waits. R153: the six memory-word waits, by their condition. Conventions of the model: log 18
and log 67.
Completes: semWait, semPost, semRd, ringDecl, ringWait, ringRel, ringWp, barArrive, barWait, barSync, waitvEq, waitvNe,
waitvLt, waitvGe, waitvLtu, waitvGeu. -/
def Obligations.SynchronisationWords : Prop :=
  (∀ (m : Marks) (t3 : BitVec 3) (k : BitVec 5) (cnt : BitVec 9) (lim : BitVec 4) (d : Sreg) (s : State),
    Runs s → s.me.inRep = false →
    let y : Tl := t3.toFin
    let now : BitVec 16 := (s.tile s.cur.c y).sems.get k.toFin
    let ident : BitVec 16 := BitVec.ofNat 16 (0x1000 + 256 * t3.toNat + k.toNat)
    (s.tileOk s.cur.c y = true →
      (cnt = 0 → ∃ t, exec (.semWait m t3 k cnt lim) s = .next t ∧ FlowFrame s t ∧
        t.me.place = bodyEnd s.me s.me.pc (s.me.pc + 4)) ∧
      (cnt ≠ 0 → ∃ t, exec (.semWait m t3 k cnt lim) s = .next t ∧ Waits s t (.sem y k cnt.toNat) lim ∧
        t.tile s.cur.c y = { s.tile s.cur.c y with semNew := (s.tile s.cur.c y).semNew ++ [⟨k.toNat, .strand s.cur.k, cnt.toNat⟩] }) ∧
      (now.toNat + cnt.toNat ≤ 65535 → s.me.pend = [] → ∃ t, exec (.semPost m t3 k cnt) s = .next t ∧ CoreFrame s t ∧
        ((t.tile s.cur.c y).sems.get k.toFin).toNat = now.toNat + cnt.toNat ∧
        (∀ j : Fin 32, j ≠ k.toFin → (t.tile s.cur.c y).sems.get j = (s.tile s.cur.c y).sems.get j) ∧
        ∀ z, z ≠ y → t.tile s.cur.c z = s.tile s.cur.c z) ∧
      (65535 < now.toNat + cnt.toNat → Traps (.semPost m t3 k cnt) s 0x05 ident 5) ∧
      (Fits s [d.toNat] → ∃ t, exec (.semRd m t3 k d) s = .next t ∧ t.me.regs.get d.toFin = now.setWidth 64 ∧
        t.me.flights = s.me.flights ++ [⟨.reg d, s.cycle + 12, none, s.cycle⟩] ∧ RegFrame s t d)) ∧
    (s.tileOk s.cur.c y = false →
      Traps (.semWait m t3 k cnt lim) s 0x05 ident 1 ∧ Traps (.semPost m t3 k cnt) s 0x05 ident 1 ∧
      (Fits s [d.toNat] → Traps (.semRd m t3 k d) s 0x05 ident 1))) ∧
  (∀ (m : Marks) (t3 : BitVec 3) (g h : BitVec 5) (ns : BitVec 8) (cnt : BitVec 9) (lim : BitVec 4) (d : Sreg) (s : State),
    Runs s → s.me.inRep = false → s.tileOk s.cur.c t3.toFin = true →
    let y : Tl := t3.toFin
    let r : Ring := (s.tile s.cur.c y).rings.get g.toFin
    let hd := readHandle s h
    let ident : BitVec 16 := BitVec.ofNat 16 (0x2000 + 256 * t3.toNat + g.toNat)
    let region := hd.ext0 ≠ 0 ∧ hd.space.toNat ≤ 4 ∧
      inspaceEng s s.cur.c hd.space.toNat hd.addr.toNat (ns.toNat * (64 * hd.ext0.toNat)) = true
    let changes (t : State) (v : Ring) : Prop := CoreFrame s t ∧ (t.tile s.cur.c y).rings.get g.toFin = v ∧
      ∀ j : Fin 32, j ≠ g.toFin → (t.tile s.cur.c y).rings.get j = (s.tile s.cur.c y).rings.get j
    let under := ∃ d ∈ (s.tile s.cur.c y).decls, d.strand = s.cur.k
    (s.me.tld = false → region → exec (.ringDecl m t3 g h ns) s =
      .next ((s.modTile s.cur.c y fun z => { z with decls := z.decls ++ [⟨s.cur.k, g, h, ns⟩] }).modMe fun z =>
        { z with tld := true, tried := s.cycle + 1 })) ∧
    (s.me.tld = false → ringBusy (s.tile s.cur.c y) y g = true → ¬region → Holds (.ringDecl m t3 g h ns) s) ∧
    (s.me.tld = false → ringBusy (s.tile s.cur.c y) y g = false → ¬region → Traps (.ringDecl m t3 g h ns) s 0x05 ident 7) ∧
    (s.me.tld = true → under → Holds (.ringDecl m t3 g h ns) s) ∧
    (s.me.tld = true → ¬under → ∃ t, exec (.ringDecl m t3 g h ns) s = .next t ∧ WordFrame s t ∧ t.me.tld = false ∧
      t.me.place = bodyEnd s.me s.me.pc (s.me.pc + 4) ∧ { t.me.still with tld := s.me.tld } = s.me.still) ∧
    (r.declared = true →
      (r.ns < cnt.toNat → Traps (.ringWait m t3 g cnt lim) s 0x05 ident 3) ∧
      (cnt = 0 → ∃ t, exec (.ringWait m t3 g cnt lim) s = .next t ∧ FlowFrame s t) ∧
      (cnt ≠ 0 → cnt.toNat ≤ r.ns → ∃ t, exec (.ringWait m t3 g cnt lim) s = .next t ∧ Waits s t (.ring y g cnt.toNat) lim) ∧
      ((r.fill - r.free).toNat < cnt.toNat → Traps (.ringRel m t3 g cnt) s 0x05 ident 4) ∧
      (cnt.toNat ≤ (r.fill - r.free).toNat → s.me.pend = [] → ∃ t, exec (.ringRel m t3 g cnt) s = .next t ∧
        changes t { r with free := r.free + BitVec.ofNat 32 cnt.toNat }) ∧
      (Fits s [d.toNat] → ∃ t, exec (.ringWp m t3 g d) s = .next t ∧ RegFrame s t d ∧
        t.me.regs.get d.toFin = BitVec.ofNat 64 (r.fill.toNat * 2 ^ 32 + r.wb) ∧
        t.me.flights = s.me.flights ++ [⟨.reg d, s.cycle + 12, none, s.cycle⟩])) ∧
    (r.declared = false → Traps (.ringWait m t3 g cnt lim) s 0x05 ident 2 ∧ Traps (.ringRel m t3 g cnt) s 0x05 ident 2 ∧
      (Fits s [d.toNat] → Traps (.ringWp m t3 g d) s 0x05 ident 2))) ∧
  (∀ (m : Marks) (b : BitVec 4) (lim : BitVec 4) (s : State) (g : Gang),
    Runs s → s.me.inRep = false → s.gangOf s.cur.c = some g → s.me.pend = [] →
    let bar : Barrier := g.bars.get b.toFin
    let me : Cl × Sn := (s.cur.c, s.cur.k)
    let u := releaseAt s.cur.c (scopeSet s s.cur.c 1) s
    let ends := participants u g ≤ bar.arrived.length + 1 ∧ ¬(b = 15 ∧ g.preempt = some .node)
    let joined : Barrier := if ends then ⟨bar.phase + 1, []⟩ else ⟨bar.phase, bar.arrived ++ [me]⟩
    let shows (t : State) (v : Barrier) : Prop := (t.gang? g.id).map (·.bars.get b.toFin) = some v
    (me ∉ bar.arrived → ∃ t, exec (.barArrive m b) s = .next t ∧ shows t joined ∧ t.mem = u.mem ∧ t.me.still = s.me.still) ∧
    (me ∈ bar.arrived → Traps (.barArrive m b) s 0x05 (BitVec.ofNat 16 (0x3000 + b.toNat)) 6) ∧
    (me ∈ bar.arrived → ∃ t, exec (.barWait m b lim) s = .next t ∧ Waits s t (.bar b bar.phase) lim) ∧
    (me ∉ bar.arrived → ∃ t, exec (.barWait m b lim) s = .next t ∧ t.me.still = s.me.still ∧
      t.me.place = bodyEnd s.me s.me.pc (s.me.pc + 4)) ∧
    (me ∉ bar.arrived → ¬ends →
      ∃ t, exec (.barSync m b lim) s = .next t ∧ shows t joined ∧ t.me.pc = s.me.pc ∧
        t.me.wait = some ⟨.bar b bar.phase, s.cycle, s.cycle + 2 ^ (lim.toNat + 8)⟩) ∧
    (me ∉ bar.arrived → ends →
      ∃ t, exec (.barSync m b lim) s = .next t ∧ shows t joined ∧ t.me.still = s.me.still ∧
        t.me.place = bodyEnd s.me s.me.pc (s.me.pc + 4))) ∧
  (∀ (m : Marks) (dw : Bool) (a b : Sreg) (lim : BitVec 4),
    WaitvWord (.waitvEq m dw a b lim) 0 dw a b lim ∧ WaitvWord (.waitvNe m dw a b lim) 1 dw a b lim ∧
    WaitvWord (.waitvLt m dw a b lim) 2 dw a b lim ∧ WaitvWord (.waitvGe m dw a b lim) 3 dw a b lim ∧
    WaitvWord (.waitvLtu m dw a b lim) 4 dw a b lim ∧ WaitvWord (.waitvGeu m dw a b lim) 5 dw a b lim)

/-- R141, R152, R153, R193, R284: what ends a wait. A re-read of a memory-word wait grants it when the word satisfies the
condition, else the strand waits on. A wait that reaches its expiry in a tick whose grants are made leaves with the wait-expiry
trap, the wait's word in xepc, its object in the detail, the value asked for and the value seen in xtval: of a semaphore its
value, of a ring its filled slots, of a barrier its participants and its arrivals, of a memory word the low 32 bits that its
last read saw (0 where none has been answered), of an efence the sequence number and the queue's latest stopped entry. A barrier's phase that is over, or a
queue that has stopped, wins. Before its tick an expiry does nothing. Conventions of the model: log 21.
Completes: waitvReread, waitExpiry. -/
def Obligations.WaitsEnd : Prop :=
  ∀ (s : State) (c : Cl) (k : Sn) (w : Wait), (s.strand c k).wait = some w →
    let due := w.expiry / 3 ≤ s.cycle / 3 ∧ s.ticked = s.cycle / 3 + 1
    let expires (kind num asked seen : Nat) : Prop :=
      exec (.waitExpiry c k) s = .next (takeTrap s c k true 0x07 false (BitVec.ofNat 16 (0x1000 * kind + num))
        (BitVec.ofNat 64 (asked + seen * 2 ^ 32)) (s.strand c k).pc)
    (∀ cond dw y seen counted tgt s1 l sp key, w.obj = .mem cond dw tgt y seen counted →
      resolve s c tgt true false = (s1, .ok (.loc l sp key)) →
      let n := if dw then 8 else 4
      let home := leaveCache c l s1
      let v := ofBytes (readHome home l n)
      let num (x : W) : Int := if cond = 2 ∨ cond = 3 then x.toInt else (x.toNat : Int)
      let read : Int := if cond = 2 ∨ cond = 3 then (BitVec.ofNat (8 * n) v).toInt else (v % 2 ^ (8 * n) : Nat)
      let holds : Prop := match cond with
        | 0 => read = num y
        | 1 => read ≠ num y
        | 2 => read < num y
        | 3 => num y ≤ read
        | 4 => read < num y
        | _ => num y ≤ read
      s1.poisonedIn l n = none →
      (∀ p ∈ (s.strand c k).pend, ordered s1 c p ⟨.load 0 n false, 0, .loc l sp key, none, none, true, 0⟩ = false) →
        (holds → ∃ t, exec (.waitvReread c k) s = .next t ∧ Granted s t c k) ∧
        (¬holds → ∃ t, exec (.waitvReread c k) s = .next t ∧ t.mem = home.mem ∧
          t.strand c k = { s.strand c k with wait := some { w with obj := .mem cond dw tgt y (BitVec.ofNat 64 v) counted } })) ∧
    (∀ cond dw y seen counted tgt, w.obj = .mem cond dw tgt y seen counted → due →
      expires 4 (256 * cond + dw.toNat) (y.toNat % 2 ^ 32) (seen.toNat % 2 ^ 32)) ∧
    (due →
      (∀ y q n, w.obj = .sem y q n → expires 1 (256 * y.val + q.toNat) n ((s.tile c y).sems.get q.toFin).toNat) ∧
      (∀ y q n, w.obj = .ring y q n →
        let r := (s.tile c y).rings.get q.toFin
        expires 2 (256 * y.val + q.toNat) n (r.fill - r.free).toNat) ∧
      (∀ b phase g, w.obj = .bar b phase → s.gangOf c = some g →
        let bar := g.bars.get b.toFin
        (bar.phase = phase → expires 3 b.toNat (participants s g) bar.arrived.length) ∧
        (bar.phase ≠ phase → ∃ t, exec (.waitExpiry c k) s = .next t ∧ Granted s t c k)) ∧
      (∀ e all ts, w.obj = .efence e all ts →
        (∀ y q n, (ts.filter fun x => !(s.tile c x.1).stoppedUpTo x.2.1 x.2.2).head? = some (y, q, n) →
          expires 5 (256 * y.val + q.code) n.toNat ((s.tile c y).queue q).done.toNat) ∧
        ((∀ x ∈ ts, (s.tile c x.1).stoppedUpTo x.2.1 x.2.2 = true) →
          ∃ t, exec (.waitExpiry c k) s = .next t ∧ Granted s t c k))) ∧
    (s.cycle / 3 < w.expiry / 3 → exec (.waitExpiry c k) s = .next s)

/-- R51, R52, R63, R154 to R156: the handle words: h.ld from a scratchpad, h.set and h.adv write one field, h.mov and h.clr
all of them; h.get reads a field, strides sign-extended; h.adv adds steps × stride × element size modulo 2^57. R51: a handle's
fields and its 256 bits: a field that is set reads back in its width, no other field changes, and the layout gives the handle
back from its bits.
Completes: hLd, hSet, hGet, hAdv, hMov, hClr. -/
def Obligations.HandleWords : Prop :=
  (∀ (m : Marks) (h g : BitVec 5) (x : Sreg) (f : BitVec 4) (cls : BitVec 4) (s : State), Runs s →
    let old := s.myCore.handles.get h.toFin
    (∀ o, Fits s [x.toNat] → target s s.cur.c (rd s x 1) 32 = .ok (0, o) →
      let l := spadLoc s.cur.c (Fin.ofNat 8 (o / 2 ^ 20)) (o % 2 ^ 20)
      NothingBefore s 32 cls.toNat (.loc l 0) → s.poisonedIn l 32 = none →
      ∃ t, exec (.hLd m h x cls) s = .next t ∧ WritesHandle s t h (Handle.ofNat (ofBytes (readHome s l 32))) 0x7ff 12) ∧
    (Fits s [x.toNat] → ∃ t, exec (.hSet m h x f) s = .next t ∧
      WritesHandle s t h (old.setField f.toNat (rd s x 1)) (1 <<< f.toNat) 1) ∧
    (Fits s [x.toNat] → s.myCore.hflights = [] → ∃ t, exec (.hGet m h x f) s = .next t ∧
      t.me.regs.get x.toFin = old.field f.toNat ∧ t.me.flights = s.me.flights ++ [⟨.reg x, s.cycle + 1, none, s.cycle⟩] ∧ RegFrame s t x) ∧
    (Fits s [x.toNat] → s.myCore.hflights = [] → f.toNat < 4 →
      let v : Int := (rd s x 1).toInt * (old.field (4 + 2 * f.toNat)).toInt * unitOf old.type.toNat
      ∃ t, exec (.hAdv m h x f) s = .next t ∧ (old.space ≠ 6 → WritesHandle s t h { old with addr := old.addr + BitVec.ofInt 57 v } 1 1) ∧
        (old.space = 6 → ∃ w, WritesHandle s t h { old with addr := w } 1 1 ∧ w.toNat / 2 ^ 41 = old.addr.toNat / 2 ^ 41 ∧
          (w.toNat : Int) % 2 ^ 41 = (old.addr.toNat + v) % 2 ^ 41)) ∧
    (s.myCore.hflights = [] → ∃ t, exec (.hMov m h g) s = .next t ∧ WritesHandle s t h (s.myCore.handles.get g.toFin) 0x7ff 1) ∧
    (∃ t, exec (.hClr m h) s = .next t ∧ WritesHandle s t h ⟨0, 0, 0, 0, 0, 0, 0, 0, 0, 0, 0⟩ 0x7ff 1)) ∧
  (∀ (h : Handle) (i j : Nat) (v : W), i < 11 → j < 11 →
    let width : Nat := if i = 0 then 57 else if i = 1 then 3 else if i = 2 then 4 else if i % 2 = 1 then 16 else 32
    ((h.setField i v).field i).toNat % 2 ^ width = v.toNat % 2 ^ width ∧
    (i ≠ j → (h.setField i v).field j = h.field j) ∧
    Handle.ofNat h.toNat = h ∧ h.toNat < 2 ^ 256)

/-- R165 to R167, R182, R187 to R192: patch words, epatch and ebind hand their change to every chosen tile, with an issue
behind it where they go; eissue hands an issue; a word that issues holds until each chosen queue has room. R188, R193 to R195:
tmask sets the mask for the next word; efence goes on when every entry issued to the queues it names has stopped, else waits
for them; egen raises the generation and reads it, bound 2; estat reads a queue's status, bound 12, or object fault 1 on a
disabled tile. R131, R196: tmpl.ld reads 256 bytes and hands them to every chosen tile behind the changes under way, holds until
they stand written, then goes on; tmpl.st holds while changes of its tile are under way, and posts the template of the lowest chosen tile as four 64-byte stores in class 0. With no tile chosen both go
on.
Completes: tmask, epatch, ebind, eissue, efence, egen, estat, tmplLd, tmplSt, pwL, pwM, pwV, pwS. -/
def Obligations.EngineWords : Prop :=
  (∀ (m : Marks) (t : BitVec 6) (f : BitVec 5) (go : Bool) (v : BitVec 16) (a : Sreg) (e2 : BitVec 2) (h : BitVec 5) (slot : BitVec 2),
    let room (e : Eng) : State → Prop := fun s => ∀ y, Chosen s y → (s.tile s.cur.c y).hasRoom e = true
    let goes (e : Eng) (s : State) : List Amend := if go then [.issue e t s.myCore.xgen s.cur.k] else []
    let patch (i : Instr) (e : Eng) : Prop :=
      Amends i [] (fun s => go = true → room e s) (fun s => .patch e t f v :: goes e s) ∧
      ∀ s, Runs s → go = true → ¬room e s → Holds i s
    let e : Eng := if e2 = 0 then .l else if e2 = 1 then .m else if e2 = 2 then .v else .s
    patch (.pwL t go f v) .l ∧ patch (.pwM t go f v) .m ∧ patch (.pwV t go f v) .v ∧ patch (.pwS t go f v) .s ∧
    Amends (.epatch m e2 t f go a) [a.toNat] (fun s => go = true → room e s) (fun s => .field e t f (rd s a 1) :: goes e s) ∧
    Amends (.eissue m e2 t) [] (room e) (fun s => [.issue e t s.myCore.xgen s.cur.k]) ∧
    (∀ s, Runs s → ¬room e s → Holds (.eissue m e2 t) s) ∧
    Amends (.ebind m e2 t h slot) [] (fun s => (readHandle s h).wideStride = none) (fun s =>
      let hd := readHandle s h
      let st (i : Int) : Nat := (BitVec.ofInt 21 i).toNat
      [.bind e t slot hd.base (BitVec.ofNat 7 (hd.type.toNat + 16 * hd.space.toNat))
        (BitVec.ofNat 64 (st hd.str0.toInt + st hd.str1.toInt * 2 ^ 21 + st hd.str2.toInt * 2 ^ 42)) (BitVec.ofInt 21 hd.str3.toInt)]) ∧
    (∀ s j, Runs s → (readHandle s h).wideStride = some j →
      Traps (.ebind m e2 t h slot) s 0x0c (BitVec.ofNat 16 (4 + 2 * j)) (s.cur.word.setWidth 64))) ∧
  (∀ (m : Marks) (a d : Sreg) (e2 : BitVec 2) (all : Bool) (lim : BitVec 4) (t3 : BitVec 3) (s : State), Runs s → s.me.inRep = false →
    let e : Eng := Eng.ofCode e2.toNat
    let y : Tl := t3.toFin
    let es : List Eng := if all then [.l, .m, .v, .s] else [e]
    let named : List (Tl × Eng × BitVec 32) :=
      ((List.finRange 8).filter fun z => s.me.xtmask.getLsbD z.val && s.tileOk s.cur.c z).flatMap fun z =>
        es.map fun q => (z, q, (s.tile s.cur.c z).latestSeq q)
    let running := ∃ x ∈ named, (s.tile s.cur.c x.1).stoppedUpTo x.2.1 x.2.2 = false
    (Fits s [a.toNat] → ∃ t, exec (.tmask m a) s = .next t ∧ WordFrame s t ∧ t.me.xtmask = (rd s a 1).setWidth 8 ∧
      { t.me.still with xtmask := s.me.xtmask, ctl := s.me.ctl } = s.me.still) ∧
    (¬running → ∃ t, exec (.efence m e2 all lim) s = .next t ∧ FlowFrame s t ∧ t.me.place = bodyEnd s.me s.me.pc (s.me.pc + 4)) ∧
    (running → ∃ t, exec (.efence m e2 all lim) s = .next t ∧ Waits s t (.efence e all named) lim) ∧
    (Fits s [d.toNat] → ∃ t, exec (.egen m d) s = .next t ∧ t.myCore.xgen = s.myCore.xgen + 1 ∧
      t.me.regs.get d.toFin = (s.myCore.xgen + 1).setWidth 64 ∧ t.me.flights = s.me.flights ++ [⟨.reg d, s.cycle + 2, none, s.cycle⟩] ∧
      ∀ r : Fin 32, r ≠ d.toFin → t.me.regs.get r = s.me.regs.get r) ∧
    (s.tileOk s.cur.c y = true → Fits s [d.toNat] → ∃ t, exec (.estat m e2 d t3) s = .next t ∧ RegFrame s t d ∧
      t.me.regs.get d.toFin = ((s.tile s.cur.c y).queue e).status ∧ t.me.flights = s.me.flights ++ [⟨.reg d, s.cycle + 12, none, s.cycle⟩]) ∧
    (s.tileOk s.cur.c y = false → Fits s [d.toNat] →
      Traps (.estat m e2 d t3) s 0x05 (BitVec.ofNat 16 (0x5000 + 256 * t3.toNat + e2.toNat)) 1)) ∧
  (∀ (m : Marks) (e2 : BitVec 2) (t : BitVec 6) (a : Sreg) (s : State), Runs s → Fits s [a.toNat] →
    let e : Eng := Eng.ofCode e2.toNat
    ((∀ y, ¬Chosen s y) → (s.me.tld = false → ∃ u, exec (.tmplLd m e2 t a) s = .next u ∧ FlowFrame s u) ∧
      ∃ u, exec (.tmplSt m e2 t a) s = .next u ∧ FlowFrame s u) ∧
    (∀ y o, Chosen s y → s.me.tld = false → s.me.pend = [] → target s s.cur.c (rd s a 1) 256 = .ok (0, o) →
      let l := spadLoc s.cur.c (Fin.ofNat 8 (o / 2 ^ 20)) (o % 2 ^ 20)
      s.poisonedIn l 256 = none → ∃ u, exec (.tmplLd m e2 t a) s = .next u ∧ u.mem = s.mem ∧ u.me.tld = true ∧ u.me.pc = s.me.pc ∧
        u.me.tried = s.cycle + 1 ∧ ∀ z, (u.tile s.cur.c z).tlds = (s.tile s.cur.c z).tlds ++
          if s.me.xtmask.getLsbD z.val && s.tileOk s.cur.c z then
            [⟨(s.tile s.cur.c z).amends.length, s.cur.k, e, t, (List.range 32).map fun i => BitVec.ofNat 64 (ofBytes (readHome s (l + 8 * i) 8))⟩] else []) ∧
    (s.me.tld = true → (∀ z, ∀ x ∈ (s.tile s.cur.c z).tlds, x.strand ≠ s.cur.k) → ∃ u, exec (.tmplLd m e2 t a) s = .next u ∧
      u.me.tld = false ∧ WordFrame s u ∧ { u.me.still with tld := s.me.tld } = s.me.still) ∧
    (s.me.tld = true → (∃ z, ∃ x ∈ (s.tile s.cur.c z).tlds, x.strand = s.cur.k) → Holds (.tmplLd m e2 t a) s) ∧
    (∀ y o, Chosen s y → (∀ z, Chosen s z → y.val ≤ z.val) → target s s.cur.c (rd s a 1) 256 = .ok (0, o) →
      let free := (s.tile s.cur.c y).amends = [] ∧ (s.tile s.cur.c y).tlds = []
      let l := spadLoc s.cur.c (Fin.ofNat 8 (o / 2 ^ 20)) (o % 2 ^ 20)
      let bs := ((s.tile s.cur.c y).template e t).flatMap fun v => bytesOf 8 v.toNat
      (free → s.me.storesBuffered ≤ 12 → ∃ u, exec (.tmplSt m e2 t a) s = .next u ∧ PendFrame s u ∧
        u.me.pend = s.me.pend ++ [0, 64, 128, 192].map fun i =>
          ⟨.store ((bs.drop i).take 64), 0, .loc (l + i) 0, none, none, false, s.me.pc⟩) ∧
      (12 < s.me.storesBuffered ∨ ¬free → Holds (.tmplSt m e2 t a) s)))

/-- Elementwise arithmetic (07 R214): operand B or the immediate y0, the old D or y1 as the addend of fma. On rows of any nest
(R200), with the flush to zero of R21 and the generators of R29 under stochastic rounding (R201, R202).
Completes: vAdd, vSub, vMul, vFma, vMin, vMax, vAbs, vNeg. -/
def Obligations.VectorArithmetic : Prop :=
  let B (f : Block) := if fbits f 22 0 1 = 0 then [1, 2] else [1]
  let y (m : Nat → Byte) (f : Block) (x : Nat → Nat) := if fbits f 22 0 1 = 0 then valOn m f 2 (x 2) else y0 f
  let two (i : Cl → Tl → Instr) (op : Nat) (fx : Block → XVal → XVal → XVal) (fi : Int → Int → Int) :=
    Elementwise i op B fun _ _ f m x => onValues (fx f) fi (valOn m f 1 (x 1)) (y m f x)
  let one (i : Cl → Tl → Instr) (op : Nat) (fx : XVal → XVal) (fi : Int → Int) :=
    Elementwise i op (fun _ => [1]) fun _ _ f m x => match valOn m f 1 (x 1) with
      | .i a => .i (fi a)
      | .f a => .f (if a.isNan then .nan false else fx a)
  two .vAdd 1 (fun f a b => a.add (rmOf f) b) (· + ·) ∧
  two .vSub 2 (fun f a b => a.add (rmOf f) b.neg) (· - ·) ∧
  two .vMul 3 (fun _ a b => a.mul b) (· * ·) ∧
  two .vMin 5 (fun _ => xmin) min ∧
  two .vMax 6 (fun _ => xmax) max ∧
  one .vAbs 7 XVal.abs (fun a => (a.natAbs : Int)) ∧
  one .vNeg 8 XVal.neg (fun a => -a) ∧
  Elementwise .vFma 4 B (fun _ _ f m x =>
    match valOn m f 1 (x 1), y m f x, (if fbits f 22 1 1 = 0 then valOn m f 0 (x 0) else y1 f) with
    | .i a, .i b, .i c => .i (a * b + c)
    | a, b, c => .f ((a.real.mul b.real).add (rmOf f) c.real))

/-- Bounds, conversion, scaling, selection, moves along a row, counting (07 R215, R216, R219, R228), on rows of any nest (R200):
scale takes its factor and bcast its element at i0 = 0 of the row, perm its element where B says, iota counts in the nest's linear order.
With the flush to zero of R21 and the generators of R29 under stochastic rounding (R201, R202). Conventions of the model: log
22.
Completes: clamp, vCvt, scale, cmpsel, bcast, perm, iota. -/
def Obligations.VectorSelection : Prop :=
  Elementwise .clamp 9 (fun _ => [1]) (fun _ _ f m x => match valOn m f 1 (x 1), y0 f, y1 f with
    | .i a, .i lo, .i hi => .i (min (max a lo) hi)
    | a, lo, hi => .f (if a.real.isNan || lo.real.isNan || hi.real.isNan then .nan false else xmin (xmax a.real lo.real) hi.real)) ∧
  PerformsNest .vCvt 0xa
    { used := atEach [0, 1], elem := fun _ f _ m k j x => .convert f (valOn m f 1 (x 1 (indexOf f (k + j)))) } ∧
  PerformsNest .scale 0xb
    { used := fun f k n => atEach [0, 1] f k n ++ [(2, atPlace f k 0)]
      elem := fun _ f _ m k j x =>
        .value (satOf f) (onValues XVal.mul (· * ·) (valOn m f 1 (x 1 (indexOf f (k + j)))) (valOn m f 2 (x 2 (atPlace f k 0)))) } ∧
  Elementwise .cmpsel 0xc (fun _ => [1, 2]) (fun _ _ f m x =>
    let a := (valOn m f 1 (x 1)).real
    let b := (y0 f).real
    let holds := match fbits f 22 4 3 with
      | 0 => a.eqv b
      | 1 => !a.eqv b
      | 2 => a.lt b
      | 3 => a.lt b || a.eqv b
      | 4 => b.lt a
      | 5 => b.lt a || a.eqv b
      | _ => a.isNan || b.isNan
    if holds then valOn m f 2 (x 2) else y1 f) ∧
  PerformsNest .iota 0x2a
    { used := atEach [0], elem := fun _ f _ _ k j _ => .value (satOf f) (.i (sx (fbits f 23 0 32) 32 + (k + j : Nat) * sx (fbits f 23 32 32) 32)) } ∧
  PerformsNest .bcast 0x14
    { used := fun f k n => (1, atPlace f k 0) :: atEach [0] f k n, elem := fun _ f _ m k _ x => .move m f (x 1 (atPlace f k 0)) } ∧
  PerformsNest .perm 0x15
    { used := fun f k n => atEach [0, 2] f k n ++ (List.range n).map fun j => (1, atPlace f k j)
      elem := fun _ f _ m k j x =>
        let p := flushed f (tyOf f 2) (codeIn m (tyOf f 2) (x 2 (indexOf f (k + j))))
        if extOf f 0 ≤ p then .code (fbits f 23 0 32) else .convert f (valOn m f 1 (x 1 (atPlace f k p))) }

/-- Functions of one value, by built-in or by table, and block-scaled values (07 R220 to R222, R224, R225; 01 R41, R42); those of one
element on rows of any nest (R200), with the flush to zero of R21 and the generators of R29 (R201, R202).
Conventions of the model: log 36, 67 (DESIGN CHOICE: a zero Z-scale of dqblk gives +0 for every code).
Completes: qblk, dqblk, accRd, tint, exp2, rcp, rsqrt. -/
def Obligations.VectorFunctions : Prop :=
  let fn (i : Cl → Tl → Instr) (op : Nat) (g : XVal → XVal) :=
    Elementwise i op (fun _ => [1]) fun _ _ f m x => .f (rne (g (rne (valOn m f 1 (x 1)).real)))
  fn .exp2 0x22 exp2Val ∧
  fn .rcp 0x23 (fun y => if y.isNan then .nan false else (XVal.fin false 1 1).div y) ∧
  fn .rsqrt 0x24 rsqrtVal ∧
  Elementwise .tint 0x21 (fun _ => [1]) (fun _ y f m x =>
    .f (tinterp (roundTo fp32 0 0 false (valOn m f 1 (x 1)).real).1 (y.slots.get (Fin.ofNat 2 (fbits f 22 0 1))))) ∧
  PerformsNest .dqblk 0x19
    { used := atEach [0, 1]
      elem := fun v f _ m k j x =>
        let z := zdecode (tableOn m v ((fbits f 23 0 20 + 2 * (k / extOf f 0 * ((extOf f 0 + 31) / 32) + j / 32)) % 2 ^ 20) 2 % 2 ^ 10)
        .value (satOf f) (.f (if z.isNan then .nan false else if z.isZero then .zero else (valOn m f 1 (x 1 (indexOf f (k + j)))).real.mul z)) } ∧
  PerformsRow .qblk 0x18
    { used := fun n => [(0, n), (1, n)]
      ok := fun v f n x => (tyOf f 0 = 4 ∨ tyOf f 0 = 5) ∧ fbits f 23 0 20 + 2 * ((n + 31) / 32) ≤ 0xc0000 ∧
        ∀ i j, i < n → j < n → i / 32 < j / 32 → Apart (elemSpan f 0 (x 0 i)) (elemSpan f 1 (x 1 j)) ∧
          Apart (spadLoc v.c v.t (fbits f 23 0 20 + 2 * (i / 32)), 2) (elemSpan f 1 (x 1 j))
      writes := fun s v f n x => (List.range ((n + 31) / 32)).flatMap fun m =>
        let js := (List.range (min 32 (n - 32 * m))).map (32 * m + ·)
        let a (j : Nat) : XVal := (valOf (tyOf f 1) (codeAt s (tyOf f 1) (x 1 j))).real
        let sc := blockScale (tyOf f 0) (js.map a)
        .bytes (spadLoc v.c v.t (fbits f 23 0 20 + 2 * m)) (bytesOf 2 sc) :: js.flatMap fun j =>
          codeToD f (x 0 j) (if sc = 0 ∨ sc = 0x3f8 then 0 else (roundTo (fmtOf (tyOf f 0)) (rmOf f) 0 true ((a j).div (zdecode sc))).1) } ∧
  (∀ (ty : Nat) (xs : List XVal), ty = 4 ∨ ty = 5 → (∀ a ∈ xs, ∃ (g : Fmt) (c : Nat), a = g.decode c) →
    let top := (fmtOf ty).decode (fmtOf ty).maxCode
    ((∃ a ∈ xs, a.isNan = true ∨ a.isInf = true) → blockScale ty xs = 0x3f8) ∧
    ((∀ a ∈ xs, a.isZero = true) → blockScale ty xs = 0) ∧
    ((∀ a ∈ xs, a.isNan = false ∧ a.isInf = false) → (∃ a ∈ xs, a.isZero = false) →
      blockScale ty xs < 0x3f8 ∧ (blockScale ty xs = 0x3f7 ∨ ∀ a ∈ xs, ((zdecode (blockScale ty xs)).mul top).lt a.abs = false) ∧
        ∀ k, k < blockScale ty xs → ∃ a ∈ xs, ((zdecode k).mul top).lt a.abs = true)) ∧
  Performs .accRd .v 0x1a
    { used := fun f => [(0, 8), (1, 8)] ++ if fbits f 22 0 1 = 1 then [(2, 8)] else []
      ok := fun _ _ f _ => tyOf f 1 = 0 ∨ tyOf f 1 = 8
      writes := fun s v f x =>
        let sc := if fbits f 22 0 1 = 1 then (valIn s f 2 x).real else fp32.decode (fbits f 23 0 32)
        let p := (valIn s f 1 x).real.mul sc
        let q := if fbits f 22 1 1 = 1 then p.add (rmOf f) (fp32.decode (tableAt s v (fbits f 24 0 20 / 4 * 4) 4)) else p
        toD f (x 0) (.f (if fbits f 22 2 2 = 1 then relu q else q)) ++
          if fbits f 22 4 1 = 1 then codeTo f 1 (x 1) 0 else [] }

/-- A reduction folds its row in the tree of R39, or exactly for integers, and its result lands 8 ticks after the row (07 R217,
R231; 01 R39, R40), counted from the row's last tick, of which a cluster in bin 2 takes every second (R415); a scan writes the running value of its row, with the element or without it (R218); an emit forwards (R230).
Conventions of the model: log 67.
Completes: redsum, redmax, redmin, scan, emit. -/
def Obligations.VectorRowResults : Prop :=
  let val (s : State) (f : Block) (x : Nat → Nat → Nat) (j : Nat) : Val := valOf (tyOf f 1) (codeAt s (tyOf f 1) (x 1 j))
  let red (i : Cl → Tl → Instr) (op : Nat) (g : XVal → XVal → XVal) (unit : XVal) (k : Int → Int → Int) :=
    PerformsRow i op
      { used := fun n => [(0, 1), (1, n)]
        ok := fun _ f _ _ => tyOf f 0 ≠ 5
        tile := fun s v f n x y =>
          let pace := if (s.core v.c).bin = 2 then 2 else 1
          let z : Val :=
            if isFloatTy (tyOf f 1) then .f (reduceRow g 8 (foldLanes g unit ((List.range n).map fun j => (val s f x j).real)))
            else .i (((List.range (n - 1)).map fun j => (val s f x (j + 1)).int).foldl k (val s f x 0).int)
          { y with
            redLand := y.redLand ++
              [Landing.mk (tickOf s.cycle + pace * ((n + 255) / 256 - 1) + 8) (x 0 0) (bytesOf (unitOf (tyOf f 0)) (writtenCode f (tyOf f 0) z))] } }
  red .redsum 0x10 addRne (.fin true 0 1) (· + ·) ∧
  red .redmax 0x11 xmax (.inf true) max ∧
  red .redmin 0x12 xmin (.inf false) min ∧
  (∀ (g : XVal → XVal → XVal) (unit a b : XVal), foldLanes g unit [a, b] = [g unit a, g unit b] ++ List.replicate 254 unit ∧
    ∀ l : List XVal, l.length = 2 → reduceRow g 1 l = g (l.headD .zero) (l.tail.headD .zero)) ∧
  PerformsRow .scan 0x13
    { used := fun n => [(0, n), (1, n)]
      ok := fun _ f n x => oneClass f [0, 1] = true ∧
        ∀ i j, i < j → j < n → Apart (elemSpan f 0 (x 0 i)) (elemSpan f 1 (x 1 j))
      writes := fun s _ f n x =>
        let most := fbits f 22 1 1 = 1
        let first : Val := if isFloatTy (tyOf f 1) then .f (if most then .inf true else .fin true 0 1)
          else .i (if most ∧ signedTy (tyOf f 1) = true then -(2 ^ (typeBits (tyOf f 1) - 1) : Nat) else 0)
        let next (acc y : Val) : Val := match acc, y with
          | .i a, .i z => .i (if most then max a z else a + z)
          | acc, y => .f (rne (if most then xmax acc.real y.real else acc.real.add 0 y.real))
        let acc (j : Nat) : Val := ((List.range j).map (val s f x)).foldl next first
        (List.range n).flatMap fun j => toD f (x 0 j) (if fbits f 22 0 1 = 1 then acc j else acc (j + 1)) } ∧
  Performs .emit .v 0x2c
    { used := fun _ => [(1, 8)]
      ok := fun _ _ f _ => isFloatTy (tyOf f 1) = false
      tile := fun s _ f x y =>
        let a : Int := match valIn s f 1 x with
          | .i a => a
          | .f _ => 0
        let z := a * sx (fbits f 23 0 32) 32 + sx (fbits f 23 32 32) 32
        let w : Nat := if fbits f 22 0 1 = 1 then (max 0 (min 65535 z)).toNat else (z % 65536).toNat
        if fbits f 31 21 1 = 1 then
          { y with fwds := y.fwds ++ [(Eng.ofCode (fbits f 31 8 2), BitVec.ofNat 6 (fbits f 31 10 6), BitVec.ofNat 5 (fbits f 31 16 5),
              BitVec.ofNat 16 w)] }
        else y }

/-- Tables, keys, buckets and sorting (07 R223, R226, R227, R229).
Completes: tload, bucket, hashcell, sortnet. -/
def Obligations.VectorTablesAndKeys : Prop :=
  Performs .tload .v 0x20
    { used := fun _ => [(1, 3088)]
      ok := fun _ _ f _ => tyOf f 1 ≠ 5
      tile := fun s _ f x y =>
        let w (k : Nat) : BitVec 32 := BitVec.ofNat 32 (ofBytes (readHome s (x 1 + 4 * k) 4))
        let slot : TableSlot := ⟨w 0, (List.range 256).map fun i => (w (4 + 3 * i), w (5 + 3 * i), w (6 + 3 * i))⟩
        { y with slots := y.slots.set (fbits f 22 0 1 % 2) slot (Nat.mod_lt _ (by decide)) } } ∧
  Performs .hashcell .v 0x29
    { used := fun _ => [(0, 8), (1, 12)]
      ok := fun _ _ f _ => tyOf f 1 = 8 ∧ tyOf f 0 = 11
      writes := fun s _ f x =>
        let w (k : Nat) := ofBytes (readHome s (x 1 + 4 * k) 4)
        codeToD f (x 0)
          (if fbits f 22 0 1 = 1 then
            (w 0 * 0x9e3779b1 % 2 ^ 32 ^^^ w 1 * 0x85ebca77 % 2 ^ 32 ^^^ w 2 * 0xc2b2ae3d % 2 ^ 32) / 2 ^ fbits f 22 8 5
          else if w 0 < fbits f 23 0 16 ∧ w 1 < fbits f 23 16 16 ∧ w 2 < fbits f 23 32 16 then
            (w 2 * fbits f 23 16 16 + w 1) * fbits f 23 0 16 + w 0
          else 0xffffffff) } ∧
  (let ids (f : Block) := fbits f 22 1 1 = 1
   let split (f : Block) := fbits f 22 0 1 = 1
   let key (s : State) (f : Block) (x : Nat → Nat) : Int := match valIn s f 1 x with
     | .i a => a
     | .f _ => 0
   let nb (f : Block) := fbits f 22 16 13
   let ta (f : Block) := tyOf f 1
   let below (s : State) (f : Block) (x : Nat → Nat) : Nat := (List.range (nb f - 1)).countP fun k =>
     match valOf (ta f) (codeAt s (ta f) (x 2 + k * unitOf (ta f))) with
     | .i z => decide (z ≤ key s f x)
     | .f _ => false
   let bkt (s : State) (f : Block) (x : Nat → Nat) : Nat :=
     if split f then below s f x else (min (key s f x / (2 ^ fbits f 22 8 5 : Nat)) ((nb f : Int) - 1)).toNat
   Performs .bucket .v 0x28
    { used := fun f => [(1, 8)] ++ (if ids f then [(0, 8)] else []) ++ if split f then [(2, 8 * nb f)] else []
      ok := fun _ _ f _ => isFloatTy (ta f) = false ∧ typeBits (ta f) ≤ 32 ∧ 1 ≤ nb f ∧ fbits f 23 0 20 / 4 * 4 + 4 * nb f ≤ 0xc0000
      writes := fun s v f x =>
        let w := fbits f 23 0 20 / 4 * 4 + 4 * bkt s f x
        [.bytes (spadLoc v.c v.t w) (bytesOf 4 (tableAt s v w 4 + 1))] ++ if ids f then toD f (x 0) (.i (bkt s f x)) else [] }) ∧
  PerformsRow .sortnet 0x2b
    { used := fun n => [(0, n), (1, n)]
      ok := fun _ f n x => fbits f 22 1 1 = 0 ∧ tyOf f 0 = tyOf f 1 ∧ tyOf f 1 ≠ 5 ∧
        ∀ i j, i < n → j < n → i / 64 < j / 64 → Apart (elemSpan f 0 (x 0 i)) (elemSpan f 1 (x 1 j))
      writes := fun s _ f n x => (List.range ((n + 63) / 64)).flatMap fun m =>
        let js := (List.range (min 64 (n - 64 * m))).map (64 * m + ·)
        (js.zip (sortKeys (keyBefore (tyOf f 1) (fbits f 22 0 1 == 1)) (js.map fun j => (codeAt s (tyOf f 1) (x 1 j), 0)))).flatMap fun z =>
          codeToD f (x 0 z.1) z.2.1 } ∧
  Performs .sortnet .v 0x2b
    { used := fun f => [(0, 8), (1, 8)] ++ if fbits f 22 1 1 = 1 then [(2, 8)] else []
      ok := fun _ _ f _ => tyOf f 0 = tyOf f 1
      writes := fun s v f x => codeToD f (x 0) (codeAt s (tyOf f 1) (x 1)) ++
        if fbits f 22 1 1 = 1 then [.bytes (spadLoc v.c v.t (fbits f 23 0 20)) (bytesOf 4 (codeAt s (tyOf f 2) (x 2)))] else [] } ∧
  ∀ (ty : Nat) (desc : Bool) (l : List (Nat × Nat)),
    (sortKeys (keyBefore ty desc) l).Perm l ∧ (sortKeys (keyBefore ty desc) l).Pairwise (fun a b => keyBefore ty desc b.1 a.1 = false)

/-- The load and store engines (07 R233, R235 to R241): moves, combining, indexed copies, fills, signals, counter posts; a copy of one
element between any two of spaces 0 to 5, swizzled or not, and from space 6, whose refused read gives zeros (R204); one whose
read does not translate, which the entry holds and its die's fault queue reports (12 R346, R348).
Conventions of the model: logs 22, 39 (a prefetch in space 6 installs at the own endpoint alone).
Completes: copy, gather, scatter, scatterBkt, fill, acopy, signal, prefetch, ctrPost. -/
def Obligations.MoveOperators : Prop :=
  let move (i : Cl → Tl → Eng → Instr) (op : Nat) (p : Element) :=
    Performs (fun c t => i c t .l) .l op p ∧ Performs (fun c t => i c t .s) .s op p
  let mix (cop : Nat) (s : State) (f : Block) (a d : Nat) : List Stored :=
    let old := codeAt s (tyOf f 0) d
    let y := valOf (tyOf f 1) (codeAt s (tyOf f 1) a)
    let word : Nat := (match y with
      | .i z => z % (2 ^ typeBits (tyOf f 0) : Nat)
      | .f _ => 0).toNat
    match cop with
    | 0 => toD f d (onValues (fun x y => x.add (rmOf f) y) (· + ·) (valOf (tyOf f 0) old) y)
    | 1 => toD f d (onValues xmin min (valOf (tyOf f 0) old) y)
    | 2 => toD f d (onValues xmax max (valOf (tyOf f 0) old) y)
    | 3 => codeToD f d (old &&& word)
    | 4 => codeToD f d (old ||| word)
    | _ => codeToD f d (old ^^^ word)
  let offset (f : Block) (o j : Nat) : Nat := (((j : Int) * sx (fbits f 24 0 32) 32) * unitOf (tyOf f o)).toNat
  let near (f : Block) (o j : Nat) : Prop := 0 ≤ sx (fbits f 24 0 32) 32 ∧ fld f (10 + 4 * o) + offset f o j + 8 ≤ 0x40000
  let index (s : State) (f : Block) (x : Nat → Nat) := codeAt s (tyOf f 2) (x 2)
  let all := fun _ : Block => [(0, 8), (1, 8), (2, 8)]
  move .copy 1 { used := fun _ => [(0, 8), (1, 8)], writes := fun s _ f x => moved s f (x 1) (x 0) } ∧
  move .fill 5 { used := fun _ => [(0, 8)], writes := fun _ _ f x => codeToD f (x 0) (fld f 23) } ∧
  move .acopy 6
    { used := fun _ => [(0, 8), (1, 8)]
      ok := fun _ _ f _ => tyOf f 0 ≠ 5
      writes := fun s _ f x => mix (fbits f 22 36 3) s f (x 1) (x 0) } ∧
  move .gather 2
    { used := all
      ok := fun s _ f x => index s f x < fbits f 22 0 32 → near f 1 (index s f x)
      writes := fun s _ f x =>
        if index s f x < fbits f 22 0 32 then moved s f (x 1 + offset f 1 (index s f x)) (x 0)
        else if fbits f 22 32 1 = 1 then codeToD f (x 0) (fld f 23) else [] } ∧
  move .scatter 3
    { used := all
      ok := fun s _ f x => (index s f x < fbits f 22 0 32 → near f 0 (index s f x)) ∧ (fbits f 22 33 1 = 1 → tyOf f 0 ≠ 5)
      writes := fun s _ f x =>
        if index s f x < fbits f 22 0 32 then
          (if fbits f 22 33 1 = 1 then mix (fbits f 22 36 3) s f (x 1) (x 0 + offset f 0 (index s f x))
          else moved s f (x 1) (x 0 + offset f 0 (index s f x)))
        else [] } ∧
  move .scatterBkt 4
    { used := all
      ok := fun s v f x =>
        let w := fbits f 23 0 20 / 4 * 4 + 4 * index s f x
        index s f x < fbits f 22 48 13 → w + 4 ≤ 0xc0000 ∧ near f 0 (tableAt s v w 4)
      writes := fun s v f x =>
        let w := fbits f 23 0 20 / 4 * 4 + 4 * index s f x
        let at_ := spadLoc v.c v.t w
        let count := bytesOf 4 (tableAt s v w 4 + 1)
        if index s f x < fbits f 22 48 13 then
          .bytes at_ count :: moved (writeHome s at_ count) f (x 1) (x 0 + offset f 0 (tableAt s v w 4))
        else [] } ∧
  move .signal 7
    { used := fun _ => [(0, 8)]
      ok := fun _ _ f _ => isFloatTy (tyOf f 0) = false
      writes := fun s _ f x =>
        let y := fld f 23 % 2 ^ typeBits (tyOf f 0)
        if fbits f 22 0 1 = 1 then toD f (x 0) (onValues (fun a _ => a) (· + ·) (valIn s f 0 x) (valOf (tyOf f 0) y))
        else codeToD f (x 0) y } ∧
  move .prefetch 8
    { used := fun _ => []
      ok := fun _ _ f _ => spaceOf f 1 ≤ 6
      tile := fun s v f _ y =>
        let a := if tyOf f 1 = 5 then fld f 14 / 2 else fld f 14
        if spaceOf f 1 = 5 ∧ a < 2 ^ 55 then (translateStream s v a false false).1.tile v.c v.t
        else if spaceOf f 1 = 6 then
          match peerPage s v (BitVec.ofNat 12 (bits a 48 12)) (BitVec.ofNat 4 (bits a 44 4)) (BitVec.ofNat 44 a) with
          | some e => { y with streamTlb := useEntry y.streamTlb v.e e }
          | none => y
        else y
      rest := fun s _ f _ => if spaceOf f 1 = 6 then { s with fresh := s.fresh + 1 } else s } ∧
  move .ctrPost 9
    { used := fun _ => [(1, 8)]
      ok := fun _ _ f _ => tyOf f 1 ≠ 5
      rest := fun s v f x =>
        let ctx := s.ctxOf v.c
        match s.localCounter ctx (fbits f 22 0 13) with
        | some k => addCounter k (BitVec.ofNat 64 (ofBytes (readHome s (x 1) 4))) s
        | none => countRefusal ctx s } ∧
  (∀ (s s1 s2 : State) (c : Cl) (t : Tl) (e : Eng) (b : Entry) (la ld : Nat),
    let v : Site := ⟨c, t, e⟩
    let n := unitOf (tyOf b.f 0)
    e = .l ∨ e = .s → OneElem s v b 1 → tyOf b.f 0 = tyOf b.f 1 → tyOf b.f 0 ≠ 5 →
    Found s v b.f 1 (fld b.f 14) false s1 la → Found s1 v b.f 0 (fld b.f 10) true s2 ld → s2.poison = [] → s2.memWf →
    (∀ i, i < n → (la + i < nowhere ∧ s2.uncoreOff (la + i) = false) ∧ ld + i < nowhere ∧ s2.uncoreOff (ld + i) = false) →
    ∃ u, exec (.copy c t e) s = .next u ∧ (∀ y, u.byte y = Stored.on s2.byte (.bytes ld (readHome s2 la n)) y) ∧
      ∀ q ∈ ((u.tile c t).queue e).entries, q.seq = b.seq → q.phase = .ending ∧ q.n = 1) ∧
  (∀ (s s1 : State) (c : Cl) (t : Tl) (e : Eng) (b : Entry) (ld : Nat) (ans : PeerAns) (bs : List Byte),
    let v : Site := ⟨c, t, e⟩
    let a := fld b.f 14
    let n := unitOf (tyOf b.f 0)
    e = .l ∨ e = .s → OneElem s v b 1 → tyOf b.f 0 = tyOf b.f 1 → tyOf b.f 0 ≠ 5 → spaceOf b.f 1 = 6 → Lies v b.f 0 ld 8 →
    peerAccess { s with fresh := s.fresh + 1 } (.element c t e) (s.ctxOf c) (clsOf b.f) (BitVec.ofNat 12 (bits a 48 12))
      (BitVec.ofNat 4 (bits a 44 4)) (a % 2 ^ 44) (.read n) = (s1, ans) →
    (ans = .data bs ∧ bs.length = n ∨ (∃ k, ans = .refused k) ∧ bs = List.replicate n 0) →
    s1.poison = [] → s1.memWf →
    ∃ u, exec (.copy c t e) s = .next u ∧ ∀ y, u.byte y = Stored.on s1.byte (.bytes ld bs) y) ∧
  ∀ (s : State) (c : Cl) (t : Tl) (e : Eng) (b : Entry) (k : BitVec 8),
    let v : Site := ⟨c, t, e⟩
    let a := fld b.f 14
    let f : FaultEntry := ⟨k, false, 1, s.ctxOf c, c, e.code, t.val, 1, BitVec.ofNat 64 a, b.seq.setWidth 64, 0, none⟩
    e = .l ∨ e = .s → OneElem s v b 1 → tyOf b.f 1 ≠ 5 → spaceOf b.f 1 = 5 → a < 2 ^ 55 →
    (translateStream s v a true false).2 = .error k →
    ∃ u, exec (.copy c t e) s = .next u ∧ (∀ y, u.byte y = s.byte y) ∧ u.faultq = (s.addFault (dieOf c) f).faultq ∧
      ∀ q ∈ ((u.tile c t).queue e).entries, q.seq = b.seq → q = { b with fault := some ⟨k, BitVec.ofNat 64 a, false, 1⟩ }

/-- The matrix engine (07 R205 to R211, 01 R35, R36): weights loaded into a set, and rows of the accumulator. A product's row
lands 4 ticks after its step, 5 under the power-narrowed mode, at the ticks per step of 07 Table 5 (R212), of which a cluster in
bin 2 takes every second (R415). That the delay counts from the step's last tick is the model's reading (log 67).
Completes: mma, mmaZ, mmaChain, wload, accZero, accLd. -/
def Obligations.MatrixOperators : Prop :=
  let row (v : Site) (f : Block) (o : Nat) : Nat := accLoc v.c v.t (fld f (10 + 4 * o) / 512 * 512)
  let inAcc (f : Block) (o : Nat) : Prop := spaceOf f o = 2 ∧ swzOf f o = 0 ∧ fld f (10 + 4 * o) < 0x40000
  let word (s : State) (a j : Nat) : Nat := ofBytes (readHome s (a + 4 * j) 4)
  let kw (f : Block) := fbits f 22 0 10
  let pitch (f : Block) := (sx (fbits f 24 0 32) 32).toNat
  let set (s : State) (v : Site) (f : Block) := (s.tile v.c v.t).sets.get (Fin.ofNat 2 (fbits f 22 10 1))
  let bs (f : Block) := fbits f 22 11 1 = 1
  let lands (s : State) (v : Site) (ticks : Nat) (a : Nat) (ws : Nat → Nat) (y : Tile) : Tile :=
    let halves := if (s.core v.c).narrowed then 2 else 1
    let pace := if (s.core v.c).bin = 2 then 2 else 1
    let due := tickOf s.cycle + pace * (ticks * halves - 1) + (if (s.core v.c).narrowed then 5 else 4)
    { y with accLand := y.accLand ++ [Landing.mk due a ((List.range 128).flatMap fun j => bytesOf 4 (ws j))] }
  let elem (s : State) (f : Block) (x k : Nat) : Nat := codeAt s (tyOf f 1) (x + k * unitOf (tyOf f 1))
  let scaleOf (s : State) (v : Site) (f : Block) (k : Nat) : Nat := tableAt s v (fbits f 23 0 20 / 2 * 2 + 2 * (k / 32)) 2
  let value (s : State) (v : Site) (f : Block) (x k : Nat) : XVal :=
    let y := (valOf (tyOf f 1) (elem s f x k)).real
    if bs f then scaled y (scaleOf s v f k) else y
  let product (zero : Bool) (s : State) (v : Site) (f : Block) (x j : Nat) : Nat :=
    let old := if zero then 0 else word s (row v f 0) j
    let ks := List.range (kw f)
    if tyOf f 1 = 6 then mmaInt old (ks.map fun k => sx (elem s f x k) 8) fun k => (set s v f).weightInt k j
    else mmaFloat false old (ks.map fun k => (value s v f x k).mul ((set s v f).weight k j))
  let landed (s : State) (v : Site) (b : Block) (o : Nat) : Prop := ∀ z ∈ (s.tile v.c v.t).accLand, z.loc ≠ row v b o
  let free (s : State) (v : Site) (b : Block) : Prop :=
    (∀ q ∈ ((s.tile v.c v.t).queue v.e).entries, opOf q.f ≠ 4) ∧ inAcc b 0
  let mma (i : Cl → Tl → Instr) (op : Nat) (zero : Bool) :=
    Performs i .m op
      { used := fun f => [(1, kw f * unitOf (tyOf f 1))]
        ok := fun s v f _ => (zero = false → landed s v f 0) ∧ free s v f ∧ (bs f → fbits f 23 0 20 / 2 * 2 + 2 * (kw f / 32) ≤ 0xc0000 ∧ kw f % 32 = 0)
        tile := fun s v f x y =>
          lands s v (max 1 ((kw f * typeBits (tyOf f 1) + 2047) / 2048) + if fld f 14 % (if tyOf f 1 = 5 then 128 else 64) = 0 then 0 else 1) (row v f 0) (product zero s v f (x 1)) y }
  mma .mma 1 false ∧ mma .mmaZ 2 true ∧
  Performs .mmaChain .m 3
    { used := fun _ => []
      ok := fun s v f _ => landed s v f 0 ∧ landed s v f 1 ∧ free s v f ∧ inAcc f 1 ∧ kw f ≤ 128
      tile := fun s v f _ y => lands s v 1 (row v f 0) (fun j =>
        let down := fmtOf (fbits f 22 12 4)
        mmaFloat false (word s (row v f 0) j) ((List.range (kw f)).map fun k =>
          (down.decode (roundTo down (rmOf f) 0 (satOf f) (fp32.decode (word s (row v f 1) k))).1).mul ((set s v f).weight k j))) y } ∧
  Performs .wload .m 4
    { used := fun f => [(2, ((kw f - 1) * pitch f + 128) * unitOf (tyOf f 2))]
      ok := fun _ _ f _ => 0 ≤ sx (fbits f 24 0 32) 32 ∧ (bs f → fbits f 23 0 20 / 2 * 2 + 2 * (kw f / 32 * 128 + 128) ≤ 0xc0000)
      tile := fun s v f x y =>
        let ty := tyOf f 2
        let rows := (List.range (kw f)).map fun k => (List.range 128).map fun j =>
          (BitVec.ofNat 16 (codeAt s ty (x 2 + (k * pitch f + j) * unitOf ty)),
            if bs f then some (BitVec.ofNat 10 (tableAt s v (fbits f 23 0 20 / 2 * 2 + 2 * (k / 32 * 128 + j)) 2)) else none)
        let loaded : WeightSet := ⟨setClass ty, kw f, fbits f 22 11 1 == 1, ty, rows⟩
        { y with sets := y.sets.set (fbits f 22 10 1 % 2) loaded (Nat.mod_lt _ (by decide)) } } ∧
  Performs .accZero .m 5
    { used := fun _ => []
      ok := fun s v f _ => landed s v f 0 ∧ inAcc f 0
      writes := fun _ v f _ => [.bytes (row v f 0) (List.replicate 512 0)] } ∧
  Performs .accLd .m 6
    { used := fun f => [(1, 128 * unitOf (tyOf f 1))]
      ok := fun s v f _ => landed s v f 0 ∧ inAcc f 0
      writes := fun s v f x => [.bytes (row v f 0) ((List.range 128).flatMap fun j => bytesOf 4
        (match valOf (tyOf f 1) (elem s f (x 1) j) with
          | .i z => narrow 8 false z
          | .f y => (roundTo fp32 0 0 false y).1))] }

/-- R58, R61, R64, R68, R69: a result lands with its flags, not in the core cycle of its issue, LAST staying with a younger one
of the core cycle; gaps and switches
end; a host write to a mailbox takes it and raises the interrupt on the strands that run, unless a strand's write reaches it in
the same cycle; a cluster whose die is not in run drops it (R368); behind an earlier posted write of the host it waits (R267). R186, R291, R296, R297, R347: an asynchronous trap enters between words outside a handler's TR, the
mailbox interrupt only behind them and with IE set; firmware resumes a held word, or, as the context's policy allows, reflects
its cause to the task as a synchronous entry at firmware level, a far access's at the pop that reaches it. Conventions of the
model: log 8, 27.
Completes: resultLand, gapEnd, switchAwayEnd, hostMailboxWrite, asyncTrapDelivery, mailboxInterrupt, firmwareResume,
firmwareReflect. -/
def Obligations.StrandEvents : Prop :=
  (∀ (s : State) (c : Cl) (k : Sn),
    (∀ j x, (s.strand c k).flights[j]? = some x →
      let t := s.strand c k
      (s.cycle ≤ x.born → LeavesStrand (.resultLand c k j) s c k t) ∧
      (x.born < s.cycle → LeavesStrand (.resultLand c k j) s c k
        (let landed : Strand := { t with flights := t.flights.set j { x with fl := none } }
         match x.fl with
         | none => landed
         | some f =>
           if t.lastAt = s.cycle ∧ j < t.lastPos then { landed with xfflags := t.xfflags ||| f.setWidth 13 }
           else
             { landed with
               xfflags := (t.xfflags &&& 0x1f) ||| f.setWidth 13 ||| (f.setWidth 13 <<< 8)
               lastAt := s.cycle
               lastPos := j }))) ∧
    ((s.strand c k).gapUntil ≤ s.cycle → LeavesStrand (.gapEnd c k) s c k { s.strand c k with gapUntil := 0 }) ∧
    ((s.strand c k).swUntil ≤ s.cycle → LeavesStrand (.switchAwayEnd c k) s c k { s.strand c k with swUntil := 0 }) ∧
    (∀ (i : Fin 8) v, s.island ≠ .off → s.island ≠ .boot → s.hostWaits.any (·.isWrite) = true →
      exec (.hostMailboxWrite c i v) s = .next { s with hostWaits := s.hostWaits ++ [.mailbox c i v] }) ∧
    (s.island ≠ .off → (∀ a ∈ s.hostWaits, a.isWrite = false) →
    (∀ (i : Fin 8) v, s.dieRuns (dieOf c) = true → (s.core c).mboxAt.get i ≠ s.cycle + 1 →
      LeavesCore (.hostMailboxWrite c i v) s c
        { s.core c with
          mbox := (s.core c).mbox.set i.val v
          mboxHost := (s.core c).mboxHost ||| (1 <<< i.val)
          strands := (s.core c).strands.each fun t => if t.state = .run ∨ t.state = .handler then { t with mboxInt := some (i, v) } else t }) ∧
    (∀ (i : Fin 8) v, s.dieRuns (dieOf c) = true → (s.core c).mboxAt.get i = s.cycle + 1 →
      LeavesCore (.hostMailboxWrite c i v) s c { s.core c with superseded := (s.core c).superseded ||| (1 <<< i.val) }) ∧
    (∀ (i : Fin 8) v, s.dieRuns (dieOf c) = false → exec (.hostMailboxWrite c i v) s = .next { s with dropped := s.dropped + 1 }))) ∧
  (∀ (s : State) (c : Cl) (k : Sn),
    let t := s.strand c k
    let between := (t.state = .run ∨ t.state = .handler) ∧ t.fw = none ∧ t.stopped = false ∧ t.xstatus.getLsbD 6 = false
    let allowed (code : BitVec 8) : Prop := code = 0x22 ∨
      (if code = 0x20 then (s.ctx (s.ctxOf c)).pf else if code = 0x21 then (s.ctx (s.ctxOf c)).kf else (s.ctx (s.ctxOf c)).mc) = 1
    (∀ a r, t.asyncs = a :: r → between →
      (a.at_ ≤ s.cycle → exec (.asyncTrapDelivery c k) s =
        .next (takeTrap (s.setStrand c k { t with asyncs := r }) c k false a.code false a.detail a.tval (t.settleCtl (s.cycle + 2)).pc)) ∧
      (s.cycle < a.at_ → exec (.asyncTrapDelivery c k) s = .next s)) ∧
    (∀ (i : Fin 8) v, t.mboxInt = some (i, v) → between → (∀ a ∈ t.asyncs, s.cycle < a.at_) → t.xstatus.getLsbD 0 = true →
      exec (.mailboxInterrupt c k) s =
        .next (takeTrap (s.setStrand c k { t with mboxInt := none }) c k false 0x10 false (BitVec.ofNat 16 i.val) v (t.settleCtl (s.cycle + 2)).pc)) ∧
    (∀ (i : Fin 8) v, t.mboxInt = some (i, v) → t.xstatus.getLsbD 0 = false → exec (.mailboxInterrupt c k) s = .next s) ∧
    (s.attends (dieCore (dieOf c)) = false →
      exec (.firmwareResume c k) s = .next s ∧ exec (.firmwareReflect c k) s = .next s) ∧
    (∀ f, t.fw = some f → s.attends (dieCore (dieOf c)) = true → ∃ u, exec (.firmwareResume c k) s = .next u ∧ u.strand c k = { t with fw := none } ∧
      OnStrand s { u with faultq := s.faultq } c k ∧
      ∀ e, e ∈ u.faultq.get (dieOf c) ↔ e ∈ s.faultq.get (dieOf c) ∧ ¬(e.src = 0 ∧ e.cluster = c ∧ e.unit = k.val)) ∧
    (∀ f, t.fw = some f → s.attends (dieCore (dieOf c)) = true → allowed f.code → exec (.firmwareReflect c k) s =
      .next (takeTrap ((s.setStrand c k { t with fw := none }).clearFaults c k) c k true f.code true f.detail f.tval t.pc)) ∧
    (∀ f, t.fw = some f → ¬allowed f.code → exec (.firmwareReflect c k) s = .next s) ∧
    (∀ h, t.fw = none → popWaits s c k = some h → s.attends (dieCore (dieOf c)) = true → allowed h.fault.code →
      let freed := s.modStrand c k fun y =>
        { y.popEntry with flqHalt := none, pend := y.pend.filter fun p => p.kind.slot? ≠ some h.idx }
      exec (.firmwareReflect c k) s = .next (takeTrap (freed.clearFaults c k) c k true h.fault.code true
        (if h.fault.write then 1 else 0) h.fault.addr t.pastPc)))

/-- R178, R212, R231, R284, R348: block events. A block with no gate, no wait and no start fault runs from the tick after
next; a block whose results have landed posts its semaphore, frees its slot and hands on its link; results that are due land
in memory; firmware resumes an entry held on a translation fault at its element. R145, R146, R169, R182, R191, R196, R284:
what a tile does in a tick: a ring's declaration; template writes, one change at a time, a loaded template in its place among
them; the grant of a strand's semaphore wait, which takes its count. Conventions of the model: log 23, 27.
Completes: blockStart, blockComplete, matrixRowLand, reductionLand, engineFaultResume, scheduleMiss, templateTick, tmplLdWrite,
tileTick. -/
def Obligations.BlockEvents : Prop :=
  (∀ (s : State) (c : Cl) (t : Tl) (e : Eng),
    let v : Site := ⟨c, t, e⟩
    let y := s.tile c t
    (∀ b, (y.queue e).starter = some b → b.phase = .queued → s.behindCut v b = false → startFault s c t b.f = none →
      stamped b.f = false → objKind ((b.f[2]?).getD 0) = 0 ∨ objCount ((b.f[2]?).getD 0) = 0 → totalOf b.f ≠ 0 →
      LeavesTile (.blockStart c t e) s c t
        (y.setQueue e { y.queue e with
          entries := (y.queue e).entries.map fun x => if x.seq = b.seq then { b with phase := .running, ready := tickOf s.cycle + 2 } else x
          last := b.t })) ∧
    (∀ b r, (y.queue e).starter = some b → b.phase = .queued → s.behindCut v b = false → startFault s c t b.f = some r →
      exec (.blockStart c t e) s = .next (blockFaultTrap (stopEntry s v b) v (s.cycle + 1) r b.seq b.t b.strand)) ∧
    (∀ b es, (y.queue e).entries = b :: es → b.phase = .ending → b.ready ≤ tickOf s.cycle + 1 → b.cutRow = false → b.audit = none →
      let p : W := (b.f[3]?).getD 0
      let g : BitVec 5 := BitVec.ofNat 5 (objNum p)
      objKind p = 1 → objTile p t = t → (y.sem g).toNat + objCount p ≤ 65535 →
      LeavesTile (.blockComplete c t e) s c t
        (let z := (y.setSem g (y.sem g + BitVec.ofNat 16 (objCount p))).setQueue e
          { y.queue e with entries := (y.queue e).entries.filter (·.seq ≠ b.seq), done := b.seq }
         if fbits b.f 31 6 1 = 1 ∧ b.noLink = false then
           { z with links := z.links ++ [(e, BitVec.ofNat 6 (fbits b.f 31 0 6), b.gen, b.strand)] }
         else z)) ∧
    (∀ l, y.accLand = [l] → l.due ≤ tickOf s.cycle → s.memWf → s.poison = [] →
      2 ^ 41 ≤ l.loc → l.loc + l.bytes.length ≤ 2 ^ 42 + 2 ^ 27 →
      ∃ u, exec (.matrixRowLand c t) s = .next u ∧ u.tile c t = { y with accLand := [] } ∧
        ∀ x, u.byte x = if l.loc ≤ x ∧ x < l.loc + l.bytes.length then (l.bytes[x - l.loc]?).getD 0 else s.byte x) ∧
    (∀ l, y.redLand = [l] → l.due ≤ tickOf s.cycle → s.memWf → s.poison = [] →
      2 ^ 41 ≤ l.loc → l.loc + l.bytes.length ≤ 2 ^ 42 + 2 ^ 27 →
      ∃ u, exec (.reductionLand c t) s = .next u ∧ u.tile c t = { y with redLand := [] } ∧
        ∀ x, u.byte x = if l.loc ≤ x ∧ x < l.loc + l.bytes.length then (l.bytes[x - l.loc]?).getD 0 else s.byte x) ∧
    (∀ b f, s.attends (dieCore (dieOf c)) = true → (y.queue e).entries.find? (fun b => b.fault.isSome) = some b → b.fault = some f → f.code ≠ 0x22 →
      ∃ u, exec (.engineFaultResume c t e) s = .next u ∧
        ((u.tile c t).queue e).entries = (y.queue e).entries.map (fun x => if x.seq = b.seq then { b with fault := none, ready := tickOf s.cycle + 1 } else x) ∧
        { u with cores := s.cores, faultq := s.faultq } = s ∧
        ∀ q, q ∈ u.faultq.get (dieOf c) ↔
          q ∈ s.faultq.get (dieOf c) ∧ ¬(q.src = 1 ∧ q.cluster = c ∧ q.tile = t.val ∧ q.unit = e.code ∧ q.seq = b.seq.setWidth 64)) ∧
    (∀ b es, (y.queue e).entries = b :: es → fbits b.f 0 28 1 = 1 → b.started = false → b.missed = false → isLate (s.core c) b.f = true →
      es = [] → ∃ u, exec (.scheduleMiss c t e) s = .next u ∧ ((u.tile c t).queue e).entries = [{ b with missed := true }] ∧
        { u with cores := s.cores } = s ∧
        u.core c = ((putEntry s v { b with missed := true }).core c).addAsync s.cycle b.strand
          ⟨0x0d, waitIdentity b.f t, blockTval b.seq b.t t e, s.cycle⟩)) ∧
  (∀ (s : State) (c : Cl) (t : Tl),
    let y := s.tile c t
    (∀ e n f v, y.links = [] → y.fwds = [] → y.tlds = [] → y.amends = [.patch e n f v] →
      LeavesTile (.templateTick c t) s c t ({ y with amends := [] }.setTemplate e n
        (let b := y.template e n
         let old : W := (b[f.toNat]?).getD 0
         if f = 30 then b
         else b.set f.toNat (if f = 10 ∨ f = 14 ∨ f = 18 then old + v.signExtend 64 else old &&& ~~~0xffff ||| v.setWidth 64)))) ∧
    (∀ e n f v, y.links = [] → y.fwds = [] → y.tlds = [] → y.amends = [.field e n f v] →
      LeavesTile (.templateTick c t) s c t ({ y with amends := [] }.setTemplate e n
        (if f = 30 then y.template e n else (y.template e n).set f.toNat v))) ∧
    (∀ x r, y.links = [] → y.tlds = x :: r →
      let z : Tile := { y.setTemplate x.e x.t (x.f.set 30 (((y.template x.e x.t)[30]?).getD 0)) with tlds := r }
      exec (.tmplLdWrite c t) s = exec (.templateTick c t) (s.setTile c t z) ∧
        (r = [] → y.amends = [] → y.fwds = [] → LeavesTile (.tmplLdWrite c t) s c t z)) ∧
    (∀ d, y.decls = [d] → (s.strand c d.strand).tld = true → y.semQ = [] → y.semNew = [] → (∀ k, (s.strand c k).wait = none) →
      (∀ v : Site, v.c = c → ∀ b ∈ ((s.tile c v.t).queue v.e).entries, b.phase ≠ .waiting) →
      (ringBusy { y with decls := [] } t d.g = true → LeavesTile (.tileTick c t) s c t y) ∧
      let hd := s.handleOf c d.h
      let z := 64 * hd.ext0.toNat
      (ringBusy { y with decls := [] } t d.g = false → hd.ext0 ≠ 0 → hd.space.toNat ≤ 4 →
        inspaceEng s c hd.space.toNat hd.addr.toNat (d.ns.toNat * z) = true →
        LeavesTile (.tileTick c t) s c t
          { y.setRing d.g ⟨true, hd.space, hd.addr.setWidth 64, z, d.ns.toNat, 0, 0, 0⟩ with decls := [] })) ∧
    (∀ (k : Sn) (g : BitVec 5) n a x, y.decls = [] → y.semQ = [] → y.semNew = [⟨g.toNat, .strand k, n⟩] → n ≤ (y.sem g).toNat →
      (s.strand c k).wait = some ⟨.sem t g n, a, x⟩ →
      (∀ k', k' ≠ k → (s.strand c k').wait = none) →
      (∀ v : Site, v.c = c → ∀ b ∈ ((s.tile c v.t).queue v.e).entries, b.phase ≠ .waiting) →
      exec (.tileTick c t) s = .next (grantWait c k (scope0 s c)
        (s.modTile c t fun z => { z.setSem g (BitVec.ofNat 16 ((y.sem g).toNat - n)) with semQ := [], semNew := [] }))))

/-- R308 to R312, R315 to R317, R428: a descriptor that the leader writes under the lease's term makes its queue active or disabled; a turn takes the next
packet of the lap, leaves a slot that is still empty, and halts the queue on another lap, with both laps; a no-op packet
completes; rank programs install when every word is admissible; a launch packet joins the ranked queue; re-ranking gives
waiting launches their rank anew; a copy packet becomes a job, and a copy that has moved its bytes ends with status 0; one whose
context and tag are purged is held (R402); the bytes that a copy reads and writes are counted in buffer 0 (R345; log 32, DEDUCED).
Conventions of the model: log 32, 33, 40.
Completes: queueTableWrite, queueTake, noOpPacket, rankProgramInstall, launchPacket, rerank, copyPacket. -/
def Obligations.QueueEvents : Prop :=
  ∀ (s : State) (i : Fin 1024),
    let q := s.queue i.val
    let x := q.d.ctx
    let leaves (e : Instr) (s0 : State) (y : SubQueue) : Prop :=
      ∃ t, exec e s = .next t ∧ t.queue i.val = y ∧ { t with queues := s0.queues } = s0 ∧ ∀ j, j ≠ i.val → t.queue j = s0.queue j
    (∀ n (r : QueueDesc), s.heeds n = false → exec (.queueTableWrite i ⟨n, r⟩) s = .next s) ∧
    (∀ n (r : QueueDesc), s.heeds n = true → (r.ridx = q.d.ridx ∧ q.state ≠ .halted ∨ r.rmir = 0) →
      leaves (.queueTableWrite i ⟨n, r⟩) s { q with
        d := r, state := if q.state = .resetting then .resetting else if r.en = true ∧ 6 ≤ r.lgn ∧ r.lgn ≤ 16 then .active else .disabled }) ∧
    (q.state = .active → q.skip = none → q.taken = none → s.dieRuns q.d.die = true → (s.die q.d.die).ranked.length < 256 → s.ckpt = .idle →
      ∀ s1 w, readVirt s x none q.d.widx 8 = (s1, .ok w) →
      (ofBytes w ≤ q.d.ridx.toNat → exec (.queueTake i) s = .next s1) ∧
      (q.d.ridx.toNat < ofBytes w → ∀ s2 bs,
        readVirt s1 x none (q.d.base + BitVec.ofNat 64 (64 * (q.d.ridx.toNat % 2 ^ q.d.lgn))) 64 = (s2, .ok bs) →
        let h := ((wordsOf bs).headD 0).toNat
        let lap : BitVec 32 := BitVec.ofNat 32 (h / 2 ^ 32)
        let due : BitVec 32 := BitVec.ofNat 32 (q.d.ridx.toNat / 2 ^ q.d.lgn)
        (h % 16 = 0 ∨ lap = due - 1 → exec (.queueTake i) s = .next s2) ∧
        (h % 16 ≠ 0 → lap ≠ due - 1 → lap ≠ due → q.d.mv = false → s2.queue i.val = q →
          leaves (.queueTake i) s2 { q with state := .halted, olap := due, flap := lap }) ∧
        (1 ≤ h % 16 → h % 16 ≤ 3 → lap = due → (bits h 4 1 = 1 → q.open_ = []) → q.d.rmir = 0 → s2.queue i.val = q →
          ∃ t, exec (.queueTake i) s = .next t ∧
            t.queue i.val = { q with d := { q.d with ridx := q.d.ridx + 1 }, taken := some (wordsOf bs, q.d.ridx), open_ := q.open_ ++ [q.d.ridx] } ∧
            t.todo = (if h % 16 = 1 then .launchPacket i else if h % 16 = 2 then .copyPacket i else .noOpPacket i) :: s2.todo ∧
            { t with queues := s2.queues, todo := s2.todo } = s2))) ∧
    (∀ p, q.handed 3 = some p → leaves (.noOpPacket i) s { q with taken := none, open_ := q.open_.filter (· ≠ p.2) }) ∧
    (∀ d slot ws, exec (.rankProgramInstall d slot ws) s = .next (
      if ws.length ≤ 32 ∧ (∀ w ∈ ws, rankAccepts s w = true) then s.modDie d fun x => { x with programs := tabSet x.programs slot.val ws } else s)) ∧
    (∀ p, q.handed 1 = some p → ∃ t l, exec (.launchPacket i) s = .next t ∧ t.launches = s.launches ++ [l] ∧
      l.id = s.made ∧ l.packet = p.1 ∧ l.index = p.2 ∧ l.queue = i ∧ l.ctx = x ∧ l.phase = .ranked ∧ l.status = none ∧ l.taken = s.xtime ∧
      t.made = s.made + 1 ∧ (t.die q.d.die).ranked = (s.die q.d.die).ranked ++ [s.made] ∧ t.queue i.val = { q with taken := none } ∧
      { t with launches := s.launches, made := s.made, launched := s.launched, dies := s.dies, queues := s.queues } = s) ∧
    (∀ d, (s.die d).rerankAt ≤ tickOf s.cycle → exec (.rerank d) s = .next
      ({ s with launches := s.launches.map fun l : Launch => if l.id ∈ (s.die d).ranked then { l with rank := rankNow s l } else l }.modDie d
        fun y => { y with rerankAt := tickOf s.cycle + 600 * y.rerankUs })) ∧
    (∀ d, tickOf s.cycle < (s.die d).rerankAt → exec (.rerank d) s = .next s) ∧
    (∀ p, q.handed 2 = some p → s.copyJob? i = none → s.ckpt ≠ .idle →
      exec (.copyPacket i) s = .next { s.setQueue i.val { q with taken := none } with
        copies := s.copies ++ [CopyJob.mk i p.1 p.2 0 none none] }) ∧
    (∀ j, q.handed 2 = none → s.copyJob? i = some j → j.purged s = true → exec (.copyPacket i) s = .next s) ∧
    (∀ j s1 s2 pa pb s3, q.handed 2 = none → s.copyJob? i = some j → j.stopped = none → j.waits = none → s.ckpt = .idle →
      q.state ≠ .resetting → j.purged s = false → j.malformed = false → j.length = j.moved + 1 →
      let src := j.word 1 + BitVec.ofNat 64 j.moved
      let dst := j.word 2 + BitVec.ofNat 64 j.moved
      isPeerAddr src = false → isPeerAddr dst = false → agentTranslate s x src true false none = (s1, .ok pa) → s1.poisonedIn pa 1 = none →
      agentTranslate s1 x dst false true none = (s2, .ok pb) →
      let wrote := (s2.putByte pb (s1.byte pa) j.moved).countBuffer q.d.die x 0 2 0
      writeVirt wrote (wrote.ctxOfQueue j.queue) (j.word 4 &&& ~~~7) (bytesOf 8 ((j.word 5).toNat % 2 ^ 56)) = (s3, none) →
      exec (.copyPacket i) s = .next (completePacket (s3.dropCopy { j with moved := j.moved + 1 }) j.queue.val j.index))

/-- R314, R317 to R325, R330 to R335, R338, R348: a launch is admitted when its graph and images pass the checks: each root with
instances has its record in the pool; else it ends with status 6; spilled records return to the pool. Placement: an instance
takes as many clusters as its gang has members, free ones, in ascending order, of the record's die unless it is wide; the
record that stands first in the device-wide order takes the lowest free ones, and where it cannot be placed holds what frees up;
its gang's strands start there with the argument record, its data lies in the vaults, the record has its next instance; one with
a misaligned argument record is stopped and takes nothing. Release: a gang whose members are finished leaves its clusters idle,
its launch has what they validated and recorded, and is complete with its last instance. The reef point ends a launch that has
placed nothing with status 3 and takes its records; in the next tick its gangs are diverted; the budget's end stops them, and a
launch without a gang has status 2; its record is written behind its last gang. Admission waits for room for the roots before it
looks at the rest (R318); a launch whose roots all have no instance is complete at once; a fault on the way waits, with the
launch or the record it is of. Conventions of the model: log 25, 34, 41, 60, 67, 69.
Completes: admission, spillReturn, placement, gangRelease, reefPoint, reefDiversion, reefBudgetExpiry, completionRecordWrite. -/
def Obligations.LaunchEvents : Prop :=
  ∀ (s : State) (d : Die),
    (∀ l, s.rankedHead d = some l → s.dieRuns d = true → (s.die d).admitWait = none → (s.die d).spill = [] →
      s.purgingOf l = false → s.ckpt = .idle →
      let waits (u : State) (e : FaultEntry) : State :=
        (u.modDie d fun x => { x with admitWait := some (e.by_ (.admission d), l.id) }).frontFault d (e.by_ (.admission d))
      (∀ s1 e, readNodes s l = (s1, .error e) → exec (.admission d) s = .next (waits s1 e)) ∧
      (∀ s1 ns, readNodes s l = (s1, .ok (some ns)) →
        let room := (s1.die d).pool.length + 256 + (rootsOf ns).length < 4096
        (¬room → exec (.admission d) s = .next s1) ∧
        (room → ∀ s2 e, loadNodes l ns s1 = (s2, .error e) → exec (.admission d) s = .next (waits s2 e)) ∧
        (room → ∀ s2 ns2, loadNodes l ns s1 = (s2, .ok ns2) → launchOk s2 l ns2 = true →
          (∀ k ∈ rootsOf ns2, ∀ n, ns2[k]? = some n → n.count = 0) → (∀ y, s2.launch? l.id = some y → y.status = none) →
          ∃ t, exec (.admission d) s = .next t ∧ ∀ y, t.launch? l.id = some y → y.status = some 0))) ∧
    (∀ l s1 ns s2 ns2, s.rankedHead d = some l → s.dieRuns d = true → (s.die d).admitWait = none → (s.die d).spill = [] →
      s.purgingOf l = false → s.ckpt = .idle → readNodes s l = (s1, .ok (some ns)) → loadNodes l ns s1 = (s2, .ok ns2) →
      (s1.die d).pool.length + 256 + (rootsOf ns).length < 4096 →
      (launchOk s2 l ns2 = true →
        ∃ t, exec (.admission d) s = .next t ∧ l.id ∉ (t.die l.die).ranked ∧ t.mem = s2.mem ∧ t.cores = s2.cores ∧ t.gangs = s2.gangs ∧
          t = admitLaunch l ns2 s2 ∧
          (l.die = d → ∀ k ∈ rootsOf ns2, ∀ n, ns2[k]? = some n → n.count ≠ 0 → ∃ r ∈ (t.die d).pool, r.launch = l.id ∧ r.node = k ∧
            r.next = 0 ∧ r.left = n.count ∧ r.base = BitVec.ofNat 64 (l.word 3) + n.argOff ∧ r.stride = n.stride ∧ r.rank = l.rank)) ∧
      (launchOk s2 l ns2 = false → ∃ t, exec (.admission d) s = .next t ∧ l.id ∉ (t.die l.die).ranked ∧ t.mem = s2.mem ∧
        t.cores = s2.cores ∧ ∀ y ∈ t.launches, y.id = l.id → y.status.isSome = true)) ∧
    (exec (.spillReturn d) s = .next (s.modDie d fun x =>
      { x with pool := x.pool ++ x.spill.take (4096 - x.pool.length), spill := x.spill.drop (4096 - x.pool.length) })) ∧
    (s.nextPlacement d = none → exec (.placement d) s = .next s) ∧
    (∀ dd r cs, s.nextPlacement d = some (dd, r, cs) → (dd, r) ∈ s.records ∧ ∃ l n img, s.recordNode r = some (l, n, img) ∧
      mayPlace s d n = true ∧ cs.length = n.size ∧ cs.Pairwise (· < ·) ∧
      ∀ c ∈ cs, s.freeCluster c = true ∧ (n.wide = false → dd = d ∧ dieOf c = d)) ∧
    (∀ dd r l n img, (dd, r) ∈ s.records → s.recordNode r = some (l, n, img) → 0 < r.left → 0 < n.size →
      (∀ x ∈ s.records, x = (dd, r) ∨ ∃ y, s.launch? x.2.launch = some y ∧ (l.started = true ∧ y.started = false ∨
        l.started = y.started ∧ (r.rank < x.2.rank ∨ r.rank = x.2.rank ∧ r.made < x.2.made))) →
      let by_ := if n.wide = true then s.master.die else dd
      let free := (List.finRange 64).filter fun c => s.freeCluster c && (n.wide || dieOf c == dd)
      (mayPlace s by_ n = true → n.size ≤ free.length → s.nextPlacement by_ = some (dd, r, free.take n.size)) ∧
      (mayPlace s by_ n = false ∨ free.length < n.size → ∀ e dd' r' cs, s.nextPlacement e = some (dd', r', cs) →
        n.wide = false ∧ ∀ c ∈ cs, dieOf c ≠ dd)) ∧
    (∀ dd r l n img cs, s.nextPlacement d = some (dd, r, cs) → s.recordNode r = some (l, n, img) →
      let a := r.base + BitVec.ofNat 64 (r.next * r.stride)
      (a.toNat % 8 ≠ 0 → ∃ t, exec (.placement d) s = .next t ∧ t.gangs = s.gangs ∧ t.cores = s.cores ∧ t.mem = s.mem ∧
        ∃ y, t.launch? l.id = some y ∧ y.placed = l.placed ∧ y.tPlace = l.tPlace ∧
          y.events = l.events ++ [⟨0, true, ⟨s.cycle, 0, 0x10004, 0, a, false, false⟩⟩]) ∧
      (a.toNat % 8 = 0 → ∀ s1 bs, readVirt s l.ctx l.key a 56 = (s1, .ok bs) → ∃ t g, exec (.placement d) s = .next t ∧
        t.gangs = s1.gangs ++ [g] ∧ g.id = s1.made ∧ t.made = s1.made + 1 ∧ g.members.map (·.phys) = cs ∧ g.ctx = l.ctx ∧ g.launch = l.id ∧
        g.node = r.node ∧ g.inst = r.next ∧ g.image = img ∧ g.base = n.image ∧ g.preempt = none ∧
        (∀ rank c, cs[rank]? = some c → MemberStarts g (wordsOf bs) rank (t.core c)) ∧
        (∀ c, c ∉ cs → (t.core c).strands = (s1.core c).strands ∧ (t.core c).gang = (s1.core c).gang) ∧
        (∀ c ∈ cs, s1.memWf → img.data.length ≤ 2 ^ 24 → ∀ i b, img.data[i]? = some b → t.byte (vaultLoc c i) = b) ∧
        (t.die dd).pool = (s1.die dd).pool.filterMap (fun y =>
          if y ≠ r then some y else if r.left ≤ 1 then none else some { r with next := r.next + 1, left := r.left - 1 }) ∧
        ∃ y, t.launch? l.id = some y ∧ y.started = true ∧ (r.again = false → y.placed = l.placed + 1)) ∧
      (a.toNat % 8 = 0 → ∀ s1 e, readVirt s l.ctx l.key a 56 = (s1, .error e) →
        exec (.placement d) s = .next ((s1.modDie d fun x => { x with placeWait := some (e.by_ (.placement d), dd, r) }).frontFault d
          (e.by_ (.placement d))))) ∧
    (∀ g l, s.gang? g.id = some g → g.Apart → s.launch? g.launch = some l → (∀ m ∈ g.members, memberFinished (s.core m.phys) = true) →
      let left (m : Member) : Core := (s.core m.phys).settleCtl (s.cycle + 2)
      ∃ t y, exec (.gangRelease g.id) s = .next t ∧ t.gangs = s.gangs.filter (·.id ≠ g.id) ∧ t.mem = s.mem ∧
        (∀ m ∈ g.members, LeftIdle (t.core m.phys) ∧ (t.ctx g.ctx).cmap.get m.logical = none) ∧
        (∀ c, c ∉ g.members.map (·.phys) → t.core c = s.core c) ∧
        t.launch? g.launch = some y ∧ y.validity = g.members.foldl (fun v m => v ||| (left m).xvalid) l.validity ∧
        y.events = l.events ++ g.members.flatMap (fun m => (left m).events.map fun e => ⟨m.phys, false, e⟩) ∧
        (l.status = none → l.reefed = false → 2 ≤ l.outstanding → y.status = none) ∧
        (l.status = none → l.reefed = false → l.purging = false → l.phase = .admitted → l.outstanding = 1 →
          (∀ k n, l.nodes[k]? = some n → n.isOpen = true ∧ (n.complete = true ∨ n.outstanding = if k = g.node then 1 else 0)) →
          y.status = some 0)) ∧
    (∀ g m, s.gang? g.id = some g → m ∈ g.members → memberFinished (s.core m.phys) = false → exec (.gangRelease g.id) s = .next s) ∧
    (∀ l, s.launch? l.id = some l → l.deadline ≠ 0 → l.reefed = false → l.status = none → l.purging = false →
      (s.xtime.toNat < l.deadline → exec (.reefPoint l.id) s = .next s) ∧
      (l.deadline ≤ s.xtime.toNat → ∃ t, exec (.reefPoint l.id) s = .next t ∧ t.mem = s.mem ∧
        (∀ e, ∀ r ∈ (t.die e).pool ++ (t.die e).spill, r.launch ≠ l.id) ∧ l.id ∉ (t.die l.die).ranked ∧
        ∀ y, t.launch? l.id = some y → y.reefed = true ∧ y.tReef = s.xtime ∧ (l.placed = 0 → y.status = some 3))) ∧
    (∀ l, s.launch? l.id = some l → l.reefed = true → exec (.reefDiversion l.id) s = .next
      ((s.gangs.filter fun g => g.launch == l.id && !g.diverted).foldl (fun z g => dropFaults g 0 (divertGang g z)) s)) ∧
    (∀ g, g.Apart → GangDiverted g s (divertGang g s) ∧ GangStopped g s (stopGang g s)) ∧
    (∀ g n, { dropFaults g n s with faultq := s.faultq } = s ∧
      ∀ q e, e ∈ (dropFaults g n s).faultq.get q ↔ e ∈ s.faultq.get q ∧ ¬(e.src ≤ n ∧ e.cluster ∈ g.members.map (·.phys))) ∧
    (∀ l, s.launch? l.id = some l → l.reefed = true → l.status = none → l.purging = false →
      (l.tReef.toNat + 1000 * l.budget ≤ s.xtime.toNat → ∃ t y, exec (.reefBudgetExpiry l.id) s = .next t ∧
        t.cores = ((s.gangs.filter (·.launch == l.id)).foldl (fun z g => dropFaults g 1 (stopGang g z)) s).cores ∧
        (∀ g ∈ t.saved, g.gang.launch ≠ l.id) ∧ t.launch? l.id = some y ∧ y.clustersDone = false ∧
        (l.phase = .admitted → (∀ g ∈ s.gangs, g.launch ≠ l.id) → y.status = some 2)) ∧
      (s.xtime.toNat < l.tReef.toNat + 1000 * l.budget → exec (.reefBudgetExpiry l.id) s = .next s)) ∧
    (∀ l s1 s2, s.launch? l.id = some l → l.status ≠ none → l.purging = false → l.recordWait = none → s.hasGang l.id = false →
      let bs := (recordWords l s.xtime).flatMap fun w => bytesOf 8 w.toNat
      writeVirt s l.ctx (BitVec.ofNat 64 (l.word 5) + 8) (bs.drop 8) = (s1, none) →
      writeVirt s1 l.ctx (BitVec.ofNat 64 (l.word 5)) (bs.take 8) = (s2, none) →
      ∃ t, exec (.completionRecordWrite l.id) s = .next t ∧ t.mem = s2.mem ∧ (∀ y ∈ t.launches, y.id ≠ l.id) ∧
        l.index ∉ (t.queue l.queue.val).open_)

/-- R337 to R339, R349 to R355: a context is created from its record when it is free, killed with everything it runs, and free
again when nothing of it is left; firmware may end a launch with status 4; a gang is asked to save at a yield point or behind
a generation fence, is saved when its members have come there, its clusters idle, and is put back on clusters of its shape, or
reported. What is saved is Table 9's at a yield point, Table 10's behind a fence; a fence's request stops the strands, fixes
each queue's cut and the limit; abandoned, the strands go on at xepc; a restored strand holds what was saved, and goes on there.
Creation grants the counters at zero and the slots Free (R370, R372); a kill drops its strands' accesses to device
memory; its end is reported. Creation and kill are the leader's, under the term of the lease (R427, R428). Conventions of the
model: log 26, 35, 37, 67; the numbers of the reports, log 68.
Completes: contextCreate, contextKill, killComplete, faultPolicyEndLaunch, nodeBoundaryRequest, yieldPointSave,
generationFenceRequest, fenceSnapshot, fenceAbandon, gangRestore. -/
def Obligations.ContextEvents : Prop :=
  ∀ (s : State) (x : Fin 64) (i : Nat),
    (∀ n (r : ContextInit), (s.heeds n = true → (s.ctx x).state = .free → ∃ t, exec (.contextCreate x ⟨n, r⟩) s = .next t ∧
        { t with ctxs := s.ctxs, ctrs := s.ctrs, slots := s.slots, chains := s.chains } = s ∧
        (∀ y, y ≠ x → t.ctx y = s.ctx y) ∧ (t.ctx x).state = .active ∧ (t.ctx x).root = r.root ∧ (t.ctx x).dkey = r.dkey ∧
        (t.ctx x).agc = 15 ∧ (t.ctx x).pf = r.pf ∧ (t.ctx x).kf = r.kf ∧ (t.ctx x).mc = r.mc ∧ (t.ctx x).cbase = r.cbase ∧
        (t.ctx x).ccnt = r.ccnt ∧ (t.ctx x).sbase = r.sbase ∧ (t.ctx x).scnt = r.scnt ∧ (t.ctx x).pwt = r.pwt ∧ (t.ctx x).pwn = r.pwn ∧
        (t.ctx x).saveBase = r.saveBase ∧ (t.ctx x).keymap = 0 ∧
        (∀ n, t.counter n = if r.cbase ≤ n ∧ n < r.cbase + r.ccnt then 0 else s.counter n) ∧
        ∀ n, t.slot n = if r.sbase ≤ n ∧ n < r.sbase + r.scnt then blankSlot else s.slot n) ∧
      (s.heeds n = false ∨ (s.ctx x).state ≠ .free → exec (.contextCreate x ⟨n, r⟩) s = .next s)) ∧
    (∀ n, s.heeds n = false ∨ (s.ctx x).state ≠ .active → exec (.contextKill ⟨n, x⟩) s = .next s) ∧
    (∀ n, s.heeds n = true → (s.ctx x).state = .active → ∃ t, exec (.contextKill ⟨n, x⟩) s = .next t ∧ (t.ctx x).state = .killing ∧ t.mem = s.mem ∧
      (∀ l ∈ t.launches, l.ctx ≠ x) ∧ (∀ q ∈ t.queues, q.2.d.ctx = x → q.2.state = .disabled) ∧
      (∀ k, (s.ctx x).keymap.getLsbD k = true → t.keyRetired.getLsbD k = true) ∧
      ∀ g ∈ s.gangs, g.ctx = x → ∀ m ∈ g.members, ∀ k, ∀ p ∈ (t.strand m.phys k).pend, p.outlives = true) ∧
    ((s.ctx x).state = .killing → (∀ g ∈ s.gangs, g.ctx ≠ x) → ∃ t, exec (.killComplete x) s = .next t ∧ (t.ctx x).state = .free ∧
      t.keyRetired = s.keyRetired &&& ~~~(s.ctx x).keymap ∧ t.mem = s.mem ∧ t.cores = s.cores ∧ t.reports = s.reports ++ [(x.val, 3)]) ∧
    ((s.ctx x).state = .killing → (∃ g ∈ s.gangs, g.ctx = x) → exec (.killComplete x) s = .next s) ∧
    (∀ l f, s.launch? i = some l → l.status = none → s.attends f = true → ∃ t, exec (.faultPolicyEndLaunch i) s = .next t ∧ t.mem = s.mem ∧
      (∀ y ∈ t.launches, y.id = i → y.status.isSome = true) ∧ ∀ e, ∀ r ∈ (t.die e).pool ++ (t.die e).spill, r.launch ≠ i) ∧
    (exec (.nodeBoundaryRequest i) s = .next (s.modGang i fun g => { g with preempt := g.preempt.or (some .node) })) ∧
    (∀ g, s.gang? i = some g → g.id = i → g.Apart →
      let clean := g.members.foldl (fun z m => cleanAll m.phys z) s
      let left := g.members.foldl (fun z m => if (z.core m.phys).strands.toList.all (yielded z m.phys) then cleanAll m.phys z else z) s
      (g.preempt = some .node → (∀ m ∈ g.members, memberYields left m.phys = true) →
        ∃ t ms, exec (.yieldPointSave i) s = .next t ∧ GangSaved g false [] ms left t ∧ ms.length = g.members.length ∧
          ∀ (j : Nat) (m : Member) (w : SavedMember), g.members[j]? = some m → ms[j]? = some w →
            let u := (left.core m.phys).settleCtl (s.cycle + 2)
            (∀ k, NodeSaved (((u.strand k).landDue ((u.strand k).latest s.cycle)).settleCtl (s.cycle + 2)) (w.core.strand k)) ∧
            w.core.mbox = u.mbox ∧ w.core.xvalid = u.xvalid ∧ w.core.xframe = u.xframe ∧
            (∀ o b, (o, b) ∈ w.vault ↔ (vaultLoc m.phys o, b) ∈ left.mem ∧ o < 2 ^ 24 ∧
              (o < g.image.data.length ∨ 2 ^ 24 - g.image.strands * g.image.stack ≤ o))) ∧
      (g.preempt = some .node → (∃ m ∈ g.members, memberYields left m.phys = false) →
        exec (.yieldPointSave i) s = .next (goOnB15 g left)) ∧
      (g.preempt ≠ some .node → exec (.yieldPointSave i) s = .next s) ∧
      (g.preempt = none →
        let us := if (s.ctx g.ctx).fenceLimit = 0 then 1000 else (s.ctx g.ctx).fenceLimit
        ∃ t cuts, exec (.generationFenceRequest i) s = .next t ∧
          t.gang? i = some { g with preempt := some (.fence cuts (s.cycle + 1800 * us)) } ∧ t.mem = s.mem ∧ t.saved = s.saved ∧
          (∀ c, c ∉ g.members.map (·.phys) → t.core c = s.core c) ∧
          ∀ m ∈ g.members,
            (∀ k, (s.strand m.phys k).state = .run ∨ (s.strand m.phys k).state = .handler →
              let u := (s.strand m.phys k).settleCtl (s.cycle + 2)
              (t.strand m.phys k).stopped = true ∧ (t.strand m.phys k).xepc = u.pc ∧ (t.strand m.phys k).regs = u.regs ∧
                (t.strand m.phys k).flq = u.flq ∧ ((s.strand m.phys k).tileWait = false → (t.strand m.phys k).wait = none)) ∧
            (∀ y, (t.tile m.phys y).tlds = [] ∧ (t.tile m.phys y).decls = []) ∧
            ∀ y e, let q := (s.tile m.phys y).queue e
              tabGet cuts (Site.mk m.phys y e).number 0 =
                match q.entries.find? fun b => !b.started && b.gen == (s.core m.phys).xgen with
                | some b => b.seq
                | none => q.next + BitVec.ofNat 32 ((s.tile m.phys y).amends.countP fun a => match a with
                    | .issue e' _ f _ => e' == e && f != (s.core m.phys).xgen
                    | _ => false)) ∧
      (g.preempt ≠ none → exec (.generationFenceRequest i) s = .next s) ∧
      (∀ cuts limit, g.preempt = some (.fence cuts limit) →
        ((∀ m ∈ g.members, memberSettled clean m.phys = true) → ∃ t ms, exec (.fenceSnapshot i) s = .next t ∧
          GangSaved g true (g.members.flatMap fun m => (sitesOf m.phys).map fun v =>
            (((clean.tile v.c v.t).queue v.e).done, ((clean.tile v.c v.t).queue v.e).entries.length)) ms clean t ∧
          ms.length = g.members.length ∧
          (∀ q, ∀ e ∈ t.faultq.get q, e.src ≤ 1 → e.cluster ∉ g.members.map (·.phys)) ∧
          ∀ (j : Nat) (m : Member) (w : SavedMember), g.members[j]? = some m → ms[j]? = some w →
            let u := (clean.core m.phys).settleCtl (s.cycle + 2)
            (∀ k, FenceSaved ((u.strand k).landDue s.cycle) (w.core.strand k)) ∧
            w.core.handles = u.handles ∧ w.core.mbox = u.mbox ∧ w.core.xjoin = u.xjoin ∧ w.core.xgen = u.xgen ∧ w.core.xvalid = u.xvalid ∧
            w.core.xframe = u.xframe ∧ w.core.slips = u.slips ∧ w.core.slipCount = u.slipCount ∧
            (∀ o b, (o, b) ∈ w.vault ↔ (vaultLoc m.phys o, b) ∈ clean.mem ∧ o < 2 ^ 24) ∧
            (∀ (y : Tl) l, w.spad[y.val]? = some l → ∀ o b, (o, b) ∈ l ↔ (spadLoc m.phys y o, b) ∈ clean.mem ∧ o < 2 ^ 20) ∧
            (∀ (y : Tl) l, w.acc[y.val]? = some l → ∀ o b, (o, b) ∈ l ↔ (accLoc m.phys y o, b) ∈ clean.mem ∧ o < 2 ^ 18) ∧
            ∀ y e, (((w.core.tile y).queue e).entries.map fun b => (b.seq, b.gen, b.f)) =
              (((clean.tile m.phys y).queue e).entries.map fun b => (b.seq, b.gen, b.f)) ∧
              ((w.core.tile y).queue e).next = ((clean.tile m.phys y).queue e).next) ∧
        (limit ≤ s.cycle → ∃ t, exec (.fenceAbandon i) s = .next t ∧ t.gang? i = some { g with preempt := none } ∧
          (s.ckpt ≠ .quiesce → t.ckpt = s.ckpt ∧ t.reports = s.reports ∧ t.todo = s.todo) ∧
          (s.ckpt = .quiesce → t.ckpt = .failed ∧ t.reports = s.reports ++ [(i, 2)] ∧ t.todo = .checkpointResume :: s.todo) ∧
          (∀ c, c ∉ g.members.map (·.phys) → t.core c = s.core c) ∧ t.mem = s.mem ∧
          ∀ m ∈ g.members, { t.core m.phys with strands := (s.core m.phys).strands } = s.core m.phys ∧
            ∀ k, StrandResumes (s.strand m.phys k) (t.strand m.phys k)) ∧
        (s.cycle < limit → exec (.fenceAbandon i) s = .next s))) ∧
    (∀ g cl, s.saved.find? (·.gang.id == i) = some g →
      (shapeOk s g cl = true → g.gang.members.length = g.members.length →
        (∀ y, s.launch? g.gang.launch = some y → y.reefed = true → g.gang.diverted = true) →
        ∃ t h, exec (.gangRestore i cl) s = .next t ∧ t.gangs = s.gangs ++ [h] ∧ h.id = i ∧ h.members.map (·.phys) = cl ∧
          h.members.map (·.logical) = g.gang.members.map (·.logical) ∧ h.launch = g.gang.launch ∧ h.node = g.gang.node ∧
          t.saved = s.saved.filter (·.gang.id ≠ i) ∧
          (∀ m ∈ h.members, (g.gang.members.map (·.logical)).Nodup → (t.ctx h.ctx).cmap.get m.logical = some m.phys) ∧
          ∀ (j : Nat) (c : Cl) (w : SavedMember), cl[j]? = some c → g.members[j]? = some w →
            (t.core c).gang = some i ∧ (∀ k, StrandResumes (w.core.strand k) (t.strand c k)) ∧ (t.core c).mbox = w.core.mbox ∧
            (t.core c).xvalid = w.core.xvalid ∧ (t.core c).xframe = w.core.xframe ∧
            (g.fence = true → (t.core c).handles = w.core.handles ∧ (t.core c).xjoin = w.core.xjoin ∧ (t.core c).xgen = w.core.xgen ∧
              (∀ y e, (t.tile c y).queue e = (w.core.tile y).queue e) ∧
              (s.memWf → (∀ z ∈ g.members, z.InRange) → (w.vault.map (·.1)).Nodup → ∀ o b, (o, b) ∈ w.vault → t.byte (vaultLoc c o) = b))) ∧
      (shapeOk s g cl = false → exec (.gangRestore i cl) s = .next { s with reports := s.reports ++ [(i, 1)] }))

/-- R2, R279, R357 to R359, R369: the device tick counts; the schedule clock of a cluster in a gang counts once every divisor
ticks; fabric time gains 5/3 ns at its slew, and every die receives its integer part; a time step is made only before the
first launch, a slew is at most 500 ppm; routes, under the term of the lease alone (R427, R428), and ports become what they are set to; traffic for another endpoint goes on by
the port of its class, or no further; a flit sent again changes nothing here. Conventions of the model: log 52, 68.
Completes: deviceTick, xframeAdvance, fabricTimeTick, ptpMessage, routeUpdate, portRetrain, flitResend, transitTraffic. -/
def Obligations.ClockAndPortEvents : Prop :=
  ∀ (s : State) (c : Cl),
    exec .deviceTick s = .next { s with xtick := s.xtick + 1 } ∧
    (∀ g, s.gangOf c = some g →
      let d := (if (s.core c).narrowed then 2 else 1) * (if ∃ m ∈ g.members, (s.core m.phys).bin = 2 then 2 else 1)
      LeavesCore (.xframeAdvance c) s c
        (if (s.core c).frameTicks + 1 < d then { s.core c with frameTicks := (s.core c).frameTicks + 1 }
         else { s.core c with xframe := (s.core c).xframe + 1, frameTicks := 0 })) ∧
    ((s.core c).gang = none → exec (.xframeAdvance c) s = .next s) ∧
    (let n := s.time.ns.toNat * 2 ^ 32 + s.time.frac.toNat + (5 * 2 ^ 32 * (1000000 + s.time.slew)).toNat / 3000000
     exec .fabricTimeTick s = .next { s with
       time := { s.time with ns := BitVec.ofNat 64 (n / 2 ^ 32), frac := BitVec.ofNat 32 n }, xtime := BitVec.ofNat 64 (n / 2 ^ 32) }) ∧
    (∀ ns frac, exec (.ptpMessage (.step ns frac)) s =
      .next (if s.launched = true then s else { s with time := { s.time with ns := ns, frac := frac } })) ∧
    (∀ ppm off, ∃ t, exec (.ptpMessage (.slew ppm off)) s = .next t ∧ { t with time := s.time } = s ∧
      t.time = { s.time with slew := t.time.slew, offset := off } ∧ (-500 ≤ ppm → ppm ≤ 500 → t.time.slew = ppm) ∧
      -500 ≤ t.time.slew ∧ t.time.slew ≤ 500) ∧
    (∀ yes, exec (.ptpMessage (.locked yes)) s = .next { s with time := { s.time with lock := yes } }) ∧
    (∀ (ep : BitVec 12) n r z, s.heeds n = true → ∃ t, exec (.routeUpdate ep ⟨n, r⟩) s = .next t ∧ { t with routes := s.routes } = s ∧
      ∀ i, tabGet t.routes i z = if i = ep.toNat then r else tabGet s.routes i z) ∧
    (∀ (ep : BitVec 12) n r, s.heeds n = false → exec (.routeUpdate ep ⟨n, r⟩) s = .next s) ∧
    (∀ p st, ∃ t, exec (.portRetrain p st) s = .next t ∧ { t with ports := s.ports } = s ∧
      ∀ i, t.ports.get i = if i = p then st else s.ports.get i) ∧
    (∀ p, exec (.flitResend p) s = .next s) ∧
    (∀ m : Transit,
      let r : Route := tabGet s.routes m.ep.toNat (Route.mk false 0 0 0 0 0)
      let p : Fin 16 := match m.cls.val % (r.cnt.val + 1) with
        | 0 => r.prt0
        | 1 => r.prt1
        | 2 => r.prt2
        | _ => r.prt3
      let goes := (s.island = .forward ∨ s.island = .attached ∨ s.island = .drain) ∧ m.ep ≠ s.endpoint ∧ r.v = true ∧ s.ports.get p ≠ .down
      (goes → exec (.transitTraffic m) s = .next { s with transit := s.transit ++ [⟨p, m.ep, m.cls⟩] }) ∧
      (¬goes → exec (.transitTraffic m) s = .next s))

/-- R370, R371, R373 to R375: an addition wraps at 2^64 and starts the chains of the armed heads it brings to their
thresholds; a store action writes its doubleword, and the chain's end counts a fire; a refused action fails the head; a busy
follower or a waiting fault leaves the chain; heads armed on a source that is gone are orphaned. Conventions of the model: log
44.
Completes: counterAddition, chainActionComplete, triggerOrphan. -/
def Obligations.TriggerEvents : Prop :=
  ∀ s : State,
    (∀ (n : BitVec 13) v, ∃ t, exec (.counterAddition n v) s = .next t ∧
      (∀ j, t.counter j = if j = n.toNat then s.counter j + v else s.counter j) ∧
      { t with ctrs := s.ctrs, slots := s.slots, chains := s.chains } = s ∧
      ∀ i, (s.slot i).state = .armed → (s.slot i).follower = false → headCounter s (s.slot i) = n.toNat → s.ckpt = .idle →
        if (s.counter n.toNat + v - (s.slot i).thr).toNat < 2 ^ 63 then
          t.slot i = { s.slot i with state := .firing } ∧ Chain.mk i i (s.slot i).dw 0 none ∈ t.chains
        else t.slot i = s.slot i) ∧
    (∀ (h : BitVec 14) ch, s.chain? h.toNat = some ch →
      let x := (s.slot ch.head).ctx
      let d : Slot := { blankSlot with dw := ch.dw }
      (ch.waits ≠ none ∨ s.followerBusy ch = true → exec (.chainActionComplete h) s = .next s) ∧
      (ch.waits = none → s.followerBusy ch = false →
        (∀ s1 p, (d.fld 0 0 3 = 1 ∨ d.fld 0 0 3 = 2) → d.fld 0 17 1 = 0 → isPeerAddr ((ch.dw[3]?).getD 0) = false →
          agentTranslate s x ((ch.dw[3]?).getD 0) false true none = (s1, .ok p) →
          (s.slot ch.head).cancel = false → (s.slot ch.head).fld 0 32 1 = 0 →
          ∃ t, exec (.chainActionComplete h) s = .next t ∧ t.mem = (writeHome s1 p (bytesOf 8 ((ch.dw[4]?).getD 0).toNat)).mem ∧
            t.slot ch.head = { s.slot ch.head with state := .done, fires := (s.slot ch.head).fires + 1 } ∧
            t.chains = s.chains.filter (fun y => y.head ≠ ch.head) ∧ t.cores = s.cores) ∧
        (∀ s1, actOf s ch.head x ch.dw ch.moved = .done s1 → exec (.chainActionComplete h) s = .next (nextAction s1 ch)) ∧
        (∀ s1 k, actOf s ch.head x ch.dw ch.moved = .failed s1 k → ∃ t, exec (.chainActionComplete h) s = .next t ∧
          t.slot ch.head = { s1.slot ch.head with state := .failed, lst := k } ∧ t.chains = s1.chains.filter (fun y => y.head ≠ ch.head) ∧
          { t with slots := s1.slots, chains := s1.chains } = s1) ∧
        (∀ s1 n, actOf s ch.head x ch.dw ch.moved = .part s1 n → exec (.chainActionComplete h) s = .next (s1.putChain { ch with moved := n })))) ∧
    (∀ d : Die, ((s.die d).state = .fenced ∨ (s.die d).state = .off → exec (.triggerOrphan (.die d)) s = .next
        { s with slots := s.slots.map fun e =>
            if e.2.state = .armed ∧ e.2.follower = false ∧ e.2.fld 6 16 1 = 1 ∧ e.2.fld 6 17 1 = 0 ∧ e.2.fld 6 18 2 = d.val then
              (e.1, { e.2 with state := .orphaned }) else e }) ∧
      ((s.die d).state = .run → exec (.triggerOrphan (.die d)) s = .next s)) ∧
    (∀ ep : BitVec 12, exec (.triggerOrphan (.endpoint ep)) s = .next
      { s with slots := s.slots.map fun e =>
          if e.2.state = .armed ∧ e.2.follower = false ∧ e.2.fld 6 16 1 = 1 ∧ e.2.fld 6 17 1 = 1 ∧ e.2.fld 6 20 12 = ep.toNat then
            (e.1, { e.2 with state := .orphaned }) else e })

/-- R361 to R364, R417, R422: an access of a peer is refused while the island takes no traffic, or where the context does not
admit its endpoint or its die is gone, and is held during a checkpoint, and behind an earlier one of its agent and class (R268,
R365); one that is admitted and translates reads, writes, or combines at home, or finds poison; a counter window adds; one that
faults waits for firmware. R266, R310, R367, R368, R422: a host access goes through its
slice of BAR2 into the slice's context: a read answers, a write stores, the two atomics answer the old doubleword; without a
slice, of another size or misaligned, or while the island boots, a read is unsupported and a write is dropped and counted;
without power nothing answers. In the control window, a read of the state words answers, one of a mailbox is unsupported, the
driver's request area takes writes, and a read of a cluster's superseded bits clears them. Conventions of the model: log 13,
54, 55 (DEDUCED: a peer's access is served while the island drains), 66, 68.
Completes: peerAccessArrive, hostRead, hostWrite, hostFetchadd, hostCas, supersededBitsRead. -/
def Obligations.PeerAndHostAccesses : Prop :=
  (∀ (s : State) (a : PeerAccess),
    let up := s.island = .forward ∨ s.island = .attached ∨ s.island = .drain
    let admitted := (s.ctx a.rctx).state = .active ∧ a.src ∈ (s.ctx a.rctx).admits
    let answer (s1 : State) (r : PeerAns) : State := { s1 with peerOut := s1.peerOut ++ [(a.src, r)] }
    let behind := ∃ w ∈ s.peerWaits, w.src = a.src ∧ w.agent = a.agent ∧ w.cls = a.cls
    (¬up → exec (.peerAccessArrive a) s = .next (answer s (.refused 1))) ∧
    (up → s.ckpt ≠ .idle ∨ behind → exec (.peerAccessArrive a) s = .next { s with peerWaits := s.peerWaits ++ [a] }) ∧
    (up → s.ckpt = .idle → ¬behind → ¬admitted → exec (.peerAccessArrive a) s = .next (answer s (.refused 1))) ∧
    (up → s.ckpt = .idle → ¬behind → admitted → a.counter = false → ∀ s1 p,
      translateIsland s a.rctx a.addr.toNat a.op.reads a.op.writes none = (s1, .ok p) →
      (p < hbmSize → (s.die (homeDie p)).absent = true → exec (.peerAccessArrive a) s = .next (answer s (.refused 1))) ∧
      ((p < hbmSize → (s.die (homeDie p)).absent = false) → a.op.reads = true → s1.poisonedIn p a.op.size ≠ none →
        exec (.peerAccessArrive a) s = .next (answer s1 (.poisoned (readHome s1 p a.op.size)))) ∧
      ((p < hbmSize → (s.die (homeDie p)).absent = false) → (a.op.reads = true → s1.poisonedIn p a.op.size = none) →
        (∀ n, a.op = .read n → exec (.peerAccessArrive a) s = .next (answer s1 (.data (readHome s1 p n)))) ∧
        (∀ bs, a.op = .write bs → exec (.peerAccessArrive a) s = .next (answer (writeHome s1 p bs) .done)) ∧
        (∀ o y z, a.op = .amo o y z → exec (.peerAccessArrive a) s = .next
          (answer (match (amoApply o (wordAt s1 p) y z).1 with
            | some v => setWordAt s1 p v
            | none => s1) (.old (amoApply o (wordAt s1 p) y z).2))) ∧
        (∀ k x, a.op = .combine k x → exec (.peerAccessArrive a) s = .next
          (answer (writeHome s1 p (bytesOf (unitOf k.dty) (k.apply (ofBytes (readHome s1 p (unitOf k.dty))) x))) .done)))) ∧
    (up → s.ckpt = .idle → ¬behind → admitted → a.counter = false → ∀ s1 k,
      translateIsland s a.rctx a.addr.toNat a.op.reads a.op.writes none = (s1, .error k) →
      ∃ t, exec (.peerAccessArrive a) s = .next t ∧ t.peerWaits = s.peerWaits ++ [a] ∧ t.mem = s.mem ∧
        ∃ e ∈ t.islandFaults, e.ctx = a.rctx ∧ e.code = k ∧ e.va = a.addr ∧ e.write = a.op.writes) ∧
    (up → s.ckpt = .idle → ¬behind → admitted → a.counter = true → ∀ bs, a.op = .write bs → bs.length = 8 → a.addr.toNat % 8 = 0 →
      a.addr.toNat / 8 < (s.ctx a.rctx).ccnt → exec (.peerAccessArrive a) s =
        .next (answer (addCounter ((s.ctx a.rctx).cbase + a.addr.toNat / 8) (BitVec.ofNat 64 (ofBytes bs)) s) .done))) ∧
  (∀ s : State,
    (s.island ≠ .off → s.island ≠ .boot → s.hostWaits = [] →
      (∀ a n x va s1 p, s.sliceOf (.read a n) = some (x, va) → agentTranslate s x va true false none = (s1, .ok p) →
        s1.poisonedIn p n = none → exec (.hostRead a n) s = .next { s1 with hostOut := s1.hostOut ++ [.data (readHome s1 p n)] }) ∧
      (∀ a n, a.toNat < 2 ^ 32 → s.sliceOf (.read a n) = none → exec (.hostRead a n) s = .next { s with hostOut := s.hostOut ++ [.unsupported] }) ∧
      (∀ a bs ro x va s1 p, s.ckpt = .idle → s.sliceOf (.write a bs ro) = some (x, va) → agentTranslate s x va false true none = (s1, .ok p) →
        exec (.hostWrite a bs ro) s = .next (writeHome s1 p bs)) ∧
      (∀ a bs ro, a.toNat < 2 ^ 32 → s.ckpt = .idle → s.sliceOf (.write a bs ro) = none → exec (.hostWrite a bs ro) s = .next { s with dropped := s.dropped + 1 }) ∧
      (∀ a v x va s1 p, s.ckpt = .idle → a.toNat % 8 = 0 → s.sliceOf (.fetchadd a 8 v) = some (x, va) → agentTranslate s x va true true none = (s1, .ok p) →
        s1.poisonedIn p 8 = none → exec (.hostFetchadd a 8 v) s = .next
          (let u := setWordAt s1 p (wordAt s1 p + v)
           { u with hostOut := u.hostOut ++ [.data (bytesOf 8 (wordAt s1 p).toNat)] })) ∧
      (∀ a y z x va s1 p, s.ckpt = .idle → a.toNat % 8 = 0 → s.sliceOf (.cas a 8 y z) = some (x, va) → agentTranslate s x va true true none = (s1, .ok p) →
        s1.poisonedIn p 8 = none → exec (.hostCas a 8 y z) s = .next
          (let u := if wordAt s1 p = y then setWordAt s1 p z else s1
           { u with hostOut := u.hostOut ++ [.data (bytesOf 8 (wordAt s1 p).toNat)] })) ∧
      (∀ a bs ro, a.toNat < 2 ^ 32 → s.ckpt ≠ .idle → exec (.hostWrite a bs ro) s = .next { s with hostWaits := [.write a bs ro] }) ∧
      (∀ a n v, s.ckpt = .idle → n ≠ 8 ∨ a.toNat % 8 ≠ 0 → exec (.hostFetchadd a n v) s = .next { s with hostOut := s.hostOut ++ [.unsupported] }) ∧
      (∀ a n y z, s.ckpt = .idle → n ≠ 8 ∨ a.toNat % 8 ≠ 0 → exec (.hostCas a n y z) s = .next { s with hostOut := s.hostOut ++ [.unsupported] })) ∧
    (s.island = .boot → ∀ a n bs ro, a.toNat < 2 ^ 32 → exec (.hostRead a n) s = .next { s with hostOut := s.hostOut ++ [.unsupported] } ∧
      exec (.hostWrite a bs ro) s = .next { s with dropped := s.dropped + 1 }) ∧
    (s.island = .off → ∀ a n bs ro, exec (.hostRead a n) s = .next s ∧ exec (.hostWrite a bs ro) s = .next s) ∧
    (s.island ≠ .off → s.island ≠ .boot → (∀ a ∈ s.hostWaits, a.isWrite = false) →
      (∃ t, exec (.hostRead 0x100000008 8) s = .next t ∧ { t with hostOut := s.hostOut, fresh := s.fresh } = s ∧
        t.hostOut = s.hostOut ++ [.data (bytesOf 8 (s.island.code + 2 ^ 8 * s.bootError.toNat))]) ∧
      (∀ off, 0x100000 ≤ off → off < 0x101000 → off % 8 = 0 →
        exec (.hostRead (BitVec.ofNat 64 (2 ^ 32 + off)) 8) s = .next { s with hostOut := s.hostOut ++ [.unsupported] }) ∧
      (∀ off bs, 0x10000 ≤ off → off < 0x100000 → off % 8 = 0 → bs.length = 8 → ∃ t,
        exec (.hostWrite (BitVec.ofNat 64 (2 ^ 32 + off)) bs false) s = .next t ∧ { t with bar0 := s.bar0 } = s ∧
        ∀ i, tabGet t.bar0 i 0 = if i = off then BitVec.ofNat 64 (ofBytes bs) else tabGet s.bar0 i 0)) ∧
    (∀ c, s.island = .forward ∨ s.island = .attached ∨ s.island = .drain → (∀ a ∈ s.hostWaits, a.isWrite = false) →
      ∃ t, exec (.supersededBitsRead c) s = .next t ∧
      t.hostOut = s.hostOut ++ [.data (bytesOf 8 (s.core c).superseded.toNat)] ∧ t.core c = { s.core c with superseded := 0 } ∧
      (∀ c', c' ≠ c → t.core c' = s.core c') ∧ { t with cores := s.cores, hostOut := s.hostOut, fresh := s.fresh } = s))

/-- R256, R317, R338, R358, R360 to R363, R368, R405, R426: what firmware writes into its tables stands there; entries 0 to 3
and 31 of a scope table, endpoint 4,095 and an interval outside 10 us to 10 ms are not written; a page-table entry that would
map a retired frame is not written (R409), and one that maps a frame under a key slot takes its key (R434); a granted
partition's counters read zero and its slots are Free; a die's tlbi waits for the stores that what it drops translated (R344). R311, R314, R321, R335, R346, R347, R374: firmware resolves what an agent waits for, or
leaves it: a queue reads on or halts, a chain goes on or its head fails with status 3, an admission is tried again or its
launch ends with status 6, a placement is tried again or its instance stops, a record is tried again, a host read goes
unanswered. A core that restarts attends to no entry (R438). Scope tables, windows, partitions, the endpoint number, admission maps and
slices are written under the term of the lease alone (R427, R428). Conventions of the model: log 27, 29 (DESIGN CHOICE: a frame's slot
and key stand in pageKeys), 51, 68.
Completes: firmwareTableWrite, islandAgentFaultResolved, faultLeftUnresolved. -/
def Obligations.FirmwareTablesAndFaults : Prop :=
  (∀ (s : State) (n : BitVec 32) (w : TableWrite), w.leaderOnly = true → s.heeds n = false →
    exec (.firmwareTableWrite ⟨n, w⟩) s = .next s) ∧
  (∀ (s : State) (x : Fin 64) (n : BitVec 32),
    let writes (w : TableWrite) : Instr := .firmwareTableWrite ⟨n, w⟩
    let term : Prop := s.heeds n = true
    let leaves (w : TableWrite) (y : Context) : Prop :=
      ∃ t, exec (writes w) s = .next t ∧ t.ctx x = y ∧ { t with ctxs := s.ctxs } = s ∧ ∀ z, z ≠ x → t.ctx z = s.ctx z
    let leavesDie (w : TableWrite) (d : Die) (y : DieRec) : Prop :=
      ∃ t, exec (writes w) s = .next t ∧ t.die d = y ∧ { t with dies := s.dies } = s ∧ ∀ e, e ≠ d → t.die e = s.die e
    let c := s.ctx x
    (∀ (e : BitVec 5) r, term → 4 ≤ e.toNat → e.toNat ≤ 30 → leaves (.scope x e r) { c with scopes := c.scopes.set e.toNat r e.isLt }) ∧
    (∀ (e : BitVec 5) r, e.toNat < 4 ∨ e = 31 → exec (writes (.scope x e r)) s = .next s) ∧
    (∀ agc, leaves (.ageing x agc) { c with agc := agc }) ∧
    (∀ pf kf mc, leaves (.policy x pf kf mc) { c with pf := pf, kf := kf, mc := mc }) ∧
    (∀ us, leaves (.fenceLimit x us) { c with fenceLimit := us }) ∧
    (∀ b : Fin 64, leaves (.bufferClear x b) { c with bufs := c.bufs.set b.val (0, 0) }) ∧
    (∀ (i : Fin 64) w, term → i.val < c.pwn → c.pwt.toNat + 2048 ≤ hbmSize → (∀ d, (s.die d).uncore = true) → s.memWf → w.len < 2 ^ 48 →
      ∃ t, exec (writes (.window x i w)) s = .next t ∧ { t with mem := s.mem, poison := s.poison, pageKeys := s.pageKeys } = s ∧
        (t.windows x)[i.val]? = some w ∧ ∀ j : Fin 64, j ≠ i → (t.windows x)[j.val]? = (s.windows x)[j.val]?) ∧
    (∀ ep yes, term → ∃ t, exec (writes (.admitPeer x ep yes)) s = .next t ∧ { t with ctxs := s.ctxs } = s ∧
      ∀ e, e ∈ (t.ctx x).admits ↔ if e = ep then yes = true else e ∈ c.admits) ∧
    (∀ cb cc sb sc pt pn, term → ∃ t, exec (writes (.partition x cb cc sb sc pt pn)) s = .next t ∧
      t.ctx x = { c with cbase := cb, ccnt := cc, sbase := sb, scnt := sc, pwt := pt, pwn := pn } ∧
      (∀ n, t.counter n = if cb ≤ n ∧ n < cb + cc then 0 else s.counter n) ∧
      (∀ n, t.slot n = if sb ≤ n ∧ n < sb + sc then blankSlot else s.slot n) ∧ t.mem = s.mem ∧ t.cores = s.cores) ∧
    (∀ d en k ph, leavesDie (.auditor d en k ph) d { s.die d with auditOn := en, auditK := k, auditPh := ph }) ∧
    (∀ d us, 10 ≤ us → us ≤ 10000 → leavesDie (.rerank d us) d { s.die d with rerankUs := us }) ∧
    (∀ d us, us < 10 ∨ 10000 < us → exec (writes (.rerank d us)) s = .next s) ∧
    (∀ pa v, pa % 8 = 0 → pa + 8 ≤ hbmSize →
      let stored (z : State) : State := writeHome (z.underKey pa 0) pa (bytesOf 8 v.toNat)
      let f := pteNext v.toNat / 2 ^ 16
      let d := homeDie (f * 2 ^ 16)
      (v.getLsbD 0 = false → exec (writes (.pte pa v)) s = .next (stored s)) ∧
      (∀ fs corrected, v.getLsbD 0 = true → bits v.toNat 3 1 = 0 → f * 2 ^ 16 < hbmSize → s.votedFrames d = some (fs, corrected) →
        let read := s.modDie d fun y =>
          { y with tables := y.tables.each fun t => { t with frames := fs }, corrections := y.corrections + corrected }
        (f ∈ fs → exec (writes (.pte pa v)) s = .next read) ∧
        (f ∉ fs → exec (writes (.pte pa v)) s = .next (stored read))) ∧
      (v.getLsbD 0 = true → bits v.toNat 3 1 = 0 → f * 2 ^ 16 < hbmSize → s.votedFrames d = none →
        exec (writes (.pte pa v)) s = .next { s with todo := .dieFence d :: s.todo })) ∧
    (∀ off y, s.aliasCert = some y → off % 8 = 0 → 0x10000 ≤ off → off + y.padded.length ≤ 0x100000 →
      ∃ t, exec (writes (.certificate off)) s = .next t ∧ { t with bar0 := s.bar0 } = s ∧
        (∀ i, 8 * i < y.padded.length →
          tabGet t.bar0 (off + 8 * i) 0 = BitVec.ofNat 64 (ofBytes ((y.padded.drop (8 * i)).take 8))) ∧
        ∀ o, (∀ i, 8 * i < y.padded.length → o ≠ off + 8 * i) → tabGet t.bar0 o 0 = tabGet s.bar0 o 0) ∧
    (∀ off v, off % 8 = 0 → 0x10000 ≤ off → off < 0x100000 →
      exec (writes (.request off v)) s = .next { s with bar0 := tabSet s.bar0 off v }) ∧
    (∀ d (k : Fin 2) row spare, leavesDie (.remap d k row spare) d ((s.die d).remapRow k row spare)) ∧
    (∀ (i : Fin 64) m, term → exec (writes (.slice i m)) s = .next { s with slices := s.slices.set i.val m }) ∧
    (∀ ep, term → exec (writes (.endpoint ep)) s = .next (if ep = 4095 then s else { s with endpoint := ep })) ∧
    (∀ (i : Fin 24) ma, exec (writes (.currentLimit i ma)) s =
      .next { s with power := { s.power with limits := tabSet s.power.limits i.val ma } }) ∧
    (∀ page, ∃ t, exec (writes (.islandTlbi x page)) s = .next t ∧ { t with islandTlb := s.islandTlb } = s ∧
      ∀ e, e ∈ t.islandTlb ↔ e ∈ s.islandTlb ∧ ¬(match page with | some va => e.covers x va.toNat = true | none => e.ctx = x)) ∧
    (∀ d page, (∃ k, dieOf k = d ∧ (s.core k).storesHome = false) → exec (writes (.dieTlbi d x page)) s = .next s) ∧
    (∀ d page, (∀ k, dieOf k = d → (s.core k).storesHome = true) → ∃ t,
      exec (writes (.dieTlbi d x page)) s = .next t ∧ { t with cores := s.cores } = s ∧
      ∀ k e, e ∈ (t.core k).tlb ↔ e ∈ (s.core k).tlb ∧
        ¬(dieOf k = d ∧ match page with | some va => e.covers x va.toNat = true | none => e.ctx = x))) ∧
  (∀ s : State,
    (∀ (f : FaultSource), s.attends (f.core s) = false →
      exec (.islandAgentFaultResolved f) s = .next s ∧ exec (.faultLeftUnresolved f) s = .next s) ∧
    (∀ (q : Nat) e, s.attends (dieCore (s.queue q).d.die) = true → (s.queue q).skip = some e →
      (∃ t, exec (.islandAgentFaultResolved (.queue q)) s = .next t ∧ t.queue q = { s.queue q with skip := none } ∧
        e ∉ t.faultq.get (s.queue q).d.die ∧ (∀ j, j ≠ q → t.queue j = s.queue j) ∧ t.mem = s.mem ∧ t.cores = s.cores) ∧
      (∃ t, exec (.faultLeftUnresolved (.queue q)) s = .next t ∧ (t.queue q).state = .halted ∧ (t.queue q).skip = none ∧
        e ∉ t.faultq.get (s.queue q).d.die ∧ t.mem = s.mem ∧ t.cores = s.cores)) ∧
    (∀ h ch e, s.attends 4 = true → s.chain? h = some ch → ch.waits = some e →
      (∃ t, exec (.islandAgentFaultResolved (.chain h)) s = .next t ∧ t.chain? h = some { ch with waits := none } ∧
        e ∉ t.islandFaults ∧ t.slots = s.slots ∧ t.mem = s.mem) ∧
      (∃ t, exec (.faultLeftUnresolved (.chain h)) s = .next t ∧ t.chain? h = none ∧ e ∉ t.islandFaults ∧
        t.slot h = { s.slot h with state := .failed, lst := 3 } ∧ t.mem = s.mem)) ∧
    (∀ d e l x, s.attends (dieCore d) = true → (s.die d).admitWait = some (e, l) → s.launch? l = some x → l ∈ (s.die d).ranked →
      (∃ t, exec (.islandAgentFaultResolved (.admission d)) s = .next t ∧ (t.die d).admitWait = none ∧ e ∉ t.faultq.get d ∧
        t.launches = s.launches) ∧
      (∃ t, exec (.faultLeftUnresolved (.admission d)) s = .next t ∧ e ∉ t.faultq.get d ∧
        ∀ y ∈ t.launches, y.id = l → y.status.isSome = true)) ∧
    (∀ d e dd r, s.attends (dieCore d) = true → (s.die d).placeWait = some (e, dd, r) →
      (∃ t, exec (.islandAgentFaultResolved (.placement d)) s = .next t ∧ (t.die d).placeWait = none ∧ e ∉ t.faultq.get d ∧
        t.launches = s.launches ∧ t.mem = s.mem) ∧
      (r ∈ (s.die dd).pool → exec (.faultLeftUnresolved (.placement d)) s = .next
        (stopInstance dd r (0x100 + e.code.toNat) e.va ((s.dropFault d e).modDie d fun y => { y with placeWait := none })))) ∧
    (∀ (l : Nat) (x : Launch) e, s.launch? l = some x → s.attends (dieCore x.die) = true → x.recordWait = some e →
      ∃ t, exec (.islandAgentFaultResolved (.record l)) s = .next t ∧ t.launch? l = some { x with recordWait := none } ∧ t.mem = s.mem) ∧
    (∀ a n, s.attends 4 = true → s.island = .attached → s.hostWaits = [.read a n] → ∃ t, exec (.faultLeftUnresolved .host) s = .next t ∧ t.hostWaits = [] ∧
      t.hostOut = s.hostOut ++ [.unsupported] ∧ t.mem = s.mem) ∧
    (∀ a, s.attends 4 = true → s.peerWaits = [a] → s.faultingPeer = some a → ∃ t, exec (.faultLeftUnresolved .peer) s = .next t ∧ t.peerWaits = [] ∧
      t.peerOut = s.peerOut ++ [(a.src, .refused 1)] ∧ t.mem = s.mem))

/-- R397 to R404: a strand that consumes a poisoned line is held with a machine check at the address it accesses, its line is marked and
its launch's context and tag are purged; an engine's entry stops at its element, with an entry of code 0x22 in the fault queue; a copy
likewise; an entry that is bad is a machine check of its unit at address 0. A corrected
error is counted; 64 of a cluster within a second make it suspect (R416). A purge takes every launch that bears the tag out of the ranked queues, pools
and spill queues, discards its saved gangs, halts the strands of the others and cancels armed heads; when all of it is gone, a
replayable launch is ranked once more, and another ends with status 5; under policy 2 the context is killed where a machine
check began the purge (R338). Conventions of the model: log 38, 47, 53.
Completes: poisonConsumption, purge, purgeComplete. -/
def Obligations.PurgeEvents : Prop :=
  ∀ (s : State) (x : Fin 64) (tag : BitVec 16),
    (∀ c k addr pa, ((s.strand c k).state = .run ∨ (s.strand c k).state = .handler) → (s.strand c k).fw = none → pa < 2 ^ 44 →
      ∃ t, exec (.poisonConsumption (.strand c k addr) pa) s = .next t ∧ pa / 64 ∈ t.poison ∧ t.mem = s.mem ∧
        t.strand c k = { s.strand c k with fw := some ⟨0x22, BitVec.ofNat 16 (unitAt pa), addr⟩ } ∧
        (∃ e ∈ t.faultq.get (dieOf c), e.code = 0x22 ∧ e.src = 0 ∧ e.cluster = c ∧ e.unit = k.val ∧ e.va = addr) ∧
        ∀ g, s.gangOf c = some g → Work.purge g.ctx g.tag ∈ t.todo) ∧
    (∀ c k addr pa, ((s.strand c k).state = .run ∨ (s.strand c k).state = .handler) → (s.strand c k).fw = none → 2 ^ 44 ≤ pa →
      let unit := 5 + pa % 4
      ∃ t, exec (.poisonConsumption (.strand c k addr) pa) s = .next t ∧ t.poison = s.poison ∧ t.mem = s.mem ∧
        t.strand c k = { s.strand c k with fw := some ⟨0x22, BitVec.ofNat 16 unit, 0⟩ } ∧
        (t.core c).suspect = ((s.core c).suspect || decide (unit = 6 ∨ unit = 7))) ∧
    (∀ c pa, let y := s.core c
      let times := s.cycle :: y.correctedAt.filter fun t => decide (s.cycle < t + 1800000000)
      LeavesCore (.poisonConsumption (.correctedEntry c) pa) s c
        { y with corrected := saturate32 y.corrected, correctedAt := times, suspect := y.suspect || decide (64 ≤ times.length) }) ∧
    (∀ pa, exec (.poisonConsumption .correctedIsland pa) s = .next { s with islandErrors := saturate32 s.islandErrors }) ∧
    (∀ c k addr pa, (s.strand c k).state = .idle ∨ (s.strand c k).state = .halted →
      exec (.poisonConsumption (.strand c k addr) pa) s = .next s) ∧
    (∀ c t1 e b rest (o : Fin 3) addr pa, ((s.tile c t1).queue e).entries = b :: rest → b.phase = .running → b.fault = none → pa < 2 ^ 44 →
      rest.all (·.seq != b.seq) = true →
      ∃ t, exec (.poisonConsumption (.engine c t1 e o addr) pa) s = .next t ∧ pa / 64 ∈ t.poison ∧ t.mem = s.mem ∧
        ((t.tile c t1).queue e).entries = { b with fault := some ⟨0x22, addr, false, o.val⟩ } :: rest ∧
        (∃ f ∈ t.faultq.get (dieOf c), f.code = 0x22 ∧ f.src = 1 ∧ f.cluster = c ∧ f.tile = t1.val ∧ f.unit = e.code ∧ f.operand = o.val ∧
          f.va = addr ∧ f.seq = b.seq.setWidth 64 ∧ f.n = b.n) ∧
        ∀ g, s.gangOf c = some g → Work.purge g.ctx (BitVec.ofNat 16 (fbits b.f 28 16 16)) ∈ t.todo) ∧
    (∀ (q : Fin 1024) j addr pa, s.copyJob? q = some j → j.stopped = none → pa < 2 ^ 44 →
      ∃ t, exec (.poisonConsumption (.copy q.val addr) pa) s = .next t ∧ pa / 64 ∈ t.poison ∧
        t.todo = .purge (s.ctxOfQueue j.queue) j.tag :: s.todo ∧ t.mem = s.mem ∧ t.cores = s.cores) ∧
    (∃ t ids, exec (.purge x tag) s = .next t ∧ t.purges = s.purges ++ [⟨x, tag, ids, true⟩] ∧
      (∀ l ∈ s.launches, l.ctx = x → l.tag = tag → l.status = none → l.id ∈ ids) ∧
      (∀ l ∈ t.launches, l.id ∈ ids → l.purging = true) ∧
      (∀ i ∈ ids, ∀ d, i ∉ (t.die d).ranked ∧ ∀ r ∈ (t.die d).pool ++ (t.die d).spill, r.launch ≠ i) ∧
      (∀ g ∈ t.saved, g.gang.launch ∉ ids) ∧
      (∀ g ∈ s.gangs, g.launch ∈ ids → ∀ m ∈ g.members, ∀ k, (t.strand m.phys k).state = .halted ∨ (t.strand m.phys k).state = .idle) ∧
      (∀ e ∈ t.slots, e.2.ctx = x → tagOfDesc e.2.dw = tag → e.2.state ≠ .armed) ∧
      ∀ i, i ∈ ids → ∃ l ∈ s.launches, l.id = i ∧ l.ctx = x ∧ l.tag = tag ∧ l.status = none) ∧
    (∀ p, s.purges.find? (fun p => p.ctx == x && p.tag == tag) = some p →
      (purgeDone s p = false → exec (.purgeComplete x tag) s = .next s) ∧
      (purgeDone s p = true → p.launches = [] → exec (.purgeComplete x tag) s = .next { s with
        purges := s.purges.erase p
        todo := if (s.ctx x).mc = 2 ∧ p.check = true then .contextKill x :: s.todo else s.todo }) ∧
      (∀ i l, purgeDone s p = true → p.launches = [i] → s.launch? i = some l → (∀ q ∈ s.purges.erase p, i ∉ q.launches) →
        (s.queue l.queue.val).state ≠ .resetting → (s.ctx x).mc ≠ 2 → l.status = none →
        let again := bits l.header 6 1 = 1 ∧ l.replayed = false ∧ l.offChip = false ∧ (l.deadline = 0 ∨ s.xtime.toNat < l.deadline) ∧
          (s.ctx l.ctx).mc ≠ 3
        ∃ t, exec (.purgeComplete x tag) s = .next t ∧ t.purges = s.purges.erase p ∧ t.mem = s.mem ∧ t.cores = s.cores ∧
          (¬again → t.launch? i = some { l with purging := false, status := some 5, phase := .ended }) ∧
          (again → (∃ d, i ∈ (t.die d).ranked) ∧ ∀ y, t.launch? i = some y → y.packet = l.packet ∧ y.events = l.events ∧
            y.replayed = true ∧ y.purging = false ∧ y.phase = .ranked ∧ y.status = none ∧ y.nodes = [] ∧ y.placed = 0))) ∧
    (s.purges.find? (fun p => p.ctx == x && p.tag == tag) = none → exec (.purgeComplete x tag) s = .next s)

/-- R405, R407 to R410, R416: an audit is replayed from its snapshot on its idle cluster, and the signatures compared, each with what
hardware errors change of it; a mismatch that a second replay, on another idle cluster, confirms is a machine check of the audited
cluster and purges its tag, one that it does not leaves the first audit cluster suspect; without an idle cluster the audit is
abandoned. A scrub writes the majority of three to all three copies, and a die without one is fenced. A suspect cluster goes
down a bin and is placed again after three passes in a row. Conventions of the model: log 20, 48, 67.
Completes: auditReplay, tableScrub, clusterRetest. -/
def Obligations.AuditScrubRetest : Prop :=
  ∀ (s : State) (d : Die),
    (∀ r, (s.die d).audits = [] → exec (.auditReplay d r) s = .next s) ∧
    (∀ a rest r, (s.die d).audits = a :: rest →
      let leaves (y : DieRec) : Prop :=
        ∃ t, exec (.auditReplay d r) s = .next t ∧ t.die d = y ∧ { t with dies := s.dies } = s ∧ ∀ e, e ≠ d → t.die e = s.die e
      let z : DieRec := { s.die d with audits := rest }
      let own := a.crc ^^^ r.own
      let first := a.replaySig s ^^^ r.first
      let second := a.replaySig s ^^^ r.second
      let other := ∃ c, c ≠ a.snap.cluster ∧ s.idleCluster d c = true
      (s.idleCluster d a.snap.cluster = false → leaves { z with audAbandoned := saturate32 z.audAbandoned }) ∧
      (s.idleCluster d a.snap.cluster = true →
        (first = own → leaves { z with audCompared := saturate32 z.audCompared }) ∧
        (first ≠ own → ¬other → leaves { z with
          audCompared := saturate32 z.audCompared, audMismatch := saturate32 z.audMismatch, audAbandoned := saturate32 z.audAbandoned }) ∧
        (first ≠ own → other →
          ∃ t, exec (.auditReplay d r) s = .next t ∧ t.mem = s.mem ∧
            t.die d = { z with audCompared := saturate32 z.audCompared, audMismatch := saturate32 z.audMismatch } ∧
            (second = first → (t.core a.cluster).suspect = true ∧ t.todo = .purge a.ctx a.entry.tag :: s.todo ∧
              ∃ e ∈ t.faultq.get (dieOf a.cluster), e.code = 0x22 ∧ e.ctx = a.ctx ∧ e.cluster = a.cluster ∧ e.va = 0 ∧
                e.seq = a.entry.seq.setWidth 64) ∧
            (second = own → (t.core a.snap.cluster).suspect = true ∧ t.todo = s.todo ∧ t.faultq = s.faultq) ∧
            (second ≠ first → second ≠ own → (t.core a.snap.cluster).suspect = true ∧ (t.core a.cluster).suspect = true)))) ∧
    (∃ t, exec .tableScrub s = .next t ∧ t.mem = s.mem ∧ t.cores = s.cores ∧ t.lease = Vector.replicate 3 s.leaseNow ∧
      ∀ e, (∀ v, voteTables (s.die e).tables = some v → (t.die e).tables = Vector.replicate 3 v.1 ∧
            (t.die e).corrections = (s.die e).corrections + v.2) ∧
        (voteTables (s.die e).tables = none → t.die e = s.die e ∧ Work.dieFence e ∈ t.todo)) ∧
    (∀ c pass, let y := s.core c
      (y.suspect = false ∨ y.gang ≠ none ∨ y.bin = 3 → exec (.clusterRetest c pass) s = .next s) ∧
      (y.suspect = true → y.gang = none → y.bin ≠ 3 →
        (y.passes = 0 → pass = true → LeavesCore (.clusterRetest c pass) s c
          (if y.bin = 2 then { y with bin := 3, passes := 1 } else { y with bin := y.bin + 1, passes := 2 })) ∧
        (1 ≤ y.passes → pass = true → LeavesCore (.clusterRetest c pass) s c
          (if 3 ≤ y.passes then { y with suspect := false, passes := 0 } else { y with passes := y.passes + 1 })) ∧
        (1 ≤ y.passes → pass = false → LeavesCore (.clusterRetest c pass) s c { y with bin := y.bin + 1, passes := 1 })))

/-- R411 to R414, R429: a die that is fenced loses its gangs whole, and its records, ranked launches and roles go to a die in
run, or, its records, wait on it while there is none; the lowest die in run becomes master with the next term. A queue reset
takes the queue's launches out everywhere; when nothing of it is left the queue is disabled, and firmware reports it. It is the
leader's, under the term of the lease (R427, R428). Conventions of the model: log 49, 51 (that it is the leader's, DEDUCED), 68 (the report's form).
Completes: dieFence, masterReplace, queueReset, queueResetComplete. -/
def Obligations.FenceAndReset : Prop :=
  ∀ (s : State) (d : Die) (i : Fin 1024) (n : BitVec 32),
    (((s.die d).state = .run ∨ (s.die d).state = .drain) → ∃ t, exec (.dieFence d) s = .next t ∧
      (t.die d).state = .fenced ∧ (∀ g ∈ t.gangs, g.onDie d = false) ∧
      (∀ r ∈ (s.die d).pool ++ (s.die d).spill, (∀ e, e ≠ d → s.dieRuns e = false) →
        (∀ q ∈ (s.die d).pool ++ (s.die d).spill, q.launch = r.launch → s.reissuable q.launch q.node = true) →
        (∀ g ∈ s.gangs, g.launch = r.launch → g.onDie d = true → s.reissuable g.launch g.node = true) →
        ∃ q ∈ (t.die d).pool ++ (t.die d).spill, { q with made := r.made } = r) ∧
      (s.leaseNow.v = true → s.leaseNow.holder.toNat = d.val → t.leaseNow.v = false) ∧
      (s.master.die = d → t.master.paused = true ∧ Work.masterReplace ∈ t.todo) ∧
      ∀ e, e ≠ d → s.dieRuns e = true → (t.die d).pool = [] ∧ (t.die d).spill = [] ∧ (∀ q ∈ t.queues, q.2.d.die ≠ d) ∧
        (t.die d).ranked = []) ∧
    ((s.die d).state ≠ .run → (s.die d).state ≠ .drain → exec (.dieFence d) s = .next s) ∧
    (∀ e, s.dieRuns e = true → (∀ f, f.val < e.val → s.dieRuns f = false) →
      exec .masterReplace s = .next { s with master := ⟨e, s.master.term + 1, false⟩ }) ∧
    ((∀ e, s.dieRuns e = false) → exec .masterReplace s = .next s) ∧
    ((s.queue i.val).state ≠ .resetting → s.heeds n = true → ∃ t, exec (.queueReset ⟨n, i⟩) s = .next t ∧
      (t.queue i.val).state = .resetting ∧ (t.queue i.val).taken = none ∧ t.mem = s.mem ∧
      (∀ l ∈ t.launches, l.queue = i → l.status = none → l.purging = true) ∧
      (∀ l ∈ s.launches, l.queue = i → l.status = none → ∀ e, l.id ∉ (t.die e).ranked ∧
        ∀ r ∈ (t.die e).pool ++ (t.die e).spill, r.launch ≠ l.id) ∧
      ∀ j ∈ t.copies, j.queue = i → j.stopped ≠ none) ∧
    ((s.queue i.val).state = .resetting ∨ s.heeds n = false → exec (.queueReset ⟨n, i⟩) s = .next s) ∧
    ((s.queue i.val).state ≠ .resetting → exec (.queueResetComplete i) s = .next s) ∧
    ((s.queue i.val).state = .resetting → (∃ g ∈ s.gangs, ∃ l, s.launch? g.launch = some l ∧ l.queue = i) →
      exec (.queueResetComplete i) s = .next s) ∧
    ((s.queue i.val).state = .resetting → (∀ l ∈ s.launches, l.queue ≠ i) → (∀ j ∈ s.copies, j.queue ≠ i) →
      ∃ t, exec (.queueResetComplete i) s = .next t ∧ { t with queues := s.queues } = { s with reports := s.reports ++ [(i.val, 7)] } ∧
        (∀ n, n ≠ i.val → t.queue n = s.queue n) ∧
        t.queue i.val = { s.queue i.val with state := .disabled, d := { (s.queue i.val).d with en := false } })

/-- R410, R417 to R420, R435: a checkpoint makes a key, encapsulates it and fences every gang; once all are saved and no chain is
under way, and every die in service has a majority for its retired frames, its image is streamed: every MiB of the dies that have
power, without retired frames, in segments under the key, each with its number and tag, the hash over the tags and its signature,
poison, counters, slots,
queues, contexts and saved gangs of that moment; then the machine goes on. A restore, while no context is active and every key slot that it
assigns is Empty, brings them
back and leaves retired frames as they stand; where a check fails every context of the manifest is killed. Both are the leader's,
under the term of the lease (R427, R428). Conventions of the
model: log 30, 45, 46.
Completes: checkpointRequest, checkpointStream, checkpointResume, checkpointRestore. -/
def Obligations.CheckpointEvents : Prop :=
  ∀ s : State,
    (∀ r : CkptRequest, (s.ckpt ≠ .idle ∨ s.heeds r.term = false → exec (.checkpointRequest r) s = .next s) ∧
      (s.ckpt = .idle → s.heeds r.term = true → ∃ t, exec (.checkpointRequest r) s = .next t ∧ t.ckpt = .quiesce ∧ t.ckptTier = r.tier ∧ t.mem = s.mem ∧
        (let k : BitVec 256 := (Config.entropy s.fresh).setWidth 256
         t.ckptKey = (k, Config.kemEncaps r.ek k (Config.entropy (s.fresh + 1)))) ∧
        t.ckptGangs = (s.gangs.filter fun g => !g.fenced).map (fun g => (g.id, g.members.map (·.phys))) ∧
        (∀ g ∈ s.gangs, g.preempt = some .node → (g.id, .node) ∈ t.ckptBefore) ∧
        ∀ g ∈ t.gangs, ∃ cuts limit, g.preempt = some (.fence cuts limit))) ∧
    (s.ckpt = .quiesce → s.gangs = [] → s.chains = [] → s.framesLost = [] → ∃ t i, exec .checkpointStream s = .next t ∧
      t = { s with dies := t.dies, images := s.images ++ [i], ckpt := .streamed } ∧ (∀ d, t.retiredOn d = s.retiredOn d) ∧ i.ctrs = s.ctrs ∧ i.slots = s.slots ∧ i.queues = s.queues ∧
      i.ctxs = s.ctxs ∧ i.saved = s.saved ∧ i.clusters = s.ckptGangs ∧ i.cipher = s.ckptKey.2 ∧
      i.pageKeys = s.pageKeys.map (fun p => (p.1, p.2.1)) ∧
      (∀ g ∈ i.segments, g.tag = Config.gcmTag s.ckptKey.1 g.bytes) ∧ i.hash = hashTags (i.segments.map (·.tag)) ∧
      i.sig = Config.leaderSign i.hash ∧
      (let on (a : Nat) : Prop := a < 2 ^ 39 ∧ (s.die (homeDie a)).uncore = true
       i.segments.map (·.num) = List.range i.segments.length ∧
       (∀ b, b ∈ i.segments.map (·.base) ↔ b % 2 ^ 20 = 0 ∧ on b) ∧
       (∀ f, i.holds f = true ↔ on (f * 2 ^ 16) ∧ f ∉ s.retiredFrames) ∧
       (∀ l, on (64 * l) → (l ∈ i.poisoned ↔ l ∈ s.poison)) ∧
       ∀ a, on a → a / 2 ^ 16 ∉ s.retiredFrames → memGet (restoreMem [] s.ckptKey.1 i) a = s.underPageKeys.byte a)) ∧
    (s.ckpt = .quiesce → s.gangs = [] → s.chains = [] → s.framesLost ≠ [] →
      exec .checkpointStream s = .next { s with todo := s.framesLost.map .dieFence ++ s.todo }) ∧
    (s.ckpt ≠ .quiesce ∨ s.gangs ≠ [] ∨ s.chains ≠ [] → exec .checkpointStream s = .next s) ∧
    (s.ckpt = .streamed ∨ s.ckpt = .failed → ∃ t, exec .checkpointResume s = .next t ∧ t.ckpt = .idle ∧ t.ckptGangs = [] ∧
      t.ckptTier = [] ∧ t.images = s.images) ∧
    (s.ckpt = .idle ∨ s.ckpt = .quiesce → exec .checkpointResume s = .next s) ∧
    (∀ n (r : RestoreInput), (s.heeds r.term = false ∨ s.images[n]? = none ∨ (∃ x, (s.ctx x).state = .active) ∨
        (∃ i k x, s.images[n]? = some i ∧ (i.ctxs.get x).keymap.getLsbD k = true ∧ k < 512 ∧ ∃ v, (k, v) ∈ s.keys)) →
      exec (.checkpointRestore n r) s = .next s) ∧
    (∀ n (r : RestoreInput) i, s.heeds r.term = true → s.images[n]? = some i → (∀ x, (s.ctx x).state ≠ .active) →
      (∀ k x, (i.ctxs.get x).keymap.getLsbD k = true → ∀ v, (k, v) ∉ s.keys) →
      let key := Config.kemDecaps s.kem r.enc
      (restoreChecks key i r = false → ∃ t, exec (.checkpointRestore n r) s = .next t ∧ { t with ctxs := s.ctxs } = s ∧
        ∀ x, t.ctx x = if (i.ctxs.get x).state = .active then Context.reset else s.ctx x) ∧
      (restoreChecks key i r = true → i.clusters = [] → s.memWf → (i.segments.map (·.base)).Nodup →
        (∀ g ∈ i.segments, g.base % 2 ^ 20 = 0 ∧ g.base + 2 ^ 20 ≤ 2 ^ 39 ∧ g.body.length = 2 ^ 16 * g.frames.length) →
        ∃ t, exec (.checkpointRestore n r) s = .next t ∧ t.memWf ∧
          (∀ a, t.byte a = if a < 2 ^ 39 ∧ i.holds (a / 2 ^ 16) = true then memGet (restoreMem [] key i) a else s.byte a) ∧
          t.ctrs = i.ctrs ∧ t.slots = i.slots ∧ t.queues = i.queues ∧ t.ctxs = i.ctxs ∧ t.saved = i.saved ∧ t.cores = s.cores))

/-- R422, R424, R430, R432, R436: power, or the end of an island drain, boots the island from a cleared state: a record that passes its
checks leaves it Forward-only, in the record's configuration, with core 4 started in the image and the lease on it at term 1, every
enabled die on its way
to Run, new keys, registers 0 to 2 extended by the ROM's digest, the record and the image, the alias key bound to them and its
certificate, and in memory nothing, or what device memory held before a reset; a record that fails leaves it in Boot with
the check's code; power that goes leaves it Off.
R431, R432: a record's fields lie as Table 7 places them, under the signature of bytes 0 to 0x24ff; the identity, alias and
decapsulation keys come from SHA3-512 of the seed that the helper data yield, and a byte; the identity key signs the alias certificate.
R411, R412, R423, R429: a compute die goes from Off to Reset to Boot, with its SRAM zero, to Run, or back to Reset where its checks fail; it drains without new
placement, its records and queues going to a die in run, and is off or reset behind its last gang; a die that comes to run takes
what others have left; its firmware core starts in the same image. A die that runs while the master is lost brings a new master.
Conventions of the model: log 1, 2 (fabric time 0 at the boot, so that the lease lapses at 10 ms), 3, 28 (PRESUMED: the certificate's
layout; what the ROM digest and the signatures are), 31, 49, 61 (PRESUMED: where firmware starts), 65, 68.
Completes: powerApply, drainEnd, powerRemove, islandResetRequest, diePowerOn, dieResetRelease, dieBootComplete, dieDrain,
dieDrainComplete, fencedDieReset. -/
def Obligations.IslandAndDieEvents : Prop :=
  (∀ s : State,
    let code : BitVec 8 := if s.flash.sigOk = false then 1 else if s.flash.security < s.rollback then 2
      else if s.flash.identityOk = false then 3 else if Sha3.digest s.flashImage ≠ s.flash.imageHash then 4 else 0
    let boots (e : Instr) (mem : List Host.Cell) : Prop := ∃ t, exec e s = .next t ∧ t.mem = mem ∧ t.gangs = [] ∧ t.launches = [] ∧ t.queues = [] ∧
      t.flash = s.flash ∧ t.rollback = s.rollback ∧ t.images = s.images ∧
      if code ≠ 0 then t.island = .boot ∧ t.bootError = code else
        t.island = .forward ∧ t.bootError = 0 ∧ t.config = s.flash ∧ t.keys = [(0, (.assigned, 0))] ∧
        t.keyBits = [(0, Config.entropy s.fresh)] ∧ t.fresh = s.fresh + 1 ∧
        t.lease = Vector.replicate 3 ⟨4, true, 0, 1, 10000000, s.flashVer, 0⟩ ∧
        (∀ d : Die, bits s.flash.clusterDisable.toNat (16 * d.val) 16 ≠ 0xffff →
          .diePowerOn d ∈ t.todo ∧ .dieResetRelease d ∈ t.todo ∧ .dieBootComplete d ∈ t.todo) ∧
        (∀ c : Cl, (t.core c).bin.val = bits s.flash.bins.toNat (2 * c.val) 2) ∧
        (let item (m : BitVec 512) : BitVec 512 := Sha3.digest (bytesOf 64 0 ++ bytesOf 64 m.toNat)
         t.measure.get 0 = item Config.romDigest ∧ t.measure.get 1 = item (Sha3.digest s.flash.bytes) ∧
         t.measure.get 2 = item (Sha3.digest s.flashImage) ∧ ∀ n : Fin 8, 3 ≤ n.val → t.measure.get n = 0) ∧
        t.fwCores.get 4 = FwCore.start s.flashImage ∧ t.kem = s.flash.kemSeed ∧
        t.aliasKey = s.flash.aliasSeed (t.measure.toList.take 3) ∧ t.aliasCert = some (s.flash.certify (t.measure.toList.take 3))
    (s.island = .off → boots .powerApply []) ∧
    (s.island ≠ .off → exec .powerApply s = .next s) ∧
    (s.island = .drain → boots .drainEnd (s.mem.filter fun c => decide (c.1 < 2 ^ 39))) ∧
    (s.island ≠ .drain → exec .drainEnd s = .next s) ∧
    (s.island ≠ .off → ∃ t, exec .powerRemove s = .next t ∧ t.island = .off ∧ t.mem = [] ∧ t.gangs = [] ∧ t.launches = [] ∧
      t.cores = State.reset.cores ∧ t.dies = State.reset.dies ∧ t.flash = s.flash ∧ t.rollback = s.rollback ∧ t.images = s.images) ∧
    (s.island = .forward ∨ s.island = .attached →
      exec .islandResetRequest s = .next { s with island := .drain, drainUntil := s.cycle + 18000000 }) ∧
    (s.island ≠ .forward → s.island ≠ .attached → exec .islandResetRequest s = .next s)) ∧
  (∀ (s : State) (d : Die),
    let runs := s.island = .forward ∨ s.island = .attached ∨ s.island = .drain
    let sram (x : Nat) : Prop := 2 ^ 40 + d.val * 2 ^ 28 ≤ x ∧ x < 2 ^ 40 + (d.val + 1) * 2 ^ 28 ∨
      2 ^ 41 + d.val * 2 ^ 27 ≤ x ∧ x < 2 ^ 41 + (d.val + 1) * 2 ^ 27 ∨ 2 ^ 42 + d.val * 2 ^ 25 ≤ x ∧ x < 2 ^ 42 + (d.val + 1) * 2 ^ 25
    let others (t : State) : Prop := ∀ e, e ≠ d → t.die e = s.die e
    (runs → (s.die d).state = .off → ∃ t, exec (.diePowerOn d) s = .next t ∧ t.die d = { s.die d with state := .reset, uncore := false } ∧
      { t with dies := s.dies } = s ∧ others t) ∧
    ((s.die d).state ≠ .off → exec (.diePowerOn d) s = .next s) ∧
    (runs → (s.die d).state = .reset → s.memWf → ∃ t, exec (.dieResetRelease d) s = .next t ∧ (t.die d).state = .boot ∧
      (t.die d).uncore = true ∧ t.memWf ∧ others t ∧ (∀ x, (sram x → t.byte x = 0) ∧ (¬sram x → t.byte x = s.byte x)) ∧
      (∀ c, dieOf c ≠ d → t.core c = s.core c) ∧ ∀ c, dieOf c = d → (t.core c).gang = none ∧ (t.core c).bin = (s.core c).bin ∧
        (t.core c).tlb = [] ∧ ∀ k, t.strand c k = Strand.reset) ∧
    ((s.die d).state ≠ .reset → exec (.dieResetRelease d) s = .next s) ∧
    (runs → (s.die d).state = .boot → exec (.dieBootComplete ⟨d, false⟩) s = .next
      { s.modDie d (fun y => { y with state := .reset, uncore := false }) with reports := s.reports ++ [(d.val, 5)] }) ∧
    (runs → (s.die d).state = .boot → ∃ t, exec (.dieBootComplete ⟨d, true⟩) s = .next t ∧ (t.die d).state = .run ∧
      t.island = (if s.island = .drain then .drain else .attached) ∧ t.mem = s.mem ∧
      t.fwCores.get (dieCore d) = FwCore.start s.flashImage ∧
      ((∀ e, e ≠ d → (s.die e).state.gone = false) → t.die d = { s.die d with state := .run } ∧ others t) ∧
      (∀ e, e ≠ d → (s.die e).state.gone = true → (t.die e).pool = [] ∧ (t.die e).spill = [] ∧ (t.die e).ranked = [] ∧
        ∀ q ∈ t.queues, q.2.d.die ≠ e) ∧
      (s.master.paused = true ∨ (s.master.die ≠ d ∧ s.dieRuns s.master.die = false) → t.todo = .masterReplace :: s.todo)) ∧
    (∀ yes, (s.die d).state ≠ .boot → exec (.dieBootComplete ⟨d, yes⟩) s = .next s) ∧
    (∀ g, (s.die d).state = .run → ∃ t, exec (.dieDrain d g) s = .next t ∧ (t.die d).state = .drain ∧ (t.die d).goal = g ∧
      t.gangs = s.gangs ∧ t.mem = s.mem ∧ (s.leaseNow.v = true → s.leaseNow.holder.toNat = d.val → t.leaseNow.v = false) ∧
      ∀ e, e ≠ d → s.dieRuns e = true → (t.die d).pool = [] ∧ (t.die d).spill = [] ∧ (t.die d).ranked = [] ∧
        ∀ q ∈ t.queues, q.2.d.die ≠ d) ∧
    (∀ g, (s.die d).state ≠ .run → exec (.dieDrain d g) s = .next s) ∧
    ((s.die d).state = .drain → (∀ g ∈ s.gangs, g.onDie d = false) → ∃ t, exec (.dieDrainComplete d) s = .next t ∧
      t.die d = { s.die d with state := if (s.die d).goal = .off then .off else .reset, uncore := false } ∧
      { t with dies := s.dies } = s ∧ others t) ∧
    ((s.die d).state = .drain → (∃ g ∈ s.gangs, g.onDie d = true) → exec (.dieDrainComplete d) s = .next s) ∧
    (∀ g, (s.die d).state = .fenced → ∃ t, exec (.fencedDieReset d g) s = .next t ∧ others t ∧ { t with dies := s.dies } = s ∧
      t.die d = { s.die d with
        state := match g with
          | some .off => .off
          | some .reset => .reset
          | none => .fenced
        uncore := false }) ∧
    (∀ g, (s.die d).state ≠ .fenced → exec (.fencedDieReset d g) s = .next s)) ∧
  ∀ (r : ConfigRecord) (regs : List (BitVec 512)),
    let part (o n : Nat) : Nat := ofBytes ((r.bytes.drop o).take n)
    let hash (label : Byte) (more : List Byte) : BitVec 512 := Sha3.digest (bytesOf 32 (Config.puf r.helper).toNat ++ label :: more)
    let all (l : List (BitVec 512)) : List Byte := l.flatMap fun m => bytesOf 64 m.toNat
    (r.bytes.length = 0x2500 + 4627 ∧ part 0 4 = r.magic.toNat ∧ part 4 2 = r.format.toNat ∧ part 8 8 = r.security.toNat ∧
      part 0x10 16 = r.part.toNat ∧ part 0x20 16 = r.serial.toNat ∧ part 0x30 8 = r.clusterDisable.toNat ∧ part 0x38 16 = r.bins.toNat ∧
      part 0x80 64 = r.tileDisable.toNat ∧ part 0xc0 64 = r.imageHash.toNat ∧ part 0x100 1024 = r.helper.toNat ∧
      part 0x500 8192 = r.cert.toNat ∧ part 0x2500 4627 = r.sig.toNat) ∧
    r.sigOk = Config.dsaVerify Config.rootKey (r.bytes.take 0x2500) r.sig ∧
    (r.identityOk = true ↔ (Config.dsaPublic ((hash 1 []).setWidth 256)).toNat = part 0x500 2592) ∧
    r.kemSeed = hash 3 [] ∧ r.aliasSeed regs = (hash 2 (all regs)).setWidth 256 ∧
    (let a := r.certify regs
     a.pub = Config.dsaPublic ((hash 2 (all regs)).setWidth 256) ∧ a.regs = regs ∧ a.ek = Config.kemPublic (hash 3 []) ∧
       a.sig = Config.dsaSign ((hash 1 []).setWidth 256) (bytesOf 2592 a.pub.toNat ++ all regs ++ a.ek))

/-- R425, R426: a sample takes the mean of the last ten powers; the alarm stands above the budget, on a limit or the cold
plate, and until the mean is at most 0.95 of it; while it does, each sample narrows one more quadrant, the one of highest
matrix current; with all narrowed for 1 ms the four quadrants of highest current take no new gang, and firmware is told; after 1 ms at most at 0.85 of the budget one quadrant at a time widens, the latest narrowed first; 10 ms above
1.10 of it raise the power-fault line. Clusters in no gang may be gated, from power after 1 ms. Conventions of the model: log
50, 68 (the report (0, 6) to firmware is its numbering).
Completes: powerSample, powerBudgetWrite, coldPlateAlarm, idleClockGate, idlePowerGate. -/
def Obligations.PowerArbiter : Prop :=
  ∀ s : State,
    (∀ ma mm, let q := s.power
      let ps := (samplePower s ma :: q.samples).take 10
      let p := ps.sum / max 1 ps.length
      let b := q.budget
      let alarm := b < p ∨ q.coldPlate = true ∨ (∃ l ∈ q.limits, l.2 < (ma[l.1]?).getD 0) ∨ (q.alarm = true ∧ 95 * b < 100 * p)
      ∃ t, exec (.powerSample ma mm) s = .next t ∧ t.mem = s.mem ∧ t.gangs = s.gangs ∧ t.power.samples = ps ∧ t.power.budget = b ∧
        (t.power.alarm = true ↔ alarm) ∧
        (alarm → 95 * b < 100 * p → (∃ x, x ∉ q.narrowed) → ∃ x, x ∉ q.narrowed ∧ t.power.narrowed = x :: q.narrowed ∧
          ∀ y, y ∉ q.narrowed → (mm[y.val]?).getD 0 ≤ (mm[x.val]?).getD 0) ∧
        (¬alarm → 100 * p ≤ 85 * b → ∀ c x r, q.calmAt = some c → c + 1800000 ≤ s.cycle → q.noPlace = [] → q.narrowed = x :: r →
          q.widenAt ≤ s.cycle → t.power.narrowed = r ∧ t.power.widenAt = s.cycle + 180000) ∧
        (alarm → (∀ x, x ∈ q.narrowed) → q.narrowed.length = 16 → ∀ c, q.alarmAt = some c → c + 1800000 ≤ s.cycle → q.noPlace = [] →
          t.power.noPlace.length = 4 ∧ t.reports = s.reports ++ [(0, 6)] ∧
          ∀ x ∈ t.power.noPlace, ∀ y, y ∉ t.power.noPlace → (ma[y.val]?).getD 0 ≤ (ma[x.val]?).getD 0) ∧
        (110 * b < 100 * p → ∀ c, q.overAt = some c → c + 18000000 ≤ s.cycle → t.power.faultLine = true)) ∧
    (∀ w, ∃ t, exec (.powerBudgetWrite w) s = .next t ∧ t = { s with power := { s.power with budget := t.power.budget } } ∧
      1000000 ≤ t.power.budget ∧ t.power.budget ≤ 3600000 ∧ (1000000 ≤ w → w ≤ 3600000 → t.power.budget = w)) ∧
    (∀ on, exec (.coldPlateAlarm on) s = .next { s with power := { s.power with coldPlate := on } }) ∧
    (∀ c, (s.core c).gang = none → LeavesCore (.idleClockGate c) s c { s.core c with clockGated := true }) ∧
    (∀ c, (s.core c).gang ≠ none → exec (.idleClockGate c) s = .next s ∧ exec (.idlePowerGate c) s = .next s) ∧
    (∀ c, (s.core c).gang = none → (s.core c).idleSince + 1800000 ≤ s.cycle →
      LeavesCore (.idlePowerGate c) s c { s.core c with powerGated := true }) ∧
    (∀ c, s.cycle < (s.core c).idleSince + 1800000 → exec (.idlePowerGate c) s = .next s)

/-- R427 to R429, R433, R438: at most one core leads; the leader renews, and another may take a vacant or lapsed lease with the
next term; a compare-and-swap acts on the whole record, whose term never falls; the lease of a die that left Run falls vacant. The leader prepares a
record that verifies with its image, commits it in one step, with the next term and the rollback counter, and each core then switches
to its standby image. Conventions of the model: log 28, 51, 61.
Completes: leaseRenew, leaseCheck, leaseCas, leaseVacate, firmwarePrepare, firmwareCommit, firmwareSwitch. -/
def Obligations.LeaseEvents : Prop :=
  ∀ (s : State) (f : Fin 5),
    let r := s.leaseNow
    let stands (e : Instr) (v : LeaseRecord) : Prop := exec e s = .next { s with lease := Vector.replicate 3 v }
    let renewed : LeaseRecord := { r with
      expiry := s.xtime + 10000000, ph := if r.ph = 2 ∧ s.commitAt.toNat + 10000000 ≤ s.xtime.toNat then 0 else r.ph }
    (∀ g, s.leads f = true → s.leads g = true → g = f) ∧
    (s.leads f = true → stands (.leaseRenew f) renewed) ∧
    (s.leads f = false → exec (.leaseRenew f) s = .next s) ∧
    (s.coreRuns f = true → s.leads f = false → (r.v = false ∨ r.expiry.toNat ≤ s.xtime.toNat) →
      stands (.leaseCheck f) { r with holder := BitVec.ofNat 3 f.val, v := true, term := r.term + 1, expiry := s.xtime + 10000000 }) ∧
    (s.coreRuns f = false ∨ s.leads f = true ∨ (r.v = true ∧ s.xtime.toNat < r.expiry.toNat) → exec (.leaseCheck f) s = .next s) ∧
    (∀ old new, (r = old → old.term ≤ new.term → stands (.leaseCas old new) new) ∧
      (r ≠ old ∨ new.term < old.term → exec (.leaseCas old new) s = .next s)) ∧
    (∀ d : Die, r.v = true → r.holder.toNat = d.val → s.dieRuns d = false → stands .leaseVacate { r with v := false }) ∧
    (r.v = false ∨ r.holder.toNat = 4 → exec .leaseVacate s = .next s) ∧
    (∀ ver (u : Update), let x := u.record
      (s.leads f = true → ∃ t, exec (.firmwarePrepare f ver u) s = .next t ∧
        if x.sigOk = true ∧ s.rollback.toNat ≤ x.security.toNat ∧ x.identityOk = true ∧ Sha3.digest u.image = x.imageHash then
          t.staged = some u ∧
          t.lease = Vector.replicate 3 { r with stg := ver, ph := 1 } ∧ (∀ g, (t.fwCores.get g).standby = some u.image) ∧
          { t with staged := s.staged, lease := s.lease, fwCores := s.fwCores } = s
        else t = s) ∧
      (s.leads f = false → exec (.firmwarePrepare f ver u) s = .next s)) ∧
    (∀ rec image, s.staged = some ⟨rec, image⟩ → (s.leads f = true → r.ph = 1 → ∃ t, exec (.firmwareCommit f) s = .next t ∧
        t.lease = Vector.replicate 3 { r with ver := r.stg, stg := 0, term := r.term + 1, ph := 2, expiry := s.xtime + 10000000 } ∧
        t.flash = rec ∧ t.flashImage = image ∧ t.flashVer = r.stg ∧ t.staged = none ∧
        t.measure.get 3 = Sha3.extend (s.measure.get 3) (Sha3.digest image) ∧
        t.measure.get 4 = Sha3.extend (s.measure.get 4) (Sha3.digest rec.bytes) ∧ (∀ g, (t.fwCores.get g).restarting = true) ∧
        t.rollback.toNat = max s.rollback.toNat rec.security.toNat ∧ t.mem = s.mem ∧ t.cores = s.cores) ∧
      (s.leads f = false ∨ r.ph ≠ 1 → exec (.firmwareCommit f) s = .next s)) ∧
    (s.staged = none → exec (.firmwareCommit f) s = .next s) ∧
    ((s.fwCores.get f).restarting = true → ∃ t, exec (.firmwareSwitch f) s = .next t ∧ t.fwCores.get f = FwCore.start ((s.fwCores.get f).standby.getD (s.fwCores.get f).image) ∧
      (∀ g, g ≠ f → t.fwCores.get g = s.fwCores.get g) ∧ { t with fwCores := s.fwCores, lease := s.lease } = s ∧
      (s.firmwareRuns = true → (f = 4 ∨ s.dieRuns (Fin.ofNat 4 f.val) = true) → r.v = true → r.holder.toNat = f.val →
        t.lease = Vector.replicate 3 renewed)) ∧
    ((s.fwCores.get f).restarting = false → exec (.firmwareSwitch f) s = .next s)

/-- R428, R434 to R437: under the term of the lease the leader assigns an empty key slot other than 0 to an active context, and retires it; its key is erased
once its context maps it no more and no access translated under it is still to perform; a new key is drawn for each assignment; registers 5 to 7 are extended by the leader, the others by their own steps; a quote holds
the lease record, the versions and all eight registers of one moment, with the nonce, and their signature. Conventions of the
model: log 28, 29, 31.
Completes: keyAssign, keyRetire, keyRetireComplete, measurementExtend, quoteRequest. -/
def Obligations.KeyAndQuoteEvents : Prop :=
  ∀ s : State,
    (∀ n x i, (s.heeds n = true → i ≠ 0 → s.keySlot i = none → (s.ctx x).state = .active →
        ∃ t, exec (.keyAssign x ⟨n, i⟩) s = .next t ∧ t.keySlot i = some (.assigned, x) ∧
          t.ctx x = { s.ctx x with keymap := (s.ctx x).keymap ||| (1 <<< i.val) } ∧ { t with
            keys := s.keys, ctxs := s.ctxs, keyBits := s.keyBits, fresh := s.fresh } = s ∧
          (∀ j, tabGet t.keyBits j 0 = if j = i.val then Config.entropy s.fresh else tabGet s.keyBits j 0) ∧
          (∀ j, j ≠ i → t.keySlot j = s.keySlot j) ∧ ∀ y, y ≠ x → t.ctx y = s.ctx y) ∧
      (s.heeds n = false ∨ i = 0 ∨ s.keySlot i ≠ none ∨ (s.ctx x).state ≠ .active → exec (.keyAssign x ⟨n, i⟩) s = .next s)) ∧
    (∀ n x i, s.keySlot i = some (.assigned, x) → (s.heeds n = true → i ≠ 0 →
        ∃ t, exec (.keyRetire ⟨n, i⟩) s = .next t ∧ t.keySlot i = some (.retired, x) ∧ t.keyRetired.getLsbD i.val = true ∧
          (t.ctx x).keymap.getLsbD i.val = false ∧ (∀ j, j ≠ i → t.keySlot j = s.keySlot j) ∧
          (∀ y, y ≠ x → t.ctx y = s.ctx y) ∧ { t with keys := s.keys, ctxs := s.ctxs, keyRetired := s.keyRetired } = s) ∧
      (s.heeds n = false ∨ i = 0 → exec (.keyRetire ⟨n, i⟩) s = .next s)) ∧
    (∀ x i, s.keySlot i = some (.retired, x) →
      ((s.ctx x).keymap.getLsbD i.val = false → s.keyInUse i = false → ∃ t, exec (.keyRetireComplete i) s = .next t ∧ t.keySlot i = none ∧
        t.keyRetired.getLsbD i.val = false ∧ (∀ j, j ≠ i → t.keySlot j = s.keySlot j) ∧
        (∀ k ∈ t.keyBits, k.1 ≠ i.val) ∧ { t with keys := s.keys, keyRetired := s.keyRetired, keyBits := s.keyBits } = s) ∧
      ((s.ctx x).keymap.getLsbD i.val = true ∨ s.keyInUse i = true → exec (.keyRetireComplete i) s = .next s) ∧
      (s.keyInUse i = true ↔ ∃ c k, ∃ p ∈ (s.strand c k).pend, p.key? = some (BitVec.ofNat 9 i.val))) ∧
    (∀ term (n : Fin 8) dg, exec (.measurementExtend ⟨term, n⟩ dg) s = .next (if s.heeds term = true ∧ 5 ≤ n.val then
      { s with measure := s.measure.set n.val (Sha3.extend (s.measure.get n) dg) } else s)) ∧
    (∀ nonce : BitVec 512, s.island = .forward ∨ s.island = .attached ∨ s.island = .drain → ∃ q, exec (.quoteRequest nonce) s =
        .next { s with quotes := s.quotes ++ [q] } ∧ q.words.length = 84 ∧ q.sig = Config.dsaSign s.aliasKey (q.words.flatMap fun w => bytesOf 8 w.toNat) ∧
      let r := s.leaseNow
      (q.words[1]?).map BitVec.toNat = some (r.term.toNat + 2 ^ 32 * r.holder.toNat) ∧
      q.words[6]? = some s.xtime ∧ q.words[7]? = some r.ver ∧ q.words[8]? = some r.stg ∧ q.words[9]? = some s.rollback ∧
      (∀ j : Fin 8, q.words[12 + j.val]? = some (BitVec.ofNat 64 (nonce.toNat / 2 ^ (64 * j.val)))) ∧
      ∀ (n : Fin 8) (j : Fin 8), q.words[20 + 8 * n.val + j.val]? = some (BitVec.ofNat 64 ((s.measure.get n).toNat / 2 ^ (64 * j.val))))
end

