-- ==== Sys2Proof/Laws/State.lean ====
section
/-! SUPPORT. What each update of a part of the state leaves: one lemma for each field of an update. -/

/-- An entry of a vector as an indexed read. -/
theorem Vector.get_as_getElem {α : Type} {n : Nat} (v : Vector α n) (i : Fin n) : v.get i = v[i.val] := rfl

/-- Reading a vector at the entry that was written. -/
theorem Vector.get_set_same {α : Type} {n : Nat} (v : Vector α n) (i : Fin n) (x : α) : (v.set i.val x).get i = x := by
  rw [Vector.get_as_getElem]; simp

/-- Reading a vector at another entry than the one written. -/
theorem Vector.get_set_other {α : Type} {n : Nat} (v : Vector α n) {i j : Fin n} (x : α) (h : j ≠ i) :
    (v.set i.val x).get j = v.get j := by
  rw [Vector.get_as_getElem, Vector.get_as_getElem, Vector.getElem_set_ne]
  exact fun e => h (Fin.ext e.symm)

/-- An entry of a vector to which a function was applied. -/
@[simp] theorem Vector.get_each {α β : Type} {n : Nat} (v : Vector α n) (f : α → β) (i : Fin n) :
    (v.each f).get i = f (v.get i) := by
  rw [Vector.get_as_getElem, Vector.get_as_getElem]
  simp [Vector.each, Vector.getElem_mk]

namespace Sys2Proof.Machine

/-! Reading back what was written. -/

@[simp] theorem State.core_setCore (s : State) (c : Cl) (x : Core) : (s.setCore c x).core c = x := by
  exact Vector.get_set_same ..

@[simp] theorem State.core_setCore_ne (s : State) {c d : Cl} (x : Core) (h : d ≠ c) : (s.setCore c x).core d = s.core d := by
  exact Vector.get_set_other _ _ h

@[simp] theorem State.core_modCore (s : State) (c : Cl) (f : Core → Core) : (s.modCore c f).core c = f (s.core c) := by
  simp [State.modCore]

@[simp] theorem State.core_modCore_ne (s : State) {c d : Cl} (f : Core → Core) (h : d ≠ c) :
    (s.modCore c f).core d = s.core d := by simp [State.modCore, h]

@[simp] theorem Core.strand_setStrand (x : Core) (k : Sn) (t : Strand) : (x.setStrand k t).strand k = t := by
  exact Vector.get_set_same ..

@[simp] theorem Core.strand_setStrand_ne (x : Core) {k j : Sn} (t : Strand) (h : j ≠ k) :
    (x.setStrand k t).strand j = x.strand j := by
  exact Vector.get_set_other _ _ h

@[simp] theorem Core.strand_modStrand (x : Core) (k : Sn) (f : Strand → Strand) :
    (x.modStrand k f).strand k = f (x.strand k) := by simp [Core.modStrand]

@[simp] theorem Core.strand_modStrand_ne (x : Core) {k j : Sn} (f : Strand → Strand) (h : j ≠ k) :
    (x.modStrand k f).strand j = x.strand j := by simp [Core.modStrand, h]

@[simp] theorem State.core_setStrand (s : State) (c : Cl) (k : Sn) (t : Strand) :
    (s.setStrand c k t).core c = (s.core c).setStrand k t := by simp [State.setStrand]

@[simp] theorem State.core_setStrand_ne (s : State) {c d : Cl} (k : Sn) (t : Strand) (h : d ≠ c) :
    (s.setStrand c k t).core d = s.core d := by simp [State.setStrand, h]

@[simp] theorem State.strand_setStrand (s : State) (c : Cl) (k : Sn) (t : Strand) : (s.setStrand c k t).strand c k = t := by
  simp [State.strand]

@[simp] theorem State.core_modStrand (s : State) (c : Cl) (k : Sn) (f : Strand → Strand) :
    (s.modStrand c k f).core c = (s.core c).modStrand k f := by
  simp [State.modStrand, Core.modStrand, State.strand]

@[simp] theorem State.core_modStrand_ne (s : State) {c d : Cl} (k : Sn) (f : Strand → Strand) (h : d ≠ c) :
    (s.modStrand c k f).core d = s.core d := by simp [State.modStrand, h]

@[simp] theorem State.strand_modStrand (s : State) (c : Cl) (k : Sn) (f : Strand → Strand) :
    (s.modStrand c k f).strand c k = f (s.strand c k) := by simp [State.strand]

@[simp] theorem State.core_modMyCore (s : State) (f : Core → Core) : (s.modMyCore f).core s.cur.c = f s.myCore := by
  simp [State.modMyCore, State.myCore]

@[simp] theorem State.core_modMe (s : State) (f : Strand → Strand) :
    (s.modMe f).core s.cur.c = (s.core s.cur.c).modStrand s.cur.k f := by simp [State.modMe]

@[simp] theorem Core.tile_setTile (x : Core) (t : Tl) (y : Tile) : (x.setTile t y).tile t = y := by
  exact Vector.get_set_same ..

@[simp] theorem Core.tile_setTile_ne (x : Core) {t u : Tl} (y : Tile) (h : u ≠ t) : (x.setTile t y).tile u = x.tile u := by
  exact Vector.get_set_other _ _ h

@[simp] theorem State.tile_setTile (s : State) (c : Cl) (t : Tl) (y : Tile) : (s.setTile c t y).tile c t = y := by
  simp [State.tile, State.setTile]

@[simp] theorem State.tile_modTile (s : State) (c : Cl) (t : Tl) (f : Tile → Tile) :
    (s.modTile c t f).tile c t = f (s.tile c t) := by simp [State.modTile]

/-! What an update of the cores leaves alone: each field of State. -/

@[simp] theorem State.setCore_cycle (s : State) (c : Cl) (x : Core) : (s.setCore c x).cycle = s.cycle := rfl
@[simp] theorem State.setCore_fresh (s : State) (c : Cl) (x : Core) : (s.setCore c x).fresh = s.fresh := rfl
@[simp] theorem State.setCore_agenda (s : State) (c : Cl) (x : Core) : (s.setCore c x).agenda = s.agenda := rfl
@[simp] theorem State.setCore_todo (s : State) (c : Cl) (x : Core) : (s.setCore c x).todo = s.todo := rfl
@[simp] theorem State.setCore_turn (s : State) (c : Cl) (x : Core) : (s.setCore c x).turn = s.turn := rfl
@[simp] theorem State.setCore_cur (s : State) (c : Cl) (x : Core) : (s.setCore c x).cur = s.cur := rfl
@[simp] theorem State.setCore_ticked (s : State) (c : Cl) (x : Core) : (s.setCore c x).ticked = s.ticked := rfl
@[simp] theorem State.setCore_mem (s : State) (c : Cl) (x : Core) : (s.setCore c x).mem = s.mem := rfl
@[simp] theorem State.setCore_poison (s : State) (c : Cl) (x : Core) : (s.setCore c x).poison = s.poison := rfl
@[simp] theorem State.setCore_gangs (s : State) (c : Cl) (x : Core) : (s.setCore c x).gangs = s.gangs := rfl
@[simp] theorem State.setCore_saved (s : State) (c : Cl) (x : Core) : (s.setCore c x).saved = s.saved := rfl
@[simp] theorem State.setCore_made (s : State) (c : Cl) (x : Core) : (s.setCore c x).made = s.made := rfl
@[simp] theorem State.setCore_ctxs (s : State) (c : Cl) (x : Core) : (s.setCore c x).ctxs = s.ctxs := rfl
@[simp] theorem State.setCore_faultq (s : State) (c : Cl) (x : Core) : (s.setCore c x).faultq = s.faultq := rfl
@[simp] theorem State.setCore_islandFaults (s : State) (c : Cl) (x : Core) : (s.setCore c x).islandFaults = s.islandFaults := rfl
@[simp] theorem State.setCore_launches (s : State) (c : Cl) (x : Core) : (s.setCore c x).launches = s.launches := rfl
@[simp] theorem State.setCore_queues (s : State) (c : Cl) (x : Core) : (s.setCore c x).queues = s.queues := rfl
@[simp] theorem State.setCore_copies (s : State) (c : Cl) (x : Core) : (s.setCore c x).copies = s.copies := rfl
@[simp] theorem State.setCore_dies (s : State) (c : Cl) (x : Core) : (s.setCore c x).dies = s.dies := rfl
@[simp] theorem State.setCore_xtick (s : State) (c : Cl) (x : Core) : (s.setCore c x).xtick = s.xtick := rfl
@[simp] theorem State.setCore_xtime (s : State) (c : Cl) (x : Core) : (s.setCore c x).xtime = s.xtime := rfl
@[simp] theorem State.setCore_time (s : State) (c : Cl) (x : Core) : (s.setCore c x).time = s.time := rfl
@[simp] theorem State.setCore_launched (s : State) (c : Cl) (x : Core) : (s.setCore c x).launched = s.launched := rfl
@[simp] theorem State.setCore_config (s : State) (c : Cl) (x : Core) : (s.setCore c x).config = s.config := rfl
@[simp] theorem State.setCore_flash (s : State) (c : Cl) (x : Core) : (s.setCore c x).flash = s.flash := rfl
@[simp] theorem State.setCore_flashImage (s : State) (c : Cl) (x : Core) : (s.setCore c x).flashImage = s.flashImage := rfl
@[simp] theorem State.setCore_flashVer (s : State) (c : Cl) (x : Core) : (s.setCore c x).flashVer = s.flashVer := rfl
@[simp] theorem State.setCore_island (s : State) (c : Cl) (x : Core) : (s.setCore c x).island = s.island := rfl
@[simp] theorem State.setCore_bootError (s : State) (c : Cl) (x : Core) : (s.setCore c x).bootError = s.bootError := rfl
@[simp] theorem State.setCore_drainUntil (s : State) (c : Cl) (x : Core) : (s.setCore c x).drainUntil = s.drainUntil := rfl
@[simp] theorem State.setCore_endpoint (s : State) (c : Cl) (x : Core) : (s.setCore c x).endpoint = s.endpoint := rfl
@[simp] theorem State.setCore_routes (s : State) (c : Cl) (x : Core) : (s.setCore c x).routes = s.routes := rfl
@[simp] theorem State.setCore_ports (s : State) (c : Cl) (x : Core) : (s.setCore c x).ports = s.ports := rfl
@[simp] theorem State.setCore_ctrs (s : State) (c : Cl) (x : Core) : (s.setCore c x).ctrs = s.ctrs := rfl
@[simp] theorem State.setCore_slots (s : State) (c : Cl) (x : Core) : (s.setCore c x).slots = s.slots := rfl
@[simp] theorem State.setCore_chains (s : State) (c : Cl) (x : Core) : (s.setCore c x).chains = s.chains := rfl
@[simp] theorem State.setCore_fabricOut (s : State) (c : Cl) (x : Core) : (s.setCore c x).fabricOut = s.fabricOut := rfl
@[simp] theorem State.setCore_peerWaits (s : State) (c : Cl) (x : Core) : (s.setCore c x).peerWaits = s.peerWaits := rfl
@[simp] theorem State.setCore_peerOut (s : State) (c : Cl) (x : Core) : (s.setCore c x).peerOut = s.peerOut := rfl
@[simp] theorem State.setCore_islandTlb (s : State) (c : Cl) (x : Core) : (s.setCore c x).islandTlb = s.islandTlb := rfl
@[simp] theorem State.setCore_slices (s : State) (c : Cl) (x : Core) : (s.setCore c x).slices = s.slices := rfl
@[simp] theorem State.setCore_hostWaits (s : State) (c : Cl) (x : Core) : (s.setCore c x).hostWaits = s.hostWaits := rfl
@[simp] theorem State.setCore_hostOut (s : State) (c : Cl) (x : Core) : (s.setCore c x).hostOut = s.hostOut := rfl
@[simp] theorem State.setCore_dropped (s : State) (c : Cl) (x : Core) : (s.setCore c x).dropped = s.dropped := rfl
@[simp] theorem State.setCore_bar0 (s : State) (c : Cl) (x : Core) : (s.setCore c x).bar0 = s.bar0 := rfl
@[simp] theorem State.setCore_transit (s : State) (c : Cl) (x : Core) : (s.setCore c x).transit = s.transit := rfl
@[simp] theorem State.setCore_msix (s : State) (c : Cl) (x : Core) : (s.setCore c x).msix = s.msix := rfl
@[simp] theorem State.setCore_purges (s : State) (c : Cl) (x : Core) : (s.setCore c x).purges = s.purges := rfl
@[simp] theorem State.setCore_master (s : State) (c : Cl) (x : Core) : (s.setCore c x).master = s.master := rfl
@[simp] theorem State.setCore_keys (s : State) (c : Cl) (x : Core) : (s.setCore c x).keys = s.keys := rfl
@[simp] theorem State.setCore_keyRetired (s : State) (c : Cl) (x : Core) : (s.setCore c x).keyRetired = s.keyRetired := rfl
@[simp] theorem State.setCore_keyBits (s : State) (c : Cl) (x : Core) : (s.setCore c x).keyBits = s.keyBits := rfl
@[simp] theorem State.setCore_pageKeys (s : State) (c : Cl) (x : Core) : (s.setCore c x).pageKeys = s.pageKeys := rfl
@[simp] theorem State.setCore_kem (s : State) (c : Cl) (x : Core) : (s.setCore c x).kem = s.kem := rfl
@[simp] theorem State.setCore_aliasKey (s : State) (c : Cl) (x : Core) : (s.setCore c x).aliasKey = s.aliasKey := rfl
@[simp] theorem State.setCore_aliasCert (s : State) (c : Cl) (x : Core) : (s.setCore c x).aliasCert = s.aliasCert := rfl
@[simp] theorem State.setCore_islandErrors (s : State) (c : Cl) (x : Core) : (s.setCore c x).islandErrors = s.islandErrors := rfl
@[simp] theorem State.setCore_lease (s : State) (c : Cl) (x : Core) : (s.setCore c x).lease = s.lease := rfl
@[simp] theorem State.setCore_fwCores (s : State) (c : Cl) (x : Core) : (s.setCore c x).fwCores = s.fwCores := rfl
@[simp] theorem State.setCore_measure (s : State) (c : Cl) (x : Core) : (s.setCore c x).measure = s.measure := rfl
@[simp] theorem State.setCore_rollback (s : State) (c : Cl) (x : Core) : (s.setCore c x).rollback = s.rollback := rfl
@[simp] theorem State.setCore_staged (s : State) (c : Cl) (x : Core) : (s.setCore c x).staged = s.staged := rfl
@[simp] theorem State.setCore_commitAt (s : State) (c : Cl) (x : Core) : (s.setCore c x).commitAt = s.commitAt := rfl
@[simp] theorem State.setCore_quotes (s : State) (c : Cl) (x : Core) : (s.setCore c x).quotes = s.quotes := rfl
@[simp] theorem State.setCore_power (s : State) (c : Cl) (x : Core) : (s.setCore c x).power = s.power := rfl
@[simp] theorem State.setCore_ckpt (s : State) (c : Cl) (x : Core) : (s.setCore c x).ckpt = s.ckpt := rfl
@[simp] theorem State.setCore_ckptGangs (s : State) (c : Cl) (x : Core) : (s.setCore c x).ckptGangs = s.ckptGangs := rfl
@[simp] theorem State.setCore_ckptBefore (s : State) (c : Cl) (x : Core) : (s.setCore c x).ckptBefore = s.ckptBefore := rfl
@[simp] theorem State.setCore_ckptTier (s : State) (c : Cl) (x : Core) : (s.setCore c x).ckptTier = s.ckptTier := rfl
@[simp] theorem State.setCore_ckptKey (s : State) (c : Cl) (x : Core) : (s.setCore c x).ckptKey = s.ckptKey := rfl
@[simp] theorem State.setCore_images (s : State) (c : Cl) (x : Core) : (s.setCore c x).images = s.images := rfl
@[simp] theorem State.setCore_reports (s : State) (c : Cl) (x : Core) : (s.setCore c x).reports = s.reports := rfl
@[simp] theorem State.setCore_lost (s : State) (c : Cl) (x : Core) : (s.setCore c x).lost = s.lost := rfl

@[simp] theorem State.modCore_cycle (s : State) (c : Cl) (f : Core → Core) : (s.modCore c f).cycle = s.cycle := rfl
@[simp] theorem State.modCore_fresh (s : State) (c : Cl) (f : Core → Core) : (s.modCore c f).fresh = s.fresh := rfl
@[simp] theorem State.modCore_agenda (s : State) (c : Cl) (f : Core → Core) : (s.modCore c f).agenda = s.agenda := rfl
@[simp] theorem State.modCore_todo (s : State) (c : Cl) (f : Core → Core) : (s.modCore c f).todo = s.todo := rfl
@[simp] theorem State.modCore_turn (s : State) (c : Cl) (f : Core → Core) : (s.modCore c f).turn = s.turn := rfl
@[simp] theorem State.modCore_cur (s : State) (c : Cl) (f : Core → Core) : (s.modCore c f).cur = s.cur := rfl
@[simp] theorem State.modCore_ticked (s : State) (c : Cl) (f : Core → Core) : (s.modCore c f).ticked = s.ticked := rfl
@[simp] theorem State.modCore_mem (s : State) (c : Cl) (f : Core → Core) : (s.modCore c f).mem = s.mem := rfl
@[simp] theorem State.modCore_poison (s : State) (c : Cl) (f : Core → Core) : (s.modCore c f).poison = s.poison := rfl
@[simp] theorem State.modCore_gangs (s : State) (c : Cl) (f : Core → Core) : (s.modCore c f).gangs = s.gangs := rfl
@[simp] theorem State.modCore_saved (s : State) (c : Cl) (f : Core → Core) : (s.modCore c f).saved = s.saved := rfl
@[simp] theorem State.modCore_made (s : State) (c : Cl) (f : Core → Core) : (s.modCore c f).made = s.made := rfl
@[simp] theorem State.modCore_ctxs (s : State) (c : Cl) (f : Core → Core) : (s.modCore c f).ctxs = s.ctxs := rfl
@[simp] theorem State.modCore_faultq (s : State) (c : Cl) (f : Core → Core) : (s.modCore c f).faultq = s.faultq := rfl
@[simp] theorem State.modCore_islandFaults (s : State) (c : Cl) (f : Core → Core) : (s.modCore c f).islandFaults = s.islandFaults := rfl
@[simp] theorem State.modCore_launches (s : State) (c : Cl) (f : Core → Core) : (s.modCore c f).launches = s.launches := rfl
@[simp] theorem State.modCore_queues (s : State) (c : Cl) (f : Core → Core) : (s.modCore c f).queues = s.queues := rfl
@[simp] theorem State.modCore_copies (s : State) (c : Cl) (f : Core → Core) : (s.modCore c f).copies = s.copies := rfl
@[simp] theorem State.modCore_dies (s : State) (c : Cl) (f : Core → Core) : (s.modCore c f).dies = s.dies := rfl
@[simp] theorem State.modCore_xtick (s : State) (c : Cl) (f : Core → Core) : (s.modCore c f).xtick = s.xtick := rfl
@[simp] theorem State.modCore_xtime (s : State) (c : Cl) (f : Core → Core) : (s.modCore c f).xtime = s.xtime := rfl
@[simp] theorem State.modCore_time (s : State) (c : Cl) (f : Core → Core) : (s.modCore c f).time = s.time := rfl
@[simp] theorem State.modCore_launched (s : State) (c : Cl) (f : Core → Core) : (s.modCore c f).launched = s.launched := rfl
@[simp] theorem State.modCore_config (s : State) (c : Cl) (f : Core → Core) : (s.modCore c f).config = s.config := rfl
@[simp] theorem State.modCore_flash (s : State) (c : Cl) (f : Core → Core) : (s.modCore c f).flash = s.flash := rfl
@[simp] theorem State.modCore_flashImage (s : State) (c : Cl) (f : Core → Core) : (s.modCore c f).flashImage = s.flashImage := rfl
@[simp] theorem State.modCore_flashVer (s : State) (c : Cl) (f : Core → Core) : (s.modCore c f).flashVer = s.flashVer := rfl
@[simp] theorem State.modCore_island (s : State) (c : Cl) (f : Core → Core) : (s.modCore c f).island = s.island := rfl
@[simp] theorem State.modCore_bootError (s : State) (c : Cl) (f : Core → Core) : (s.modCore c f).bootError = s.bootError := rfl
@[simp] theorem State.modCore_drainUntil (s : State) (c : Cl) (f : Core → Core) : (s.modCore c f).drainUntil = s.drainUntil := rfl
@[simp] theorem State.modCore_endpoint (s : State) (c : Cl) (f : Core → Core) : (s.modCore c f).endpoint = s.endpoint := rfl
@[simp] theorem State.modCore_routes (s : State) (c : Cl) (f : Core → Core) : (s.modCore c f).routes = s.routes := rfl
@[simp] theorem State.modCore_ports (s : State) (c : Cl) (f : Core → Core) : (s.modCore c f).ports = s.ports := rfl
@[simp] theorem State.modCore_ctrs (s : State) (c : Cl) (f : Core → Core) : (s.modCore c f).ctrs = s.ctrs := rfl
@[simp] theorem State.modCore_slots (s : State) (c : Cl) (f : Core → Core) : (s.modCore c f).slots = s.slots := rfl
@[simp] theorem State.modCore_chains (s : State) (c : Cl) (f : Core → Core) : (s.modCore c f).chains = s.chains := rfl
@[simp] theorem State.modCore_fabricOut (s : State) (c : Cl) (f : Core → Core) : (s.modCore c f).fabricOut = s.fabricOut := rfl
@[simp] theorem State.modCore_peerWaits (s : State) (c : Cl) (f : Core → Core) : (s.modCore c f).peerWaits = s.peerWaits := rfl
@[simp] theorem State.modCore_peerOut (s : State) (c : Cl) (f : Core → Core) : (s.modCore c f).peerOut = s.peerOut := rfl
@[simp] theorem State.modCore_islandTlb (s : State) (c : Cl) (f : Core → Core) : (s.modCore c f).islandTlb = s.islandTlb := rfl
@[simp] theorem State.modCore_slices (s : State) (c : Cl) (f : Core → Core) : (s.modCore c f).slices = s.slices := rfl
@[simp] theorem State.modCore_hostWaits (s : State) (c : Cl) (f : Core → Core) : (s.modCore c f).hostWaits = s.hostWaits := rfl
@[simp] theorem State.modCore_hostOut (s : State) (c : Cl) (f : Core → Core) : (s.modCore c f).hostOut = s.hostOut := rfl
@[simp] theorem State.modCore_dropped (s : State) (c : Cl) (f : Core → Core) : (s.modCore c f).dropped = s.dropped := rfl
@[simp] theorem State.modCore_bar0 (s : State) (c : Cl) (f : Core → Core) : (s.modCore c f).bar0 = s.bar0 := rfl
@[simp] theorem State.modCore_transit (s : State) (c : Cl) (f : Core → Core) : (s.modCore c f).transit = s.transit := rfl
@[simp] theorem State.modCore_msix (s : State) (c : Cl) (f : Core → Core) : (s.modCore c f).msix = s.msix := rfl
@[simp] theorem State.modCore_purges (s : State) (c : Cl) (f : Core → Core) : (s.modCore c f).purges = s.purges := rfl
@[simp] theorem State.modCore_master (s : State) (c : Cl) (f : Core → Core) : (s.modCore c f).master = s.master := rfl
@[simp] theorem State.modCore_keys (s : State) (c : Cl) (f : Core → Core) : (s.modCore c f).keys = s.keys := rfl
@[simp] theorem State.modCore_keyRetired (s : State) (c : Cl) (f : Core → Core) : (s.modCore c f).keyRetired = s.keyRetired := rfl
@[simp] theorem State.modCore_keyBits (s : State) (c : Cl) (f : Core → Core) : (s.modCore c f).keyBits = s.keyBits := rfl
@[simp] theorem State.modCore_pageKeys (s : State) (c : Cl) (f : Core → Core) : (s.modCore c f).pageKeys = s.pageKeys := rfl
@[simp] theorem State.modCore_kem (s : State) (c : Cl) (f : Core → Core) : (s.modCore c f).kem = s.kem := rfl
@[simp] theorem State.modCore_aliasKey (s : State) (c : Cl) (f : Core → Core) : (s.modCore c f).aliasKey = s.aliasKey := rfl
@[simp] theorem State.modCore_aliasCert (s : State) (c : Cl) (f : Core → Core) : (s.modCore c f).aliasCert = s.aliasCert := rfl
@[simp] theorem State.modCore_islandErrors (s : State) (c : Cl) (f : Core → Core) : (s.modCore c f).islandErrors = s.islandErrors := rfl
@[simp] theorem State.modCore_lease (s : State) (c : Cl) (f : Core → Core) : (s.modCore c f).lease = s.lease := rfl
@[simp] theorem State.modCore_fwCores (s : State) (c : Cl) (f : Core → Core) : (s.modCore c f).fwCores = s.fwCores := rfl
@[simp] theorem State.modCore_measure (s : State) (c : Cl) (f : Core → Core) : (s.modCore c f).measure = s.measure := rfl
@[simp] theorem State.modCore_rollback (s : State) (c : Cl) (f : Core → Core) : (s.modCore c f).rollback = s.rollback := rfl
@[simp] theorem State.modCore_staged (s : State) (c : Cl) (f : Core → Core) : (s.modCore c f).staged = s.staged := rfl
@[simp] theorem State.modCore_commitAt (s : State) (c : Cl) (f : Core → Core) : (s.modCore c f).commitAt = s.commitAt := rfl
@[simp] theorem State.modCore_quotes (s : State) (c : Cl) (f : Core → Core) : (s.modCore c f).quotes = s.quotes := rfl
@[simp] theorem State.modCore_power (s : State) (c : Cl) (f : Core → Core) : (s.modCore c f).power = s.power := rfl
@[simp] theorem State.modCore_ckpt (s : State) (c : Cl) (f : Core → Core) : (s.modCore c f).ckpt = s.ckpt := rfl
@[simp] theorem State.modCore_ckptGangs (s : State) (c : Cl) (f : Core → Core) : (s.modCore c f).ckptGangs = s.ckptGangs := rfl
@[simp] theorem State.modCore_ckptBefore (s : State) (c : Cl) (f : Core → Core) : (s.modCore c f).ckptBefore = s.ckptBefore := rfl
@[simp] theorem State.modCore_ckptTier (s : State) (c : Cl) (f : Core → Core) : (s.modCore c f).ckptTier = s.ckptTier := rfl
@[simp] theorem State.modCore_ckptKey (s : State) (c : Cl) (f : Core → Core) : (s.modCore c f).ckptKey = s.ckptKey := rfl
@[simp] theorem State.modCore_images (s : State) (c : Cl) (f : Core → Core) : (s.modCore c f).images = s.images := rfl
@[simp] theorem State.modCore_reports (s : State) (c : Cl) (f : Core → Core) : (s.modCore c f).reports = s.reports := rfl
@[simp] theorem State.modCore_lost (s : State) (c : Cl) (f : Core → Core) : (s.modCore c f).lost = s.lost := rfl

@[simp] theorem State.setStrand_cycle (s : State) (c : Cl) (k : Sn) (t : Strand) : (s.setStrand c k t).cycle = s.cycle := rfl
@[simp] theorem State.setStrand_fresh (s : State) (c : Cl) (k : Sn) (t : Strand) : (s.setStrand c k t).fresh = s.fresh := rfl
@[simp] theorem State.setStrand_agenda (s : State) (c : Cl) (k : Sn) (t : Strand) : (s.setStrand c k t).agenda = s.agenda := rfl
@[simp] theorem State.setStrand_todo (s : State) (c : Cl) (k : Sn) (t : Strand) : (s.setStrand c k t).todo = s.todo := rfl
@[simp] theorem State.setStrand_turn (s : State) (c : Cl) (k : Sn) (t : Strand) : (s.setStrand c k t).turn = s.turn := rfl
@[simp] theorem State.setStrand_cur (s : State) (c : Cl) (k : Sn) (t : Strand) : (s.setStrand c k t).cur = s.cur := rfl
@[simp] theorem State.setStrand_ticked (s : State) (c : Cl) (k : Sn) (t : Strand) : (s.setStrand c k t).ticked = s.ticked := rfl
@[simp] theorem State.setStrand_mem (s : State) (c : Cl) (k : Sn) (t : Strand) : (s.setStrand c k t).mem = s.mem := rfl
@[simp] theorem State.setStrand_poison (s : State) (c : Cl) (k : Sn) (t : Strand) : (s.setStrand c k t).poison = s.poison := rfl
@[simp] theorem State.setStrand_gangs (s : State) (c : Cl) (k : Sn) (t : Strand) : (s.setStrand c k t).gangs = s.gangs := rfl
@[simp] theorem State.setStrand_saved (s : State) (c : Cl) (k : Sn) (t : Strand) : (s.setStrand c k t).saved = s.saved := rfl
@[simp] theorem State.setStrand_made (s : State) (c : Cl) (k : Sn) (t : Strand) : (s.setStrand c k t).made = s.made := rfl
@[simp] theorem State.setStrand_ctxs (s : State) (c : Cl) (k : Sn) (t : Strand) : (s.setStrand c k t).ctxs = s.ctxs := rfl
@[simp] theorem State.setStrand_faultq (s : State) (c : Cl) (k : Sn) (t : Strand) : (s.setStrand c k t).faultq = s.faultq := rfl
@[simp] theorem State.setStrand_islandFaults (s : State) (c : Cl) (k : Sn) (t : Strand) : (s.setStrand c k t).islandFaults = s.islandFaults := rfl
@[simp] theorem State.setStrand_launches (s : State) (c : Cl) (k : Sn) (t : Strand) : (s.setStrand c k t).launches = s.launches := rfl
@[simp] theorem State.setStrand_queues (s : State) (c : Cl) (k : Sn) (t : Strand) : (s.setStrand c k t).queues = s.queues := rfl
@[simp] theorem State.setStrand_copies (s : State) (c : Cl) (k : Sn) (t : Strand) : (s.setStrand c k t).copies = s.copies := rfl
@[simp] theorem State.setStrand_dies (s : State) (c : Cl) (k : Sn) (t : Strand) : (s.setStrand c k t).dies = s.dies := rfl
@[simp] theorem State.setStrand_xtick (s : State) (c : Cl) (k : Sn) (t : Strand) : (s.setStrand c k t).xtick = s.xtick := rfl
@[simp] theorem State.setStrand_xtime (s : State) (c : Cl) (k : Sn) (t : Strand) : (s.setStrand c k t).xtime = s.xtime := rfl
@[simp] theorem State.setStrand_time (s : State) (c : Cl) (k : Sn) (t : Strand) : (s.setStrand c k t).time = s.time := rfl
@[simp] theorem State.setStrand_launched (s : State) (c : Cl) (k : Sn) (t : Strand) : (s.setStrand c k t).launched = s.launched := rfl
@[simp] theorem State.setStrand_config (s : State) (c : Cl) (k : Sn) (t : Strand) : (s.setStrand c k t).config = s.config := rfl
@[simp] theorem State.setStrand_flash (s : State) (c : Cl) (k : Sn) (t : Strand) : (s.setStrand c k t).flash = s.flash := rfl
@[simp] theorem State.setStrand_flashImage (s : State) (c : Cl) (k : Sn) (t : Strand) : (s.setStrand c k t).flashImage = s.flashImage := rfl
@[simp] theorem State.setStrand_flashVer (s : State) (c : Cl) (k : Sn) (t : Strand) : (s.setStrand c k t).flashVer = s.flashVer := rfl
@[simp] theorem State.setStrand_island (s : State) (c : Cl) (k : Sn) (t : Strand) : (s.setStrand c k t).island = s.island := rfl
@[simp] theorem State.setStrand_bootError (s : State) (c : Cl) (k : Sn) (t : Strand) : (s.setStrand c k t).bootError = s.bootError := rfl
@[simp] theorem State.setStrand_drainUntil (s : State) (c : Cl) (k : Sn) (t : Strand) : (s.setStrand c k t).drainUntil = s.drainUntil := rfl
@[simp] theorem State.setStrand_endpoint (s : State) (c : Cl) (k : Sn) (t : Strand) : (s.setStrand c k t).endpoint = s.endpoint := rfl
@[simp] theorem State.setStrand_routes (s : State) (c : Cl) (k : Sn) (t : Strand) : (s.setStrand c k t).routes = s.routes := rfl
@[simp] theorem State.setStrand_ports (s : State) (c : Cl) (k : Sn) (t : Strand) : (s.setStrand c k t).ports = s.ports := rfl
@[simp] theorem State.setStrand_ctrs (s : State) (c : Cl) (k : Sn) (t : Strand) : (s.setStrand c k t).ctrs = s.ctrs := rfl
@[simp] theorem State.setStrand_slots (s : State) (c : Cl) (k : Sn) (t : Strand) : (s.setStrand c k t).slots = s.slots := rfl
@[simp] theorem State.setStrand_chains (s : State) (c : Cl) (k : Sn) (t : Strand) : (s.setStrand c k t).chains = s.chains := rfl
@[simp] theorem State.setStrand_fabricOut (s : State) (c : Cl) (k : Sn) (t : Strand) : (s.setStrand c k t).fabricOut = s.fabricOut := rfl
@[simp] theorem State.setStrand_peerWaits (s : State) (c : Cl) (k : Sn) (t : Strand) : (s.setStrand c k t).peerWaits = s.peerWaits := rfl
@[simp] theorem State.setStrand_peerOut (s : State) (c : Cl) (k : Sn) (t : Strand) : (s.setStrand c k t).peerOut = s.peerOut := rfl
@[simp] theorem State.setStrand_islandTlb (s : State) (c : Cl) (k : Sn) (t : Strand) : (s.setStrand c k t).islandTlb = s.islandTlb := rfl
@[simp] theorem State.setStrand_slices (s : State) (c : Cl) (k : Sn) (t : Strand) : (s.setStrand c k t).slices = s.slices := rfl
@[simp] theorem State.setStrand_hostWaits (s : State) (c : Cl) (k : Sn) (t : Strand) : (s.setStrand c k t).hostWaits = s.hostWaits := rfl
@[simp] theorem State.setStrand_hostOut (s : State) (c : Cl) (k : Sn) (t : Strand) : (s.setStrand c k t).hostOut = s.hostOut := rfl
@[simp] theorem State.setStrand_dropped (s : State) (c : Cl) (k : Sn) (t : Strand) : (s.setStrand c k t).dropped = s.dropped := rfl
@[simp] theorem State.setStrand_bar0 (s : State) (c : Cl) (k : Sn) (t : Strand) : (s.setStrand c k t).bar0 = s.bar0 := rfl
@[simp] theorem State.setStrand_transit (s : State) (c : Cl) (k : Sn) (t : Strand) : (s.setStrand c k t).transit = s.transit := rfl
@[simp] theorem State.setStrand_msix (s : State) (c : Cl) (k : Sn) (t : Strand) : (s.setStrand c k t).msix = s.msix := rfl
@[simp] theorem State.setStrand_purges (s : State) (c : Cl) (k : Sn) (t : Strand) : (s.setStrand c k t).purges = s.purges := rfl
@[simp] theorem State.setStrand_master (s : State) (c : Cl) (k : Sn) (t : Strand) : (s.setStrand c k t).master = s.master := rfl
@[simp] theorem State.setStrand_keys (s : State) (c : Cl) (k : Sn) (t : Strand) : (s.setStrand c k t).keys = s.keys := rfl
@[simp] theorem State.setStrand_keyRetired (s : State) (c : Cl) (k : Sn) (t : Strand) : (s.setStrand c k t).keyRetired = s.keyRetired := rfl
@[simp] theorem State.setStrand_keyBits (s : State) (c : Cl) (k : Sn) (t : Strand) : (s.setStrand c k t).keyBits = s.keyBits := rfl
@[simp] theorem State.setStrand_pageKeys (s : State) (c : Cl) (k : Sn) (t : Strand) : (s.setStrand c k t).pageKeys = s.pageKeys := rfl
@[simp] theorem State.setStrand_kem (s : State) (c : Cl) (k : Sn) (t : Strand) : (s.setStrand c k t).kem = s.kem := rfl
@[simp] theorem State.setStrand_aliasKey (s : State) (c : Cl) (k : Sn) (t : Strand) : (s.setStrand c k t).aliasKey = s.aliasKey := rfl
@[simp] theorem State.setStrand_aliasCert (s : State) (c : Cl) (k : Sn) (t : Strand) : (s.setStrand c k t).aliasCert = s.aliasCert := rfl
@[simp] theorem State.setStrand_islandErrors (s : State) (c : Cl) (k : Sn) (t : Strand) : (s.setStrand c k t).islandErrors = s.islandErrors := rfl
@[simp] theorem State.setStrand_lease (s : State) (c : Cl) (k : Sn) (t : Strand) : (s.setStrand c k t).lease = s.lease := rfl
@[simp] theorem State.setStrand_fwCores (s : State) (c : Cl) (k : Sn) (t : Strand) : (s.setStrand c k t).fwCores = s.fwCores := rfl
@[simp] theorem State.setStrand_measure (s : State) (c : Cl) (k : Sn) (t : Strand) : (s.setStrand c k t).measure = s.measure := rfl
@[simp] theorem State.setStrand_rollback (s : State) (c : Cl) (k : Sn) (t : Strand) : (s.setStrand c k t).rollback = s.rollback := rfl
@[simp] theorem State.setStrand_staged (s : State) (c : Cl) (k : Sn) (t : Strand) : (s.setStrand c k t).staged = s.staged := rfl
@[simp] theorem State.setStrand_commitAt (s : State) (c : Cl) (k : Sn) (t : Strand) : (s.setStrand c k t).commitAt = s.commitAt := rfl
@[simp] theorem State.setStrand_quotes (s : State) (c : Cl) (k : Sn) (t : Strand) : (s.setStrand c k t).quotes = s.quotes := rfl
@[simp] theorem State.setStrand_power (s : State) (c : Cl) (k : Sn) (t : Strand) : (s.setStrand c k t).power = s.power := rfl
@[simp] theorem State.setStrand_ckpt (s : State) (c : Cl) (k : Sn) (t : Strand) : (s.setStrand c k t).ckpt = s.ckpt := rfl
@[simp] theorem State.setStrand_ckptGangs (s : State) (c : Cl) (k : Sn) (t : Strand) : (s.setStrand c k t).ckptGangs = s.ckptGangs := rfl
@[simp] theorem State.setStrand_ckptBefore (s : State) (c : Cl) (k : Sn) (t : Strand) : (s.setStrand c k t).ckptBefore = s.ckptBefore := rfl
@[simp] theorem State.setStrand_ckptTier (s : State) (c : Cl) (k : Sn) (t : Strand) : (s.setStrand c k t).ckptTier = s.ckptTier := rfl
@[simp] theorem State.setStrand_ckptKey (s : State) (c : Cl) (k : Sn) (t : Strand) : (s.setStrand c k t).ckptKey = s.ckptKey := rfl
@[simp] theorem State.setStrand_images (s : State) (c : Cl) (k : Sn) (t : Strand) : (s.setStrand c k t).images = s.images := rfl
@[simp] theorem State.setStrand_reports (s : State) (c : Cl) (k : Sn) (t : Strand) : (s.setStrand c k t).reports = s.reports := rfl
@[simp] theorem State.setStrand_lost (s : State) (c : Cl) (k : Sn) (t : Strand) : (s.setStrand c k t).lost = s.lost := rfl

@[simp] theorem State.modStrand_cycle (s : State) (c : Cl) (k : Sn) (f : Strand → Strand) : (s.modStrand c k f).cycle = s.cycle := rfl
@[simp] theorem State.modStrand_fresh (s : State) (c : Cl) (k : Sn) (f : Strand → Strand) : (s.modStrand c k f).fresh = s.fresh := rfl
@[simp] theorem State.modStrand_agenda (s : State) (c : Cl) (k : Sn) (f : Strand → Strand) : (s.modStrand c k f).agenda = s.agenda := rfl
@[simp] theorem State.modStrand_todo (s : State) (c : Cl) (k : Sn) (f : Strand → Strand) : (s.modStrand c k f).todo = s.todo := rfl
@[simp] theorem State.modStrand_turn (s : State) (c : Cl) (k : Sn) (f : Strand → Strand) : (s.modStrand c k f).turn = s.turn := rfl
@[simp] theorem State.modStrand_cur (s : State) (c : Cl) (k : Sn) (f : Strand → Strand) : (s.modStrand c k f).cur = s.cur := rfl
@[simp] theorem State.modStrand_ticked (s : State) (c : Cl) (k : Sn) (f : Strand → Strand) : (s.modStrand c k f).ticked = s.ticked := rfl
@[simp] theorem State.modStrand_mem (s : State) (c : Cl) (k : Sn) (f : Strand → Strand) : (s.modStrand c k f).mem = s.mem := rfl
@[simp] theorem State.modStrand_poison (s : State) (c : Cl) (k : Sn) (f : Strand → Strand) : (s.modStrand c k f).poison = s.poison := rfl
@[simp] theorem State.modStrand_gangs (s : State) (c : Cl) (k : Sn) (f : Strand → Strand) : (s.modStrand c k f).gangs = s.gangs := rfl
@[simp] theorem State.modStrand_saved (s : State) (c : Cl) (k : Sn) (f : Strand → Strand) : (s.modStrand c k f).saved = s.saved := rfl
@[simp] theorem State.modStrand_made (s : State) (c : Cl) (k : Sn) (f : Strand → Strand) : (s.modStrand c k f).made = s.made := rfl
@[simp] theorem State.modStrand_ctxs (s : State) (c : Cl) (k : Sn) (f : Strand → Strand) : (s.modStrand c k f).ctxs = s.ctxs := rfl
@[simp] theorem State.modStrand_faultq (s : State) (c : Cl) (k : Sn) (f : Strand → Strand) : (s.modStrand c k f).faultq = s.faultq := rfl
@[simp] theorem State.modStrand_islandFaults (s : State) (c : Cl) (k : Sn) (f : Strand → Strand) : (s.modStrand c k f).islandFaults = s.islandFaults := rfl
@[simp] theorem State.modStrand_launches (s : State) (c : Cl) (k : Sn) (f : Strand → Strand) : (s.modStrand c k f).launches = s.launches := rfl
@[simp] theorem State.modStrand_queues (s : State) (c : Cl) (k : Sn) (f : Strand → Strand) : (s.modStrand c k f).queues = s.queues := rfl
@[simp] theorem State.modStrand_copies (s : State) (c : Cl) (k : Sn) (f : Strand → Strand) : (s.modStrand c k f).copies = s.copies := rfl
@[simp] theorem State.modStrand_dies (s : State) (c : Cl) (k : Sn) (f : Strand → Strand) : (s.modStrand c k f).dies = s.dies := rfl
@[simp] theorem State.modStrand_xtick (s : State) (c : Cl) (k : Sn) (f : Strand → Strand) : (s.modStrand c k f).xtick = s.xtick := rfl
@[simp] theorem State.modStrand_xtime (s : State) (c : Cl) (k : Sn) (f : Strand → Strand) : (s.modStrand c k f).xtime = s.xtime := rfl
@[simp] theorem State.modStrand_time (s : State) (c : Cl) (k : Sn) (f : Strand → Strand) : (s.modStrand c k f).time = s.time := rfl
@[simp] theorem State.modStrand_launched (s : State) (c : Cl) (k : Sn) (f : Strand → Strand) : (s.modStrand c k f).launched = s.launched := rfl
@[simp] theorem State.modStrand_config (s : State) (c : Cl) (k : Sn) (f : Strand → Strand) : (s.modStrand c k f).config = s.config := rfl
@[simp] theorem State.modStrand_flash (s : State) (c : Cl) (k : Sn) (f : Strand → Strand) : (s.modStrand c k f).flash = s.flash := rfl
@[simp] theorem State.modStrand_flashImage (s : State) (c : Cl) (k : Sn) (f : Strand → Strand) : (s.modStrand c k f).flashImage = s.flashImage := rfl
@[simp] theorem State.modStrand_flashVer (s : State) (c : Cl) (k : Sn) (f : Strand → Strand) : (s.modStrand c k f).flashVer = s.flashVer := rfl
@[simp] theorem State.modStrand_island (s : State) (c : Cl) (k : Sn) (f : Strand → Strand) : (s.modStrand c k f).island = s.island := rfl
@[simp] theorem State.modStrand_bootError (s : State) (c : Cl) (k : Sn) (f : Strand → Strand) : (s.modStrand c k f).bootError = s.bootError := rfl
@[simp] theorem State.modStrand_drainUntil (s : State) (c : Cl) (k : Sn) (f : Strand → Strand) : (s.modStrand c k f).drainUntil = s.drainUntil := rfl
@[simp] theorem State.modStrand_endpoint (s : State) (c : Cl) (k : Sn) (f : Strand → Strand) : (s.modStrand c k f).endpoint = s.endpoint := rfl
@[simp] theorem State.modStrand_routes (s : State) (c : Cl) (k : Sn) (f : Strand → Strand) : (s.modStrand c k f).routes = s.routes := rfl
@[simp] theorem State.modStrand_ports (s : State) (c : Cl) (k : Sn) (f : Strand → Strand) : (s.modStrand c k f).ports = s.ports := rfl
@[simp] theorem State.modStrand_ctrs (s : State) (c : Cl) (k : Sn) (f : Strand → Strand) : (s.modStrand c k f).ctrs = s.ctrs := rfl
@[simp] theorem State.modStrand_slots (s : State) (c : Cl) (k : Sn) (f : Strand → Strand) : (s.modStrand c k f).slots = s.slots := rfl
@[simp] theorem State.modStrand_chains (s : State) (c : Cl) (k : Sn) (f : Strand → Strand) : (s.modStrand c k f).chains = s.chains := rfl
@[simp] theorem State.modStrand_fabricOut (s : State) (c : Cl) (k : Sn) (f : Strand → Strand) : (s.modStrand c k f).fabricOut = s.fabricOut := rfl
@[simp] theorem State.modStrand_peerWaits (s : State) (c : Cl) (k : Sn) (f : Strand → Strand) : (s.modStrand c k f).peerWaits = s.peerWaits := rfl
@[simp] theorem State.modStrand_peerOut (s : State) (c : Cl) (k : Sn) (f : Strand → Strand) : (s.modStrand c k f).peerOut = s.peerOut := rfl
@[simp] theorem State.modStrand_islandTlb (s : State) (c : Cl) (k : Sn) (f : Strand → Strand) : (s.modStrand c k f).islandTlb = s.islandTlb := rfl
@[simp] theorem State.modStrand_slices (s : State) (c : Cl) (k : Sn) (f : Strand → Strand) : (s.modStrand c k f).slices = s.slices := rfl
@[simp] theorem State.modStrand_hostWaits (s : State) (c : Cl) (k : Sn) (f : Strand → Strand) : (s.modStrand c k f).hostWaits = s.hostWaits := rfl
@[simp] theorem State.modStrand_hostOut (s : State) (c : Cl) (k : Sn) (f : Strand → Strand) : (s.modStrand c k f).hostOut = s.hostOut := rfl
@[simp] theorem State.modStrand_dropped (s : State) (c : Cl) (k : Sn) (f : Strand → Strand) : (s.modStrand c k f).dropped = s.dropped := rfl
@[simp] theorem State.modStrand_bar0 (s : State) (c : Cl) (k : Sn) (f : Strand → Strand) : (s.modStrand c k f).bar0 = s.bar0 := rfl
@[simp] theorem State.modStrand_transit (s : State) (c : Cl) (k : Sn) (f : Strand → Strand) : (s.modStrand c k f).transit = s.transit := rfl
@[simp] theorem State.modStrand_msix (s : State) (c : Cl) (k : Sn) (f : Strand → Strand) : (s.modStrand c k f).msix = s.msix := rfl
@[simp] theorem State.modStrand_purges (s : State) (c : Cl) (k : Sn) (f : Strand → Strand) : (s.modStrand c k f).purges = s.purges := rfl
@[simp] theorem State.modStrand_master (s : State) (c : Cl) (k : Sn) (f : Strand → Strand) : (s.modStrand c k f).master = s.master := rfl
@[simp] theorem State.modStrand_keys (s : State) (c : Cl) (k : Sn) (f : Strand → Strand) : (s.modStrand c k f).keys = s.keys := rfl
@[simp] theorem State.modStrand_keyRetired (s : State) (c : Cl) (k : Sn) (f : Strand → Strand) : (s.modStrand c k f).keyRetired = s.keyRetired := rfl
@[simp] theorem State.modStrand_keyBits (s : State) (c : Cl) (k : Sn) (f : Strand → Strand) : (s.modStrand c k f).keyBits = s.keyBits := rfl
@[simp] theorem State.modStrand_pageKeys (s : State) (c : Cl) (k : Sn) (f : Strand → Strand) : (s.modStrand c k f).pageKeys = s.pageKeys := rfl
@[simp] theorem State.modStrand_kem (s : State) (c : Cl) (k : Sn) (f : Strand → Strand) : (s.modStrand c k f).kem = s.kem := rfl
@[simp] theorem State.modStrand_aliasKey (s : State) (c : Cl) (k : Sn) (f : Strand → Strand) : (s.modStrand c k f).aliasKey = s.aliasKey := rfl
@[simp] theorem State.modStrand_aliasCert (s : State) (c : Cl) (k : Sn) (f : Strand → Strand) : (s.modStrand c k f).aliasCert = s.aliasCert := rfl
@[simp] theorem State.modStrand_islandErrors (s : State) (c : Cl) (k : Sn) (f : Strand → Strand) : (s.modStrand c k f).islandErrors = s.islandErrors := rfl
@[simp] theorem State.modStrand_lease (s : State) (c : Cl) (k : Sn) (f : Strand → Strand) : (s.modStrand c k f).lease = s.lease := rfl
@[simp] theorem State.modStrand_fwCores (s : State) (c : Cl) (k : Sn) (f : Strand → Strand) : (s.modStrand c k f).fwCores = s.fwCores := rfl
@[simp] theorem State.modStrand_measure (s : State) (c : Cl) (k : Sn) (f : Strand → Strand) : (s.modStrand c k f).measure = s.measure := rfl
@[simp] theorem State.modStrand_rollback (s : State) (c : Cl) (k : Sn) (f : Strand → Strand) : (s.modStrand c k f).rollback = s.rollback := rfl
@[simp] theorem State.modStrand_staged (s : State) (c : Cl) (k : Sn) (f : Strand → Strand) : (s.modStrand c k f).staged = s.staged := rfl
@[simp] theorem State.modStrand_commitAt (s : State) (c : Cl) (k : Sn) (f : Strand → Strand) : (s.modStrand c k f).commitAt = s.commitAt := rfl
@[simp] theorem State.modStrand_quotes (s : State) (c : Cl) (k : Sn) (f : Strand → Strand) : (s.modStrand c k f).quotes = s.quotes := rfl
@[simp] theorem State.modStrand_power (s : State) (c : Cl) (k : Sn) (f : Strand → Strand) : (s.modStrand c k f).power = s.power := rfl
@[simp] theorem State.modStrand_ckpt (s : State) (c : Cl) (k : Sn) (f : Strand → Strand) : (s.modStrand c k f).ckpt = s.ckpt := rfl
@[simp] theorem State.modStrand_ckptGangs (s : State) (c : Cl) (k : Sn) (f : Strand → Strand) : (s.modStrand c k f).ckptGangs = s.ckptGangs := rfl
@[simp] theorem State.modStrand_ckptBefore (s : State) (c : Cl) (k : Sn) (f : Strand → Strand) : (s.modStrand c k f).ckptBefore = s.ckptBefore := rfl
@[simp] theorem State.modStrand_ckptTier (s : State) (c : Cl) (k : Sn) (f : Strand → Strand) : (s.modStrand c k f).ckptTier = s.ckptTier := rfl
@[simp] theorem State.modStrand_ckptKey (s : State) (c : Cl) (k : Sn) (f : Strand → Strand) : (s.modStrand c k f).ckptKey = s.ckptKey := rfl
@[simp] theorem State.modStrand_images (s : State) (c : Cl) (k : Sn) (f : Strand → Strand) : (s.modStrand c k f).images = s.images := rfl
@[simp] theorem State.modStrand_reports (s : State) (c : Cl) (k : Sn) (f : Strand → Strand) : (s.modStrand c k f).reports = s.reports := rfl
@[simp] theorem State.modStrand_lost (s : State) (c : Cl) (k : Sn) (f : Strand → Strand) : (s.modStrand c k f).lost = s.lost := rfl

@[simp] theorem State.modMe_cycle (s : State) (f : Strand → Strand) : (s.modMe f).cycle = s.cycle := rfl
@[simp] theorem State.modMe_fresh (s : State) (f : Strand → Strand) : (s.modMe f).fresh = s.fresh := rfl
@[simp] theorem State.modMe_agenda (s : State) (f : Strand → Strand) : (s.modMe f).agenda = s.agenda := rfl
@[simp] theorem State.modMe_todo (s : State) (f : Strand → Strand) : (s.modMe f).todo = s.todo := rfl
@[simp] theorem State.modMe_turn (s : State) (f : Strand → Strand) : (s.modMe f).turn = s.turn := rfl
@[simp] theorem State.modMe_cur (s : State) (f : Strand → Strand) : (s.modMe f).cur = s.cur := rfl
@[simp] theorem State.modMe_ticked (s : State) (f : Strand → Strand) : (s.modMe f).ticked = s.ticked := rfl
@[simp] theorem State.modMe_mem (s : State) (f : Strand → Strand) : (s.modMe f).mem = s.mem := rfl
@[simp] theorem State.modMe_poison (s : State) (f : Strand → Strand) : (s.modMe f).poison = s.poison := rfl
@[simp] theorem State.modMe_gangs (s : State) (f : Strand → Strand) : (s.modMe f).gangs = s.gangs := rfl
@[simp] theorem State.modMe_saved (s : State) (f : Strand → Strand) : (s.modMe f).saved = s.saved := rfl
@[simp] theorem State.modMe_made (s : State) (f : Strand → Strand) : (s.modMe f).made = s.made := rfl
@[simp] theorem State.modMe_ctxs (s : State) (f : Strand → Strand) : (s.modMe f).ctxs = s.ctxs := rfl
@[simp] theorem State.modMe_faultq (s : State) (f : Strand → Strand) : (s.modMe f).faultq = s.faultq := rfl
@[simp] theorem State.modMe_islandFaults (s : State) (f : Strand → Strand) : (s.modMe f).islandFaults = s.islandFaults := rfl
@[simp] theorem State.modMe_launches (s : State) (f : Strand → Strand) : (s.modMe f).launches = s.launches := rfl
@[simp] theorem State.modMe_queues (s : State) (f : Strand → Strand) : (s.modMe f).queues = s.queues := rfl
@[simp] theorem State.modMe_copies (s : State) (f : Strand → Strand) : (s.modMe f).copies = s.copies := rfl
@[simp] theorem State.modMe_dies (s : State) (f : Strand → Strand) : (s.modMe f).dies = s.dies := rfl
@[simp] theorem State.modMe_xtick (s : State) (f : Strand → Strand) : (s.modMe f).xtick = s.xtick := rfl
@[simp] theorem State.modMe_xtime (s : State) (f : Strand → Strand) : (s.modMe f).xtime = s.xtime := rfl
@[simp] theorem State.modMe_time (s : State) (f : Strand → Strand) : (s.modMe f).time = s.time := rfl
@[simp] theorem State.modMe_launched (s : State) (f : Strand → Strand) : (s.modMe f).launched = s.launched := rfl
@[simp] theorem State.modMe_config (s : State) (f : Strand → Strand) : (s.modMe f).config = s.config := rfl
@[simp] theorem State.modMe_flash (s : State) (f : Strand → Strand) : (s.modMe f).flash = s.flash := rfl
@[simp] theorem State.modMe_flashImage (s : State) (f : Strand → Strand) : (s.modMe f).flashImage = s.flashImage := rfl
@[simp] theorem State.modMe_flashVer (s : State) (f : Strand → Strand) : (s.modMe f).flashVer = s.flashVer := rfl
@[simp] theorem State.modMe_island (s : State) (f : Strand → Strand) : (s.modMe f).island = s.island := rfl
@[simp] theorem State.modMe_bootError (s : State) (f : Strand → Strand) : (s.modMe f).bootError = s.bootError := rfl
@[simp] theorem State.modMe_drainUntil (s : State) (f : Strand → Strand) : (s.modMe f).drainUntil = s.drainUntil := rfl
@[simp] theorem State.modMe_endpoint (s : State) (f : Strand → Strand) : (s.modMe f).endpoint = s.endpoint := rfl
@[simp] theorem State.modMe_routes (s : State) (f : Strand → Strand) : (s.modMe f).routes = s.routes := rfl
@[simp] theorem State.modMe_ports (s : State) (f : Strand → Strand) : (s.modMe f).ports = s.ports := rfl
@[simp] theorem State.modMe_ctrs (s : State) (f : Strand → Strand) : (s.modMe f).ctrs = s.ctrs := rfl
@[simp] theorem State.modMe_slots (s : State) (f : Strand → Strand) : (s.modMe f).slots = s.slots := rfl
@[simp] theorem State.modMe_chains (s : State) (f : Strand → Strand) : (s.modMe f).chains = s.chains := rfl
@[simp] theorem State.modMe_fabricOut (s : State) (f : Strand → Strand) : (s.modMe f).fabricOut = s.fabricOut := rfl
@[simp] theorem State.modMe_peerWaits (s : State) (f : Strand → Strand) : (s.modMe f).peerWaits = s.peerWaits := rfl
@[simp] theorem State.modMe_peerOut (s : State) (f : Strand → Strand) : (s.modMe f).peerOut = s.peerOut := rfl
@[simp] theorem State.modMe_islandTlb (s : State) (f : Strand → Strand) : (s.modMe f).islandTlb = s.islandTlb := rfl
@[simp] theorem State.modMe_slices (s : State) (f : Strand → Strand) : (s.modMe f).slices = s.slices := rfl
@[simp] theorem State.modMe_hostWaits (s : State) (f : Strand → Strand) : (s.modMe f).hostWaits = s.hostWaits := rfl
@[simp] theorem State.modMe_hostOut (s : State) (f : Strand → Strand) : (s.modMe f).hostOut = s.hostOut := rfl
@[simp] theorem State.modMe_dropped (s : State) (f : Strand → Strand) : (s.modMe f).dropped = s.dropped := rfl
@[simp] theorem State.modMe_bar0 (s : State) (f : Strand → Strand) : (s.modMe f).bar0 = s.bar0 := rfl
@[simp] theorem State.modMe_transit (s : State) (f : Strand → Strand) : (s.modMe f).transit = s.transit := rfl
@[simp] theorem State.modMe_msix (s : State) (f : Strand → Strand) : (s.modMe f).msix = s.msix := rfl
@[simp] theorem State.modMe_purges (s : State) (f : Strand → Strand) : (s.modMe f).purges = s.purges := rfl
@[simp] theorem State.modMe_master (s : State) (f : Strand → Strand) : (s.modMe f).master = s.master := rfl
@[simp] theorem State.modMe_keys (s : State) (f : Strand → Strand) : (s.modMe f).keys = s.keys := rfl
@[simp] theorem State.modMe_keyRetired (s : State) (f : Strand → Strand) : (s.modMe f).keyRetired = s.keyRetired := rfl
@[simp] theorem State.modMe_keyBits (s : State) (f : Strand → Strand) : (s.modMe f).keyBits = s.keyBits := rfl
@[simp] theorem State.modMe_pageKeys (s : State) (f : Strand → Strand) : (s.modMe f).pageKeys = s.pageKeys := rfl
@[simp] theorem State.modMe_kem (s : State) (f : Strand → Strand) : (s.modMe f).kem = s.kem := rfl
@[simp] theorem State.modMe_aliasKey (s : State) (f : Strand → Strand) : (s.modMe f).aliasKey = s.aliasKey := rfl
@[simp] theorem State.modMe_aliasCert (s : State) (f : Strand → Strand) : (s.modMe f).aliasCert = s.aliasCert := rfl
@[simp] theorem State.modMe_islandErrors (s : State) (f : Strand → Strand) : (s.modMe f).islandErrors = s.islandErrors := rfl
@[simp] theorem State.modMe_lease (s : State) (f : Strand → Strand) : (s.modMe f).lease = s.lease := rfl
@[simp] theorem State.modMe_fwCores (s : State) (f : Strand → Strand) : (s.modMe f).fwCores = s.fwCores := rfl
@[simp] theorem State.modMe_measure (s : State) (f : Strand → Strand) : (s.modMe f).measure = s.measure := rfl
@[simp] theorem State.modMe_rollback (s : State) (f : Strand → Strand) : (s.modMe f).rollback = s.rollback := rfl
@[simp] theorem State.modMe_staged (s : State) (f : Strand → Strand) : (s.modMe f).staged = s.staged := rfl
@[simp] theorem State.modMe_commitAt (s : State) (f : Strand → Strand) : (s.modMe f).commitAt = s.commitAt := rfl
@[simp] theorem State.modMe_quotes (s : State) (f : Strand → Strand) : (s.modMe f).quotes = s.quotes := rfl
@[simp] theorem State.modMe_power (s : State) (f : Strand → Strand) : (s.modMe f).power = s.power := rfl
@[simp] theorem State.modMe_ckpt (s : State) (f : Strand → Strand) : (s.modMe f).ckpt = s.ckpt := rfl
@[simp] theorem State.modMe_ckptGangs (s : State) (f : Strand → Strand) : (s.modMe f).ckptGangs = s.ckptGangs := rfl
@[simp] theorem State.modMe_ckptBefore (s : State) (f : Strand → Strand) : (s.modMe f).ckptBefore = s.ckptBefore := rfl
@[simp] theorem State.modMe_ckptTier (s : State) (f : Strand → Strand) : (s.modMe f).ckptTier = s.ckptTier := rfl
@[simp] theorem State.modMe_ckptKey (s : State) (f : Strand → Strand) : (s.modMe f).ckptKey = s.ckptKey := rfl
@[simp] theorem State.modMe_images (s : State) (f : Strand → Strand) : (s.modMe f).images = s.images := rfl
@[simp] theorem State.modMe_reports (s : State) (f : Strand → Strand) : (s.modMe f).reports = s.reports := rfl
@[simp] theorem State.modMe_lost (s : State) (f : Strand → Strand) : (s.modMe f).lost = s.lost := rfl

@[simp] theorem State.modMyCore_cycle (s : State) (f : Core → Core) : (s.modMyCore f).cycle = s.cycle := rfl
@[simp] theorem State.modMyCore_fresh (s : State) (f : Core → Core) : (s.modMyCore f).fresh = s.fresh := rfl
@[simp] theorem State.modMyCore_agenda (s : State) (f : Core → Core) : (s.modMyCore f).agenda = s.agenda := rfl
@[simp] theorem State.modMyCore_todo (s : State) (f : Core → Core) : (s.modMyCore f).todo = s.todo := rfl
@[simp] theorem State.modMyCore_turn (s : State) (f : Core → Core) : (s.modMyCore f).turn = s.turn := rfl
@[simp] theorem State.modMyCore_cur (s : State) (f : Core → Core) : (s.modMyCore f).cur = s.cur := rfl
@[simp] theorem State.modMyCore_ticked (s : State) (f : Core → Core) : (s.modMyCore f).ticked = s.ticked := rfl
@[simp] theorem State.modMyCore_mem (s : State) (f : Core → Core) : (s.modMyCore f).mem = s.mem := rfl
@[simp] theorem State.modMyCore_poison (s : State) (f : Core → Core) : (s.modMyCore f).poison = s.poison := rfl
@[simp] theorem State.modMyCore_gangs (s : State) (f : Core → Core) : (s.modMyCore f).gangs = s.gangs := rfl
@[simp] theorem State.modMyCore_saved (s : State) (f : Core → Core) : (s.modMyCore f).saved = s.saved := rfl
@[simp] theorem State.modMyCore_made (s : State) (f : Core → Core) : (s.modMyCore f).made = s.made := rfl
@[simp] theorem State.modMyCore_ctxs (s : State) (f : Core → Core) : (s.modMyCore f).ctxs = s.ctxs := rfl
@[simp] theorem State.modMyCore_faultq (s : State) (f : Core → Core) : (s.modMyCore f).faultq = s.faultq := rfl
@[simp] theorem State.modMyCore_islandFaults (s : State) (f : Core → Core) : (s.modMyCore f).islandFaults = s.islandFaults := rfl
@[simp] theorem State.modMyCore_launches (s : State) (f : Core → Core) : (s.modMyCore f).launches = s.launches := rfl
@[simp] theorem State.modMyCore_queues (s : State) (f : Core → Core) : (s.modMyCore f).queues = s.queues := rfl
@[simp] theorem State.modMyCore_copies (s : State) (f : Core → Core) : (s.modMyCore f).copies = s.copies := rfl
@[simp] theorem State.modMyCore_dies (s : State) (f : Core → Core) : (s.modMyCore f).dies = s.dies := rfl
@[simp] theorem State.modMyCore_xtick (s : State) (f : Core → Core) : (s.modMyCore f).xtick = s.xtick := rfl
@[simp] theorem State.modMyCore_xtime (s : State) (f : Core → Core) : (s.modMyCore f).xtime = s.xtime := rfl
@[simp] theorem State.modMyCore_time (s : State) (f : Core → Core) : (s.modMyCore f).time = s.time := rfl
@[simp] theorem State.modMyCore_launched (s : State) (f : Core → Core) : (s.modMyCore f).launched = s.launched := rfl
@[simp] theorem State.modMyCore_config (s : State) (f : Core → Core) : (s.modMyCore f).config = s.config := rfl
@[simp] theorem State.modMyCore_flash (s : State) (f : Core → Core) : (s.modMyCore f).flash = s.flash := rfl
@[simp] theorem State.modMyCore_flashImage (s : State) (f : Core → Core) : (s.modMyCore f).flashImage = s.flashImage := rfl
@[simp] theorem State.modMyCore_flashVer (s : State) (f : Core → Core) : (s.modMyCore f).flashVer = s.flashVer := rfl
@[simp] theorem State.modMyCore_island (s : State) (f : Core → Core) : (s.modMyCore f).island = s.island := rfl
@[simp] theorem State.modMyCore_bootError (s : State) (f : Core → Core) : (s.modMyCore f).bootError = s.bootError := rfl
@[simp] theorem State.modMyCore_drainUntil (s : State) (f : Core → Core) : (s.modMyCore f).drainUntil = s.drainUntil := rfl
@[simp] theorem State.modMyCore_endpoint (s : State) (f : Core → Core) : (s.modMyCore f).endpoint = s.endpoint := rfl
@[simp] theorem State.modMyCore_routes (s : State) (f : Core → Core) : (s.modMyCore f).routes = s.routes := rfl
@[simp] theorem State.modMyCore_ports (s : State) (f : Core → Core) : (s.modMyCore f).ports = s.ports := rfl
@[simp] theorem State.modMyCore_ctrs (s : State) (f : Core → Core) : (s.modMyCore f).ctrs = s.ctrs := rfl
@[simp] theorem State.modMyCore_slots (s : State) (f : Core → Core) : (s.modMyCore f).slots = s.slots := rfl
@[simp] theorem State.modMyCore_chains (s : State) (f : Core → Core) : (s.modMyCore f).chains = s.chains := rfl
@[simp] theorem State.modMyCore_fabricOut (s : State) (f : Core → Core) : (s.modMyCore f).fabricOut = s.fabricOut := rfl
@[simp] theorem State.modMyCore_peerWaits (s : State) (f : Core → Core) : (s.modMyCore f).peerWaits = s.peerWaits := rfl
@[simp] theorem State.modMyCore_peerOut (s : State) (f : Core → Core) : (s.modMyCore f).peerOut = s.peerOut := rfl
@[simp] theorem State.modMyCore_islandTlb (s : State) (f : Core → Core) : (s.modMyCore f).islandTlb = s.islandTlb := rfl
@[simp] theorem State.modMyCore_slices (s : State) (f : Core → Core) : (s.modMyCore f).slices = s.slices := rfl
@[simp] theorem State.modMyCore_hostWaits (s : State) (f : Core → Core) : (s.modMyCore f).hostWaits = s.hostWaits := rfl
@[simp] theorem State.modMyCore_hostOut (s : State) (f : Core → Core) : (s.modMyCore f).hostOut = s.hostOut := rfl
@[simp] theorem State.modMyCore_dropped (s : State) (f : Core → Core) : (s.modMyCore f).dropped = s.dropped := rfl
@[simp] theorem State.modMyCore_bar0 (s : State) (f : Core → Core) : (s.modMyCore f).bar0 = s.bar0 := rfl
@[simp] theorem State.modMyCore_transit (s : State) (f : Core → Core) : (s.modMyCore f).transit = s.transit := rfl
@[simp] theorem State.modMyCore_msix (s : State) (f : Core → Core) : (s.modMyCore f).msix = s.msix := rfl
@[simp] theorem State.modMyCore_purges (s : State) (f : Core → Core) : (s.modMyCore f).purges = s.purges := rfl
@[simp] theorem State.modMyCore_master (s : State) (f : Core → Core) : (s.modMyCore f).master = s.master := rfl
@[simp] theorem State.modMyCore_keys (s : State) (f : Core → Core) : (s.modMyCore f).keys = s.keys := rfl
@[simp] theorem State.modMyCore_keyRetired (s : State) (f : Core → Core) : (s.modMyCore f).keyRetired = s.keyRetired := rfl
@[simp] theorem State.modMyCore_keyBits (s : State) (f : Core → Core) : (s.modMyCore f).keyBits = s.keyBits := rfl
@[simp] theorem State.modMyCore_pageKeys (s : State) (f : Core → Core) : (s.modMyCore f).pageKeys = s.pageKeys := rfl
@[simp] theorem State.modMyCore_kem (s : State) (f : Core → Core) : (s.modMyCore f).kem = s.kem := rfl
@[simp] theorem State.modMyCore_aliasKey (s : State) (f : Core → Core) : (s.modMyCore f).aliasKey = s.aliasKey := rfl
@[simp] theorem State.modMyCore_aliasCert (s : State) (f : Core → Core) : (s.modMyCore f).aliasCert = s.aliasCert := rfl
@[simp] theorem State.modMyCore_islandErrors (s : State) (f : Core → Core) : (s.modMyCore f).islandErrors = s.islandErrors := rfl
@[simp] theorem State.modMyCore_lease (s : State) (f : Core → Core) : (s.modMyCore f).lease = s.lease := rfl
@[simp] theorem State.modMyCore_fwCores (s : State) (f : Core → Core) : (s.modMyCore f).fwCores = s.fwCores := rfl
@[simp] theorem State.modMyCore_measure (s : State) (f : Core → Core) : (s.modMyCore f).measure = s.measure := rfl
@[simp] theorem State.modMyCore_rollback (s : State) (f : Core → Core) : (s.modMyCore f).rollback = s.rollback := rfl
@[simp] theorem State.modMyCore_staged (s : State) (f : Core → Core) : (s.modMyCore f).staged = s.staged := rfl
@[simp] theorem State.modMyCore_commitAt (s : State) (f : Core → Core) : (s.modMyCore f).commitAt = s.commitAt := rfl
@[simp] theorem State.modMyCore_quotes (s : State) (f : Core → Core) : (s.modMyCore f).quotes = s.quotes := rfl
@[simp] theorem State.modMyCore_power (s : State) (f : Core → Core) : (s.modMyCore f).power = s.power := rfl
@[simp] theorem State.modMyCore_ckpt (s : State) (f : Core → Core) : (s.modMyCore f).ckpt = s.ckpt := rfl
@[simp] theorem State.modMyCore_ckptGangs (s : State) (f : Core → Core) : (s.modMyCore f).ckptGangs = s.ckptGangs := rfl
@[simp] theorem State.modMyCore_ckptBefore (s : State) (f : Core → Core) : (s.modMyCore f).ckptBefore = s.ckptBefore := rfl
@[simp] theorem State.modMyCore_ckptTier (s : State) (f : Core → Core) : (s.modMyCore f).ckptTier = s.ckptTier := rfl
@[simp] theorem State.modMyCore_ckptKey (s : State) (f : Core → Core) : (s.modMyCore f).ckptKey = s.ckptKey := rfl
@[simp] theorem State.modMyCore_images (s : State) (f : Core → Core) : (s.modMyCore f).images = s.images := rfl
@[simp] theorem State.modMyCore_reports (s : State) (f : Core → Core) : (s.modMyCore f).reports = s.reports := rfl
@[simp] theorem State.modMyCore_lost (s : State) (f : Core → Core) : (s.modMyCore f).lost = s.lost := rfl

@[simp] theorem State.setTile_cycle (s : State) (c : Cl) (t : Tl) (y : Tile) : (s.setTile c t y).cycle = s.cycle := rfl
@[simp] theorem State.setTile_fresh (s : State) (c : Cl) (t : Tl) (y : Tile) : (s.setTile c t y).fresh = s.fresh := rfl
@[simp] theorem State.setTile_agenda (s : State) (c : Cl) (t : Tl) (y : Tile) : (s.setTile c t y).agenda = s.agenda := rfl
@[simp] theorem State.setTile_todo (s : State) (c : Cl) (t : Tl) (y : Tile) : (s.setTile c t y).todo = s.todo := rfl
@[simp] theorem State.setTile_turn (s : State) (c : Cl) (t : Tl) (y : Tile) : (s.setTile c t y).turn = s.turn := rfl
@[simp] theorem State.setTile_cur (s : State) (c : Cl) (t : Tl) (y : Tile) : (s.setTile c t y).cur = s.cur := rfl
@[simp] theorem State.setTile_ticked (s : State) (c : Cl) (t : Tl) (y : Tile) : (s.setTile c t y).ticked = s.ticked := rfl
@[simp] theorem State.setTile_mem (s : State) (c : Cl) (t : Tl) (y : Tile) : (s.setTile c t y).mem = s.mem := rfl
@[simp] theorem State.setTile_poison (s : State) (c : Cl) (t : Tl) (y : Tile) : (s.setTile c t y).poison = s.poison := rfl
@[simp] theorem State.setTile_gangs (s : State) (c : Cl) (t : Tl) (y : Tile) : (s.setTile c t y).gangs = s.gangs := rfl
@[simp] theorem State.setTile_saved (s : State) (c : Cl) (t : Tl) (y : Tile) : (s.setTile c t y).saved = s.saved := rfl
@[simp] theorem State.setTile_made (s : State) (c : Cl) (t : Tl) (y : Tile) : (s.setTile c t y).made = s.made := rfl
@[simp] theorem State.setTile_ctxs (s : State) (c : Cl) (t : Tl) (y : Tile) : (s.setTile c t y).ctxs = s.ctxs := rfl
@[simp] theorem State.setTile_faultq (s : State) (c : Cl) (t : Tl) (y : Tile) : (s.setTile c t y).faultq = s.faultq := rfl
@[simp] theorem State.setTile_islandFaults (s : State) (c : Cl) (t : Tl) (y : Tile) : (s.setTile c t y).islandFaults = s.islandFaults := rfl
@[simp] theorem State.setTile_launches (s : State) (c : Cl) (t : Tl) (y : Tile) : (s.setTile c t y).launches = s.launches := rfl
@[simp] theorem State.setTile_queues (s : State) (c : Cl) (t : Tl) (y : Tile) : (s.setTile c t y).queues = s.queues := rfl
@[simp] theorem State.setTile_copies (s : State) (c : Cl) (t : Tl) (y : Tile) : (s.setTile c t y).copies = s.copies := rfl
@[simp] theorem State.setTile_dies (s : State) (c : Cl) (t : Tl) (y : Tile) : (s.setTile c t y).dies = s.dies := rfl
@[simp] theorem State.setTile_xtick (s : State) (c : Cl) (t : Tl) (y : Tile) : (s.setTile c t y).xtick = s.xtick := rfl
@[simp] theorem State.setTile_xtime (s : State) (c : Cl) (t : Tl) (y : Tile) : (s.setTile c t y).xtime = s.xtime := rfl
@[simp] theorem State.setTile_time (s : State) (c : Cl) (t : Tl) (y : Tile) : (s.setTile c t y).time = s.time := rfl
@[simp] theorem State.setTile_launched (s : State) (c : Cl) (t : Tl) (y : Tile) : (s.setTile c t y).launched = s.launched := rfl
@[simp] theorem State.setTile_config (s : State) (c : Cl) (t : Tl) (y : Tile) : (s.setTile c t y).config = s.config := rfl
@[simp] theorem State.setTile_flash (s : State) (c : Cl) (t : Tl) (y : Tile) : (s.setTile c t y).flash = s.flash := rfl
@[simp] theorem State.setTile_flashImage (s : State) (c : Cl) (t : Tl) (y : Tile) : (s.setTile c t y).flashImage = s.flashImage := rfl
@[simp] theorem State.setTile_flashVer (s : State) (c : Cl) (t : Tl) (y : Tile) : (s.setTile c t y).flashVer = s.flashVer := rfl
@[simp] theorem State.setTile_island (s : State) (c : Cl) (t : Tl) (y : Tile) : (s.setTile c t y).island = s.island := rfl
@[simp] theorem State.setTile_bootError (s : State) (c : Cl) (t : Tl) (y : Tile) : (s.setTile c t y).bootError = s.bootError := rfl
@[simp] theorem State.setTile_drainUntil (s : State) (c : Cl) (t : Tl) (y : Tile) : (s.setTile c t y).drainUntil = s.drainUntil := rfl
@[simp] theorem State.setTile_endpoint (s : State) (c : Cl) (t : Tl) (y : Tile) : (s.setTile c t y).endpoint = s.endpoint := rfl
@[simp] theorem State.setTile_routes (s : State) (c : Cl) (t : Tl) (y : Tile) : (s.setTile c t y).routes = s.routes := rfl
@[simp] theorem State.setTile_ports (s : State) (c : Cl) (t : Tl) (y : Tile) : (s.setTile c t y).ports = s.ports := rfl
@[simp] theorem State.setTile_ctrs (s : State) (c : Cl) (t : Tl) (y : Tile) : (s.setTile c t y).ctrs = s.ctrs := rfl
@[simp] theorem State.setTile_slots (s : State) (c : Cl) (t : Tl) (y : Tile) : (s.setTile c t y).slots = s.slots := rfl
@[simp] theorem State.setTile_chains (s : State) (c : Cl) (t : Tl) (y : Tile) : (s.setTile c t y).chains = s.chains := rfl
@[simp] theorem State.setTile_fabricOut (s : State) (c : Cl) (t : Tl) (y : Tile) : (s.setTile c t y).fabricOut = s.fabricOut := rfl
@[simp] theorem State.setTile_peerWaits (s : State) (c : Cl) (t : Tl) (y : Tile) : (s.setTile c t y).peerWaits = s.peerWaits := rfl
@[simp] theorem State.setTile_peerOut (s : State) (c : Cl) (t : Tl) (y : Tile) : (s.setTile c t y).peerOut = s.peerOut := rfl
@[simp] theorem State.setTile_islandTlb (s : State) (c : Cl) (t : Tl) (y : Tile) : (s.setTile c t y).islandTlb = s.islandTlb := rfl
@[simp] theorem State.setTile_slices (s : State) (c : Cl) (t : Tl) (y : Tile) : (s.setTile c t y).slices = s.slices := rfl
@[simp] theorem State.setTile_hostWaits (s : State) (c : Cl) (t : Tl) (y : Tile) : (s.setTile c t y).hostWaits = s.hostWaits := rfl
@[simp] theorem State.setTile_hostOut (s : State) (c : Cl) (t : Tl) (y : Tile) : (s.setTile c t y).hostOut = s.hostOut := rfl
@[simp] theorem State.setTile_dropped (s : State) (c : Cl) (t : Tl) (y : Tile) : (s.setTile c t y).dropped = s.dropped := rfl
@[simp] theorem State.setTile_bar0 (s : State) (c : Cl) (t : Tl) (y : Tile) : (s.setTile c t y).bar0 = s.bar0 := rfl
@[simp] theorem State.setTile_transit (s : State) (c : Cl) (t : Tl) (y : Tile) : (s.setTile c t y).transit = s.transit := rfl
@[simp] theorem State.setTile_msix (s : State) (c : Cl) (t : Tl) (y : Tile) : (s.setTile c t y).msix = s.msix := rfl
@[simp] theorem State.setTile_purges (s : State) (c : Cl) (t : Tl) (y : Tile) : (s.setTile c t y).purges = s.purges := rfl
@[simp] theorem State.setTile_master (s : State) (c : Cl) (t : Tl) (y : Tile) : (s.setTile c t y).master = s.master := rfl
@[simp] theorem State.setTile_keys (s : State) (c : Cl) (t : Tl) (y : Tile) : (s.setTile c t y).keys = s.keys := rfl
@[simp] theorem State.setTile_keyRetired (s : State) (c : Cl) (t : Tl) (y : Tile) : (s.setTile c t y).keyRetired = s.keyRetired := rfl
@[simp] theorem State.setTile_keyBits (s : State) (c : Cl) (t : Tl) (y : Tile) : (s.setTile c t y).keyBits = s.keyBits := rfl
@[simp] theorem State.setTile_pageKeys (s : State) (c : Cl) (t : Tl) (y : Tile) : (s.setTile c t y).pageKeys = s.pageKeys := rfl
@[simp] theorem State.setTile_kem (s : State) (c : Cl) (t : Tl) (y : Tile) : (s.setTile c t y).kem = s.kem := rfl
@[simp] theorem State.setTile_aliasKey (s : State) (c : Cl) (t : Tl) (y : Tile) : (s.setTile c t y).aliasKey = s.aliasKey := rfl
@[simp] theorem State.setTile_aliasCert (s : State) (c : Cl) (t : Tl) (y : Tile) : (s.setTile c t y).aliasCert = s.aliasCert := rfl
@[simp] theorem State.setTile_islandErrors (s : State) (c : Cl) (t : Tl) (y : Tile) : (s.setTile c t y).islandErrors = s.islandErrors := rfl
@[simp] theorem State.setTile_lease (s : State) (c : Cl) (t : Tl) (y : Tile) : (s.setTile c t y).lease = s.lease := rfl
@[simp] theorem State.setTile_fwCores (s : State) (c : Cl) (t : Tl) (y : Tile) : (s.setTile c t y).fwCores = s.fwCores := rfl
@[simp] theorem State.setTile_measure (s : State) (c : Cl) (t : Tl) (y : Tile) : (s.setTile c t y).measure = s.measure := rfl
@[simp] theorem State.setTile_rollback (s : State) (c : Cl) (t : Tl) (y : Tile) : (s.setTile c t y).rollback = s.rollback := rfl
@[simp] theorem State.setTile_staged (s : State) (c : Cl) (t : Tl) (y : Tile) : (s.setTile c t y).staged = s.staged := rfl
@[simp] theorem State.setTile_commitAt (s : State) (c : Cl) (t : Tl) (y : Tile) : (s.setTile c t y).commitAt = s.commitAt := rfl
@[simp] theorem State.setTile_quotes (s : State) (c : Cl) (t : Tl) (y : Tile) : (s.setTile c t y).quotes = s.quotes := rfl
@[simp] theorem State.setTile_power (s : State) (c : Cl) (t : Tl) (y : Tile) : (s.setTile c t y).power = s.power := rfl
@[simp] theorem State.setTile_ckpt (s : State) (c : Cl) (t : Tl) (y : Tile) : (s.setTile c t y).ckpt = s.ckpt := rfl
@[simp] theorem State.setTile_ckptGangs (s : State) (c : Cl) (t : Tl) (y : Tile) : (s.setTile c t y).ckptGangs = s.ckptGangs := rfl
@[simp] theorem State.setTile_ckptBefore (s : State) (c : Cl) (t : Tl) (y : Tile) : (s.setTile c t y).ckptBefore = s.ckptBefore := rfl
@[simp] theorem State.setTile_ckptTier (s : State) (c : Cl) (t : Tl) (y : Tile) : (s.setTile c t y).ckptTier = s.ckptTier := rfl
@[simp] theorem State.setTile_ckptKey (s : State) (c : Cl) (t : Tl) (y : Tile) : (s.setTile c t y).ckptKey = s.ckptKey := rfl
@[simp] theorem State.setTile_images (s : State) (c : Cl) (t : Tl) (y : Tile) : (s.setTile c t y).images = s.images := rfl
@[simp] theorem State.setTile_reports (s : State) (c : Cl) (t : Tl) (y : Tile) : (s.setTile c t y).reports = s.reports := rfl
@[simp] theorem State.setTile_lost (s : State) (c : Cl) (t : Tl) (y : Tile) : (s.setTile c t y).lost = s.lost := rfl

@[simp] theorem State.modTile_cycle (s : State) (c : Cl) (t : Tl) (f : Tile → Tile) : (s.modTile c t f).cycle = s.cycle := rfl
@[simp] theorem State.modTile_fresh (s : State) (c : Cl) (t : Tl) (f : Tile → Tile) : (s.modTile c t f).fresh = s.fresh := rfl
@[simp] theorem State.modTile_agenda (s : State) (c : Cl) (t : Tl) (f : Tile → Tile) : (s.modTile c t f).agenda = s.agenda := rfl
@[simp] theorem State.modTile_todo (s : State) (c : Cl) (t : Tl) (f : Tile → Tile) : (s.modTile c t f).todo = s.todo := rfl
@[simp] theorem State.modTile_turn (s : State) (c : Cl) (t : Tl) (f : Tile → Tile) : (s.modTile c t f).turn = s.turn := rfl
@[simp] theorem State.modTile_cur (s : State) (c : Cl) (t : Tl) (f : Tile → Tile) : (s.modTile c t f).cur = s.cur := rfl
@[simp] theorem State.modTile_ticked (s : State) (c : Cl) (t : Tl) (f : Tile → Tile) : (s.modTile c t f).ticked = s.ticked := rfl
@[simp] theorem State.modTile_mem (s : State) (c : Cl) (t : Tl) (f : Tile → Tile) : (s.modTile c t f).mem = s.mem := rfl
@[simp] theorem State.modTile_poison (s : State) (c : Cl) (t : Tl) (f : Tile → Tile) : (s.modTile c t f).poison = s.poison := rfl
@[simp] theorem State.modTile_gangs (s : State) (c : Cl) (t : Tl) (f : Tile → Tile) : (s.modTile c t f).gangs = s.gangs := rfl
@[simp] theorem State.modTile_saved (s : State) (c : Cl) (t : Tl) (f : Tile → Tile) : (s.modTile c t f).saved = s.saved := rfl
@[simp] theorem State.modTile_made (s : State) (c : Cl) (t : Tl) (f : Tile → Tile) : (s.modTile c t f).made = s.made := rfl
@[simp] theorem State.modTile_ctxs (s : State) (c : Cl) (t : Tl) (f : Tile → Tile) : (s.modTile c t f).ctxs = s.ctxs := rfl
@[simp] theorem State.modTile_faultq (s : State) (c : Cl) (t : Tl) (f : Tile → Tile) : (s.modTile c t f).faultq = s.faultq := rfl
@[simp] theorem State.modTile_islandFaults (s : State) (c : Cl) (t : Tl) (f : Tile → Tile) : (s.modTile c t f).islandFaults = s.islandFaults := rfl
@[simp] theorem State.modTile_launches (s : State) (c : Cl) (t : Tl) (f : Tile → Tile) : (s.modTile c t f).launches = s.launches := rfl
@[simp] theorem State.modTile_queues (s : State) (c : Cl) (t : Tl) (f : Tile → Tile) : (s.modTile c t f).queues = s.queues := rfl
@[simp] theorem State.modTile_copies (s : State) (c : Cl) (t : Tl) (f : Tile → Tile) : (s.modTile c t f).copies = s.copies := rfl
@[simp] theorem State.modTile_dies (s : State) (c : Cl) (t : Tl) (f : Tile → Tile) : (s.modTile c t f).dies = s.dies := rfl
@[simp] theorem State.modTile_xtick (s : State) (c : Cl) (t : Tl) (f : Tile → Tile) : (s.modTile c t f).xtick = s.xtick := rfl
@[simp] theorem State.modTile_xtime (s : State) (c : Cl) (t : Tl) (f : Tile → Tile) : (s.modTile c t f).xtime = s.xtime := rfl
@[simp] theorem State.modTile_time (s : State) (c : Cl) (t : Tl) (f : Tile → Tile) : (s.modTile c t f).time = s.time := rfl
@[simp] theorem State.modTile_launched (s : State) (c : Cl) (t : Tl) (f : Tile → Tile) : (s.modTile c t f).launched = s.launched := rfl
@[simp] theorem State.modTile_config (s : State) (c : Cl) (t : Tl) (f : Tile → Tile) : (s.modTile c t f).config = s.config := rfl
@[simp] theorem State.modTile_flash (s : State) (c : Cl) (t : Tl) (f : Tile → Tile) : (s.modTile c t f).flash = s.flash := rfl
@[simp] theorem State.modTile_flashImage (s : State) (c : Cl) (t : Tl) (f : Tile → Tile) : (s.modTile c t f).flashImage = s.flashImage := rfl
@[simp] theorem State.modTile_flashVer (s : State) (c : Cl) (t : Tl) (f : Tile → Tile) : (s.modTile c t f).flashVer = s.flashVer := rfl
@[simp] theorem State.modTile_island (s : State) (c : Cl) (t : Tl) (f : Tile → Tile) : (s.modTile c t f).island = s.island := rfl
@[simp] theorem State.modTile_bootError (s : State) (c : Cl) (t : Tl) (f : Tile → Tile) : (s.modTile c t f).bootError = s.bootError := rfl
@[simp] theorem State.modTile_drainUntil (s : State) (c : Cl) (t : Tl) (f : Tile → Tile) : (s.modTile c t f).drainUntil = s.drainUntil := rfl
@[simp] theorem State.modTile_endpoint (s : State) (c : Cl) (t : Tl) (f : Tile → Tile) : (s.modTile c t f).endpoint = s.endpoint := rfl
@[simp] theorem State.modTile_routes (s : State) (c : Cl) (t : Tl) (f : Tile → Tile) : (s.modTile c t f).routes = s.routes := rfl
@[simp] theorem State.modTile_ports (s : State) (c : Cl) (t : Tl) (f : Tile → Tile) : (s.modTile c t f).ports = s.ports := rfl
@[simp] theorem State.modTile_ctrs (s : State) (c : Cl) (t : Tl) (f : Tile → Tile) : (s.modTile c t f).ctrs = s.ctrs := rfl
@[simp] theorem State.modTile_slots (s : State) (c : Cl) (t : Tl) (f : Tile → Tile) : (s.modTile c t f).slots = s.slots := rfl
@[simp] theorem State.modTile_chains (s : State) (c : Cl) (t : Tl) (f : Tile → Tile) : (s.modTile c t f).chains = s.chains := rfl
@[simp] theorem State.modTile_fabricOut (s : State) (c : Cl) (t : Tl) (f : Tile → Tile) : (s.modTile c t f).fabricOut = s.fabricOut := rfl
@[simp] theorem State.modTile_peerWaits (s : State) (c : Cl) (t : Tl) (f : Tile → Tile) : (s.modTile c t f).peerWaits = s.peerWaits := rfl
@[simp] theorem State.modTile_peerOut (s : State) (c : Cl) (t : Tl) (f : Tile → Tile) : (s.modTile c t f).peerOut = s.peerOut := rfl
@[simp] theorem State.modTile_islandTlb (s : State) (c : Cl) (t : Tl) (f : Tile → Tile) : (s.modTile c t f).islandTlb = s.islandTlb := rfl
@[simp] theorem State.modTile_slices (s : State) (c : Cl) (t : Tl) (f : Tile → Tile) : (s.modTile c t f).slices = s.slices := rfl
@[simp] theorem State.modTile_hostWaits (s : State) (c : Cl) (t : Tl) (f : Tile → Tile) : (s.modTile c t f).hostWaits = s.hostWaits := rfl
@[simp] theorem State.modTile_hostOut (s : State) (c : Cl) (t : Tl) (f : Tile → Tile) : (s.modTile c t f).hostOut = s.hostOut := rfl
@[simp] theorem State.modTile_dropped (s : State) (c : Cl) (t : Tl) (f : Tile → Tile) : (s.modTile c t f).dropped = s.dropped := rfl
@[simp] theorem State.modTile_bar0 (s : State) (c : Cl) (t : Tl) (f : Tile → Tile) : (s.modTile c t f).bar0 = s.bar0 := rfl
@[simp] theorem State.modTile_transit (s : State) (c : Cl) (t : Tl) (f : Tile → Tile) : (s.modTile c t f).transit = s.transit := rfl
@[simp] theorem State.modTile_msix (s : State) (c : Cl) (t : Tl) (f : Tile → Tile) : (s.modTile c t f).msix = s.msix := rfl
@[simp] theorem State.modTile_purges (s : State) (c : Cl) (t : Tl) (f : Tile → Tile) : (s.modTile c t f).purges = s.purges := rfl
@[simp] theorem State.modTile_master (s : State) (c : Cl) (t : Tl) (f : Tile → Tile) : (s.modTile c t f).master = s.master := rfl
@[simp] theorem State.modTile_keys (s : State) (c : Cl) (t : Tl) (f : Tile → Tile) : (s.modTile c t f).keys = s.keys := rfl
@[simp] theorem State.modTile_keyRetired (s : State) (c : Cl) (t : Tl) (f : Tile → Tile) : (s.modTile c t f).keyRetired = s.keyRetired := rfl
@[simp] theorem State.modTile_keyBits (s : State) (c : Cl) (t : Tl) (f : Tile → Tile) : (s.modTile c t f).keyBits = s.keyBits := rfl
@[simp] theorem State.modTile_pageKeys (s : State) (c : Cl) (t : Tl) (f : Tile → Tile) : (s.modTile c t f).pageKeys = s.pageKeys := rfl
@[simp] theorem State.modTile_kem (s : State) (c : Cl) (t : Tl) (f : Tile → Tile) : (s.modTile c t f).kem = s.kem := rfl
@[simp] theorem State.modTile_aliasKey (s : State) (c : Cl) (t : Tl) (f : Tile → Tile) : (s.modTile c t f).aliasKey = s.aliasKey := rfl
@[simp] theorem State.modTile_aliasCert (s : State) (c : Cl) (t : Tl) (f : Tile → Tile) : (s.modTile c t f).aliasCert = s.aliasCert := rfl
@[simp] theorem State.modTile_islandErrors (s : State) (c : Cl) (t : Tl) (f : Tile → Tile) : (s.modTile c t f).islandErrors = s.islandErrors := rfl
@[simp] theorem State.modTile_lease (s : State) (c : Cl) (t : Tl) (f : Tile → Tile) : (s.modTile c t f).lease = s.lease := rfl
@[simp] theorem State.modTile_fwCores (s : State) (c : Cl) (t : Tl) (f : Tile → Tile) : (s.modTile c t f).fwCores = s.fwCores := rfl
@[simp] theorem State.modTile_measure (s : State) (c : Cl) (t : Tl) (f : Tile → Tile) : (s.modTile c t f).measure = s.measure := rfl
@[simp] theorem State.modTile_rollback (s : State) (c : Cl) (t : Tl) (f : Tile → Tile) : (s.modTile c t f).rollback = s.rollback := rfl
@[simp] theorem State.modTile_staged (s : State) (c : Cl) (t : Tl) (f : Tile → Tile) : (s.modTile c t f).staged = s.staged := rfl
@[simp] theorem State.modTile_commitAt (s : State) (c : Cl) (t : Tl) (f : Tile → Tile) : (s.modTile c t f).commitAt = s.commitAt := rfl
@[simp] theorem State.modTile_quotes (s : State) (c : Cl) (t : Tl) (f : Tile → Tile) : (s.modTile c t f).quotes = s.quotes := rfl
@[simp] theorem State.modTile_power (s : State) (c : Cl) (t : Tl) (f : Tile → Tile) : (s.modTile c t f).power = s.power := rfl
@[simp] theorem State.modTile_ckpt (s : State) (c : Cl) (t : Tl) (f : Tile → Tile) : (s.modTile c t f).ckpt = s.ckpt := rfl
@[simp] theorem State.modTile_ckptGangs (s : State) (c : Cl) (t : Tl) (f : Tile → Tile) : (s.modTile c t f).ckptGangs = s.ckptGangs := rfl
@[simp] theorem State.modTile_ckptBefore (s : State) (c : Cl) (t : Tl) (f : Tile → Tile) : (s.modTile c t f).ckptBefore = s.ckptBefore := rfl
@[simp] theorem State.modTile_ckptTier (s : State) (c : Cl) (t : Tl) (f : Tile → Tile) : (s.modTile c t f).ckptTier = s.ckptTier := rfl
@[simp] theorem State.modTile_ckptKey (s : State) (c : Cl) (t : Tl) (f : Tile → Tile) : (s.modTile c t f).ckptKey = s.ckptKey := rfl
@[simp] theorem State.modTile_images (s : State) (c : Cl) (t : Tl) (f : Tile → Tile) : (s.modTile c t f).images = s.images := rfl
@[simp] theorem State.modTile_reports (s : State) (c : Cl) (t : Tl) (f : Tile → Tile) : (s.modTile c t f).reports = s.reports := rfl
@[simp] theorem State.modTile_lost (s : State) (c : Cl) (t : Tl) (f : Tile → Tile) : (s.modTile c t f).lost = s.lost := rfl

/-! What an update of a strand or a tile leaves of its core. -/

@[simp] theorem Core.setTile_strands (x : Core) (t : Tl) (y : Tile) : (x.setTile t y).strands = x.strands := rfl
@[simp] theorem Core.setStrand_handles (x : Core) (k : Sn) (t : Strand) : (x.setStrand k t).handles = x.handles := rfl
@[simp] theorem Core.modStrand_handles (x : Core) (k : Sn) (f : Strand → Strand) : (x.modStrand k f).handles = x.handles := rfl
@[simp] theorem Core.setTile_handles (x : Core) (t : Tl) (y : Tile) : (x.setTile t y).handles = x.handles := rfl
@[simp] theorem Core.setStrand_hflights (x : Core) (k : Sn) (t : Strand) : (x.setStrand k t).hflights = x.hflights := rfl
@[simp] theorem Core.modStrand_hflights (x : Core) (k : Sn) (f : Strand → Strand) : (x.modStrand k f).hflights = x.hflights := rfl
@[simp] theorem Core.setTile_hflights (x : Core) (t : Tl) (y : Tile) : (x.setTile t y).hflights = x.hflights := rfl
@[simp] theorem Core.setStrand_xjoin (x : Core) (k : Sn) (t : Strand) : (x.setStrand k t).xjoin = x.xjoin := rfl
@[simp] theorem Core.modStrand_xjoin (x : Core) (k : Sn) (f : Strand → Strand) : (x.modStrand k f).xjoin = x.xjoin := rfl
@[simp] theorem Core.setTile_xjoin (x : Core) (t : Tl) (y : Tile) : (x.setTile t y).xjoin = x.xjoin := rfl
@[simp] theorem Core.setStrand_xgen (x : Core) (k : Sn) (t : Strand) : (x.setStrand k t).xgen = x.xgen := rfl
@[simp] theorem Core.modStrand_xgen (x : Core) (k : Sn) (f : Strand → Strand) : (x.modStrand k f).xgen = x.xgen := rfl
@[simp] theorem Core.setTile_xgen (x : Core) (t : Tl) (y : Tile) : (x.setTile t y).xgen = x.xgen := rfl
@[simp] theorem Core.setStrand_xvalid (x : Core) (k : Sn) (t : Strand) : (x.setStrand k t).xvalid = x.xvalid := rfl
@[simp] theorem Core.modStrand_xvalid (x : Core) (k : Sn) (f : Strand → Strand) : (x.modStrand k f).xvalid = x.xvalid := rfl
@[simp] theorem Core.setTile_xvalid (x : Core) (t : Tl) (y : Tile) : (x.setTile t y).xvalid = x.xvalid := rfl
@[simp] theorem Core.setStrand_xtbase (x : Core) (k : Sn) (t : Strand) : (x.setStrand k t).xtbase = x.xtbase := rfl
@[simp] theorem Core.modStrand_xtbase (x : Core) (k : Sn) (f : Strand → Strand) : (x.modStrand k f).xtbase = x.xtbase := rfl
@[simp] theorem Core.setTile_xtbase (x : Core) (t : Tl) (y : Tile) : (x.setTile t y).xtbase = x.xtbase := rfl
@[simp] theorem Core.setStrand_mbox (x : Core) (k : Sn) (t : Strand) : (x.setStrand k t).mbox = x.mbox := rfl
@[simp] theorem Core.modStrand_mbox (x : Core) (k : Sn) (f : Strand → Strand) : (x.modStrand k f).mbox = x.mbox := rfl
@[simp] theorem Core.setTile_mbox (x : Core) (t : Tl) (y : Tile) : (x.setTile t y).mbox = x.mbox := rfl
@[simp] theorem Core.setStrand_mboxHost (x : Core) (k : Sn) (t : Strand) : (x.setStrand k t).mboxHost = x.mboxHost := rfl
@[simp] theorem Core.modStrand_mboxHost (x : Core) (k : Sn) (f : Strand → Strand) : (x.modStrand k f).mboxHost = x.mboxHost := rfl
@[simp] theorem Core.setTile_mboxHost (x : Core) (t : Tl) (y : Tile) : (x.setTile t y).mboxHost = x.mboxHost := rfl
@[simp] theorem Core.setStrand_superseded (x : Core) (k : Sn) (t : Strand) : (x.setStrand k t).superseded = x.superseded := rfl
@[simp] theorem Core.modStrand_superseded (x : Core) (k : Sn) (f : Strand → Strand) : (x.modStrand k f).superseded = x.superseded := rfl
@[simp] theorem Core.setTile_superseded (x : Core) (t : Tl) (y : Tile) : (x.setTile t y).superseded = x.superseded := rfl
@[simp] theorem Core.setStrand_mboxAt (x : Core) (k : Sn) (t : Strand) : (x.setStrand k t).mboxAt = x.mboxAt := rfl
@[simp] theorem Core.modStrand_mboxAt (x : Core) (k : Sn) (f : Strand → Strand) : (x.modStrand k f).mboxAt = x.mboxAt := rfl
@[simp] theorem Core.setTile_mboxAt (x : Core) (t : Tl) (y : Tile) : (x.setTile t y).mboxAt = x.mboxAt := rfl
@[simp] theorem Core.setStrand_order (x : Core) (k : Sn) (t : Strand) : (x.setStrand k t).order = x.order := rfl
@[simp] theorem Core.modStrand_order (x : Core) (k : Sn) (f : Strand → Strand) : (x.modStrand k f).order = x.order := rfl
@[simp] theorem Core.setTile_order (x : Core) (t : Tl) (y : Tile) : (x.setTile t y).order = x.order := rfl
@[simp] theorem Core.setStrand_issued (x : Core) (k : Sn) (t : Strand) : (x.setStrand k t).issued = x.issued := rfl
@[simp] theorem Core.modStrand_issued (x : Core) (k : Sn) (f : Strand → Strand) : (x.modStrand k f).issued = x.issued := rfl
@[simp] theorem Core.setTile_issued (x : Core) (t : Tl) (y : Tile) : (x.setTile t y).issued = x.issued := rfl
@[simp] theorem Core.setStrand_ctl (x : Core) (k : Sn) (t : Strand) : (x.setStrand k t).ctl = x.ctl := rfl
@[simp] theorem Core.modStrand_ctl (x : Core) (k : Sn) (f : Strand → Strand) : (x.modStrand k f).ctl = x.ctl := rfl
@[simp] theorem Core.setTile_ctl (x : Core) (t : Tl) (y : Tile) : (x.setTile t y).ctl = x.ctl := rfl
@[simp] theorem Core.setStrand_dcache (x : Core) (k : Sn) (t : Strand) : (x.setStrand k t).dcache = x.dcache := rfl
@[simp] theorem Core.modStrand_dcache (x : Core) (k : Sn) (f : Strand → Strand) : (x.modStrand k f).dcache = x.dcache := rfl
@[simp] theorem Core.setTile_dcache (x : Core) (t : Tl) (y : Tile) : (x.setTile t y).dcache = x.dcache := rfl
@[simp] theorem Core.setStrand_tlb (x : Core) (k : Sn) (t : Strand) : (x.setStrand k t).tlb = x.tlb := rfl
@[simp] theorem Core.modStrand_tlb (x : Core) (k : Sn) (f : Strand → Strand) : (x.modStrand k f).tlb = x.tlb := rfl
@[simp] theorem Core.setTile_tlb (x : Core) (t : Tl) (y : Tile) : (x.setTile t y).tlb = x.tlb := rfl
@[simp] theorem Core.setStrand_gang (x : Core) (k : Sn) (t : Strand) : (x.setStrand k t).gang = x.gang := rfl
@[simp] theorem Core.modStrand_gang (x : Core) (k : Sn) (f : Strand → Strand) : (x.modStrand k f).gang = x.gang := rfl
@[simp] theorem Core.setTile_gang (x : Core) (t : Tl) (y : Tile) : (x.setTile t y).gang = x.gang := rfl
@[simp] theorem Core.setStrand_xframe (x : Core) (k : Sn) (t : Strand) : (x.setStrand k t).xframe = x.xframe := rfl
@[simp] theorem Core.modStrand_xframe (x : Core) (k : Sn) (f : Strand → Strand) : (x.modStrand k f).xframe = x.xframe := rfl
@[simp] theorem Core.setTile_xframe (x : Core) (t : Tl) (y : Tile) : (x.setTile t y).xframe = x.xframe := rfl
@[simp] theorem Core.setStrand_frameTicks (x : Core) (k : Sn) (t : Strand) : (x.setStrand k t).frameTicks = x.frameTicks := rfl
@[simp] theorem Core.modStrand_frameTicks (x : Core) (k : Sn) (f : Strand → Strand) : (x.modStrand k f).frameTicks = x.frameTicks := rfl
@[simp] theorem Core.setTile_frameTicks (x : Core) (t : Tl) (y : Tile) : (x.setTile t y).frameTicks = x.frameTicks := rfl
@[simp] theorem Core.setStrand_narrowed (x : Core) (k : Sn) (t : Strand) : (x.setStrand k t).narrowed = x.narrowed := rfl
@[simp] theorem Core.modStrand_narrowed (x : Core) (k : Sn) (f : Strand → Strand) : (x.modStrand k f).narrowed = x.narrowed := rfl
@[simp] theorem Core.setTile_narrowed (x : Core) (t : Tl) (y : Tile) : (x.setTile t y).narrowed = x.narrowed := rfl
@[simp] theorem Core.setStrand_toNarrow (x : Core) (k : Sn) (t : Strand) : (x.setStrand k t).toNarrow = x.toNarrow := rfl
@[simp] theorem Core.modStrand_toNarrow (x : Core) (k : Sn) (f : Strand → Strand) : (x.modStrand k f).toNarrow = x.toNarrow := rfl
@[simp] theorem Core.setTile_toNarrow (x : Core) (t : Tl) (y : Tile) : (x.setTile t y).toNarrow = x.toNarrow := rfl
@[simp] theorem Core.setStrand_slipCount (x : Core) (k : Sn) (t : Strand) : (x.setStrand k t).slipCount = x.slipCount := rfl
@[simp] theorem Core.modStrand_slipCount (x : Core) (k : Sn) (f : Strand → Strand) : (x.modStrand k f).slipCount = x.slipCount := rfl
@[simp] theorem Core.setTile_slipCount (x : Core) (t : Tl) (y : Tile) : (x.setTile t y).slipCount = x.slipCount := rfl
@[simp] theorem Core.setStrand_slips (x : Core) (k : Sn) (t : Strand) : (x.setStrand k t).slips = x.slips := rfl
@[simp] theorem Core.modStrand_slips (x : Core) (k : Sn) (f : Strand → Strand) : (x.modStrand k f).slips = x.slips := rfl
@[simp] theorem Core.setTile_slips (x : Core) (t : Tl) (y : Tile) : (x.setTile t y).slips = x.slips := rfl
@[simp] theorem Core.setStrand_events (x : Core) (k : Sn) (t : Strand) : (x.setStrand k t).events = x.events := rfl
@[simp] theorem Core.modStrand_events (x : Core) (k : Sn) (f : Strand → Strand) : (x.modStrand k f).events = x.events := rfl
@[simp] theorem Core.setTile_events (x : Core) (t : Tl) (y : Tile) : (x.setTile t y).events = x.events := rfl
@[simp] theorem Core.setStrand_didDone (x : Core) (k : Sn) (t : Strand) : (x.setStrand k t).didDone = x.didDone := rfl
@[simp] theorem Core.modStrand_didDone (x : Core) (k : Sn) (f : Strand → Strand) : (x.modStrand k f).didDone = x.didDone := rfl
@[simp] theorem Core.setTile_didDone (x : Core) (t : Tl) (y : Tile) : (x.setTile t y).didDone = x.didDone := rfl
@[simp] theorem Core.setStrand_divertedHere (x : Core) (k : Sn) (t : Strand) : (x.setStrand k t).divertedHere = x.divertedHere := rfl
@[simp] theorem Core.modStrand_divertedHere (x : Core) (k : Sn) (f : Strand → Strand) : (x.modStrand k f).divertedHere = x.divertedHere := rfl
@[simp] theorem Core.setTile_divertedHere (x : Core) (t : Tl) (y : Tile) : (x.setTile t y).divertedHere = x.divertedHere := rfl
@[simp] theorem Core.setStrand_bin (x : Core) (k : Sn) (t : Strand) : (x.setStrand k t).bin = x.bin := rfl
@[simp] theorem Core.modStrand_bin (x : Core) (k : Sn) (f : Strand → Strand) : (x.modStrand k f).bin = x.bin := rfl
@[simp] theorem Core.setTile_bin (x : Core) (t : Tl) (y : Tile) : (x.setTile t y).bin = x.bin := rfl
@[simp] theorem Core.setStrand_suspect (x : Core) (k : Sn) (t : Strand) : (x.setStrand k t).suspect = x.suspect := rfl
@[simp] theorem Core.modStrand_suspect (x : Core) (k : Sn) (f : Strand → Strand) : (x.modStrand k f).suspect = x.suspect := rfl
@[simp] theorem Core.setTile_suspect (x : Core) (t : Tl) (y : Tile) : (x.setTile t y).suspect = x.suspect := rfl
@[simp] theorem Core.setStrand_passes (x : Core) (k : Sn) (t : Strand) : (x.setStrand k t).passes = x.passes := rfl
@[simp] theorem Core.modStrand_passes (x : Core) (k : Sn) (f : Strand → Strand) : (x.modStrand k f).passes = x.passes := rfl
@[simp] theorem Core.setTile_passes (x : Core) (t : Tl) (y : Tile) : (x.setTile t y).passes = x.passes := rfl
@[simp] theorem Core.setStrand_corrected (x : Core) (k : Sn) (t : Strand) : (x.setStrand k t).corrected = x.corrected := rfl
@[simp] theorem Core.modStrand_corrected (x : Core) (k : Sn) (f : Strand → Strand) : (x.modStrand k f).corrected = x.corrected := rfl
@[simp] theorem Core.setTile_corrected (x : Core) (t : Tl) (y : Tile) : (x.setTile t y).corrected = x.corrected := rfl
@[simp] theorem Core.setStrand_correctedAt (x : Core) (k : Sn) (t : Strand) : (x.setStrand k t).correctedAt = x.correctedAt := rfl
@[simp] theorem Core.modStrand_correctedAt (x : Core) (k : Sn) (f : Strand → Strand) : (x.modStrand k f).correctedAt = x.correctedAt := rfl
@[simp] theorem Core.setTile_correctedAt (x : Core) (t : Tl) (y : Tile) : (x.setTile t y).correctedAt = x.correctedAt := rfl
@[simp] theorem Core.setStrand_idleSince (x : Core) (k : Sn) (t : Strand) : (x.setStrand k t).idleSince = x.idleSince := rfl
@[simp] theorem Core.modStrand_idleSince (x : Core) (k : Sn) (f : Strand → Strand) : (x.modStrand k f).idleSince = x.idleSince := rfl
@[simp] theorem Core.setTile_idleSince (x : Core) (t : Tl) (y : Tile) : (x.setTile t y).idleSince = x.idleSince := rfl
@[simp] theorem Core.setStrand_clockGated (x : Core) (k : Sn) (t : Strand) : (x.setStrand k t).clockGated = x.clockGated := rfl
@[simp] theorem Core.modStrand_clockGated (x : Core) (k : Sn) (f : Strand → Strand) : (x.modStrand k f).clockGated = x.clockGated := rfl
@[simp] theorem Core.setTile_clockGated (x : Core) (t : Tl) (y : Tile) : (x.setTile t y).clockGated = x.clockGated := rfl
@[simp] theorem Core.setStrand_powerGated (x : Core) (k : Sn) (t : Strand) : (x.setStrand k t).powerGated = x.powerGated := rfl
@[simp] theorem Core.modStrand_powerGated (x : Core) (k : Sn) (f : Strand → Strand) : (x.modStrand k f).powerGated = x.powerGated := rfl
@[simp] theorem Core.setTile_powerGated (x : Core) (t : Tl) (y : Tile) : (x.setTile t y).powerGated = x.powerGated := rfl
@[simp] theorem Core.setStrand_tiles (x : Core) (k : Sn) (t : Strand) : (x.setStrand k t).tiles = x.tiles := rfl
@[simp] theorem Core.modStrand_tiles (x : Core) (k : Sn) (f : Strand → Strand) : (x.modStrand k f).tiles = x.tiles := rfl

end Sys2Proof.Machine
end

