-- ==== Sys2Proof/Laws/Memory.lean ====
section
/-! SUPPORT. The laws of memory: what a byte reads as after a write, and that writes keep the list's canonical form. -/

namespace Sys2Proof.Machine

/-! The list of bytes. -/

/-- Below the first address a well-formed list may hold, everything is blank. -/
theorem memGet_below : ∀ (m : List Host.Cell) (lo x : Nat), memWfFrom lo m = true → x < lo → memGet m x = blankByte
  | [], _, _, _, _ => rfl
  | (a, b) :: r, lo, x, h, hx => by
    simp only [memWfFrom, Bool.and_eq_true, decide_eq_true_eq] at h
    have h1 : ¬a = x := by omega
    have h2 : x < a := by omega
    simp [memGet, h1, h2]

theorem memWfFrom_mono : ∀ (m : List Host.Cell) (lo hi : Nat), lo ≤ hi → memWfFrom hi m = true → memWfFrom lo m = true
  | [], _, _, _, _ => rfl
  | (a, b) :: r, lo, hi, hle, h => by
    simp only [memWfFrom, Bool.and_eq_true, decide_eq_true_eq] at h ⊢
    exact ⟨⟨by omega, h.1.2⟩, h.2⟩

/-- A write keeps the canonical form. -/
theorem memWfFrom_memSet : ∀ (m : List Host.Cell) (lo x : Nat) (v : Byte), memWfFrom lo m = true → lo ≤ x →
    memWfFrom lo (memSet m x v) = true
  | [], lo, x, v, _, hx => by
    unfold memSet; split
    · rfl
    · simp_all [memWfFrom]
  | (a, b) :: r, lo, x, v, h, hx => by
    have h0 := h
    simp only [memWfFrom, Bool.and_eq_true, decide_eq_true_eq] at h
    unfold memSet
    split_ifs with h1 h2 h3 h4
    · exact h0
    · simp only [memWfFrom, Bool.and_eq_true, decide_eq_true_eq]
      exact ⟨⟨hx, h2⟩, ⟨by omega, h.1.2⟩, h.2⟩
    · exact memWfFrom_mono r lo (a + 1) (by omega) h.2
    · subst h3
      simp only [memWfFrom, Bool.and_eq_true, decide_eq_true_eq]
      exact ⟨⟨hx, h4⟩, h.2⟩
    · simp only [memWfFrom, Bool.and_eq_true, decide_eq_true_eq]
      exact ⟨h.1, memWfFrom_memSet r (a + 1) x v h.2 (by omega)⟩

theorem memWf_memSet {m : List Host.Cell} (h : Memory.wf m = true) (x : Nat) (v : Byte) : Memory.wf (memSet m x v) = true :=
  memWfFrom_memSet m 0 x v h (Nat.zero_le _)

/-- Read after write, at the same place and at any other. -/
theorem memGet_memSet : ∀ (m : List Host.Cell) (lo x y : Nat) (v : Byte), memWfFrom lo m = true →
    memGet (memSet m x v) y = if y = x then v else memGet m y
  | [], lo, x, y, v, _ => by
    unfold memSet
    by_cases hv : v = blankByte <;> by_cases hy : y = x <;> simp_all [memGet]
    omega
  | (a, b) :: r, lo, x, y, v, h => by
    simp only [memWfFrom, Bool.and_eq_true, decide_eq_true_eq] at h
    have ih := memGet_memSet r (a + 1) x y v h.2
    unfold memSet
    split_ifs with h1 h2 h3 h4 h5 h6 h7
    all_goals try (by_cases hy : y = x)
    all_goals simp_all [memGet]
    all_goals try (split_ifs <;> first | rfl | omega)
    all_goals try omega
    · exact memGet_below r (x + 1) x h.2 (by omega)
    · split_ifs with h8 h9
      · omega
      · exact memGet_below r (x + 1) y h.2 (by omega)
      · rfl

/-! Bytes of the machine's memory. -/

/-- A location that holds what is written: it exists, and its die's uncore is on. -/
def Present (s : State) (x : Nat) : Prop := x < nowhere ∧ s.uncoreOff x = false

theorem State.setByte_mem {s : State} {x : Nat} (h : Present s x) (v : Byte) : s.setByte x v = { s with mem := memSet s.mem x v } := by
  unfold State.setByte; rw [if_neg]; intro g; rcases g with g | g
  · have := h.1; omega
  · rw [h.2] at g; cases g

theorem State.byte_setByte {s : State} {x : Nat} (h : Present s x) (hw : s.memWf) (v : Byte) (y : Nat) :
    (s.setByte x v).byte y = if y = x then v else s.byte y := by
  rw [State.setByte_mem h]; exact memGet_memSet s.mem 0 x y v hw

theorem State.memWf_setByte {s : State} (hw : s.memWf) (x : Nat) (v : Byte) : (s.setByte x v).memWf := by
  unfold State.setByte; split
  · exact hw
  · exact memWf_memSet hw x v

theorem writeBytes_memWf : ∀ (bs : List Byte) (s : State) (x : Nat), s.memWf → (writeBytes s x bs).memWf
  | [], _, _, h => h
  | b :: r, s, x, h => writeBytes_memWf r (s.setByte x b) (x + 1) (State.memWf_setByte h x b)

/-- Whether a location exists does not depend on what memory holds. -/
theorem State.setByte_stored {s : State} (x : Nat) (v : Byte) (y : Nat) : Present (s.setByte x v) y ↔ Present s y := by
  have e : (s.setByte x v).dies = s.dies := by unfold State.setByte; split <;> rfl
  unfold Present State.uncoreOff State.die; rw [e]

/-- The bytes after a write of several. -/
theorem writeBytes_byte : ∀ (bs : List Byte) (s : State) (x y : Nat), s.memWf → (∀ i, i < bs.length → Present s (x + i)) →
    (writeBytes s x bs).byte y = if x ≤ y ∧ y < x + bs.length then (bs[y - x]?).getD 0 else s.byte y
  | [], s, x, y, _, _ => by simp [writeBytes]
  | b :: r, s, x, y, h, g => by
    have g0 : Present s x := by simpa using g 0 (by simp)
    have ih := writeBytes_byte r (s.setByte x b) (x + 1) y (State.memWf_setByte h x b) (fun i hi => by
      rw [State.setByte_stored]; have := g (i + 1) (by simpa using hi); rwa [show x + 1 + i = x + (i + 1) by omega])
    simp only [writeBytes, List.length_cons]
    rw [ih, State.byte_setByte g0 h]
    by_cases hy : y = x
    · subst hy; simp
    · by_cases h2 : x + 1 ≤ y ∧ y < x + 1 + r.length
      · rw [if_pos h2, if_pos (by omega), show y - x = (y - (x + 1)) + 1 by omega]; simp
      · rw [if_neg h2, if_neg hy, if_neg (by omega)]

theorem writeHome_memWf {s : State} (h : s.memWf) (x : Nat) (bs : List Byte) : (writeHome s x bs).memWf :=
  writeBytes_memWf bs _ x h

/-- A write at home changes memory and the marks of poison alone. -/
theorem writeBytes_rest : ∀ (bs : List Byte) (s : State) (x : Nat), { writeBytes s x bs with mem := s.mem } = s
  | [], _, _ => rfl
  | b :: r, s, x => by
    have ih := writeBytes_rest r (s.setByte x b) (x + 1)
    have e : { s.setByte x b with mem := s.mem } = s := by unfold State.setByte; split <;> rfl
    exact (congrArg (fun t : State => { t with mem := s.mem }) ih).trans e

theorem writeHome_rest (s : State) (x : Nat) (bs : List Byte) :
    { writeHome s x bs with mem := s.mem, poison := s.poison } = s := by
  have h := writeBytes_rest bs { s with poison := s.marksPast x bs.length } x
  exact congrArg (fun t : State => { t with mem := s.mem, poison := s.poison }) h

theorem readHome_length : ∀ (n : Nat) (s : State) (x : Nat), (readHome s x n).length = n
  | 0, _, _ => rfl
  | n + 1, s, x => congrArg Nat.succ (readHome_length n s (x + 1))

theorem readHome_get (n : Nat) (s : State) : ∀ (x i : Nat), i < n → (readHome s x n)[i]? = some (s.byte (x + i)) := by
  induction n with
  | zero => intro x i h; omega
  | succ n ih =>
    intro x i h
    cases i with
    | zero => rfl
    | succ i =>
      have e : (readHome s x (n + 1))[i + 1]? = (readHome s (x + 1) n)[i]? := rfl
      rw [e, ih (x + 1) i (by omega), show x + 1 + i = x + (i + 1) by omega]

/-- Bytes read are those of the memory, one by one. -/
theorem readHome_eq_map (n : Nat) (s : State) (x : Nat) : readHome s x n = (List.range n).map fun i => s.byte (x + i) := by
  apply List.ext_getElem?; intro i
  by_cases h : i < n
  · rw [readHome_get n s x i h]; simp [h]
  · rw [List.getElem?_eq_none (by rw [readHome_length]; omega), List.getElem?_eq_none (by simp; omega)]

theorem bytesOf_length : ∀ (n v : Nat), (bytesOf n v).length = n
  | 0, _ => rfl
  | n + 1, v => by simp [bytesOf, bytesOf_length n]

theorem writeHome_byte {s : State} (hw : s.memWf) (x : Nat) (bs : List Byte) (g : ∀ i, i < bs.length → Present s (x + i)) (y : Nat) :
    (writeHome s x bs).byte y = if x ≤ y ∧ y < x + bs.length then (bs[y - x]?).getD 0 else s.byte y :=
  writeBytes_byte bs _ x y hw g

/-- Bytes read back where they were written. -/
theorem readHome_writeHome {s : State} (hw : s.memWf) (x : Nat) (bs : List Byte) (g : ∀ i, i < bs.length → Present s (x + i)) :
    readHome (writeHome s x bs) x bs.length = bs := by
  apply List.ext_getElem?; intro i
  by_cases h : i < bs.length
  · rw [readHome_get _ _ _ _ h, writeHome_byte hw x bs g, if_pos (by omega)]
    simp [h]
  · rw [List.getElem?_eq_none (by rw [readHome_length]; omega), List.getElem?_eq_none (by omega)]

theorem ofBytes_bytesOf : ∀ (n v : Nat), ofBytes (bytesOf n v) = v % 256 ^ n
  | 0, v => (Nat.mod_one v).symm
  | n + 1, v => by
    have h : v % 256 ^ (n + 1) = v % 256 + 256 * (v / 256 % 256 ^ n) := by
      rw [show 256 ^ (n + 1) = 256 * 256 ^ n from Nat.pow_succ'.trans rfl, Nat.mod_mul]
    rw [h, bytesOf, ofBytes, ofBytes_bytesOf n, BitVec.toNat_ofNat]

end Sys2Proof.Machine
end

