-- ==== Sys2Proof/Laws/Canonical.lean ====
section
/-! SUPPORT. Every operation that writes memory keeps the canonical form of its list. -/

namespace Sys2Proof.Machine

/-! Lists of bytes. -/

/-- What is left of a list in canonical form is in canonical form. -/
theorem memWfFrom_filter (p : Host.Cell → Bool) : ∀ (m : List Host.Cell) (lo : Nat), memWfFrom lo m = true →
    memWfFrom lo (m.filter p) = true
  | [], _, _ => rfl
  | (a, b) :: r, lo, h => by
    simp only [memWfFrom, Bool.and_eq_true, decide_eq_true_eq] at h
    have ih := memWfFrom_filter p r (a + 1) h.2
    by_cases e : p (a, b) = true
    · rw [List.filter_cons_of_pos e]
      simp only [memWfFrom, Bool.and_eq_true, decide_eq_true_eq]; exact ⟨h.1, ih⟩
    · rw [List.filter_cons_of_neg e]; exact memWfFrom_mono _ lo (a + 1) (by omega) ih

theorem memWf_foldl_memSet : ∀ (cs m : List Host.Cell), Memory.wf m = true →
    Memory.wf (cs.foldl (fun a c => memSet a c.1 c.2) m) = true
  | [], _, h => h
  | c :: r, m, h => memWf_foldl_memSet r (memSet m c.1 c.2) (memWf_memSet h c.1 c.2)

theorem memWf_foldl {α : Type} {f : List Host.Cell → α → List Host.Cell} (hf : ∀ m a, Memory.wf m = true → Memory.wf (f m a) = true) :
    ∀ (l : List α) (m : List Host.Cell), Memory.wf m = true → Memory.wf (l.foldl f m) = true
  | [], _, h => h
  | a :: r, m, h => memWf_foldl hf r (f m a) (hf m a h)

theorem restoreMem_wf {m : List Host.Cell} (h : Memory.wf m = true) (key : BitVec 256) (i : CkptImage) :
    Memory.wf (restoreMem m key i) = true :=
  memWf_foldl (fun m g h => memWf_foldl_memSet (g.cells key) m h) i.segments _ (memWfFrom_filter _ m 0 h)

/-! States. -/

theorem reset_memWf : State.reset.memWf := rfl

/-- A change of anything but memory keeps the form. -/
theorem State.memWf_of_mem {s t : State} (h : s.memWf) (e : t.mem = s.mem) : t.memWf := by unfold State.memWf; rw [e]; exact h

/-- A run of changes that each keep the form keeps it. -/
theorem foldl_memWf {α : Type} {f : State → α → State} (hf : ∀ s a, s.memWf → (f s a).memWf) :
    ∀ (l : List α) (s : State), s.memWf → (l.foldl f s).memWf
  | [], _, h => h
  | a :: r, s, h => foldl_memWf hf r (f s a) (hf s a h)

theorem modCore_memWf {s : State} (h : s.memWf) (c : Cl) (f : Core → Core) : (s.modCore c f).memWf :=
  State.memWf_of_mem h rfl

theorem clearRange_memWf {s : State} (h : s.memWf) (lo n : Nat) : (clearRange lo n s).memWf :=
  memWfFrom_filter _ s.mem 0 h

theorem writeCells_memWf {s : State} (h : s.memWf) (lo : Nat) (cs : List Host.Cell) : (writeCells lo cs s).memWf :=
  foldl_memWf (fun _ c g => State.memWf_setByte g (lo + c.1) c.2) cs s h

theorem setWordAt_memWf {s : State} (h : s.memWf) (a : Nat) (v : W) : (setWordAt s a v).memWf := writeHome_memWf h a _

/-! The data cache. -/

theorem writeBackLine_memWf {s : State} (h : s.memWf) (c : Cl) (d : DLine) : (writeBackLine c d s).memWf := by
  unfold writeBackLine; split
  · exact writeHome_memWf h _ _
  · refine foldl_memWf (fun z i g => ?_) _ s h
    split
    · exact State.memWf_setByte g _ _
    · exact g

theorem putByte_memWf {s : State} (h : s.memWf) (x : Nat) (v : Byte) (run : Nat) : (s.putByte x v run).memWf :=
  State.memWf_setByte (s := { s with poison := if 63 ≤ run ∧ x % 64 = 63 then s.marksPast (x / 64 * 64) 64 else s.poison }) h x v

theorem cleanLine_memWf {s : State} (h : s.memWf) (c : Cl) (l : Nat) : (cleanLine c l s).memWf := by
  unfold cleanLine; split
  · exact modCore_memWf (writeBackLine_memWf h c _) c _
  · exact h

theorem modCore_mem (s : State) (c : Cl) (f : Core → Core) : (s.modCore c f).mem = s.mem := rfl

theorem dropLine_eq (c : Cl) (l : Nat) (s : State) :
    dropLine c l s = (cleanLine c l s).modCore c fun x => { x with dcache := x.dcache.filter (·.line ≠ l) } := rfl

theorem dropLine_memWf {s : State} (h : s.memWf) (c : Cl) (l : Nat) : (dropLine c l s).memWf :=
  State.memWf_of_mem (cleanLine_memWf h c l) (by rw [dropLine_eq, modCore_mem])

theorem cleanAll_memWf {s : State} (h : s.memWf) (c : Cl) : (cleanAll c s).memWf :=
  foldl_memWf (fun _ d g => cleanLine_memWf g c d.line) _ s h

theorem dropAll_eq (c : Cl) (s : State) : dropAll c s = (cleanAll c s).modCore c fun x => { x with dcache := [] } := rfl

theorem dropAll_memWf {s : State} (h : s.memWf) (c : Cl) : (dropAll c s).memWf :=
  State.memWf_of_mem (cleanAll_memWf h c) (by rw [dropAll_eq, modCore_mem])

theorem fillLine_memWf {s : State} (h : s.memWf) (c : Cl) (l : Nat) : (fillLine c l s).memWf := by
  unfold fillLine; split
  · exact h
  · simp only []
    refine modCore_memWf ?_ c _
    split
    · exact dropLine_memWf h c _
    · exact h

theorem cacheLoad_memWf {s : State} (h : s.memWf) (c : Cl) (x n : Nat) : (cacheLoad c x n s).1.memWf := by
  cases e : lineOf c x with
  | none => rw [cacheLoad, e]; exact h
  | some l => rw [cacheLoad, e]; exact fillLine_memWf h c l

theorem cacheStore_memWf {s : State} (h : s.memWf) (c : Cl) (x : Nat) (bs : List Byte) : (cacheStore c x bs s).memWf := by
  cases e : lineOf c x with
  | none => rw [cacheStore, e]; exact writeHome_memWf h x bs
  | some l => rw [cacheStore, e]; exact modCore_memWf (fillLine_memWf h c l) c _

theorem engineWrite_memWf {s : State} (h : s.memWf) (c : Cl) (x : Nat) (bs : List Byte) : (engineWrite c x bs s).memWf :=
  writeHome_memWf (foldl_memWf (fun _ l g => dropLine_memWf g c l) _ s h) x bs

/-! Tables kept as lists. -/

theorem tabGet_tabSet {α : Type} (v dflt : α) (k j : Nat) : ∀ l : List (Nat × α),
    tabGet (tabSet l k v) j dflt = if j = k then v else tabGet l j dflt
  | [] => by simp only [tabSet, tabGet, eq_comm]
  | (i, a) :: r => by
    have ih := tabGet_tabSet v dflt k j r
    unfold tabSet
    by_cases h1 : i = k
    · subst h1; rw [if_pos rfl]
      by_cases e : i = j
      · simp [tabGet, e]
      · simp [tabGet, e, Ne.symm e]
    · rw [if_neg h1]
      by_cases h2 : k < i
      · rw [if_pos h2]; simp only [tabGet, eq_comm]
      · rw [if_neg h2]; simp only [tabGet, ih]
        by_cases e : i = j
        · subst e; simp [h1]
        · simp [e]

/-! Frames under keys, rows of the accumulator kept. -/

theorem modTile_mem (s : State) (c : Cl) (y : Tl) (f : Tile → Tile) : (s.modTile c y f).mem = s.mem := rfl

theorem recryptFrame_memWf {s : State} (h : s.memWf) (old new : BitVec 512) (f : Nat) : (recryptFrame old new f s).memWf :=
  foldl_memWf (fun z _ hz => writeBytes_memWf _ z _ hz) _ _ h

theorem keyFrame_memWf {s : State} (h : s.memWf) (k f : Nat) : (keyFrame k f s).memWf := by
  unfold keyFrame
  dsimp only
  split
  · exact h
  split
  · split
    · exact h
    · exact State.memWf_of_mem (s := if _ then s else _) (by split <;> [exact h; exact recryptFrame_memWf h _ _ _]) rfl
  · exact State.memWf_of_mem h rfl

theorem underKey_memWf {s : State} (h : s.memWf) (a k : Nat) : (s.underKey a k).memWf := by
  unfold State.underKey; split_ifs <;> [exact keyFrame_memWf h _ _; exact h]

theorem entryView_memWf {s : State} (h : s.memWf) (e : TlbEntry) (va : Nat) : (s.entryView e va).memWf := underKey_memWf h _ _

theorem translateStream_memWf {s : State} (h : s.memWf) (v : Site) (va : Nat) (rd wr : Bool) : (translateStream s v va rd wr).1.memWf := by
  unfold translateStream
  dsimp only
  split
  · exact State.memWf_of_mem (entryView_memWf h _ _) (modTile_mem ..)
  · exact h

theorem keepAcc_memWf {s : State} (h : s.memWf) (a n : Nat) : (keepAcc a n s).memWf := by
  unfold keepAcc; split_ifs <;> [exact State.memWf_of_mem h (modTile_mem ..); exact h]

end Sys2Proof.Machine
end

