-- ==== Sys2Proof/Laws/Engine.lean ====
section
/-! SUPPORT. The parts of an engine element in its tile's scratchpad: places, reads, writes, and the entry after it. -/

namespace Sys2Proof.Machine

/-! Running the element monad. -/

theorem EngM.run_bind {α β : Type} (x : EngM α) (g : α → EngM β) (r : Run) :
    (x >>= g) r = match x r with
      | .ok (a, r1) => g a r1
      | .error h => .error h := by
  show (StateT.bind x g) r = _
  unfold StateT.bind
  cases h : x r with
  | error e => rfl
  | ok p => rfl

theorem EngM.bind_ok {α β : Type} {x : EngM α} {g : α → EngM β} {r r1 : Run} {a : α} (h : x r = .ok (a, r1)) :
    (x >>= g) r = g a r1 := by rw [EngM.run_bind, h]

theorem EngM.get_ok (r : Run) : (get : EngM Run) r = .ok (r, r) := rfl
theorem EngM.pure_ok {α : Type} (a : α) (r : Run) : (pure a : EngM α) r = .ok (a, r) := rfl
theorem EngM.set_ok (r1 r : Run) : (set r1 : EngM PUnit) r = .ok (⟨⟩, r1) := rfl
theorem EngM.modify_ok (g : Run → Run) (r : Run) : (modify g : EngM PUnit) r = .ok (⟨⟩, g r) := rfl

/-! Operands in the tile's own scratchpad or accumulator. -/

theorem unitOf_le (ty : Nat) : unitOf ty ≤ 8 := by unfold unitOf; split_ifs <;> omega
theorem unitOf_pos (ty : Nat) : 0 < unitOf ty := by unfold unitOf; split_ifs <;> omega

theorem addrOf_plain {f : Block} {o : Nat} (hd : ndimOf f = 0) (h29 : fld f 29 = 0) (h : fld f (10 + 4 * o) < 2 ^ 64) (i : List Nat)
    (t : Tl) : addrOf f o i t = fld f (10 + 4 * o) := by
  have hb : fbits f 29 (16 * o) 16 = 0 := by simp [fbits, h29, bits]
  unfold addrOf addrAs baseOf
  rw [hd, hb]
  simp [wrap64, sx]; omega

theorem swizzle_none (sp a : Nat) : swizzle 0 sp a = a := by unfold swizzle; rw [if_neg]; omega

/-- An element at byte a of a tile's own space: its location. -/
def ownLoc (v : Site) (sp a : Nat) : Nat := if sp = 0 then spadLoc v.c v.t a else accLoc v.c v.t a

/-- The bytes a space of the tile's own has. -/
def ownSize (sp : Nat) : Nat := if sp = 0 then 0xc0000 else 0x40000

theorem ownLoc_add (v : Site) (sp a i : Nat) : ownLoc v sp a + i = ownLoc v sp (a + i) := by
  unfold ownLoc; split <;> exact Nat.add_assoc _ _ _

/-- The bytes of a tile's own space that an element at address x takes fit in it. -/
def Fits8 (sp ty x n : Nat) : Prop := (if ty = 5 then x / 2 else x) + n ≤ ownSize sp

theorem place_own {v : Site} {o ty sp x : Nat} {rd wr : Bool} {r : Run} (h0 : spaceOf r.b.f o = sp) (hs : sp = 0 ∨ sp = 2)
    (h1 : swzOf r.b.f o = 0) (h3 : Fits8 sp ty x (unitOf ty)) (hf : r.feed = none) :
    place v o ty x rd wr r = .ok ((.loc (ownLoc v sp (if ty = 5 then x / 2 else x)) sp, x % 2), r) := by
  have hp := unitOf_pos ty
  unfold Fits8 at h3
  generalize hy : (if ty = 5 then x / 2 else x) = y at h3
  have hi : inspaceEng r.s v.c sp y (unitOf ty) = true := by
    obtain rfl | rfl := hs <;> simp only [ownSize, if_true, show ¬(2 = 0) by omega, if_false] at h3 <;> unfold inspaceEng <;> simp <;> omega
  have ht : engineTgt r.s v sp y = .loc (ownLoc v sp y) sp := by
    obtain rfl | rfl := hs <;> simp only [ownSize, if_true, show ¬(2 = 0) by omega, if_false] at h3 <;> unfold engineTgt ownLoc
    · simp only [if_true]; rw [Nat.mod_eq_of_lt (by omega)]
    · simp only [show ¬(2 = 0) by omega, if_false, if_true]; rw [Nat.mod_eq_of_lt (by omega)]
  unfold place
  rw [EngM.bind_ok (EngM.get_ok r)]
  simp only [h0, h1, hy, swizzle_none, elemBytes, hi, Bool.not_true, Bool.and_false, ht, hf, Option.isSome_none, Bool.false_eq_true, if_false]
  generalize ownLoc v sp y = a
  rfl

/-- The byte of a place. -/
def byteOf (ty l : Nat) : Nat := if ty = 5 then l / 2 else l

/-- An element at a place of its tile's own, in one form for both spaces. -/
theorem At.own {v : Site} {f : Block} {o a l n : Nat} (h : At v f o a l n) :
    (spaceOf f o = 0 ∨ spaceOf f o = 2) ∧ Fits8 (spaceOf f o) (tyOf f o) a n ∧
      byteOf (tyOf f o) l = ownLoc v (spaceOf f o) (if tyOf f o = 5 then a / 2 else a) ∧ (tyOf f o = 5 → l % 2 = a % 2) := by
  obtain ⟨-, ⟨h0, hx, hn⟩ | ⟨h0, hx, hn⟩⟩ := h
  · refine ⟨.inl h0, by rw [h0]; exact hn, ?_, ?_⟩ <;> by_cases h5 : tyOf f o = 5 <;>
      simp only [h5, if_true, if_false] at hx ⊢ <;> (rw [hx]; simp [byteOf, ownLoc, h0, h5]; try omega)
  · refine ⟨.inr h0, by rw [h0]; exact hn, ?_, ?_⟩ <;> by_cases h5 : tyOf f o = 5 <;>
      simp only [h5, if_true, if_false] at hx ⊢ <;> (rw [hx]; simp [byteOf, ownLoc, h0, h5]; try omega)

theorem At.notVault {v : Site} {f : Block} {o a l n : Nat} (h : At v f o a l n) : spaceOf f o ≠ 3 := by
  obtain h | h := h.own.1 <;> rw [h] <;> decide

theorem ownSize_le (sp : Nat) : ownSize sp ≤ 0xc0000 := by unfold ownSize; split <;> omega

theorem placeOf_at {v : Site} {o a l n : Nat} {rd wr : Bool} {r : Run} (h : At v r.b.f o a l n)
    (hn : unitOf (tyOf r.b.f o) ≤ n) (hf : r.feed = none) :
    place v o (tyOf r.b.f o) a rd wr r = .ok ((.loc (byteOf (tyOf r.b.f o) l) (spaceOf r.b.f o), a % 2), r) := by
  obtain ⟨hs, hm, hb, -⟩ := h.own
  rw [hb]
  exact place_own rfl hs h.1 (le_trans (Nat.add_le_add_left hn _) hm) hf

theorem placeAt_own {v : Site} {o l n : Nat} {i : List Nat} {rd wr : Bool} {r : Run} (h : At v r.b.f o (addrOf r.b.f o i v.t) l n)
    (hn : unitOf (tyOf r.b.f o) ≤ n) (hf : r.feed = none) :
    placeAt v o i rd wr r = .ok ((.loc (byteOf (tyOf r.b.f o) l) (spaceOf r.b.f o), addrOf r.b.f o i v.t % 2), r) := by
  unfold placeAt
  rw [EngM.bind_ok (EngM.get_ok r)]
  exact placeOf_at h hn hf

/-- The one element of a nest of no dimensions lies where its operand starts. -/
theorem Lies.elem {v : Site} {f : Block} {o l n : Nat} (h : Lies v f o l n) (hd : ndimOf f = 0) (h29 : fld f 29 = 0) (i : List Nat) :
    At v f o (addrOf f o i v.t) l n := by
  have hm := h.own.2.1
  have := ownSize_le (spaceOf f o)
  unfold Fits8 at hm
  rw [addrOf_plain hd h29 (by split at hm <;> omega)]; exact h

/-- A location of a tile's own is always there, and never off. -/
theorem own_stored (s : State) (v : Site) (sp x : Nat) (h : x < 2 ^ 20) : Present s (ownLoc v sp x) := by
  have hc := v.c.isLt; have ht := v.t.isLt
  unfold ownLoc; split
  · refine ⟨?_, ?_⟩
    · unfold spadLoc nowhere; omega
    · unfold State.uncoreOff hbmSize spadLoc; simp; omega
  · refine ⟨?_, ?_⟩
    · unfold accLoc nowhere; omega
    · unfold State.uncoreOff hbmSize accLoc; simp; omega

theorem At.present {v : Site} {f : Block} {o a l n : Nat} (h : At v f o a l n) (s : State) {i : Nat} (hi : i < n) :
    Present s (byteOf (tyOf f o) l + i) := by
  obtain ⟨hs, hm, hb, -⟩ := h.own
  have := ownSize_le (spaceOf f o)
  unfold Fits8 at hm
  rw [hb, ownLoc_add]; exact own_stored s v _ _ (by omega)

theorem notHot {f : Block} {o : Nat} (h : spaceOf f o = 0 ∨ spaceOf f o = 2) (n : Nat) : countsHot f o n = 0 := by
  unfold countsHot; obtain h | h := h <;> rw [h] <;> simp

/-! Accesses of a run that nothing disturbs. -/

/-- A run of no audit and no poison, whose tile's accumulator rows were not written in its tick. -/
structure Calm (v : Site) (r : Run) : Prop where
  feed : r.feed = none
  clean : r.s.poison = []
  audit : r.b.audit = none
  quiet : tickOf r.s.cycle ≤ (r.s.tile v.c v.t).accOld.1 → (r.s.tile v.c v.t).accOld.2 = []

/-- The same of a block without flush to zero. -/
structure Plain (v : Site) (r : Run) : Prop extends Calm v r where
  noFlush : ftzOf r.b.f = false

/-- A location of a space holds what the engines of the cluster see: it is of no vault, or no line is cached. -/
def Uncached (v : Site) (r : Run) (sp : Nat) : Prop := sp = 3 → (r.s.core v.c).dcache = []

theorem Uncached.of_ne {v : Site} {r : Run} {sp : Nat} (h : sp ≠ 3) : Uncached v r sp := fun e => absurd e h

theorem engineByte_empty {s : State} {c : Cl} (h : (s.core c).dcache = []) (x : Nat) : engineByte s c x = s.byte x := by
  have e : ∀ l, (s.core c).line? l = none := fun l => by unfold Core.line?; rw [h]; rfl
  unfold engineByte
  cases lineOf c x with
  | none => rfl
  | some l => simp only [Option.bind_some, e]

theorem dropLine_empty {s : State} {c : Cl} (h : (s.core c).dcache = []) (l : Nat) : dropLine c l s = s := by
  have e : (s.core c).line? l = none := by unfold Core.line?; rw [h]; rfl
  have e1 : cleanLine c l s = s := by unfold cleanLine; rw [e]
  have e2 : { s.core c with dcache := (s.core c).dcache.filter (·.line ≠ l) } = s.core c := by
    have : (s.core c).dcache.filter (·.line ≠ l) = (s.core c).dcache := by rw [h]; rfl
    rw [this]
  have e3 : s.cores.set c.val (s.core c) = s.cores := by
    apply Vector.ext; intro i hi
    rw [Vector.getElem_set]; split
    · rename_i h; subst h; rfl
    · rfl
  unfold dropLine; rw [e1]
  show { s with cores := s.cores.set c.val { s.core c with dcache := (s.core c).dcache.filter (·.line ≠ l) } } = s
  rw [e2, e3]

theorem engineWrite_empty {s : State} {c : Cl} (h : (s.core c).dcache = []) (x : Nat) (bs : List Byte) :
    engineWrite c x bs s = writeHome s x bs := by
  have e : ∀ ls : List Nat, ls.foldl (fun s l => dropLine c l s) s = s := by
    intro ls; induction ls with
    | nil => rfl
    | cons l r ih => rw [List.foldl_cons, dropLine_empty h, ih]
  unfold engineWrite; dsimp only; rw [e]

theorem seenByte_quiet {s : State} {v : Site} (h : tickOf s.cycle ≤ (s.tile v.c v.t).accOld.1 → (s.tile v.c v.t).accOld.2 = [])
    (lead a : Nat) : s.seenByte v (tickOf s.cycle + lead) a = s.byte a := by
  unfold State.seenByte; dsimp only; split
  · rename_i g; rw [h (by omega)]; rfl
  · rfl

/-- Where there is no audit, what is read or written enters no signature. -/
theorem note_none {b : Entry} (h : b.audit = none) (bs : List Byte) : b.note bs = b := by
  unfold Entry.note; rw [h]; cases b; simp_all

theorem sign_none {b : Entry} (h : b.audit = none) (bs : List Byte) : b.sign bs = b := by
  unfold Entry.sign; rw [h]; cases b; simp_all

theorem poisonedIn_clean {s : State} (h : s.poison = []) {x : Nat} (g : Present s x) (n : Nat) : s.poisonedIn x n = none := by
  unfold State.poisonedIn; rw [g.2, h]; rfl

theorem replayed_none {n : Nat} {r : Run} (h : r.feed = none) : replayed n r = .ok (none, r) := by
  unfold replayed; rw [EngM.bind_ok (EngM.get_ok r), h]; rfl

theorem orReplay_none {α : Type} {n : Nat} {use : List Byte → α} {k : EngM α} {r : Run} (h : r.feed = none) : orReplay n use k r = k r := by
  unfold orReplay; rw [EngM.bind_ok (replayed_none h)]

/-- A read at a location, uncached, that no buffer counts. -/
theorem fetch_loc {v : Site} {o a sp n : Nat} {r : Run} (hr : Calm v r) (h3 : Uncached v r sp) (hp : Present r.s a) (h0 : countsHot r.b.f o n = 0) :
    fetch? v o (.loc a sp) n r = .ok (some (readHome r.s a n), r) := by
  have e : ({ r with hot := r.hot + 0, b := r.b } : Run) = r := rfl
  have hb : ∀ i, (if sp = 3 then engineByte r.s v.c (a + i) else r.s.seenByte v (tickOf r.s.cycle + leadOf v r.b.f) (a + i)) = r.s.byte (a + i) := by
    intro i; split
    · exact engineByte_empty (h3 ‹_›) _
    · exact seenByte_quiet hr.quiet _ _
  unfold fetch?
  rw [orReplay_none hr.feed, EngM.bind_ok (EngM.get_ok r)]
  simp only [poisonedIn_clean hr.clean hp, h0, note_none hr.audit, e, readHome_eq_map, hb]
  rw [EngM.bind_ok (EngM.set_ok r r)]
  rfl

theorem fetchBytes_loc {v : Site} {o a sp n : Nat} {r : Run} (hr : Calm v r) (h3 : Uncached v r sp) (hp : Present r.s a) (h0 : countsHot r.b.f o n = 0) :
    fetchBytes v o (.loc a sp) n r = .ok (readHome r.s a n, r) := by
  unfold fetchBytes; rw [EngM.bind_ok (fetch_loc hr h3 hp h0)]; rfl

theorem unitOf_half : unitOf 5 = 1 := rfl

/-- The code at a place, read under the block's ftz bit. -/
theorem readCode_flush {v : Site} {o ty l sp q : Nat} {r : Run} (hr : Calm v r) (h3 : Uncached v r sp) (hp : Present r.s (byteOf ty l))
    (h0 : countsHot r.b.f o (unitOf ty) = 0) (hq : ty = 5 → q = l % 2) :
    readCode v o ty (.loc (byteOf ty l) sp, q) r = .ok (flushCode (ftzOf r.b.f) ty (codeAt r.s ty l), r) := by
  unfold readCode elemBytes
  dsimp only
  rw [EngM.bind_ok (fetchBytes_loc hr h3 hp h0), EngM.bind_ok (EngM.get_ok r)]
  by_cases h5 : ty = 5
  · subst h5
    simp only [hq rfl, codeAt, byteOf, if_true, unitOf_half]
    simp only [readHome, ofBytes]; rfl
  · simp only [if_neg h5, codeAt, byteOf]; rfl

theorem readCode_loc {v : Site} {o ty l sp q : Nat} {r : Run} (hr : Plain v r) (h3 : Uncached v r sp) (hp : Present r.s (byteOf ty l))
    (h0 : countsHot r.b.f o (unitOf ty) = 0) (hq : ty = 5 → q = l % 2) :
    readCode v o ty (.loc (byteOf ty l) sp, q) r = .ok (codeAt r.s ty l, r) := by
  have e : flushCode (ftzOf r.b.f) ty (codeAt r.s ty l) = codeAt r.s ty l := by
    unfold flushCode; simp only [hr.noFlush, Bool.false_eq_true, false_and, if_false]
  rw [readCode_flush hr.toCalm h3 hp h0 hq, e]

/-- What writes leave of a run: memory after them in order, nothing else of the machine, nothing of the entry but its count
of bytes written. -/
structure Wrote (r r1 : Run) (ws : List Stored) : Prop where
  bytes : ∀ y, r1.s.byte y = afterWrites ws r.s.byte y
  form : r.s.memWf → r1.s.memWf
  rest : { r1.s with mem := r.s.mem } = r.s
  hot : r1.hot = r.hot
  wrote : r1.wrote = r.wrote
  names : r1.names = r.names
  feed : r1.feed = r.feed
  entry : { r1.b with wb := r.b.wb } = r.b

theorem Wrote.refl (r : Run) : Wrote r r [] := ⟨fun _ => rfl, id, rfl, rfl, rfl, rfl, rfl, rfl⟩

theorem Wrote.trans {r r1 r2 : Run} {ws ws1 : List Stored} (h : Wrote r r1 ws) (g : Wrote r1 r2 ws1) : Wrote r r2 (ws ++ ws1) := by
  refine ⟨fun y => ?_, fun f => g.form (h.form f), ?_, g.hot.trans h.hot, g.wrote.trans h.wrote, g.names.trans h.names,
    g.feed.trans h.feed, ?_⟩
  · rw [g.bytes, show r1.s.byte = afterWrites ws r.s.byte from funext h.bytes]; unfold afterWrites; rw [List.foldl_append]
  · have e := congrArg (fun x : State => { x with mem := r.s.mem }) g.rest; exact e.trans h.rest
  · have e := congrArg (fun x : Entry => { x with wb := r.b.wb }) g.entry; exact e.trans h.entry

/-- Writes leave the block as it was, and the run undisturbed. -/
theorem Wrote.block {r r1 : Run} {ws : List Stored} (h : Wrote r r1 ws) : r1.b.f = r.b.f := by
  have e := congrArg Entry.f h.entry; dsimp only at e; exact e

theorem Wrote.plain {v : Site} {r r1 : Run} {ws : List Stored} (h : Wrote r r1 ws) (g : Plain v r) : Plain v r1 := by
  have hp := congrArg State.poison h.rest
  have hc := congrArg State.cores h.rest
  have hy := congrArg State.cycle h.rest
  have ha := congrArg Entry.audit h.entry
  dsimp only at hp hc hy ha
  refine ⟨⟨h.feed.trans g.feed, hp.trans g.clean, ha.trans g.audit, ?_⟩, by rw [h.block]; exact g.noFlush⟩
  unfold State.tile State.core; rw [hc, hy]; exact g.quiet

theorem marksPast_clean {s : State} (h : s.poison = []) (x n : Nat) : s.marksPast x n = [] := by
  unfold State.marksPast; rw [h]; split <;> rfl

theorem writeHome_poison {s : State} (hp : s.poison = []) (x : Nat) (bs : List Byte) : (writeHome s x bs).poison = [] := by
  have h : (writeHome s x bs).poison = s.marksPast x bs.length := congrArg State.poison (writeBytes_rest bs _ x)
  rw [h, marksPast_clean hp]

/-- Bytes written at a location of the tile's own. -/
theorem writeLoc_loc {v : Site} {o a sp n : Nat} {bs signed : List Byte} {r : Run} (hr : Calm v r) (h3 : Uncached v r sp) (hm : r.s.memWf)
    (hs : ∀ i, i < bs.length → Present r.s (a + i)) (hh : countsHot r.b.f o bs.length = 0) :
    ∃ r1, writeLoc v o a sp bs n signed r = .ok (⟨⟩, r1) ∧ Wrote r r1 [.bytes a bs] := by
  have hb : r.b.wroteBytes o n signed = { r.b with wb := if o = 0 then r.b.wb + n else r.b.wb } := by
    unfold Entry.wroteBytes; rw [sign_none]; exact hr.audit
  have hw : (if sp = 3 then engineWrite v.c a bs r.s else writeHome r.s a bs) = writeHome r.s a bs := by
    split
    · exact engineWrite_empty (h3 ‹_›) _ _
    · rfl
  unfold writeLoc
  refine ⟨_, by rw [EngM.bind_ok (EngM.get_ok r)]; exact EngM.set_ok _ r, ?_, ?_, ?_, ?_, ?_, ?_, ?_, ?_⟩
  · intro y; simp only [hr.feed, hw, Option.isSome_none, Bool.false_eq_true, if_false]; exact writeHome_byte hm a bs hs y
  · intro h; simp only [hr.feed, hw, Option.isSome_none, Bool.false_eq_true, if_false]; exact writeHome_memWf h a bs
  · have e := writeHome_rest r.s a bs
    have hq : (writeHome r.s a bs).poison = r.s.poison := (writeHome_poison hr.clean a bs).trans hr.clean.symm
    simp only [hr.feed, hw, Option.isSome_none, Bool.false_eq_true, if_false]
    rw [← hq] at e; exact e
  · simp [hh]
  · simp [hr.clean]
  · rfl
  · rfl
  · dsimp only; rw [hb]

theorem storeBytes_loc {v : Site} {o a sp : Nat} {bs : List Byte} {r : Run} (hr : Calm v r) (h3 : Uncached v r sp) (hm : r.s.memWf)
    (hs : ∀ i, i < bs.length → Present r.s (a + i)) (hh : countsHot r.b.f o bs.length = 0) :
    ∃ r1, storeBytes v o (.loc a sp) bs r = .ok (⟨⟩, r1) ∧ Wrote r r1 [.bytes a bs] := writeLoc_loc hr h3 hm hs hh

/-- A code written at a place of the tile's own, whole bytes or half of one. -/
theorem writeCode_loc {v : Site} {o l sp q code : Nat} {r : Run} (hr : Calm v r) (h3 : Uncached v r sp) (hm : r.s.memWf)
    (hs : ∀ i, i < unitOf (tyOf r.b.f o) → Present r.s (byteOf (tyOf r.b.f o) l + i)) (hh : ∀ n, countsHot r.b.f o n = 0)
    (hq : tyOf r.b.f o = 5 → q = l % 2) :
    ∃ r1, writeCode v o (tyOf r.b.f o) (.loc (byteOf (tyOf r.b.f o) l) sp, q) code r = .ok (⟨⟩, r1) ∧
      Wrote r r1 (codeTo r.b.f o l code) := by
  unfold writeCode codeTo
  by_cases h5 : tyOf r.b.f o = 5
  · simp only [h5, if_true, byteOf, unitOf_half] at hs ⊢
    unfold storeNibble; rw [EngM.bind_ok (EngM.get_ok r)]
    obtain ⟨r1, h1, h2⟩ := writeLoc_loc (v := v) (o := o) (a := l / 2) (n := q) (bs := bytesOf 1 (setBits (r.s.byte (l / 2)).toNat (4 * q) 4 code))
      (signed := bytesOf 1 (code * 2 ^ (4 * q))) hr h3 hm (by rw [bytesOf_length]; exact hs) (hh _)
    have hb : (if sp = 3 then engineByte r.s v.c (l / 2) else r.s.byte (l / 2)) = r.s.byte (l / 2) := by
      split
      · exact engineByte_empty (h3 ‹_›) _
      · rfl
    refine ⟨r1, by dsimp only; rw [hb]; exact h1, ⟨fun y => ?_, h2.form, h2.rest, h2.hot, h2.wrote, h2.names, h2.feed, h2.entry⟩⟩
    rw [h2.bytes]
    simp only [afterWrites, List.foldl_cons, List.foldl_nil, Stored.on, bytesOf_length, hq h5]
    by_cases hy : y = l / 2
    · subst hy; rw [if_pos (by omega), if_pos rfl]; simp [bytesOf]
    · rw [if_neg (by omega), if_neg hy]
  · rw [if_neg h5, if_neg h5]
    have e : byteOf (tyOf r.b.f o) l = l := by unfold byteOf; rw [if_neg h5]
    rw [e] at hs ⊢
    exact storeBytes_loc hr h3 hm (by rw [bytesOf_length]; exact hs) (hh _)

theorem valAt_own {v : Site} {o l n : Nat} {i : List Nat} {r : Run} (hr : Plain v r) (h : At v r.b.f o (addrOf r.b.f o i v.t) l n)
    (hn : unitOf (tyOf r.b.f o) ≤ n) : valAt v o i r = .ok (valOf (tyOf r.b.f o) (codeAt r.s (tyOf r.b.f o) l), r) := by
  unfold valAt readVal
  rw [EngM.bind_ok (placeAt_own h hn hr.feed), EngM.bind_ok (EngM.get_ok r)]
  have hp : Present r.s (byteOf (tyOf r.b.f o) l) := by have := h.present r.s (i := 0) (lt_of_lt_of_le (unitOf_pos _) hn); simpa using this
  rw [EngM.bind_ok (readCode_loc hr (.of_ne h.notVault) hp (notHot h.own.1 _) fun h5 => (h.own.2.2.2 h5).symm)]
  rfl

theorem drawLane_one {i0 : Nat} {r : Run} (hm : rmOf r.b.f ≠ 5) : drawLane i0 r = .ok (0, r) := by
  unfold drawLane; rw [EngM.bind_ok (EngM.get_ok r), if_neg hm]; rfl

theorem encodeVal_one {ty i0 : Nat} {sat : Bool} {x : Val} {r : Run} (hf : ftzOf r.b.f = false) (hm : rmOf r.b.f ≠ 5) :
    encodeVal ty i0 sat x r = .ok (codeUnder r.b.f sat ty x, r) := by
  have hd : (do let r ← get; return encodeWith ty (rmOf r.b.f) 0 sat (ftzOf r.b.f) x : EngM Nat) r = .ok (codeUnder r.b.f sat ty x, r) := by
    rw [EngM.bind_ok (EngM.get_ok r)]
    simp only [encodeWith, flushCode, hf, Bool.false_eq_true, false_and, if_false]
    rfl
  unfold encodeVal
  split
  · rw [EngM.bind_ok (drawLane_one hm)]; exact hd
  · exact hd

theorem writeVal_at {v : Site} {l sp q i0 : Nat} {sat : Bool} {y : Val} {r : Run} (hr : Plain v r) (h3 : Uncached v r sp) (hm : r.s.memWf)
    (hs : ∀ i, i < unitOf (tyOf r.b.f 0) → Present r.s (byteOf (tyOf r.b.f 0) l + i)) (hh : ∀ n, countsHot r.b.f 0 n = 0)
    (hq : tyOf r.b.f 0 = 5 → q = l % 2) (h5 : rmOf r.b.f ≠ 5) :
    ∃ r1, writeVal v (tyOf r.b.f 0) (.loc (byteOf (tyOf r.b.f 0) l) sp, q) i0 sat y r = .ok (⟨⟩, r1) ∧
      Wrote r r1 (codeToD r.b.f l (codeUnder r.b.f sat (tyOf r.b.f 0) y)) := by
  unfold writeVal
  rw [EngM.bind_ok (encodeVal_one hr.noFlush h5)]
  exact writeCode_loc hr.toCalm h3 hm hs hh hq

/-- The saturate choice of a conversion is that of its code. -/
theorem convertedCode_eq (f : Block) (x : Val) :
    convertedCode f x = codeUnder f (convertSat (tyOf f 1) (tyOf f 0) (satOf f) x) (tyOf f 0) x := by
  unfold convertedCode convertSat
  have key : ∀ y : XVal, (!(y.isInf && decide ((tyOf f 0 = 0 ∧ 1 ≤ tyOf f 1 ∧ tyOf f 1 ≤ 3) ∨ (1 ≤ tyOf f 0 ∧ tyOf f 0 ≤ 2 ∧ tyOf f 1 = 3))) && satOf f) =
      (satOf f && !(y.isInf && ((tyOf f 0 == 0 && (tyOf f 1 == 1 || tyOf f 1 == 2 || tyOf f 1 == 3)) || ((tyOf f 0 == 1 || tyOf f 0 == 2) && tyOf f 1 == 3)))) := by
    intro y
    have e : decide ((tyOf f 0 = 0 ∧ 1 ≤ tyOf f 1 ∧ tyOf f 1 ≤ 3) ∨ (1 ≤ tyOf f 0 ∧ tyOf f 0 ≤ 2 ∧ tyOf f 1 = 3)) =
        ((tyOf f 0 == 0 && (tyOf f 1 == 1 || tyOf f 1 == 2 || tyOf f 1 == 3)) || ((tyOf f 0 == 1 || tyOf f 0 == 2) && tyOf f 1 == 3)) := by
      rw [Bool.eq_iff_iff]; simp; omega
    rw [e, Bool.and_comm]
  cases x with
  | f y => dsimp only; rw [key]
  | i z =>
    dsimp only
    congr 1
    rw [Bool.and_comm, Bool.eq_iff_iff]; simp

/-- A table entry in the scratchpad. -/
theorem auxRead_own {v : Site} {off n : Nat} {r : Run} (hr : Calm v r) (h : off < 2 ^ 20) :
    auxRead v off n r = .ok (ofBytes (readHome r.s (spadLoc v.c v.t off) n), r) := by
  have g := own_stored r.s v 0 off h
  unfold ownLoc at g; rw [if_pos rfl] at g
  have e := poisonedIn_clean hr.clean g n
  unfold auxRead
  rw [Nat.mod_eq_of_lt h]
  generalize spadLoc v.c v.t off = a at e ⊢
  rw [orReplay_none hr.feed, EngM.bind_ok (EngM.get_ok r)]
  simp only [e, note_none hr.audit]
  rw [EngM.bind_ok (EngM.set_ok _ r)]
  exact EngM.pure_ok _ r

theorem auxWrite_own {v : Site} {off n x : Nat} {r : Run} (hr : Calm v r) (hm : r.s.memWf) (h : off + n ≤ 2 ^ 20) (hn : 0 < n) :
    ∃ r1, auxWrite v off n x r = .ok (⟨⟩, r1) ∧ Wrote r r1 [.bytes (spadLoc v.c v.t off) (bytesOf n x)] := by
  unfold auxWrite; rw [Nat.mod_eq_of_lt (by omega)]
  refine storeBytes_loc hr (.of_ne (by decide)) hm (fun i hi => ?_) (by unfold countsHot; simp)
  rw [bytesOf_length] at hi
  have e : spadLoc v.c v.t off + i = spadLoc v.c v.t (off + i) := Nat.add_assoc _ _ _
  rw [e]; exact own_stored r.s v 0 (off + i) (by omega)

/-! The row of a one-element block. -/

theorem extOf_one {f : Block} (h : ndimOf f = 0) (j : Nat) : extOf f j = 1 := by unfold extOf; rw [h]; rfl

theorem totalOf_one {f : Block} (h : ndimOf f = 0) : totalOf f = 1 := by
  have e : extOf f = fun _ => 1 := funext (extOf_one h)
  unfold totalOf; rw [e]; rfl

/-- One step that performs is the row: the entry after it ends. -/
theorem runSteps_one {step : Nat → EngM Unit} {grain : Nat} {r r1 : Run} (hg : 0 < grain) (h : step 0 r = .ok (⟨⟩, r1)) :
    runSteps step grain 1 1 0 r = ({ r1 with b := { r1.b with n := r1.b.n + 1 } }, none) := by
  have hm : max 1 (min grain 1) = 1 := by omega
  unfold runSteps
  rw [if_neg (by omega)]
  rw [show (step 0).run r = .ok (⟨⟩, r1) from h]
  simp only [Nat.sub_zero, hm]
  unfold runSteps; rfl

theorem raiseWb_mem (s : State) (v : Site) (b : Entry) : (raiseWb s v b).mem = s.mem := by
  unfold raiseWb; dsimp only; split <;> rfl

theorem raiseWb_cycle (s : State) (v : Site) (b : Entry) : (raiseWb s v b).cycle = s.cycle := by
  unfold raiseWb; dsimp only; split <;> rfl

theorem modTile_strands (s : State) (c c' : Cl) (t : Tl) (g : Tile → Tile) :
    ((s.modTile c t g).core c').strands = (s.core c').strands := by
  by_cases h : c' = c
  · subst h; simp [State.modTile, State.setTile, Core.setTile]
  · simp [State.modTile, State.setTile, h]

theorem raiseWb_strands (s : State) (v : Site) (b : Entry) (c : Cl) : ((raiseWb s v b).core c).strands = (s.core c).strands := by
  unfold raiseWb; dsimp only; split
  · exact modTile_strands ..
  · rfl

theorem modTile_tile (s : State) (c : Cl) (t : Tl) (g : Tile → Tile) : (s.modTile c t g).tile c t = g (s.tile c t) := by
  simp only [State.modTile, State.setTile, State.tile, Core.setTile, Core.tile, State.core_modCore]
  exact Vector.get_set_same (i := t) ..

theorem modTile_queue (s : State) (c : Cl) (t t' : Tl) (g : Tile → Tile) (hg : ∀ y, (g y).queues = y.queues) :
    ((s.modTile c t' g).tile c t).queues = (s.tile c t).queues := by
  by_cases h : t = t'
  · subst h; rw [modTile_tile, hg]
  · have : (s.modTile c t' g).tile c t = s.tile c t := by
      simp only [State.tile, State.modTile, State.setTile, Core.setTile, State.core_modCore, Core.tile]
      exact Vector.get_set_other _ _ h
    rw [this]

theorem raiseWb_queue (s : State) (v : Site) (b : Entry) :
    ((raiseWb s v b).tile v.c v.t).queues = (s.tile v.c v.t).queues := by
  unfold raiseWb; dsimp only; split
  · exact modTile_queue _ _ _ _ _ fun _ => rfl
  · rfl

/-- The entries of a queue once one of them is replaced. -/
theorem putEntry_entries (s : State) (v : Site) (b : Entry) :
    (((putEntry s v b).tile v.c v.t).queue v.e).entries =
      ((s.tile v.c v.t).queue v.e).entries.map fun x => if x.seq = b.seq then b else x := by
  have hq : Fin.ofNat 4 v.e.code = ⟨v.e.code % 4, Nat.mod_lt _ (by decide)⟩ := rfl
  unfold putEntry
  rw [modTile_tile]
  simp only [Tile.setQueue, Tile.queue, hq]
  exact congrArg Queue.entries (Vector.get_set_same (i := (⟨v.e.code % 4, Nat.mod_lt _ (by decide)⟩ : Fin 4)) ..)

theorem raiseWb_tile (s : State) (v : Site) (b : Entry) (q : Vector Queue 4) (g : Vector Ring 32) :
    { (raiseWb s v b).tile v.c v.t with queues := q, rings := g } = { s.tile v.c v.t with queues := q, rings := g } := by
  unfold raiseWb; dsimp only; split
  · rename_i h
    by_cases ht : v.t = objTile ((b.f[3]?).getD 0) v.t
    · rw [← ht, modTile_tile]; rfl
    · have : ∀ f, (s.modTile v.c (objTile ((b.f[3]?).getD 0) v.t) f).tile v.c v.t = s.tile v.c v.t := by
        intro f
        simp only [State.tile, State.modTile, State.setTile, Core.setTile, State.core_modCore, Core.tile]
        exact Vector.get_set_other _ _ ht
      rw [this]
  · rfl

theorem putEntry_tile (s : State) (v : Site) (b : Entry) (q : Vector Queue 4) (g : Vector Ring 32) :
    { (putEntry s v b).tile v.c v.t with queues := q, rings := g } = { s.tile v.c v.t with queues := q, rings := g } := by
  unfold putEntry; rw [modTile_tile]; rfl

theorem modTile_other (s : State) (c c' : Cl) (t : Tl) (g : Tile → Tile) (h : c' ≠ c) : (s.modTile c t g).core c' = s.core c' := by
  simp [State.modTile, State.setTile, h]

theorem modTile_tiles (s : State) (c : Cl) (t t' : Tl) (g : Tile → Tile) (h : t' ≠ t) : (s.modTile c t g).tile c t' = s.tile c t' := by
  simp only [State.tile, State.modTile, State.setTile, Core.setTile, State.core_modCore, Core.tile]
  exact Vector.get_set_other _ _ h

theorem modTile_core (s : State) (c : Cl) (t : Tl) (g : Tile → Tile) :
    { (s.modTile c t g).core c with tiles := (s.core c).tiles } = s.core c := by
  simp [State.modTile, State.setTile, Core.setTile]

theorem modTile_rest (s : State) (c : Cl) (t : Tl) (g : Tile → Tile) : { s.modTile c t g with cores := s.cores } = s := rfl

theorem raiseWb_eq (s : State) (v : Site) (b : Entry) : raiseWb s v b = s ∨
    ∃ t g, raiseWb s v b = s.modTile v.c t (fun y => y.setRing g (let r := y.ring g; { r with wb := max r.wb (min r.z b.wb) })) := by
  unfold raiseWb; dsimp only; split
  · exact .inr ⟨_, _, rfl⟩
  · exact .inl rfl

/-- What a row that ends leaves: an entry put back, a ring raised. -/
theorem after_row (s : State) (v : Site) (b1 b2 : Entry) {n : Nat} (hs : b2.seq = b1.seq) (hp : b2.phase = .ending ∧ b2.n = n) :
    let u := raiseWb (putEntry s v b2) v b1
    (∀ q ∈ ((u.tile v.c v.t).queue v.e).entries, q.seq = b1.seq → q.phase = .ending ∧ q.n = n) ∧
    ((u.tile v.c v.t).queue v.e).entries.filter (·.seq ≠ b1.seq) = ((s.tile v.c v.t).queue v.e).entries.filter (·.seq ≠ b1.seq) ∧
    (∀ e, e ≠ v.e → (u.tile v.c v.t).queue e = (s.tile v.c v.t).queue e) ∧
    (∀ q g, { u.tile v.c v.t with queues := q, rings := g } = { s.tile v.c v.t with queues := q, rings := g }) ∧
    (∀ t, t ≠ v.t → { u.tile v.c t with rings := (s.tile v.c t).rings } = s.tile v.c t) ∧
    { u.core v.c with tiles := (s.core v.c).tiles } = s.core v.c ∧
    (∀ c, c ≠ v.c → u.core c = s.core c) ∧ { u with cores := s.cores } = s := by
  intro u
  have hq : ∀ e, (u.tile v.c v.t).queue e = ((putEntry s v b2).tile v.c v.t).queue e := fun e =>
    congrArg (fun q : Vector Queue 4 => q.get (Fin.ofNat 4 e.code)) (raiseWb_queue (putEntry s v b2) v b1)
  refine ⟨?_, ?_, ?_, ?_, ?_, ?_, ?_, ?_⟩
  · intro q hqm hqs
    rw [hq, putEntry_entries] at hqm
    obtain ⟨z, -, hz⟩ := List.mem_map.1 hqm
    by_cases hzs : z.seq = b2.seq
    · rw [if_pos hzs] at hz; subst hz; exact hp
    · rw [if_neg hzs] at hz; subst hz; exact absurd (hqs.trans hs.symm) hzs
  · rw [hq, putEntry_entries]
    induction ((s.tile v.c v.t).queue v.e).entries with
    | nil => rfl
    | cons z l ih =>
      have e2 : decide (b2.seq ≠ b1.seq) = false := by simp [hs]
      by_cases hz : z.seq = b1.seq
      · have e1 : decide (z.seq ≠ b1.seq) = false := by simp [hz]
        rw [List.map_cons, if_pos (hz.trans hs.symm), List.filter_cons_of_neg (by rw [e2]; decide),
          List.filter_cons_of_neg (by rw [e1]; decide), ih]
      · have e1 : decide (z.seq ≠ b1.seq) = true := by simp [hz]
        rw [List.map_cons, if_neg (fun h => hz (h.trans hs)), List.filter_cons_of_pos (by rw [e1]), List.filter_cons_of_pos (by rw [e1]), ih]
  · intro e he
    rw [hq]
    unfold putEntry; rw [modTile_tile]
    have hne : (Fin.ofNat 4 e.code) ≠ (⟨v.e.code % 4, Nat.mod_lt _ (by decide)⟩ : Fin 4) := by
      revert he; cases e <;> cases v.e <;> decide
    simp only [Tile.setQueue, Tile.queue]
    exact Vector.get_set_other _ _ hne
  · intro q g; rw [show u = raiseWb (putEntry s v b2) v b1 from rfl, raiseWb_tile, putEntry_tile]
  · intro t ht
    have e0 : (putEntry s v b2).tile v.c t = s.tile v.c t := modTile_tiles s v.c v.t t _ ht
    obtain h | ⟨t1, g, h⟩ := raiseWb_eq (putEntry s v b2) v b1
    · rw [show u = _ from h, e0]
    · rw [show u = _ from h]
      by_cases h1 : t = t1
      · subst h1; rw [modTile_tile, e0]; rfl
      · rw [modTile_tiles _ _ _ _ _ h1, e0]
  · have e0 := modTile_core s v.c v.t fun y => y.setQueue v.e { y.queue v.e with entries := (y.queue v.e).entries.map fun x => if x.seq = b2.seq then b2 else x }
    obtain h | ⟨t1, g, h⟩ := raiseWb_eq (putEntry s v b2) v b1
    · rw [show u = _ from h]; exact e0
    · rw [show u = _ from h]
      have e1 := modTile_core (putEntry s v b2) v.c t1 (fun y => y.setRing g (let r := y.ring g; { r with wb := max r.wb (min r.z b1.wb) }))
      have e2 := congrArg (fun x : Core => { x with tiles := (s.core v.c).tiles }) e1
      exact e2.trans e0
  · intro c hc
    have e0 : (putEntry s v b2).core c = s.core c := modTile_other s v.c c v.t _ hc
    obtain h | ⟨t1, g, h⟩ := raiseWb_eq (putEntry s v b2) v b1
    · rw [show u = _ from h, e0]
    · rw [show u = _ from h, modTile_other _ _ _ _ _ hc, e0]
  · obtain h | ⟨t1, g, h⟩ := raiseWb_eq (putEntry s v b2) v b1
    · rw [show u = _ from h]; rfl
    · rw [show u = _ from h]; rfl

/-- What a row has changed in the accumulator store is kept with the tile, and nothing else of the machine differs. -/
theorem keepOld_eq (s : State) (v : Site) (f : Block) (s1 : State) : keepOld s v f s1 = s1 ∨
    ∃ o : Tile → Nat × List OldByte, keepOld s v f s1 = s1.modTile v.c v.t fun y => { y with accOld := o y } := by
  unfold keepOld
  split
  · exact .inl rfl
  · dsimp only
    split
    · exact .inl rfl
    · exact .inr ⟨_, rfl⟩

structure KeptOld (s1 s2 : State) (v : Site) : Prop where
  rest : { s2 with cores := s1.cores } = s1
  cores : ∀ c, c ≠ v.c → s2.core c = s1.core c
  core : { s2.core v.c with tiles := (s1.core v.c).tiles } = s1.core v.c
  tiles : ∀ t, t ≠ v.t → s2.tile v.c t = s1.tile v.c t
  tile : { s2.tile v.c v.t with accOld := (s1.tile v.c v.t).accOld } = s1.tile v.c v.t

theorem keepOld_kept (s : State) (v : Site) (f : Block) (s1 : State) : KeptOld s1 (keepOld s v f s1) v := by
  obtain h | ⟨o, h⟩ := keepOld_eq s v f s1
  · rw [h]; exact ⟨rfl, fun _ _ => rfl, rfl, fun _ _ => rfl, rfl⟩
  · rw [h]
    exact ⟨modTile_rest .., fun c hc => modTile_other _ _ _ _ _ hc, modTile_core .., fun t ht => modTile_tiles _ _ _ _ _ ht,
      by rw [modTile_tile]⟩

/-- A block whose row performs whole in one event: the event answers what the row left, its entry put back as ending. -/
theorem operator_row {s : State} {v : Site} {b : Entry} {op : Nat} {body : OpBody} (h : GoesNow s v b op)
    (hc : body.clear s v b = true) {r1 : Run}
    (hr : runSteps (body.step v) (body.grain b.f) (extOf b.f 0) (if body.whole then extOf b.f 0 else 1) 0 ⟨s, b, 0, [], [], none⟩ = (r1, none))
    (ht : totalOf b.f ≤ r1.b.n) (hw : r1.wrote = []) (hh : r1.hot = 0) :
    ∃ b2 : Entry, b2.seq = r1.b.seq ∧ (b2.phase = .ending ∧ b2.n = r1.b.n) ∧
      operator op body v.c v.t v.e s = .next (raiseWb (putEntry (keepOld s v b.f r1.s) v b2) v r1.b) := by
  obtain ⟨c, t, e⟩ := v
  have hguard : ¬(b.fault.isSome = true ∨ tickOf s.cycle + 1 < b.ready ∨ body.clear s ⟨c, t, e⟩ b = false) := by
    rw [h.free, hc]; have := h.due; simp; omega
  let s1 := keepOld s ⟨c, t, e⟩ b.f r1.s
  let u := body.share ⟨c, t, e⟩ b
  let next := max b.ready (tickOf s.cycle) + stepFactor s ⟨c, t, e⟩ * (body.ticks s ⟨c, t, e⟩ b + (b.used + u.1) / u.2)
  let b2 : Entry := { r1.b with
    ready := max (if (b.used + u.1) % u.2 = 0 then next else next + 1) (landedBy s1 ⟨c, t, e⟩), phase := .ending }
  refine ⟨b2, rfl, ⟨rfl, rfl⟩, ?_⟩
  have hrun : ((s.tile c t).queue e).runner = some b := h.runner
  have hcut : (Option.isSome (none : Option Halt) || b.cutRow) = false := by rw [h.whole]; rfl
  have hcopy (b1 : Entry) (z : State) : copyReads b b1 z = z := by unfold copyReads; rw [h.noAudit]
  unfold operator; rw [hrun]
  simp only [h.code, if_true]
  unfold runRow
  rw [if_neg hguard]
  simp only [h.first, Nat.zero_mod, hr, hcut, Bool.false_eq_true, if_false, hw, hh, clearPoison, countBytes, List.isEmpty_nil, if_true, ht, true_or, hcopy]
  rfl

/-! An operator on one element, or on one row. -/

/-- What a row has to show for its operator to perform it: its writes in order, the tile and the machine after them, and that
it touches nothing else. -/
structure StepDone (s : State) (b : Entry) (v : Site) (r1 : Run) (ws : List Stored) (tile : Tile) (rest : State) : Prop where
  bytes : ∀ y, r1.s.byte y = afterWrites ws s.byte y
  queues : (r1.s.tile v.c v.t).queues = (s.tile v.c v.t).queues
  tile : { r1.s.tile v.c v.t with rings := (s.tile v.c v.t).rings, accOld := (s.tile v.c v.t).accOld } = tile
  tiles : ∀ t, t ≠ v.t → r1.s.tile v.c t = s.tile v.c t
  core : { r1.s.core v.c with tiles := (s.core v.c).tiles } = s.core v.c
  cores : ∀ c, c ≠ v.c → r1.s.core c = s.core c
  rest : { r1.s with mem := s.mem, cores := s.cores } = rest
  hot : r1.hot = 0
  wrote : r1.wrote = []
  seq : r1.b.seq = b.seq

theorem Wrote.done {s : State} {b : Entry} {v : Site} {r1 : Run} {ws : List Stored} (h : Wrote ⟨s, b, 0, [], [], none⟩ r1 ws) :
    StepDone s b v r1 ws (s.tile v.c v.t) s := by
  have hc := congrArg State.cores h.rest
  have e2 := congrArg Entry.seq h.entry
  dsimp only at hc e2
  have hcc : ∀ c, r1.s.core c = s.core c := fun c => congrArg (fun q : Vector Core 64 => q.get c) hc
  have ht : ∀ t, r1.s.tile v.c t = s.tile v.c t := fun t => congrArg (fun y : Core => y.tile t) (hcc v.c)
  exact ⟨h.bytes, by rw [ht], by rw [ht], fun t _ => ht t, by rw [hcc], fun c _ => hcc c,
    by rw [← hc]; exact h.rest, h.hot, h.wrote, e2⟩

/-- A row that changes its tile alone, queues, rings and rows kept apart. -/
theorem StepDone.of_tile {s : State} {b : Entry} {v : Site} {r1 : Run} {g : Tile → Tile} (hs : r1.s = s.modTile v.c v.t g)
    (hq : ∀ y, (g y).queues = y.queues) (hg : ∀ y, (g y).rings = y.rings) (ho : ∀ y, (g y).accOld = y.accOld) (hh : r1.hot = 0)
    (hw : r1.wrote = []) (hb : r1.b.seq = b.seq) : StepDone s b v r1 [] (g (s.tile v.c v.t)) s := by
  refine ⟨fun y => by rw [hs]; rfl, ?_, ?_, ?_, ?_, ?_, by rw [hs]; rfl, hh, hw, hb⟩
  · rw [hs, modTile_tile, hq]
  · rw [hs, modTile_tile, ← hg (s.tile v.c v.t), ← ho (s.tile v.c v.t)]
  · intro t ht; rw [hs, modTile_tiles _ _ _ _ _ ht]
  · rw [hs, modTile_core]
  · intro c hc; rw [hs, modTile_other _ _ _ _ _ hc]

/-- Ending the entry of a row that is done leaves all that the row was to leave. -/
theorem StepDone.allDone {s : State} {b b2 : Entry} {v : Site} {r1 : Run} {ws : List Stored} {tile : Tile} {rest : State} {n : Nat}
    (hd : StepDone s b v r1 ws tile rest) (h2 : b2.seq = r1.b.seq) (hp : b2.phase = .ending ∧ b2.n = n) :
    AllDone s (raiseWb (putEntry (keepOld s v b.f r1.s) v b2) v r1.b) v b n ws tile rest := by
  have hk := keepOld_kept s v b.f r1.s
  have hkq : ((keepOld s v b.f r1.s).tile v.c v.t).queues = (r1.s.tile v.c v.t).queues := by
    have e := congrArg Tile.queues hk.tile; dsimp only at e; exact e
  generalize keepOld s v b.f r1.s = s1 at hk hkq ⊢
  obtain ⟨a1, a2, a3, a4, a5, a6, a7, a8⟩ := after_row s1 v r1.b b2 h2 hp
  refine ⟨?_, ?_, ?_, ?_, ?_, ?_, ?_, ?_, ?_⟩
  · rw [← hd.seq]; exact a1
  · rw [← hd.seq, a2]; unfold Tile.queue; rw [hkq, hd.queues]
  · intro e he; rw [a3 e he]; unfold Tile.queue; rw [hkq, hd.queues]
  · intro y
    have m1 := congrArg State.mem a8
    have m2 := congrArg State.mem hk.rest
    dsimp only at m1 m2
    exact (congrArg (fun m => memGet m y) (m1.trans m2)).trans (hd.bytes y)
  · have e1 := congrArg (fun y : Tile => { y with accOld := (s.tile v.c v.t).accOld }) (a4 (s.tile v.c v.t).queues (s.tile v.c v.t).rings)
    have e2 := congrArg (fun y : Tile => { y with queues := (s.tile v.c v.t).queues, rings := (s.tile v.c v.t).rings, accOld := (s.tile v.c v.t).accOld }) hk.tile
    have e3 := congrArg (fun y : Tile => { y with queues := (s.tile v.c v.t).queues }) hd.tile
    have e4 : { tile with queues := (s.tile v.c v.t).queues } = tile := by rw [← hd.tile, ← hd.queues]
    exact e1.trans (e2.trans (e3.trans e4))
  · intro t ht
    have e := a5 t ht
    rw [hk.tiles t ht, hd.tiles t ht] at e; exact e
  · have e1 := congrArg (fun x : Core => { x with tiles := (s.core v.c).tiles }) a6
    have e2 := congrArg (fun x : Core => { x with tiles := (s.core v.c).tiles }) hk.core
    exact e1.trans (e2.trans hd.core)
  · intro c hc; rw [a7 c hc, hk.cores c hc, hd.cores c hc]
  · have e1 := congrArg (fun x : State => { x with mem := s.mem, cores := s.cores }) a8
    have e2 := congrArg (fun x : State => { x with mem := s.mem, cores := s.cores }) hk.rest
    exact e1.trans (e2.trans hd.rest)

/-- An operator performs its element when its step does. -/
theorem performs_of {i : Cl → Tl → Instr} {e : Eng} {op : Nat} {p : Element} {body : OpBody}
    (hi : ∀ c t s, exec (i c t) s = operator op body c t e s)
    (hg : ∀ f, ndimOf f = 0 → 0 < body.grain f)
    (h : ∀ (s : State) (v : Site) (b : Entry) (x : Nat → Nat), v.e = e → OneElem s v b op →
      (∀ o ∈ p.used b.f, Lies v b.f o.1 (x o.1) o.2) → p.ok s v b.f x →
      body.clear s v b = true ∧
      ∃ r1, body.step v 0 ⟨s, b, 0, [], [], none⟩ = .ok (⟨⟩, r1) ∧ r1.b.n = 0 ∧
        StepDone s b v r1 (p.writes s v b.f x) (p.tile s v b.f x (s.tile v.c v.t)) (p.rest s v b.f x)) :
    Performs i e op p := by
  intro s c t b x v hone hx hok
  obtain ⟨hc, r1, hr, hn, hd⟩ := h s v b x rfl hone hx hok
  have e0 := extOf_one hone.dims 0
  let r2 : Run := { r1 with b := { r1.b with n := r1.b.n + 1 } }
  have hd2 : StepDone s b v r2 (p.writes s v b.f x) (p.tile s v b.f x (s.tile v.c v.t)) (p.rest s v b.f x) :=
    ⟨hd.bytes, hd.queues, hd.tile, hd.tiles, hd.core, hd.cores, hd.rest, hd.hot, hd.wrote, hd.seq⟩
  have hrow : runSteps (body.step v) (body.grain b.f) (extOf b.f 0) (if body.whole then extOf b.f 0 else 1) 0 ⟨s, b, 0, [], [], none⟩ = (r2, none) := by
    rw [e0, ite_self]; exact runSteps_one (hg b.f hone.dims) hr
  have h1 : r2.b.n = 1 := show r1.b.n + 1 = 1 by rw [hn]
  obtain ⟨b2, hs2, hp, hu⟩ := operator_row hone.toGoesNow hc hrow (by rw [totalOf_one hone.dims, h1]) hd2.wrote hd2.hot
  rw [h1] at hp
  exact ⟨_, (hi c t s).trans hu, hd2.allDone hs2 hp⟩

/-- An operator that takes a whole row in one step performs it when that step does. -/
theorem performsRow_of {i : Cl → Tl → Instr} {op : Nat} {p : RowOp} {body : OpBody}
    (hi : ∀ c t s, exec (i c t) s = operator op body c t .v s)
    (hg : ∀ f, body.grain f = extOf f 0)
    (h : ∀ (s : State) (v : Site) (b : Entry) (n : Nat) (x : Nat → Nat → Nat), v.e = .v → OneRow s v b op n →
      (∀ o ∈ p.used n, ∀ j < o.2, At v b.f o.1 (addrOf b.f o.1 [j] v.t) (x o.1 j) 8) → p.ok v b.f n x →
      body.clear s v b = true ∧
      ∃ r1, body.step v 0 ⟨s, b, 0, [], [], none⟩ = .ok (⟨⟩, r1) ∧ r1.b.n = 0 ∧
        StepDone s b v r1 (p.writes s v b.f n x) (p.tile s v b.f n x (s.tile v.c v.t)) s) :
    PerformsRow i op p := by
  intro s c t b n x v hone hx hok
  obtain ⟨hc, r1, hr, hn, hd⟩ := h s v b n x rfl hone hx hok
  have hpos := hone.some
  let r2 : Run := { r1 with b := { r1.b with n := r1.b.n + n } }
  have hd2 : StepDone s b v r2 (p.writes s v b.f n x) (p.tile s v b.f n x (s.tile v.c v.t)) s :=
    ⟨hd.bytes, hd.queues, hd.tile, hd.tiles, hd.core, hd.cores, hd.rest, hd.hot, hd.wrote, hd.seq⟩
  have hrow : runSteps (body.step v) (body.grain b.f) (extOf b.f 0) (if body.whole then extOf b.f 0 else 1) 0 ⟨s, b, 0, [], [], none⟩ = (r2, none) := by
    obtain ⟨k, hk⟩ : ∃ k, (if body.whole then extOf b.f 0 else 1) = k + 1 := by
      rw [hone.row]; split; exacts [⟨n - 1, by omega⟩, ⟨0, rfl⟩]
    have hm : max 1 (min (body.grain b.f) (n - 0)) = n := by rw [hg, hone.row]; omega
    rw [hk, hone.row]
    unfold runSteps
    rw [if_neg (by omega), show (body.step v 0).run ⟨s, b, 0, [], [], none⟩ = .ok (⟨⟩, r1) from hr]
    simp only [hm]
    cases k with
    | zero => rfl
    | succ k => unfold runSteps; rw [if_pos (by omega)]
  have h1 : r2.b.n = n := show r1.b.n + n = n by rw [hn]; omega
  have ht : totalOf b.f = n := by
    have e : (List.range 6).map (extOf b.f) = [n, 1, 1, 1, 1, 1] := by
      have g : ∀ j, 1 ≤ j → extOf b.f j = 1 := fun j hj => by unfold extOf; rw [hone.dims, if_neg (by omega)]
      simp [List.range, List.range.loop, hone.row, g]
    unfold totalOf; rw [e]; simp
  obtain ⟨b2, hs2, hp, hu⟩ := operator_row hone.toGoesNow hc hrow (by rw [ht, h1]) hd2.wrote hd2.hot
  rw [h1] at hp
  exact ⟨_, (hi c t s).trans hu, hd2.allDone hs2 hp⟩

end Sys2Proof.Machine
end

