-- ==== Sys2Proof/Laws/Issue.lean ====
section
/-! SUPPORT. What issuing a word does to the state, once for every word: its frame, and where its strand stands. -/

namespace Sys2Proof.Machine

/-! The frame of a word. -/

theorem WordFrame.refl (s : State) : WordFrame s s := ⟨rfl, fun _ _ => rfl, rfl, fun _ _ => rfl⟩

theorem WordFrame.cur_eq {s t : State} (h : WordFrame s t) : t.cur = s.cur := by
  have := congrArg State.cur h.outside; exact this

theorem WordFrame.cycle_eq {s t : State} (h : WordFrame s t) : t.cycle = s.cycle := by
  have := congrArg State.cycle h.outside; exact this

theorem WordFrame.mem_eq {s t : State} (h : WordFrame s t) : t.mem = s.mem := by
  have := congrArg State.mem h.outside; exact this

theorem WordFrame.trans {s t u : State} (h : WordFrame s t) (g : WordFrame t u) : WordFrame s u := by
  have hc := h.cur_eq
  refine ⟨?_, fun c hne => ?_, ?_, fun k hk => ?_⟩
  · have a := h.outside
    have b := g.outside
    unfold sameOutside at a b ⊢
    exact (congrArg (fun x : State => { x with cores := s.cores, fresh := s.fresh }) b).trans a
  · rw [g.clusters c (by rw [hc]; exact hne), h.clusters c hne]
  · have a := h.core
    have b := g.core
    unfold sameCore at a b ⊢
    simp only [State.myCore, hc] at b
    exact (congrArg (fun x : Core => { x with strands := s.myCore.strands, order := s.myCore.order, issued := s.myCore.issued }) b).trans a
  · have b := g.strands k (by rw [hc]; exact hk)
    rw [hc] at b
    exact (congrArg (fun x : Strand => { x with zWait := (s.strand s.cur.c k).zWait }) b).trans (h.strands k hk)

/-- An update of the current strand alone. -/
theorem WordFrame.modMe (s : State) (f : Strand → Strand) : WordFrame s (s.modMe f) := by
  refine ⟨rfl, fun c hc => ?_, ?_, fun k hk => ?_⟩
  · simp [State.modMe, hc]
  · simp only [sameCore, State.core_modMe, State.myCore]; rfl
  · simp only [State.strand, State.core_modMe, Core.strand_modStrand_ne _ _ hk]

theorem State.me_modMe (s : State) (f : Strand → Strand) : (s.modMe f).me = f s.me := by
  simp [State.me, State.modMe]

/-! The rendezvous. -/

/-- The rendezvous changes nothing of a core but its strands' marks. -/
theorem Core.settleRendezvous_frame (x : Core) : { x.settleRendezvous with strands := x.strands } = x := by
  unfold Core.settleRendezvous; simp only []; split <;> rfl

theorem Core.settleRendezvous_strand (x : Core) (k : Sn) :
    { x.settleRendezvous.strand k with zWait := (x.strand k).zWait } = x.strand k := by
  unfold Core.settleRendezvous; simp only []; split
  · simp [Core.strand]
  · rfl

theorem Core.arriveZ_frame (x : Core) (k : Sn) : { x.arriveZ k with strands := x.strands } = x := by
  unfold Core.arriveZ; split
  · have h := (x.modStrand k fun t => { t with zWait := true }).settleRendezvous_frame
    have := congrArg (fun y : Core => { y with strands := x.strands }) h
    exact this
  · rfl

theorem Core.arriveZ_strand (x : Core) (k j : Sn) :
    { (x.arriveZ k).strand j with zWait := (x.strand j).zWait } = x.strand j := by
  unfold Core.arriveZ; split
  · have h := (x.modStrand k fun t => { t with zWait := true }).settleRendezvous_strand j
    have := congrArg (fun y : Strand => { y with zWait := (x.strand j).zWait }) h
    simp only [] at this
    rw [this]
    by_cases e : j = k
    · subst e; simp
    · simp [e]
  · rfl

/-! Issue. -/

/-- A change of the current core that keeps all but strands, recency and issue slot, and of other strands only the mark. -/
theorem WordFrame.modMyCore (s : State) (f : Core → Core)
    (hf : { f s.myCore with strands := s.myCore.strands, order := s.myCore.order, issued := s.myCore.issued } = s.myCore)
    (hk : ∀ k, k ≠ s.cur.k → { (f s.myCore).strand k with zWait := (s.myCore.strand k).zWait } = s.myCore.strand k) :
    WordFrame s (s.modMyCore f) := by
  refine ⟨rfl, fun c hc => ?_, ?_, fun k hne => ?_⟩
  · simp [State.modMyCore, hc]
  · simp only [sameCore, State.core_modMyCore]; exact hf
  · simp only [State.strand, State.core_modMyCore]; exact hk k hne

/-- What issue does to the current core before the rendezvous. -/
def issuedCore (m : Marks) (s : State) : Core :=
  let x1 := s.myCore.modStrand s.cur.k fun t => { (t.applyGap s.cycle m.gap) with issues := t.issues + 1 }
  { x1 with order := x1.order.filter (· ≠ s.cur.k) ++ [s.cur.k], issued := s.cycle + 1 }

theorem issue_eq (m : Marks) (s : State) :
    issue m s = { s.modMyCore (fun _ =>
      if m.z ∧ (!s.me.inRep || decide ((s.me.xrep.setWidth 32 : BitVec 32) = 1)) = true then (issuedCore m s).arriveZ s.cur.k
      else issuedCore m s) with fresh := s.fresh + 1 } := rfl

theorem Strand.applyGap_eq (t : Strand) (cycle : Nat) (g : BitVec 2) :
    { t.applyGap cycle g with gapUntil := t.gapUntil, swUntil := t.swUntil } = t := by
  unfold Strand.applyGap; split
  · rfl
  · rfl
  · rfl
  · split <;> rfl

theorem WordFrame.fresh (s : State) (n : Nat) : WordFrame s { s with fresh := n } := ⟨rfl, fun _ _ => rfl, rfl, fun _ _ => rfl⟩

theorem issue_frame (m : Marks) (s : State) : WordFrame s (issue m s) := by
  rw [issue_eq]
  refine WordFrame.trans (WordFrame.modMyCore s _ ?_ ?_) (WordFrame.fresh _ _)
  · split
    · have h := (issuedCore m s).arriveZ_frame s.cur.k
      exact congrArg (fun y : Core => { y with strands := s.myCore.strands, order := s.myCore.order, issued := s.myCore.issued }) h
    · rfl
  · intro k hk
    have e : (issuedCore m s).strand k = s.myCore.strand k := by
      exact Core.strand_modStrand_ne s.myCore (fun t => { (t.applyGap s.cycle m.gap) with issues := t.issues + 1 }) hk
    split
    · rw [← e]; exact (issuedCore m s).arriveZ_strand s.cur.k k
    · rw [e]

/-- The strand that issues, behind its issue: its gap applies, it counts; its rendezvous mark is open here. -/
theorem issue_me (m : Marks) (s : State) :
    { (issue m s).me with zWait := s.me.zWait } = { s.me.applyGap s.cycle m.gap with issues := s.me.issues + 1, zWait := s.me.zWait } := by
  have hcur : (issue m s).cur = s.cur := (issue_frame m s).cur_eq
  have e : (issuedCore m s).strand s.cur.k = { s.me.applyGap s.cycle m.gap with issues := s.me.issues + 1 } := by
    exact Core.strand_modStrand s.myCore s.cur.k fun t => { (t.applyGap s.cycle m.gap) with issues := t.issues + 1 }
  have h1 : (issue m s).me = (if m.z ∧ (!s.me.inRep || decide ((s.me.xrep.setWidth 32 : BitVec 32) = 1)) = true then
      (issuedCore m s).arriveZ s.cur.k else issuedCore m s).strand s.cur.k := by
    unfold State.me State.strand; rw [hcur, issue_eq]
    exact congrArg (fun y : Core => y.strand s.cur.k) (State.core_modMyCore s (fun _ =>
      if m.z ∧ (!s.me.inRep || decide ((s.me.xrep.setWidth 32 : BitVec 32) = 1)) = true then (issuedCore m s).arriveZ s.cur.k
      else issuedCore m s))
  rw [h1]; split
  · have h := (issuedCore m s).arriveZ_strand s.cur.k s.cur.k
    rw [e] at h
    exact congrArg (fun y : Strand => { y with zWait := s.me.zWait }) h
  · rw [e]

/-- Issue leaves of its strand what no issue changes. -/
theorem issue_still (m : Marks) (s : State) : (issue m s).me.still = s.me.still := by
  have h := congrArg Strand.still (issue_me m s)
  have g := congrArg Strand.still (Strand.applyGap_eq s.me s.cycle m.gap)
  exact h.trans g

/-! Going on. -/

theorem loopCheck_still (t : Strand) (w : W) : (loopCheck t w).1.still = t.still := by
  unfold loopCheck; simp only []
  split_ifs <;> rfl

theorem endCheck_still (t : Strand) (w n : W) : (endCheck t w n).still = t.still := by
  have h := loopCheck_still t w
  unfold endCheck; exact h

theorem Strand.endRep_still (t : Strand) : t.endRep.still = t.still := by
  unfold Strand.endRep; rw [endCheck_still]; rfl

theorem Strand.advance_still (t : Strand) (target : Option W) : (t.advance target).still = t.still := by
  unfold Strand.advance; simp only []
  split
  · split
    · exact t.endRep_still
    · rfl
  · split
    · rfl
    · exact endCheck_still ..

theorem retire_frame (m : Marks) (s : State) : WordFrame s (retire m s) :=
  (issue_frame m s).trans (WordFrame.modMe _ _)

theorem retireTo_frame (m : Marks) (a : W) (s : State) : WordFrame s (retireTo m a s) :=
  (issue_frame m s).trans (WordFrame.modMe _ _)

theorem retire_still (m : Marks) (s : State) : (retire m s).me.still = s.me.still := by
  unfold retire; rw [State.me_modMe, Strand.advance_still, issue_still]

theorem retireTo_still (m : Marks) (a : W) (s : State) : (retireTo m a s).me.still = s.me.still := by
  unfold retireTo; rw [State.me_modMe, Strand.advance_still, issue_still]

/-! The frame of every word. -/

/-- A word whose fields fit, on a strand that runs, has its own effect. -/
theorem issueWord_next {s : State} {fields : List Nat} (h : Runs s) (hf : Fits s fields) (body : State → State) :
    issueWord fields body s = .next (body s) := by
  have hb : badField s.me.allot fields = none := by
    unfold badField
    rw [List.find?_eq_none]
    intro f hm; have := hf f hm; simp; omega
  unfold issueWord; unfold Runs at h; rw [if_pos h, hb]

/-- A word with a field beyond the allotment traps, whatever else it would do (02 R47). -/
theorem issueWord_trap {s : State} {fields : List Nat} {f : Nat} (h : Runs s) (hf : badField s.me.allot fields = some f)
    (body : State → State) :
    issueWord fields body s = .next (trap s 0x02 (BitVec.ofNat 16 f) (s.cur.word.setWidth 64)) := by
  unfold issueWord; unfold Runs at h; rw [if_pos h, hf]

/-- A register write and its retirement, once for every word that only does that. -/
theorem wr_retire (m : Marks) (d : Sreg) (v : W) (bound : Nat) (fl : Option (BitVec 5)) (s : State) :
    let t := retire m (s.modMe (·.wrReg s.cycle d v bound fl))
    t.me.regs.get d.toFin = v ∧ t.me.flights = s.me.flights ++ [⟨.reg d, s.cycle + bound, fl, s.cycle⟩] ∧ RegFrame s t d := by
  intro t
  have hs : t.me.still = (s.me.wrReg s.cycle d v bound fl).still := by
    rw [show t = retire m _ from rfl, retire_still, State.me_modMe]
  have hr : t.me.regs = (s.me.wrReg s.cycle d v bound fl).regs := by
    have h := congrArg Strand.regs hs; exact h
  have hfl := congrArg Strand.flights hs
  refine ⟨?_, hfl, ⟨(WordFrame.modMe _ _).trans (retire_frame _ _), fun r hne => ?_, ?_⟩⟩
  · rw [hr]; exact Vector.get_set_same (i := d.toFin) ..
  · rw [hr]; exact Vector.get_set_other (i := d.toFin) _ _ hne
  · rw [hs]; rfl

/-- A word that writes one scalar register and goes on completes so. -/
theorem writesReg_of {i : Instr} {fields : List Nat} {d : Sreg} {v : State → W} {bound : Nat} {fl : State → Option (BitVec 5)}
    {m : Marks} (h : ∀ s, exec i s = issueWord fields (fun s => retire m (s.modMe (·.wrReg s.cycle d (v s) bound (fl s)))) s) :
    WritesReg i fields d v bound fl := by
  intro s hr hf
  exact ⟨_, (h s).trans (issueWord_next hr hf _), wr_retire m d (v s) bound (fl s) s⟩

theorem predMask_eq (p : Preg) : (1 <<< p.toNat : BitVec 8) &&& 0xfe = predMask p := by revert p; decide

theorem predMask_zero (p : Preg) : predMask p = 0 ↔ p = 0 := by revert p; decide

theorem predMask_get (p : Preg) (h : p ≠ 0) : (predMask p).getLsbD p.toNat = true := by revert p; decide

theorem allOnes_get (p : Preg) : (255#8).getLsbD p.toNat = true := by revert p; decide

theorem predMask_get_zero (p : Preg) : (predMask p).getLsbD 0 = false := by revert p; decide

/-- A predicate write and its retirement, with every part of the result. -/
theorem wrp_retire (m : Marks) (p : Preg) (v : Bool) (bound : Nat) (fl : Option (BitVec 5)) (s : State) :
    let t := retire m (wrp p v bound fl s)
    (p ≠ 0 → t.me.preds.getLsbD p.toNat = v) ∧
    t.me.flights = s.me.flights ++ [⟨if p = 0 then .nothing else .preds (predMask p), s.cycle + bound, fl, s.cycle⟩] ∧
    PredFrame s t (predMask p) := by
  intro t
  have hs : t.me.still = (s.me.wrPreds s.cycle (1 <<< p.toNat) (if v then 0xff else 0) bound fl).still := by
    rw [show t = retire m _ from rfl, retire_still, wrp, State.me_modMe]
  have hm := predMask_eq p
  have hp : t.me.preds = s.me.preds &&& ~~~predMask p ||| (if v then 0xff else 0) &&& predMask p := by
    rw [← hm]; exact (congrArg Strand.preds hs : _)
  have h0 := predMask_zero p
  refine ⟨fun hne => ?_, ?_, ⟨(WordFrame.modMe _ _).trans (retire_frame _ _), ?_, ?_⟩⟩
  · rw [hp]
    generalize s.me.preds = q
    have hb := predMask_get p hne
    cases v <;> simp [hb, allOnes_get]
  · have h := congrArg Strand.flights hs
    rw [show t.me.flights = _ from h]
    show s.me.flights ++ [⟨if (1 <<< p.toNat : BitVec 8) &&& 0xfe = 0 then _ else _, _, _, _⟩] = _
    rw [hm]; simp only [h0]
  · rw [hp]
    generalize s.me.preds = q
    generalize predMask p = k
    ext i hi; simp; cases k[i] <;> simp
  · rw [hs]; rfl

/-- The same, for a value that is the stated one by a lemma. -/
theorem writesReg_of_eq {i : Instr} {fields : List Nat} {d : Sreg} {v w : State → W} {bound : Nat}
    {fl : State → Option (BitVec 5)} {m : Marks}
    (h : ∀ s, exec i s = issueWord fields (fun s => retire m (s.modMe (·.wrReg s.cycle d (w s) bound (fl s)))) s)
    (hv : ∀ s, w s = v s) : WritesReg i fields d v bound fl := by
  obtain rfl : w = v := funext hv
  exact writesReg_of h

/-- A word that writes one predicate and goes on completes so. -/
theorem writesPred_of {i : Instr} {fields : List Nat} {p : Preg} {v w : State → Bool} {bound : Nat}
    {fl : State → Option (BitVec 5)} {m : Marks}
    (h : ∀ s, exec i s = issueWord fields (fun s => retire m (wrp p (w s) bound (fl s) s)) s)
    (hv : ∀ s, w s = v s) : WritesPred i fields p v bound fl := by
  obtain rfl : w = v := funext hv
  intro s hr hf
  exact ⟨_, (h s).trans (issueWord_next hr hf _), wrp_retire m p (w s) bound (fl s) s⟩

end Sys2Proof.Machine
end

