-- ==== Sys2Proof/Laws/Nest.lean ====
section
/-! SUPPORT. Rows of a nest: an element where its operands are placed, and the row that the elements of an operator make. -/

namespace Sys2Proof.Machine

/-! Codes and places. -/

theorem flushed_eq (f : Block) (ty code : Nat) : flushCode (ftzOf f) ty code = flushed f ty code := by
  unfold flushCode flushed bits
  split <;> rename_i h <;> split <;> rename_i g <;> simp_all

theorem codeIn_eq (s : State) (ty l : Nat) : codeAt s ty l = codeIn s.byte ty l := by
  unfold codeAt codeIn; split
  · rfl
  · rw [readHome_eq_map]

theorem swizzle_xor {z sp y : Nat} (hs : sp = 0) :
    swizzle z sp y = if 1 ≤ z ∧ z ≤ 4 then y ^^^ (y / 2 ^ (10 + z) % 32 * 64) else y := by
  subst hs
  unfold swizzle
  by_cases h : 1 ≤ z ∧ z ≤ 4
  · rw [if_pos ⟨by omega, h⟩, if_pos h]
    unfold setBits bits
    generalize hk : y / 2 ^ (10 + z) % 2 ^ 5 = k
    have hk2 : k < 32 := by omega
    have e1 : (y ^^^ k * 64) % 2 ^ 6 = y % 2 ^ 6 := by
      rw [Nat.xor_mod_two_pow]; have : k * 64 % 2 ^ 6 = 0 := by omega
      rw [this, Nat.xor_zero]
    have e2 : (y ^^^ k * 64) / 2 ^ 6 = y / 2 ^ 6 ^^^ k := by
      rw [Nat.xor_div_two_pow]; have : k * 64 / 2 ^ 6 = k := by omega
      rw [this]
    have e3 : (y ^^^ k * 64) / 2 ^ 11 = y / 2 ^ 11 := by
      rw [Nat.xor_div_two_pow]; have : k * 64 / 2 ^ 11 = 0 := by omega
      rw [this, Nat.xor_zero]
    have e4 : (y / 2 ^ 6 ^^^ k) % 2 ^ 5 = y / 2 ^ 6 % 2 ^ 5 ^^^ k := by
      rw [Nat.xor_mod_two_pow, Nat.mod_eq_of_lt (show k < 2 ^ 5 from hk2)]
    have h1 : (y / 2 ^ 6 % 2 ^ 5 ^^^ k) % 2 ^ 5 = y / 2 ^ 6 % 2 ^ 5 ^^^ k := by rw [← e4, Nat.mod_mod]
    rw [h1, ← e4, ← e2]
    generalize y ^^^ k * 64 = w at e1 e2 e3
    omega
  · rw [if_neg (by omega), if_neg h]

/-- An element at its place: its location, which nothing caches, counts or lacks. -/
theorem Placed.found {v : Site} {o l : Nat} {i : List Nat} {r : Run} (h : Placed r.s v r.b.f o i l) (hf : r.feed = none) (rd wr : Bool) :
    placeAt v o i rd wr r = .ok ((.loc (byteOf (tyOf r.b.f o) l) (spaceOf r.b.f o), addrOf r.b.f o i v.t % 2), r) ∧
      Uncached v r (spaceOf r.b.f o) ∧ (∀ n, countsHot r.b.f o n = 0) ∧
      (∀ k, k < unitOf (tyOf r.b.f o) → Present r.s (byteOf (tyOf r.b.f o) l + k)) ∧ (tyOf r.b.f o = 5 → addrOf r.b.f o i v.t % 2 = l % 2) := by
  have hu := unitOf_pos (tyOf r.b.f o)
  have hc := v.c.isLt
  unfold Placed at h
  simp only at h
  generalize hy : (if tyOf r.b.f o = 5 then addrOf r.b.f o i v.t / 2 else addrOf r.b.f o i v.t) = y at h
  obtain ⟨h0, hl, hn⟩ | ⟨h0, hl, hn⟩ | ⟨h0, hl, hn, hd⟩ := h
  · have hs := swizzle_xor (z := swzOf r.b.f o) (sp := 0) (y := y) rfl
    rw [← hs] at hl hn
    generalize hz : swizzle (swzOf r.b.f o) 0 y = z at hl hn
    have hb : byteOf (tyOf r.b.f o) l = ownLoc v 0 z := by
      rw [hl]; unfold byteOf ownLoc; split <;> simp; omega
    refine ⟨?_, .of_ne (by rw [h0]; decide), notHot (.inl h0), ?_, ?_⟩
    · have hi : inspaceEng r.s v.c 0 z (unitOf (tyOf r.b.f o)) = true := by unfold inspaceEng; simp; omega
      have ht : engineTgt r.s v 0 z = .loc (ownLoc v 0 z) 0 := by unfold engineTgt ownLoc; simp only [if_true]; rw [Nat.mod_eq_of_lt (by omega)]
      unfold placeAt; rw [EngM.bind_ok (EngM.get_ok r)]
      unfold place
      rw [EngM.bind_ok (EngM.get_ok r)]
      simp only [h0, hy, hz, elemBytes, hi, Bool.not_true, Bool.and_false, ht, hf, Option.isSome_none, Bool.false_eq_true, if_false, hb]
      rfl
    · intro k hk; rw [hb, ownLoc_add]; exact own_stored r.s v 0 _ (by omega)
    · intro h5; rw [hl, if_pos h5]; omega
  · have hs : swizzle (swzOf r.b.f o) 2 y = y := by unfold swizzle; rw [if_neg (by omega)]
    have hb : byteOf (tyOf r.b.f o) l = ownLoc v 2 y := by
      rw [hl]; unfold byteOf ownLoc; split <;> simp; omega
    refine ⟨?_, .of_ne (by rw [h0]; decide), notHot (.inr h0), ?_, ?_⟩
    · have hi : inspaceEng r.s v.c 2 y (unitOf (tyOf r.b.f o)) = true := by unfold inspaceEng; simp; omega
      have ht : engineTgt r.s v 2 y = .loc (ownLoc v 2 y) 2 := by
        unfold engineTgt ownLoc; simp only [show ¬(2 = 0) by omega, if_false, if_true]; rw [Nat.mod_eq_of_lt (by omega)]
      unfold placeAt; rw [EngM.bind_ok (EngM.get_ok r)]
      unfold place
      rw [EngM.bind_ok (EngM.get_ok r)]
      simp only [h0, hy, hs, elemBytes, hi, Bool.not_true, Bool.and_false, ht, hf, Option.isSome_none, Bool.false_eq_true, if_false, hb]
      rfl
    · intro k hk; rw [hb, ownLoc_add]; exact own_stored r.s v 2 _ (by omega)
    · intro h5; rw [hl, if_pos h5]; omega
  · have hs : swizzle (swzOf r.b.f o) 3 y = y := by unfold swizzle; rw [if_neg (by omega)]
    have hb : byteOf (tyOf r.b.f o) l = vaultLoc v.c y := by
      rw [hl]; unfold byteOf; split
      · omega
      · rfl
    refine ⟨?_, fun _ => hd, fun n => by unfold countsHot; rw [h0]; simp, ?_, ?_⟩
    · have hi : inspaceEng r.s v.c 3 y (unitOf (tyOf r.b.f o)) = true := by unfold inspaceEng; simp; omega
      have ht : engineTgt r.s v 3 y = .loc (vaultLoc v.c y) 3 := by
        unfold engineTgt tgtOf; simp only [show ¬(3 = 0) by omega, show ¬(3 = 2) by omega, if_false]; rw [Nat.mod_eq_of_lt (by omega)]
      unfold placeAt; rw [EngM.bind_ok (EngM.get_ok r)]
      unfold place
      rw [EngM.bind_ok (EngM.get_ok r)]
      simp only [h0, hy, hs, elemBytes, hi, Bool.not_true, Bool.and_false, ht, hf, Option.isSome_none, Bool.false_eq_true, if_false, hb]
      rfl
    · intro k hk
      rw [hb]; refine ⟨?_, ?_⟩
      · unfold vaultLoc nowhere; omega
      · unfold State.uncoreOff hbmSize vaultLoc; simp; omega
    · intro h5; rw [hl, if_pos h5]; omega

/-- An operand's value, read at its place. -/
theorem valAt_placed {v : Site} {o l : Nat} {i : List Nat} {r : Run} (hr : Calm v r) (h : Placed r.s v r.b.f o i l) :
    valAt v o i r = .ok (valOn r.s.byte r.b.f o l, r) := by
  obtain ⟨hp, hc, hh, hs, hq⟩ := h.found hr.feed true false
  have h0 : Present r.s (byteOf (tyOf r.b.f o) l) := by have := hs 0 (unitOf_pos _); simpa using this
  unfold valAt readVal
  rw [EngM.bind_ok hp, EngM.bind_ok (EngM.get_ok r), EngM.bind_ok (readCode_flush hr hc h0 (hh _) hq), flushed_eq, codeIn_eq]
  rfl

/-- The code at a place, as an engine reads it. -/
theorem readCode_placed {v : Site} {o l : Nat} {i : List Nat} {r : Run} (hr : Calm v r) (h : Placed r.s v r.b.f o i l) :
    readCode v o (tyOf r.b.f o) (.loc (byteOf (tyOf r.b.f o) l) (spaceOf r.b.f o), addrOf r.b.f o i v.t % 2) r =
      .ok (flushed r.b.f (tyOf r.b.f o) (codeIn r.s.byte (tyOf r.b.f o) l), r) := by
  obtain ⟨-, hc, hh, hs, hq⟩ := h.found hr.feed true false
  have h0 : Present r.s (byteOf (tyOf r.b.f o) l) := by have := hs 0 (unitOf_pos _); simpa using this
  rw [readCode_flush hr hc h0 (hh _) hq, flushed_eq, codeIn_eq]

/-- What an element leaves of a run: memory and lanes, nothing else of the machine, nothing of the entry but these and its count of bytes
written. -/
structure Went (r r1 : Run) (q : RowState) : Prop where
  bytes : ∀ y, r1.s.byte y = q.mem y
  lanes : r1.b.lanes = q.lanes
  form : r.s.memWf → r1.s.memWf
  rest : { r1.s with mem := r.s.mem } = r.s
  hot : r1.hot = r.hot
  wrote : r1.wrote = r.wrote
  feed : r1.feed = r.feed
  entry : { r1.b with wb := r.b.wb, lanes := r.b.lanes } = r.b

theorem Wrote.went {r r1 : Run} {ws : List Stored} (h : Wrote r r1 ws) : Went r r1 ⟨afterWrites ws r.s.byte, r.b.lanes⟩ := by
  have e := congrArg (fun b : Entry => b.lanes) h.entry
  dsimp only at e
  refine ⟨h.bytes, e, h.form, h.rest, h.hot, h.wrote, h.feed, ?_⟩
  have e1 := congrArg (fun b : Entry => { b with lanes := r.b.lanes }) h.entry
  exact e1

theorem Went.count {r r1 : Run} {q : RowState} (h : Went r r1 q) : r1.b.n = r.b.n := by
  have e := congrArg Entry.n h.entry; exact e

/-- A code written to D at its place. -/
theorem writeCode_placed {v : Site} {l i0 code : Nat} {i : List Nat} {r : Run} (hr : Calm v r) (hm : r.s.memWf) (h : Placed r.s v r.b.f 0 i l) :
    ∃ r1, writeCode v 0 (tyOf r.b.f 0) (.loc (byteOf (tyOf r.b.f 0) l) (spaceOf r.b.f 0), addrOf r.b.f 0 i v.t % 2) code r = .ok (⟨⟩, r1) ∧
      Went r r1 ((⟨r.s.byte, r.b.lanes⟩ : RowState).write r.b.f i0 l (.code code)) := by
  obtain ⟨-, hc, hh, hs, hq⟩ := h.found hr.feed false true
  obtain ⟨r1, h1, h2⟩ := writeCode_loc (code := code) hr hc hm hs hh hq
  exact ⟨r1, h1, h2.went⟩

/-- The generator of R29, as the machine steps it. -/
theorem lfsrNext_eq (st : BitVec 16) :
    lfsrNext st = (st <<< 1) ||| if (st.getLsbD 15 ^^ st.getLsbD 13 ^^ st.getLsbD 12 ^^ st.getLsbD 10) then 1 else 0 := by
  unfold lfsrNext; dsimp only; split <;> rename_i h
  · rw [h]; rfl
  · rw [Bool.eq_false_of_not_eq_true h]; rfl

/-- A run with other lanes. -/
def Run.withLanes (r : Run) (l : List (BitVec 16)) : Run := { r with b := { r.b with lanes := l } }

/-- A written value, in the machine's own terms. -/
theorem RowState.write_value (f : Block) (i0 l : Nat) (r : RowState) (sat : Bool) (x : Val) :
    r.write f i0 l (.value sat x) =
      let st := lfsrNext ((r.lanes[i0 % 256]?).getD 1)
      let draw := rmOf f = 5 ∧ draws (tyOf f 0) x = true
      ⟨afterWrites (codeToD f l (encodeWith (tyOf f 0) (rmOf f) (if draw then st.toNat else 0) sat (ftzOf f) x)) r.mem,
        if draw then r.lanes.set (i0 % 256) st else r.lanes⟩ := by
  unfold RowState.write encodeWith
  simp only [flushed_eq, lfsrNext_eq]
  cases x <;> rfl

/-- What a value is written as, and the lanes once it has been rounded. -/
theorem encodeVal_lanes (i0 l : Nat) (sat : Bool) (x : Val) (r : Run) : ∃ code lanes,
    encodeVal (tyOf r.b.f 0) i0 sat x r = .ok (code, r.withLanes lanes) ∧
      (⟨r.s.byte, r.b.lanes⟩ : RowState).write r.b.f i0 l (.value sat x) = ⟨afterWrites (codeToD r.b.f l code) r.s.byte, lanes⟩ := by
  refine ⟨_, _, ?_, RowState.write_value ..⟩
  unfold encodeVal
  by_cases h : draws (tyOf r.b.f 0) x = true
  · rw [if_pos h]
    by_cases h5 : rmOf r.b.f = 5
    · have e : drawLane i0 r = .ok ((lfsrNext ((r.b.lanes[i0 % 256]?).getD 1)).toNat,
          r.withLanes (r.b.lanes.set (i0 % 256) (lfsrNext ((r.b.lanes[i0 % 256]?).getD 1)))) := by
        unfold drawLane; rw [EngM.bind_ok (EngM.get_ok _), if_pos h5]; rfl
      rw [EngM.bind_ok e]; dsimp only; rw [EngM.bind_ok (EngM.get_ok _)]
      simp only [h5, h, and_self, if_true]
      rw [EngM.pure_ok]
      unfold Run.withLanes; dsimp only; rw [h5]
    · rw [EngM.bind_ok (drawLane_one h5)]; dsimp only; rw [EngM.bind_ok (EngM.get_ok _)]
      simp only [h5, false_and, if_false]
      rfl
  · rw [if_neg h, EngM.bind_ok (EngM.pure_ok _ _)]; dsimp only; rw [EngM.bind_ok (EngM.get_ok _)]
    simp only [h, Bool.false_eq_true, and_false, if_false]
    rfl

/-- A value written to D at its place. -/
theorem writeVal_placed {v : Site} {l i0 : Nat} {sat : Bool} {y : Val} {i : List Nat} {r : Run} (hr : Calm v r) (hm : r.s.memWf)
    (h : Placed r.s v r.b.f 0 i l) :
    ∃ r1, writeVal v (tyOf r.b.f 0) (.loc (byteOf (tyOf r.b.f 0) l) (spaceOf r.b.f 0), addrOf r.b.f 0 i v.t % 2) i0 sat y r = .ok (⟨⟩, r1) ∧
      Went r r1 ((⟨r.s.byte, r.b.lanes⟩ : RowState).write r.b.f i0 l (.value sat y)) := by
  obtain ⟨code, lanes, h1, h2⟩ := encodeVal_lanes i0 l sat y r
  have hr' : Calm v (r.withLanes lanes) := ⟨hr.feed, hr.clean, hr.audit, hr.quiet⟩
  obtain ⟨r1, h3, h4⟩ := writeCode_placed (i0 := i0) (code := code) hr' hm h
  refine ⟨r1, ?_, ?_⟩
  · unfold writeVal; rw [EngM.bind_ok h1]; exact h3
  · rw [h2]
    exact ⟨h4.bytes, h4.lanes, h4.form, h4.rest, h4.hot, h4.wrote, h4.feed, by
      have e := congrArg (fun b : Entry => { b with lanes := r.b.lanes }) h4.entry; exact e⟩

/-- The saturate choice of a conversion is the machine's. -/
theorem Written.convert_eq (f : Block) (x : Val) : Written.convert f x = .value (convertSat (tyOf f 1) (tyOf f 0) (satOf f) x) x := by
  unfold Written.convert convertSat
  have key : ∀ y : XVal, (!(y.isInf && decide ((tyOf f 0 = 0 ∧ 1 ≤ tyOf f 1 ∧ tyOf f 1 ≤ 3) ∨ (1 ≤ tyOf f 0 ∧ tyOf f 0 ≤ 2 ∧ tyOf f 1 = 3))) && satOf f) =
      (satOf f && !(y.isInf && ((tyOf f 0 == 0 && (tyOf f 1 == 1 || tyOf f 1 == 2 || tyOf f 1 == 3)) || ((tyOf f 0 == 1 || tyOf f 0 == 2) && tyOf f 1 == 3)))) := by
    intro y
    have e : decide ((tyOf f 0 = 0 ∧ 1 ≤ tyOf f 1 ∧ tyOf f 1 ≤ 3) ∨ (1 ≤ tyOf f 0 ∧ tyOf f 0 ≤ 2 ∧ tyOf f 1 = 3)) =
        ((tyOf f 0 == 0 && (tyOf f 1 == 1 || tyOf f 1 == 2 || tyOf f 1 == 3)) || ((tyOf f 0 == 1 || tyOf f 0 == 2) && tyOf f 1 == 3)) := by
      rw [Bool.eq_iff_iff]; simp; omega
    rw [e, Bool.and_comm]
  cases x with
  | f y => dsimp only; rw [key]
  | i z =>
    dsimp only
    congr 1
    rw [Bool.and_comm, Bool.eq_iff_iff]; simp

/-! Rows. -/

/-- A run within a row: element j is next, memory and lanes are q, nothing else has changed since the row began at s and b. -/
structure InRow (s : State) (v : Site) (b : Entry) (j : Nat) (q : RowState) (r : Run) : Prop where
  bytes : r.s.byte = q.mem
  lanes : r.b.lanes = q.lanes
  form : r.s.memWf
  rest : { r.s with mem := s.mem } = s
  hot : r.hot = 0
  wrote : r.wrote = []
  feed : r.feed = none
  entry : { r.b with wb := b.wb, lanes := b.lanes, n := b.n } = b
  at_ : r.b.n = b.n + j

theorem InRow.block {s : State} {v : Site} {b : Entry} {j : Nat} {q : RowState} {r : Run} (h : InRow s v b j q r) : r.b.f = b.f := by
  have e := congrArg Entry.f h.entry; dsimp only at e; exact e

theorem InRow.core {s : State} {v : Site} {b : Entry} {j : Nat} {q : RowState} {r : Run} (h : InRow s v b j q r) (c : Cl) :
    r.s.core c = s.core c := by
  have e := congrArg State.cores h.rest; dsimp only at e; unfold State.core; rw [e]

theorem InRow.placed {s : State} {v : Site} {b : Entry} {j o l : Nat} {i : List Nat} {q : RowState} {r : Run} (h : InRow s v b j q r)
    (g : Placed s v b.f o i l) : Placed r.s v r.b.f o i l := by
  unfold Placed at g ⊢; rw [h.block, h.core]; exact g

theorem InRow.calm {s : State} {v : Site} {b : Entry} {j op n : Nat} {q : RowState} {r : Run} (h : InRow s v b j q r) (g : NestRow s v b op n) :
    Calm v r := by
  have hp := congrArg State.poison h.rest
  have hy := congrArg State.cycle h.rest
  have ha := congrArg Entry.audit h.entry
  dsimp only at hp hy ha
  refine ⟨h.feed, hp.trans g.clean, ha.trans g.noAudit, ?_⟩
  unfold State.tile; rw [h.core, hy]; exact g.quiet

/-- The next element. -/
theorem InRow.next {s : State} {v : Site} {b : Entry} {j : Nat} {q q1 : RowState} {r r1 : Run} (h : InRow s v b j q r) (g : Went r r1 q1) :
    InRow s v b (j + 1) q1 { r1 with b := { r1.b with n := r.b.n + 1 } } := by
  refine ⟨funext g.bytes, g.lanes, g.form h.form, ?_, g.hot.trans h.hot, g.wrote.trans h.wrote, g.feed.trans h.feed, ?_, by
    show r.b.n + 1 = _; rw [h.at_]; omega⟩
  · have e := congrArg (fun x : State => { x with mem := s.mem }) g.rest; exact e.trans h.rest
  · have e := congrArg (fun x : Entry => { x with wb := b.wb, lanes := b.lanes, n := b.n }) g.entry; exact e.trans h.entry

/-- The memory and the lanes that element j finds. -/
theorem InRow.state {s : State} {v : Site} {b : Entry} {j : Nat} {q : RowState} {r : Run} (h : InRow s v b j q r) :
    q = ⟨r.s.byte, r.b.lanes⟩ := by cases q; rw [h.bytes, h.lanes]

/-- The index vectors that a step forms within its row. -/
theorem InRow.idx {s : State} {v : Site} {b : Entry} {op n j : Nat} {q : RowState} {r : Run} (h : InRow s v b j q r) (g : NestRow s v b op n)
    (hj : j < n) (i0 : Nat) : idx r.b i0 = indexOf b.f (b.n + i0) := by
  unfold Machine.idx; rw [h.block, h.at_, g.row]
  obtain ⟨k, hk⟩ : ∃ k, b.n = n * k := ⟨b.n / n, by have := Nat.div_add_mod b.n n; rw [g.start] at this; omega⟩
  have e : (b.n + j) / n * n = b.n := by
    rw [hk, Nat.mul_add_div g.some, Nat.div_eq_of_lt hj, Nat.add_zero, Nat.mul_comm]
  rw [e]

theorem InRow.idxAt {s : State} {v : Site} {b : Entry} {op n j : Nat} {q : RowState} {r : Run} (h : InRow s v b j q r) (g : NestRow s v b op n)
    (hj : j < n) (i0 : Nat) : idxAt r.b i0 = atPlace b.f b.n i0 := by
  unfold Machine.idxAt atPlace; rw [h.idx g hj, Nat.add_zero]

theorem mem_atEach {os : List Nat} {f : Block} {k n o j : Nat} (ho : o ∈ os) (hj : j < n) : (o, indexOf f (k + j)) ∈ atEach os f k n := by
  unfold atEach; simp only [List.mem_flatMap, List.mem_map, List.mem_range]; exact ⟨o, ho, j, hj, rfl⟩

/-- The elements of a row, each as its step performs it. -/
theorem InRow.steps {s : State} {v : Site} {b : Entry} {n : Nat} {step : Nat → EngM Unit} {w : RowState → Nat → RowState}
    (h : ∀ j q r, j < n → InRow s v b j q r → ∃ r1, step j r = .ok (⟨⟩, r1) ∧ Went r r1 (w q j)) :
    ∀ (k j : Nat) (q : RowState) (r : Run), j + k = n → InRow s v b j q r →
      ∃ r1, runSteps step 1 n k j r = (r1, none) ∧ InRow s v b n ((List.range k).foldl (fun a i => w a (j + i)) q) r1
  | 0, j, q, r, hj, hr => ⟨r, by unfold runSteps; rfl, by
      have e : j = n := by omega
      subst e; exact hr⟩
  | k + 1, j, q, r, hj, hr => by
    obtain ⟨r1, h1, h2⟩ := h j q r (by omega) hr
    have hn := h2.count
    have hm : max 1 (min 1 (n - j)) = 1 := by omega
    obtain ⟨r2, h3, h4⟩ := InRow.steps h k (j + 1) (w q j) { r1 with b := { r1.b with n := r.b.n + 1 } } (by omega) (hr.next h2)
    refine ⟨r2, ?_, ?_⟩
    · unfold runSteps
      rw [if_neg (by omega), show (step j).run r = .ok (⟨⟩, r1) from h1]
      simp only [hm, hn]
      exact h3
    · have e : (fun a i => w a (j + (i + 1))) = fun a i => w a (j + 1 + i) := by funext a i; rw [show j + (i + 1) = j + 1 + i by omega]
      rw [List.range_succ_eq_map, List.foldl_cons, List.foldl_map]
      simp only [Nat.add_zero, Nat.succ_eq_add_one, e]
      exact h4

/-- An operator performs a row of its nest when its step performs each element. -/
theorem performsNest_of {i : Cl → Tl → Instr} {op : Nat} {p : NestOp} {step : Site → Nat → EngM Unit} {ticks : State → Site → Entry → Nat}
    (hi : ∀ c t s, exec (i c t) s = operator op (vectorOp step ticks) c t .v s)
    (h : ∀ (s : State) (v : Site) (b : Entry) (n j : Nat) (x : Nat → List Nat → Nat) (q : RowState) (r : Run), v.e = .v → NestRow s v b op n →
      (∀ o ∈ p.used b.f b.n n, Placed s v b.f o.1 o.2 (x o.1 o.2)) → j < n → InRow s v b j q r →
      ∃ r1, step v j r = .ok (⟨⟩, r1) ∧
        Went r r1 (q.write b.f j (x 0 (indexOf b.f (b.n + j))) (p.elem v b.f (s.tile v.c v.t) q.mem b.n j x))) :
    PerformsNest i op p := by
  intro s c t b n x v hrow hx
  have hpos := hrow.some
  let w (a : RowState) (j : Nat) : RowState := a.write b.f j (x 0 (indexOf b.f (b.n + j))) (p.elem v b.f (s.tile v.c v.t) a.mem b.n j x)
  have h0 : InRow s v b 0 ⟨s.byte, b.lanes⟩ ⟨s, b, 0, [], [], none⟩ := ⟨rfl, rfl, hrow.form, rfl, rfl, rfl, rfl, rfl, rfl⟩
  obtain ⟨r1, h1, h2⟩ := InRow.steps (w := w) (fun j q r hj hr => h s v b n j x q r rfl hrow hx hj hr) n 0 _ _ (by omega) h0
  simp only [Nat.zero_add] at h2
  have hrun : ((s.tile c t).queue .v).runner = some b := hrow.runner
  have hphase : b.phase = .running := by
    have e := hrun; unfold Queue.runner at e
    have e2 := List.find?_some e; simpa using e2
  have hguard : ¬(b.fault.isSome = true ∨ tickOf s.cycle + 1 < b.ready ∨ rowClear s v b = false) := by
    have hc : rowClear s v b = true := by unfold rowClear; dsimp only; rw [hrow.landed]; rfl
    rw [hrow.free, hc]; have := hrow.due; simp; omega
  have hcut : (Option.isSome (none : Option Halt) || b.cutRow) = false := by rw [hrow.whole]; rfl
  have hcopy (b1 : Entry) (z : State) : copyReads b b1 z = z := by unfold copyReads; rw [hrow.noAudit]
  have hraise (z : State) (b1 : Entry) : raiseWb z v b1 = z := by unfold raiseWb; rw [if_neg]; rintro ⟨e, -⟩; cases e
  have hb1 : r1.b.cutRow = false := by have e := congrArg Entry.cutRow h2.entry; dsimp only at e; rw [e]; exact hrow.whole
  have hp1 : r1.b.phase = .running := by have e := congrArg Entry.phase h2.entry; dsimp only at e; rw [e]; exact hphase
  have hs1 : r1.b.seq = b.seq := by have e := congrArg Entry.seq h2.entry; dsimp only at e; exact e
  let s1 := keepOld s v b.f r1.s
  obtain ⟨b2, hb2, hu⟩ : ∃ b2 : Entry, (b2.seq = b.seq ∧ b2.n = b.n + n ∧ b2.lanes = r1.b.lanes ∧ b2.f = b.f ∧
      (b2.phase = .ending ↔ b.n + n = totalOf b.f)) ∧ exec (i c t) s = .next (putEntry s1 v b2) := by
    have hexec : exec (i c t) s = .next (runRow s v (vectorOp step ticks) b) := by
      rw [hi]; unfold operator; rw [hrun]; simp only [hrow.code, if_true]; rfl
    rw [hexec]
    have e1 : b.n % max 1 (extOf b.f 0) = 0 := by rw [hrow.row, show max 1 n = n by omega]; exact hrow.start
    have e3 : runSteps ((vectorOp step ticks).step v) ((vectorOp step ticks).grain b.f) (extOf b.f 0)
        (if (vectorOp step ticks).whole = true then extOf b.f 0 else 1) (b.n % max 1 (extOf b.f 0)) ⟨s, b, 0, [], [], none⟩ = (r1, none) := by
      rw [e1, hrow.row]; exact h1
    have hg2 : ¬(b.fault.isSome = true ∨ tickOf s.cycle + 1 < b.ready ∨ (vectorOp step ticks).clear s v b = false) := hguard
    generalize vectorOp step ticks = body at e3 hg2
    unfold runRow
    rw [if_neg hg2]
    simp only [e3, hcut, Bool.false_eq_true, if_false, h2.wrote, h2.hot, clearPoison, countBytes, List.isEmpty_nil, if_true,
      hcopy, hraise, hb1, false_and, or_false]
    by_cases hl : totalOf b.f ≤ r1.b.n
    · simp only [hl, if_true]
      refine ⟨_, ?_, rfl⟩
      have e4 : b.n + n = totalOf b.f := by have a1 := hrow.inside; have a2 := h2.at_; omega
      exact ⟨hs1, h2.at_, rfl, by have e := congrArg Entry.f h2.entry; exact e, by simp [e4]⟩
    · simp only [hl, if_false]
      refine ⟨_, ?_, rfl⟩
      have e4 : b.n + n ≠ totalOf b.f := by have a2 := h2.at_; omega
      exact ⟨hs1, h2.at_, rfl, by have e := congrArg Entry.f h2.entry; exact e, by
        constructor
        · intro e; exact absurd (hp1.symm.trans e) (by decide)
        · intro e; exact absurd e e4⟩
  refine ⟨_, hu, ?_⟩
  obtain ⟨f1, f2, f3, f4, f5⟩ := hb2
  have hk := keepOld_kept s v b.f r1.s
  have hcore : ∀ c', r1.s.core c' = s.core c' := fun c' => h2.core c'
  have hkq : (s1.tile v.c v.t).queues = (s.tile v.c v.t).queues := by
    have e := congrArg Tile.queues hk.tile; dsimp only at e
    rw [show s1 = keepOld s v b.f r1.s from rfl, e]; unfold State.tile; rw [hcore]
  refine ⟨?_, ?_, ?_, ?_, ?_, ?_, ?_, ?_, ?_⟩
  · intro y
    have e := congrArg State.mem hk.rest
    dsimp only at e
    show memGet s1.mem y = _
    rw [show s1.mem = r1.s.mem from e]
    exact congrFun h2.bytes y
  · intro z hz hzs
    rw [putEntry_entries] at hz
    obtain ⟨z0, -, e⟩ := List.mem_map.1 hz
    by_cases hs : z0.seq = b2.seq
    · rw [if_pos hs] at e; subst e; exact ⟨f2, f3.trans h2.lanes, f4, f5⟩
    · rw [if_neg hs] at e; subst e; exact absurd (hzs.trans f1.symm) hs
  · rw [putEntry_entries]
    unfold Tile.queue; rw [hkq]
    generalize ((s.tile v.c v.t).queues.get (Fin.ofNat 4 v.e.code)).entries = l
    induction l with
    | nil => rfl
    | cons z l ih =>
      have g1 : decide (b2.seq ≠ b.seq) = false := by simp [f1]
      by_cases hz : z.seq = b.seq
      · have g2 : decide (z.seq ≠ b.seq) = false := by simp [hz]
        rw [List.map_cons, if_pos (hz.trans f1.symm), List.filter_cons_of_neg (by rw [g1]; decide), List.filter_cons_of_neg (by rw [g2]; decide), ih]
      · have g2 : decide (z.seq ≠ b.seq) = true := by simp [hz]
        rw [List.map_cons, if_neg (fun e => hz (e.trans f1)), List.filter_cons_of_pos (by rw [g2]), List.filter_cons_of_pos (by rw [g2]), ih]
  · intro e he
    unfold putEntry; rw [modTile_tile]
    have hne : (Fin.ofNat 4 e.code) ≠ (⟨v.e.code % 4, Nat.mod_lt _ (by decide)⟩ : Fin 4) := by
      revert he; cases e <;> cases v.e <;> decide
    simp only [Tile.setQueue, Tile.queue]
    rw [hkq]
    exact Vector.get_set_other _ _ hne
  · have e1 := putEntry_tile s1 v b2 (s.tile v.c v.t).queues (s1.tile v.c v.t).rings
    have e2 := congrArg (fun y : Tile => { y with accOld := (s.tile v.c v.t).accOld }) hk.tile
    have e3 : r1.s.tile v.c v.t = s.tile v.c v.t := by unfold State.tile; rw [hcore]
    unfold putEntry; rw [modTile_tile]
    rw [e3] at e2
    have e4 := congrArg (fun y : Tile => { y with queues := (s.tile v.c v.t).queues }) e2
    exact e4
  · intro t' ht'
    rw [show putEntry s1 v b2 = _ from rfl]
    unfold putEntry
    rw [modTile_tiles _ _ _ _ _ ht', hk.tiles t' ht']; unfold State.tile; rw [hcore]
  · have e1 := modTile_core s1 v.c v.t fun y => y.setQueue v.e { y.queue v.e with entries := (y.queue v.e).entries.map fun z => if z.seq = b2.seq then b2 else z }
    have e2 := congrArg (fun z : Core => { z with tiles := (s.core v.c).tiles }) e1
    have e3 := congrArg (fun z : Core => { z with tiles := (s.core v.c).tiles }) hk.core
    rw [hcore] at e3
    exact e2.trans e3
  · intro c' hc'
    unfold putEntry; rw [modTile_other _ _ _ _ _ hc', hk.cores c' hc', hcore]
  · have e1 := congrArg (fun z : State => { z with mem := s.mem, cores := s.cores }) hk.rest
    have e2 := congrArg (fun z : State => { z with cores := s.cores }) h2.rest
    exact e1.trans e2

end Sys2Proof.Machine
end

