-- ==== Sys2Proof/Tests/Slice0.lean ====
section
/-! SUPPORT. Tests: words from the layouts of the spec decode as they should, ill-formed terms are refused, and the
hypotheses of every statement are met by concrete states and operands. -/

namespace Sys2Proof.Tests
open Sys2Proof.Machine

set_option maxRecDepth 20000
set_option exponentiation.threshold 600

/-- No rendezvous mark, no gap mark. -/
def m0 : Marks := ⟨false, 0⟩

/-! Decoding. Each word is written out from Tables 1 to 6 of 03: major, Z, gap, then the fields in their places. -/

theorem test_decode_system :
    decode 0b000000_1_01_00110_00000_00001101_00010 = .ok (.xrd ⟨true, 1⟩ 6 0x0d) ∧
    decode 0b000000_0_00_00000_00100_00000001_01001 = .ok (.tlbi m0 4 1) ∧
    decode 0b000000_0_00_00000_00000_11111111_00110 = .ok (.svc m0 255) := by decide

theorem test_decode_arithmetic :
    decode 0b000001_0_00_00001_00010_00011_00001110 = .ok (.shr m0 1 2 3) ∧
    decode 0b000010_0_00_00110_00010_1111111111111 = .ok (.addi m0 6 2 0x1fff) ∧
    decode 0b000110_0_00_00001_00010_10_00000_111111 = .ok (.srai m0 1 2 63) ∧
    decode 0b000111_0_00_00011_100000000000000001 = .ok (.li m0 3 0x20001) ∧
    decode 0b001000_0_00_00011_000000000000000010 = .ok (.lih m0 3 2) ∧
    decode 0b100101_0_00_00001_00010_1_000111_000011 = .ok (.bfi m0 1 2 7 3) ∧
    decode 0b100110_0_00_00001_00010_00011_110_1_0000 = .ok (.sel m0 1 2 3 6 true) ∧
    decode 0b100111_0_00_00001_00010_00011_00100_000 = .ok (.madd m0 1 2 3 4) := by decide

theorem test_decode_predicates :
    decode 0b001001_0_00_101_00_00001_00010_00000100 = .ok (.cmpLtu m0 5 1 2) ∧
    decode 0b001010_0_00_111_00_00001_011_1000000000 = .ok (.cmpiGe m0 7 1 0x200) ∧
    decode 0b001011_0_00_001_010_011_000000_00000010 = .ok (.pxor m0 1 2 3) ∧
    decode 0b001011_0_00_01001_00000_00000_00000101 = .ok (.psave m0 9) ∧
    decode 0b001011_0_00_00000_01001_00000_00000110 = .ok (.pload m0 9) := by decide

theorem test_decode_floats :
    decode 0b001100_0_00_00001_00010_00011_00001001 = .ok (.fsgnj m0 1 2 3) ∧
    decode 0b001100_0_00_110_00_00001_00010_00010011 = .ok (.fcmpUn m0 6 1 2) ∧
    decode 0b001101_0_00_00001_00010_00011_00100_000 = .ok (.fma m0 1 2 3 4) ∧
    decode 0b101000_0_00_00001_00010_00000_0001_1_100 = .ok (.cvtFI m0 1 2 true 4) := by decide

theorem test_decode_control_flow :
    decode 0b001110_0_00_010_1_1111111111111111110 = .ok (.br m0 2 true 0x7fffe) ∧
    decode 0b001111_0_00_1_0000000000000000000011 = .ok (.call m0 3) ∧
    decode 0b010000_0_00_00000_00111_00000_00000001 = .ok (.callr m0 7) ∧
    decode 0b010001_0_00_1_0_000_00101_0000000000011 = .ok (.loop m0 true 5 3) ∧
    decode 0b010001_0_00_0_1_00000000100_0000000011 = .ok (.loopi m0 false 4 3) ∧
    decode 0b010010_0_00_0_0000_00101_100_011_000_0000 = .ok (.rep m0 5 4 3 0) ∧
    decode 0b100100_0_00_1_0000_000000000000000011 = .ok (.leave m0 3) := by decide

theorem test_decode_memory :
    decode 0b010011_0_00_00001_00010_1001_011_100000 = .ok (.ldHu m0 1 2 9 0x20) ∧
    decode 0b010100_0_00_00001_00010_0001_010_000001 = .ok (.stW m0 1 2 1 1) ∧
    decode 0b010101_0_00_00001_00010_0000_001_111111 = .ok (.ldqBu m0 1 2 0 0x3f) ∧
    decode 0b010101_0_00_00001_00010_01_00_111_0_11111 = .ok (.stRel m0 1 2 31) ∧
    decode 0b010101_0_00_00000_00000_10_00_111_0_00000 = .ok (.pop m0) ∧
    decode 0b010110_0_00_00001_00010_00011_011_00101 = .ok (.amoXor m0 1 2 3 5) ∧
    decode 0b010111_0_00_00001_00010_00011_001_00000 = .ok (.amoSwap m0 1 2 3 0) ∧
    decode 0b011000_0_00_0000000000001001_00_00010 = .ok (.fence m0 9 2) ∧
    decode 0b011111_0_00_00000_00011_1_000000000000 = .ok (.xlate m0 3 true) := by decide

theorem test_decode_synchronisation :
    decode 0b011001_0_00_10_011_00100_00101_00000000 = .ok (.semRd m0 3 4 5) ∧
    decode 0b011001_0_00_00_011_00100_000000101_1111 = .ok (.semWait m0 3 4 5 15) ∧
    decode 0b011010_0_00_00_001_00010_00011_00000100 = .ok (.ringDecl m0 1 2 3 4) ∧
    decode 0b011011_0_00_10_0011_0000000000000_0101 = .ok (.barSync m0 3 5) ∧
    decode 0b011100_0_00_011_1_0_00001_00010_0000_0110 = .ok (.waitvGe m0 true 1 2 6) := by decide

theorem test_decode_engines_handles :
    decode 0b011101_0_00_0001_10_000101_01010_1_00111 = .ok (.epatch m0 2 5 10 true 7) ∧
    decode 0b011101_0_00_0100_01_100000_00000_0_01111 = .ok (.efence m0 1 true 15) ∧
    decode 0b011101_0_00_0110_11_000000_00101_0_00010 = .ok (.estat m0 3 5 2) ∧
    decode 0b011110_0_00_010_00001_00010_1010_000000 = .ok (.hSet m0 1 2 10) ∧
    decode 0b11_10_000011_1_01010_0000000011111111 = .ok (.pwV 3 true 10 255) := by decide

theorem test_decode_tasks_triggers_remote_time :
    decode 0b100000_0_00_00000_00001_00010_00000000 = .ok (.spawn m0 1 2) ∧
    decode 0b100001_0_00_00000_00001_00010_00000011 = .ok (.ctrAdd m0 1 2) ∧
    decode 0b100010_0_00_00001_00010_00011_00011001 = .ok (.remAmoBadd m0 1 2 3) ∧
    decode 0b100011_0_00_00001_00000_00000_00000010 = .ok (.rdtime m0 1) ∧
    decode 0b101101_1_00_00000000000000000000101 = .ok (.hint ⟨true, 0⟩ 1 5) := by decide

/-- R78, R79: unassigned majors and minors, and the conditions of the last column of Table 6. -/
theorem test_decode_refuses :
    decode 0b101001_0_00_00000000000000000000000 = .error .unassignedMajor ∧
    decode 0b000001_0_00_00001_00010_00011_00010111 = .error .unassignedMinor ∧
    decode 0b000000_0_00_00000_00100_00000010_01001 = .error .tlbiKind ∧
    decode 0b010111_0_00_00001_00010_00000_000_00000 = .error .pairBaseZero ∧
    decode 0b011010_0_00_00_001_00010_00011_00000000 = .error .ringSlotsZero ∧
    decode 0b011101_0_00_0010_10_000101_01010_0_00011 = .error .ebindSlot ∧
    decode 0b011110_0_00_010_00001_00010_1011_000000 = .error .handleField ∧
    decode 0b100101_0_00_00001_00010_0_111111_000001 = .error .fieldPastEnd ∧
    decode 0b101000_0_00_00001_00010_00000_0000_0_101 = .error .roundingMode := by decide

/-- R71: a word lies in memory with its low byte first. -/
theorem test_decode_bytes : decodeBytes [0xc0, 0x02, 0x0c, 0x1c, 7] = .ok (.li m0 3 0x2c0, [7]) := by decide

/-! Well-formedness: one ill-formed term for each condition of R76 and R79. -/

theorem test_ill_formed_system_loops :
    WellFormed (.tlbi m0 1 2) = false ∧ WellFormed (.loop m0 false 1 0) = false ∧ WellFormed (.loopi m0 true 1 0) = false := by decide

theorem test_ill_formed_pairs :
    WellFormed (.cas m0 1 2 0 0) = false ∧ WellFormed (.amoBadd m0 1 2 0 0) = false ∧ WellFormed (.remAmoBadd m0 1 2 0) = false := by decide

theorem test_ill_formed_objects :
    WellFormed (.ringDecl m0 1 2 3 0) = false ∧ WellFormed (.ebind m0 1 2 3 3) = false ∧ WellFormed (.hSet m0 1 2 11) = false ∧
    WellFormed (.hGet m0 1 2 11) = false ∧ WellFormed (.hAdv m0 1 2 4) = false := by decide

theorem test_ill_formed_fields :
    WellFormed (.bfx m0 1 2 63 1) = false ∧ WellFormed (.bfi m0 1 2 0 63) = true ∧ WellFormed (.bfi m0 1 2 1 63) = false ∧
    WellFormed (.cvtIF m0 1 2 false 5) = false ∧ WellFormed (.cvtFI m0 1 2 false 5) = false ∧
    WellFormed (.cvtFBf m0 1 2 5) = false ∧ WellFormed (.cvtBfF m0 1 2 5) = false := by decide

/-! Single steps, with results worked out by hand from the rules. -/

/-- Cluster 0's strand 0 runs, at its only word. -/
def ws : State := (placeWord 0x040c6500 State.reset).enter 0 0 0x040c6500

/-- The same with a change of that strand. -/
def wsM (f : Strand → Strand) : State := ws.modMe f

/-- A strand with some registers written. -/
def withRegs (l : List (Fin 32 × W)) (t : Strand) : Strand := { t with regs := l.foldl (fun v p => v.set p.1.val p.2) t.regs }

/-- What a next state shows of a property. -/
def shows {α : Type} (f : State → α) : Host.Outcome State Fault Refusal → Option α
  | .next t => some (f t)
  | _ => none

/-- A register of the current strand after an instruction. -/
def regAfter (r : Fin 32) (i : Instr) (s : State) : Option W := shows (fun t => t.me.regs.get r) (exec i s)

def wr1 : State := wsM (withRegs [(4, 0xffffffffffffffff), (5, 1), (6, 0x8000000000000000), (7, 0)])

/-- R96: sums wrap; division saturates; a zero divisor gives the limit with the dividend's sign; shifts count by six bits. -/
theorem test_alu :
    regAfter 3 (.add m0 3 4 5) wr1 = some 0 ∧ regAfter 3 (.div m0 3 6 4) wr1 = some 0x7fffffffffffffff ∧
    regAfter 3 (.div m0 3 6 7) wr1 = some 0x8000000000000000 ∧ regAfter 3 (.remu m0 3 4 7) wr1 = some 0 ∧
    regAfter 3 (.shl m0 3 5 4) wr1 = some 0x8000000000000000 ∧ regAfter 3 (.mulh m0 3 6 4) wr1 = some 0 := by decide

/-- R98, R100: immediates extend their sign; lih keeps what is shifted up; bfx of the whole register. -/
theorem test_immediates :
    regAfter 3 (.addi m0 3 5 0x1fff) wr1 = some 0 ∧ regAfter 4 (.lih m0 4 5) wr1 = some 0xfffffffffffc0005 ∧
    regAfter 3 (.bfx m0 3 4 0 63) wr1 = some 0xffffffffffffffff ∧ regAfter 3 (.li m0 3 0x20000) wr1 = some 0xfffffffffffe0000 := by decide

/-- R102: unsigned compares extend their immediate's sign too. -/
theorem test_compare : shows (fun t => t.me.preds) (exec (.cmpiLtu m0 2 5 0x3ff) wr1) = some 0x05 := by decide

/-- R138: a bounded add at its bound, and one beyond it. -/
theorem test_bounded_add :
    amoApply 9 3 4 7 = (some 7, 0x8000000000000003) ∧ amoApply 9 3 4 6 = (none, 3) := by decide

/-- R106: 1 / 3 in FP32, to nearest even, is inexact. -/
theorem test_float_division :
    regAfter 3 (.fdiv m0 3 4 5) (wsM (withRegs [(4, 0x3f800000), (5, 0x40400000)])) = some 0x3eaaaaab := by decide

/-- R45, R124: strand 0 starts with sp at the top of its stack, and enter 3 takes 48 bytes. -/
theorem test_enter : regAfter 2 (.enter m0 3) ws = some 0xb000000000ffffd0 := by decide

/-- R107: fneg flips the sign of the low half, and the upper half of the result is zero. -/
theorem test_fneg : regAfter 3 (.fneg m0 3 4) (wsM (withRegs [(4, 0xffffffff3f800000)])) = some 0xbf800000 := by decide

/-- The word placed by withFetchWord is the next that issues: li 3 with 0x2c0. -/
theorem test_fetch_word : shows (fun t => t.me.regs.get 3) (step (State.reset.withFetchWord 32 0x1c0c02c0)) = some 0x2c0 := by decide

/-- Examples of FIPS 197: the substitution of 0x53, a mixed column, the ninth word of a key's schedule (log 29). -/
theorem test_aes :
    Xts.sub 0x53 = 0xed ∧ (Xts.mix [0xdb, 0x13, 0x53, 0x45]).take 4 = [0x8e, 0x4d, 0xa1, 0xbc] ∧
    Xts.nextWord [[0x60, 0x3d, 0xeb, 0x10], [0x15, 0xca, 0x71, 0xbe], [0x2b, 0x73, 0xae, 0xf0], [0x85, 0x7d, 0x77, 0x81],
      [0x1f, 0x35, 0x2c, 0x07], [0x3b, 0x61, 0x08, 0xd7], [0x2d, 0x98, 0x10, 0xa3], [0x09, 0x14, 0xdf, 0xf4]] = [0x9b, 0xa3, 0x54, 0x11] := by
  decide +kernel

/-! Witnesses: the hypotheses of each statement hold together, clause by clause. -/

theorem witness_ResetAndKernelStart :
    let g := wordGang 0 0
    (g.members.map (·.phys)).Nodup ∧ g.members[0]? = some ⟨0, 0⟩ ∧ (0 : Sn).val < g.image.strands ∧ g.image.strands ≤ (1 : Sn).val := by decide

/-- A module whose strand is at a word, an unassigned word, outside its text, or in a repetition. -/
def atWord (w : BitVec 32) : State := placeWord w State.reset
def outsideText : State := (atWord 1).modStrand 0 0 fun t => { t with pc := 8 }
def inRepetition : State := (atWord 0x48408410).modStrand 0 0 fun t => { t with inRep := true, xrep := 4 }

theorem witness_StepRunsDecodedWord_word :
    let ready (s : State) : Prop :=
      s.todo = [] ∧ s.agenda = [] ∧ s.island ≠ .off ∧ s.pick = some (0, 0) ∧ (s.strand 0 0).eventDue s.cycle = false
    (ready (atWord 1) ∧ ((atWord 1).strand 0 0).inRep = false ∧ fetch (atWord 1) 0 0 = some 1 ∧ decode 1 = .ok (.nop m0)) ∧
    (ready (atWord 0) ∧ fetch (atWord 0) 0 0 = some 0 ∧ decode 0 = .error .unassignedMinor) ∧
    (ready outsideText ∧ fetch outsideText 0 8 = none) ∧ ready inRepetition ∧ (inRepetition.strand 0 0).inRep = true := by decide

theorem witness_StepRunsDecodedWord_rest :
    { ws with todo := [.deviceTick] }.todo = [.deviceTick] ∧
    { ws with agenda := [.deviceTick] }.todo = [] ∧ { ws with agenda := [.deviceTick] }.agenda = [.deviceTick] ∧
    { State.reset with island := .attached }.pick = none ∧ { State.reset with island := .attached }.island ≠ .off := by decide

/-- Core 4 alone runs, at a word of its image. -/
theorem witness_StepRunsDecodedWord_firmware :
    let s : State := { State.reset with island := .attached, fwCores := State.reset.fwCores.set 4 (.start [0xc0, 0x02, 0x0c, 0x1c]) }
    s.todo = [] ∧ s.agenda = [] ∧ s.pick = none ∧ s.pickCore = some (4, 0) ∧
      (let v := (s.fwCores.get 4).strands.get 0
       v.eventDue s.cycle = false ∧ v.inRep = false ∧ v.pc = 0 ∧ 3 < v.allot ∧ decode 0x1c0c02c0 = .ok (.li m0 3 0x2c0)) ∧
      { State.reset with island := .attached }.pickCore = none := by decide

theorem witness_EveryInstructionAnswers :
    ws.me.state = .run ∧ Instr.isWord .deviceTick = false ∧ State.reset.agenda = [] ∧
    Instr.isWord (.nop m0) = true ∧ State.reset.me.state ≠ .run ∧ State.reset.me.state ≠ .handler := by decide

theorem witness_DecodeEncode :
    Instr.isWord (.bfi m0 1 2 0 63) = true ∧ WellFormed (.bfi m0 1 2 0 63) = true ∧ decode 1 = .ok (.nop m0) := by decide

theorem witness_MemoryCanonicalKept : State.reset.memWf ∧ ∃ t, step State.reset = .next t := ⟨rfl, _, rfl⟩

/-- A strand with a result in flight to register 5 and predicate 2. -/
def inFlight : State := wsM fun t => { t with flights := [⟨.reg 5, 1, none, 0⟩, ⟨.preds 4, 1, none, 0⟩] }

theorem witness_OperandReads :
    (Readable ws 5 ∧ inFlight.me.regBusy inFlight.cycle 5 = true ∧ ws.me.qLive = false ∧ ReadableP ws 2 ∧
      inFlight.me.predBusy inFlight.cycle 2 = true) := by
  unfold Readable ReadableP; decide

/-- The words that write a register or a predicate: any strand that runs, in Run or Handler, with 32 registers. -/
theorem witness_runs_fits :
    (Runs ws ∧ Fits ws [31, 31, 31, 31]) ∧ Runs (wsM fun t => { t with state := .handler }) := by
  unfold Runs Fits; decide

theorem witness_AluWords : (0x04000017#32).toNat / 2 ^ 26 = 0x01 ∧ 0x17 ≤ (0x04000017#32).toNat % 2 ^ 8 := by decide

theorem witness_FieldSelectMaddWords : (0#6).toNat + (63#6).toNat + 1 ≤ 64 := by decide

theorem witness_CompareWords :
    ((0x24000006#32).toNat / 2 ^ 26 = 0x09 ∧ 6 ≤ (0x24000006#32).toNat % 2 ^ 8) ∧
    (0x28001800#32).toNat / 2 ^ 26 = 0x0a ∧ 6 ≤ (0x28001800#32).toNat / 2 ^ 10 % 2 ^ 3 ∧ (1 : Preg) ≠ 0 := by decide

theorem witness_FpArithmeticWords :
    (XVal.nan false).isNan ∧ (XVal.fin true 0 1).isZero ∧ (1 : Nat) ≠ 0 ∧
    (XVal.inf false).mul (.fin true 1 1) = .inf true ∧ 0x7f800000 < 2 ^ 32 ∧ (fp32.decode 0x7f800000).isNan = false ∧
    (fp32.decode 0xffffffff).isNan = true := by decide

theorem witness_FpSignCompareConvertWords : (XVal.nan true).isNan ∧ (XVal.fin true 0 1).isZero ∧ (XVal.fin false 0 1).isZero := by decide

theorem witness_TransferAndFrameWords :
    ws.me.inRep = false ∧ (ws.me.xstklim.toNat : Int) ≤ (rd ws 2 1).toNat - 16 * (3#18).toNat ∧
    (let s := wsM fun t => { t with xstklim := 0xb000000000ffffd1 }
     Runs s ∧ ((rd s 2 1).toNat : Int) - 16 * (3#18).toNat < s.me.xstklim.toNat) := by
  unfold Runs; decide

/-- Strand 1 runs beside strand 0, and both join. -/
def joined : State := (ws.modMyCore fun x => { x with xjoin := 3 }).modStrand 0 1 fun t => { t with state := .run }

theorem witness_PlainWordsAndHalts :
    (ws.me.asyncs = [] ∧ ws.me.wait = none ∧ ws.me.inRep = false) ∧ ws.me.latest ws.cycle = ws.cycle ∧
    inFlight.cycle < inFlight.me.latest inFlight.cycle ∧
    (joined.myCore.xjoin.getLsbD joined.cur.k.val = true ∧ joined.me.state = .run ∧
      (1 : Sn) ≠ joined.cur.k ∧ joined.myCore.xjoin.getLsbD 1 = true ∧ (joined.strand 0 1).state = .run ∧ (joined.strand 0 1).zWait = false) ∧
    ((joined.modStrand 0 1 fun t => { t with zWait := true }).strand 0 1).zWait = true ∧
    (let s := joined.modMe fun t => { t with asyncs := [⟨0x0b, 13, 0, 0⟩] }
     s.me.asyncs ≠ [] ∧ s.me.wait = none ∧ (1 : Sn) ≠ s.cur.k ∧ (s.strand 0 1).state = .run ∧ ∀ i : Sn, i < 1 → i = s.cur.k) ∧
    (∀ j, j ≠ ws.cur.k → (ws.strand ws.cur.c j).state ≠ .run) := by decide

/-- A kernel of given words, its strand at the first of them. -/
def program (ts : List (BitVec 32)) : State :=
  { (atWord 1) with gangs := [{ wordGang 1 0 with image := { wordImage 1 with text := ts } }] }.enter 0 0 (ts.headD 0)

theorem witness_LoopAndRepeatWords :
    (let s := program [0x48408410, 0x040c6500]
     Runs s ∧ s.me.inRep = false ∧ fetch s s.cur.c (s.me.pc + 4) = some 0x040c6500 ∧ repeatable 0x040c6500 = true ∧ plainPlace s.me) ∧
    (let s := program [0x48408410, 0x3c000001]
     Runs s ∧ fetch s s.cur.c (s.me.pc + 4) = some 0x3c000001 ∧ repeatable 0x3c000001 = false ∧ Fits s [31]) ∧
    (let s := (program [1, 0x48408410, 0x040c6500]).modMe fun t => { t with pc := 4, loop1 := ⟨2, 4 - 4, 4⟩ }
     Runs s ∧ (bodyEnd s.me s.me.pc s.me.pc).1 ≠ s.me.pc) := by
  unfold Runs Fits plainPlace; decide

/-- An iteration of a repeated add with steps: j = 1, two left, then one left. -/
def repeating (left : W) : State :=
  (program [0x48408410, 0x040c6500]).modMe fun t => { t with inRep := true, xrep := left + 0x100000000 }

theorem witness_RepeatIteration :
    (let s := repeating 2
     Runs s ∧ s.me.inRep = true ∧ fetch s s.cur.c s.me.pc = some 0x48408410 ∧ decode 0x48408410 = .ok (.repImm m0 4 1 0 1) ∧
       fetch s s.cur.c (s.me.pc + 4) = some 0x040c6500 ∧ decode 0x040c6500 = .ok (.add m0 3 3 5) ∧
       1 < s.me.xrep.toNat % 2 ^ 32 ∧ (s.me.xrep >>> 32).toNat + 1 < 2 ^ 32 ∧ (3 : Int) + (1#3).toInt * 1 < s.me.allot) ∧
    (repeating 1).me.xrep.toNat % 2 ^ 32 ≤ 1 ∧ decode 0x047c6500 = .ok (.add m0 31 3 5) ∧
    ¬((31 : Int) + (1#3).toInt * 1 < (repeating 1).me.allot) := by
  unfold Runs; decide

/-- A rep with its count in a register, over a near load (its offset once at the top), an addi, an fma, a madd and a cas. -/
theorem witness_RepeatIteration_forms :
    (∀ i ∈ [Instr.ldD m0 3 4 0 30, .ldD m0 3 4 0 31, .addi m0 3 4 7, .fma m0 3 4 5 6, .madd m0 3 4 5 6, .cas m0 3 4 5 0],
      let s := (program [encode (.rep m0 4 1 0 1), encode i]).modMe fun t => { t with inRep := true, xrep := 0x100000002 }
      Runs s ∧ fetch s s.cur.c s.me.pc = some (encode (.rep m0 4 1 0 1)) ∧ decode (encode (.rep m0 4 1 0 1)) = .ok (.rep m0 4 1 0 1) ∧
        fetch s s.cur.c (s.me.pc + 4) = some (encode i) ∧ decode (encode i) = .ok i ∧ (s.me.xrep >>> 32).toNat = 1) ∧
    (30#6).toInt + (1#3).toInt * 1 ≤ 31 ∧ 31 < (31#6).toInt + (1#3).toInt * 1 := by
  unfold Runs; decide

/-- The smallest allotment: eight registers. -/
def eightRegs : State := wsM fun t => { t with xstatus := 0 }

theorem witness_IllegalWordsTrap :
    Runs eightRegs ∧ eightRegs.me.allot ≤ (8#5).toNat ∧ (7#5).toNat < eightRegs.me.allot := by
  unfold Runs; decide

theorem witness_ControlRegisterReads :
    ((0x1e#8 = 0x1e#8 ∨ 0x24#8 ≤ 0x1e#8) ∧ (0x24#8 : BitVec 8) ≤ 0x24 ∧ readCtl ws 0 0 0x24 = none) ∧
    (readCtl ws 0 0 0x23 = some 0 ∧ ws.myCore.mboxHost = 0 ∧ ws.me.xlates = []) ∧
    (wsM fun t => { t with xlates := [⟨1, 0, false, 400⟩] }).me.xlates ≠ [] ∧
    (ws.modMyCore fun x => { x with mboxHost := 0x80 }).myCore.mboxHost.getLsbD 7 = true := by decide

theorem witness_ControlRegisterWrites :
    let never (n : BitVec 8) : Prop := n ∈ [0x09, 0x0b, 0x0f, 0x20, 0x21, 0x23, 0x1e, 0x1f] ∨ 0x24 ≤ n
    let firm (n : BitVec 8) : Prop := n = 0x0c ∨ n = 0x0e
    let shared (n : BitVec 8) : Prop := n = 0x0a ∨ n = 0x0c ∨ n = 0x22 ∨ (0x10 ≤ n ∧ n ≤ 0x17)
    (¬never 0x0d ∧ ¬firm 0x0d ∧ ¬shared 0x0d) ∧ (¬never 0x17 ∧ shared 0x17) ∧
    (¬never 0x0c ∧ firm 0x0c ∧ (wsM fun t => { t with xstatus := 0x302 }).me.xstatus.getLsbD 1 = true) ∧
    never 0x24 ∧ (firm 0x0e ∧ ws.me.xstatus.getLsbD 1 = false) ∧ Strand.reset.inRep = false := by decide

/-- A kernel whose trap table has the given entries from cause 0 on. -/
def trapping (es : List W) : State :=
  { (atWord 1) with gangs := [{ wordGang 1 0 with image := { wordImage 1 with traps := es } }] }.enter 0 0 1

theorem witness_TrapEntryAndTable :
    (let s := trapping [0x8000000000000040]
     s.me.wait = none ∧ s.me.ctl = [] ∧ s.me.asyncs = [] ∧ s.me.state = .run ∧ (s.gangOf s.cur.c).bind (·.handler 9) = some 0x40) ∧
    (ws.me.state = .run ∧ (ws.gangOf ws.cur.c).bind (·.handler 9) = none) ∧
    (wsM fun t => { t with state := .handler }).me.state = .handler := by decide

theorem witness_SystemWords :
    (let s := trapping [0x8000000000000040, 0, 0, 0, 0, 0, 0, 0, 0, 0, 0x8000000000000080]
     s.me.state = .run ∧ s.me.wait = none ∧ s.me.ctl = [] ∧ (s.gangOf s.cur.c).bind (·.handler 0x09) = some 0x40 ∧
       (s.gangOf s.cur.c).bind (·.handler 0x0a) = some 0x80) ∧
    (wsM fun t => { t with state := .handler, xstatus := 0x342 }).me.xstatus.getLsbD 6 = true ∧ ws.me.xstatus.getLsbD 6 = false ∧
    (wsM fun t => { t with xstatus := 0x302 }).me.xstatus.getLsbD 1 = true ∧ ws.me.xstatus.getLsbD 1 = false := by decide

/-- A store at an address already translated. -/
def translated : Pend := ⟨.store [0], 0, .loc 0x1000 5 (some 0), none, none, false, 0⟩

/-- tlbi goes on while no store of its core stands at an address that it has translated, and holds while one does. -/
theorem witness_SystemWords_tlbi :
    let s : State := wsM fun t => { t with xstatus := 0x302 }
    (s.me.xstatus.getLsbD 1 = true ∧ s.myCore.storesHome = true) ∧
    (let z := s.modMe fun t => { t with pend := [translated] }
     z.me.xstatus.getLsbD 1 = true ∧ z.myCore.storesHome = false) := by decide

/-- Each kind of address, at the ends of its space. -/
theorem witness_AddressTargets :
    (0x8000000000000001#64).toNat % 8 ≠ 0 ∧ (0x007ffffffffffff8#64).getLsbD 63 = false ∧
    bits (0xd000000000000000#64).toNat 60 3 = 5 ∧ bits (0x80000000000bfff8#64).toNat 60 4 = 8 ∧
    target ws 0 0x80000000000bfff8 8 = .ok (0, 0xbfff8) ∧ target ws 0 0x80000000000c0000 8 = .error 3 ∧
    bits (0xb000000000fffff8#64).toNat 60 4 = 0xb ∧ target ws 0 0xb000000001000000 8 = .error 3 ∧
    bits (0xe000000000000000#64).toNat 60 4 = 0xe ∧ ws.physOf (ws.ctxOf 0) 0 = some 0 ∧ ws.rankCluster 0 0 = some 0 ∧
    target ws 0 0x90000000000bfff8 8 = .ok (1, 0xbfff8) ∧ target ws 0 0x9000000000800000 8 = .error 3 ∧
    target ws 0 0xa00000000003fff8 8 = .ok (2, 0x3fff8) ∧ target ws 0 0xa000000000040000 8 = .error 3 ∧
    target ws 0 0xc000000000fffff8 8 = .ok (4, 0xfffff8) ∧ target ws 0 0xc000000040000000 8 = .error 3 := by decide

def atReg (v : W) : State := wsM (withRegs [(4, v)])

theorem witness_NearLoads :
    (target (atReg 0x8000000000000000) 0 (rd (atReg 0x8000000000000000) 4 1) 8 = .ok (0, 0) ∧
      NothingBefore ws 8 0 (.loc (spadLoc 0 0 0) 0) ∧ ws.poisonedIn (spadLoc 0 0 0) 8 = none) ∧
    (target (atReg 0xb000000000000040) 0 (rd (atReg 0xb000000000000040) 4 1) 8 = .ok (3, 0x40) ∧
      NothingBefore ws 8 0 (.loc (vaultLoc 0 0x40) 3) ∧ ws.poisonedIn (vaultLoc 0 0x40) 8 = none ∧ ws.myCore.line? 1 = none ∧
      (ws.modMyCore fun x => { x with dcache := [⟨1, List.replicate 64 0, 0⟩] }).myCore.line? 1 = some ⟨1, List.replicate 64 0, 0⟩) ∧
    target (atReg 0x1000) 0 (rd (atReg 0x1000) 4 1) 8 = .ok (5, 0x1000) ∧ target (atReg 1) 0 (rd (atReg 1) 4 1) 8 = .error 1 := by
  unfold NothingBefore; decide

/-- Context 0 owns key 0, and the TLBs hold its page 0. -/
def mapped : State :=
  let e : TlbEntry := ⟨0, 0, true, 0, true, true, 0⟩
  { (ws.modMyCore fun x => { x with tlb := [e] }).modCtx 0 (fun x => { x with keymap := 1 }) with islandTlb := [e] }

/-- A strand with n accesses of a kind under way. -/
def accesses (n : Nat) (k : AccKind) (s : State) : State :=
  s.modMe fun t => { t with pend := List.replicate n ⟨k, 0, .loc 0 0, none, none, false, 0⟩ }

theorem witness_StoreAndPostedWords :
    ((resolve mapped 0 (tgtOf mapped 0 5 0x1000) false true).2 = .ok (.loc 0x1000 5 (some 0)) ∧ mapped.me.storesBuffered < 16) ∧
    (accesses 16 (.store [0]) mapped).me.storesBuffered = 16 ∧ (accesses 15 (.store [0]) mapped).me.storesBuffered < 16 ∧
    (resolve ws 0 (tgtOf ws 0 5 0x1000) false true).2 = .error 0x20 ∧ (target (atReg 1) 0 1 8 = .error 1) ∧ (0x8000#16 : BitVec 16) ≠ 0 := by
  decide

theorem witness_StoresPerform :
    (2 ^ 43 - 8 + (bytesOf 8 5).length ≤ 2 ^ 43 ∧ (∀ i : Fin 8, ws.uncoreOff (2 ^ 43 - 8 + i.val) = false) ∧ ws.memWf) ∧
    (let s := ws.modMe fun t => { t with pend := [⟨.store [1], 0, .loc 0 0, none, none, false, 0⟩] }
     canPerform s 0 0 0 = true) ∧
    (let s := ws.modMe fun t => { t with pend := [translated] }
     canPerform s 0 0 0 = true ∧ keyOk s (s.ctxOf 0) 0 = false ∧ keyOk mapped (mapped.ctxOf 0) 0 = true) ∧
    (let s := (ws.modMyCore fun x => { x with dcache := [⟨1, List.replicate 64 0, 0⟩] }).modMe fun t =>
       { t with pend := [⟨.store [1], 0, .loc (2 ^ 40 + 0 * 2 ^ 24 + 0x7f) 3, none, none, false, 0⟩] }
     canPerform s 0 0 0 = true ∧ (s.core 0).line? (0x7f / 64) = some ⟨1, List.replicate 64 0, 0⟩) := by
  unfold State.memWf; decide

def queued (n : Nat) : State := wsM fun t => { t with flq := List.replicate n ⟨5, .waiting⟩ }

theorem witness_FarAndTriggerWords :
    (target (atReg 0x1000) 0 (rd (atReg 0x1000) 4 1) 64 = .ok (5, 0x1000) ∧ (queued 7).me.flq.length < 8) ∧
    8 ≤ (queued 8).me.flq.length ∧ target (atReg 0x1008) 0 (rd (atReg 0x1008) 4 1) 64 = .error 1 ∧ Fits ws [30, 31] := by
  unfold Fits; decide

theorem witness_FarAccessesDeliver :
    let s (k : AccKind) (t : Tgt) : State :=
      (queued 1).modMe fun y => { y with pend := [⟨k, 0, t, none, none, false, 0⟩] }
    (canPerform (s (.load 0 8 false) (.loc 0 0)) 0 0 0 = true ∧ (0#3 : BitVec 3) = ((queued 1).strand 0 0).flqHead ∧
      ((queued 1).strand 0 0).flq = [⟨5, .waiting⟩] ∧ (queued 1).poisonedIn 0 8 = none) ∧
    canPerform (s (.amo 0 9 1 2) (.loc 0 0)) 0 0 0 = true ∧
    (let z := s (.load 0 8 false) (.peer 1 0 0)
     canPerform z 0 0 0 = true ∧ z.window (z.ctxOf 0) 1 0 = none) := by decide

/-- With no access before it there is none to translate. -/
theorem witness_FarAccessesDeliver_first (s : State) : translateOlder 0 0 ((s.strand 0 0).pend.take 0) s = some s := rfl

theorem witness_FarQueuePopAndHalt :
    (let s := (queued 1).modMe fun y => { y with pend := [⟨.load 0 8 false, 0, .virt 0x1000, none, none, false, 0⟩] }
     canPerform s 0 0 0 = true ∧ lookup s (s.core 0).tlb (s.ctxOf 0) 0x1000 true false (s.requestKey 0) = .error 0x20) ∧
    ((wsM fun t => { t with flqHalt := some ⟨0, ⟨0x20, 0x1000, false⟩⟩ }).strand 0 0).flqHalt = some ⟨0, ⟨0x20, 0x1000, false⟩⟩ ∧
    ws.me.flq = [] ∧ (queued 1).me.flq = [⟨5, .waiting⟩] ∧ (wsM fun t => { t with flq := [⟨5, .value 7⟩] }).me.flq = [⟨5, .value 7⟩] ∧
    (wsM fun t => { t with flq := [⟨5, .refused 2 7⟩] }).me.flq = [⟨5, .refused 2 7⟩] := by decide

theorem witness_RemoteStores :
    (target (atReg 0x8000000000000000) 0 0x8000000000000000 1 = .ok (0, 0) ∧ target ws 0 0 1 = .ok (5, 0) ∧
      target ws 0 0xd000000000000000 1 = .error 2 ∧
      (accesses 3 (.move 0 0 1 false) ws).me.pend.length < 4 ∧ 4 ≤ (accesses 4 (.move 0 0 1 false) ws).me.pend.length) ∧
    (let s := ws.modMe fun y =>
       { y with pend := [⟨.move (BitVec.ofNat 64 (2 ^ 63 + 0xbfff0)) (BitVec.ofNat 64 (2 ^ 63 + 0xbfff8)) 8 false, 0, .loc 0 0, none, none, false, 0⟩] }
     canPerform s 0 0 0 = true ∧ s.tileOk 0 0 = true ∧ s.poison = [] ∧ 0xbfff0 + 8 ≤ 0xbfff8 ∧ 0xbfff8 + 8 ≤ 0xc0000 ∧ s.memWf) := by
  unfold State.memWf; decide

/-! Launches, blocks and slots for the witnesses. -/

/-- Three nodes: 0 has successor 1, 2 has none and no predecessor. -/
def aNode (succ : BitVec 64) : Node := ⟨0x1000, 0, 8, 1, 1, false, false, succ, some (wordImage 1), true, false, 1⟩
def aLaunch : Launch where
  id := 0
  packet := [1, 0x2000, 0, 0, 0, 0x3000, 0, 0]
  index := 0
  queue := 0
  die := 0
  ctx := 0
  phase := .admitted
  taken := 0
  rank := 0
  nodes := [aNode 2, aNode 0, aNode 0]
  outstanding := 1
  placed := 0
  started := true
  rejectedSpawns := 0
  reefed := false
  status := none
  validity := 0
  doneAtReef := 0
  tAdmit := 0
  tPlace := 0
  tReef := 0
  slipSum := 0
  slipLog := none
  events := []
  faulted := false
  consumed := none
  replayed := false
  purging := false
  offChip := false
  clustersDone := false
  recordWait := none

theorem witness_SpawnAndTranslate_spawn :
    let s (v : W) : State := { atReg v with launches := [aLaunch] }
    (∃ g, (s 0x100).gangOf 0 = some g ∧ (s 0x100).launch? g.launch = some aLaunch) ∧
    ({ aLaunch with reefed := true }.reefed = true ∨ bits (0x00#64).toNat 8 24 = 0) ∧
    (aLaunch.reefed = false ∧ bits (0x101#64).toNat 8 24 = 1 ∧ aLaunch.nodes.any (fun x => x.succ.getLsbD ((0x101#64).toNat % 64)) = true) ∧
    aLaunch.nodes.length ≤ (0x103#64).toNat % 64 ∧
    (aLaunch.nodes[(0x102#64).toNat % 64]? = some (aNode 0) ∧ aLaunch.nodes.any (fun y => y.succ.getLsbD 2) = false ∧
      (aNode 0).size ≤ (s 0x102).enabledOf (spawnDie (s 0x102) 0x102) ∧ (s 0x102).recordFree (spawnDie (s 0x102) 0x102) = true) := by
  refine ⟨⟨wordGang 0x040c6500 0, ?_, ?_⟩, ?_⟩ <;> decide

/-- Tables in device memory under context 0: a large page for reading at 0, one without permissions behind it. -/
def walked : State :=
  setWordAt (setWordAt (setWordAt (setWordAt (ws.modCtx 0 fun x => { x with root := 0x10000, keymap := 1 }) 0x10000 0x20001)
    0x20000 0x0b) 0x20008 0x09) 0x20010 0x100000000000002b

theorem witness_SpawnAndTranslate_xlate :
    (ws.me.xlates.length < 4 ∧ (wsM fun t => { t with xlates := List.replicate 4 ⟨1, 0, false, 400⟩ }).me.xlates.length = 4 ∧
      ((wsM fun t => { t with xlates := [⟨1, 0, false, 400⟩] }).strand 0 0).xlates[0]? = some ⟨1, 0, false, 400⟩) ∧
    (0xb000000000000000#64).getLsbD 63 = true ∧ ((0x0080000000000000#64).getLsbD 63 = false ∧ bits (0x0080000000000000#64).toNat 55 8 ≠ 0) ∧
    ((walked.core 0).tlb = [] ∧ walkLeaf walked (walked.ctxOf 0) 0 = some ⟨true, 0, true, false, false, 0⟩ ∧
      leafAddr ⟨true, 0, true, false, false, 0⟩ 0 < hbmSize ∧ keyOk walked 0 (leafKey ⟨true, 0, true, false, false, 0⟩ (walked.requestKey 0)) = true) ∧
    walkLeaf walked (walked.ctxOf 0) 0x20000000 = some ⟨true, 0, false, false, false, 0⟩ ∧
    (walkLeaf walked (walked.ctxOf 0) 0x40000000 = some ⟨true, 0, true, false, false, 0x100⟩ ∧ keyOk walked 0 0x100 = false) ∧
    walkLeaf walked (walked.ctxOf 0) 0x60000000 = none := by decide

/-- Tile 0 with semaphore 4 full, ring 2 declared with four slots, two of them filled. -/
def objects : State :=
  (ws.modMyCore fun x => { x with handles := x.handles.set 3 { Handle.zero with ext0 := 1 } }).modTile 0 0 fun y =>
    { y with sems := y.sems.set 4 65535, rings := y.rings.set 2 ⟨true, 0, 0, 64, 4, 2, 0, 0⟩ }

/-- Tile 0 is disabled. -/
def noTile : State := { ws with config := { ws.config with tileDisable := 1 } }

theorem witness_SynchronisationWords_objects :
    (objects.tileOk 0 0 = true ∧ objects.me.pend = [] ∧ objects.me.inRep = false) ∧
    ((objects.tile 0 0).sems.get 4).toNat + (0#9).toNat ≤ 65535 ∧ 65535 < ((objects.tile 0 0).sems.get 4).toNat + (1#9).toNat ∧
    noTile.tileOk 0 0 = false ∧
    (ringBusy (objects.tile 0 0) 0 2 = false ∧ (readHandle objects 3).ext0 ≠ 0 ∧ (readHandle objects 3).space.toNat ≤ 4 ∧
      inspaceEng objects 0 0 0 (4 * 64) = true) ∧
    (readHandle objects 1).ext0 = 0 ∧ ringBusy ((objects.modTile 0 0 fun y =>
      { y with links := [(.l, 0, 0, 0)], tmpls := [⟨.l, 0, zeroBlock.set 2 0x500020000⟩] }).tile 0 0) 0 2 = true ∧
    (((objects.tile 0 0).rings.get 2).declared = true ∧ ((objects.tile 0 0).rings.get 2).ns < (5#9).toNat ∧
      (4#9).toNat ≤ ((objects.tile 0 0).rings.get 2).ns ∧
      (((objects.tile 0 0).rings.get 2).fill - ((objects.tile 0 0).rings.get 2).free).toNat < (3#9).toNat ∧
      (2#9).toNat ≤ (((objects.tile 0 0).rings.get 2).fill - ((objects.tile 0 0).rings.get 2).free).toNat) ∧
    ((ws.tile 0 0).rings.get 2).declared = false := by decide

/-- A ring.decl before it is handed over, while it waits, and behind it. -/
theorem witness_SynchronisationWords_declares :
    let d : RingDecl := ⟨0, 2, 3, 4⟩
    let s : State := objects.modMe fun t => { t with tld := true }
    objects.me.tld = false ∧ s.me.tld = true ∧ (∀ x ∈ (s.tile 0 0).decls, x.strand ≠ s.cur.k) ∧
    (let z := s.modTile 0 0 fun y => { y with decls := [d] }
     z.me.tld = true ∧ ∃ x ∈ (z.tile 0 0).decls, x.strand = z.cur.k) := by decide

/-- Two strands run, and the current one has arrived at barrier 0 or not. -/
def atBarrier (arrived : List (Cl × Sn)) : State :=
  { (ws.modStrand 0 1 fun t => { t with state := .run }) with
    gangs := [{ wordGang 1 0 with bars := (wordGang 1 0).bars.set 0 ⟨7, arrived⟩ }] }

theorem witness_SynchronisationWords_barriers :
    (∃ g, (atBarrier []).gangOf 0 = some g ∧ ((0, 0) : Cl × Sn) ∉ (g.bars.get 0).arrived ∧
      (g.bars.get 0).arrived.length + 1 < participants (atBarrier []) g) ∧
    (∃ g, (atBarrier [(0, 1)]).gangOf 0 = some g ∧ ((0, 0) : Cl × Sn) ∉ (g.bars.get 0).arrived ∧
      participants (atBarrier [(0, 1)]) g ≤ (g.bars.get 0).arrived.length + 1) ∧
    (∃ g, (atBarrier [(0, 0)]).gangOf 0 = some g ∧ ((0, 0) : Cl × Sn) ∈ (g.bars.get 0).arrived) ∧
    (∃ g, ((atBarrier []).modGang 0 fun g => { g with preempt := some .node, bars := g.bars.set 15 ⟨7, [(0, 1)]⟩ }).gangOf 0 = some g ∧
      g.preempt = some .node ∧ participants (atBarrier []) g ≤ (g.bars.get 15).arrived.length + 1) ∧
    (atBarrier []).me.pend = [] ∧ (atBarrier []).me.inRep = false := by
  refine ⟨⟨_, rfl, ?_⟩, ⟨_, rfl, ?_⟩, ⟨_, rfl, ?_⟩, ⟨_, rfl, ?_⟩, ?_⟩ <;> decide

theorem witness_SynchronisationWords_memory :
    target mapped 0 0x1000 8 = .ok (5, 0x1000) ∧ (resolve mapped 0 (tgtOf mapped 0 5 0x1000) true false).2 = .ok (.loc 0x1000 5 (some 0)) ∧
    (resolve mapped 0 (tgtOf mapped 0 5 0x1000) true false).1.poisonedIn 0x1000 8 = none ∧ mapped.me.pend = [] ∧ mapped.me.inRep = false := by decide

def waiting (o : WaitObj) : State := wsM fun t => { t with wait := some ⟨o, 0, 256⟩ }

/-- A strand that waits for an object until core cycle 256, in the last core cycle of the tick before it, grants made. -/
def expiring (o : WaitObj) (s : State) : State :=
  { s.modStrand 0 0 fun t => { t with wait := some ⟨o, 0, 256⟩ } with cycle := 255, ticked := 86 }

theorem witness_WaitsEnd :
    let due (s : State) (o : WaitObj) : Prop := (s.strand 0 0).wait = some ⟨o, 0, 256⟩ ∧ 256 / 3 ≤ s.cycle / 3 ∧ s.ticked = s.cycle / 3 + 1
    let word : WaitObj := .mem 0 true (.loc 0 0) 0 0 false
    (let s := waiting word
     (s.strand 0 0).wait = some ⟨word, 0, 256⟩ ∧ s.poisonedIn 0 8 = none ∧ (s.strand 0 0).pend = [] ∧ ofBytes (readHome s 0 8) = 0 ∧
       s.cycle / 3 < 256 / 3) ∧
    ofBytes (readHome (setWordAt (waiting word) 0 1) 0 8) ≠ 0 ∧
    due (expiring word ws) word ∧ due (expiring (.sem 0 4 1) ws) (.sem 0 4 1) ∧ due (expiring (.ring 0 2 1) objects) (.ring 0 2 1) := by decide

theorem witness_WaitsEnd_barriers_and_queues :
    let s (phase : BitVec 16) : State := expiring (.bar 0 phase) (atBarrier [(0, 0)])
    (∃ g, (s 7).gangOf 0 = some g ∧ (g.bars.get 0).phase = 7 ∧ ((s 7).strand 0 0).wait = some ⟨.bar 0 7, 0, 256⟩) ∧
    (∃ g, (s 6).gangOf 0 = some g ∧ (g.bars.get 0).phase ≠ 6 ∧ ((s 6).strand 0 0).wait = some ⟨.bar 0 6, 0, 256⟩) ∧
    (let e (n : BitVec 32) : State := expiring (.efence .l false [(0, .l, n)]) ws
     ((e 1).tile 0 0).stoppedUpTo .l 1 = false ∧ ((e 0).tile 0 0).stoppedUpTo .l 0 = true) := by
  refine ⟨⟨_, rfl, ?_⟩, ⟨_, rfl, ?_⟩, ?_⟩ <;> decide

/-- A handle in peer space. -/
def peerHandle : State := ws.modMyCore fun x => { x with handles := x.handles.set 1 { Handle.zero with space := 6 } }

theorem witness_HandleWords :
    (target (atReg 0x8000000000000000) 0 (rd (atReg 0x8000000000000000) 4 1) 32 = .ok (0, 0) ∧
      NothingBefore (atReg 0x8000000000000000) 32 0 (.loc (spadLoc 0 0 0) 0) ∧ (atReg 0x8000000000000000).poisonedIn (spadLoc 0 0 0) 32 = none) ∧
    ws.myCore.hflights = [] ∧ (3#4).toNat < 4 ∧ (ws.myCore.handles.get 1).space ≠ 6 ∧ (peerHandle.myCore.handles.get 1).space = 6 := by
  unfold NothingBefore; decide

/-- An entry of a queue. -/
def anEntry (f : Block) (seq : BitVec 32) (p : EntryPhase) : Entry :=
  ⟨f, 0, seq, 0, 0, p, 0, [], [], 0, 0, none, false, false, false, 0, false, none⟩

/-- Engine e of tile 0 with given entries; tile 0 is in the mask. -/
def withEntries (e : Eng) (es : List Entry) : State :=
  (wsM fun t => { t with xtmask := 1 }).modTile 0 0 fun y => y.setQueue e ⟨es, BitVec.ofNat 32 (es.length + 1), 0, 0⟩

theorem witness_EngineWords_queues :
    let full := withEntries .l (List.replicate 16 (anEntry [] 1 .queued))
    let one := withEntries .l [anEntry [] 1 .queued]
    (Chosen full 0 ∧ (full.tile 0 0).hasRoom .l = false) ∧ (one.tile 0 0).hasRoom .l = true ∧ ¬Chosen one 1 ∧
    (one.tile 0 0).stoppedUpTo .l ((one.tile 0 0).latestSeq .l) = false ∧
    (ws.tile 0 0).stoppedUpTo .l ((ws.tile 0 0).latestSeq .l) = true ∧ one.tileOk 0 0 = true ∧ noTile.tileOk 0 0 = false ∧
    (readHandle ws 0).wideStride = none ∧
    (readHandle (ws.modMyCore fun x => { x with handles := x.handles.set 1 { Handle.zero with str3 := 0x100000 } }) 1).wideStride = some 3 := by
  unfold Chosen; decide

theorem witness_EngineWords_templates :
    let s : State := (atReg 0x8000000000000000).modMe fun t => { t with xtmask := 0x80 }
    (∀ y, ¬Chosen ws y) ∧ Chosen s 7 ∧ (∀ z, Chosen s z → (7 : Tl).val ≤ z.val) ∧ s.me.tld = false ∧ s.me.pend = [] ∧
    target s 0 (rd s 4 1) 256 = .ok (0, 0) ∧ s.poisonedIn (spadLoc 0 0 0) 256 = none ∧ (s.tile 0 7).amends = [] ∧
    (s.modMe fun t => { t with tld := true }).me.tld = true ∧ (∀ z, (s.tile 0 z).tlds = []) ∧
    (∃ z, ∃ x ∈ ((s.modTile 0 7 fun y => { y with tlds := [⟨0, 0, .l, 3, []⟩] }).tile 0 z).tlds, x.strand = s.cur.k) ∧
    (accesses 12 (.store [0]) s).me.storesBuffered ≤ 12 ∧ 12 < (accesses 13 (.store [0]) s).me.storesBuffered := by
  unfold Chosen; decide

/-- A block of one element: operator op, D, A and B at 0x100, 0x200 and 0x300 of the scratchpad, further fields as given. -/
def aBlock (op : Nat) (sets : List (Nat × W)) : Block :=
  sets.foldl (fun f p => f.set p.1 p.2) ((((List.replicate 32 0).set 0 (BitVec.ofNat 64 op)).set 10 0x100).set 14 0x200 |>.set 18 0x300)

/-- The conditions of OneElem on a block of operator op, alone in its queue and running. -/
def runsOne (e : Eng) (f : Block) (op : Nat) : Bool :=
  let s := withEntries e [anEntry f 1 .running]
  decide (((s.tile 0 0).queue e).runner = some (anEntry f 1 .running)) && opOf f == op && ndimOf f == 0 && rmOf f != 5 && !ftzOf f &&
    Machine.fld f 29 == 0

theorem withEntries_quiet (e : Eng) (es : List Entry) :
    (withEntries e es).poison = [] ∧ ((withEntries e es).tile 0 0).accOld.2 = [] ∧ ((withEntries e es).tile 0 0).redLand = [] := by
  refine ⟨?_, ?_⟩
  · unfold withEntries wsM; simp only [State.modTile_poison, State.modMe_poison]; decide
  · cases e <;> exact ⟨rfl, rfl⟩

theorem runsOne_oneElem {e : Eng} {f : Block} {op : Nat} (h : runsOne e f op = true) :
    OneElem (withEntries e [anEntry f 1 .running]) ⟨0, 0, e⟩ (anEntry f 1 .running) op := by
  simp only [runsOne, Bool.and_eq_true, decide_eq_true_eq, beq_iff_eq, bne_iff_ne, Bool.not_eq_true'] at h
  obtain ⟨⟨⟨⟨⟨h1, h2⟩, h3⟩, h4⟩, h5⟩, h6⟩ := h
  exact ⟨⟨h1, h2, rfl, rfl, rfl, Nat.zero_le _, h4, h5, rfl, h6, (withEntries_quiet ..).1, fun _ => (withEntries_quiet ..).2.1, (withEntries_quiet ..).2.2, rfl⟩, h3⟩

/-- A block of one row of n elements, their strides 1. -/
def aRow (op n : Nat) (sets : List (Nat × W)) : Block :=
  aBlock (op + 256) ((4, BitVec.ofNat 64 n) :: (12, 1) :: (16, 1) :: sets)

/-- The conditions of OneRow on it, alone in its queue and running. -/
def runsRow (f : Block) (op n : Nat) : Bool :=
  let s := withEntries .v [anEntry f 1 .running]
  decide (((s.tile 0 0).queue .v).runner = some (anEntry f 1 .running)) && opOf f == op && ndimOf f == 1 && rmOf f != 5 && !ftzOf f &&
    Machine.fld f 29 == 0 && extOf f 0 == n && decide (0 < n)

theorem runsRow_oneRow {f : Block} {op n : Nat} (h : runsRow f op n = true) :
    OneRow (withEntries .v [anEntry f 1 .running]) ⟨0, 0, .v⟩ (anEntry f 1 .running) op n := by
  simp only [runsRow, Bool.and_eq_true, decide_eq_true_eq, beq_iff_eq, bne_iff_ne, Bool.not_eq_true'] at h
  obtain ⟨⟨⟨⟨⟨⟨⟨h1, h2⟩, h3⟩, h4⟩, h5⟩, h6⟩, h7⟩, h8⟩ := h
  exact ⟨⟨h1, h2, rfl, rfl, rfl, Nat.zero_le _, h4, h5, rfl, h6, (withEntries_quiet ..).1, fun _ => (withEntries_quiet ..).2.1, (withEntries_quiet ..).2.2, rfl⟩, h3, h7, h8⟩

/-- Its elements of operand o lie in the scratchpad of tile 0, those of D below those of A. -/
def rowThere (f : Block) (n : Nat) : Bool :=
  [0, 1].all (fun o => swzOf f o == 0 && tyOf f o != 5 && spaceOf f o == 0 && (List.range n).all fun j => decide (addrOf f o [j] 0 + 8 ≤ 0xc0000)) &&
    (List.range n).all fun i => (List.range n).all fun j => decide (addrOf f 0 [i] 0 + 8 ≤ addrOf f 1 [j] 0)

theorem rowThere_at {f : Block} {n : Nat} (h : rowThere f n = true) {o j : Nat} (ho : o ∈ [0, 1]) (hj : j < n) :
    At ⟨0, 0, .v⟩ f o (addrOf f o [j] 0) (spadLoc 0 0 (addrOf f o [j] 0)) 8 := by
  simp only [rowThere, Bool.and_eq_true, List.all_eq_true, decide_eq_true_eq, beq_iff_eq, bne_iff_ne, List.mem_range] at h
  obtain ⟨⟨⟨h1, h2⟩, h3⟩, h4⟩ := h.1 o ho
  exact ⟨h1, .inl ⟨h3, by simp [h2], by simpa [h2] using h4 j hj⟩⟩

/-- Operand o of a block lies in the scratchpad of tile 0, with n bytes. -/
def inSpad (f : Block) (o n : Nat) : Bool :=
  swzOf f o == 0 && tyOf f o != 5 && spaceOf f o == 0 && decide (Machine.fld f (10 + 4 * o) + n ≤ 0xc0000)

theorem inSpad_lies {f : Block} {o n : Nat} (h : inSpad f o n = true) (e : Eng) :
    Lies ⟨0, 0, e⟩ f o (spadLoc 0 0 (Machine.fld f (10 + 4 * o))) n := by
  simp only [inSpad, Bool.and_eq_true, decide_eq_true_eq, beq_iff_eq, bne_iff_ne] at h
  exact ⟨h.1.1.1, .inl ⟨h.1.2, by simp [h.1.1.2], by simpa [h.1.1.2] using h.2⟩⟩

/-- D and B with 8 bytes and A with n. -/
def lieThere (f : Block) (n : Nat) : Bool := inSpad f 0 8 && inSpad f 1 n && inSpad f 2 8

/-- The read of the accumulators, and reductions, of floats and of integers. -/
theorem witness_vector_operators :
    ∀ op ∈ [0x10, 0x11, 0x12, 0x13, 0x1a],
      runsOne .v (aBlock op []) op = true ∧ runsOne .v (aBlock op [(11, 8), (15, 8), (19, 8)]) op = true ∧ lieThere (aBlock op []) 8 = true ∧
        lieThere (aBlock op [(11, 8), (15, 8), (19, 8)]) 8 = true := by
  decide

/-- A block of two rows of three elements under flush to zero and stochastic rounding, D swizzled. -/
def aNest (op : Nat) : Block := aBlock (op + 512 + 0x2000 + 5 * 65536) [(4, 3), (5, 2), (11, 0x100), (12, 0x600001), (16, 0x600001), (20, 0x600001)]

/-- The conditions of NestRow on a block at its first row, alone in its queue and running. -/
def runsNest (f : Block) (op n : Nat) : Bool :=
  let s := withEntries .v [anEntry f 1 .running]
  decide (((s.tile 0 0).queue .v).runner = some (anEntry f 1 .running)) && opOf f == op && extOf f 0 == n && decide (0 < n) && decide (n ≤ totalOf f)

theorem runsNest_nestRow {f : Block} {op n : Nat} (h : runsNest f op n = true) :
    NestRow (withEntries .v [anEntry f 1 .running]) ⟨0, 0, .v⟩ (anEntry f 1 .running) op n := by
  simp only [runsNest, Bool.and_eq_true, decide_eq_true_eq, beq_iff_eq] at h
  obtain ⟨⟨⟨⟨h1, h2⟩, h3⟩, h4⟩, h5⟩ := h
  exact ⟨h1, h2, h3, h4, Nat.zero_mod n, by simpa [anEntry] using h5, rfl, rfl, Nat.zero_le _, rfl, (withEntries_quiet ..).1,
    fun _ => (withEntries_quiet ..).2.1, (withEntries_quiet ..).2.2, rfl⟩

/-- Every operand's element at an index vector lies in the scratchpad of tile 0. -/
def nestThere (f : Block) (is : List (List Nat)) : Bool :=
  [0, 1, 2].all fun o => tyOf f o != 5 && spaceOf f o == 0 && is.all fun i => decide (addrOf f o i 0 < 0x400)

theorem nestThere_placed {f : Block} {is : List (List Nat)} (h : nestThere f is = true) (s : State) {o : Nat} (ho : o ∈ [0, 1, 2]) {i : List Nat}
    (hi : i ∈ is) : ∃ l, Placed s ⟨0, 0, .v⟩ f o i l := by
  simp only [nestThere, List.all_eq_true, Bool.and_eq_true, decide_eq_true_eq, beq_iff_eq, bne_iff_ne] at h
  obtain ⟨⟨h5, h0⟩, ha⟩ := h o ho
  have hb := ha i hi
  have hu := unitOf_le (tyOf f o)
  unfold Placed
  refine ⟨_, .inl ⟨h0, rfl, ?_⟩⟩
  simp only [h5, if_false]
  generalize addrOf f o i 0 = y at hb
  split
  · rename_i hz
    have hb2 : y < 2 ^ 10 := hb
    have e : y / 2 ^ (10 + swzOf f o) = 0 := Nat.div_eq_of_lt (lt_of_lt_of_le hb2 (Nat.pow_le_pow_right (by decide) (Nat.le_add_right 10 _)))
    rw [e]; simp; omega
  · omega

/-- Two rows of the nest, its flush and its rounding mode, and the row of a bcast: operands there, lanes seeded. -/
theorem witness_VectorArithmetic :
    ∀ op ∈ [1, 2, 3, 4, 5, 6, 7, 8], runsNest (aNest op) op 3 = true ∧ rmOf (aNest op) = 5 ∧ ftzOf (aNest op) = true ∧
      nestThere (aNest op) ((List.range 3).map (indexOf (aNest op))) = true := by decide +kernel

theorem witness_VectorSelection :
    ∀ op ∈ [9, 0xa, 0xb, 0xc, 0x14, 0x15, 0x19, 0x21, 0x22, 0x23, 0x24, 0x2a], runsNest (aNest op) op 3 = true ∧
      nestThere (aNest op) ((List.range 3).map (indexOf (aNest op)) ++ (List.range 3).map (atPlace (aNest op) 0)) = true := by decide +kernel

/-- A block quantisation to E4M3 of a row of 33 elements: two groups. -/
theorem witness_VectorFunctions :
    let f := aRow 0x18 33 [(11, 4)]
    runsRow f 0x18 33 = true ∧ rowThere f 33 = true ∧ tyOf f 0 = 4 ∧ fbits f 23 0 20 + 2 * ((33 + 31) / 32) ≤ 0x100 := by
  decide +kernel

/-- The three reductions and a scan of a row of three; an emit. -/
theorem witness_VectorRowResults :
    (∀ op ∈ [0x10, 0x11, 0x12, 0x13], runsRow (aRow op 3 []) op 3 = true ∧ rowThere (aRow op 3 []) 3 = true ∧ tyOf (aRow op 3 []) 0 ≠ 5 ∧
      oneClass (aRow op 3 []) [0, 1] = true) ∧
    runsOne .v (aBlock 0x2c [(15, 8)]) 0x2c = true ∧ lieThere (aBlock 0x2c [(15, 8)]) 8 = true ∧ isFloatTy (tyOf (aBlock 0x2c [(15, 8)]) 1) = false := by
  decide +kernel

/-- A table of 3,088 bytes; a cell of three words; a bucket of 32-bit keys whose last counter ends the scratchpad; a sort of
one element, with its index, and of a row of 65. -/
theorem witness_VectorTablesAndKeys :
    (runsOne .v (aBlock 0x20 []) 0x20 = true ∧ lieThere (aBlock 0x20 []) 3088 = true) ∧
    (runsOne .v (aBlock 0x29 [(11, 8), (15, 8)]) 0x29 = true ∧ lieThere (aBlock 0x29 [(11, 8), (15, 8)]) 12 = true) ∧
    (let f := aBlock 0x28 [(11, 8), (15, 8), (19, 8), (22, 0x10002), (23, 0xbfffc)]
     runsOne .v f 0x28 = true ∧ lieThere f 8 = true ∧ isFloatTy (tyOf f 1) = false ∧ typeBits (tyOf f 1) ≤ 32 ∧ 1 ≤ fbits f 22 16 13 ∧
       fbits f 23 0 20 / 4 * 4 + 4 * fbits f 22 16 13 ≤ 0xc0000) ∧
    (runsRow (aRow 0x2b 65 [(14, 0x400)]) 0x2b 65 = true ∧ rowThere (aRow 0x2b 65 [(14, 0x400)]) 65 = true ∧ fbits (aRow 0x2b 65 [(14, 0x400)]) 22 1 1 = 0 ∧
      tyOf (aRow 0x2b 65 [(14, 0x400)]) 1 ≠ 5) ∧
    runsOne .v (aBlock 0x2b [(22, 2)]) 0x2b = true ∧ lieThere (aBlock 0x2b [(22, 2)]) 8 = true ∧ tyOf (aBlock 0x2b []) 0 = tyOf (aBlock 0x2b []) 1 := by
  decide +kernel

/-- The moves run on both engines; an index within the limit, and one beyond it, of a pitch of 1. -/
theorem witness_MoveOperators :
    (∀ op ∈ [1, 5, 6, 2, 3, 4, 7, 8, 9], ∀ e ∈ [Eng.l, Eng.s],
      runsOne e (aBlock op [(11, 8), (15, 8), (19, 8)]) op = true ∧ lieThere (aBlock op [(11, 8), (15, 8), (19, 8)]) 8 = true) ∧
    (let f := aBlock 2 [(22, 1), (24, 1)]
     codeAt (withEntries .l [anEntry f 1 .running]) 0 (spadLoc 0 0 0x300) < fbits f 22 0 32 ∧ 0 ≤ sx (fbits f 24 0 32) 32 ∧
       Machine.fld f 14 + 0 + 8 ≤ 0x40000 ∧ Machine.fld f 10 + 0 + 8 ≤ 0x40000 ∧ isFloatTy (tyOf (aBlock 7 [(11, 8)]) 0) = false ∧
       0 < fbits (aBlock 4 [(22, 0x1000000000000)]) 22 48 13 ∧ fbits (aBlock 4 []) 23 0 20 / 4 * 4 + 4 * 0 + 4 ≤ 0xc0000 ∧ tyOf f 1 ≠ 5) ∧
    ¬(0 < fbits (aBlock 2 []) 22 0 32) := by
  decide

/-- A copy of one element to the scratchpad from a space: from the vault, from device memory through the stream TLB, from a peer. -/
def copyFrom (sp : Nat) : Block := aBlock 1 [(15, BitVec.ofNat 64 (sp * 16))]
def streams : State :=
  ((withEntries .s [anEntry (copyFrom 5) 1 .running]).modTile 0 0 fun y => { y with streamTlb := [(.s, ⟨0, 0, true, 0, true, true, 0⟩)] }).modCtx 0
    fun x => { x with keymap := 1 }

theorem witness_MoveOperators_spaces :
    (∀ sp ∈ [3, 5, 6], runsOne .s (copyFrom sp) 1 = true ∧ tyOf (copyFrom sp) 0 = tyOf (copyFrom sp) 1 ∧ tyOf (copyFrom sp) 0 = 0 ∧ spaceOf (copyFrom sp) 1 = sp ∧
      inSpad (copyFrom sp) 0 8 = true) ∧
    (let s := withEntries .s [anEntry (copyFrom 3) 1 .running]
     Found s ⟨0, 0, .s⟩ (copyFrom 3) 1 0x200 false s (vaultLoc 0 0x200) ∧
       Found s ⟨0, 0, .s⟩ (copyFrom 3) 0 0x100 true s (spadLoc 0 0 0x100)) ∧
    (translateStream streams ⟨0, 0, .s⟩ 0x200 true false).2.toOption = some 0x200 ∧
    (translateStream (withEntries .s [anEntry (copyFrom 5) 1 .running]) ⟨0, 0, .s⟩ 0x200 true false).2.toOption = none := by
  refine ⟨by decide, ⟨.inr (.inr (.inr (.inl ⟨rfl, rfl, rfl, by decide, rfl⟩))), .inl ⟨rfl, rfl, rfl, by decide⟩⟩, by decide +kernel, by decide +kernel⟩

theorem witness_MoveOperators_peer :
    let s := withEntries .s [anEntry (copyFrom 6) 1 .running]
    (peerAccess { s with fresh := s.fresh + 1 } (.element 0 0 .s) (s.ctxOf 0) (clsOf (copyFrom 6)) 0 0 0x200 (.read 4)).1.poison = [] := by
  decide +kernel

/-- Rows of the accumulator: D in space 2, one weight row, A and B in the scratchpad. -/
theorem witness_MatrixOperators :
    let f (op : Nat) : Block := aBlock op [(10, 0x200), (11, 0x20), (14, 0x200), (15, 6), (18, 0x300), (19, 6), (22, 1)]
    let inAcc (f : Block) : Prop := spaceOf f 0 = 2 ∧ swzOf f 0 = 0 ∧ Machine.fld f 10 < 0x40000
    (∀ op ∈ [1, 2, 4, 5, 6], runsOne .m (f op) op = true ∧ inAcc (f op)) ∧
    inSpad (f 1) 1 1 = true ∧ inSpad (f 6) 1 128 = true ∧ inSpad (f 4) 2 128 = true ∧ 0 ≤ sx (fbits (f 4) 24 0 32) 32 ∧
    ((withEntries .m [anEntry (f 1) 1 .running]).tile 0 0).accLand = [] ∧
    (∀ q ∈ (((withEntries .m [anEntry (f 1) 1 .running]).tile 0 0).queue .m).entries, opOf q.f ≠ 4) ∧ fbits (f 1) 22 11 1 = 0 ∧
    (let g := aBlock 3 [(10, 0x200), (11, 0x20), (14, 0x400), (15, 0x20), (22, 128)]
     runsOne .m g 3 = true ∧ inAcc g ∧ spaceOf g 1 = 2 ∧ swzOf g 1 = 0 ∧ Machine.fld g 14 < 0x40000 ∧ fbits g 22 0 10 ≤ 128) ∧
    (let g := aBlock 1 [(10, 0x200), (11, 0x20), (14, 0x200), (15, 4), (22, 0x820), (23, 0xbfffe)]
     runsOne .m g 1 = true ∧ fbits g 22 11 1 = 1 ∧ fbits g 23 0 20 / 2 * 2 + 2 * (fbits g 22 0 10 / 32) ≤ 0xc0000 ∧ fbits g 22 0 10 % 32 = 0) := by
  decide

/-! Events of strands and tiles. -/

theorem witness_StrandEvents_core :
    (inFlight.strand 0 0).flights[0]? = some ⟨.reg 5, 1, none, 0⟩ ∧ inFlight.cycle ≤ 0 ∧ 0 < { inFlight with cycle := 1 }.cycle ∧ (ws.strand 0 0).gapUntil ≤ ws.cycle ∧ (ws.strand 0 0).swUntil ≤ ws.cycle ∧
    ws.dieRuns (dieOf 0) = true ∧ (ws.core 0).mboxAt.get 7 ≠ ws.cycle + 1 ∧
    ((ws.modMyCore fun x => { x with mboxAt := x.mboxAt.set 7 1 }).core 0).mboxAt.get 7 = ws.cycle + 1 ∧ ws.dieRuns (dieOf 63) = false ∧
    (let t : Strand := { Strand.reset with lastAt := ws.cycle, lastPos := 1 }
     t.lastAt = ws.cycle ∧ 0 < t.lastPos) ∧
    ws.island ≠ .off ∧ ws.island ≠ .boot ∧ (∀ a ∈ ws.hostWaits, a.isWrite = false) ∧
    { ws with hostWaits := [.write 0 [1] false] }.hostWaits.any (·.isWrite) = true := by decide

theorem witness_StrandEvents_delivery :
    let between (t : Strand) : Prop := (t.state = .run ∨ t.state = .handler) ∧ t.fw = none ∧ t.stopped = false ∧ t.xstatus.getLsbD 6 = false
    (let t := (wsM fun t => { t with asyncs := [⟨0x0d, 0, 0, 0⟩] }).strand 0 0
     t.asyncs = [⟨0x0d, 0, 0, 0⟩] ∧ between t) ∧
    (let t := (wsM fun t => { t with mboxInt := some (7, 1), xstatus := 0x301 }).strand 0 0
     t.mboxInt = some (7, 1) ∧ between t ∧ (∀ a ∈ t.asyncs, ws.cycle < a.at_) ∧ t.xstatus.getLsbD 0 = true) ∧
    (wsM fun t => { t with mboxInt := some (7, 1) }).me.xstatus.getLsbD 0 = false ∧
    (wsM fun t => { t with fw := some ⟨0x20, 0, 0⟩ }).me.fw = some ⟨0x20, 0, 0⟩ ∧ (ws.ctx (ws.ctxOf 0)).pf ≠ 1 ∧
    ((ws.modCtx 0 fun x => { x with pf := 1 }).ctx (ws.ctxOf 0)).pf = 1 ∧
    (let s := (program [0b010101_0_00_00000_00000_10_00_111_0_00000]).modMe fun t => { t with flqHalt := some ⟨0, ⟨0x22, 0, false⟩⟩ }
     (s.strand 0 0).fw = none ∧ popWaits s 0 0 = some ⟨0, ⟨0x22, 0, false⟩⟩) := by decide

theorem witness_BlockEvents_start :
    let f := aBlock 5 []
    let s : State := (withEntries .l [anEntry f 1 .queued]).modDie 0 fun d => { d with auditOn := false }
    let v : Site := ⟨0, 0, .l⟩
    (((s.tile 0 0).queue .l).starter = some (anEntry f 1 .queued) ∧ s.behindCut v (anEntry f 1 .queued) = false ∧ startFault s 0 0 f = none ∧
      stamped f = false ∧ objKind ((f[2]?).getD 0) = 0 ∧ (s.die (dieOf 0)).auditOn = false ∧ totalOf f ≠ 0) ∧
    (let g := aBlock 5 [(2, 0x500000001)]
     let z := withEntries .l [anEntry g 1 .queued]
     ((z.tile 0 0).queue .l).starter = some (anEntry g 1 .queued) ∧ z.behindCut v (anEntry g 1 .queued) = false ∧ startFault z 0 0 g = some 9) := by
  decide

theorem witness_BlockEvents_end :
    (let f := aBlock 5 [(3, 0x30004ffff), (31, 0x40)]
     let s := withEntries .l [anEntry f 1 .ending]
     let p : W := (f[3]?).getD 0
     ((s.tile 0 0).queue .l).entries = [anEntry f 1 .ending] ∧ 0 ≤ tickOf s.cycle + 1 ∧ objKind p = 1 ∧ objTile p 0 = 0 ∧
       ((s.tile 0 0).sem (BitVec.ofNat 5 (objNum p))).toNat + objCount p ≤ 65535 ∧ fbits f 31 6 1 = 1) ∧
    (let s := ws.modTile 0 0 fun y => { y with accLand := [⟨0, accLoc 0 0 0, [1]⟩], redLand := [⟨0, spadLoc 0 0 0, [1]⟩] }
     (s.tile 0 0).accLand = [⟨0, accLoc 0 0 0, [1]⟩] ∧ (s.tile 0 0).redLand = [⟨0, spadLoc 0 0 0, [1]⟩] ∧ s.memWf ∧ s.poison = [] ∧
       2 ^ 41 ≤ spadLoc 0 0 0 ∧ accLoc 0 0 0 + 1 ≤ 2 ^ 42 + 2 ^ 27) ∧
    (let b := { anEntry (aBlock 1 []) 1 .running with fault := some ⟨0x20, 0, false, 1⟩ }
     (((withEntries .l [b]).tile 0 0).queue .l).entries.find? (fun b => b.fault.isSome) = some b ∧ (0x20#8 : BitVec 8) ≠ 0x22) ∧
    (let b := anEntry (aBlock 0x10000001 [(1, 0x8000000000000000)]) 1 .queued
     let s := (withEntries .l [b]).modCore 0 fun x => { x with xframe := 0x100000 }
     ((s.tile 0 0).queue .l).entries = [b] ∧ fbits b.f 0 28 1 = 1 ∧ b.started = false ∧ b.missed = false ∧
       isLate (s.core 0) b.f = true) := by
  unfold State.memWf; decide

theorem witness_BlockEvents_tick :
    (let s (a : Amend) := ws.modTile 0 0 fun y => { y with amends := [a] }
     ((s (.patch .l 3 30 1)).tile 0 0).links = [] ∧ ((s (.patch .l 3 30 1)).tile 0 0).amends = [.patch .l 3 30 1] ∧
       ((s (.field .l 3 31 1)).tile 0 0).amends = [.field .l 3 31 1]) ∧
    (let x : TmplLoad := ⟨0, 0, .l, 3, List.replicate 32 0⟩
     let y := (ws.modTile 0 0 fun y => { y with tlds := [x] }).tile 0 0
     y.links = [] ∧ y.tlds = [x] ∧ y.amends = [] ∧ y.fwds = []) ∧
    (let d : RingDecl := ⟨0, 2, 3, 4⟩
     let s := (wsM fun t => { t with tld := true }).modTile 0 0 fun y => { y with decls := [d] }
     (s.tile 0 0).decls = [d] ∧ (s.strand 0 d.strand).tld = true ∧ (s.tile 0 0).semQ = [] ∧ (s.tile 0 0).semNew = [] ∧
       (ringBusy ({ s.tile 0 0 with decls := [] } : Tile) 0 d.g = false ∧ ringBusy ({ s.tile 0 0 with
         amends := [.issue .l 0 0 0], tmpls := [⟨.l, 0, zeroBlock.set 2 0x500020000⟩] } : Tile) 0 d.g = true) ∧
       (∀ k, (s.strand 0 k).wait = none) ∧ ∀ t : Tl, ∀ e ∈ [Eng.l, .m, .v, .s], ((s.tile 0 t).queue e).entries = []) ∧
    (let s := (waiting (.sem 0 4 1)).modTile 0 0 fun y => { y with sems := y.sems.set 4 1, semNew := [⟨4, .strand 0, 1⟩] }
     (s.tile 0 0).decls = [] ∧ (s.tile 0 0).semQ = [] ∧ (s.tile 0 0).semNew = [⟨(4#5).toNat, .strand 0, 1⟩] ∧ 1 ≤ ((s.tile 0 0).sem 4).toNat ∧
       (s.strand 0 0).wait = some ⟨.sem 0 4 1, 0, 256⟩ ∧ (∀ k', k' ≠ 0 → (s.strand 0 k').wait = none) ∧
       (∀ t : Tl, ∀ e ∈ [Eng.l, .m, .v, .s], ∀ b ∈ ((s.tile 0 t).queue e).entries, b.phase ≠ .waiting)) := by decide

/-! Queues and launches. -/

/-- Queue 0 in context 0: 64 slots at 0x2000, the write index at 0x4000. -/
def queueDesc (ridx : W) : QueueDesc := ⟨0x2000, 6, 0, 0, 0, 0, true, false, 0, 0x4000, ridx, 0⟩
def withQueue (q : SubQueue) : State := mapped.setQueue 0 q
def aQueue (ridx : W) : SubQueue := { blankQueue with d := queueDesc ridx, state := .active }

/-- Queue 0 at a read index, with a write index and the header word of the slot at that index in memory. -/
def taking (ridx widx header : W) : State :=
  setWordAt (setWordAt (withQueue (aQueue ridx)) 0x4000 widx) (0x2000 + 64 * (ridx.toNat % 64)) header

/-- What a turn of queue 0 reads: the write index, then the slot. -/
def indexRead (s : State) : State × Except FaultEntry (List Byte) := readVirt s 0 none 0x4000 8
def slotRead (s : State) (ridx : W) : State × Except FaultEntry (List Byte) :=
  readVirt (indexRead s).1 0 none (0x2000 + BitVec.ofNat 64 (64 * (ridx.toNat % 64))) 64

theorem witness_QueueEvents_turn :
    (let q := (taking 0 1 0).queue 0
     q.state = .active ∧ q.skip = none ∧ q.taken = none ∧ (taking 0 1 0).dieRuns q.d.die = true ∧
       ((taking 0 1 0).die q.d.die).ranked.length < 256 ∧ (taking 0 1 0).ckpt = .idle) ∧
    (indexRead (taking 0 0 0)).2 = .ok [0, 0, 0, 0, 0, 0, 0, 0] ∧ (indexRead (taking 0 1 0)).2 = .ok [1, 0, 0, 0, 0, 0, 0, 0] ∧
    ((slotRead (taking 0 1 0) 0).2.toOption.map wordsOf) = some [0, 0, 0, 0, 0, 0, 0, 0] ∧
    ((slotRead (taking 64 65 3) 64).2.toOption.map wordsOf) = some [3, 0, 0, 0, 0, 0, 0, 0] ∧
    ((slotRead (taking 0 1 0x500000003) 0).2.toOption.map wordsOf) = some [0x500000003, 0, 0, 0, 0, 0, 0, 0] ∧
    ((slotRead (taking 0 1 3) 0).2.toOption.map wordsOf) = some [3, 0, 0, 0, 0, 0, 0, 0] ∧
    (slotRead (taking 0 1 3) 0).1.queue 0 = (taking 0 1 3).queue 0 := by decide

/-- Queue 0 has taken a packet of a type. -/
def handed (type : W) : State := withQueue { aQueue 1 with taken := some ([type, 0x1000, 0x2000, 1, 0x3000, 0, 0, 0], 0), open_ := [0] }

theorem witness_QueueEvents_packets :
    ((aQueue 5).d.ridx = (queueDesc 5).ridx ∧ (aQueue 5).state ≠ .halted) ∧ (queueDesc 7).rmir = 0 ∧
    ((handed 3).queue 0).handed 3 = some ([3, 0x1000, 0x2000, 1, 0x3000, 0, 0, 0], 0) ∧
    ((handed 1).queue 0).handed 1 = some ([1, 0x1000, 0x2000, 1, 0x3000, 0, 0, 0], 0) ∧
    (((handed 2).queue 0).handed 2 = some ([2, 0x1000, 0x2000, 1, 0x3000, 0, 0, 0], 0) ∧ (handed 2).copyJob? 0 = none ∧
      { handed 2 with ckpt := .quiesce }.ckpt ≠ .idle) ∧
    (ws.die 0).rerankAt ≤ tickOf ws.cycle ∧ tickOf ws.cycle < ((ws.modDie 0 fun d => { d with rerankAt := 1 }).die 0).rerankAt := by decide

theorem witness_QueueEvents_copy :
    let j : CopyJob := ⟨0, [2, 0x1000, 0x2000, 1, 0x3000, 7, 0, 0], 0, 0, none, none⟩
    let s : State := { withQueue (aQueue 1) with copies := [j] }
    let r := agentTranslate s 0 0x1000 true false none
    let w := agentTranslate r.1 0 0x2000 false true none
    (s.queue 0).handed 2 = none ∧ s.copyJob? 0 = some j ∧ s.ckpt = .idle ∧ (s.queue 0).state ≠ .resetting ∧ j.malformed = false ∧
      j.purged s = false ∧ j.purged { s with purges := [⟨0, 0, [], true⟩] } = true ∧ j.length = j.moved + 1 ∧ isPeerAddr (j.word 1) = false ∧ isPeerAddr (j.word 2) = false ∧ r.2 = .ok 0x1000 ∧ r.1.poisonedIn 0x1000 1 = none ∧
      w.2 = .ok 0x2000 ∧ (writeVirt (w.1.putByte 0x2000 0 0) 0 (j.word 4 &&& ~~~7) (bytesOf 8 7)).2 = none := by decide

/-- A launch packet, ranked on die 0; the header of an image at 0x1000 is in memory. -/
def rankedOf (packet : List W) : Launch :=
  { aLaunch with packet := packet, phase := .ranked, nodes := [], outstanding := 0, started := false }
def rankedLaunch : Launch := rankedOf [1, 0x1000, 0, 0, 0x100000000, 0x3000, 0, 0]
def rankedIn (l : Launch) (header : W) : State :=
  setWordAt ({ mapped with launches := [l] }.modDie 0 fun d => { d with ranked := [0] }) 0x1000 header
def ranked (header : W) : State := rankedIn rankedLaunch header

def nodesRead (s : State) (l : Launch) : State × Except FaultEntry (Option (List Node)) := readNodes s l
def nodesLoaded (s : State) (l : Launch) (ns : List Node) : State × Except FaultEntry (List Node) := loadNodes l ns (nodesRead s l).1
def faults {α : Type} (r : State × Except FaultEntry α) : Bool := match r.2 with
  | .error _ => true
  | .ok _ => false

/-- An image of one strand, as its header gives it. -/
def anImageOf : Image := ⟨1, [3, 0, 0, 0], 0, [0, 0, 0, 0], some 0, [], 0, [], 0, [], [], []⟩
/-- The node of a direct launch of n instances of the image at an address. -/
def directly (image : W) (n : Nat) : Node := ⟨image, 0, 0, n, 1, false, false, 0, none, false, false, 0⟩

theorem witness_LaunchEvents_admission :
    let n := directly 0x1000 1
    let s := ranked 0x030100017a726b31
    (s.rankedHead 0 = some rankedLaunch ∧ s.dieRuns 0 = true ∧ (s.die 0).admitWait = none ∧ (s.die 0).spill = [] ∧
      s.purgingOf rankedLaunch = false ∧ s.ckpt = .idle ∧ (nodesRead s rankedLaunch).2 = .ok (some [n])) ∧
    ((nodesLoaded s rankedLaunch [n]).2 = .ok [{ n with img := some anImageOf }] ∧
      launchOk (nodesLoaded s rankedLaunch [n]).1 rankedLaunch [{ n with img := some anImageOf }] = true ∧
      ((nodesRead s rankedLaunch).1.die 0).pool.length + 256 + (rootsOf [n]).length < 4096) ∧
    (nodesLoaded (ranked 0) rankedLaunch [n]).2 = .ok [n] ∧ launchOk (nodesLoaded (ranked 0) rankedLaunch [n]).1 rankedLaunch [n] = false := by decide

/-- A launch whose only root has no instance; a graph, and an image, that no page maps. -/
theorem witness_LaunchEvents_admission_others :
    (let l := rankedOf [1, 0x1000, 0, 0, 0, 0x3000, 0, 0]
     let s := rankedIn l 0x030100017a726b31
     let n := directly 0x1000 0
     s.rankedHead 0 = some l ∧ (nodesRead s l).2 = .ok (some [n]) ∧ (nodesLoaded s l [n]).2 = .ok [{ n with img := some anImageOf }] ∧
       launchOk (nodesLoaded s l [n]).1 l [{ n with img := some anImageOf }] = true ∧ (nodesLoaded s l [n]).1.launch? 0 = some l ∧ l.status = none) ∧
    (let l := rankedOf [0x21, 0x40000000, 0, 0, 0x100000000, 0x3000, 0, 0]
     (rankedIn l 0).rankedHead 0 = some l ∧ faults (nodesRead (rankedIn l 0) l) = true) ∧
    (let l := rankedOf [1, 0x40000000, 0, 0, 0x100000000, 0x3000, 0, 0]
     (nodesRead (rankedIn l 0) l).2 = .ok (some [directly 0x40000000 1]) ∧ faults (nodesLoaded (rankedIn l 0) l [directly 0x40000000 1]) = true) := by
  decide

/-- A full task pool leaves no room for one root. -/
theorem witness_LaunchEvents_no_room (r : TaskRec) :
    ¬((((ranked 0).modDie 0 fun d => { d with pool := List.replicate 3839 r }).die 0).pool.length + 256 + 1 < 4096) := by
  have h : (((ranked 0).modDie 0 fun d => { d with pool := List.replicate 3839 r }).die 0).pool = List.replicate 3839 r := rfl
  rw [h, List.length_replicate]; decide

/-- An open node with one record in die 0's pool, its arguments at an address. -/
def placing (base : W) : State :=
  { mapped with launches := [{ aLaunch with nodes := [aNode 0] }] }.modDie 0 fun d => { d with pool := [⟨0, 0, 0, 1, base, 8, 0, 0, false⟩] }

theorem witness_LaunchEvents_placement :
    let l : Launch := { aLaunch with nodes := [aNode 0] }
    let r : TaskRec := ⟨0, 0, 0, 1, 0x2000, 8, 0, 0, false⟩
    ((placing 0x2000).nextPlacement 0 = some (0, r, [1]) ∧ (placing 0x2000).recordNode r = some (l, aNode 0, wordImage 1) ∧
      (placing 0x2000).records = [(0, r)] ∧ (placing 0x2000).launch? 0 = some l ∧ mayPlace (placing 0x2000) 0 (aNode 0) = true ∧
      0 < r.left ∧ (aNode 0).wide = false ∧ r.again = false) ∧
    ((placing 0x2000).nextPlacement 1 = none ∧ (aNode 0).size = 1) ∧
    (((List.finRange 64).filter fun c => (placing 0x2000).freeCluster c && ((aNode 0).wide || dieOf c == 0)).length = 15) ∧
    (0x2000#64).toNat % 8 = 0 ∧ ((readVirt (placing 0x2000) 0 l.key 0x2000 56).2.toOption.map List.length) = some 56 ∧
    ((placing 0x2001).nextPlacement 0).isSome = true ∧ (0x2001#64 + BitVec.ofNat 64 (0 * 8)).toNat % 8 ≠ 0 ∧
    ((placing 0x40000000).nextPlacement 0).isSome = true ∧ faults (readVirt (placing 0x40000000) 0 l.key 0x40000000 56) = true := by decide

/-- A die that runs no placement: its record waits, and holds what frees up. -/
theorem witness_LaunchEvents_blocked :
    let s : State := { placing 0x2000 with ckpt := .quiesce }
    mayPlace s 0 (aNode 0) = false ∧ s.nextPlacement 0 = none := by decide

/-- The gang's strand has halted. -/
def finished : State := wsM fun t => { t with state := .halted }

/-- A launch with a deadline of 10 ns, at fabric time t. -/
def dated (t : W) (l : Launch) : State := { mapped with launches := [{ l with packet := l.packet.set 2 10 }], xtime := t }

theorem witness_LaunchEvents_end :
    (∃ g, finished.gang? 0 = some g ∧ g.id = 0 ∧ (g.members.map (·.phys)).Nodup ∧ ∀ m ∈ g.members, memberFinished (finished.core m.phys) = true) ∧
    ({ finished with launches := [aLaunch] }.launch? 0 = some aLaunch ∧ aLaunch.status = none ∧ aLaunch.reefed = false ∧ aLaunch.phase = .admitted) ∧
    (∃ g, ws.gang? 0 = some g ∧ ∃ m ∈ g.members, memberFinished (ws.core m.phys) = false) ∧
    (let l : Launch := { aLaunch with packet := aLaunch.packet.set 2 10 }
     ((dated 9 aLaunch).launch? 0 = some l ∧ l.deadline ≠ 0 ∧ l.reefed = false ∧ l.status = none ∧ l.purging = false ∧
       (dated 9 aLaunch).xtime.toNat < l.deadline) ∧ l.deadline ≤ (dated 10 aLaunch).xtime.toNat) ∧
    (let l : Launch := { aLaunch with reefed := true, packet := (aLaunch.packet.set 6 0x100000000) }
     l.reefed = true ∧ l.tReef.toNat + 1000 * l.budget ≤ (1000#64).toNat ∧ (999#64).toNat < l.tReef.toNat + 1000 * l.budget) ∧
    (let l : Launch := { aLaunch with status := some 0 }
     let s : State := { mapped with launches := [l], gangs := [] }
     let bs := (recordWords l s.xtime).flatMap fun w => bytesOf 8 w.toNat
     let r := writeVirt s 0 (BitVec.ofNat 64 (l.word 5) + 8) (bs.drop 8)
     s.launch? 0 = some l ∧ l.status ≠ none ∧ l.recordWait = none ∧ s.hasGang 0 = false ∧ r.2 = none ∧
       (writeVirt r.1 0 (BitVec.ofNat 64 (l.word 5)) (bs.take 8)).2 = none) := by
  refine ⟨⟨_, rfl, ?_⟩, ?_, ⟨_, rfl, ⟨0, 0⟩, ?_⟩, ?_⟩ <;> decide

/-- The last instance of a launch of one node, and one of two. -/
theorem witness_LaunchEvents_last :
    (let l : Launch := { aLaunch with nodes := [aNode 0], outstanding := 1 }
     l.status = none ∧ l.reefed = false ∧ l.purging = false ∧ l.phase = .admitted ∧ l.outstanding = 1 ∧
       ∀ n ∈ l.nodes, n.isOpen = true ∧ (n.complete = true ∨ n.outstanding = if 0 = (wordGang 1 0).node then 1 else 0)) ∧
    2 ≤ ({ aLaunch with outstanding := 2 } : Launch).outstanding ∧ ((wordGang 1 0).members.map (·.phys)).Nodup := by decide

/-- The gang asked to save. -/
def asked (p : Option Preempt) (s : State) : State := s.modGang 0 fun g => { g with preempt := p }

/-- A saved gang of one member, its own cluster free or taken. -/
def aSaved : SavedGang := ⟨wordGang 1 0, false, [], [⟨Core.reset, 0, 0xff, [], [], []⟩]⟩

theorem witness_ContextEvents_contexts :
    (State.reset.ctx 5).state = .free ∧ (ws.ctx 0).state = .active ∧ (ws.ctx 0).state ≠ .free ∧
    (let s : State := { (ws.modCtx 0 fun x => { x with state := .killing }) with gangs := [] }
     (s.ctx 0).state = .killing ∧ ∀ g ∈ s.gangs, g.ctx ≠ 0) ∧
    (∃ g ∈ ws.gangs, g.ctx = 0) ∧ { ws with launches := [aLaunch] }.launch? 0 = some aLaunch ∧ aLaunch.status = none := by
  refine ⟨?_, ?_, ?_, ?_, ⟨wordGang 0x040c6500 0, ?_⟩, ?_⟩ <;> decide

theorem witness_ContextEvents_goes_on :
    (∃ g, (asked (some .node) ws).gang? 0 = some g ∧ g.preempt = some .node ∧
      ∃ m ∈ g.members, memberYields (g.members.foldl (fun z m =>
        if (z.core m.phys).strands.toList.all (yielded z m.phys) then cleanAll m.phys z else z) (asked (some .node) ws)) m.phys = false) ∧
    (∃ p : Pend, p.outlives = true) ∧ ∃ k, ({ Context.reset with keymap := 2 } : Context).keymap.getLsbD k = true := by
  refine ⟨⟨wordGang 0x040c6500 0 |> fun g => { g with preempt := some .node }, ?_⟩, ⟨⟨.store [1], 0, .loc (2 ^ 42) 0, none, none, false, 0⟩, ?_⟩, ⟨1, ?_⟩⟩ <;> decide

theorem witness_ContextEvents_saving :
    (∃ g, (asked (some .node) finished).gang? 0 = some g ∧ g.preempt = some .node ∧
      ∀ m ∈ g.members, memberYields (g.members.foldl (fun z m =>
        if (z.core m.phys).strands.toList.all (yielded z m.phys) then cleanAll m.phys z else z) (asked (some .node) finished)) m.phys = true) ∧
    (∃ g, ws.gang? 0 = some g ∧ g.preempt = none ∧ g.preempt ≠ some .node) ∧
    (∃ g, (asked (some (.fence [] 0)) ws).gang? 0 = some g ∧ g.preempt = some (.fence [] 0) ∧
      (∀ m ∈ g.members, memberSettled (g.members.foldl (fun z m => cleanAll m.phys z) (asked (some (.fence [] 0)) ws)) m.phys = true) ∧
      0 ≤ ws.cycle ∧ ws.ckpt ≠ .quiesce) ∧
    ws.cycle < 1 ∧
    ({ State.reset with saved := [aSaved] }.saved.find? (·.gang.id == 0) = some aSaved ∧
      shapeOk { (ws.modCtx 0 fun x => { x with cmap := Vector.replicate 64 none }) with saved := [aSaved] } aSaved [1] = true ∧
      shapeOk { ws with saved := [aSaved] } aSaved [0] = false) := by
  refine ⟨⟨_, rfl, ?_⟩, ⟨_, rfl, ?_⟩, ⟨_, rfl, ?_⟩, ?_⟩ <;> decide

theorem witness_ContextEvents_restore :
    aSaved.gang.members.length = aSaved.members.length ∧ (aSaved.gang.members.map (·.logical)).Nodup ∧ aSaved.fence = false ∧
    (let g : SavedGang := { aSaved with fence := true }
     shapeOk { (ws.modCtx 0 fun x => { x with cmap := Vector.replicate 64 none }) with saved := [g] } g [1] = true ∧
       (∀ m ∈ g.members, m.vault = [] ∧ m.spad = [] ∧ m.acc = [])) := by decide

/-! The fabric. -/

theorem witness_ClockAndPortEvents :
    (ws.gangOf 0).isSome = true ∧ (ws.core 63).gang = none ∧ (-500 : Int) ≤ -500 ∧ (500 : Int) ≤ 500 := by decide

/-- A route to endpoint 9 by port 1 and then port 2, of which port 2 is up. -/
def routed : State :=
  { ws with routes := [(9, ⟨true, 1, 1, 2, 0, 0⟩)], ports := (Vector.replicate 16 .down).set 2 .full }

theorem witness_ClockAndPortEvents_transit :
    let r := tabGet routed.routes (9#12).toNat ⟨false, 0, 0, 0, 0, 0⟩
    routed.island = .attached ∧ (9#12) ≠ routed.endpoint ∧ r.v = true ∧
    ((3 : Fin 16).val % (r.cnt.val + 1) = 1 ∧ routed.ports.get r.prt1 ≠ .down) ∧
    ((2 : Fin 16).val % (r.cnt.val + 1) = 0 ∧ routed.ports.get r.prt0 = .down) ∧
    (tabGet routed.routes (8#12).toNat ⟨false, 0, 0, 0, 0, 0⟩).v = false := by decide

/-- Head 3 of context 0 armed on counter 5 at threshold 7. -/
def aSlot : Slot := { blankSlot with state := .armed, dw := [0x51, 0, 0, 0x1000, 9, 0, 0, 0], thr := 7 }
def armed (st : SlotState) : State := mapped.setSlot 3 { aSlot with state := st }

/-- Its chain under way with a descriptor. -/
def chained (ch : Chain) : State := { armed .firing with chains := [ch] }
def aChain : Chain := ⟨3, 3, aSlot.dw, 0, none⟩

theorem witness_TriggerEvents_counter :
    let s := armed .armed
    (s.slot 3).state = .armed ∧ (s.slot 3).follower = false ∧ headCounter s (s.slot 3) = (5#13).toNat ∧ s.ckpt = .idle ∧
    (s.counter 5 + 7 - (s.slot 3).thr).toNat < 2 ^ 63 ∧ ¬(s.counter 5 + 6 - (s.slot 3).thr).toNat < 2 ^ 63 := by decide

def failsWith (a : ActEnd) : Option Nat := match a with
  | .failed _ k => some k
  | _ => none
def partOf (a : ActEnd) : Option Nat := match a with
  | .part _ n => some n
  | _ => none

theorem witness_TriggerEvents_chain :
    (let d : Slot := { blankSlot with dw := aChain.dw }
     let s := chained aChain
     s.chain? (3#14).toNat = some aChain ∧ aChain.waits = none ∧ s.followerBusy aChain = false ∧ d.fld 0 0 3 = 1 ∧ d.fld 0 17 1 = 0 ∧
       isPeerAddr ((aChain.dw[3]?).getD 0) = false ∧ (agentTranslate s 0 0x1000 false true none).2 = .ok 0x1000 ∧
       (s.slot 3).cancel = false ∧ (s.slot 3).fld 0 32 1 = 0) ∧
    ({ aChain with waits := some (agentEntry 0 0x20 true 0) }.waits ≠ none) ∧
    (failsWith (actOf (chained aChain) 3 0 [1, 0, 0, 0xe000000000000000, 9, 0, 0, 0] 0)).isSome = true ∧
    (partOf (actOf (chained aChain) 3 0 [3, 0, 0, 0x10000, 0x8000, 5000, 0, 0] 4095)).isSome = true ∧
    (State.reset.die 3).state = .off ∧ (ws.die 0).state = .run := by decide

/-- An access of endpoint 5 in context 0. -/
def peerAccess5 (op : PeerOp) : PeerAccess := ⟨5, 0, 0, 0, false, 0x1000, op⟩
def admitting : State := mapped.modCtx 0 fun x => { x with admits := [5] }

theorem witness_PeerAndHostAccesses_peer :
    ¬(State.reset.island = .forward ∨ State.reset.island = .attached ∨ State.reset.island = .drain) ∧
    (admitting.island = .attached ∧ admitting.ckpt = .idle ∧ (admitting.ctx 0).state = .active ∧ (5#12) ∈ (admitting.ctx 0).admits ∧
      (translateIsland admitting 0 0x1000 true true none).2 = .ok 0x1000 ∧ admitting.poisonedIn 0x1000 8 = none ∧
      (admitting.die (homeDie 0x1000)).absent = false) ∧
    { admitting with ckpt := .quiesce }.ckpt ≠ .idle ∧
    (let a := peerAccess5 (.read 8)
     (∀ w ∈ admitting.peerWaits, w.agent ≠ a.agent) ∧
       ∃ w ∈ { admitting with peerWaits := [a] }.peerWaits, w.src = a.src ∧ w.agent = a.agent ∧ w.cls = a.cls) ∧
    ({ admitting with poison := [0x40] }.poisonedIn 0x1000 8 ≠ none) ∧ (5#12) ∉ (mapped.ctx 0).admits ∧
    (let s : State := { admitting with islandTlb := [⟨0, 0, true, 2 ^ 37, true, true, 0⟩] }
     (translateIsland s 0 0x1000 true false none).2 = .ok (2 ^ 37 + 0x1000) ∧ (s.die (homeDie (2 ^ 37 + 0x1000))).absent = true) ∧
    (translateIsland { admitting with islandTlb := [] } 0 0x1000 true false none).2 = .error 0x20 ∧
    (bytesOf 8 5).length = 8 ∧ (0x1000#64).toNat % 8 = 0 ∧ (0x1000#64).toNat / 8 < ((admitting.modCtx 0 fun x => { x with ccnt := 0x201 }).ctx 0).ccnt := by
  decide

/-- Slice 0 of BAR2 leads into context 0 at address 0. -/
def sliced : State := { mapped with slices := mapped.slices.set 0 (some (0, 0)) }

theorem witness_PeerAndHostAccesses_host :
    (sliced.island ≠ .off ∧ sliced.island ≠ .boot ∧ sliced.hostWaits = [] ∧ sliced.ckpt = .idle ∧
      sliced.sliceOf (.read 0x1000 8) = some (0, 0x1000) ∧ sliced.sliceOf (.write 0x1000 [1] false) = some (0, 0x1000) ∧
      sliced.sliceOf (.fetchadd 0x1000 8 1) = some (0, 0x1000) ∧ sliced.sliceOf (.cas 0x1000 8 1 2) = some (0, 0x1000) ∧
      (agentTranslate sliced 0 0x1000 true true none).2 = .ok 0x1000 ∧ (agentTranslate sliced 0 0x1000 true true none).1.poisonedIn 0x1000 8 = none) ∧
    mapped.sliceOf (.read 0x1000 8) = none ∧ mapped.sliceOf (.write 0x1000 [1] false) = none ∧
    ((4 : Nat) ≠ 8 ∨ (0x1000#64).toNat % 8 ≠ 0) ∧ { ws with island := .boot }.island = .boot ∧ State.reset.island = .off := by decide

theorem witness_PeerAndHostAccesses_control :
    (∀ a ∈ sliced.hostWaits, a.isWrite = false) ∧ (0x100000 ≤ 0x100ff8 ∧ 0x100ff8 < 0x101000 ∧ 0x100ff8 % 8 = 0) ∧
    (0x10000 ≤ 0xffff8 ∧ 0xffff8 < 0x100000 ∧ 0xffff8 % 8 = 0 ∧ (bytesOf 8 7).length = 8) ∧
    (0x10000 ≤ 0x10000 ∧ 0x10000 < 0x100000 ∧ 0x10000 % 8 = 0) := by decide

theorem witness_FirmwareTablesAndFaults_tables :
    (4 ≤ (30#5).toNat ∧ (30#5).toNat ≤ 30) ∧ ((3#5).toNat < 4 ∨ (3#5) = 31) ∧ ((7 : Fin 64) ≠ 8) ∧ (10 ≤ 10 ∧ 10000 ≤ 10000) ∧ (9 < 10 ∨ 10000 < 9) ∧
    (0x7ffffffff8 % 8 = 0 ∧ 0x7ffffffff8 + 8 ≤ hbmSize) ∧ (0xffff8 % 8 = 0 ∧ 0x10000 ≤ 0xffff8 ∧ 0xffff8 < 0x100000) := by decide

/-- Firmware may write a window descriptor of context 0, all dies on. -/
def windowed : State :=
  { (mapped.modCtx 0 fun x => { x with pwt := 0x7ffffff800, pwn := 64 }) with
    dies := Vector.replicate 4 { mapped.die 0 with uncore := true } }

theorem witness_FirmwareTablesAndFaults_windows :
    ((63 : Fin 64).val < (windowed.ctx 0).pwn ∧ (windowed.ctx 0).pwt.toNat + 2048 ≤ hbmSize ∧ (∀ d, (windowed.die d).uncore = true) ∧
      windowed.memWf ∧ (0xffffffffffff : Nat) < 2 ^ 48) := by
  unfold State.memWf; decide

/-- A leaf entry for frame 1 under key 3, and one of a retired frame. -/
def aLeaf : W := 0x0030000000010001

theorem witness_FirmwareTablesAndFaults_entries :
    (0#64).getLsbD 0 = false ∧
    (aLeaf.getLsbD 0 = true ∧ bits aLeaf.toNat 3 1 = 0 ∧ pteNext aLeaf.toNat / 2 ^ 16 * 2 ^ 16 < hbmSize ∧ aLeaf.getLsbD 4 = false ∧
      bits aLeaf.toNat 52 9 = 3 ∧ ws.retiredOn 0 = some [] ∧ pteNext aLeaf.toNat / 2 ^ 16 = 1 ∧ (1 : Nat) ∉ ([] : List Nat)) ∧
    ((aLeaf ||| 0x10).getLsbD 4 = true ∧ bits (aLeaf &&& 0xffff).toNat 52 9 = 0) ∧
    (ws.modDie 0 fun d => { d with tables := Vector.replicate 3 ⟨[], #v[[], []], [1]⟩ }).retiredOn 0 = some [1] := by
  decide

theorem witness_FirmwareTablesAndFaults_tlbi :
    (∀ k, dieOf k = 0 → (ws.core k).storesHome = true) ∧
    (∃ k, dieOf k = 0 ∧ ((wsM fun t => { t with pend := [translated] }).core k).storesHome = false) := by
  refine ⟨?_, 0, ?_⟩ <;> decide

theorem witness_FirmwareTablesAndFaults_faults :
    let e := agentEntry 0 0x20 false 0x1000
    (({ blankQueue with skip := some e } : SubQueue).skip = some e ∧ (withQueue { blankQueue with skip := some e }).queue 0 = { blankQueue with skip := some e }) ∧
    (chained { aChain with waits := some e }).chain? 3 = some { aChain with waits := some e } ∧
    (let s := (ranked 0).modDie 0 fun d => { d with admitWait := some (e, 0) }
     (s.die 0).admitWait = some (e, 0) ∧ s.launch? 0 = some rankedLaunch ∧ 0 ∈ (s.die 0).ranked) ∧
    (let r : TaskRec := ⟨0, 0, 0, 1, 0x2000, 8, 0, 0, false⟩
     let s := (placing 0x2000).modDie 1 fun d => { d with placeWait := some (e, 0, r) }
     (s.die 1).placeWait = some (e, 0, r) ∧ r ∈ (s.die 0).pool) ∧
    { ws with launches := [{ aLaunch with recordWait := some e }] }.launch? 0 = some { aLaunch with recordWait := some e } ∧
    { ws with hostWaits := [.read 0 8] }.hostWaits = [.read 0 8] ∧ ws.island = .attached ∧
    (let a := peerAccess5 (.read 8)
     let s : State := { ws with peerWaits := [a], islandFaults := [{ e with agent := some (.source .peer) }] }
     s.peerWaits = [a] ∧ s.faultingPeer = some a) := by decide

/-! Faults, checkpoints, power, firmware. -/

theorem witness_PurgeEvents_consumption :
    (ws.strand 0 0).state = .run ∧ (ws.strand 0 0).fw = none ∧ (0xfffffffffff : Nat) < 2 ^ 44 ∧ (ws.strand 0 1).state = .idle ∧
    (let j : CopyJob := ⟨1023, [], 0, 0, none, none⟩
     { ws with copies := [j] }.copyJob? 1023 = some j ∧ j.stopped = none) := by decide

/-- A purge of context 0 and tag 0 that reached launch 0, which may run once more, or may not. -/
def purged (header : W) : State :=
  { ws with
    gangs := [], purges := [⟨0, 0, [0], true⟩]
    launches := [{ aLaunch with purging := true, packet := aLaunch.packet.set 0 header }] }

def purgedLaunch (header : W) : Launch := { aLaunch with purging := true, packet := aLaunch.packet.set 0 header }

theorem witness_PurgeEvents_done : purgeDone (purged 1) ⟨0, 0, [0], true⟩ = true ∧ purgeDone (purged 0x41) ⟨0, 0, [0], true⟩ = true := by
  constructor <;> decide +kernel

theorem witness_PurgeEvents_under_way : purgeDone { purged 1 with gangs := ws.gangs } ⟨0, 0, [0], true⟩ = false := by decide +kernel

theorem witness_PurgeEvents_complete :
    (purged 0x41).purges.find? (fun p => p.ctx == 0 && p.tag == 0) = some ⟨0, 0, [0], true⟩ ∧
    (purged 1).launch? 0 = some (purgedLaunch 1) ∧ (purged 0x41).launch? 0 = some (purgedLaunch 0x41) ∧
    (∀ q ∈ (purged 0x41).purges.erase ⟨0, 0, [0], true⟩, 0 ∉ q.launches) ∧ ((purged 0x41).queue 0).state ≠ .resetting ∧
    ((purged 0x41).ctx 0).mc ≠ 2 ∧ ((purged 0x41).ctx 0).mc ≠ 3 ∧ (purgedLaunch 0x41).status = none ∧
    (bits (purgedLaunch 0x41).header 6 1 = 1 ∧ (purgedLaunch 0x41).replayed = false ∧ (purgedLaunch 0x41).offChip = false ∧
      (purgedLaunch 0x41).deadline = 0) ∧
    bits (purgedLaunch 1).header 6 1 ≠ 1 ∧ ws.purges.find? (fun p => p.ctx == 0 && p.tag == 0) = none := by decide

theorem witness_PurgeEvents_bad_entry :
    (2 ^ 44 : Nat) ≤ 2 ^ 44 + 3 ∧ 5 + (2 ^ 44 + 2) % 4 = 7 ∧ (purged 0x41).purges ≠ [] ∧
    purgeDone { purged 0x41 with purges := [⟨0, 0, [], true⟩] } ⟨0, 0, [], true⟩ = true := by
  refine ⟨by decide, by decide, by decide, by decide +kernel⟩

/-- Die 0 waits for the replay of an audit of cluster 1 that found an idle cluster. -/
def anAudit (c : Cl) : Audit :=
  ⟨1, 0, .m, 0, anEntry (aBlock 0x00 []) 1 .running, ⟨c, 0, [], Tile.reset.sets, Tile.reset.slots⟩, 7⟩
def audited (c : Cl) : State := ws.modDie 0 fun d => { d with audits := [anAudit c] }

/-- The same with every cluster but 2 disabled. -/
def alone : State := { audited 2 with config := { ws.config with clusterDisable := 0xfffffffffffffffb } }

/-- The copies of die 0's tables differ from each other. -/
def noMajority : State :=
  ws.modDie 0 fun d => { d with tables := #v[⟨[], #v[[], []], [1]⟩, ⟨[], #v[[], []], [2]⟩, ⟨[], #v[[], []], [3]⟩] }

theorem witness_AuditScrubRetest :
    ((ws.die 0).audits = [] ∧ ((audited 2).die 0).audits = [anAudit 2]) ∧
    (audited 0).idleCluster 0 0 = false ∧ (audited 2).idleCluster 0 2 = true ∧ ((3 : Cl) ≠ 2 ∧ (audited 2).idleCluster 0 3 = true) ∧
    (∀ c : Cl, c ≠ 2 → alone.idleCluster 0 c = false) ∧
    (voteTables (ws.die 0).tables).isSome = true ∧
    voteTables (noMajority.die 0).tables = none ∧
    (Core.reset.suspect = false ∧ Core.reset.bin ≠ 3 ∧ Core.reset.gang = none ∧ Core.reset.passes = 0) := by decide

theorem witness_FenceAndReset :
    (ws.die 0).state = .run ∧ (ws.modDie 0 fun d => { d with state := .drain }).dieRuns 0 = false ∧ (1 : Die) ≠ 0 ∧
    (ws.modDie 1 fun d => { d with state := .run }).dieRuns 1 = true ∧ (State.reset.die 0).state ≠ .run ∧ (State.reset.die 0).state ≠ .drain ∧
    (∀ e, State.reset.dieRuns e = false) ∧ (∀ f : Die, f.val < (0 : Die).val → ws.dieRuns f = false) ∧
    (ws.queue 1023).state ≠ .resetting ∧
    (let s := withQueue { aQueue 0 with state := .resetting }
     (s.queue 0).state = .resetting ∧ (∀ l ∈ s.launches, l.queue ≠ 0) ∧ (∀ j ∈ s.copies, j.queue ≠ 0)) ∧
    (∃ g ∈ ws.gangs, g.launch = 0 ∧ { ws with launches := [aLaunch] }.launch? g.launch = some aLaunch ∧ aLaunch.queue = 0) := by
  refine ⟨?_, ?_, ?_, ?_, ?_, ?_, ?_, ?_, ?_, ?_, ⟨wordGang 0x040c6500 0, ?_⟩⟩ <;> decide

/-- A checkpoint image of an empty machine, and one of a machine with a page in its first MiB. -/
def anImageWith (segs : List CkptSegment) : CkptImage :=
  let h := hashTags (segs.map (·.tag))
  { segments := segs, cipher := [], pageKeys := [], hash := h, sig := Config.leaderSign h
    ctrs := [], slots := [], queues := [], ctxs := State.reset.ctxs, saved := [], clusters := [] }
def anImage : CkptImage := anImageWith []
def aSegment (key : BitVec 256) : CkptSegment :=
  let g : CkptSegment := ⟨0, 0, 0, 0, [], 0⟩
  { g with tag := Config.gcmTag key g.bytes }
def aRestore : RestoreInput := ⟨0, [], [], 0, 0⟩

theorem witness_CheckpointEvents_checks (key : BitVec 256) :
    restoreChecks key (anImageWith [aSegment key]) aRestore = true ∧ restoreChecks key anImage { aRestore with sigErr := 1 } = false := by
  constructor <;> simp [restoreChecks, anImageWith, anImage, aSegment, aRestore, tabGet, CkptSegment.bytes]

/-- A slot that an image needs is Empty, or not. -/
theorem witness_CheckpointEvents_slots :
    (∀ k x v, (anImage.ctxs.get x).keymap.getLsbD k = true → (k, v) ∉ State.reset.keys) ∧
    (let i : CkptImage := { anImage with ctxs := anImage.ctxs.set 5 { Context.reset with keymap := 8 } }
     (i.ctxs.get 5).keymap.getLsbD 3 = true ∧ (3, (KeyState.retired, 5)) ∈ { State.reset with keys := [(3, (.retired, 5))] }.keys) := by
  refine ⟨by simp [State.reset], by decide⟩

theorem witness_CheckpointEvents :
    (ws.ckpt = .idle ∧ { ws with ckpt := .streamed }.ckpt ≠ .idle) ∧
    ({ State.reset with ckpt := .quiesce }.gangs = [] ∧ { State.reset with ckpt := .quiesce }.chains = []) ∧
    (∃ x, (ws.ctx x).state = .active) ∧ State.reset.images[0]? = none ∧
    ({ State.reset with images := [anImage] }.images[0]? = some anImage ∧ (∀ x, (State.reset.ctx x).state ≠ .active) ∧
      anImage.clusters = [] ∧ State.reset.memWf ∧ ∀ key, ((anImageWith [aSegment key]).segments.map (·.base)).Nodup ∧
      ∀ g ∈ (anImageWith [aSegment key]).segments, g.base % 2 ^ 20 = 0 ∧ g.base + 2 ^ 20 ≤ 2 ^ 39 ∧ g.body.length = 2 ^ 16 * g.frames.length) ∧
    { State.reset with ckpt := .quiesce }.framesLost = [] ∧
    noMajority.framesLost ≠ [] := by
  unfold State.memWf
  refine ⟨by decide, by decide, ⟨0, by decide⟩, rfl, ⟨rfl, by decide, rfl, by decide, fun key => ⟨by simp [anImageWith], ?_⟩⟩, by decide, by decide⟩
  simp [anImageWith, aSegment, CkptSegment.frames]

/-- The island is in a state. -/
def island (p : IslandPower) : State := { State.reset with island := p }

theorem witness_IslandAndDieEvents_island :
    State.reset.island = .off ∧ (island .drain).island = .drain ∧
    (island .forward).island ≠ .off ∧ bits State.reset.flash.clusterDisable.toNat (16 * (3 : Die).val) 16 ≠ 0xffff := by decide

/-- Die 3 is in a state on a running island. -/
def die3 (p : DiePower) : State := (island .forward).modDie 3 fun d => { d with state := p }

theorem witness_IslandAndDieEvents_dies :
    (die3 .off).island = .forward ∧ (∀ p ∈ [DiePower.off, .reset, .boot, .run, .drain, .fenced], ((die3 p).die 3).state = p) ∧
    (die3 .reset).memWf ∧ (∀ g ∈ (die3 .drain).gangs, g.onDie 3 = false) ∧ (∃ g ∈ ws.gangs, g.onDie 0 = true) ∧
    ((die3 .boot).master.die ≠ 3 ∧ (die3 .boot).dieRuns (die3 .boot).master.die = false) ∧
    { die3 .boot with master := ⟨3, 1, true⟩ }.master.paused = true ∧
    (ws.modDie 3 fun d => { d with state := .drain }).dieRuns 0 = true := by
  unfold State.memWf; refine ⟨?_, ?_, ?_, ?_, ⟨wordGang 0x040c6500 0, ?_⟩, ?_, ?_, ?_⟩ <;> decide

theorem witness_PowerArbiter :
    (let q := State.reset.power
     (3600000 : Nat) < 3600001 ∧ 95 * q.budget < 100 * 3420001 ∧ (0 : Fin 16) ∉ q.narrowed ∧ 100 * 3060000 ≤ 85 * q.budget ∧
       q.coldPlate = false ∧ q.limits = [] ∧ q.alarm = false ∧ 110 * q.budget < 100 * 3960001) ∧
    (let q : Power := { Power.reset with calmAt := some 0, narrowed := [5], overAt := some 0 }
     q.calmAt = some 0 ∧ 0 + 1800000 ≤ 18000000 ∧ q.noPlace = [] ∧ q.narrowed = [5] ∧ q.widenAt ≤ 18000000 ∧ q.overAt = some 0 ∧
       0 + 18000000 ≤ 18000000) ∧
    (1000000 ≤ 1000000 ∧ 3600000 ≤ 3600000) ∧ (ws.core 1).gang = none ∧ (ws.core 0).gang ≠ none ∧
    (({ ws with cycle := 1800000 }.core 1).idleSince + 1800000 ≤ 1800000) ∧ ws.cycle < (ws.core 1).idleSince + 1800000 := by decide

/-- The island firmware core holds the lease until fabric time 10. -/
def leased (r : LeaseRecord) : State := { island .forward with lease := Vector.replicate 3 r }
def aLease : LeaseRecord := { LeaseRecord.reset with holder := 4, v := true, expiry := 10 }

theorem witness_LeaseEvents :
    ((leased aLease).leads 4 = true ∧ (leased aLease).leads 0 = false ∧ (leased aLease).coreRuns 4 = true) ∧
    ({ leased aLease with xtime := 10 }.leaseNow.expiry.toNat ≤ { leased aLease with xtime := 10 }.xtime.toNat) ∧
    ((leased aLease).leaseNow.v = true ∧ (leased aLease).xtime.toNat < (leased aLease).leaseNow.expiry.toNat) ∧
    ((leased .reset).leaseNow.v = false ∧ (leased aLease).leaseNow.holder.toNat = 4) ∧
    (leased aLease).leaseNow = aLease ∧ (leased .reset).leaseNow ≠ aLease ∧
    ((leased { aLease with holder := 3 }).leaseNow.holder.toNat = (3 : Die).val ∧ (leased { aLease with holder := 3 }).dieRuns 3 = false) ∧
    ((leased { aLease with ph := 1 }).leads 4 = true ∧ (leased { aLease with ph := 1 }).leaseNow.ph = 1) ∧
    (leased aLease).staged.isNone = true ∧ (leased aLease).leaseNow.ph ≠ 1 ∧ aLease.term ≤ { aLease with term := 1 }.term ∧
    { aLease with term := 0 }.term < { aLease with term := 1 }.term ∧
    (({ leased aLease with fwCores := (leased aLease).fwCores.set 4 { FwCore.reset with restarting := true } }.fwCores.get 4).restarting = true ∧
      (leased aLease).firmwareRuns = true) ∧ ((leased aLease).fwCores.get 4).restarting = false := by decide

theorem witness_LeaseEvents_staged :
    { leased { aLease with ph := 1 } with staged := some ⟨.blank, []⟩ }.staged = some ⟨.blank, []⟩ := rfl

/-- The terms and cores of the statements on the leader's requests and on fault entries (R428, R438). -/
theorem witness_leader_and_cores :
    (ws.heeds 0 = true ∧ ws.heeds 1 = false ∧ (TableWrite.scope 0 4 .reset).leaderOnly = true ∧ (ws.ctx 0).state = .active ∧
      ({ State.reset with island := .forward }.heeds 0 = true) ∧ ws.attends (dieCore (dieOf 0)) = true ∧ ws.attends 4 = true) ∧
    (let s : State := { ws with fwCores := ws.fwCores.set 4 { FwCore.reset with restarting := true } }
     s.attends (FaultSource.host.core s) = false) ∧
    { ws with fwCores := ws.fwCores.set 0 { FwCore.reset with restarting := true } }.attends (dieCore (dieOf 0)) = false ∧
    (let q : Power := { Power.reset with narrowed := List.finRange 16, alarmAt := some 0 }
     (∀ x, x ∈ q.narrowed) ∧ q.narrowed.length = 16 ∧ q.alarmAt = some 0 ∧ 0 + 1800000 ≤ 1800000 ∧ q.noPlace = []) := by decide

theorem witness_KeyAndQuoteEvents :
    let s : State := { ws with lease := Vector.replicate 3 aLease }
    (s.heeds 0 = true ∧ (511 : Fin 512) ≠ 0 ∧ s.keySlot 511 = none ∧ (s.ctx 0).state = .active) ∧ s.heeds 1 = false ∧
    { s with keys := [(511, (.assigned, 0))] }.keySlot 511 = some (.assigned, 0) ∧
    { s with keys := [(511, (.retired, 0))] }.keySlot 511 = some (.retired, 0) ∧ (s.ctx 0).keymap.getLsbD 511 = false ∧
    ((s.modCtx 0 fun x => { x with keymap := 1 <<< 511 }).ctx 0).keymap.getLsbD 511 = true ∧ 5 ≤ (7 : Fin 8).val ∧ s.island = .attached := by decide

end Sys2Proof.Tests
end

section
/-! PROOF. Clocks, fabric time, ports and routes (00 R2, 09 R279, 13 R357 to R359, R369). -/

namespace Sys2Proof.Machine

/-! Clocks. -/

/-- A cluster of no gang has a clock that stands (R279). -/
theorem execXframeAdvance_of_no_gang {s : State} {c : Cl} (h : (s.core c).gang = none) : execXframeAdvance c s = .next s := by
  simp [execXframeAdvance, h]

/-- The frame divisor with its gang at hand (R279). -/
theorem State.divisor_of_gang {s : State} {c : Cl} {g : Gang} (h : s.gangOf c = some g) :
    s.divisor c = (if (s.core c).narrowed then 2 else 1) * (if ∃ m ∈ g.members, (s.core m.phys).bin = 2 then 2 else 1) := by
  simp [State.divisor, h]

/-- A change of one core, as a change of no other part of the state. -/
theorem modCore_leavesCore {i : Instr} {s : State} {c : Cl} {f : Core → Core} (h : exec i s = .next (s.modCore c f)) :
    LeavesCore i s c (f (s.core c)) :=
  ⟨_, h, State.core_modCore s c f, rfl, fun _ ne => State.core_modCore_ne s f ne⟩

theorem Core.frameTick_eq (x : Core) (d : Nat) : x.frameTick d =
    if x.frameTicks + 1 < d then { x with frameTicks := x.frameTicks + 1 } else { x with xframe := x.xframe + 1, frameTicks := 0 } := by
  unfold Core.frameTick
  by_cases h : x.frameTicks + 1 < d
  · rw [if_pos h, if_neg (by omega)]
  · rw [if_neg h, if_pos (by omega)]

theorem xframeAdvance_leavesCore {s : State} {c : Cl} {g : Gang} (h : s.gangOf c = some g) :
    LeavesCore (.xframeAdvance c) s c ((s.core c).frameTick (s.divisor c)) := by
  have hg : (s.core c).gang.isSome = true := by
    rcases hc : (s.core c).gang with _ | i
    · simp [State.gangOf, hc] at h
    · rfl
  refine modCore_leavesCore (f := (·.frameTick (s.divisor c))) ?_
  show execXframeAdvance c s = _
  rw [execXframeAdvance, if_pos hg]

/-- A slew as the clock takes it: 500 ppm at most to either side (R369). -/
theorem slew_clamped (ppm : Int) : -500 ≤ max (-500) (min 500 ppm) ∧ max (-500) (min 500 ppm) ≤ 500 ∧
    (-500 ≤ ppm → ppm ≤ 500 → max (-500) (min 500 ppm) = ppm) := by omega

/-! Routes and traffic for others. -/

theorem State.forwards_iff (s : State) : s.forwards = true ↔ s.island = .forward ∨ s.island = .attached ∨ s.island = .drain := by
  simp [State.forwards, or_assoc]

/-- Traffic for another endpoint goes on by the port of its class, or no further. -/
theorem execTransitTraffic_eq (m : Transit) (s : State) :
    execTransitTraffic m s = .next (if (s.island = .forward ∨ s.island = .attached ∨ s.island = .drain) ∧ m.ep ≠ s.endpoint ∧
        (s.route m.ep).v = true ∧ s.ports.get ((s.route m.ep).portOf m.cls.val) ≠ .down then
      { s with transit := s.transit ++ [⟨(s.route m.ep).portOf m.cls.val, m.ep, m.cls⟩] } else s) := by
  simp only [execTransitTraffic, State.forwards_iff]

theorem execRouteUpdate_of_heeds {s : State} {n : BitVec 32} (h : s.heeds n = true) (ep : BitVec 12) (r : Route) :
    execRouteUpdate ep ⟨n, r⟩ s = .next { s with routes := tabSet s.routes ep.toNat r } := by
  simp [execRouteUpdate, h]

theorem execRouteUpdate_of_not_heeds {s : State} {n : BitVec 32} (h : s.heeds n = false) (ep : BitVec 12) (r : Route) :
    execRouteUpdate ep ⟨n, r⟩ s = .next s := by
  simp [execRouteUpdate, h]

/-- Settles O49. -/
theorem clockAndPortEvents : Obligations.ClockAndPortEvents := by
  intro s c
  refine ⟨rfl, fun g hg => ?_, fun h => execXframeAdvance_of_no_gang h, rfl, fun _ _ => rfl, fun ppm off => ?_, fun _ => rfl,
    fun ep n r z h => ?_, fun ep n r h => execRouteUpdate_of_not_heeds h ep r, fun p st => ?_, fun _ => rfl, fun m => ?_⟩
  · have h := xframeAdvance_leavesCore hg
    rw [Core.frameTick_eq, State.divisor_of_gang hg] at h
    exact h
  · obtain ⟨lo, hi, same⟩ := slew_clamped ppm
    exact ⟨_, rfl, rfl, rfl, same, lo, hi⟩
  · exact ⟨_, execRouteUpdate_of_heeds h ep r, rfl, fun i => tabGet_tabSet r z ep.toNat i s.routes⟩
  · refine ⟨_, rfl, rfl, fun i => ?_⟩
    split_ifs with h
    · rw [h]; exact Vector.get_set_same ..
    · exact Vector.get_set_other _ _ h
  · have h := execTransitTraffic_eq m s
    exact ⟨fun g => h.trans (congrArg _ (if_pos g)), fun g => h.trans (congrArg _ (if_neg g))⟩

end Sys2Proof.Machine
end

section
/-! PROOF. Posted stores: what they leave of the state, and what memory reads as after them (08 R131, R132, R252). -/

namespace Sys2Proof.Machine

/-! What the data cache and the kept rows leave of the state. -/

theorem State.setByte_rest (s : State) (x : Nat) (v : Byte) : { s.setByte x v with mem := s.mem } = s := by
  unfold State.setByte; split <;> rfl

/-- A run of changes of memory alone changes memory alone. -/
theorem foldl_rest {α : Type} {f : State → α → State} (hf : ∀ s a, { f s a with mem := s.mem } = s) :
    ∀ (l : List α) (s : State), { l.foldl f s with mem := s.mem } = s
  | [], _ => rfl
  | a :: l, s => by
    have ih := congrArg (fun t : State => { t with mem := s.mem }) (foldl_rest hf l (f s a))
    exact ih.trans (hf s a)

/-- A line written back changes memory and the marks of poison alone. -/
theorem writeBackLine_rest (c : Cl) (d : DLine) (s : State) :
    { writeBackLine c d s with mem := s.mem, poison := s.poison } = s := by
  unfold writeBackLine; split
  · exact writeHome_rest s _ _
  · refine congrArg (fun t : State => { t with poison := s.poison }) (foldl_rest (fun z i => ?_) (List.range 64) s)
    split
    · exact State.setByte_rest z _ _
    · rfl

theorem writeHome_cores (s : State) (a : Nat) (bs : List Byte) : (writeHome s a bs).cores = s.cores := by
  have e := congrArg State.cores (writeHome_rest s a bs)
  exact e

/-- A line that leaves the data cache changes memory, the marks of poison and the cache alone. -/
theorem dropLine_rest (c : Cl) (l : Nat) (s : State) :
    { dropLine c l s with mem := s.mem, poison := s.poison, cores := s.cores } = s := by
  rw [dropLine_eq]; unfold cleanLine; split
  · rename_i d _; exact congrArg (fun t : State => { t with cores := s.cores }) (writeBackLine_rest c d s)
  · rfl

theorem dropLine_core (c : Cl) (l : Nat) (s : State) :
    ∃ d, (dropLine c l s).core c = { s.core c with dcache := d } ∧ ∀ x ∈ d, x.line ≠ l := by
  have filtered : ∀ ys : List DLine, ∀ x ∈ ys.filter (·.line ≠ l), x.line ≠ l := fun ys x hx => by
    simpa using (List.mem_filter.mp hx).2
  rw [dropLine_eq, State.core_modCore]; unfold cleanLine; split
  · rename_i d _
    have e0 := congrArg (State.core · c) (writeBackLine_rest c d s)
    have e : (writeBackLine c d s).core c = s.core c := e0
    rw [State.core_modCore, e]
    exact ⟨_, rfl, filtered _⟩
  · exact ⟨_, rfl, filtered _⟩

theorem lineOf_own {c : Cl} {a : Nat} (h : a / 2 ^ 24 = 2 ^ 16 + c.val) : lineOf c a = some (a % 2 ^ 24 / 64) := if_pos h

theorem lineOf_other {c : Cl} {a : Nat} (h : a / 2 ^ 24 ≠ 2 ^ 16 + c.val) : lineOf c a = none := if_neg h

/-- Outside the own vault no line of the data cache goes. -/
theorem leaveCache_other {c : Cl} {a : Nat} (h : a / 2 ^ 24 ≠ 2 ^ 16 + c.val) (s : State) : leaveCache c a s = s := by
  rw [leaveCache, lineOf_other h]; rfl

theorem leaveCache_own {c : Cl} {a : Nat} (h : a / 2 ^ 24 = 2 ^ 16 + c.val) (s : State) :
    leaveCache c a s = dropLine c (a % 2 ^ 24 / 64) s := by
  rw [leaveCache, lineOf_own h]; rfl

theorem leaveCache_line {c : Cl} {a : Nat} (h : a / 2 ^ 24 = 2 ^ 16 + c.val) (s : State) :
    ((leaveCache c a s).core c).line? (a % 2 ^ 24 / 64) = none := by
  obtain ⟨d, hd, gone⟩ := dropLine_core c (a % 2 ^ 24 / 64) s
  rw [leaveCache_own h, hd]
  exact List.find?_eq_none.mpr fun x hx => by simpa using gone x hx

/-- Outside the accumulators nothing is kept. -/
theorem keepAcc_below {a : Nat} (h : a < 2 ^ 42) (n : Nat) (s : State) : keepAcc a n s = s :=
  if_neg fun g => absurd g.1 (Nat.not_le.mpr h)

/-- What stood in a row of an accumulator is kept in its tile. -/
theorem keepAcc_acc (c : Cl) (t : Tl) (o n : Nat) (ho : o < 2 ^ 18) (s : State) : keepAcc (accLoc c t o) n s =
    s.modTile c t (·.noteOld (tickOf s.cycle) ((List.range n).map fun i => ⟨none, accLoc c t o + i, s.byte (accLoc c t o + i)⟩)) := by
  have hc := c.isLt
  have ht := t.isLt
  have e0 : accLoc c t o - 2 ^ 42 = (c.val * 8 + t.val) * 2 ^ 18 + o := by rw [accLoc, Nat.add_assoc, Nat.add_sub_cancel_left]
  have e1 : (accLoc c t o - 2 ^ 42) / 2 ^ 21 = c.val := by rw [e0]; omega
  have e2 : (accLoc c t o - 2 ^ 42) / 2 ^ 18 = c.val * 8 + t.val := by rw [e0]; omega
  have f1 : Fin.ofNat 64 ((accLoc c t o - 2 ^ 42) / 2 ^ 21) = c := (congrArg (Fin.ofNat 64) e1).trans (Fin.ofNat_val_eq_self c)
  have f2 : Fin.ofNat 8 ((accLoc c t o - 2 ^ 42) / 2 ^ 18) = t :=
    (congrArg (Fin.ofNat 8) e2).trans (Fin.ext (show (c.val * 8 + t.val) % 8 = t.val by omega))
  rw [keepAcc, if_pos (by unfold accLoc; omega), f1, f2]

/-- A row kept changes the cores alone, and no gang's place. -/
theorem keepAcc_rest (a n : Nat) (s : State) : { keepAcc a n s with cores := s.cores } = s := by
  unfold keepAcc; split_ifs <;> rfl

theorem modTile_gang (s : State) (c c' : Cl) (t : Tl) (f : Tile → Tile) : ((s.modTile c t f).core c').gang = (s.core c').gang := by
  by_cases h : c' = c
  · subst h
    have e := congrArg Core.gang (modTile_core s c' t f)
    exact e
  · rw [modTile_other _ _ _ _ _ h]

theorem keepAcc_gang (a n : Nat) (s : State) (c : Cl) : ((keepAcc a n s).core c).gang = (s.core c).gang := by
  unfold keepAcc; split_ifs <;> [exact modTile_gang ..; rfl]

theorem leaveCache_gang (c : Cl) (a : Nat) (s : State) : ((leaveCache c a s).core c).gang = (s.core c).gang := by
  by_cases h : a / 2 ^ 24 = 2 ^ 16 + c.val
  · obtain ⟨d, hd, _⟩ := dropLine_core c (a % 2 ^ 24 / 64) s
    rw [leaveCache_own h, hd]
  · rw [leaveCache_other h]

theorem leaveCache_rest (c : Cl) (a : Nat) (s : State) :
    { leaveCache c a s with mem := s.mem, poison := s.poison, cores := s.cores } = s := by
  by_cases h : a / 2 ^ 24 = 2 ^ 16 + c.val
  · rw [leaveCache_own h]; exact dropLine_rest ..
  · rw [leaveCache_other h]

/-- The context of a cluster goes by its gang. -/
theorem State.ctxOf_congr {s t : State} {c : Cl} (hg : t.gangs = s.gangs) (hc : (t.core c).gang = (s.core c).gang) :
    t.ctxOf c = s.ctxOf c := by
  unfold State.ctxOf State.gangOf State.gang?; rw [hc, hg]

/-! A posted store that performs at home. -/

/-- The bytes of a store at a location, past the caches and the rows kept (R252, R247). -/
def storedHome (c : Cl) (a : Nat) (bs : List Byte) (s : State) : State :=
  writeHome (keepAcc a bs.length (leaveCache c a s)) a bs

theorem storedHome_rest (c : Cl) (a : Nat) (bs : List Byte) (s : State) :
    { storedHome c a bs s with mem := s.mem, poison := s.poison, cores := s.cores } = s := by
  have e1 := congrArg (fun t : State => { t with mem := s.mem, poison := s.poison, cores := s.cores })
    (writeHome_rest (keepAcc a bs.length (leaveCache c a s)) a bs)
  have e2 := congrArg (fun t : State => { t with mem := s.mem, poison := s.poison, cores := s.cores })
    (keepAcc_rest a bs.length (leaveCache c a s))
  exact e1.trans (e2.trans (leaveCache_rest c a s))

theorem storedHome_ctxOf (c : Cl) (a : Nat) (bs : List Byte) (s : State) : (storedHome c a bs s).ctxOf c = s.ctxOf c := by
  have g := congrArg State.gangs (storedHome_rest c a bs s)
  refine State.ctxOf_congr g ?_
  have e : (storedHome c a bs s).core c = (keepAcc a bs.length (leaveCache c a s)).core c :=
    congrArg (fun v : Vector Core 64 => v.get c) (writeHome_cores _ a bs)
  rw [e, keepAcc_gang, leaveCache_gang]

/-- A store that performs and is done: its effect, and the access leaves the strand's list. -/
theorem execStorePerform_done {s s1 : State} {c : Cl} {k : Sn} {j : Nat} {p : Pend} {bs : List Byte} (hp : (s.strand c k).pend[j]? = some p)
    (hk : p.kind = .store bs) (hc : canPerform s c k j = true) (hd : performPend s c k p = .done s1) :
    exec (.storePerform c k j) s = .next (s1.modStrand c k (·.dropPend j)) := by
  have e : performAt s c k j = s1.modStrand c k (·.dropPend j) := by
    simp [performAt, hp, hc, hk, AccKind.slot?, hd]
  show execStorePerform c k j s = _
  simp [execStorePerform, hp, hk, AccKind.slot?, e]

theorem performPend_store_loc (s : State) (c : Cl) (k : Sn) (bs : List Byte) (cls a sp : Nat) (pc : W) :
    performPend s c k ⟨.store bs, cls, .loc a sp, none, none, false, pc⟩ =
      .done (storeAt { s with fresh := s.fresh + 1 } c (.loc a sp) bs false) := rfl

theorem performPend_store_keyed (s : State) (c : Cl) (k : Sn) (bs : List Byte) (cls a : Nat) (key : BitVec 9) (pc : W) :
    performPend s c k ⟨.store bs, cls, .loc a 5 (some key), none, none, false, pc⟩ =
      .done (storeAt ({ s with fresh := s.fresh + 1 }.underKey ({ s with fresh := s.fresh + 1 }.keyedLoc (s.ctxOf c) (a, key)) key.toNat) c
        (.loc ({ s with fresh := s.fresh + 1 }.keyedLoc (s.ctxOf c) (a, key)) 5 (some key)) bs false) := rfl

theorem storeAt_home {sp : Nat} (h : sp ≠ 3) (s : State) (c : Cl) (a : Nat) (key : Option (BitVec 9)) (bs : List Byte) :
    storeAt s c (.loc a sp key) bs false = countAccess c (.loc a sp key) bs.length (storedHome c a bs s) := by
  simp [storeAt, h, storedHome]

theorem storeAt_vault (s : State) (c : Cl) (a : Nat) (bs : List Byte) :
    storeAt s c (.loc a 3) bs false = countAccess c (.loc a 3) bs.length (cacheStore c a bs s) := by
  simp [storeAt]

/-- Near spaces are not counted (R345). -/
theorem countAccess_near {sp : Nat} (h : sp ∉ [1, 4, 5]) (c : Cl) (a : Nat) (key : Option (BitVec 9)) (n : Nat) (s : State) :
    countAccess c (.loc a sp key) n s = s := by
  have e : [1, 4, 5].contains sp = false := by simpa using h
  simp only [countAccess, e, Bool.false_eq_true, if_false]

theorem countAccess_hot {sp : Nat} (h : sp ∈ [1, 4, 5]) (c : Cl) (a : Nat) (key : Option (BitVec 9)) (n : Nat) (s : State) :
    countAccess c (.loc a sp key) n s = s.countBuffer (dieOf c) (s.ctxOf c) 0 n 0 := by
  have e : [1, 4, 5].contains sp = true := by simpa using h
  simp only [countAccess, e, if_true]

theorem countAccess_rest (c : Cl) (t : Tgt) (n : Nat) (s : State) : { countAccess c t n s with dies := s.dies } = s := by
  simp only [countAccess]; split_ifs <;> rfl

theorem countBuffer_get (s : State) (d : Die) (x : Fin 64) (b bytes stall : Nat) :
    tabGet ((s.countBuffer d x b bytes stall).die d).counts (x.val * 64 + b) (0, 0) =
      ((tabGet (s.die d).counts (x.val * 64 + b) (0, 0)).1 + bytes, (tabGet (s.die d).counts (x.val * 64 + b) (0, 0)).2 + stall) := by
  simp [State.countBuffer, State.modDie, State.die, Vector.get_set_same, tabGet_tabSet]


/-! The clauses of the statement. -/

/-- Memory holds the bytes written, and no other byte changes (R12, R398). -/
theorem writeHome_laws {s : State} {a : Nat} {bs : List Byte} (hw : s.memWf) (hp : ∀ i, i < bs.length → Present s (a + i)) :
    (∀ i, i < bs.length → (writeHome s a bs).byte (a + i) = (bs[i]?).getD 0) ∧
    (∀ x, x < a ∨ a + bs.length ≤ x → (writeHome s a bs).byte x = s.byte x) ∧
    readHome (writeHome s a bs) a bs.length = bs ∧ (writeHome s a bs).memWf ∧
    (∀ v : W, bs = bytesOf 8 v.toNat → wordAt (writeHome s a bs) a = v) := by
  have back := readHome_writeHome hw a bs hp
  refine ⟨fun i hi => ?_, fun x hx => ?_, back, writeHome_memWf hw a bs, fun v hv => ?_⟩
  · rw [writeHome_byte hw a bs hp, if_pos (by omega), Nat.add_sub_cancel_left]
  · rw [writeHome_byte hw a bs hp, if_neg (by omega)]
  · have e : readHome (writeHome s a bs) a 8 = bytesOf 8 v.toNat := by
      rw [hv, bytesOf_length] at back; rw [hv]; exact back
    rw [wordAt, e, ofBytes_bytesOf]
    exact BitVec.eq_of_toNat_eq (by rw [BitVec.toNat_ofNat]; have := v.isLt; omega)

theorem State.modStrand_die (s : State) (c : Cl) (k : Sn) (f : Strand → Strand) (d : Die) : (s.modStrand c k f).die d = s.die d := rfl

/-- A store at home, once performed: the bytes, the count of buffer 0, and the access gone (R131, R252, R345). -/
theorem countAccess_storedHome (s : State) (c : Cl) (k : Sn) (a sp : Nat) (bs : List Byte) (f : Strand → Strand) :
    let t := (countAccess c (.loc a sp) bs.length (storedHome c a bs s)).modStrand c k f
    { t with dies := s.dies } = (storedHome c a bs s).modStrand c k f ∧
      (sp = 1 ∨ sp = 4 ∨ sp = 5 → (tabGet (t.die (dieOf c)).counts (64 * (s.ctxOf c).val) (0, 0)).1 =
        (tabGet (s.die (dieOf c)).counts (64 * (s.ctxOf c).val) (0, 0)).1 + bs.length) := by
  have hd := congrArg State.dies (storedHome_rest c a bs s)
  replace hd : (storedHome c a bs s).dies = s.dies := hd
  refine ⟨?_, fun h => ?_⟩
  · rw [← hd]
    exact congrArg (State.modStrand · c k f) (countAccess_rest c (.loc a sp) bs.length (storedHome c a bs s))
  · have e := countBuffer_get (storedHome c a bs s) (dieOf c) (s.ctxOf c) 0 bs.length 0
    have e0 : (storedHome c a bs s).die (dieOf c) = s.die (dieOf c) := congrArg (fun v : Vector DieRec 4 => v.get (dieOf c)) hd
    rw [State.modStrand_die, countAccess_hot (by simpa using h), storedHome_ctxOf]
    rw [e0, Nat.add_zero, Nat.mul_comm] at e
    exact congrArg Prod.fst e

/-- The line of a cache after bytes are put into one of its lines. -/
theorem find_line_map {ys : List DLine} {l : Nat} {y : DLine} (h : ys.find? (·.line == l) = some y) (g : DLine → DLine)
    (hg : ∀ x, (g x).line = x.line) :
    (ys.map fun x => if x.line = l then g x else x).find? (·.line == l) = some (g y) := by
  have same : ((fun x : DLine => x.line == l) ∘ fun x => if x.line = l then g x else x) = fun x => x.line == l := by
    funext x; by_cases e : x.line = l <;> simp [e, hg]
  have hy : y.line = l := by simpa using List.find?_some h
  rw [List.find?_map, same, h]
  simp [hy]

/-- Bytes put into a line of the data cache. -/
def putLine (l i : Nat) (bs : List Byte) (co : Core) : Core :=
  { co with dcache := co.dcache.map fun y =>
      if y.line = l then { y with data := patchBytes y.data i bs, dirty := y.dirty ||| BitVec.ofNat 64 ((2 ^ bs.length - 1) * 2 ^ i) } else y }

/-- A store into a line that the data cache holds goes there (R252). -/
theorem cacheStore_hit {s : State} {c : Cl} {o : Nat} {y : DLine} (bs : List Byte) (ho : o < 2 ^ 24) (h : (s.core c).line? (o / 64) = some y) :
    cacheStore c (2 ^ 40 + c.val * 2 ^ 24 + o) bs s = s.modCore c (putLine (o / 64) (o % 64) bs) := by
  have hl : lineOf c (2 ^ 40 + c.val * 2 ^ 24 + o) = some (o / 64) := by
    rw [lineOf_own (by omega)]; congr 1; omega
  have hm : (2 ^ 40 + c.val * 2 ^ 24 + o) % 64 = o % 64 := by omega
  have hf : fillLine c (o / 64) s = s := by rw [fillLine, h]
  rw [cacheStore, hl, ← hm]; dsimp only; rw [hf]; rfl

theorem putLine_line {co : Core} {l : Nat} {y : DLine} (h : co.line? l = some y) (i : Nat) (bs : List Byte) :
    (putLine l i bs co).line? l = some { y with
      data := y.data.take i ++ bs ++ y.data.drop (i + bs.length), dirty := y.dirty ||| BitVec.ofNat 64 ((2 ^ bs.length - 1) * 2 ^ i) } :=
  find_line_map h (fun x => { x with data := patchBytes x.data i bs, dirty := x.dirty ||| _ }) fun _ => rfl

theorem State.strand_modStrand_congr {s t : State} {c : Cl} {k : Sn} (h : (t.core c).strands = (s.core c).strands) (f : Strand → Strand) :
    (t.modStrand c k f).strand c k = f (s.strand c k) := by
  rw [State.strand_modStrand]
  exact congrArg (fun v : Vector Strand 4 => f (v.get k)) h

/-- Nothing is written past the end of the locations. -/
theorem writeBytes_nowhere : ∀ (bs : List Byte) (s : State) (x : Nat), nowhere ≤ x → writeBytes s x bs = s
  | [], _, _, _ => rfl
  | b :: r, s, x, h => by
    have e : s.setByte x b = s := if_pos (Or.inl h)
    rw [writeBytes, e]; exact writeBytes_nowhere r s (x + 1) (by omega)


theorem countAccess_cores (c : Cl) (t : Tgt) (n : Nat) (s : State) : (countAccess c t n s).cores = s.cores := by
  have e := congrArg State.cores (countAccess_rest c t n s)
  exact e

@[simp] theorem countAccess_mem (c : Cl) (t : Tgt) (n : Nat) (s : State) : (countAccess c t n s).mem = s.mem := by
  have e := congrArg State.mem (countAccess_rest c t n s)
  exact e

/-- The access leaves the strand's list and nothing else of the strand changes, where the cores stood. -/
theorem strand_dropPend {s t : State} (h : t.cores = s.cores) (c : Cl) (k : Sn) (j : Nat) :
    ((t.modStrand c k (·.dropPend j)).strand c k).pend = (s.strand c k).pend.eraseIdx j := by
  rw [State.strand_modStrand_congr (s := s) (by unfold State.core; rw [h])]; rfl

theorem writeBytes_cores (s : State) (x : Nat) (bs : List Byte) : (writeBytes s x bs).cores = s.cores := by
  have e := congrArg State.cores (writeBytes_rest bs s x)
  exact e

theorem foldl_cores {α : Type} {f : State → α → State} (hf : ∀ s a, (f s a).cores = s.cores) :
    ∀ (l : List α) (s : State), (l.foldl f s).cores = s.cores
  | [], _ => rfl
  | a :: l, s => (foldl_cores hf l (f s a)).trans (hf s a)

theorem recryptFrame_cores (old new : BitVec 512) (f : Nat) (s : State) : (recryptFrame old new f s).cores = s.cores :=
  foldl_cores (fun _ _ => writeBytes_cores ..) _ s

/-- A frame of device memory under another key changes no core. -/
theorem keyFrame_cores (k f : Nat) (s : State) : (keyFrame k f s).cores = s.cores := by
  unfold keyFrame; dsimp only; split
  · rfl
  split
  · split
    · rfl
    · rename_i x _ _
      show (if x.2.2 = _ then s else recryptFrame x.2.2 _ f s).cores = s.cores
      split <;> [rfl; exact recryptFrame_cores ..]
  · rfl

theorem underKey_cores (s : State) (a k : Nat) : (s.underKey a k).cores = s.cores := by
  unfold State.underKey; split_ifs <;> [exact keyFrame_cores ..; rfl]

/-! A store translated under a key (R355, R434). -/

/-- Device memory and what no location is lie outside the vaults and the accumulators. -/
theorem storedHome_far {a : Nat} (h : a ≤ 2 ^ 39 ∨ nowhere ≤ a) (c : Cl) (bs : List Byte) (s : State) :
    storedHome c a bs s = writeHome s a bs := by
  have hc := c.isLt
  unfold nowhere at h
  rw [storedHome, leaveCache_other (by omega), keepAcc, if_neg (by omega)]

theorem State.keyedLoc_of_keyOk {s : State} {x : Fin 64} {key : BitVec 9} (h : keyOk s x key = true) (a : Nat) :
    s.keyedLoc x (a, key) = a := if_pos (Or.inr h)

theorem State.keyedLoc_far {s : State} {x : Fin 64} {key : BitVec 9} {a : Nat} (h : a ≤ 2 ^ 39) :
    s.keyedLoc x (a, key) ≤ 2 ^ 39 ∨ nowhere ≤ s.keyedLoc x (a, key) := by
  unfold State.keyedLoc; split_ifs
  · exact Or.inl h
  · exact Or.inr (Nat.le_add_right ..)

/-- Without its key a store reaches no location. -/
theorem keyed_store_lost {s : State} {x : Fin 64} {key : BitVec 9} {a : Nat} {bs : List Byte} (hlen : a + bs.length ≤ hbmSize)
    (hk : keyOk s x key = false) :
    (writeHome (s.underKey (s.keyedLoc x (a, key)) key.toNat) (s.keyedLoc x (a, key)) bs).mem = s.mem := by
  by_cases ha : hbmSize ≤ a
  · have e : s.keyedLoc x (a, key) = a := if_pos (Or.inl ha)
    have hb : bs = [] := List.eq_nil_of_length_eq_zero (by omega)
    have hu : s.underKey a key.toNat = s := if_neg (by omega)
    rw [e, hu, hb]; rfl
  · have e : s.keyedLoc x (a, key) = nowhere + a % 2 ^ 29 := if_neg (by simp [ha, hk])
    have hu : s.underKey (nowhere + a % 2 ^ 29) key.toNat = s := if_neg (by unfold hbmSize nowhere; omega)
    rw [e, hu, writeHome, writeBytes_nowhere _ _ _ (Nat.le_add_right ..)]

/-- Settles O27. -/
theorem storesPerform : Obligations.StoresPerform := by
  refine ⟨fun s a bs hlen hon hw => writeHome_laws hw fun i hi => ⟨by unfold nowhere; omega, hon i hi⟩,
    fun s c k j bs cls a pc hc => ⟨fun sp hp h3 => ?_, fun key hp hlen => ?_, fun y o hp ho hl => ?_⟩⟩
  · intro s0 s1 home key
    have done := execStorePerform_done hp rfl hc (performPend_store_loc s c k bs cls a sp pc)
    rw [storeAt_home h3] at done
    obtain ⟨rest, count⟩ := countAccess_storedHome { s with fresh := s.fresh + 1 } c k a sp bs (·.dropPend j)
    refine ⟨fun h => ?_, ⟨_, done, rest, count⟩, fun h => leaveCache_other h _, fun h => ?_, fun h => keepAcc_below h _ _, ?_⟩
    · rw [done, countAccess_near (by rcases h with rfl | rfl <;> decide)]; rfl
    · have hs1 : s1 = s0 := keepAcc_below (by have := c.isLt; omega) _ _
      rw [hs1]; exact leaveCache_line h _
    · rintro c1 t1 o rfl ho
      have hs0 : s0 = { s with fresh := s.fresh + 1 } := leaveCache_other (by have := c.isLt; unfold accLoc; omega) _
      have hs1 : s1 = _ := keepAcc_acc c1 t1 o bs.length ho s0
      rw [hs1, State.tile_modTile, hs0]
      exact ⟨rfl, rfl⟩
  · intro s1
    have done := execStorePerform_done hp rfl hc (performPend_store_keyed s c k bs cls a key pc)
    rw [storeAt_home (by decide)] at done
    rw [storedHome_far (State.keyedLoc_far (by unfold hbmSize at hlen; omega))] at done
    refine ⟨_, done, strand_dropPend ?_ c k j, fun hk => ?_, fun hk => ?_⟩
    · rw [countAccess_cores, writeHome_cores, underKey_cores]
    · have e := State.keyedLoc_of_keyOk (s := { s with fresh := s.fresh + 1 }) hk a
      rw [State.modStrand_mem, countAccess_mem, e]
    · rw [State.modStrand_mem, countAccess_mem]
      exact keyed_store_lost (s := { s with fresh := s.fresh + 1 }) hlen hk
  · have done := execStorePerform_done hp rfl hc (performPend_store_loc s c k bs cls _ 3 pc)
    have hit := cacheStore_hit (s := { s with fresh := s.fresh + 1 }) bs ho hl
    rw [storeAt_vault, countAccess_near (by decide), hit] at done
    have hz := putLine_line hl (o % 64) bs
    refine ⟨_, done, rfl, ?_, _, Eq.trans ?_ hz, rfl, rfl⟩
    · rw [State.strand_modStrand_congr (s := s) (by rw [State.core_modCore]; rfl)]; rfl
    · rw [State.core_modStrand, State.core_modCore]; rfl

end Sys2Proof.Machine
end

section
/-! PROOF. Memory in canonical form: the predicate, the outcomes that keep it, folds (00 R12; log 3). -/

namespace Sys2Proof.Machine

/-- Memory in canonical form, written out for the simplifier. -/
@[simp] abbrev State.Canonical (s : State) : Prop := Memory.wf s.mem = true

/-- An outcome whose next state, if there is one, has its memory in canonical form. -/
def KeepsForm (o : Host.Outcome State Fault Refusal) : Prop := ∀ t, o = .next t → t.Canonical

@[simp] theorem keepsForm_next (t : State) : KeepsForm (.next t) ↔ t.Canonical :=
  ⟨fun h => h t rfl, fun h _ e => by cases e; exact h⟩

@[simp] theorem keepsForm_fault (f : Fault) : KeepsForm (.fault f) := fun _ e => nomatch e

@[simp] theorem State.mem_ite (c : Prop) [Decidable c] (a b : State) :
    (if c then a else b).mem = if c then a.mem else b.mem := apply_ite ..

@[simp] theorem wf_ite (c : Prop) [Decidable c] (a b : List Host.Cell) :
    Memory.wf (if c then a else b) = true ↔ (c → Memory.wf a = true) ∧ (¬c → Memory.wf b = true) := by
  split <;> simp_all

@[simp] theorem foldl_mem {α : Type} {f : State → α → State} (hf : ∀ s a, (f s a).mem = s.mem) (l : List α)
    (s : State) :
    (l.foldl f s).mem = s.mem := by
  induction l generalizing s with
  | nil => rfl
  | cons a l ih => exact (ih _).trans (hf s a)

@[simp] theorem foldl_canonical {α : Type} {f : State → α → State} (hf : ∀ s a, s.Canonical → (f s a).Canonical)
    (l : List α) {s : State} (h : s.Canonical) : (l.foldl f s).Canonical := foldl_memWf hf l s h

@[simp] theorem elim_mem {α : Type} {o : Option α} {s t : State} {f : α → State} (h : s.mem = t.mem)
    (hf : ∀ a, (f a).mem = t.mem) :
    (o.elim s f).mem = t.mem := by
  cases o <;> simp [h, hf]

@[simp] theorem elim_canonical {α : Type} {o : Option α} {s : State} {f : α → State} (h : s.Canonical)
    (hf : ∀ a, (f a).Canonical) :
    (o.elim s f).Canonical := by
  cases o <;> simp_all

end Sys2Proof.Machine
end

section
/-! PROOF. Canonical memory: the state's operations, memory, caches, accesses and translation. -/

namespace Sys2Proof.Machine

/-! ### Machine/Ops

A frame that holds by definition is closed by `(rfl)`, not `rfl`: a lemma that `rfl` proves outright is a `dsimp` lemma,
and `simp` does not use those under the binders of `foldl_mem`. -/

@[simp] theorem State.modGang_mem (s : State) (g : Nat) (f : Gang → Gang) : (State.modGang s g f).mem = s.mem := (rfl)

@[simp] theorem State.modCtx_mem (s : State) (x : Fin 64) (f : Context → Context) :
    (State.modCtx s x f).mem = s.mem := (rfl)

@[simp] theorem State.modDie_mem (s : State) (d : Die) (f : DieRec → DieRec) :
    (State.modDie s d f).mem = s.mem := (rfl)

@[simp] theorem State.countBuffer_mem (s : State) (d : Die) (x : Fin 64) (b bytes stall : Nat) :
    (State.countBuffer s d x b bytes stall).mem = s.mem := (rfl)

@[simp] theorem State.modLaunch_mem (s : State) (l : Nat) (f : Launch → Launch) :
    (State.modLaunch s l f).mem = s.mem := (rfl)

@[simp] theorem State.addFault_mem (s : State) (d : Die) (e : FaultEntry) :
    (State.addFault s d e).mem = s.mem := (rfl)

@[simp] theorem wr_mem (f : Sreg) (v : W) (bound : Nat) (s : State) : (wr f v bound s).mem = s.mem := (rfl)

@[simp] theorem wrp_mem (p : Preg) (v : Bool) (bound : Nat) (fl : Option (BitVec 5)) (s : State) :
    (wrp p v bound fl s).mem = s.mem := (rfl)

@[simp] theorem issue_mem (m : Marks) (s : State) : (issue m s).mem = s.mem := (rfl)
@[simp] theorem retire_mem (m : Marks) (s : State) : (retire m s).mem = s.mem := (rfl)
@[simp] theorem retireTo_mem (m : Marks) (target : W) (s : State) : (retireTo m target s).mem = s.mem := (rfl)
@[simp] theorem hold_mem (s : State) : (hold s).mem = s.mem := (rfl)

@[simp] theorem State.settleBars_mem (s : State) (c : Cl) : (State.settleBars s c).mem = s.mem := by
  unfold State.settleBars; split <;> rfl

@[simp] theorem State.halt_mem (s : State) (c : Cl) (k : Sn) : (State.halt s c k).mem = s.mem := by simp [State.halt]

@[simp] theorem takeTrap_mem (s : State) (c : Cl) (k : Sn) (sync : Bool) (code : BitVec 8) (fwl : Bool)
    (detail : BitVec 16) (tval epc : W) :
    (takeTrap s c k sync code fwl detail tval epc).mem = s.mem := by
  unfold takeTrap; dsimp only; (repeat' split) <;> simp

@[simp] theorem trap_mem (s : State) (code : BitVec 8) (detail : BitVec 16) (tval : W) :
    (trap s code detail tval).mem = s.mem := by simp [trap]

@[simp] theorem trapIllegal_mem (s : State) : (trapIllegal s).mem = s.mem := by simp [trapIllegal]

@[simp] theorem trapAddress_mem (s : State) (reason : Nat) (x : W) : (trapAddress s reason x).mem = s.mem := by
  simp [trapAddress]

@[simp] theorem trapObject_mem (s : State) (reason : Nat) (ident : BitVec 16) :
    (trapObject s reason ident).mem = s.mem := by simp [trapObject]

@[simp] theorem holdTranslation_mem (s : State) (code : BitVec 8) (write : Bool) (addr : W) :
    (holdTranslation s code write addr).mem = s.mem := (rfl)

@[simp] theorem beginPurge_mem (s : State) (x : Fin 64) (tag : BitVec 16) (e : LaunchEvent) (onChip : Bool) :
    (beginPurge s x tag e onChip).mem = s.mem := (rfl)

@[simp] theorem machineCheck_mem (s : State) (c : Cl) (k : Sn) (unit : Nat) (addr : W) :
    (machineCheck s c k unit addr).mem = s.mem := by
  unfold machineCheck; split <;> rfl

@[simp] theorem addRecord_mem (d : Die) (r : TaskRec) (s : State) : (addRecord d r s).mem = s.mem := (rfl)

@[simp] theorem issueWord_keepsForm (fields : List Nat) {body : State → State} {s : State} (h : s.Canonical)
    (hb : (body s).Canonical) :
    KeepsForm (issueWord fields body s) := by
  unfold issueWord; split <;> [split; skip] <;> simp_all

@[simp] theorem issueLegal_keepsForm (legal : State → Bool) (fields : List Nat) {body : State → State} {s : State}
    (h : s.Canonical) (hb : (body s).Canonical) :
    KeepsForm (issueLegal legal fields body s) := by
  unfold issueLegal; split <;> simp_all

@[simp] theorem writeBack_mem (m : Marks) (d : Sreg) (v : W) (bound : Nat) (s : State) :
    (writeBack m d v bound s).mem = s.mem := (rfl)

/-! ### Machine/Alu -/

@[simp] theorem alu3_keepsForm (f : W → W → W) (bound : Nat) (m : Marks) (d a b : Sreg) (s : State) (h : s.Canonical) :
    KeepsForm (alu3 f bound m d a b s) := by
  simp [alu3, h]

@[simp] theorem alu2_keepsForm (f : W → W) (bound : Nat) (m : Marks) (d a : Sreg) (s : State) (h : s.Canonical) :
    KeepsForm (alu2 f bound m d a s) := by
  simp [alu2, h]

/-! ### Machine/Firmware -/

@[simp] theorem State.setLease_mem (s : State) (r : LeaseRecord) : (State.setLease s r).mem = s.mem := (rfl)

@[simp] theorem byCore_canonical (f : Fin 5) {s t : State} (h : s.Canonical) (ht : t.Canonical) :
    (byCore f s t).Canonical := by
  unfold byCore; split <;> assumption

@[simp] theorem byCore_mem (f : Fin 5) {s t : State} (ht : t.mem = s.mem) : (byCore f s t).mem = s.mem := by
  unfold byCore; split <;> simp [ht]

/-! ### Machine/Memory -/

@[simp] theorem writeHome_canonical (s : State) (x : Nat) (bs : List Byte) (h : s.Canonical) :
    (writeHome s x bs).Canonical := writeHome_memWf h ..

@[simp] theorem State.putByte_canonical (s : State) (x : Nat) (v : Byte) (run : Nat) (h : s.Canonical) :
    (State.putByte s x v run).Canonical := putByte_memWf h ..

@[simp] theorem cleanLine_canonical (c : Cl) (l : Nat) (s : State) (h : s.Canonical) : (cleanLine c l s).Canonical :=
  cleanLine_memWf h ..

@[simp] theorem dropLine_canonical (c : Cl) (l : Nat) (s : State) (h : s.Canonical) : (dropLine c l s).Canonical :=
  dropLine_memWf h ..

@[simp] theorem cleanAll_canonical (c : Cl) (s : State) (h : s.Canonical) : (cleanAll c s).Canonical :=
  cleanAll_memWf h ..

@[simp] theorem dropAll_canonical (c : Cl) (s : State) (h : s.Canonical) : (dropAll c s).Canonical :=
  dropAll_memWf h ..

theorem cacheLoad_canonical (c : Cl) (x n : Nat) (s : State) (h : s.Canonical) : (cacheLoad c x n s).1.Canonical :=
  cacheLoad_memWf h ..

@[simp] theorem cacheStore_canonical (c : Cl) (x : Nat) (bs : List Byte) (s : State) (h : s.Canonical) :
    (cacheStore c x bs s).Canonical := cacheStore_memWf h ..

@[simp] theorem engineWrite_canonical (c : Cl) (x : Nat) (bs : List Byte) (s : State) (h : s.Canonical) :
    (engineWrite c x bs s).Canonical := engineWrite_memWf h ..

/-! ### Machine/Translate -/

@[simp] theorem State.underKey_canonical (s : State) (a k : Nat) (h : s.Canonical) :
    (State.underKey s a k).Canonical := underKey_memWf h ..

@[simp] theorem State.entryView_canonical (s : State) (e : TlbEntry) (va : Nat) (h : s.Canonical) :
    (State.entryView s e va).Canonical := entryView_memWf h ..

theorem translateCore_canonical (s : State) (c : Cl) (va : Nat) (rd wr : Bool) (h : s.Canonical) :
    (translateCore s c va rd wr).1.Canonical := by
  unfold translateCore; split <;> simp [h]

theorem translateIsland_canonical (s : State) (x : Fin 64) (va : Nat) (rd wr : Bool) (req : Option (BitVec 9))
    (h : s.Canonical) :
    (translateIsland s x va rd wr req).1.Canonical := by
  unfold translateIsland; split <;> simp [h]

/-! ### Machine/Peer -/

@[simp] theorem setWordAt_canonical (s : State) (a : Nat) (v : W) (h : s.Canonical) : (setWordAt s a v).Canonical :=
  setWordAt_memWf h ..

theorem amoHome_canonical (s : State) (a : Nat) (op : AmoOp) (y z : W) (h : s.Canonical) :
    (amoHome s a op y z).1.Canonical := by
  unfold amoHome; dsimp only; (repeat' split) <;> simp [h]

@[simp] theorem countRefusal_mem (x : Fin 64) (s : State) : (countRefusal x s).mem = s.mem := (rfl)
@[simp] theorem State.setSlot_mem (s : State) (i : Nat) (v : Slot) : (State.setSlot s i v).mem = s.mem := (rfl)
@[simp] theorem testHead_mem (i : Nat) (s : State) : (testHead i s).mem = s.mem := by simp [testHead]

@[simp] theorem testHeads_mem (n : Nat) (s : State) : (testHeads n s).mem = s.mem :=
  foldl_mem (fun z i => by split <;> simp) _ s

@[simp] theorem addCounter_mem (n : Nat) (v : W) (s : State) : (addCounter n v s).mem = s.mem := by simp [addCounter]

@[simp] theorem State.islandEnter_mem (s : State) (e : FaultEntry) : (State.islandEnter s e).mem = s.mem := by
  simp [State.islandEnter]

@[simp] theorem islandFault_mem (s : State) (who : FaultAgent) (x : Fin 64) (code : BitVec 8) (write : Bool) (va : W) :
    (islandFault s who x code write va).mem = s.mem := by simp [islandFault]

@[simp] theorem dropIslandFault_mem (s : State) (who : FaultAgent) (va : W) :
    (dropIslandFault s who va).mem = s.mem := (rfl)

theorem homeOp_canonical (s : State) (a : Nat) (op : PeerOp) (h : s.Canonical) : (homeOp s a op).1.Canonical := by
  unfold homeOp; split
  · exact h
  · exact writeHome_canonical _ _ _ h
  · exact amoHome_canonical _ _ _ _ _ h
  · exact writeHome_canonical _ _ _ h
  · exact writeHome_canonical _ _ _ h

theorem endpointAccess_canonical (s : State) (src : BitVec 12) (x : Fin 64) (va : W) (op : PeerOp) (h : s.Canonical) :
    (endpointAccess s src x va op).1.Canonical := by
  have h1 := translateIsland_canonical s x va.toNat op.reads op.writes none h
  unfold endpointAccess; split
  · split
    · rename_i s1 a e
      rw [e] at h1
      split
      · exact h
      split
      · exact h1
      · exact homeOp_canonical s1 a op h1
    · simp_all
  · exact h

theorem ownAccess_canonical (s : State) (who : FaultAgent) (x : Fin 64) (va : W) (op : PeerOp) (h : s.Canonical) :
    (ownAccess s who x va op).1.Canonical := by
  have h1 := endpointAccess_canonical s s.endpoint x va op h
  unfold ownAccess; split
  · simp_all
  · split <;> simp_all

theorem counterWindow_mem (s : State) (x : Fin 64) (first : W) (o : Nat) (op : PeerOp) :
    (counterWindow s x first o op).1.mem = s.mem := by
  unfold counterWindow; (repeat' split) <;> simp

theorem countAns_mem (x : Fin 64) (r : State × PeerAns) : (countAns x r).1.mem = r.1.mem := by
  unfold countAns; split <;> simp

@[simp] theorem sendPeer_mem (s : State) (x : Fin 64) (cls : Nat) (ep : BitVec 12) (win : BitVec 4) (o : Nat)
    (op : PeerOp) :
    (sendPeer s x cls ep win o op).mem = s.mem := (rfl)

theorem peerAccess_canonical (s : State) (who : FaultAgent) (x : Fin 64) (cls : Nat) (ep : BitVec 12) (win : BitVec 4)
    (o : Nat) (op : PeerOp) (h : s.Canonical) :
    (peerAccess s who x cls ep win o op).1.Canonical := by
  unfold peerAccess; (repeat' split) <;> simp [h, countAns_mem, counterWindow_mem, ownAccess_canonical]

/-! ### Machine/Access -/

theorem Pend.translated_canonical (s : State) (c : Cl) (p : Pend) (h : s.Canonical) :
    (p.translated s c).1.Canonical := by
  unfold Pend.translated; split
  · rename_i va _ _
    have h1 := translateCore_canonical s c va.toNat true p.kind.writes h
    split <;> simp_all
  · exact h

theorem foldl_bind_canonical {α : Type} {f : State → α → Option State}
    (hf : ∀ s a t, s.Canonical → f s a = some t → t.Canonical) :
    ∀ (l : List α) (o : Option State), (∀ s ∈ o, s.Canonical) → ∀ t ∈ l.foldl (fun o a => o.bind (f · a)) o, t.Canonical
  | [], _, ho => ho
  | a :: l, o, ho => foldl_bind_canonical hf l _ fun t ht => by
    obtain ⟨s, hs, ht⟩ := Option.bind_eq_some_iff.mp ht
    exact hf s a t (ho s hs) ht

theorem translateOlder_canonical {c : Cl} {k : Sn} {ps : List Pend} {s t : State} (h : s.Canonical)
    (e : translateOlder c k ps s = some t) : t.Canonical := by
  unfold translateOlder at e
  refine foldl_bind_canonical (fun z p u hz hu => ?_) ps (some s) (by simpa using h) t e
  have h1 := Pend.translated_canonical z c p hz
  split at hu
  · cases hu; simp_all
  · cases hu

@[simp] theorem releaseAt_canonical (c : Cl) (e : ScopeSet) (s : State) (h : s.Canonical) :
    (releaseAt c e s).Canonical := by
  unfold releaseAt; split <;> simp [h]

@[simp] theorem acquireAt_canonical (c : Cl) (e : ScopeSet) (s : State) (h : s.Canonical) :
    (acquireAt c e s).Canonical := by
  unfold acquireAt; split <;> simp [h]

@[simp] theorem leaveCache_canonical (c : Cl) (a : Nat) (s : State) (h : s.Canonical) :
    (leaveCache c a s).Canonical := by
  simp [leaveCache, h]

theorem reachKeyed_canonical (s : State) (c : Cl) (r : Nat × BitVec 9) (h : s.Canonical) :
    (reachKeyed s c r).1.Canonical := by
  simp [reachKeyed, h]

theorem resolve_canonical (s : State) (c : Cl) (t : Tgt) (rd wr : Bool) (h : s.Canonical) :
    (resolve s c t rd wr).1.Canonical := by
  unfold resolve; split
  · rename_i va
    have h1 := translateCore_canonical s c va.toNat rd wr h
    split <;> simp_all
  · exact reachKeyed_canonical s c _ h
  · exact reachKeyed_canonical s c _ h
  · exact h

@[simp] theorem keepAcc_mem (a n : Nat) (s : State) : (keepAcc a n s).mem = s.mem := by simp [keepAcc]

@[simp] theorem storeAt_canonical (s : State) (c : Cl) (t : Tgt) (bs : List Byte) (atMemory : Bool) (h : s.Canonical) :
    (storeAt s c t bs atMemory).Canonical := by
  unfold storeAt; (repeat' split) <;> simp [h]

theorem storePeer_canonical (who : FaultAgent) (x : Fin 64) (cls : Nat) (ep : BitVec 12) (w : BitVec 4) :
    ∀ (n o : Nat) (bs : List Byte) (s : State), s.Canonical → (storePeer who x cls ep w n o bs s).1.Canonical
  | 0, _, _, _, h => h
  | n + 1, o, bs, s, h => by
    have h1 := peerAccess_canonical s who x cls ep w o (.write (bs.take 8)) h
    unfold storePeer; split
    · simp_all
    · split
      · simp_all
      · exact storePeer_canonical who x cls ep w n (o + 8) (bs.drop 8) _ (by simp_all)

theorem loadPeer_canonical (who : FaultAgent) (x : Fin 64) (cls : Nat) (ep : BitVec 12) (w : BitVec 4) :
    ∀ (n o left : Nat) (got : List Byte) (s : State), s.Canonical → (loadPeer who x cls ep w n o left got s).1.Canonical
  | 0, _, _, _, _, h => h
  | n + 1, o, left, got, s, h => by
    have h1 := peerAccess_canonical s who x cls ep w o (.read (min left 8)) h
    unfold loadPeer; split
    · split
      · simp_all
      · exact loadPeer_canonical who x cls ep w n (o + 8) (left - 8) _ _ (by simp_all)
    · exact h1

theorem loadAt_canonical (s : State) (c : Cl) (k : Sn) (cls : Nat) (t : Tgt) (n : Nat) (atMemory : Bool)
    (h : s.Canonical) :
    (loadAt s c k cls t n atMemory).1.Canonical := by
  unfold loadAt; split
  · split
    · exact cacheLoad_canonical _ _ _ _ h
    · simp [h]
  · rename_i ep w o
    have h1 := loadPeer_canonical (.access c k) (s.ctxOf c) cls ep w 32 o.toNat n [] s h
    split <;> simp_all
  · exact h

theorem installSlot_mem (s : State) (x : Fin 64) (dw : List W) (b : W) : (installSlot s x dw b).1.mem = s.mem := by
  unfold installSlot; dsimp only; (repeat' split) <;> simp

@[simp] theorem cancelSlot_mem (i : Nat) (s : State) : (cancelSlot i s).mem = s.mem := by
  unfold cancelSlot; dsimp only; (repeat' split) <;> simp

theorem islandWord_mem (s : State) (x : Fin 64) (op : Nat) (a b : W) : (islandWord s x op a b).1.mem = s.mem := by
  unfold islandWord; (repeat' split) <;> simp

@[simp] theorem movePoison_mem (s : State) (c : Cl) (loc : Nat) (addr : W) :
    (movePoison s c loc addr).mem = s.mem := by
  unfold movePoison; split <;> rfl

@[simp] theorem countByte_mem (c : Cl) (x : W) (s : State) : (countByte c x s).mem = s.mem := by
  unfold countByte; split <;> simp

/-- The state an answer of a byte's read or write leaves. -/
def ByteRead.state : ByteRead → State
  | .byte s _ | .fault s _ _ | .refused s | .poison s _ | .hold s => s

@[simp] theorem ByteRead.state_byte (s : State) (b : Byte) : (ByteRead.byte s b).state = s := rfl

@[simp] theorem ByteRead.state_fault (s : State) (code : BitVec 8) (w : Bool) :
    (ByteRead.fault s code w).state = s := rfl

@[simp] theorem ByteRead.state_refused (s : State) : (ByteRead.refused s).state = s := rfl
@[simp] theorem ByteRead.state_poison (s : State) (l : Nat) : (ByteRead.poison s l).state = s := rfl
@[simp] theorem ByteRead.state_hold (s : State) : (ByteRead.hold s).state = s := rfl

@[simp] theorem ByteRead.ofPeer_state (b : Byte) (r : State × PeerAns) : (ByteRead.ofPeer b r).state = r.1 := by
  unfold ByteRead.ofPeer; split <;> rfl

theorem copyByteIn_canonical (s : State) (c : Cl) (k : Sn) (x : W) (h : s.Canonical) :
    (copyByteIn s c k x).state.Canonical := by
  unfold copyByteIn; split
  · simpa using h
  · split
    · rename_i va _ _
      have h1 := translateIsland_canonical s (s.ctxOf c) va.toNat true false (s.requestKey c) h
      split
      · rename_i s1 a e
        rw [e] at h1
        cases s1.poisonedIn a 1 <;> exact h1
      · simp_all
    · rename_i a _ _ _
      cases s.poisonedIn a 1 <;> exact h
    · rw [ByteRead.ofPeer_state]; exact peerAccess_canonical _ _ _ _ _ _ _ _ h

theorem copyByteOut_canonical (s : State) (c : Cl) (k : Sn) (x : W) (b : Byte) (run : Nat) (h : s.Canonical) :
    (copyByteOut s c k x b run).state.Canonical := by
  unfold copyByteOut; split
  · simpa using h
  · split
    · rename_i va _ _
      have h1 := translateIsland_canonical s (s.ctxOf c) va.toNat false true (s.requestKey c) h
      split <;> simp_all
    · simp [h]
    · rw [ByteRead.ofPeer_state]; exact peerAccess_canonical _ _ _ _ _ _ _ _ h

theorem moveBytes_canonical (c : Cl) (k : Sn) : ∀ (n : Nat) (src dst : W) (run : Nat) (s : State), s.Canonical →
    (moveBytes c k src dst run n s).1.Canonical
  | 0, _, _, _, _, h => h
  | n + 1, src, dst, run, s, h => by
    have h1 := copyByteIn_canonical s c k src h
    unfold moveBytes
    split
    case h_5 s1 b e1 =>
      rw [e1] at h1
      have h2 := copyByteOut_canonical { s1 with fresh := s1.fresh + 1 } c k dst b run h1
      split
      case h_5 => exact moveBytes_canonical c k n _ _ _ _ (by simp_all)
      all_goals simp_all
    all_goals simp_all

@[simp] theorem haltFlq_mem (s : State) (c : Cl) (k : Sn) (slot : BitVec 3) (code : BitVec 8) (addr : W)
    (write : Bool) (pc : W) :
    (haltFlq s c k slot code addr write pc).mem = s.mem := (rfl)

/-- The state that an access leaves, performed or not. -/
def Performed.state : Performed → State
  | .done s | .fault s _ _ _ | .wait s => s

@[simp] theorem Performed.state_done (s : State) : (Performed.done s).state = s := rfl

@[simp] theorem Performed.state_fault (s : State) (code : BitVec 8) (a : W) (w : Bool) :
    (Performed.fault s code a w).state = s := rfl

@[simp] theorem Performed.state_wait (s : State) : (Performed.wait s).state = s := rfl

theorem performPend_canonical (s0 : State) (c : Cl) (k : Sn) (p : Pend) (h : s0.Canonical) :
    (performPend s0 c k p).state.Canonical := by
  have hrel : (match p.rel with | some e => releaseAt c e s0 | none => s0).Canonical := by split <;> simp [h]
  unfold performPend
  extract_lets x s0' s atMem at_
  have hs : s.Canonical := hrel
  clear_value s s0'
  split
  case h_1 bs _ =>
    split
    · rename_i ep w o _
      have h1 := storePeer_canonical (.access c k) x p.cls ep w 32 o.toNat bs s hs
      split <;> simp_all
    · have h1 := resolve_canonical s c p.tgt false true hs
      split <;> simp_all
  case h_2 n _ _ =>
    have h1 := resolve_canonical s c p.tgt true false hs
    split
    · simp_all
    · rename_i s1 t e
      rw [e] at h1
      split
      · simp_all
      · extract_lets r s2
        have hr : r.1.Canonical := loadAt_canonical s1 c k p.cls t n atMem h1
        have h2 : s2.Canonical := by unfold s2; split <;> simp [hr]
        split
        · exact hr
        · simpa using h2
  case h_3 op y z _ =>
    have h1 := resolve_canonical s c p.tgt true true hs
    split
    · simp_all
    · rename_i s1 a sp _ e
      rw [e] at h1
      split
      · simp_all
      · simpa using amoHome_canonical (keepAcc a 8 (leaveCache c a s1)) a op y z (by simp [h1])
    · rename_i s1 ep w o e
      rw [e] at h1
      have h2 := peerAccess_canonical s1 (.access c k) x p.cls ep w o.toNat (.amo op y z) h1
      dsimp only
      split
      · exact h2
      · simpa using h2
    · simp_all
  case h_4 => split <;> simp_all
  case h_5 => split <;> simp_all
  case h_6 =>
    have h1 := resolve_canonical s c p.tgt true false hs
    split
    · simp_all
    · rename_i s1 t e
      rw [e] at h1
      split
      · simp_all
      · extract_lets r
        have hr : r.1.Canonical := loadAt_canonical s1 c k p.cls t 64 false h1
        split
        · exact hr
        · simpa [installSlot_mem] using hr
        · simpa using hr
  case h_7 => simpa [islandWord_mem] using hs
  case h_8 =>
    split
    · split
      · simpa using peerAccess_canonical s _ _ _ _ _ _ _ hs
      · simpa using hs
    · simpa using hs
  case h_9 => simpa using hs
  case h_10 => split <;> [split; skip] <;> simp_all
  case h_11 src dst n _ _ =>
    extract_lets s1 s2
    have h1 : s1.Canonical := foldl_canonical (fun z l hz => cleanLine_canonical c l z hz) _ hs
    have h2 : s2.Canonical := foldl_canonical (fun z l hz => dropLine_canonical c l z hz) _ h1
    have h3 := moveBytes_canonical c k n src dst 0 s2 h2
    split
    · simp_all
    · rename_i s3 a b left f e
      rw [e] at h3
      cases f <;> simpa using h3

@[simp] theorem performAt_canonical (s : State) (c : Cl) (k : Sn) (j : Nat) (h : s.Canonical) :
    (performAt s c k j).Canonical := by
  unfold performAt
  split
  · exact h
  split
  · split
    · exact h
    · rename_i q _ _ _ s0 e
      have h0 : s0.Canonical := by
        split at e
        · exact translateOlder_canonical h e
        · cases e; exact h
      have h1 := performPend_canonical s0 c k q h0
      split
      · simp_all
      · split <;> simp_all
      · simp_all
  · exact h

theorem performMarked_canonical {c : Cl} {k : Sn} : ∀ (ps : List (Pend × Bool)) {s t : State}, s.Canonical →
    performMarked c k ps s = some t → t.Canonical
  | [], _, _, h, e => by cases e; exact h
  | (p, false) :: r, s, t, h, e => by
    unfold performMarked at e
    split at e
    · obtain ⟨z, hz, e⟩ := Option.bind_eq_some_iff.mp e
      exact performMarked_canonical r (translateOlder_canonical h hz) e
    · exact performMarked_canonical r h e
  | (p, true) :: r, s, t, h, e => by
    unfold performMarked at e
    have h1 := performPend_canonical s c k p h
    split at e
    · cases e
    · split at e
      · exact performMarked_canonical r (by simp_all) e
      · cases e

theorem performBefore_canonical {s t : State} {first : Pend → Bool} (h : s.Canonical)
    (e : performBefore s first = some t) :
    t.Canonical :=
  performMarked_canonical _ h e

/-! ### Machine/Fetch -/

@[simp] theorem trapFetch_mem (s : State) (pc : W) : (trapFetch s pc).mem = s.mem := by simp [trapFetch]

end Sys2Proof.Machine
end

section
/-! PROOF. Canonical memory: control flow, traps, synchronisation, handles and the engines' front end. -/

namespace Sys2Proof.Machine

/-! ### Machine/Flow -/

@[simp] theorem loopWord_mem (m : Marks) (lv : Bool) (n : W) (e : Nat) (s : State) :
    (loopWord m lv n e s).mem = s.mem := by simp [loopWord]

@[simp] theorem repWord_mem (m : Marks) (n : State → BitVec 32) (s : State) : (repWord m n s).mem = s.mem := by
  unfold repWord; split <;> simp

/-! ### Machine/LoadStore -/

@[simp] theorem nearRead_canonical {s : State} {x : W} {n cls : Nat} {k : State → List Byte → Nat → State}
    (h : s.Canonical) (hk : ∀ t bs d, t.Canonical → (k t bs d).Canonical) :
    (nearRead s x n cls k).Canonical := by
  unfold nearRead
  split
  · simp [h]
  split
  · simp [h]
  extract_lets t
  split
  · simp [h]
  split
  · simp [h]
  · rename_i s1 e
    have h1 : (loadAt s1 s.cur.c s.cur.k cls t n false).1.Canonical := loadAt_canonical _ _ _ _ _ _ _ (performBefore_canonical h e)
    dsimp only
    split
    · exact hk _ _ _ h1
    · exact h1

@[simp] theorem load_keepsForm (n : Nat) (signed : Bool) (m : Marks) (d a : Sreg) (cls : BitVec 4) (off : BitVec 6)
    (s : State) (h : s.Canonical) :
    KeepsForm (load n signed m d a cls off s) :=
  issueWord_keepsForm _ h (nearRead_canonical h fun t bs b ht => by simp [ht])

@[simp] theorem post_mem (p : Pend) (s : State) : (post p s).mem = s.mem := (rfl)

@[simp] theorem storeTarget_canonical {s : State} {x : W} {n : Nat} {k : State → Tgt → State} (h : s.Canonical)
    (hk : ∀ t u, t.Canonical → (k t u).Canonical) : (storeTarget s x n k).Canonical := by
  unfold storeTarget
  split
  · simp [h]
  · rename_i sp o _
    have h1 := resolve_canonical s s.cur.c (tgtOf s s.cur.c sp o) false true h
    split
    · rename_i e; rw [e] at h1; exact hk _ _ h1
    · simp [h]

@[simp] theorem postStore_canonical (s : State) (x : W) (bs : List Byte) (cls : Nat) (rel : Option ScopeSet)
    (m : Marks) (h : s.Canonical) :
    (postStore s x bs cls rel m).Canonical :=
  storeTarget_canonical h fun t u ht => by simp [h, ht]

@[simp] theorem store_keepsForm (n : Nat) (m : Marks) (d a : Sreg) (cls : BitVec 4) (off : BitVec 6) (s : State)
    (h : s.Canonical) :
    KeepsForm (store n m d a cls off s) := by
  simp [store, h]

@[simp] theorem claim_mem (d : Sreg) (s : State) : (claim d s).mem = s.mem := (rfl)

@[simp] theorem queueWord_mem (s : State) (d : Sreg) (p : BitVec 3 → Pend) (m : Marks) :
    (queueWord s d p m).mem = s.mem := by simp [queueWord]

@[simp] theorem farTarget_mem {s : State} {x : W} {n : Nat} {k : Tgt → State} (hk : ∀ u, (k u).mem = s.mem) :
    (farTarget s x n k).mem = s.mem := by
  unfold farTarget; split
  · simp
  · exact hk _

theorem farTarget_canonical {s : State} {x : W} {n : Nat} {k : Tgt → State} (h : s.Canonical)
    (hk : ∀ u, (k u).Canonical) :
    (farTarget s x n k).Canonical := by
  unfold farTarget; split
  · simp [h]
  · exact hk _

@[simp] theorem farLoad_keepsForm (n : Nat) (signed : Bool) (m : Marks) (d a : Sreg) (cls : BitVec 4) (off : BitVec 6)
    (s : State) (h : s.Canonical) :
    KeepsForm (farLoad n signed m d a cls off s) := by
  simp [farLoad, h]

@[simp] theorem execPop_keepsForm (m : Marks) (s : State) (h : s.Canonical) : KeepsForm (execPop m s) := by
  refine issueWord_keepsForm _ h ?_
  split
  · simp [h]
  · split <;> simp [h]

@[simp] theorem atomic_keepsForm (op : AmoOp) (fields : List Nat) (z : State → W) (m : Marks) (d a b : Sreg)
    (s : State) (h : s.Canonical) :
    KeepsForm (atomic op fields z m d a b s) := by
  simp [atomic, h]

@[simp] theorem amo_keepsForm (op : AmoOp) (m : Marks) (d a b : Sreg) (s : State) (h : s.Canonical) :
    KeepsForm (amo op m d a b s) := by
  simp [amo, h]

@[simp] theorem amoPair_keepsForm (op : AmoOp) (m : Marks) (d a b : Sreg) (s : State) (h : s.Canonical) :
    KeepsForm (amoPair op m d a b s) := by
  simp [amoPair, h]

/-! ### Machine/Sync -/

@[simp] theorem startWait_mem (m : Marks) (obj : WaitObj) (lim : BitVec 4) (s : State) :
    (startWait m obj lim s).mem = s.mem := (rfl)

@[simp] theorem grantWait_canonical (c : Cl) (k : Sn) (e : ScopeSet) (s : State) (h : s.Canonical) :
    (grantWait c k e s).Canonical := by
  simp [grantWait, h]

@[simp] theorem waitDone_canonical (m : Marks) (e : ScopeSet) (s : State) (h : s.Canonical) :
    (waitDone m e s).Canonical := by
  simp [waitDone, h]

@[simp] theorem posting_canonical {s : State} {e : BitVec 5} {k : State → State} (h : s.Canonical)
    (hk : ∀ t, t.Canonical → (k t).Canonical) :
    (posting s e k).Canonical := by
  unfold posting; split
  · simp [h]
  · rename_i s1 e1
    exact hk _ (releaseAt_canonical _ _ _ (performBefore_canonical h e1))

@[simp] theorem onTile_canonical {kind : Nat} {t : BitVec 3} {num : Nat} {s : State} {k : Tl → State}
    (h : s.Canonical) (hk : ∀ u, (k u).Canonical) :
    (onTile kind t num s k).Canonical := by
  unfold onTile; dsimp only; split
  · exact hk _
  · simp [h]

@[simp] theorem execSemWait_keepsForm (m : Marks) (t : BitVec 3) (k : BitVec 5) (cnt : BitVec 9) (lim : BitVec 4)
    (s : State) (h : s.Canonical) :
    KeepsForm (execSemWait m t k cnt lim s) :=
  issueWord_keepsForm _ h (onTile_canonical h fun tl => by simp [h])

@[simp] theorem execSemPost_keepsForm (m : Marks) (t : BitVec 3) (k : BitVec 5) (cnt : BitVec 9) (s : State)
    (h : s.Canonical) :
    KeepsForm (execSemPost m t k cnt s) :=
  issueWord_keepsForm _ h (onTile_canonical h fun tl => by
    dsimp only; split
    · simp [h]
    · exact posting_canonical h fun t ht => by simp [ht])

@[simp] theorem onRing_canonical {t : BitVec 3} {g : BitVec 5} {s : State} {k : Tl → Ring → State} (h : s.Canonical)
    (hk : ∀ u r, (k u r).Canonical) : (onRing t g s k).Canonical :=
  onTile_canonical h fun tl => by dsimp only; split <;> simp [h, hk]

@[simp] theorem execRingWait_keepsForm (m : Marks) (t : BitVec 3) (g : BitVec 5) (cnt : BitVec 9) (lim : BitVec 4)
    (s : State) (h : s.Canonical) :
    KeepsForm (execRingWait m t g cnt lim s) :=
  issueWord_keepsForm _ h (onRing_canonical h fun tl r => by simp [h])

@[simp] theorem execRingRel_keepsForm (m : Marks) (t : BitVec 3) (g : BitVec 5) (cnt : BitVec 9) (s : State)
    (h : s.Canonical) :
    KeepsForm (execRingRel m t g cnt s) :=
  issueWord_keepsForm _ h (onRing_canonical h fun tl r => by
    split
    · simp [h]
    · exact posting_canonical h fun t ht => by simp [ht])

@[simp] theorem arriveBar_mem (g : Gang) (b : BitVec 4) (s : State) : (arriveBar g b s).mem = s.mem := (rfl)

@[simp] theorem onGang_canonical {m : Marks} {s : State} {k : Gang → State} (h : s.Canonical)
    (hk : ∀ g, (k g).Canonical) :
    (onGang m s k).Canonical := by
  unfold onGang; split
  · exact hk _
  · simp [h]

@[simp] theorem execBarArrive_keepsForm (m : Marks) (b : BitVec 4) (s : State) (h : s.Canonical) :
    KeepsForm (execBarArrive m b s) :=
  issueWord_keepsForm _ h (onGang_canonical h fun g => by
    split
    · simp [h]
    · exact posting_canonical h fun t ht => by simp [ht])

@[simp] theorem barWait_canonical (m : Marks) (b : BitVec 4) (lim : BitVec 4) (s : State) (h : s.Canonical) :
    (barWait m b lim s).Canonical := by
  unfold barWait; (repeat' split) <;> simp [h]

@[simp] theorem execBarSync_keepsForm (m : Marks) (b : BitVec 4) (lim : BitVec 4) (s : State) (h : s.Canonical) :
    KeepsForm (execBarSync m b lim s) :=
  issueWord_keepsForm _ h (onGang_canonical h fun g => posting_canonical h fun t ht => by simp [ht])

theorem waitvRead_canonical (s0 : State) (c : Cl) (k : Sn) (t0 : Tgt) (dw counted : Bool) (h : s0.Canonical) :
    (waitvRead s0 c k t0 dw counted).1.Canonical := by
  have h1 := resolve_canonical s0 c t0 true false h
  unfold waitvRead
  dsimp only
  split
  · exact h
  rename_i s t e
  rw [e] at h1
  split
  · exact h1
  split
  · exact h1
  · rename_i s1 e1
    have h2 : s1.Canonical := performMarked_canonical _ h1 e1
    have h3 := loadAt_canonical { s1 with fresh := s1.fresh + 1 } c k 0 t (waitvBytes dw) true h2
    split
    · exact h3
    · split <;> exact h3
    · exact h3
    · exact h3

@[simp] theorem waitvWord_keepsForm (cond : Nat) (m : Marks) (dw : Bool) (a b : Sreg) (lim : BitVec 4) (s : State)
    (h : s.Canonical) :
    KeepsForm (waitvWord cond m dw a b lim s) := by
  refine issueWord_keepsForm _ h ?_
  dsimp only
  split
  · simp [h]
  · have h1 := fun t => waitvRead_canonical s s.cur.c s.cur.k t dw false h
    split
    · split <;> simp_all
    all_goals simp_all

/-! ### Machine/Handles -/

@[simp] theorem wrHandle_mem (h : BitVec 5) (v : Handle) (mask : BitVec 11) (bound : Nat) (s : State) :
    (wrHandle h v mask bound s).mem = s.mem := (rfl)

@[simp] theorem execHLd_keepsForm (m : Marks) (h : BitVec 5) (x : Sreg) (cls : BitVec 4) (s : State)
    (hm : s.Canonical) :
    KeepsForm (execHLd m h x cls s) :=
  issueWord_keepsForm _ hm (nearRead_canonical hm fun t bs b ht => by simp [ht])

/-! ### Machine/EngineWords -/

@[simp] theorem amendAll_mem (as : List Amend) (s : State) : (amendAll as s).mem = s.mem :=
  foldl_mem (fun _ _ => State.modTile_mem ..) _ s

@[simp] theorem needRoom_canonical (go : Bool) (e : Eng) {s k : State} (h : s.Canonical) (hk : k.Canonical) :
    (needRoom go e s k).Canonical := by
  unfold needRoom; split
  · simp [h]
  · exact hk

@[simp] theorem patchWord_keepsForm (e : Eng) (t : BitVec 6) (go : Bool) (f : BitVec 5) (v : BitVec 16) (s : State)
    (h : s.Canonical) :
    KeepsForm (patchWord e t go f v s) := by
  simp [patchWord, h]

@[simp] theorem execEbind_keepsForm (m : Marks) (e : BitVec 2) (t : BitVec 6) (h : BitVec 5) (slot : BitVec 2)
    (s : State) (hm : s.Canonical) :
    KeepsForm (execEbind m e t h slot s) := by
  refine issueWord_keepsForm _ hm ?_
  dsimp only
  split <;> simp [hm]

@[simp] theorem execEfence_keepsForm (m : Marks) (e : BitVec 2) (all : Bool) (lim : BitVec 4) (s : State)
    (h : s.Canonical) :
    KeepsForm (execEfence m e all lim s) :=
  issueWord_keepsForm _ h (by simp [h])

@[simp] theorem execRingDecl_keepsForm (m : Marks) (t : BitVec 3) (g : BitVec 5) (h : BitVec 5) (ns : BitVec 8)
    (s : State) (hm : s.Canonical) :
    KeepsForm (execRingDecl m t g h ns s) := by
  refine issueWord_keepsForm _ hm (onTile_canonical hm fun tl => ?_)
  dsimp only
  split
  · simp [hm]
  · split <;> simp [hm]

theorem readLines_canonical (c : Cl) (k : Sn) (t : Tgt) : ∀ (l : List Nat) (bs : List Byte) (s : State), s.Canonical →
    (readLines c k t l bs s).1.Canonical
  | [], _, _, h => h
  | i :: r, bs, s, h => by
    have h1 := loadAt_canonical { s with fresh := s.fresh + 1 } c k 0 (t.step i) 64 false h
    unfold readLines
    split
    · rename_i e; rw [e] at h1
      exact readLines_canonical c k t r _ _ h1
    all_goals simp_all

@[simp] theorem loadTemplates_mem (e : Eng) (t : BitVec 6) (f : Block) (s : State) :
    (loadTemplates e t f s).mem = s.mem := by
  unfold loadTemplates
  rw [hold_mem, State.modMe_mem, foldl_mem (fun _ _ => State.modTile_mem ..)]

@[simp] theorem execTmplLd_keepsForm (m : Marks) (e : BitVec 2) (t : BitVec 6) (a : Sreg) (s : State)
    (h : s.Canonical) :
    KeepsForm (execTmplLd m e t a s) := by
  refine issueWord_keepsForm _ h ?_
  dsimp only
  split
  · split <;> simp [h]
  split
  · simp [h]
  split
  · simp [h]
  rename_i sp o _
  have h1 := resolve_canonical s s.cur.c (tgtOf s s.cur.c sp o) true false h
  split
  · simp [h]
  rename_i s1 tg e1
  rw [e1] at h1
  split
  · simp_all
  split
  · simp [h]
  rename_i s2 e2
  have h2 := readLines_canonical s2.cur.c s2.cur.k tg lineSteps [] s2 (performBefore_canonical h1 e2)
  split <;> simp_all

@[simp] theorem execTmplSt_keepsForm (m : Marks) (e : BitVec 2) (t : BitVec 6) (a : Sreg) (s : State)
    (h : s.Canonical) :
    KeepsForm (execTmplSt m e t a s) := by
  refine issueWord_keepsForm _ h ?_
  split
  · simp [h]
  · refine storeTarget_canonical h fun t u ht => ?_
    dsimp only
    split
    · simp [h]
    · rw [State.Canonical, retire_mem, foldl_mem]
      · exact ht
      · intros; simp

/-! ### Machine/Fp -/

@[simp] theorem fwr_mem (m : Marks) (d : Sreg) (r : W × FlagSet) (bound : Nat) (s : State) :
    (fwr m d r bound s).mem = s.mem := (rfl)

@[simp] theorem fp2_keepsForm (f : Nat → XVal → XVal → W × FlagSet) (bound : Nat) (m : Marks) (d a b : Sreg)
    (s : State) (h : s.Canonical) :
    KeepsForm (fp2 f bound m d a b s) := by
  simp [fp2, h]

@[simp] theorem fpBits2_keepsForm (f : Nat → Nat → W) (m : Marks) (d a b : Sreg) (s : State) (h : s.Canonical) :
    KeepsForm (fpBits2 f m d a b s) := by
  simp [fpBits2, h]

@[simp] theorem fpBits1_keepsForm (f : Nat → W) (m : Marks) (d a : Sreg) (s : State) (h : s.Canonical) :
    KeepsForm (fpBits1 f m d a s) := by
  simp [fpBits1, h]

@[simp] theorem fcmp_keepsForm (c : XVal → XVal → Bool) (m : Marks) (p : Preg) (a b : Sreg) (s : State)
    (h : s.Canonical) :
    KeepsForm (fcmp c m p a b s) := by
  simp [fcmp, h]

@[simp] theorem cvtWord_keepsForm (f : W → W × FlagSet) (m : Marks) (d a : Sreg) (s : State) (h : s.Canonical) :
    KeepsForm (cvtWord f m d a s) := by
  simp [cvtWord, h]

/-! ### Machine/Pred -/

@[simp] theorem cmpWord_keepsForm (cond : Nat) (m : Marks) (p : Preg) (a : Sreg) (fields : List Nat) (y : State → W)
    (s : State) (h : s.Canonical) :
    KeepsForm (cmpWord cond m p a fields y s) := by
  simp [cmpWord, h]

@[simp] theorem cmp_keepsForm (cond : Nat) (m : Marks) (p : Preg) (a b : Sreg) (s : State) (h : s.Canonical) :
    KeepsForm (cmp cond m p a b s) := by
  simp [cmp, h]

@[simp] theorem cmpi_keepsForm (cond : Nat) (m : Marks) (p : Preg) (a : Sreg) (i : BitVec 10) (s : State)
    (h : s.Canonical) :
    KeepsForm (cmpi cond m p a i s) := by
  simp [cmpi, h]

@[simp] theorem predOp_keepsForm (f : Bool → Bool → Bool) (m : Marks) (d a b : Preg) (s : State) (h : s.Canonical) :
    KeepsForm (predOp f m d a b s) := by
  simp [predOp, h]

/-! ### Machine/Remote -/

theorem xlateStatus_mem (s : State) (c : Cl) (va : W) (wr : Bool) : (xlateStatus s c va wr).1.mem = s.mem := by
  unfold xlateStatus; dsimp only; (repeat' split) <;> rfl

theorem xlateResult_mem (s : State) (c : Cl) (va : W) (wr : Bool) : (xlateResult s c va wr).1.mem = s.mem := by
  unfold xlateResult; dsimp only; (repeat' split) <;> simp [xlateStatus_mem]

@[simp] theorem deliverXlate_mem (c : Cl) (k : Sn) (j : Nat) (s : State) : (deliverXlate c k j s).mem = s.mem := by
  unfold deliverXlate; split <;> simp [xlateResult_mem]

@[simp] theorem islandQueueWord_mem (op : Nat) (d : Sreg) (x y : W) (m : Marks) (s : State) :
    (islandQueueWord op d x y m s).mem = s.mem := by simp [islandQueueWord]

@[simp] theorem execRemSt_keepsForm (m : Marks) (d a b : Sreg) (s : State) (h : s.Canonical) :
    KeepsForm (execRemSt m d a b s) :=
  issueWord_keepsForm _ h (by simp [h])

@[simp] theorem execRemSig_keepsForm (m : Marks) (a b : Sreg) (s : State) (h : s.Canonical) :
    KeepsForm (execRemSig m a b s) :=
  issueWord_keepsForm _ h (farTarget_canonical h fun _ => h)

@[simp] theorem remAmo_keepsForm (op : AmoOp) (m : Marks) (d a b : Sreg) (s : State) (h : s.Canonical) :
    KeepsForm (remAmo op m d a b s) := by
  unfold remAmo; split <;> simp [h]

/-! ### Machine/System -/

@[simp] theorem mailboxRead_canonical (xr : BitVec 8) (s : State) (h : s.Canonical) :
    (mailboxRead xr s).Canonical := by
  unfold mailboxRead; (repeat' split) <;> simp [h]

@[simp] theorem execXrd_keepsForm (m : Marks) (d : Sreg) (xr : BitVec 8) (s : State) (h : s.Canonical) :
    KeepsForm (execXrd m d xr s) := by
  refine issueLegal_keepsForm _ _ h ?_
  split <;> simp [h]

@[simp] theorem ctlWrite_keepsForm (op : CtlOp) (m : Marks) (a : Sreg) (xr : BitVec 8) (s : State) (h : s.Canonical) :
    KeepsForm (ctlWrite op m a xr s) := by
  simp [ctlWrite, h]

/-! ### Machine/Task -/

@[simp] theorem rejectSpawn_mem (m : Marks) (l : Launch) (s : State) : (rejectSpawn m l s).mem = s.mem := (rfl)

@[simp] theorem execSpawn_keepsForm (m : Marks) (a b : Sreg) (s : State) (h : s.Canonical) :
    KeepsForm (execSpawn m a b s) := by
  refine issueWord_keepsForm _ h ?_
  dsimp only
  (repeat' split) <;> simp [h]

/-! ### Machine/Repeat -/

@[simp] theorem execUnassignedEncoding_keepsForm (s : State) (h : s.Canonical) :
    KeepsForm (execUnassignedEncoding s) := by
  simp [execUnassignedEncoding, h]

/-! ### Machine/FrontEnd -/

@[simp] theorem State.frontFault_mem (s : State) (d : Die) (e : FaultEntry) :
    (State.frontFault s d e).mem = s.mem := by simp [State.frontFault]

@[simp] theorem State.dropFault_mem (s : State) (d : Die) (e : FaultEntry) :
    (State.dropFault s d e).mem = s.mem := (rfl)

theorem agentTranslate_canonical (s : State) (x : Fin 64) (va : W) (rd wr : Bool) (req : Option (BitVec 9))
    (h : s.Canonical) :
    (agentTranslate s x va rd wr req).1.Canonical := by
  unfold agentTranslate; split
  · exact translateIsland_canonical _ _ _ _ _ _ h
  · exact h

theorem readPieces_canonical (x : Fin 64) (req : Option (BitVec 9)) : ∀ (l : List (W × Nat)) (s : State), s.Canonical →
    (readPieces x req l s).1.Canonical
  | [], _, h => h
  | (a, n) :: r, s, h => by
    have h1 := agentTranslate_canonical s x a true false req h
    unfold readPieces
    split
    · simp_all
    · rename_i s1 pa e
      rw [e] at h1
      have h2 := readPieces_canonical x req r s1 h1
      split <;> simp_all

theorem readVirt_canonical (s : State) (x : Fin 64) (req : Option (BitVec 9)) (a : W) (n : Nat) (h : s.Canonical) :
    (readVirt s x req a n).1.Canonical := readPieces_canonical x req _ s h

theorem writePieces_canonical (x : Fin 64) : ∀ (l : List (W × Nat)) (bs : List Byte) (s : State), s.Canonical →
    (writePieces x l bs s).1.Canonical
  | [], _, _, h => h
  | (a, n) :: r, bs, s, h => by
    have h1 := agentTranslate_canonical s x a false true none h
    unfold writePieces
    split
    · simp_all
    · exact writePieces_canonical x r _ _ (by simp_all)

theorem writeVirt_canonical (s : State) (x : Fin 64) (a : W) (bs : List Byte) (h : s.Canonical) :
    (writeVirt s x a bs).1.Canonical :=
  writePieces_canonical x _ bs s h

@[simp] theorem State.setQueue_mem (s : State) (i : Nat) (q : SubQueue) : (State.setQueue s i q).mem = s.mem := (rfl)

@[simp] theorem State.modQueue_mem (s : State) (i : Nat) (g : SubQueue → SubQueue) :
    (State.modQueue s i g).mem = s.mem := (rfl)

@[simp] theorem notify_mem (q : SubQueue) (s : State) : (notify q s).mem = s.mem := by simp [notify]

@[simp] theorem writeMirror_canonical (i : Nat) (s : State) (h : s.Canonical) : (writeMirror i s).Canonical := by
  unfold writeMirror
  extract_lets q
  have h1 := writeVirt_canonical s q.d.ctx q.d.rmir (bytesOf 8 q.d.ridx.toNat) h
  split
  · exact h
  · split <;> simp_all

@[simp] theorem execQueueTableWrite_keepsForm (i : Fin 1024) (w : FromLeader QueueDesc) (s : State) (h : s.Canonical) :
    KeepsForm (execQueueTableWrite i w s) := by
  unfold execQueueTableWrite; dsimp only; (repeat' split) <;> simp [h]

@[simp] theorem queueFault_mem (s : State) (i : Nat) (e : FaultEntry) : (queueFault s i e).mem = s.mem := by
  simp [queueFault]

@[simp] theorem haltQueue_mem (s : State) (i : Nat) (expected found : BitVec 32) :
    (haltQueue s i expected found).mem = s.mem := by simp [haltQueue]

@[simp] theorem completePacket_mem (s : State) (i : Nat) (index : W) : (completePacket s i index).mem = s.mem := (rfl)

@[simp] theorem takePacket_canonical (s : State) (i : Fin 1024) (ws : List W) (h : s.Canonical) :
    (takePacket s i ws).Canonical := by
  simp [takePacket, h]

@[simp] theorem execQueueTake_keepsForm (i : Fin 1024) (s : State) (h : s.Canonical) :
    KeepsForm (execQueueTake i s) := by
  unfold execQueueTake
  extract_lets q x
  have h1 := readVirt_canonical s x none q.d.widx 8 h
  split
  · simp [h]
  split
  · simp_all
  rename_i s1 w e1
  rw [e1] at h1
  have h2 := readVirt_canonical s1 x none (q.d.base + BitVec.ofNat 64 (64 * (q.d.ridx.toNat % q.slots))) 64 h1
  split
  · simp_all
  split
  · simp_all
  · dsimp only
    (repeat' split) <;> simp_all

@[simp] theorem execNoOpPacket_keepsForm (i : Fin 1024) (s : State) (h : s.Canonical) :
    KeepsForm (execNoOpPacket i s) := by
  unfold execNoOpPacket; split <;> simpa using h

@[simp] theorem execLaunchPacket_keepsForm (i : Fin 1024) (s : State) (h : s.Canonical) :
    KeepsForm (execLaunchPacket i s) := by
  unfold execLaunchPacket; split <;> simpa using h

@[simp] theorem execRerank_keepsForm (d : Die) (s : State) (h : s.Canonical) : KeepsForm (execRerank d s) := by
  simpa [execRerank] using h

@[simp] theorem State.putCopy_mem (s : State) (j : CopyJob) : (State.putCopy s j).mem = s.mem := (rfl)
@[simp] theorem State.dropCopy_mem (s : State) (j : CopyJob) : (State.dropCopy s j).mem = s.mem := (rfl)

@[simp] theorem finishCopy_canonical (s : State) (j : CopyJob) (status : Nat) (h : s.Canonical) :
    (finishCopy s j status).Canonical := by
  unfold finishCopy
  extract_lets x v
  have h1 := writeVirt_canonical s x (j.word 4 &&& ~~~7) (bytesOf 8 v.toNat) h
  split <;> simp_all

/-- The state that an answer of an island agent's byte leaves. -/
def AgentByte.state : AgentByte → State
  | .byte s _ | .fault s _ | .refused s _ | .poison s _ _ | .hold s => s

@[simp] theorem AgentByte.state_byte (s : State) (b : Byte) : (AgentByte.byte s b).state = s := rfl
@[simp] theorem AgentByte.state_fault (s : State) (e : FaultEntry) : (AgentByte.fault s e).state = s := rfl
@[simp] theorem AgentByte.state_refused (s : State) (why : Nat) : (AgentByte.refused s why).state = s := rfl
@[simp] theorem AgentByte.state_poison (s : State) (u : Nat) (a : W) : (AgentByte.poison s u a).state = s := rfl
@[simp] theorem AgentByte.state_hold (s : State) : (AgentByte.hold s).state = s := rfl

theorem agentPeer_canonical (s : State) (who : FaultSource) (x : Fin 64) (cls : Nat) (a : W) (op : PeerOp)
    (h : s.Canonical) :
    (agentPeer s who x cls a op).1.Canonical := peerAccess_canonical _ _ _ _ _ _ _ _ h

@[simp] theorem AgentByte.ofPeer_state (a : W) (b : Byte) (r : State × PeerAns) :
    (AgentByte.ofPeer a b r).state = r.1 := by
  unfold AgentByte.ofPeer; split <;> rfl

theorem agentIn_canonical (s : State) (who : FaultSource) (x : Fin 64) (cls : Nat) (a : W) (h : s.Canonical) :
    (agentIn s who x cls a).state.Canonical := by
  have h1 := agentTranslate_canonical s x a true false none h
  unfold agentIn
  split
  · rw [AgentByte.ofPeer_state]; exact agentPeer_canonical _ _ _ _ _ _ h
  · split
    · simp_all
    · split <;> simp_all

theorem agentOut_canonical (s : State) (who : FaultSource) (x : Fin 64) (cls : Nat) (a : W) (b : Byte) (run : Nat)
    (h : s.Canonical) :
    (agentOut s who x cls a b run).state.Canonical := by
  have h1 := agentTranslate_canonical s x a false true none h
  unfold agentOut
  split
  · rw [AgentByte.ofPeer_state]; exact agentPeer_canonical _ _ _ _ _ _ h
  · split <;> simp_all

/-- A turn of a copy leaves memory canonical, in the state it goes on with and in the state its last answer holds. -/
theorem copyBytes_canonical (x : Fin 64) : ∀ (n : Nat) (j : CopyJob) (s : State), s.Canonical →
    (copyBytes x n j s).1.Canonical ∧ ∀ r ∈ (copyBytes x n j s).2.2, r.state.Canonical
  | 0, _, _, h => ⟨h, by simp [copyBytes]⟩
  | n + 1, j, s, h => by
    have h1 := agentIn_canonical s (.copy j.queue.val) x 0 (j.word 1 + BitVec.ofNat 64 j.moved) h
    unfold copyBytes
    split
    · simp [h]
    split
    · rename_i s1 b e1
      rw [e1] at h1
      have h2 := agentOut_canonical s1 (.copy j.queue.val) x 0 (j.word 2 + BitVec.ofNat 64 j.moved) b j.moved h1
      split
      · rename_i s2 _ e2
        rw [e2] at h2
        exact copyBytes_canonical x n _ _ h2
      · exact ⟨h1, fun r hr => by cases hr; exact h2⟩
    · exact ⟨h, fun r hr => by cases hr; exact h1⟩

@[simp] theorem copyTurn_canonical (s : State) (j : CopyJob) (h : s.Canonical) : (copyTurn s j).Canonical := by
  unfold copyTurn
  extract_lets x
  obtain ⟨h1, h2⟩ := copyBytes_canonical x (4096 - j.moved % 4096) j s h
  split
  · simp [h]
  split
  · simp [h]
  split
  · split <;> simp_all
  all_goals simp_all

@[simp] theorem execCopyPacket_keepsForm (i : Fin 1024) (s : State) (h : s.Canonical) :
    KeepsForm (execCopyPacket i s) := by
  unfold execCopyPacket; dsimp only; (repeat' split) <;> simp [h]

end Sys2Proof.Machine
end

section
/-! PROOF. Canonical memory: the engines' runs, element accesses and operators. -/

namespace Sys2Proof.Machine

/-! ### Machine/Engine -/

@[simp] theorem translateStream_canonical (s : State) (v : Site) (va : Nat) (rd wr : Bool) (h : s.Canonical) :
    (translateStream s v va rd wr).1.Canonical := by
  unfold translateStream; dsimp only; split <;> simp [h]

/-- Elements that perform leave memory in canonical form. -/
def KeepsRun {α : Type} (m : EngM α) : Prop := ∀ r a r1, r.s.Canonical → m r = .ok (a, r1) → r1.s.Canonical

/-! The monad's own operations. -/

@[simp] theorem keepsRun_pure {α : Type} (a : α) : KeepsRun (pure a) := fun _ _ _ h e => by cases e; exact h
@[simp] theorem keepsRun_throw {α : Type} (x : Halt) : KeepsRun (throw x : EngM α) := fun _ _ _ _ e => nomatch e
@[simp] theorem keepsRun_get : KeepsRun get := fun _ _ _ h e => by cases e; exact h

@[simp] theorem keepsRun_set (x : Run) : KeepsRun (set x) ↔ x.s.Canonical :=
  ⟨fun h => h { x with s := { x.s with mem := [] } } () x rfl rfl, fun h _ _ _ _ e => by cases e; exact h⟩

@[simp] theorem keepsRun_modify (f : Run → Run) : KeepsRun (modify f) ↔ ∀ r, r.s.Canonical → (f r).s.Canonical :=
  ⟨fun h r hr => h r () (f r) hr rfl, fun hf r _ _ h e => by cases e; exact hf r h⟩

theorem keepsRun_bind {α β : Type} {m : EngM α} {f : α → EngM β} (hm : KeepsRun m) (hf : ∀ a, KeepsRun (f a)) :
    KeepsRun (m >>= f) := fun r b r2 h e => by
  change (m r).bind (fun x => f x.1 x.2) = .ok (b, r2) at e
  cases e1 : m r with
  | error x => rw [e1] at e; cases e
  | ok x => rw [e1] at e; exact hf x.1 x.2 b r2 (hm r x.1 x.2 h e1) e

@[simp] theorem keepsRun_map {α β : Type} {m : EngM α} {g : α → β} (hm : KeepsRun m) : KeepsRun (g <$> m) := by
  rw [← bind_pure_comp]
  exact keepsRun_bind hm fun _ => keepsRun_pure _

/-- The state that `get` answers with is the one that the run stands in. -/
theorem keepsRun_get_bind {α : Type} {f : Run → EngM α} (hf : ∀ r : Run, r.s.Canonical → KeepsRun (f r)) :
    KeepsRun (get >>= f) :=
  fun r a r1 h e => hf r h r a r1 h e

@[simp] theorem keepsRun_ite {α : Type} {c : Prop} [Decidable c] {m n : EngM α} :
    KeepsRun (if c then m else n) ↔ (c → KeepsRun m) ∧ (¬c → KeepsRun n) := by split <;> simp_all

theorem keepsRun_mapM {α β : Type} {f : α → EngM β} (hf : ∀ a, KeepsRun (f a)) : ∀ l : List α, KeepsRun (l.mapM f)
  | [] => by simp
  | a :: l => by
    rw [List.mapM_cons]
    exact keepsRun_bind (hf a) fun _ => keepsRun_bind (keepsRun_mapM hf l) fun _ => keepsRun_pure _

/-! Operand accesses. -/

@[simp] theorem place_keepsRun (v : Site) (o ty a : Nat) (rd wr : Bool) : KeepsRun (place v o ty a rd wr) := by
  refine keepsRun_get_bind fun r h => keepsRun_ite.2 ⟨fun _ => keepsRun_pure _, fun _ => ?_⟩
  extract_lets sp byte jp
  have hjp : KeepsRun (jp ()) := by
    unfold jp
    split
    · rename_i va _ _
      have h1 := translateStream_canonical r.s v va.toNat rd wr h
      split
      · rename_i s1 x e
        rw [e] at h1
        exact keepsRun_bind ((keepsRun_set _).2 h1) fun _ => keepsRun_pure _
      · exact keepsRun_throw _
    · exact keepsRun_pure _
  exact keepsRun_ite.2 ⟨fun _ => keepsRun_bind (keepsRun_throw _) fun _ => hjp, fun _ => hjp⟩

@[simp] theorem replayed_keepsRun (n : Nat) : KeepsRun (replayed n) := by
  refine keepsRun_get_bind fun r h => ?_
  split
  · exact keepsRun_bind ((keepsRun_set _).2 h) fun _ => keepsRun_pure _
  all_goals exact keepsRun_pure _

theorem orReplay_keepsRun {α : Type} (n : Nat) (use : List Byte → α) {k : EngM α} (hk : KeepsRun k) :
    KeepsRun (orReplay n use k) :=
  keepsRun_bind (replayed_keepsRun n) fun x => by cases x <;> simp [hk]

@[simp] theorem peerElement_keepsRun (v : Site) (o : Nat) (ep : BitVec 12) (w : BitVec 4) (off : BitVec 44)
    (op : PeerOp) :
    KeepsRun (peerElement v o ep w off op) := by
  refine keepsRun_get_bind fun r h => ?_
  have h1 := peerAccess_canonical { r.s with fresh := r.s.fresh + 1 } (.element v.c v.t v.e) (r.s.ctxOf v.c) (clsOf r.b.f) ep w off.toNat op h
  split
  · exact keepsRun_throw _
  · exact keepsRun_throw _
  · rename_i s1 a _ _ e
    rw [e] at h1
    exact keepsRun_bind ((keepsRun_set _).2 h1) fun _ => keepsRun_pure _

@[simp] theorem fetch?_keepsRun (v : Site) (o : Nat) (tg : Tgt) (n : Nat) : KeepsRun (fetch? v o tg n) := by
  refine orReplay_keepsRun n some (keepsRun_get_bind fun r h => ?_)
  cases tg with
  | loc a sp o1 =>
    dsimp only
    split <;> (repeat' with_reducible refine keepsRun_bind ?_ fun _ => ?_) <;> simp [h]
  | peer ep w off =>
    refine keepsRun_bind (by simp) fun x => ?_
    cases x <;> (repeat' with_reducible refine keepsRun_bind ?_ fun _ => ?_) <;> simp
  | virt => exact keepsRun_pure _

@[simp] theorem fetchBytes_keepsRun (v : Site) (o : Nat) (tg : Tgt) (n : Nat) : KeepsRun (fetchBytes v o tg n) := by
  refine keepsRun_bind (by simp) fun x => ?_
  cases x with
  | none => exact keepsRun_bind (by simp) fun _ => keepsRun_pure _
  | some => exact keepsRun_pure _

@[simp] theorem writeLoc_keepsRun (v : Site) (o a sp : Nat) (bs : List Byte) (n : Nat) (signed : List Byte) :
    KeepsRun (writeLoc v o a sp bs n signed) := by
  refine keepsRun_get_bind fun r h => (keepsRun_set _).2 ?_
  dsimp only
  split
  · exact h
  · split <;> simp [h]

@[simp] theorem storeBytes_keepsRun (v : Site) (o : Nat) (tg : Tgt) (bs : List Byte) :
    KeepsRun (storeBytes v o tg bs) := by
  cases tg with
  | loc => exact writeLoc_keepsRun _ _ _ _ _ _ _
  | peer => exact keepsRun_bind (by simp) fun _ => by simp
  | virt => exact keepsRun_pure _

@[simp] theorem storeNibble_keepsRun (v : Site) (o : Nat) (tg : Tgt) (q code : Nat) :
    KeepsRun (storeNibble v o tg q code) := by
  refine keepsRun_bind keepsRun_get fun r => ?_
  cases tg with
  | loc => exact writeLoc_keepsRun _ _ _ _ _ _ _
  | peer => exact keepsRun_bind (by simp) fun _ => by simp
  | virt => exact keepsRun_pure _

@[simp] theorem readCode_keepsRun (v : Site) (o ty : Nat) (p : Tgt × Nat) : KeepsRun (readCode v o ty p) := by
  unfold readCode; (repeat' with_reducible refine keepsRun_bind ?_ fun _ => ?_) <;> simp

/-- An element is placed and read. -/
@[simp] theorem readPlaced_keepsRun (v : Site) (o ty a : Nat) (rd wr : Bool) :
    KeepsRun (place v o ty a rd wr >>= fun p => readCode v o ty p) :=
  keepsRun_bind (place_keepsRun _ _ _ _ _ _) fun _ => readCode_keepsRun _ _ _ _

@[simp] theorem writeCode_keepsRun (v : Site) (o ty : Nat) (p : Tgt × Nat) (code : Nat) :
    KeepsRun (writeCode v o ty p code) := by
  simp [writeCode]

@[simp] theorem auxRead_keepsRun (v : Site) (off n : Nat) : KeepsRun (auxRead v off n) := by
  unfold auxRead
  refine orReplay_keepsRun n ofBytes (keepsRun_get_bind fun r h => ?_)
  extract_lets +onlyGivenNames a
  generalize r.s.poisonedIn a n = q
  cases q with
  | some => exact keepsRun_bind (keepsRun_throw _) fun _ => keepsRun_bind ((keepsRun_set _).2 h) fun _ => keepsRun_pure _
  | none => exact keepsRun_bind ((keepsRun_set _).2 h) fun _ => keepsRun_pure _

@[simp] theorem auxWrite_keepsRun (v : Site) (off n x : Nat) : KeepsRun (auxWrite v off n x) :=
  storeBytes_keepsRun _ _ _ _

@[simp] theorem drawLane_keepsRun (i0 : Nat) : KeepsRun (drawLane i0) := by
  exact keepsRun_get_bind fun r h => keepsRun_ite.2
    ⟨fun _ => keepsRun_bind ((keepsRun_set _).2 h) fun _ => keepsRun_pure _, fun _ => keepsRun_pure _⟩

@[simp] theorem encodeVal_keepsRun (ty i0 : Nat) (sat : Bool) (x : Val) : KeepsRun (encodeVal ty i0 sat x) := by
  unfold encodeVal; dsimp only; split <;> (repeat' with_reducible refine keepsRun_bind ?_ fun _ => ?_) <;> simp

@[simp] theorem writeVal_keepsRun (v : Site) (ty : Nat) (p : Tgt × Nat) (i0 : Nat) (sat : Bool) (x : Val) :
    KeepsRun (writeVal v ty p i0 sat x) := keepsRun_bind (by simp) fun _ => by simp

@[simp] theorem writeConv_keepsRun (v : Site) (ta td : Nat) (p : Tgt × Nat) (i0 : Nat) (x : Val) :
    KeepsRun (writeConv v ta td p i0 x) :=
  keepsRun_bind keepsRun_get fun _ => by simp

@[simp] theorem readVal_keepsRun (v : Site) (o ty : Nat) (p : Tgt × Nat) : KeepsRun (readVal v o ty p) :=
  keepsRun_bind (by simp) fun _ => keepsRun_pure _

@[simp] theorem moveTo_keepsRun (v : Site) (i0 : Nat) (pa pd : Tgt × Nat) : KeepsRun (moveTo v i0 pa pd) := by
  unfold moveTo; (repeat' with_reducible refine keepsRun_bind ?_ fun _ => ?_) <;> simp

@[simp] theorem placeAt_keepsRun (v : Site) (o : Nat) (i : List Nat) (rd wr : Bool) :
    KeepsRun (placeAt v o i rd wr) :=
  keepsRun_bind keepsRun_get fun _ => by simp

@[simp] theorem valAt_keepsRun (v : Site) (o : Nat) (i : List Nat) : KeepsRun (valAt v o i) := by
  unfold valAt; (repeat' with_reducible refine keepsRun_bind ?_ fun _ => ?_) <;> simp

/-! Stops and rows. -/

@[simp] theorem blockFaultTrap_mem (s : State) (v : Site) (at_ reason : Nat) (seq : BitVec 32) (t : BitVec 6)
    (strand : Sn) :
    (blockFaultTrap s v at_ reason seq t strand).mem = s.mem := (rfl)

@[simp] theorem abandonAudit_mem (s : State) (c : Cl) (b : Entry) : (abandonAudit s c b).mem = s.mem := by
  unfold abandonAudit; split <;> rfl

@[simp] theorem stopEntry_mem (s : State) (v : Site) (b : Entry) : (stopEntry s v b).mem = s.mem := (rfl)
@[simp] theorem putEntry_mem (s : State) (v : Site) (b : Entry) : (putEntry s v b).mem = s.mem := (rfl)

@[simp] theorem engineFault_mem (s : State) (v : Site) (b : Entry) (f : EntryFault) :
    (engineFault s v b f).mem = s.mem := (rfl)

@[simp] theorem enginePoison_mem (s : State) (v : Site) (b : Entry) (unit operand : Nat) (addr : W) :
    (enginePoison s v b unit operand addr).mem = s.mem := by
  unfold enginePoison; dsimp only; split <;> simp

@[simp] theorem clearPoison_mem (wrote : List (Nat × Nat)) (s : State) : (clearPoison wrote s).mem = s.mem := by
  unfold clearPoison; split <;> rfl

@[simp] theorem countBytes_mem (s : State) (v : Site) (b : Entry) (n : Nat) : (countBytes s v b n).mem = s.mem := by
  unfold countBytes; split <;> rfl

@[simp] theorem keepOld_mem (s : State) (v : Site) (f : Block) (s1 : State) : (keepOld s v f s1).mem = s1.mem := by
  unfold keepOld; dsimp only; (repeat' split) <;> rfl

@[simp] theorem copyReads_canonical (b b1 : Entry) (s : State) (h : s.Canonical) : (copyReads b b1 s).Canonical := by
  unfold copyReads; dsimp only; (repeat' split) <;> simp [h]

theorem runSteps_canonical {step : Nat → EngM Unit} (hstep : ∀ i, KeepsRun (step i)) (grain e0 : Nat) :
    ∀ (k i0 : Nat) (r : Run), r.s.Canonical → (runSteps step grain e0 k i0 r).1.s.Canonical
  | 0, _, _, h => h
  | k + 1, i0, r, h => by
    unfold runSteps
    split
    · exact h
    split
    · rename_i r1 e
      exact runSteps_canonical hstep grain e0 k _ _ (hstep i0 r () r1 h e)
    · exact h

/-- An operator whose step and whose settling leave memory in canonical form. -/
structure OpBody.Keeps (op : OpBody) : Prop where
  step : ∀ v i, KeepsRun (op.step v i)
  settle : ∀ v, KeepsRun (op.settle v)

theorem runRow_canonical (s : State) (v : Site) {op : OpBody} (hop : op.Keeps) (b : Entry) (h : s.Canonical) :
    (runRow s v op b).Canonical := by
  unfold runRow
  split
  · exact h
  extract_lets +onlyGivenNames e0 steps r0 _ _ r b1 s1
  have hr0 : r0.1.s.Canonical := runSteps_canonical (hop.step v) _ _ _ _ _ h
  have hr : r.1.s.Canonical := by
    unfold r
    split
    · split
      · rename_i x e
        refine hop.settle v _ _ x ?_ e
        exact hr0
      · exact hr0
    · exact hr0
  have h1 : s1.Canonical := copyReads_canonical _ _ _ (by simp [hr])
  split <;> simp [h1, raiseWb_mem]

theorem operator_keepsForm (code : Nat) {op : OpBody} (hop : op.Keeps) (c : Cl) (t : Tl) (e : Eng) (s : State)
    (h : s.Canonical) :
    KeepsForm (operator code op c t e s) := by
  unfold operator
  split
  · split
    · simpa using runRow_canonical s _ hop _ h
    · simp [h]
  · simp [h]

end Sys2Proof.Machine
end

section
/-! PROOF. Canonical memory: steps of the vector, move and matrix operators. -/

namespace Sys2Proof.Machine

/-! ### Machine/VectorOps -/

theorem stepArith_keepsRun (two three : Bool) (fx : Nat → XVal → XVal → XVal → XVal) (fi : Int → Int → Int → Int)
    (v : Site) (i0 : Nat) :
    KeepsRun (stepArith two three fx fi v i0) := by
  refine keepsRun_bind keepsRun_get fun r => ?_
  dsimp only
  (repeat' split) <;> (repeat' with_reducible refine keepsRun_bind ?_ fun _ => ?_) <;> simp

theorem stepClamp_keepsRun (v : Site) (i0 : Nat) : KeepsRun (stepClamp v i0) := by
  unfold stepClamp; dsimp only; (repeat' with_reducible refine keepsRun_bind ?_ fun _ => ?_) <;> simp

theorem stepCvt_keepsRun (v : Site) (i0 : Nat) : KeepsRun (stepCvt v i0) := by
  unfold stepCvt; dsimp only; (repeat' with_reducible refine keepsRun_bind ?_ fun _ => ?_) <;> simp

theorem stepScale_keepsRun (v : Site) (i0 : Nat) : KeepsRun (stepScale v i0) := by
  unfold stepScale; dsimp only; (repeat' with_reducible refine keepsRun_bind ?_ fun _ => ?_) <;> simp

theorem stepCmpsel_keepsRun (v : Site) (i0 : Nat) : KeepsRun (stepCmpsel v i0) := by
  refine keepsRun_bind keepsRun_get fun r => keepsRun_bind (by simp) fun pb => keepsRun_bind (by simp) fun x =>
    keepsRun_bind (by simp) fun pd => ?_
  split <;> (repeat' with_reducible refine keepsRun_bind ?_ fun _ => ?_) <;> simp

@[simp] theorem landResult_keepsRun (v : Site) (ty ticks : Nat) (p : Tgt × Nat) (code : Nat) :
    KeepsRun (landResult v ty ticks p code) := by
  refine keepsRun_get_bind fun r h => ?_
  dsimp only
  split
  · exact (keepsRun_set _).2 h
  · exact keepsRun_pure _

theorem stepReduce_keepsRun (op : XVal → XVal → XVal) (unit : XVal) (fi : List Int → Int) (v : Site) (i0 : Nat) :
    KeepsRun (stepReduce op unit fi v i0) := by
  unfold stepReduce; dsimp only; (repeat' with_reducible refine keepsRun_bind ?_ fun _ => ?_) <;> simp [keepsRun_mapM]

theorem stepScan_keepsRun (v : Site) (i0 : Nat) : KeepsRun (stepScan v i0) := by
  unfold stepScan; dsimp only; (repeat' with_reducible refine keepsRun_bind ?_ fun _ => ?_) <;> simp

theorem stepBcast_keepsRun (v : Site) (i0 : Nat) : KeepsRun (stepBcast v i0) := by
  unfold stepBcast; (repeat' with_reducible refine keepsRun_bind ?_ fun _ => ?_) <;> simp

theorem stepPerm_keepsRun (v : Site) (i0 : Nat) : KeepsRun (stepPerm v i0) := by
  refine keepsRun_bind keepsRun_get fun r => keepsRun_bind (by simp) fun pb => keepsRun_bind (by simp) fun j =>
    keepsRun_bind (by simp) fun pd => ?_
  split <;> (repeat' with_reducible refine keepsRun_bind ?_ fun _ => ?_) <;> simp

theorem stepQblk_keepsRun (v : Site) (i0 : Nat) : KeepsRun (stepQblk v i0) := by
  unfold stepQblk; dsimp only
  refine keepsRun_bind keepsRun_get fun r => keepsRun_bind (keepsRun_mapM (fun j => ?_) _) fun xs => ?_
  · (repeat' with_reducible refine keepsRun_bind ?_ fun _ => ?_) <;> simp
  refine keepsRun_bind (by simp) fun _ => keepsRun_bind (keepsRun_mapM (fun x => ?_) _) fun _ => keepsRun_pure _
  (repeat' with_reducible refine keepsRun_bind ?_ fun _ => ?_) <;> simp

theorem stepDqblk_keepsRun (v : Site) (i0 : Nat) : KeepsRun (stepDqblk v i0) := by
  unfold stepDqblk; dsimp only; (repeat' with_reducible refine keepsRun_bind ?_ fun _ => ?_) <;> simp

theorem stepAccRd_keepsRun (v : Site) (i0 : Nat) : KeepsRun (stepAccRd v i0) := by
  refine keepsRun_bind keepsRun_get fun r => ?_
  dsimp only
  (repeat' split) <;> (repeat' with_reducible refine keepsRun_bind ?_ fun _ => ?_) <;> simp

theorem stepTload_keepsRun (v : Site) (i0 : Nat) : KeepsRun (stepTload v i0) := by
  unfold stepTload; dsimp only; (repeat' with_reducible refine keepsRun_bind ?_ fun _ => ?_) <;> simp [keepsRun_mapM]

theorem stepFunc_keepsRun (g : State → Site → Block → Nat → XVal) (v : Site) (i0 : Nat) :
    KeepsRun (stepFunc g v i0) := by
  unfold stepFunc; dsimp only; (repeat' with_reducible refine keepsRun_bind ?_ fun _ => ?_) <;> simp

theorem stepBucket_keepsRun (v : Site) (i0 : Nat) : KeepsRun (stepBucket v i0) := by
  have hsplit (ta b k : Nat) : KeepsRun (do
      let p ← place v 2 ta (stepAddr b k ta) true false
      (fun y : Val => BitVec.ofInt 64 y.int) <$> readVal v 2 ta p) :=
    keepsRun_bind (place_keepsRun _ _ _ _ _ _) fun _ => keepsRun_map (readVal_keepsRun _ _ _ _)
  refine keepsRun_bind keepsRun_get fun r => ?_
  dsimp only
  (repeat' split) <;> (repeat' with_reducible refine keepsRun_bind ?_ fun _ => ?_) <;> simp [keepsRun_mapM, hsplit]

theorem stepHashcell_keepsRun (v : Site) (i0 : Nat) : KeepsRun (stepHashcell v i0) := by
  unfold stepHashcell; dsimp only; (repeat' with_reducible refine keepsRun_bind ?_ fun _ => ?_) <;> simp [keepsRun_mapM]

theorem stepIota_keepsRun (v : Site) (i0 : Nat) : KeepsRun (stepIota v i0) := by
  unfold stepIota; dsimp only; (repeat' with_reducible refine keepsRun_bind ?_ fun _ => ?_) <;> simp

theorem stepSortnet_keepsRun (v : Site) (i0 : Nat) : KeepsRun (stepSortnet v i0) := by
  refine keepsRun_bind keepsRun_get fun r => ?_
  dsimp only
  split
  all_goals
    refine keepsRun_bind (keepsRun_mapM (fun j => ?_) _) fun xs => keepsRun_bind (keepsRun_mapM (fun x => ?_) _) fun _ => keepsRun_pure _
  all_goals (repeat' with_reducible refine keepsRun_bind ?_ fun _ => ?_) <;> simp

theorem stepEmit_keepsRun (v : Site) (i0 : Nat) : KeepsRun (stepEmit v i0) := by
  unfold stepEmit; dsimp only; (repeat' with_reducible refine keepsRun_bind ?_ fun _ => ?_) <;> simp

/-! ### Machine/MoveOps -/

theorem walkAhead_keepsRun (v : Site) : KeepsRun (walkAhead v) := by
  refine keepsRun_get_bind fun r h => keepsRun_ite.2 ⟨fun _ => (keepsRun_set _).2 ?_, fun _ => keepsRun_pure _⟩
  refine foldl_canonical (fun s o hs => ?_) _ h
  split
  · split <;> simp [hs]
  · exact hs

theorem stepCopy_keepsRun (v : Site) (i0 : Nat) : KeepsRun (stepCopy v i0) := by
  unfold stepCopy; (repeat' with_reducible refine keepsRun_bind ?_ fun _ => ?_) <;> simp

theorem stepFill_keepsRun (v : Site) (i0 : Nat) : KeepsRun (stepFill v i0) := by
  unfold stepFill; (repeat' with_reducible refine keepsRun_bind ?_ fun _ => ?_) <;> simp

@[simp] theorem combineAt_keepsRun (v : Site) (i0 : Nat) (pd : Tgt × Nat) (cop aty a : Nat) :
    KeepsRun (combineAt v i0 pd cop aty a) := by
  refine keepsRun_bind keepsRun_get fun r => ?_
  extract_lets f td jp
  have hjp (draw : Nat) : KeepsRun (jp draw) := by
    unfold jp
    dsimp only
    split <;> refine keepsRun_bind (by simp) fun x => ?_
    all_goals split <;> (repeat' with_reducible refine keepsRun_bind ?_ fun _ => ?_) <;> simp
  split
  · exact keepsRun_bind (drawLane_keepsRun i0) hjp
  · exact keepsRun_bind (keepsRun_pure 0) hjp

@[simp] theorem combineTo_keepsRun (v : Site) (i0 : Nat) (pa pd : Tgt × Nat) : KeepsRun (combineTo v i0 pa pd) := by
  unfold combineTo; dsimp only; (repeat' with_reducible refine keepsRun_bind ?_ fun _ => ?_) <;> simp

theorem stepAcopy_keepsRun (v : Site) (i0 : Nat) : KeepsRun (stepAcopy v i0) := by
  unfold stepAcopy; (repeat' with_reducible refine keepsRun_bind ?_ fun _ => ?_) <;> simp

@[simp] theorem placeIndexed_keepsRun (v : Site) (o j i0 : Nat) (rd wr : Bool) :
    KeepsRun (placeIndexed v o j i0 rd wr) := by
  unfold placeIndexed; dsimp only; (repeat' with_reducible refine keepsRun_bind ?_ fun _ => ?_) <;> simp

@[simp] theorem readIndex_keepsRun (v : Site) (i : List Nat) : KeepsRun (readIndex v i) := by
  unfold readIndex; (repeat' with_reducible refine keepsRun_bind ?_ fun _ => ?_) <;> simp

@[simp] theorem rowValue_keepsRun (i0 : Nat) {read : EngM Nat} (hread : KeepsRun read) :
    KeepsRun (rowValue i0 read) := by
  refine keepsRun_bind keepsRun_get fun r => ?_
  split <;> (repeat' with_reducible refine keepsRun_bind ?_ fun _ => ?_) <;> simp [hread]

theorem stepGather_keepsRun (v : Site) (i0 : Nat) : KeepsRun (stepGather v i0) := by
  refine keepsRun_bind keepsRun_get fun r => keepsRun_bind (rowValue_keepsRun _ (by simp)) fun j => ?_
  (repeat' split) <;> (repeat' with_reducible refine keepsRun_bind ?_ fun _ => ?_) <;> simp

@[simp] theorem scatterIndices_keepsRun (v : Site) : KeepsRun (scatterIndices v) := by
  refine keepsRun_bind keepsRun_get fun r => ?_
  dsimp only
  (repeat' split) <;> (repeat' with_reducible refine keepsRun_bind ?_ fun _ => ?_) <;> simp [keepsRun_mapM]

@[simp] theorem scatterWrite_keepsRun (v : Site) (f : Block) (js : List Nat) (m : Nat) :
    KeepsRun (scatterWrite v f js m) := by
  unfold scatterWrite; dsimp only; (repeat' with_reducible refine keepsRun_bind ?_ fun _ => ?_) <;> simp

theorem stepScatter_keepsRun (v : Site) (i0 : Nat) : KeepsRun (stepScatter v i0) := by
  refine keepsRun_bind (by simp) fun js => keepsRun_bind keepsRun_get fun r => ?_
  dsimp only
  (repeat' split) <;> (repeat' with_reducible refine keepsRun_bind ?_ fun _ => ?_) <;> simp

theorem settleScatter_keepsRun (v : Site) : KeepsRun (settleScatter v) := by
  refine keepsRun_bind keepsRun_get fun r => keepsRun_ite.2 ⟨fun _ => ?_, fun _ => keepsRun_pure _⟩
  refine keepsRun_bind (keepsRun_mapM (fun m => ?_) _) fun _ => by simp
  split <;> (repeat' with_reducible refine keepsRun_bind ?_ fun _ => ?_) <;> simp

theorem stepScatterBkt_keepsRun (v : Site) (i0 : Nat) : KeepsRun (stepScatterBkt v i0) := by
  unfold stepScatterBkt; dsimp only
  refine keepsRun_bind keepsRun_get fun r => keepsRun_bind (rowValue_keepsRun _ ?_) fun pos => ?_
  · refine keepsRun_bind (by simp) fun b => ?_
    split <;> (repeat' with_reducible refine keepsRun_bind ?_ fun _ => ?_) <;> simp
  · split <;> (repeat' with_reducible refine keepsRun_bind ?_ fun _ => ?_) <;> simp

theorem stepSignal_keepsRun (v : Site) (i0 : Nat) : KeepsRun (stepSignal v i0) := by
  refine keepsRun_bind keepsRun_get fun r => ?_
  dsimp only
  (repeat' split) <;> (repeat' with_reducible refine keepsRun_bind ?_ fun _ => ?_) <;> simp

theorem stepPrefetch_keepsRun (v : Site) (i0 : Nat) : KeepsRun (stepPrefetch v i0) := by
  refine keepsRun_get_bind fun r h => ?_
  dsimp only
  split <;> [skip; split; skip] <;> simp [h]

theorem stepCtrPost_keepsRun (v : Site) (i0 : Nat) : KeepsRun (stepCtrPost v i0) := by
  refine keepsRun_bind keepsRun_get fun r => keepsRun_bind (by simp) fun pa => keepsRun_bind (by simp) fun x =>
    (keepsRun_modify _).2 fun z hz => ?_
  dsimp only
  split <;> simp [hz]

/-! ### Machine/Matrix -/

@[simp] theorem readRun_keepsRun (v : Site) (o ty a n : Nat) : KeepsRun (readRun v o ty a n) := by
  simp [readRun, keepsRun_mapM]

theorem stepWload_keepsRun (v : Site) (i0 : Nat) : KeepsRun (stepWload v i0) := by
  unfold stepWload; dsimp only
  refine keepsRun_bind keepsRun_get fun r => keepsRun_bind (keepsRun_mapM (fun k => ?_) _) fun rows => by simp
  refine keepsRun_bind (by simp) fun codes => keepsRun_mapM (fun x => ?_) _
  split <;> (repeat' with_reducible refine keepsRun_bind ?_ fun _ => ?_) <;> simp

@[simp] theorem placeRow_keepsRun (v : Site) (o : Nat) (i : List Nat) (wr : Bool) : KeepsRun (placeRow v o i wr) := by
  unfold placeRow; (repeat' with_reducible refine keepsRun_bind ?_ fun _ => ?_) <;> simp

@[simp] theorem landRow_keepsRun (v : Site) (ticks : Nat) (tg : Tgt) (ws : List Nat) :
    KeepsRun (landRow v ticks tg ws) := by
  refine keepsRun_get_bind fun r h => ?_
  dsimp only
  split
  · exact (keepsRun_set _).2 h
  · exact keepsRun_pure _

theorem stepMma_keepsRun (fromZero : Bool) (v : Site) (i0 : Nat) : KeepsRun (stepMma fromZero v i0) := by
  refine keepsRun_bind keepsRun_get fun r => ?_
  dsimp only
  (repeat' split) <;> (repeat' with_reducible refine keepsRun_bind ?_ fun _ => ?_) <;> simp [keepsRun_mapM]

theorem stepChain_keepsRun (v : Site) (i0 : Nat) : KeepsRun (stepChain v i0) := by
  unfold stepChain; dsimp only; (repeat' with_reducible refine keepsRun_bind ?_ fun _ => ?_) <;> simp

theorem stepAccZero_keepsRun (v : Site) (i0 : Nat) : KeepsRun (stepAccZero v i0) :=
  keepsRun_bind keepsRun_get fun _ => keepsRun_bind (placeRow_keepsRun _ _ _ _) fun _ => storeBytes_keepsRun _ _ _ _

theorem stepAccLd_keepsRun (v : Site) (i0 : Nat) : KeepsRun (stepAccLd v i0) := by
  unfold stepAccLd; dsimp only; (repeat' with_reducible refine keepsRun_bind ?_ fun _ => ?_) <;> simp

/-! The operators' events. -/

theorem vectorOp_keeps {step : Site → Nat → EngM Unit} (hstep : ∀ v i, KeepsRun (step v i))
    (ticks : State → Site → Entry → Nat) :
    (vectorOp step ticks).Keeps := ⟨hstep, fun _ => keepsRun_pure _⟩

theorem moveOp_keeps {step : Site → Nat → EngM Unit} (hstep : ∀ v i, KeepsRun (step v i))
    (ticks : State → Site → Entry → Nat) (share : Site → Entry → Nat × Nat) :
    (moveOp step ticks share).Keeps :=
  ⟨fun v i => keepsRun_bind (hstep v i) fun _ => walkAhead_keepsRun v, fun _ => keepsRun_pure _⟩

theorem matrixOp_keeps {step : Site → Nat → EngM Unit} (hstep : ∀ v i, KeepsRun (step v i))
    (ticks : State → Site → Entry → Nat) (clear : State → Site → Entry → Bool) :
    (matrixOp step ticks clear).Keeps := ⟨hstep, fun _ => keepsRun_pure _⟩

theorem reduceOp_keeps (op : XVal → XVal → XVal) (unit : XVal) (fi : List Int → Int) : (reduceOp op unit fi).Keeps :=
  ⟨stepReduce_keepsRun op unit fi, fun _ => keepsRun_pure _⟩

theorem tloadOp_keeps : tloadOp.Keeps := ⟨stepTload_keepsRun, fun _ => keepsRun_pure _⟩
theorem qblkOp_keeps : qblkOp.Keeps := ⟨stepQblk_keepsRun, fun _ => keepsRun_pure _⟩

theorem scatterOp_keeps : scatterOp.Keeps :=
  ⟨(moveOp_keeps stepScatter_keepsRun indexedTicks indexedShare).step, settleScatter_keepsRun⟩

theorem moveOperator_keepsForm (code : Nat) {op : OpBody} (hop : op.Keeps) (c : Cl) (t : Tl) (e : Eng) (s : State)
    (h : s.Canonical) :
    KeepsForm (moveOperator code op c t e s) := by
  cases e with
  | l | s => exact operator_keepsForm code hop _ _ _ _ h
  | m | v => simp [moveOperator, h]

section

variable (c : Cl) (t : Tl) (s : State) (h : s.Canonical)
include h

@[simp] theorem execVAdd_keepsForm : KeepsForm (execVAdd c t s) :=
  operator_keepsForm _ (vectorOp_keeps (stepArith_keepsRun _ _ _ _) _) _ _ _ _ h

@[simp] theorem execVSub_keepsForm : KeepsForm (execVSub c t s) :=
  operator_keepsForm _ (vectorOp_keeps (stepArith_keepsRun _ _ _ _) _) _ _ _ _ h

@[simp] theorem execVMul_keepsForm : KeepsForm (execVMul c t s) :=
  operator_keepsForm _ (vectorOp_keeps (stepArith_keepsRun _ _ _ _) _) _ _ _ _ h

@[simp] theorem execVFma_keepsForm : KeepsForm (execVFma c t s) :=
  operator_keepsForm _ (vectorOp_keeps (stepArith_keepsRun _ _ _ _) _) _ _ _ _ h

@[simp] theorem execVMin_keepsForm : KeepsForm (execVMin c t s) :=
  operator_keepsForm _ (vectorOp_keeps (stepArith_keepsRun _ _ _ _) _) _ _ _ _ h

@[simp] theorem execVMax_keepsForm : KeepsForm (execVMax c t s) :=
  operator_keepsForm _ (vectorOp_keeps (stepArith_keepsRun _ _ _ _) _) _ _ _ _ h

@[simp] theorem execVAbs_keepsForm : KeepsForm (execVAbs c t s) :=
  operator_keepsForm _ (vectorOp_keeps (stepArith_keepsRun _ _ _ _) _) _ _ _ _ h

@[simp] theorem execVNeg_keepsForm : KeepsForm (execVNeg c t s) :=
  operator_keepsForm _ (vectorOp_keeps (stepArith_keepsRun _ _ _ _) _) _ _ _ _ h

@[simp] theorem execClamp_keepsForm : KeepsForm (execClamp c t s) :=
  operator_keepsForm _ (vectorOp_keeps stepClamp_keepsRun _) _ _ _ _ h

@[simp] theorem execVCvt_keepsForm : KeepsForm (execVCvt c t s) :=
  operator_keepsForm _ (vectorOp_keeps stepCvt_keepsRun _) _ _ _ _ h

@[simp] theorem execScale_keepsForm : KeepsForm (execScale c t s) :=
  operator_keepsForm _ (vectorOp_keeps stepScale_keepsRun _) _ _ _ _ h

@[simp] theorem execCmpsel_keepsForm : KeepsForm (execCmpsel c t s) :=
  operator_keepsForm _ (vectorOp_keeps stepCmpsel_keepsRun _) _ _ _ _ h

@[simp] theorem execRedsum_keepsForm : KeepsForm (execRedsum c t s) :=
  operator_keepsForm _ (reduceOp_keeps _ _ _) _ _ _ _ h

@[simp] theorem execRedmax_keepsForm : KeepsForm (execRedmax c t s) :=
  operator_keepsForm _ (reduceOp_keeps _ _ _) _ _ _ _ h

@[simp] theorem execRedmin_keepsForm : KeepsForm (execRedmin c t s) :=
  operator_keepsForm _ (reduceOp_keeps _ _ _) _ _ _ _ h

@[simp] theorem execScan_keepsForm : KeepsForm (execScan c t s) :=
  operator_keepsForm _ (vectorOp_keeps stepScan_keepsRun _) _ _ _ _ h

@[simp] theorem execBcast_keepsForm : KeepsForm (execBcast c t s) :=
  operator_keepsForm _ (vectorOp_keeps stepBcast_keepsRun _) _ _ _ _ h

@[simp] theorem execPerm_keepsForm : KeepsForm (execPerm c t s) :=
  operator_keepsForm _ (vectorOp_keeps stepPerm_keepsRun _) _ _ _ _ h

@[simp] theorem execQblk_keepsForm : KeepsForm (execQblk c t s) :=
  operator_keepsForm _ qblkOp_keeps _ _ _ _ h

@[simp] theorem execDqblk_keepsForm : KeepsForm (execDqblk c t s) :=
  operator_keepsForm _ (vectorOp_keeps stepDqblk_keepsRun _) _ _ _ _ h

@[simp] theorem execAccRd_keepsForm : KeepsForm (execAccRd c t s) :=
  operator_keepsForm _ (vectorOp_keeps stepAccRd_keepsRun _) _ _ _ _ h

@[simp] theorem execTload_keepsForm : KeepsForm (execTload c t s) :=
  operator_keepsForm _ tloadOp_keeps _ _ _ _ h

@[simp] theorem execTint_keepsForm : KeepsForm (execTint c t s) :=
  operator_keepsForm _ (vectorOp_keeps (stepFunc_keepsRun _) _) _ _ _ _ h

@[simp] theorem execExp2_keepsForm : KeepsForm (execExp2 c t s) :=
  operator_keepsForm _ (vectorOp_keeps (stepFunc_keepsRun _) _) _ _ _ _ h

@[simp] theorem execRcp_keepsForm : KeepsForm (execRcp c t s) :=
  operator_keepsForm _ (vectorOp_keeps (stepFunc_keepsRun _) _) _ _ _ _ h

@[simp] theorem execRsqrt_keepsForm : KeepsForm (execRsqrt c t s) :=
  operator_keepsForm _ (vectorOp_keeps (stepFunc_keepsRun _) _) _ _ _ _ h

@[simp] theorem execBucket_keepsForm : KeepsForm (execBucket c t s) :=
  operator_keepsForm _ (vectorOp_keeps stepBucket_keepsRun _) _ _ _ _ h

@[simp] theorem execHashcell_keepsForm : KeepsForm (execHashcell c t s) :=
  operator_keepsForm _ (vectorOp_keeps stepHashcell_keepsRun _) _ _ _ _ h

@[simp] theorem execIota_keepsForm : KeepsForm (execIota c t s) :=
  operator_keepsForm _ (vectorOp_keeps stepIota_keepsRun _) _ _ _ _ h

@[simp] theorem execSortnet_keepsForm : KeepsForm (execSortnet c t s) :=
  operator_keepsForm _ ⟨stepSortnet_keepsRun, fun _ => keepsRun_pure _⟩ _ _ _ _ h

@[simp] theorem execEmit_keepsForm : KeepsForm (execEmit c t s) :=
  operator_keepsForm _ ⟨stepEmit_keepsRun, fun _ => keepsRun_pure _⟩ _ _ _ _ h

@[simp] theorem execMma_keepsForm : KeepsForm (execMma c t s) :=
  operator_keepsForm _ (matrixOp_keeps (stepMma_keepsRun _) _ _) _ _ _ _ h

@[simp] theorem execMmaZ_keepsForm : KeepsForm (execMmaZ c t s) :=
  operator_keepsForm _ (matrixOp_keeps (stepMma_keepsRun _) _ _) _ _ _ _ h

@[simp] theorem execMmaChain_keepsForm : KeepsForm (execMmaChain c t s) :=
  operator_keepsForm _ (matrixOp_keeps stepChain_keepsRun _ _) _ _ _ _ h

@[simp] theorem execWload_keepsForm : KeepsForm (execWload c t s) :=
  operator_keepsForm _ (matrixOp_keeps stepWload_keepsRun _ _) _ _ _ _ h

@[simp] theorem execAccZero_keepsForm : KeepsForm (execAccZero c t s) :=
  operator_keepsForm _ (matrixOp_keeps stepAccZero_keepsRun _ _) _ _ _ _ h

@[simp] theorem execAccLd_keepsForm : KeepsForm (execAccLd c t s) :=
  operator_keepsForm _ (matrixOp_keeps stepAccLd_keepsRun _ _) _ _ _ _ h

variable (e : Eng)

@[simp] theorem execCopy_keepsForm : KeepsForm (execCopy c t e s) :=
  moveOperator_keepsForm _ (moveOp_keeps stepCopy_keepsRun _ _) _ _ _ _ h

@[simp] theorem execFill_keepsForm : KeepsForm (execFill c t e s) :=
  moveOperator_keepsForm _ (moveOp_keeps stepFill_keepsRun _ _) _ _ _ _ h

@[simp] theorem execAcopy_keepsForm : KeepsForm (execAcopy c t e s) :=
  moveOperator_keepsForm _ (moveOp_keeps stepAcopy_keepsRun _ _) _ _ _ _ h

@[simp] theorem execGather_keepsForm : KeepsForm (execGather c t e s) :=
  moveOperator_keepsForm _ (moveOp_keeps stepGather_keepsRun _ _) _ _ _ _ h

@[simp] theorem execScatter_keepsForm : KeepsForm (execScatter c t e s) :=
  moveOperator_keepsForm _ scatterOp_keeps _ _ _ _ h

@[simp] theorem execScatterBkt_keepsForm : KeepsForm (execScatterBkt c t e s) :=
  moveOperator_keepsForm _ (moveOp_keeps stepScatterBkt_keepsRun _ _) _ _ _ _ h

@[simp] theorem execSignal_keepsForm : KeepsForm (execSignal c t e s) :=
  moveOperator_keepsForm _ (moveOp_keeps stepSignal_keepsRun _ _) _ _ _ _ h

@[simp] theorem execPrefetch_keepsForm : KeepsForm (execPrefetch c t e s) :=
  moveOperator_keepsForm _ (moveOp_keeps stepPrefetch_keepsRun _ _) _ _ _ _ h

@[simp] theorem execCtrPost_keepsForm : KeepsForm (execCtrPost c t e s) :=
  moveOperator_keepsForm _ (moveOp_keeps stepCtrPost_keepsRun _ _) _ _ _ _ h

end

end Sys2Proof.Machine
end

section
/-! PROOF. Canonical memory: events of strands and tiles, launches, contexts and the fabric. -/

namespace Sys2Proof.Machine

/-! ### Machine/StrandEvents -/

@[simp] theorem execStorePerform_keepsForm (c : Cl) (k : Sn) (j : Nat) (s : State) (h : s.Canonical) :
    KeepsForm (execStorePerform c k j s) := by
  unfold execStorePerform; (repeat' split) <;> simp [h]

@[simp] theorem farEnd_canonical (want : FarEnd) (c : Cl) (k : Sn) (j : Nat) (s : State) (h : s.Canonical) :
    (farEnd want c k j s).Canonical := by
  unfold farEnd
  split
  · exact h
  rename_i p _
  split
  · exact h
  split
  · split
    · exact h
    · rename_i s0 e
      have h1 := performPend_canonical s0 c k p (translateOlder_canonical h e)
      split <;> split <;> simp_all
  · exact h

@[simp] theorem execRemStComplete_keepsForm (c : Cl) (k : Sn) (j : Nat) (s : State) (h : s.Canonical) :
    KeepsForm (execRemStComplete c k j s) := by
  unfold execRemStComplete; (repeat' split) <;> simp [h]

@[simp] theorem expire_mem (s : State) (c : Cl) (k : Sn) (w : Wait) : (expire s c k w).mem = s.mem := by simp [expire]

@[simp] theorem waitvPoisoned_mem (s : State) (c : Cl) (k : Sn) (unit : Nat) (t : Tgt) :
    (waitvPoisoned s c k unit t).mem = s.mem := by simp [waitvPoisoned]

@[simp] theorem waitvFaulted_mem (s : State) (c : Cl) (k : Sn) (code : BitVec 8) (t : Tgt) :
    (waitvFaulted s c k code t).mem = s.mem := (rfl)

@[simp] theorem rewait_mem (c : Cl) (k : Sn) (o : WaitObj) (s : State) : (rewait c k o s).mem = s.mem := (rfl)

@[simp] theorem execWaitvReread_keepsForm (c : Cl) (k : Sn) (s : State) (h : s.Canonical) :
    KeepsForm (execWaitvReread c k s) := by
  unfold execWaitvReread
  split
  · rename_i cond dw t y _ counted _ _ _
    have h1 := waitvRead_canonical s c k t dw counted h
    dsimp only
    rw [keepsForm_next]
    split <;> [split; skip; skip; skip; skip] <;> simp [h1]
  · simp [h]

@[simp] theorem settleWait_canonical (s : State) (c : Cl) (k : Sn) (h : s.Canonical) :
    (settleWait s c k).Canonical := by
  unfold settleWait; (repeat' split) <;> simp [h]

@[simp] theorem execWaitExpiry_keepsForm (c : Cl) (k : Sn) (s : State) (h : s.Canonical) :
    KeepsForm (execWaitExpiry c k s) := by
  unfold execWaitExpiry; dsimp only; (repeat' split) <;> simp [h]

@[simp] theorem execAsyncTrapDelivery_keepsForm (c : Cl) (k : Sn) (s : State) (h : s.Canonical) :
    KeepsForm (execAsyncTrapDelivery c k s) := by
  unfold execAsyncTrapDelivery; dsimp only; (repeat' split) <;> simp [h]

@[simp] theorem execMailboxInterrupt_keepsForm (c : Cl) (k : Sn) (s : State) (h : s.Canonical) :
    KeepsForm (execMailboxInterrupt c k s) := by
  unfold execMailboxInterrupt; dsimp only; (repeat' split) <;> simp [h]

@[simp] theorem State.clearFaults_mem (s : State) (c : Cl) (k : Sn) : (State.clearFaults s c k).mem = s.mem := (rfl)

@[simp] theorem execFirmwareReflect_keepsForm (c : Cl) (k : Sn) (s : State) (h : s.Canonical) :
    KeepsForm (execFirmwareReflect c k s) := by
  unfold execFirmwareReflect; dsimp only; (repeat' split) <;> simp [h]

/-! ### Machine/TileEvents -/

@[simp] theorem moveTargets_mem (by_ : BitVec 32) (s : State) (v : Site) : (moveTargets by_ s v).mem = s.mem := (rfl)

@[simp] theorem dropTarget_mem (s : State) (v : Site) (q : Queue) : (dropTarget s v q).mem = s.mem := by
  unfold dropTarget; split <;> rfl

@[simp] theorem issueCopy_mem (s : State) (v : Site) (t : BitVec 6) (gen : BitVec 32) (strand : Sn) (f0 : Block) :
    (issueCopy s v t gen strand f0).mem = s.mem := by
  unfold issueCopy; split <;> simp

@[simp] theorem issueEntry_mem (s : State) (v : Site) (t : BitVec 6) (gen : BitVec 32) (strand : Sn) :
    (issueEntry s v t gen strand).mem = s.mem := by simp [issueEntry]

@[simp] theorem applyAmend_mem (c : Cl) (t : Tl) (a : Amend) (s : State) : (applyAmend c t a s).mem = s.mem := by
  unfold applyAmend; split <;> simp

@[simp] theorem runAmends_mem (c : Cl) (t : Tl) (s : State) : (runAmends c t s).mem = s.mem := by
  have amends : ∀ (l : List Amend) (z : State), (l.foldl (fun z a => applyAmend c t a z) z).mem = z.mem := foldl_mem (by simp)
  unfold runAmends
  dsimp only
  split
  · rw [foldl_mem (by simp), State.modTile_mem, amends, State.modTile_mem]
  · rw [amends, State.modTile_mem]

@[simp] theorem issueLink_mem (c : Cl) (t : Tl) (s : State) (l : Link) : (issueLink c t s l).mem = s.mem := by
  simp [issueLink]

@[simp] theorem execTemplateTick_keepsForm (c : Cl) (t : Tl) (s : State) (h : s.Canonical) :
    KeepsForm (execTemplateTick c t s) := by
  simpa [execTemplateTick] using h

@[simp] theorem execTmplLdWrite_keepsForm (c : Cl) (t : Tl) (s : State) (h : s.Canonical) :
    KeepsForm (execTmplLdWrite c t s) := by
  unfold execTmplLdWrite; split <;> simpa using h

@[simp] theorem raiseMiss_mem (v : Site) (at_ : Nat) (s : State) (b : Entry) :
    (raiseMiss v at_ s b).mem = s.mem := (rfl)

@[simp] theorem execScheduleMiss_keepsForm (c : Cl) (t : Tl) (e : Eng) (s : State) (h : s.Canonical) :
    KeepsForm (execScheduleMiss c t e s) := by
  simpa [execScheduleMiss] using h

@[simp] theorem auditStart_canonical (s : State) (v : Site) (b : Entry) (h : s.Canonical) :
    (auditStart s v b).Canonical := by
  simp [auditStart, h]

@[simp] theorem tallyStart_canonical (v : Site) (s : State) (b : Entry) (h : s.Canonical) :
    (tallyStart v s b).Canonical := by
  unfold tallyStart; split <;> simp [h]

@[simp] theorem tallyStarts_canonical (cs : List Cl) (s : State) (h : s.Canonical) : (tallyStarts cs s).Canonical :=
  foldl_canonical (fun _ _ h => foldl_canonical (fun _ v h => foldl_canonical (fun z b h => tallyStart_canonical v z b h) _ h) _ h) cs h

@[simp] theorem startRun_mem (s : State) (v : Site) (b : Entry) (from_ : Nat) :
    (startRun s v b from_).mem = s.mem := (rfl)

@[simp] theorem reachWait_mem (s : State) (v : Site) (b : Entry) : (reachWait s v b).mem = s.mem := by
  simp [reachWait]

@[simp] theorem execBlockStart_keepsForm (c : Cl) (t : Tl) (e : Eng) (s : State) (h : s.Canonical) :
    KeepsForm (execBlockStart c t e s) := by
  unfold execBlockStart; dsimp only; (repeat' split) <;> simp [h]

@[simp] theorem grantTo_canonical (c : Cl) (who : Waiter) (s : State) (h : s.Canonical) :
    (grantTo c who s).Canonical := by
  unfold grantTo; (repeat' split) <;> simp [h]

@[simp] theorem grantSems_canonical (c : Cl) (t : Tl) : ∀ (ws : List SemWait) (barred : List Nat) (s : State), s.Canonical →
    (grantSems c t ws barred s).Canonical
  | [], _, _, h => h
  | w :: r, barred, s, h => by
    unfold grantSems
    dsimp only
    split
    · exact grantSems_canonical c t r barred _ (grantTo_canonical _ _ _ (by simp [h]))
    · exact grantSems_canonical c t r _ s h

@[simp] theorem takeDecl_mem (c : Cl) (t : Tl) (s : State) (d : RingDecl) : (takeDecl c t s d).mem = s.mem := by
  unfold takeDecl; dsimp only; (repeat' split) <;> simp

@[simp] theorem takeDecls_mem (c : Cl) (t : Tl) (s : State) : (takeDecls c t s).mem = s.mem := by simp [takeDecls]

@[simp] theorem execTileTick_keepsForm (c : Cl) (t : Tl) (s : State) (h : s.Canonical) :
    KeepsForm (execTileTick c t s) := by
  unfold execTileTick
  extract_lets s1 s2 s3 s4
  have h1 : s1.Canonical := by simp [s1, h]
  have h2 : s2.Canonical := grantSems_canonical c t _ _ s1 h1
  have h3 : s3.Canonical := foldl_canonical (fun z k hz => by split <;> simp [hz]) _ h2
  have h4 : s4.Canonical := foldl_canonical (fun z v hz => by split <;> simp [hz]) _ h3
  exact (keepsForm_next _).2 (foldl_canonical (fun z k hz => by split <;> simp [hz]) _ h4)

theorem postObj_mem {s t : State} {v : Site} {b : Entry} (e : postObj s v b = some t) : t.mem = s.mem := by
  unfold postObj at e
  dsimp only at e
  split at e
  · split at e <;> cases e; rfl
  · split at e <;> cases e; rfl
  · split at e <;> cases e; rfl
  · cases e; split <;> simp
  · cases e; rfl

@[simp] theorem recordAudit_mem (s : State) (v : Site) (b : Entry) : (recordAudit s v b).mem = s.mem := by
  unfold recordAudit; split <;> rfl

@[simp] theorem execBlockComplete_keepsForm (c : Cl) (t : Tl) (e : Eng) (s : State) (h : s.Canonical) :
    KeepsForm (execBlockComplete c t e s) := by
  unfold execBlockComplete
  dsimp only
  split
  · simp [h]
  split
  · simp [h]
  split
  · simp [h]
  · rename_i s1 e1
    have h1 := postObj_mem e1
    split <;> simp [h, h1]

@[simp] theorem landBytes_canonical (c : Cl) (s : State) (l : Landing) (h : s.Canonical) :
    (landBytes c s l).Canonical := by
  simp [landBytes, h]

@[simp] theorem execMatrixRowLand_keepsForm (c : Cl) (t : Tl) (s : State) (h : s.Canonical) :
    KeepsForm (execMatrixRowLand c t s) := by
  unfold execMatrixRowLand; dsimp only; simp_all

@[simp] theorem execReductionLand_keepsForm (c : Cl) (t : Tl) (s : State) (h : s.Canonical) :
    KeepsForm (execReductionLand c t s) := by
  unfold execReductionLand; dsimp only; simp_all

@[simp] theorem State.clearEngineFault_mem (s : State) (v : Site) (seq : BitVec 32) :
    (State.clearEngineFault s v seq).mem = s.mem := (rfl)

@[simp] theorem execEngineFaultResume_keepsForm (c : Cl) (t : Tl) (e : Eng) (s : State) (h : s.Canonical) :
    KeepsForm (execEngineFaultResume c t e s) := by
  unfold execEngineFaultResume; split <;> simpa using h

/-! ### Machine/Launches -/

theorem readAll_canonical (x : Fin 64) (req : Option (BitVec 9)) : ∀ (l : List (W × Nat)) (s : State), s.Canonical →
    (readAll x req l s).1.Canonical
  | [], _, h => h
  | (a, n) :: r, s, h => by
    have h1 := readVirt_canonical s x req a n h
    unfold readAll
    split
    · simp_all
    · rename_i s1 bs e
      rw [e] at h1
      have h2 := readAll_canonical x req r s1 h1
      split <;> simp_all

theorem readImage_canonical (s : State) (x : Fin 64) (req : Option (BitVec 9)) (a : W) (h : s.Canonical) :
    (readImage s x req a).1.Canonical := by
  have h1 := readVirt_canonical s x req a 128 h
  unfold readImage
  split
  · simp_all
  rename_i s1 hd e
  rw [e] at h1
  split
  · exact h1
  · extract_lets sec
    have h2 := fun l => readAll_canonical x req l s1 h1
    split
    all_goals
      rename_i e2
      have h3 := h2 [sec 0x24 (fieldAt hd 0x28 4), sec 0x2c (min 512 (fieldAt hd 0x30 4)), sec 0x34 (fieldAt hd 0x38 4),
        sec 0x3c (32 * fieldAt hd 0x40 2), sec 0x68 (256 * (templateOrder hd).length)]
      rw [e2] at h3
      exact h3

theorem readNodes_canonical (s : State) (l : Launch) (h : s.Canonical) : (readNodes s l).1.Canonical := by
  unfold readNodes
  split
  · exact h
  extract_lets a
  have h1 := readVirt_canonical s l.ctx l.key a 64 h
  split
  · simp_all
  rename_i s1 hd e
  rw [e] at h1
  extract_lets n
  have h2 := readVirt_canonical s1 l.ctx l.key (a + 64) (64 * n) h1
  split
  · exact h1
  · split <;> simp_all

theorem loadNodes_canonical (l : Launch) : ∀ (ns : List Node) (s : State), s.Canonical → (loadNodes l ns s).1.Canonical
  | [], _, h => h
  | n :: r, s, h => by
    have h1 := readImage_canonical s l.ctx l.key n.image h
    unfold loadNodes
    split
    · simp_all
    · rename_i s1 i e
      rw [e] at h1
      have h2 := loadNodes_canonical l r s1 h1
      split <;> simp_all

@[simp] theorem openNode_mem (lid k : Nat) (s : State) : (openNode lid k s).mem = s.mem := by
  unfold openNode; dsimp only; (repeat' split) <;> simp

@[simp] theorem settleNodes_mem (lid : Nat) : ∀ (n : Nat) (s : State), (settleNodes lid n s).mem = s.mem
  | 0, _ => rfl
  | n + 1, s => by
    unfold settleNodes
    dsimp only
    split
    · rfl
    split
    · rfl
    · rw [settleNodes_mem lid n, foldl_mem]
      · rfl
      · intros; simp

@[simp] theorem settleLaunch_mem (lid : Nat) (s : State) : (settleLaunch lid s).mem = s.mem := by
  unfold settleLaunch
  dsimp only
  (repeat' split) <;> simp

@[simp] theorem endLaunch_mem (lid st : Nat) (s : State) : (endLaunch lid st s).mem = s.mem := (rfl)

@[simp] theorem finishInstance_mem (lid k : Nat) (s : State) : (finishInstance lid k s).mem = s.mem := by
  simp [finishInstance]

@[simp] theorem unrank_mem (l : Launch) (s : State) : (unrank l s).mem = s.mem := (rfl)

@[simp] theorem admitLaunch_mem (l : Launch) (ns : List Node) (s : State) : (admitLaunch l ns s).mem = s.mem := by
  simp [admitLaunch]

@[simp] theorem execAdmission_keepsForm (d : Die) (s : State) (h : s.Canonical) : KeepsForm (execAdmission d s) := by
  unfold execAdmission
  split
  · simp [h]
  rename_i l _
  split
  · simp [h]
  extract_lets wait reject
  have hw (z : State) (e : FaultEntry) (hz : z.Canonical) : KeepsForm (.next (wait z e)) := by simp [wait, hz]
  have hr (z : State) (hz : z.Canonical) : (reject z).Canonical := by simp [reject, hz]
  have h1 := readNodes_canonical s l h
  split
  · rename_i s1 e e1
    rw [e1] at h1
    exact hw _ _ h1
  · rename_i s1 e1
    rw [e1] at h1
    refine (keepsForm_next _).2 ?_
    split
    · exact hr _ h1
    · exact h1
  rename_i s1 ns e1
  rw [e1] at h1
  split
  · exact (keepsForm_next _).2 h1
  have h2 := loadNodes_canonical l ns s1 h1
  split
  · rename_i s2 e e2
    rw [e2] at h2
    exact hw _ _ h2
  · rename_i s2 ns2 e2
    rw [e2] at h2
    refine (keepsForm_next _).2 ?_
    split
    · simpa using h2
    · exact hr _ h2

@[simp] theorem execSpillReturn_keepsForm (d : Die) (s : State) (h : s.Canonical) :
    KeepsForm (execSpillReturn d s) := by
  simpa [execSpillReturn] using h

@[simp] theorem State.abandonOn_mem (s : State) (c : Cl) : (State.abandonOn s c).mem = s.mem := by
  simp [State.abandonOn]

@[simp] theorem startGang_canonical (g : Gang) (args : List W) (s0 : State) (h : s0.Canonical) :
    (startGang g args s0).Canonical := by
  unfold startGang; dsimp only; simp_all

@[simp] theorem advanceRecord_mem (d : Die) (r : TaskRec) (s : State) : (advanceRecord d r s).mem = s.mem := (rfl)

@[simp] theorem stopInstance_mem (d : Die) (r : TaskRec) (cause : Nat) (a : W) (s : State) :
    (stopInstance d r cause a s).mem = s.mem := by simp [stopInstance]

@[simp] theorem placeOn_canonical (d : Die) (r : TaskRec) (l : Launch) (n : Node) (img : Image) (cs : List Cl)
    (args : List W) (s : State) (h : s.Canonical) :
    (placeOn d r l n img cs args s).Canonical := by
  simp [placeOn, h]

@[simp] theorem execPlacement_keepsForm (d : Die) (s : State) (h : s.Canonical) : KeepsForm (execPlacement d s) := by
  unfold execPlacement
  split
  · simp [h]
  split
  · simp [h]
  rename_i dd r cs _ _ l n img _
  extract_lets a
  have h1 := readVirt_canonical s l.ctx l.key a 56 h
  split
  · simp [h]
  · split <;> simp_all

@[simp] theorem flushCounts_mem (x : Fin 64) (d : Die) (s : State) : (flushCounts x d s).mem = s.mem := by
  simp [flushCounts]

@[simp] theorem freeLogical_mem (g : Gang) (s : State) : (freeLogical g s).mem = s.mem := (rfl)

@[simp] theorem leaveClusters_mem (g : Gang) (s : State) : (leaveClusters g s).mem = s.mem := by
  unfold leaveClusters
  extract_lets s1
  have h1 : s1.mem = s.mem := by
    refine foldl_mem (fun _ _ => ?_) _ s
    rfl
  exact (freeLogical_mem ..).trans ((foldl_mem (fun z d => flushCounts_mem g.ctx d z) _ s1).trans h1)

@[simp] theorem execGangRelease_keepsForm (i : Nat) (s : State) (h : s.Canonical) :
    KeepsForm (execGangRelease i s) := by
  unfold execGangRelease; split <;> simpa using h

@[simp] theorem dropRecords_mem (lid : Nat) (s : State) : (dropRecords lid s).mem = s.mem := (rfl)

@[simp] theorem modMembers_mem (g : Gang) (f : Core → Core) (s : State) : (modMembers g f s).mem = s.mem :=
  foldl_mem (fun _ _ => State.modCore_mem ..) _ s

@[simp] theorem abandonThose_mem (p : Entry → Bool) (g : Gang) (s : State) : (abandonThose p g s).mem = s.mem := by
  unfold abandonThose
  exact foldl_mem (fun z m => foldl_mem (fun w y => foldl_mem (fun v q => by simp) _ w) _ z) _ s

@[simp] theorem stopGang_mem (g : Gang) (s : State) : (stopGang g s).mem = s.mem := by simp [stopGang]
@[simp] theorem dropFaults_mem (g : Gang) (src : Nat) (s : State) : (dropFaults g src s).mem = s.mem := (rfl)
@[simp] theorem dropSaved_mem (lid : Nat) (s : State) : (dropSaved lid s).mem = s.mem := (rfl)
@[simp] theorem stopLaunch_mem (lid : Nat) (s : State) : (stopLaunch lid s).mem = s.mem := by simp [stopLaunch]

@[simp] theorem execReefPoint_keepsForm (lid : Nat) (s : State) (h : s.Canonical) :
    KeepsForm (execReefPoint lid s) := by
  unfold execReefPoint; dsimp only; (repeat' split) <;> simp [h]

@[simp] theorem divertGang_mem (g : Gang) (s : State) : (divertGang g s).mem = s.mem := by simp [divertGang]

@[simp] theorem execReefDiversion_keepsForm (lid : Nat) (s : State) (h : s.Canonical) :
    KeepsForm (execReefDiversion lid s) := by
  unfold execReefDiversion; split <;> simpa using h

@[simp] theorem execReefBudgetExpiry_keepsForm (lid : Nat) (s : State) (h : s.Canonical) :
    KeepsForm (execReefBudgetExpiry lid s) := by
  unfold execReefBudgetExpiry; split <;> simpa using h

@[simp] theorem closeLaunch_mem (l : Launch) (s : State) : (closeLaunch l s).mem = s.mem := by simp [closeLaunch]

@[simp] theorem writeRecord_canonical (lid : Nat) (s : State) (h : s.Canonical) : (writeRecord lid s).Canonical := by
  unfold writeRecord
  split
  · exact h
  split
  · exact h
  rename_i l _ _
  extract_lets bs wait
  have h1 := writeVirt_canonical s l.ctx (l.recordAddr + 8) (bs.drop 8) h
  split
  · simp_all [wait]
  · rename_i s1 e
    rw [e] at h1
    have h2 := writeVirt_canonical s1 l.ctx l.recordAddr (bs.take 8) h1
    split <;> simp_all [wait]

@[simp] theorem execCompletionRecordWrite_keepsForm (lid : Nat) (s : State) (h : s.Canonical) :
    KeepsForm (execCompletionRecordWrite lid s) := by
  simp [execCompletionRecordWrite, h]

/-! ### Machine/Contexts -/

@[simp] theorem grantPartition_mem (x : Fin 64) (s : State) : (grantPartition x s).mem = s.mem := (rfl)

@[simp] theorem discardEntries_mem (g : Gang) (s : State) : (discardEntries g s).mem = s.mem := by
  simp [discardEntries]

@[simp] theorem haltGang_mem (g : Gang) (s : State) : (haltGang g s).mem = s.mem := by simp [haltGang]
@[simp] theorem cancelOf_mem (hit : Slot → Bool) (s : State) : (cancelOf hit s).mem = s.mem := (rfl)
@[simp] theorem stopQueues_mem (x : Fin 64) (s : State) : (stopQueues x s).mem = s.mem := (rfl)
@[simp] theorem dropCtxFaults_mem (x : Fin 64) (s : State) : (dropCtxFaults x s).mem = s.mem := (rfl)
@[simp] theorem dropLaunches_mem (x : Fin 64) (s : State) : (dropLaunches x s).mem = s.mem := (rfl)
@[simp] theorem retireKeys_mem (x : Fin 64) (s : State) : (retireKeys x s).mem = s.mem := (rfl)
@[simp] theorem killContext_mem (x : Fin 64) (s : State) : (killContext x s).mem = s.mem := by simp [killContext]

@[simp] theorem execKillComplete_keepsForm (x : Fin 64) (s : State) (h : s.Canonical) :
    KeepsForm (execKillComplete x s) := by
  simpa [execKillComplete] using h

@[simp] theorem execFaultPolicyEndLaunch_keepsForm (lid : Nat) (s : State) (h : s.Canonical) :
    KeepsForm (execFaultPolicyEndLaunch lid s) := by
  unfold execFaultPolicyEndLaunch; (repeat' split) <;> simp [h]

@[simp] theorem clearRange_canonical (lo n : Nat) (s : State) (h : s.Canonical) : (clearRange lo n s).Canonical :=
  clearRange_memWf h ..

@[simp] theorem writeCells_canonical (lo : Nat) (cs : List Host.Cell) (s : State) (h : s.Canonical) :
    (writeCells lo cs s).Canonical := writeCells_memWf h ..

@[simp] theorem cleanMembers_canonical (g : Gang) (s : State) (h : s.Canonical) : (cleanMembers g s).Canonical := by
  unfold cleanMembers; simp_all

@[simp] theorem cleanYielded_canonical (g : Gang) (s : State) (h : s.Canonical) : (cleanYielded g s).Canonical :=
  foldl_canonical (fun _ _ h => by split <;> simp_all) _ h

@[simp] theorem goOnB15_mem (g : Gang) (s : State) : (goOnB15 g s).mem = s.mem := by simp [goOnB15]

@[simp] theorem saveGang_mem (g : Gang) (fence : Bool) (cut : List (BitVec 32 × Nat)) (ms : List SavedMember)
    (s : State) :
    (saveGang g fence cut ms s).mem = s.mem := by
  simp only [saveGang, freeLogical_mem]
  rw [foldl_mem (fun _ _ => by simp), foldl_mem (fun _ _ => by simp)]
  split
  · rfl
  · exact foldl_mem (fun _ _ => by simp) _ s

@[simp] theorem execYieldPointSave_keepsForm (i : Nat) (s : State) (h : s.Canonical) :
    KeepsForm (execYieldPointSave i s) := by
  unfold execYieldPointSave; dsimp only; (repeat' split) <;> simp [h]

@[simp] theorem beginFence_mem (i : Nat) (s : State) : (beginFence i s).mem = s.mem := by
  unfold beginFence; split <;> simp

@[simp] theorem execFenceSnapshot_keepsForm (i : Nat) (s : State) (h : s.Canonical) :
    KeepsForm (execFenceSnapshot i s) := by
  unfold execFenceSnapshot; dsimp only; (repeat' split) <;> simp [h]

@[simp] theorem abandonFence_mem (g : Gang) (s : State) : (abandonFence g s).mem = s.mem := by simp [abandonFence]

@[simp] theorem execFenceAbandon_keepsForm (i : Nat) (s : State) (h : s.Canonical) :
    KeepsForm (execFenceAbandon i s) := by
  unfold execFenceAbandon; dsimp only; (repeat' split) <;> simp [h]

@[simp] theorem restoreMemory_canonical (c : Cl) (m : SavedMember) (s : State) (h : s.Canonical) :
    (restoreMemory c m s).Canonical := by
  unfold restoreMemory
  refine foldl_canonical (fun z t hz => ?_) _ (by simp [h])
  exact writeCells_canonical _ _ _ (clearRange_canonical _ _ _ (writeCells_canonical _ _ _ (clearRange_canonical _ _ _ hz)))

@[simp] theorem restoreGang_canonical (sg : SavedGang) (cl : List Cl) (s0 : State) (h : s0.Canonical) :
    (restoreGang sg cl s0).Canonical := by
  unfold restoreGang
  extract_lets s move _ g _ s1 s2
  have h1 : s1.Canonical := by
    have hs : s.mem = s0.mem := by simp [s]
    show Memory.wf s.mem = true
    rw [hs]; exact h
  have h2 : s2.Canonical := by
    refine foldl_canonical (fun z p hz => ?_) _ h1
    dsimp only
    split
    · simp [hz]
    · have hm := restoreMemory_canonical p.2 { p.1 with vault := [] } z hz
      exact writeCells_canonical _ _ _ (clearRange_canonical _ _ _ (writeHome_canonical _ _ _ hm))
  split
  · simpa using h2
  · exact h2

@[simp] theorem execGangRestore_keepsForm (i : Nat) (cl : List Cl) (s : State) (h : s.Canonical) :
    KeepsForm (execGangRestore i cl s) := by
  unfold execGangRestore; (repeat' split) <;> simp [h]

/-! ### Machine/Fabric -/

@[simp] theorem execDeviceTick_keepsForm (s : State) (h : s.Canonical) : KeepsForm (execDeviceTick s) := by
  simpa [execDeviceTick] using h

@[simp] theorem execXframeAdvance_keepsForm (c : Cl) (s : State) (h : s.Canonical) :
    KeepsForm (execXframeAdvance c s) := by
  simpa [execXframeAdvance] using h

@[simp] theorem execFabricTimeTick_keepsForm (s : State) (h : s.Canonical) : KeepsForm (execFabricTimeTick s) := by
  simpa [execFabricTimeTick] using h

@[simp] theorem execPtpMessage_keepsForm (a : TimeAdjust) (s : State) (h : s.Canonical) :
    KeepsForm (execPtpMessage a s) := by
  unfold execPtpMessage; split <;> simpa using h

theorem arrival_canonical (s : State) (a : PeerAccess) (h : s.Canonical) : (arrival s a).1.Canonical := by
  unfold arrival
  split
  · split
    · simp [counterWindow_mem, h]
    · exact h
  · exact endpointAccess_canonical s _ _ _ _ h

@[simp] theorem peerReply_mem (a : PeerAccess) (s : State) (r : PeerAns) : (peerReply a s r).mem = s.mem := (rfl)

@[simp] theorem peerArrive_canonical (a : PeerAccess) (s : State) (h : s.Canonical) : (peerArrive a s).Canonical := by
  have h1 := arrival_canonical s a h
  unfold peerArrive
  split
  · simp [h]
  split
  · exact h
  split <;> simp_all

@[simp] theorem retryPeers_canonical (s : State) (h : s.Canonical) : (retryPeers s).Canonical := by
  unfold retryPeers; simp_all

@[simp] theorem Actor.counts_mem (v : Actor) (n : Nat) (s : State) : (Actor.counts v n s).mem = s.mem := (rfl)
@[simp] theorem State.dropChain_mem (s : State) (h : Nat) : (State.dropChain s h).mem = s.mem := (rfl)
@[simp] theorem State.putChain_mem (s : State) (ch : Chain) : (State.putChain s ch).mem = s.mem := (rfl)
@[simp] theorem failChain_mem (s : State) (h lst : Nat) : (failChain s h lst).mem = s.mem := (rfl)
@[simp] theorem endChain_mem (s : State) (h : Nat) : (endChain s h).mem = s.mem := by simp [endChain]

@[simp] theorem nextAction_mem (s : State) (ch : Chain) : (nextAction s ch).mem = s.mem := by
  unfold nextAction; split <;> simp

/-- The state that an action of a chain leaves, ended or not. -/
def ActEnd.state : ActEnd → State
  | .done s | .part s _ | .failed s _ | .fault s _ _ | .poison s _ _ | .hold s _ => s

@[simp] theorem ActEnd.state_done (s : State) : (ActEnd.done s).state = s := rfl
@[simp] theorem ActEnd.state_part (s : State) (n : Nat) : (ActEnd.part s n).state = s := rfl
@[simp] theorem ActEnd.state_failed (s : State) (k : Nat) : (ActEnd.failed s k).state = s := rfl
@[simp] theorem ActEnd.state_fault (s : State) (n : Nat) (e : FaultEntry) : (ActEnd.fault s n e).state = s := rfl
@[simp] theorem ActEnd.state_poison (s : State) (u : Nat) (a : W) : (ActEnd.poison s u a).state = s := rfl
@[simp] theorem ActEnd.state_hold (s : State) (n : Nat) : (ActEnd.hold s n).state = s := rfl

theorem ActEnd.ofPeer_state (addr : W) (r : State × PeerAns) : (ActEnd.ofPeer addr r).state = r.1 := by
  unfold ActEnd.ofPeer; split <;> rfl

theorem ActEnd.at_state (moved : Nat) (e : ActEnd) : (e.at_ moved).state = e.state := by cases e <;> rfl

theorem actAccess_canonical (v : Actor) (a : W) (op : PeerOp) (s : State) {go : State → PeerAns → ActEnd}
    (h : s.Canonical) (hgo : ∀ z r, z.Canonical → (go z r).state.Canonical) :
    (actAccess v a op s go).state.Canonical := by
  unfold actAccess
  split
  · have h1 := agentPeer_canonical s v.who v.x v.cls a op h
    split
    any_goals
      rename_i e
      rw [e] at h1
      exact hgo _ _ h1
    rw [ActEnd.ofPeer_state]; exact h1
  · have h1 := agentTranslate_canonical s v.x a op.reads op.writes none h
    split
    · rename_i e
      rw [e] at h1
      exact h1
    · rename_i s1 p e
      rw [e] at h1
      split
      · exact h1
      · exact hgo _ _ (homeOp_canonical s1 p op h1)

theorem actOne_canonical (v : Actor) (a : W) (op : PeerOp) (s : State) (h : s.Canonical) :
    (actOne v a op s).state.Canonical :=
  actAccess_canonical v a op s h fun z _ hz => by simp [hz]

theorem copyOut_canonical (v : Actor) (dst : W) (b : Byte) (run : Nat) (s : State) (h : s.Canonical) :
    (copyOut v dst b run s).state.Canonical := by
  have h1 := agentOut_canonical s v.who v.x v.cls dst b run h
  unfold copyOut
  split <;> simp_all

theorem copyElement_canonical (v : Actor) (comb : Option (Nat × Nat)) (src dst : W) (run : Nat) (s : State)
    (h : s.Canonical) :
    (copyElement v comb src dst run s).state.Canonical := by
  unfold copyElement
  split
  · exact actAccess_canonical _ _ _ _ h fun z _ hz => copyOut_canonical _ _ _ _ z hz
  · exact actAccess_canonical _ _ _ _ h fun z _ hz => actOne_canonical _ _ _ z hz

theorem chainCopy_canonical (v : Actor) (n len : Nat) (comb : Option (Nat × Nat)) (src dst : W) :
    ∀ (k moved : Nat) (s : State), s.Canonical → (chainCopy v n len comb src dst k moved s).state.Canonical
  | 0, _, _, h => by
    unfold chainCopy
    split <;> exact h
  | k + 1, moved, s, h => by
    have h1 := copyElement_canonical v comb (src + BitVec.ofNat 64 moved) (dst + BitVec.ofNat 64 moved) moved s h
    unfold chainCopy
    split
    · exact h
    split
    · rename_i s1 e
      rw [e] at h1
      exact chainCopy_canonical v n len comb src dst k _ _ (by simpa using h1)
    · rw [ActEnd.at_state]; exact h1

theorem actPost_canonical (s : State) (x : Fin 64) (n : Nat) (v : W) (h : s.Canonical) :
    (actPost s x n v).state.Canonical := by
  unfold actPost
  split <;> simp [h]

theorem actOf_canonical (s : State) (n : Nat) (x : Fin 64) (dw : List W) (moved : Nat) (h : s.Canonical) :
    (actOf s n x dw moved).state.Canonical := by
  unfold actOf
  dsimp only
  split
  · exact actOne_canonical _ _ _ _ h
  · exact actOne_canonical _ _ _ _ h
  · exact chainCopy_canonical _ _ _ _ _ _ _ _ _ h
  · exact actOne_canonical _ _ _ _ h
  · exact actPost_canonical _ _ _ _ h

@[simp] theorem execChainActionComplete_keepsForm (h : BitVec 14) (s : State) (hm : s.Canonical) :
    KeepsForm (execChainActionComplete h s) := by
  unfold execChainActionComplete
  split
  · simp [hm]
  rename_i ch _
  extract_lets x
  have h1 := actOf_canonical s ch.head x ch.dw ch.moved hm
  split
  · simp [hm]
  split <;> simp_all

@[simp] theorem hostFail_mem (s : State) (a : HostAccess) : (hostFail s a).mem = s.mem := by simp [hostFail]
@[simp] theorem hostReply_mem (s : State) (r : HostReply) : (hostReply s r).mem = s.mem := (rfl)

@[simp] theorem bar0Read_mem (s : State) (off n : Nat) : (bar0Read s off n).mem = s.mem := by
  unfold bar0Read
  split
  · rfl
  · exact foldl_mem (fun z o => by split <;> rfl) _ s

@[simp] theorem bar0Byte_mem (s : State) (x : Nat × Byte) : (bar0Byte s x).mem = s.mem := (rfl)

@[simp] theorem mailboxWrite_mem (c : Cl) (i : Fin 8) (v : W) (s : State) : (mailboxWrite c i v s).mem = s.mem := by
  simp [mailboxWrite]

@[simp] theorem bar0Write_mem (s : State) (off : Nat) (bs : List Byte) : (bar0Write s off bs).mem = s.mem := by
  unfold bar0Write
  split
  · exact mailboxWrite_mem ..
  split
  · exact foldl_mem bar0Byte_mem _ s
  · rfl

@[simp] theorem bar0Access_mem (s : State) (a : HostAccess) : (bar0Access s a).mem = s.mem := by
  unfold bar0Access
  extract_lets off
  split
  · exact mailboxWrite_mem ..
  · split
    · exact bar0Read_mem ..
    · exact hostFail_mem ..
  · split
    · exact bar0Write_mem ..
    · exact hostFail_mem ..
  · exact hostFail_mem ..

@[simp] theorem hostAt_canonical (s : State) (x : Nat) (a : HostAccess) (h : s.Canonical) :
    (hostAt s x a).Canonical := by
  have hamo := fun op y z => amoHome_canonical s x op y z h
  unfold hostAt
  split
  · exact writeHome_canonical _ _ _ h
  · simpa using h
  · exact h
  all_goals split <;> simp [h, hamo]

theorem hostTry_canonical (s : State) (a : HostAccess) (h : s.Canonical) : (hostTry s a).1.Canonical := by
  unfold hostTry
  split
  · simpa using h
  split
  · simpa using h
  rename_i x va _
  split
  · simpa using h
  have h1 (rd wr : Bool) := agentTranslate_canonical s x va rd wr none h
  split
  · rename_i s1 p e
    have h1 := congrArg Prod.fst e ▸ h1 _ _
    exact hostAt_canonical _ _ _ h1
  · rename_i s1 k e
    exact congrArg Prod.fst e ▸ h1 _ _

@[simp] theorem hostAccess_canonical (s : State) (a : HostAccess) (h : s.Canonical) : (hostAccess s a).Canonical := by
  have h1 := hostTry_canonical s a h
  unfold hostAccess
  split
  · exact h
  split
  · split <;> simp [h]
  split
  · exact h
  split <;> simp_all

@[simp] theorem retryHost_canonical (s : State) (h : s.Canonical) : (retryHost s).Canonical := by
  unfold retryHost; simp_all

@[simp] theorem State.readFrames_mem (s : State) (d : Die) : (State.readFrames s d).mem = s.mem := by
  unfold State.readFrames; split <;> rfl

@[simp] theorem writePte_canonical (pa : Nat) (v : W) (s : State) (h : s.Canonical) :
    (writePte pa v s).Canonical := by
  unfold writePte; dsimp only; (repeat' split) <;> simp [h]

@[simp] theorem setWindow_canonical (x : Fin 64) (i : Nat) (w : PeerWindow) (s : State) (h : s.Canonical) :
    (setWindow x i w s).Canonical := by
  simp [setWindow, h]

@[simp] theorem layArea_mem : ∀ (i : Nat) (ws : List W) (s : State), (layArea i ws s).mem = s.mem
  | _, [], _ => by rw [layArea]
  | i, w :: r, s => by
    rw [layArea, layArea_mem (i + 1) r]
    split <;> rfl

@[simp] theorem execFirmwareTableWrite_keepsForm (r : FromLeader TableWrite) (s : State) (h : s.Canonical) :
    KeepsForm (execFirmwareTableWrite r s) := by
  unfold execFirmwareTableWrite
  rw [keepsForm_next]
  split
  · exact h
  split
  case h_11 =>
    split
    · exact elim_canonical h fun x => by simp [h]
    · exact h
  case h_19 =>
    dsimp only
    split
    · exact foldl_canonical (fun z c hz => by simp [hz]) _ h
    · exact h
  all_goals (repeat' split) <;> simp [h]

@[simp] theorem dropMoveFault_mem (c : Cl) (k : Sn) (p : Pend) (s : State) : (dropMoveFault c k p s).mem = s.mem := by
  unfold dropMoveFault; split <;> rfl

@[simp] theorem dropHostFault_mem (s : State) : (dropHostFault s).mem = s.mem := by
  unfold dropHostFault
  split
  · exact elim_mem rfl fun _ => dropIslandFault_mem ..
  · rfl

@[simp] theorem execIslandAgentFaultResolved_keepsForm (f : FaultSource) (s : State) (h : s.Canonical) :
    KeepsForm (execIslandAgentFaultResolved f s) := by
  unfold execIslandAgentFaultResolved
  extract_lets drop
  have hdrop (d : Die) (e : Option FaultEntry) (z : State) (hz : z.Canonical) : (drop d e z).Canonical := elim_canonical hz fun _ => hz
  refine (keepsForm_next _).2 (byCore_canonical _ h ?_)
  split
  case h_1 => exact hdrop _ _ _ (by split <;> exact h)
  case h_2 =>
    dsimp only
    split
    · exact writeMirror_canonical _ _ (hdrop _ _ _ h)
    · exact h
  case h_6 c k =>
    have h1 := foldl_canonical (f := fun z p => dropMoveFault c k p z) (fun z p hz => by simp [hz])
      ((s.strand c k).pend.filter (·.waitingMove)) h
    simpa using h1
  case h_7 => exact retryHost_canonical _ (by simp [h])
  case h_8 => exact elim_canonical h fun a => retryPeers_canonical _ (by simp [h])
  case h_9 | h_10 => exact hdrop _ _ _ h
  all_goals exact elim_canonical h fun x => hdrop _ _ _ h

@[simp] theorem failCopy_canonical (s : State) (j : CopyJob) (e : FaultEntry) (h : s.Canonical) :
    (failCopy s j e).Canonical := by
  unfold failCopy; split <;> simp [h]

@[simp] theorem failPlacement_mem (d : Die) (e : FaultEntry) (dd : Die) (r : TaskRec) (s : State) :
    (failPlacement d e dd r s).mem = s.mem := by simp [failPlacement]

@[simp] theorem failAdmission_mem (d : Die) (lid : Nat) (s : State) : (failAdmission d lid s).mem = s.mem := by
  unfold failAdmission
  exact elim_mem rfl fun _ => rfl

@[simp] theorem execFaultLeftUnresolved_keepsForm (f : FaultSource) (s : State) (h : s.Canonical) :
    KeepsForm (execFaultLeftUnresolved f s) := by
  refine (keepsForm_next _).2 (byCore_canonical _ h ?_)
  split
  case h_1 => exact elim_canonical h fun e => by simp [h]
  case h_2 => exact elim_canonical h fun e => h
  case h_3 => exact elim_canonical h fun l => elim_canonical h fun e => by simpa using h
  case h_4 => exact elim_canonical h fun j => elim_canonical h fun e => by simp [h]
  case h_5 => exact elim_canonical h fun ch => elim_canonical h fun e => h
  case h_6 => exact foldl_canonical (fun z p hz => by simp [hz]) _ h
  case h_7 =>
    split
    · exact retryHost_canonical _ (by simp [h])
    · exact h
  case h_8 => exact elim_canonical h fun a => retryPeers_canonical _ (by simp [h])
  case h_9 | h_10 => exact elim_canonical h fun w => by simp [h]

end Sys2Proof.Machine
end

section
/-! PROOF. Canonical memory: containment, checkpoints and the island. -/

namespace Sys2Proof.Machine

/-! ### Machine/Containment -/

@[simp] theorem badFrame_mem (pa : Nat) (s : State) : (badFrame pa s).mem = s.mem := (rfl)

@[simp] theorem poisonLineAs_mem (s : State) (unit : Nat) (x : Fin 64) (tag : BitVec 16) (pa : Nat) :
    (poisonLineAs s unit x tag pa).mem = s.mem := by simp [poisonLineAs]

@[simp] theorem poisonLine_mem (s : State) (x : Fin 64) (tag : BitVec 16) (pa : Nat) :
    (poisonLine s x tag pa).mem = s.mem := by simp [poisonLine]

@[simp] theorem correctHbm_mem (pa : Nat) (s : State) : (correctHbm pa s).mem = s.mem := (rfl)
@[simp] theorem correctAt_mem (pa : Nat) (s : State) : (correctAt pa s).mem = s.mem := by simp [correctAt]

@[simp] theorem suspectUnit_mem (c : Cl) (u : Nat) (s : State) : (suspectUnit c u s).mem = s.mem := by
  simp [suspectUnit]

@[simp] theorem strandConsumes_mem (s : State) (c : Cl) (k : Sn) (addr : W) (pa : Nat) :
    (strandConsumes s c k addr pa).mem = s.mem := by
  unfold strandConsumes; split <;> simp

@[simp] theorem engineConsumes_mem (s : State) (v : Site) (operand : Nat) (addr : W) (pa : Nat) :
    (engineConsumes s v operand addr pa).mem = s.mem := by
  unfold engineConsumes; (repeat' split) <;> simp

@[simp] theorem agentConsumes_mem (s : State) (x : Fin 64) (tag : BitVec 16) (addr : W) (pa : Nat) :
    (agentConsumes s x tag addr pa).mem = s.mem := by
  unfold agentConsumes; split <;> simp

@[simp] theorem cacheLineBad_canonical (c : Cl) (pa : Nat) (s : State) (h : s.Canonical) :
    (cacheLineBad c pa s).Canonical := by
  unfold cacheLineBad; split <;> simp [h]

@[simp] theorem execPoisonConsumption_keepsForm (x : Consumer) (pa : Nat) (s : State) (h : s.Canonical) :
    KeepsForm (execPoisonConsumption x pa s) := by
  unfold execPoisonConsumption; split <;> simp [h]

@[simp] theorem purgeGang_mem (g : Gang) (s : State) : (purgeGang g s).mem = s.mem := by simp [purgeGang]

@[simp] theorem clearWaits_mem (ids : List Nat) (d : Die) (s : State) : (clearWaits ids d s).mem = s.mem := by
  unfold clearWaits
  extract_lets s1
  have h1 : s1.mem = s.mem := elim_mem rfl fun _ => rfl
  exact elim_mem h1 fun _ => h1

@[simp] theorem reachLaunches_mem (ids : List Nat) (s : State) : (reachLaunches ids s).mem = s.mem := by
  simp [reachLaunches]

@[simp] theorem purgeSlots_mem (x : Fin 64) (tag : BitVec 16) (s : State) : (purgeSlots x tag s).mem = s.mem := by
  simp [purgeSlots]

@[simp] theorem execPurge_keepsForm (x : Fin 64) (tag : BitVec 16) (s : State) (h : s.Canonical) :
    KeepsForm (execPurge x tag s) := by
  unfold execPurge
  extract_lets ids s1 s2
  have h2 : s2.Canonical := foldl_canonical (fun z j hz => finishCopy_canonical z _ 4 hz) _ (by simp [s1, h])
  exact (keepsForm_next _).2 h2

@[simp] theorem replay_mem (l : Launch) (s : State) : (replay l s).mem = s.mem := (rfl)

@[simp] theorem settlePurged_mem (s : State) (id : Nat) : (settlePurged s id).mem = s.mem := by
  unfold settlePurged; split <;> simp

@[simp] theorem execPurgeComplete_keepsForm (x : Fin 64) (tag : BitVec 16) (s : State) (h : s.Canonical) :
    KeepsForm (execPurgeComplete x tag s) := by
  unfold execPurgeComplete; dsimp only; (repeat' split) <;> simp [h]

@[simp] theorem State.suspect_mem (s : State) (c : Cl) : (State.suspect s c).mem = s.mem := (rfl)
@[simp] theorem auditFails_mem (s : State) (a : Audit) : (auditFails s a).mem = s.mem := (rfl)

@[simp] theorem execAuditReplay_keepsForm (d : Die) (r : AuditInput) (s : State) (h : s.Canonical) :
    KeepsForm (execAuditReplay d r s) := by
  unfold execAuditReplay; dsimp only; (repeat' split) <;> simp [h]

@[simp] theorem scrubDie_mem (d : Die) (s : State) : (scrubDie d s).mem = s.mem := by
  unfold scrubDie; split <;> rfl

@[simp] theorem State.reattach_mem (s : State) : (State.reattach s).mem = s.mem := by simp [State.reattach]
@[simp] theorem moveQueues_mem (d e : Die) (s : State) : (moveQueues d e s).mem = s.mem := (rfl)
@[simp] theorem dropDieLists_mem (d : Die) (s : State) : (dropDieLists d s).mem = s.mem := (rfl)

@[simp] theorem evacuate_mem (d : Die) (s : State) : (evacuate d s).mem = s.mem := by
  unfold evacuate; split <;> simp

@[simp] theorem leaveRun_mem (d : Die) (s : State) : (leaveRun d s).mem = s.mem := by simp [leaveRun]
@[simp] theorem fenceEvent_mem (d : Die) (id : Nat) (s : State) : (fenceEvent d id s).mem = s.mem := (rfl)

@[simp] theorem execDieFence_keepsForm (d : Die) (s : State) (h : s.Canonical) : KeepsForm (execDieFence d s) := by
  unfold execDieFence; split <;> simpa using h

@[simp] theorem execMasterReplace_keepsForm (s : State) (h : s.Canonical) : KeepsForm (execMasterReplace s) := by
  unfold execMasterReplace; split <;> simpa using h

@[simp] theorem execQueueReset_keepsForm (r : FromLeader (Fin 1024)) (s : State) (h : s.Canonical) :
    KeepsForm (execQueueReset r s) := by
  unfold execQueueReset; dsimp only; (repeat' split) <;> simp [h]

@[simp] theorem execQueueResetComplete_keepsForm (i : Fin 1024) (s : State) (h : s.Canonical) :
    KeepsForm (execQueueResetComplete i s) := by
  unfold execQueueResetComplete
  split
  · simp [h]
  extract_lets s1 s2 s3
  have h1 : s1.Canonical := foldl_canonical (fun z l hz => by simp [hz]) _ h
  have h2 : s2.Canonical := foldl_canonical (fun z l hz => writeRecord_canonical l z hz) _ h1
  have h3 : s3.Canonical := foldl_canonical (fun z j hz => finishCopy_canonical z j _ hz) _ h2
  refine (keepsForm_next _).2 ?_
  split <;> exact h3

@[simp] theorem restoreOn_canonical (z : State) (p : Nat × List Cl) (h : z.Canonical) :
    (restoreOn z p).Canonical := by
  unfold restoreOn; (repeat' split) <;> simp [h]

@[simp] theorem restoreReefed_canonical (id : Nat) (s : State) (h : s.Canonical) : (restoreReefed id s).Canonical :=
  elim_canonical h fun g => elim_canonical h fun cl => restoreGang_canonical g cl s h

@[simp] theorem restoreAnywhere_canonical (z : State) (p : Nat × List Cl) (h : z.Canonical) :
    (restoreAnywhere z p).Canonical := by
  unfold restoreAnywhere; (repeat' split) <;> simp [h]

@[simp] theorem preemptAgain_mem (z : State) (p : Nat × Preempt) : (preemptAgain z p).mem = z.mem := by
  simp [preemptAgain]

@[simp] theorem execCheckpointResume_keepsForm (s : State) (h : s.Canonical) :
    KeepsForm (execCheckpointResume s) := by
  refine (keepsForm_next _).2 ?_
  split
  · extract_lets s1 s2 s3
    have h2 : s2.Canonical := foldl_canonical (fun z g hz => by simp [hz]) _ h
    have h3 : s3.Canonical :=
      foldl_canonical (fun z p hz => by simp [hz]) _ (foldl_canonical (fun z p hz => restoreOn_canonical z p hz) _ h2)
    exact foldl_canonical (fun z i hz => by simp [hz]) _ (retryHost_canonical _ (retryPeers_canonical _ h3))
  · exact h

@[simp] theorem execCheckpointRestore_keepsForm (image : Nat) (r : RestoreInput) (s : State) (h : s.Canonical) :
    KeepsForm (execCheckpointRestore image r s) := by
  unfold execCheckpointRestore
  split
  · simp [h]
  rename_i i _
  extract_lets key s1
  have h1 : s1.Canonical := restoreMem_wf h key i
  split
  · simp [h]
  split
  · exact (keepsForm_next _).2 h
  · exact (keepsForm_next _).2 (foldl_canonical (fun z p hz => restoreAnywhere_canonical z p hz) _ h1)

/-! ### Machine/Island -/

@[simp] theorem State.cleared_canonical (s : State) : (State.cleared s).Canonical := reset_memWf

@[simp] theorem State.islandReset_canonical (s : State) (h : s.Canonical) : (State.islandReset s).Canonical :=
  memWfFrom_filter _ s.mem 0 h

@[simp] theorem boot_mem (s : State) : (boot s).mem = s.mem := by
  unfold boot; split <;> rfl

@[simp] theorem execPowerApply_keepsForm (s : State) (h : s.Canonical) : KeepsForm (execPowerApply s) := by
  unfold execPowerApply; split <;> simp [h]

@[simp] theorem execPowerRemove_keepsForm (s : State) (h : s.Canonical) : KeepsForm (execPowerRemove s) := by
  unfold execPowerRemove; split <;> simp [h]

@[simp] theorem execDrainEnd_keepsForm (s : State) (h : s.Canonical) : KeepsForm (execDrainEnd s) := by
  unfold execDrainEnd
  split <;> simp [h]

@[simp] theorem execDiePowerOn_keepsForm (d : Die) (s : State) (h : s.Canonical) :
    KeepsForm (execDiePowerOn d s) := by
  simpa [execDiePowerOn] using h

@[simp] theorem zeroSram_canonical (d : Die) (s : State) (h : s.Canonical) : (zeroSram d s).Canonical :=
  foldl_canonical (fun _ r hz => clearRange_canonical r.1 r.2 _ hz) _ h

@[simp] theorem freshCores_mem (d : Die) (s : State) : (freshCores d s).mem = s.mem := by simp [freshCores]

@[simp] theorem execDieResetRelease_keepsForm (d : Die) (s : State) (h : s.Canonical) :
    KeepsForm (execDieResetRelease d s) := by
  unfold execDieResetRelease; split <;> simp [h]

@[simp] theorem moveRecords_mem (d e : Die) (s : State) : (moveRecords d e s).mem = s.mem := by simp [moveRecords]
@[simp] theorem takeOver_mem (d : Die) (s : State) : (takeOver d s).mem = s.mem := by simp [takeOver]
@[simp] theorem sinkDie_mem (d : Die) (g : DieGoal) (s : State) : (sinkDie d g s).mem = s.mem := (rfl)

@[simp] theorem execDieBootComplete_keepsForm (b : DieBoot) (s : State) (h : s.Canonical) :
    KeepsForm (execDieBootComplete b s) := by
  simpa [execDieBootComplete] using h

@[simp] theorem dropFrontFaults_mem (d : Die) (s : State) : (dropFrontFaults d s).mem = s.mem :=
  foldl_mem (fun z e => State.dropFault_mem z d e) _ s

@[simp] theorem execDieDrain_keepsForm (d : Die) (g : DieGoal) (s : State) (h : s.Canonical) :
    KeepsForm (execDieDrain d g s) := by
  unfold execDieDrain; split <;> simp [h]

@[simp] theorem execFencedDieReset_keepsForm (d : Die) (g : Option DieGoal) (s : State) (h : s.Canonical) :
    KeepsForm (execFencedDieReset d g s) := by
  unfold execFencedDieReset; (repeat' split) <;> simp [h]

@[simp] theorem setNarrowed_mem (l : List (Fin 16)) (s : State) : (setNarrowed l s).mem = s.mem := by
  refine foldl_mem (fun z c => ?_) _ { s with power := { s.power with narrowed := l } }
  exact State.modCore_mem ..

@[simp] theorem takeSample_mem (ma : List Nat) (s : State) : (takeSample ma s).mem = s.mem := (rfl)

@[simp] theorem stage1_mem (mm : List Nat) (s : State) : (stage1 mm s).mem = s.mem := by
  unfold stage1; (repeat' split) <;> simp

@[simp] theorem stage2_mem (ma : List Nat) (s : State) : (stage2 ma s).mem = s.mem := by simp [stage2]
@[simp] theorem stage3_mem (s : State) : (stage3 s).mem = s.mem := by simp [stage3]

@[simp] theorem widen_mem (s : State) : (widen s).mem = s.mem := by
  unfold widen; dsimp only; (repeat' split) <;> simp

@[simp] theorem execFirmwareCommit_keepsForm (f : Fin 5) (s : State) (h : s.Canonical) :
    KeepsForm (execFirmwareCommit f s) := by
  unfold execFirmwareCommit; split <;> simpa using h

@[simp] theorem execFirmwareSwitch_keepsForm (f : Fin 5) (s : State) (h : s.Canonical) :
    KeepsForm (execFirmwareSwitch f s) := by
  unfold execFirmwareSwitch; split <;> simpa using h

@[simp] theorem newKey_mem (i : Nat) (s : State) : (newKey i s).mem = s.mem := (rfl)
@[simp] theorem State.eraseKeys_mem (s : State) (gone : Nat → Bool) : (State.eraseKeys s gone).mem = s.mem := (rfl)

@[simp] theorem execKeyRetire_keepsForm (r : FromLeader (Fin 512)) (s : State) (h : s.Canonical) :
    KeepsForm (execKeyRetire r s) := by
  unfold execKeyRetire; dsimp only; (repeat' split) <;> simp [h]

@[simp] theorem execKeyRetireComplete_keepsForm (i : Fin 512) (s : State) (h : s.Canonical) :
    KeepsForm (execKeyRetireComplete i s) := by
  unfold execKeyRetireComplete; split <;> simpa using h

end Sys2Proof.Machine
end

section
/-! PROOF. Canonical memory: dispatch, schedule and every step (O6). -/

namespace Sys2Proof.Machine

/-! ### Machine/Repeat -/

/-- A repeated word does as its instruction, or is illegal. -/
theorem execRepeated_eq (i : Instr) (s : State) :
    execRepeated i s = exec i s ∨ execRepeated i s = issueWord [] trapIllegal s := by
  cases i with
  | nop | xrd | xwr | xset | xclr | tlbi | add | sub | mul | mulh | mulhu | div | divu | rem | remu | and | or | xor | andn | shl
    | shr | sra | min | max | minu | maxu | clz | ctz | popc | addi | andi | ori | xori | shli | shri | srai | li | lih | cmpEq |
    cmpNe | cmpLt | cmpGe | cmpLtu | cmpGeu | cmpiEq | cmpiNe | cmpiLt | cmpiGe | cmpiLtu | cmpiGeu | pand | por | pxor | pandn |
    pmov | psave | pload | fadd | fsub | fmul | fdiv | fsqrt | fmin | fmax | fabs | fneg | fsgnj | fclass | fcmpEq | fcmpLt | fcmpLe
    | fcmpUn | fma | ldB | ldBu | ldH | ldHu | ldW | ldWu | ldD | stB | stH | stW | stD | ldqB | ldqBu | ldqH | ldqHu | ldqW | ldqWu
    | ldqD | ldqAcq | stRel | pop | amoAdd | amoAnd | amoOr | amoXor | amoMin | amoMax | amoMinu | amoMaxu | cas | amoSwap | amoBadd
    | fence | semWait | semPost | semRd | ringDecl | ringWait | ringRel | ringWp | barArrive | barWait | barSync | waitvEq | waitvNe
    | waitvLt | waitvGe | waitvLtu | waitvGeu | tmask | epatch | ebind | eissue | efence | egen | estat | tmplLd | tmplSt | hLd |
    hSt | hSet | hGet | hAdv | hMov | hClr | xlate | spawn | taskDone | validSet | trigPost | trigCancel | trigQuery | ctrAdd |
    ctrRd | remSt | remSig | remAmoAdd | remAmoAnd | remAmoOr | remAmoXor | remAmoMin | remAmoMax | remAmoMinu | remAmoMaxu |
    remAmoSwap | remAmoBadd | rdtick | rdframe | rdtime | bfx | bfi | sel | madd | cvtIF | cvtFI | cvtFBf | cvtBfF | hint | pwL |
    pwM | pwV | pwS => rw [exec]; exact .inl rfl
  | _ => exact .inr rfl

/-! ### Machine/Dispatch -/

/-- Every instruction but the iteration of a rep, whose meaning is that of the word it repeats. -/
theorem exec_keepsForm_of_ne (i : Instr) (hi : i ≠ .repIteration) (s : State) (h : s.Canonical) :
    KeepsForm (exec i s) := by
  cases i with
  | repIteration => exact absurd rfl hi
  | add | sub | mul | mulh | mulhu | div | divu | rem | remu | and | or | xor | andn | shl | shr | sra | min | max | minu | maxu =>
    rw [exec]; exact alu3_keepsForm _ _ _ _ _ _ _ h
  | clz | ctz | popc | addi | andi | ori | xori | shli | shri | srai | bfx =>
    rw [exec]; exact alu2_keepsForm _ _ _ _ _ _ h
  | ldB | ldBu | ldH | ldHu | ldW | ldWu | ldD =>
    rw [exec]; exact load_keepsForm _ _ _ _ _ _ _ _ h
  | stB | stH | stW | stD =>
    rw [exec]; exact store_keepsForm _ _ _ _ _ _ _ h
  | ldqB | ldqBu | ldqH | ldqHu | ldqW | ldqWu | ldqD =>
    rw [exec]; exact farLoad_keepsForm _ _ _ _ _ _ _ _ h
  | amoAdd | amoAnd | amoOr | amoXor | amoMin | amoMax | amoMinu | amoMaxu | amoSwap =>
    rw [exec]; exact amo_keepsForm _ _ _ _ _ _ h
  | amoBadd | cas =>
    rw [exec]; exact amoPair_keepsForm _ _ _ _ _ _ h
  | waitvEq | waitvNe | waitvLt | waitvGe | waitvLtu | waitvGeu =>
    rw [exec]; exact waitvWord_keepsForm _ _ _ _ _ _ _ h
  | pwL | pwM | pwV | pwS =>
    rw [exec]; exact patchWord_keepsForm _ _ _ _ _ _ h
  | fadd | fsub | fmul | fdiv =>
    rw [exec]; exact fp2_keepsForm _ _ _ _ _ _ _ h
  | fmin | fmax | fsgnj =>
    rw [exec]; exact fpBits2_keepsForm _ _ _ _ _ _ h
  | fabs | fneg | fclass =>
    rw [exec]; exact fpBits1_keepsForm _ _ _ _ _ h
  | fcmpEq | fcmpLt | fcmpLe | fcmpUn =>
    rw [exec]; exact fcmp_keepsForm _ _ _ _ _ _ h
  | cvtIF | cvtFI | cvtFBf | cvtBfF =>
    rw [exec]; exact cvtWord_keepsForm _ _ _ _ _ h
  | cmpEq | cmpNe | cmpLt | cmpGe | cmpLtu | cmpGeu =>
    rw [exec]; exact cmp_keepsForm _ _ _ _ _ _ h
  | cmpiEq | cmpiNe | cmpiLt | cmpiGe | cmpiLtu | cmpiGeu =>
    rw [exec]; exact cmpi_keepsForm _ _ _ _ _ _ h
  | pand | por | pxor | pandn =>
    rw [exec]; exact predOp_keepsForm _ _ _ _ _ _ h
  | remAmoAdd | remAmoAnd | remAmoOr | remAmoXor | remAmoMin | remAmoMax | remAmoMinu | remAmoMaxu | remAmoSwap | remAmoBadd =>
    rw [exec]; exact remAmo_keepsForm _ _ _ _ _ _ h
  | xwr | xset | xclr =>
    rw [exec]; exact ctlWrite_keepsForm _ _ _ _ _ h
  | li | lih | bfi | sel | madd =>
    simp [exec, execLi, execLih, execBfi, execSel, execMadd, h]
  | br | jmp | call | jmpr | callr | ret | halt | loop | loopi | rep | repImm | enter | leave =>
    simp [exec, execBr, execJmp, execCall, execJmpr, execCallr, execRet, execHalt, execLoop, execLoopi, execRep, execRepImm,
      execEnter, execLeave, h]
  | ldqAcq | stRel | fence =>
    simp [exec, execLdqAcq, execStRel, execFence, h]
  | semRd | ringWp | barWait =>
    simp [exec, execSemRd, execRingWp, execBarWait, h]
  | hSt | hSet | hGet | hAdv | hMov | hClr =>
    simp [exec, execHSt, execHSet, execHGet, execHAdv, execHMov, execHClr, h]
  | tmask | epatch | eissue | egen | estat =>
    simp [exec, execTmask, execEpatch, execEissue, execEgen, execEstat, h]
  | fsqrt | fma =>
    simp [exec, execFsqrt, execFma, h]
  | pmov | psave | pload =>
    simp [exec, execPmov, execPsave, execPload, h]
  | xlate | xlateDeliver | trigPost | trigCancel | trigQuery | ctrRd | ctrAdd =>
    simp [exec, execXlate, execXlateDeliver, execTrigPost, execTrigCancel, execTrigQuery, execCtrRd, execCtrAdd, h]
  | nop | hint | svc | brk | eret | tlbi | rdtick | rdframe | rdtime =>
    simp [exec, execNop, execHint, execSvc, execBrk, execEret, execTlbi, execRdtick, execRdframe, execRdtime, h]
  | taskDone | validSet =>
    simp [exec, execTaskDone, execValidSet, h]
  | rankProgramInstall =>
    simp [exec, execRankProgramInstall, h]
  | resultLand | gapEnd | switchAwayEnd | farAccessComplete | farAccessRefused | farAccessTranslationFault | firmwareResume |
    flqRestart =>
    simp [exec, execResultLand, execGapEnd, execSwitchAwayEnd, execFarAccessComplete, execFarAccessRefused,
      execFarAccessTranslationFault, execFirmwareResume, execFlqRestart, h]
  | contextCreate | contextKill | nodeBoundaryRequest | generationFenceRequest =>
    simp [exec, execContextCreate, execContextKill, execNodeBoundaryRequest, execGenerationFenceRequest, h]
  | routeUpdate | portRetrain | flitResend | transitTraffic | peerAccessArrive | counterAddition | triggerOrphan | hostRead |
    hostWrite | hostFetchadd | hostCas | supersededBitsRead | hostMailboxWrite =>
    simp [exec, execRouteUpdate, execPortRetrain, execFlitResend, execTransitTraffic, execPeerAccessArrive, execCounterAddition,
      execTriggerOrphan, execHostRead, execHostWrite, execHostFetchadd, execHostCas, execSupersededBitsRead, execHostMailboxWrite,
      h]
  | tableScrub | clusterRetest | checkpointRequest | checkpointStream =>
    simp [exec, execTableScrub, execClusterRetest, execCheckpointRequest, execCheckpointStream, h]
  | islandResetRequest | dieDrainComplete | powerSample | powerBudgetWrite | coldPlateAlarm | idleClockGate | idlePowerGate |
    leaseRenew | leaseCheck | leaseCas | leaseVacate | firmwarePrepare | keyAssign | measurementExtend | quoteRequest =>
    simp [exec, execIslandResetRequest, execDieDrainComplete, execPowerSample, execPowerBudgetWrite, execColdPlateAlarm,
      execIdleClockGate, execIdlePowerGate, execLeaseRenew, execLeaseCheck, execLeaseCas, execLeaseVacate, execFirmwarePrepare,
      execKeyAssign, execMeasurementExtend, execQuoteRequest, h]
  | _ => simp [exec, h]

theorem execRepeated_keepsForm (i : Instr) (s : State) (h : s.Canonical) : KeepsForm (execRepeated i s) := by
  have hbad : KeepsForm (issueWord [] trapIllegal s) := issueWord_keepsForm [] h (by simp [h])
  by_cases hi : i = .repIteration
  · subst hi
    exact hbad
  · obtain e | e := execRepeated_eq i s
    · rw [e]; exact exec_keepsForm_of_ne i hi s h
    · rw [e]; exact hbad

theorem iterate_keepsForm (w : Nat) (i : Instr) (sd sa sb : BitVec 3) (s : State) (h : s.Canonical) :
    KeepsForm (iterate w i sd sa sb s) := by
  unfold iterate
  extract_lets j use d a b off n bad fails w1 w2
  have hbad : KeepsForm (issueWord [] trapIllegal s) := issueWord_keepsForm [] h (by simp [h])
  split
  · exact hbad
  clear_value fails
  cases fails with
  | some x => exact issueWord_keepsForm [] h (by simp [h])
  | none =>
    dsimp only
    split
    · exact execRepeated_keepsForm _ s h
    · exact hbad

@[simp] theorem execRepIteration_keepsForm (s : State) (h : s.Canonical) : KeepsForm (execRepIteration s) := by
  unfold execRepIteration
  split
  · simp [h]
  split
  · exact issueWord_keepsForm [] h (by simp [h])
  split
  · simp [h]
  split
  · exact issueWord_keepsForm [] h (by simp [h])
  rename_i w _
  extract_lets _ s1
  have h1 : s1.Canonical := h
  have hbad : KeepsForm (issueWord [] trapIllegal s1) := issueWord_keepsForm [] h1 (by simp [h1])
  split
  · split
    · exact iterate_keepsForm _ _ _ _ _ s1 h1
    · exact hbad
  · exact hbad

@[simp] theorem exec_keepsForm (i : Instr) (s : State) (h : s.Canonical) : KeepsForm (exec i s) := by
  by_cases hi : i = .repIteration
  · subst hi
    exact execRepIteration_keepsForm s h
  · exact exec_keepsForm_of_ne i hi s h

/-! ### Machine/Schedule -/

@[simp] theorem State.enter_mem (s : State) (c : Cl) (k : Sn) (w : BitVec 32) :
    (State.enter s c k w).mem = s.mem := (rfl)

@[simp] theorem runEvent_keepsForm (c : Cl) (k : Sn) (s : State) (h : s.Canonical) : KeepsForm (runEvent c k s) := by
  unfold runEvent; split <;> simp [h]

@[simp] theorem runStrand_keepsForm (c : Cl) (k : Sn) (s : State) (h : s.Canonical) :
    KeepsForm (runStrand c k s) := by
  unfold runStrand; dsimp only; (repeat' split) <;> simp [h]

@[simp] theorem coreMachine_mem (f : Fin 5) (s : State) : (coreMachine f s).mem = s.mem := (rfl)

@[simp] theorem runCore_keepsForm (f : Fin 5) (k : Sn) (s : State) (h : s.Canonical) : KeepsForm (runCore f k s) := by
  unfold runCore; dsimp only; (repeat' split) <;> simp [h]

@[simp] theorem performStrand_canonical (c : Cl) (s : State) (k : Sn) (h : s.Canonical) :
    (performStrand c s k).Canonical := by
  simp [performStrand, h]

@[simp] theorem deliverDue_mem (c : Cl) (s : State) (k : Sn) : (deliverDue c s k).mem = s.mem := by
  refine foldl_mem (fun z _ => ?_) _ s
  split <;> simp

@[simp] theorem testWait_canonical (c : Cl) (s : State) (k : Sn) (h : s.Canonical) : (testWait c s k).Canonical := by
  have h1 := execWaitvReread_keepsForm c k s h
  unfold testWait
  split
  · rename_i s1 e
    exact settleWait_canonical s1 c k (h1 s1 e)
  · exact h

@[simp] theorem flushIdle_canonical (c : Cl) (s : State) (h : s.Canonical) : (flushIdle c s).Canonical := by
  unfold flushIdle; dsimp only; (repeat' split) <;> simp [h]

@[simp] theorem endCycle_canonical (s : State) (c : Cl) (h : s.Canonical) : (endCycle s c).Canonical := by
  unfold endCycle
  split
  · exact h
  · refine flushIdle_canonical c _ ?_
    rw [State.Canonical, foldl_mem (deliverDue_mem c)]
    exact h

@[simp] theorem actCycle_canonical (s : State) (c : Cl) (h : s.Canonical) : (actCycle s c).Canonical :=
  foldl_canonical (testWait_canonical c) _ (foldl_canonical (performStrand_canonical c) _ h)

@[simp] theorem nextCycle_canonical (s : State) (h : s.Canonical) : (nextCycle s).Canonical := by
  unfold nextCycle
  extract_lets cs s1 s2
  have h1 : s1.Canonical := foldl_canonical actCycle_canonical _ h
  have h2 : s2.Canonical := by unfold s2; split <;> exact h1
  exact foldl_canonical endCycle_canonical _ h2

@[simp] theorem matrixRow_keepsForm (op : Nat) (c : Cl) (t : Tl) (s : State) (h : s.Canonical) :
    KeepsForm (matrixRow op c t s) := by
  unfold matrixRow; split <;> simp [h]

@[simp] theorem vectorRow_keepsForm (op : Nat) (c : Cl) (t : Tl) (s : State) (h : s.Canonical) :
    KeepsForm (vectorRow op c t s) := by
  unfold vectorRow; split <;> simp [h]

@[simp] theorem moveRow_keepsForm (op : Nat) (c : Cl) (t : Tl) (e : Eng) (s : State) (h : s.Canonical) :
    KeepsForm (moveRow op c t e s) := by
  unfold moveRow; split <;> simp [h]

@[simp] theorem rowOf_keepsForm (c : Cl) (t : Tl) (e : Eng) (s : State) (h : s.Canonical) :
    KeepsForm (rowOf c t e s) := by
  unfold rowOf; (repeat' split) <;> simp [h]

@[simp] theorem runRowWork_keepsForm (c : Cl) (t : Tl) (e : Eng) (s : State) (h : s.Canonical) :
    KeepsForm (runRowWork c t e s) := by
  have h1 := rowOf_keepsForm c t e s h
  unfold runRowWork
  extract_lets before
  split
  · rename_i s1 e1
    have h2 : s1.Canonical := h1 s1 e1
    simp [h2]
  · exact h1

@[simp] theorem runWork_keepsForm (w : Work) (s : State) (h : s.Canonical) : KeepsForm (runWork w s) := by
  cases w with
  | launchPacket q =>
    have h1 := execLaunchPacket_keepsForm q s h
    unfold runWork
    dsimp only
    split
    · rename_i s1 e
      exact (keepsForm_next _).2 (h1 s1 e)
    · exact h1
  | emitRow | withdraw => unfold runWork; dsimp only; (repeat' split) <;> simp [h]
  | _ => simp [runWork, h]

@[simp] theorem endTick_mem (s : State) : (endTick s).mem = s.mem := by
  unfold endTick
  dsimp only

@[simp] theorem advance_canonical (s : State) (h : s.Canonical) : (advance s).Canonical := by
  unfold advance; split <;> simp [h]

@[simp] theorem stepOne_keepsForm (s : State) (h : s.Canonical) : KeepsForm (stepOne s) := by
  unfold stepOne; (repeat' split) <;> simp [h]

/-! ### Machine/Step -/

@[simp] theorem step_keepsForm (s : State) (h : s.Canonical) : KeepsForm (step s) := by
  simp [step, h]

/-- Settles O6: each of the machine's operations writes memory byte by byte, or drops entries of it, and both keep the form. -/
theorem memoryCanonicalKept : Obligations.MemoryCanonicalKept := fun s t h e => step_keepsForm s h t e

end Sys2Proof.Machine
end

section
/-! PROOF. Rounding of values that a format holds exactly (01 R18, R19, R27). -/

namespace Sys2Proof.Machine

/-! The binary logarithm of a ratio. -/

theorem zpow_log2_bounds {n : Nat} (h : n ≠ 0) : (2 : ℚ) ^ (Nat.log2 n : Int) ≤ n ∧ (n : ℚ) < 2 ^ ((Nat.log2 n : Int) + 1) := by
  have lo := Nat.log2_self_le h
  have hi := Nat.lt_log2_self (n := n)
  constructor
  · rw [zpow_natCast]; exact_mod_cast lo
  · rw [show (Nat.log2 n : Int) + 1 = ((Nat.log2 n + 1 : Nat) : Int) by push_cast; rfl, zpow_natCast]; exact_mod_cast hi

/-- The test that ilog2 makes: the ratio lies below a power of two. -/
theorem below_iff_lt_zpow {num den : Nat} (hd : den ≠ 0) (k : Int) :
    (if 0 ≤ k then num < den * 2 ^ k.toNat else num * 2 ^ (-k).toNat < den) ↔ (num : ℚ) / den < 2 ^ k := by
  have pos : (0 : ℚ) < den := by positivity
  rw [div_lt_iff₀ pos]
  split
  · obtain ⟨n, rfl⟩ := Int.eq_ofNat_of_zero_le ‹0 ≤ k›
    rw [Int.toNat_natCast, zpow_natCast, mul_comm]; norm_cast
  · obtain ⟨n, hn⟩ := Int.eq_ofNat_of_zero_le (show 0 ≤ -k by omega)
    obtain rfl : k = -(n : Int) := by omega
    rw [neg_neg, Int.toNat_natCast, zpow_neg, zpow_natCast, inv_mul_eq_div, lt_div_iff₀ (by positivity)]; norm_cast

/-- The exponent of R27 is the greatest power of two that the ratio reaches. -/
theorem ilog2_eq_log {num den : Nat} (hn : num ≠ 0) (hd : den ≠ 0) : ilog2 num den = Int.log 2 ((num : ℚ) / den) := by
  have two : (1 : Nat) < 2 := by decide
  have pos : (0 : ℚ) < (num : ℚ) / den := by positivity
  obtain ⟨nlo, nhi⟩ := zpow_log2_bounds hn
  obtain ⟨dlo, dhi⟩ := zpow_log2_bounds hd
  have lo : Nat.log2 num - Nat.log2 den - 1 ≤ Int.log 2 ((num : ℚ) / den) := by
    rw [← Int.zpow_le_iff_le_log two pos, le_div_iff₀ (by positivity)]
    calc ((2 : Nat) : ℚ) ^ ((Nat.log2 num : Int) - Nat.log2 den - 1) * den
        ≤ 2 ^ ((Nat.log2 num : Int) - Nat.log2 den - 1) * 2 ^ ((Nat.log2 den : Int) + 1) := by push_cast; gcongr
      _ = 2 ^ (Nat.log2 num : Int) := by rw [← zpow_add₀ two_ne_zero]; congr 1; ring
      _ ≤ num := nlo
  have hi : Int.log 2 ((num : ℚ) / den) < Nat.log2 num - Nat.log2 den + 1 := by
    rw [← Int.lt_zpow_iff_log_lt two pos, div_lt_iff₀ (by positivity)]
    calc (num : ℚ) < 2 ^ ((Nat.log2 num : Int) + 1) := nhi
      _ = ((2 : Nat) : ℚ) ^ ((Nat.log2 num : Int) - Nat.log2 den + 1) * 2 ^ (Nat.log2 den : Int) := by
        push_cast; rw [← zpow_add₀ two_ne_zero]; congr 1; ring
      _ ≤ ((2 : Nat) : ℚ) ^ ((Nat.log2 num : Int) - Nat.log2 den + 1) * den := by gcongr
  unfold ilog2
  have key := Int.lt_zpow_iff_log_lt (R := ℚ) two (x := (Nat.log2 num : Int) - Nat.log2 den) pos
  push_cast at key
  simp only [below_iff_lt_zpow hd, key]
  split <;> omega

/-! Exact rounding. -/

theorem roundUp_zero (rm draw : Nat) (neg : Bool) (lo : Nat) {q : Nat} (hq : 0 < q) : roundUp rm draw neg lo 0 q = false := by
  unfold roundUp; split <;> simp <;> omega

/-- A value M · 2^(E − man) with a mantissa that the format holds at exponent E is its own rounding, in every mode (R27). -/
theorem roundTo_of_representable (f : Fmt) (rm draw : Nat) (sat s : Bool) {num den M : Nat} {E : Int} (hd : den ≠ 0) (hM : M ≠ 0)
    (hval : (num : ℚ) / den = M * 2 ^ (E - f.man)) (hE : 1 - (f.bias : Int) ≤ E) (hlt : M < 2 ^ (f.man + 1))
    (hnorm : E = 1 - f.bias ∨ 2 ^ f.man ≤ M) (hmax : (E - (1 - f.bias)).toNat * 2 ^ f.man + M ≤ f.maxCode) :
    roundTo f rm draw sat (.fin s num den) = (f.signed s ((E - (1 - f.bias)).toNat * 2 ^ f.man + M), .none) := by
  have two : (1 : Nat) < 2 := by decide
  have posM : (0 : ℚ) < M := by positivity
  have posd : (0 : ℚ) < den := by positivity
  have pos : (0 : ℚ) < (num : ℚ) / den := by rw [hval]; positivity
  have hn : num ≠ 0 := by rintro rfl; simp at pos
  have exponent : max (ilog2 num den) (1 - (f.bias : Int)) = E := by
    rw [ilog2_eq_log hn hd]
    have hi : Int.log 2 ((num : ℚ) / den) < E + 1 := by
      rw [← Int.lt_zpow_iff_log_lt two pos, hval]
      calc (M : ℚ) * 2 ^ (E - f.man) < 2 ^ (f.man + 1) * 2 ^ (E - f.man) := by gcongr; exact_mod_cast hlt
        _ = ((2 : Nat) : ℚ) ^ (E + 1) := by
          push_cast; rw [← zpow_natCast, ← zpow_add₀ two_ne_zero]; congr 1; push_cast; ring
    obtain h | h := hnorm
    · omega
    · have lo : E ≤ Int.log 2 ((num : ℚ) / den) := by
        rw [← Int.zpow_le_iff_le_log two pos, hval]
        calc ((2 : Nat) : ℚ) ^ E = 2 ^ f.man * 2 ^ (E - f.man) := by
              push_cast; rw [← zpow_natCast, ← zpow_add₀ two_ne_zero]; congr 1; ring
          _ ≤ M * 2 ^ (E - f.man) := by gcongr; exact_mod_cast h
      omega
  have quotient : (if 0 ≤ E - (f.man : Int) then num else num * 2 ^ (-(E - (f.man : Int))).toNat) =
      M * (if 0 ≤ E - (f.man : Int) then den * 2 ^ (E - (f.man : Int)).toNat else den) := by
    rw [div_eq_iff posd.ne'] at hval
    split
    · obtain ⟨k, hk⟩ := Int.eq_ofNat_of_zero_le ‹0 ≤ E - (f.man : Int)›
      rw [hk, zpow_natCast] at hval
      rw [hk, Int.toNat_natCast]
      have : (num : ℚ) = ((M * (den * 2 ^ k) : Nat) : ℚ) := by rw [hval]; push_cast; ring
      exact_mod_cast this
    · obtain ⟨k, hk⟩ := Int.eq_ofNat_of_zero_le (show 0 ≤ -(E - (f.man : Int)) by omega)
      rw [show E - (f.man : Int) = -(k : Int) by omega, zpow_neg, zpow_natCast] at hval
      rw [hk, Int.toNat_natCast]
      have : ((num * 2 ^ k : Nat) : ℚ) = ((M * den : Nat) : ℚ) := by push_cast; rw [hval]; field_simp
      exact_mod_cast this
  have posq : 0 < (if 0 ≤ E - (f.man : Int) then den * 2 ^ (E - (f.man : Int)).toNat else den) := by
    split <;> positivity
  unfold roundTo
  simp only [hn, if_false, exponent, quotient, Nat.mul_mod_left, Nat.mul_div_cancel _ posq, roundUp_zero rm draw s M posq,
    Bool.toNat_false, Nat.add_zero, Nat.not_lt.2 hmax]
  rfl

theorem roundTo_zero (f : Fmt) (rm draw : Nat) (sat s : Bool) (den : Nat) : roundTo f rm draw sat (.fin s 0 den) = (f.signed s 0, .none) := by
  simp [roundTo]

/-! What a code of FP32 decodes to. -/

@[simp] theorem XVal.scaled_isNan (s : Bool) (n : Nat) (e : Int) : (XVal.scaled s n e).isNan = false := by
  unfold XVal.scaled; split <;> rfl
@[simp] theorem XVal.scaled_sign (s : Bool) (n : Nat) (e : Int) : (XVal.scaled s n e).sign = s := by
  unfold XVal.scaled; split <;> rfl

/-- A scaled value is finite, of a denominator that is not 0, and is what it says. -/
theorem XVal.scaled_eq_fin (s : Bool) (n : Nat) (e : Int) :
    ∃ num den, XVal.scaled s n e = .fin s num den ∧ den ≠ 0 ∧ (num : ℚ) / den = n * 2 ^ e ∧ (num = 0 ↔ n = 0) := by
  unfold XVal.scaled; split
  · obtain ⟨k, rfl⟩ := Int.eq_ofNat_of_zero_le ‹0 ≤ e›
    exact ⟨_, _, rfl, one_ne_zero, by rw [Int.toNat_natCast, zpow_natCast]; push_cast; simp, by simp⟩
  · obtain ⟨k, hk⟩ := Int.eq_ofNat_of_zero_le (show 0 ≤ -e by omega)
    obtain rfl : e = -(k : Int) := by omega
    refine ⟨_, _, rfl, by positivity, ?_, Iff.rfl⟩
    rw [neg_neg, Int.toNat_natCast, zpow_neg, zpow_natCast]; push_cast; rfl

/-- A code of FP32 by its fields (R18, R19). -/
theorem fp32_decode (c : Nat) : fp32.decode c =
    if c / 2 ^ 23 % 2 ^ 8 = 255 then (if c % 2 ^ 23 = 0 then .inf (c / 2 ^ 31 % 2 == 1) else .nan (c / 2 ^ 31 % 2 == 1))
    else if c / 2 ^ 23 % 2 ^ 8 = 0 then XVal.scaled (c / 2 ^ 31 % 2 == 1) (c % 2 ^ 23) (-149)
    else XVal.scaled (c / 2 ^ 31 % 2 == 1) (2 ^ 23 + c % 2 ^ 23) ((c / 2 ^ 23 % 2 ^ 8 : Nat) - 150) := by
  unfold Fmt.decode fp32
  simp only [show (1 : Int) - ((127 : Nat) : Int) - ((23 : Nat) : Int) = -149 by decide, Int.sub_sub,
    show ((127 : Nat) : Int) + ((23 : Nat) : Int) = 150 by decide, show 2 ^ 8 - 1 = 255 by decide, Nat.reduceAdd]

theorem fp32_decode_sign (c : Nat) : (fp32.decode c).sign = (c / 2 ^ 31 % 2 == 1) := by
  rw [fp32_decode]; split_ifs
  · rfl
  · rfl
  · exact XVal.scaled_sign ..
  · exact XVal.scaled_sign ..

theorem fp32_decode_isNan (c : Nat) : (fp32.decode c).isNan = decide (0x7f800000 < c % 2 ^ 31) := by
  rw [fp32_decode]; split_ifs
  · exact (decide_eq_false (by omega)).symm
  · exact (decide_eq_true (by omega)).symm
  · exact (XVal.scaled_isNan ..).trans (decide_eq_false (by omega)).symm
  · exact (XVal.scaled_isNan ..).trans (decide_eq_false (by omega)).symm

/-- A word's low half as FP32. -/
theorem fp32_decode_word_isNan (x : W) : (fp32.decode (x.toNat % 2 ^ 32)).isNan = decide (0x7f800000 < x.toNat % 2 ^ 31) := by
  rw [fp32_decode_isNan]; congr 2; omega

theorem getLsbD_eq_bits {n : Nat} (x : BitVec n) (i : Nat) : x.getLsbD i = (bits x.toNat i 1 == 1) := by
  rw [← BitVec.testBit_toNat, Nat.testBit_eq_decide_div_mod_eq]; rfl

theorem fp32_decode_word_sign (x : W) : (fp32.decode (x.toNat % 2 ^ 32)).sign = x.getLsbD 31 := by
  rw [fp32_decode_sign, getLsbD_eq_bits]; unfold bits; congr 1; omega

end Sys2Proof.Machine
end

section
/-! PROOF. The FP32 words on sign, order and class, the compares and the conversions (01 R20, R32, R33, 04 R107 to R111). -/

namespace Sys2Proof.Machine

/-! Signs and order (R107). -/

/-- The canonical NaN of FP32 (R20). -/
def nanWord : W := 0x7fc00000

/-- A word of FP32 with the magnitude of x and a sign. -/
def withSign (x : W) (neg : Bool) : W := BitVec.ofNat 64 (x.toNat % 2 ^ 31 + if neg then 2 ^ 31 else 0)

theorem withSign_own (x : W) : withSign x (x.getLsbD 31) = BitVec.ofNat 64 (x.toNat % 2 ^ 32) := by
  unfold withSign; congr 1
  rw [getLsbD_eq_bits]; unfold bits; simp only [beq_iff_eq]; split <;> omega

/-- Whether a word of FP32 is a NaN, on its bits. -/
def nanBits (x : W) : Bool := decide (0x7f800000 < x.toNat % 2 ^ 31)

theorem unlessNan_eq (x : W) (v : Nat) : unlessNan x.toNat v = if nanBits x then nanWord else BitVec.ofNat 64 v := by
  unfold unlessNan; rw [fp32_decode_word_isNan]; rfl

theorem withSign_eq (x y : W) : BitVec.ofNat 64 (bits y.toNat 31 1 * 2 ^ 31 + x.toNat % 2 ^ 31) = withSign x (y.getLsbD 31) := by
  have : bits y.toNat 31 1 < 2 := Nat.mod_lt _ (by decide)
  unfold withSign; rw [getLsbD_eq_bits]; simp only [beq_iff_eq]; congr 1; split <;> omega

theorem withSign_not_eq (x : W) : BitVec.ofNat 64 ((1 - bits x.toNat 31 1) * 2 ^ 31 + x.toNat % 2 ^ 31) = withSign x (!x.getLsbD 31) := by
  have : bits x.toNat 31 1 < 2 := Nat.mod_lt _ (by decide)
  unfold withSign; rw [getLsbD_eq_bits]; simp only [Bool.not_eq_true', beq_eq_false_iff_ne]; congr 1; split <;> omega

/-- The order of R107 on words: −0 below +0 by the sign bits. -/
def belowWord (x y : W) : Bool :=
  (f32 x).lt (f32 y) || ((f32 x).isZero && (f32 y).isZero && x.getLsbD 31 && !y.getLsbD 31)

theorem belowF_words (x y : W) : belowF (f32 x) (f32 y) = belowWord x y := by
  unfold belowF belowWord f32; rw [fp32_decode_word_sign, fp32_decode_word_sign]

/-- fmin and fmax of two words: the other operand when it lies on the asked side of the first. -/
theorem fminmax_eq (larger : Bool) (x y : W) : fminmax larger x.toNat y.toNat =
    if nanBits x || nanBits y then nanWord
    else if (if larger then belowWord x y else belowWord y x) then withSign y (y.getLsbD 31) else withSign x (x.getLsbD 31) := by
  unfold fminmax
  simp only [← belowF_words, withSign_own, fp32_decode_word_isNan]
  unfold nanBits nanWord f32
  congr 1
  cases larger <;> simp only [Bool.false_eq_true, if_false, if_true] <;> split <;> rfl

/-- A word on the bits of one FP32 operand. -/
theorem writesReg_fpBits1 {i : Instr} {f : Nat → W} {v : W → W} {m : Marks} {d a : Sreg} (hi : ∀ s, exec i s = fpBits1 f m d a s)
    (hv : ∀ x : W, f x.toNat = v x) : WritesReg i [d.toNat, a.toNat] d (fun s => v (rd s a 1)) 4 (fun _ => some 0) :=
  writesReg_of_eq (m := m) hi fun _ => hv _

/-- A word on the bits of two. -/
theorem writesReg_fpBits2 {i : Instr} {f : Nat → Nat → W} {v : W → W → W} {m : Marks} {d a b : Sreg}
    (hi : ∀ s, exec i s = fpBits2 f m d a b s) (hv : ∀ x y : W, f x.toNat y.toNat = v x y) :
    WritesReg i [d.toNat, a.toNat, b.toNat] d (fun s => v (rd s a 1) (rd s b 2)) 4 (fun _ => some 0) :=
  writesReg_of_eq (m := m) hi fun _ => hv _ _

/-! Classes (R108). -/

theorem fclassOf_of_nan {a : Nat} {sg : Bool} (h : fp32.decode (a % 2 ^ 32) = .nan sg) :
    fclassOf a = BitVec.ofNat 64 (4 + 8 * bits a 31 1 + 16 * 0 + 256 * bits a 23 8) := by
  unfold fclassOf; rw [h]; rfl

theorem fclassOf_of_inf {a : Nat} {sg : Bool} (h : fp32.decode (a % 2 ^ 32) = .inf sg) :
    fclassOf a = BitVec.ofNat 64 (3 + 8 * bits a 31 1 + 16 * 0 + 256 * bits a 23 8) := by
  unfold fclassOf; rw [h]; rfl

theorem fclassOf_of_fin {a n k : Nat} {sg : Bool} (h : fp32.decode (a % 2 ^ 32) = .fin sg n k) :
    fclassOf a = BitVec.ofNat 64 ((if n = 0 then 0 else if bits a 23 8 = 0 then 1 else 2) + 8 * bits a 31 1 +
      16 * (n % k == 0).toNat + 256 * bits a 23 8) := by
  unfold fclassOf; rw [h]

/-- The class of R108 by the fields of the word. -/
def classOf (x : W) : Nat :=
  if bits x.toNat 23 8 = 255 then (if bits x.toNat 0 23 = 0 then 3 else 4)
  else if bits x.toNat 23 8 = 0 then (if bits x.toNat 0 23 = 0 then 0 else 1) else 2

theorem classOf_le (x : W) : classOf x ≤ 4 := by unfold classOf; split_ifs <;> decide

/-- The value of a word by its class: a NaN, an infinity, or finite and 0 just in class 0. -/
theorem fp32_decode_word (x : W) :
    (∃ sg, fp32.decode (x.toNat % 2 ^ 32) = .nan sg ∧ classOf x = 4) ∨ (∃ sg, fp32.decode (x.toNat % 2 ^ 32) = .inf sg ∧ classOf x = 3) ∨
      ∃ sg n k, fp32.decode (x.toNat % 2 ^ 32) = .fin sg n k ∧ classOf x = if n = 0 then 0 else if bits x.toNat 23 8 = 0 then 1 else 2 := by
  have he : x.toNat % 2 ^ 32 / 2 ^ 23 % 2 ^ 8 = bits x.toNat 23 8 := by unfold bits; omega
  have hm : x.toNat % 2 ^ 32 % 2 ^ 23 = bits x.toNat 0 23 := by unfold bits; omega
  rw [fp32_decode, he, hm]
  unfold classOf
  by_cases h255 : bits x.toNat 23 8 = 255
  · by_cases h0 : bits x.toNat 0 23 = 0
    · exact .inr (.inl ⟨_, by rw [if_pos h255, if_pos h0], by rw [if_pos h255, if_pos h0]⟩)
    · exact .inl ⟨_, by rw [if_pos h255, if_neg h0], by rw [if_pos h255, if_neg h0]⟩
  · simp only [if_neg h255]
    by_cases h0 : bits x.toNat 23 8 = 0
    · simp only [if_pos h0]
      obtain ⟨n, k, h, -, -, hz⟩ := XVal.scaled_eq_fin (x.toNat % 2 ^ 32 / 2 ^ 31 % 2 == 1) (bits x.toNat 0 23) (-149)
      exact .inr (.inr ⟨_, n, k, h, by simp only [hz]⟩)
    · simp only [if_neg h0]
      obtain ⟨n, k, h, -, -, hz⟩ :=
        XVal.scaled_eq_fin (x.toNat % 2 ^ 32 / 2 ^ 31 % 2 == 1) (2 ^ 23 + bits x.toNat 0 23) ((bits x.toNat 23 8 : Nat) - 150)
      exact .inr (.inr ⟨_, n, k, h, by rw [if_neg (by rw [hz]; omega)]⟩)

/-- What fclass answers, field by field; int says whether the value is an integer. -/
theorem fclassOf_eq (x : W) : ∃ int, (fclassOf x.toNat).toNat = classOf x + 8 * bits x.toNat 31 1 + 16 * int + 256 * bits x.toNat 23 8 ∧
    int < 2 ∧ (int = 1 ↔ ∃ sg n k, fp32.decode (x.toNat % 2 ^ 32) = .fin sg n k ∧ k ∣ n) := by
  have hs : bits x.toNat 31 1 < 2 := Nat.mod_lt _ (by decide)
  have he : bits x.toNat 23 8 < 256 := Nat.mod_lt _ (by decide)
  have hc := classOf_le x
  obtain ⟨sg, h, hx⟩ | ⟨sg, h, hx⟩ | ⟨sg, n, k, h, hx⟩ := fp32_decode_word x
  · exact ⟨0, by rw [fclassOf_of_nan h, BitVec.toNat_ofNat]; omega, by decide, by rw [h]; simp⟩
  · exact ⟨0, by rw [fclassOf_of_inf h, BitVec.toNat_ofNat]; omega, by decide, by rw [h]; simp⟩
  · have hi := Bool.toNat_lt (n % k == 0)
    refine ⟨(n % k == 0).toNat, by rw [fclassOf_of_fin h, BitVec.toNat_ofNat, ← hx]; omega, hi, ?_⟩
    rw [h]; simp [Nat.dvd_iff_mod_eq_zero]

/-- fclass on every word. -/
theorem fclassOf_fields (x : W) : (fclassOf x.toNat).toNat < 2 ^ 16 ∧ bits (fclassOf x.toNat).toNat 5 3 = 0 ∧
    bits (fclassOf x.toNat).toNat 8 8 = bits x.toNat 23 8 ∧ (fclassOf x.toNat).getLsbD 3 = x.getLsbD 31 ∧
    bits (fclassOf x.toNat).toNat 0 3 = classOf x ∧
    ((fclassOf x.toNat).getLsbD 4 = true ↔ ∃ sg n k, fp32.decode (x.toNat % 2 ^ 32) = .fin sg n k ∧ k ∣ n) := by
  obtain ⟨int, h, hi, hint⟩ := fclassOf_eq x
  have hs : bits x.toNat 31 1 < 2 := Nat.mod_lt _ (by decide)
  have he : bits x.toNat 23 8 < 256 := Nat.mod_lt _ (by decide)
  have hc := classOf_le x
  have field (lo len : Nat) : bits (fclassOf x.toNat).toNat lo len =
      (classOf x + 8 * bits x.toNat 31 1 + 16 * int + 256 * bits x.toNat 23 8) / 2 ^ lo % 2 ^ len := by rw [h]; rfl
  refine ⟨by omega, by rw [field]; omega, by rw [field]; omega, ?_, by rw [field]; omega, ?_⟩
  · rw [getLsbD_eq_bits, getLsbD_eq_bits, field]; congr 1; omega
  · rw [getLsbD_eq_bits, field, ← hint, beq_iff_eq]; omega

/-! Compares (R109). -/

/-- A compare word. -/
theorem writesPred_fcmp {i : Instr} {c : XVal → XVal → Bool} {m : Marks} {p : Preg} {a b : Sreg} (hi : ∀ s, exec i s = fcmp c m p a b s) :
    WritesPred i [a.toNat, b.toNat] p
      (fun s => c (fp32.decode ((rd s a 1).toNat % 2 ^ 32)) (fp32.decode ((rd s b 2).toNat % 2 ^ 32))) 4 (fun _ => some 0) :=
  writesPred_of (m := m) hi fun _ => rfl

theorem XVal.lt_of_isNan {u v : XVal} (h : u.isNan = true ∨ v.isNan = true) : u.eqv v = false ∧ u.lt v = false := by
  constructor
  · unfold XVal.eqv; obtain h | h := h <;> simp [h]
  · cases u <;> cases v <;> simp_all [XVal.isNan, XVal.lt]

theorem XVal.isZero_eq {u : XVal} (h : u.isZero = true) : ∃ s d, u = .fin s 0 d := by
  cases u with
  | nan _ => cases h
  | inf _ => cases h
  | fin s n d => exact ⟨s, d, by rw [show n = 0 by simpa [XVal.isZero] using h]⟩

theorem XVal.lt_of_isZero {u v : XVal} (hu : u.isZero = true) (hv : v.isZero = true) : u.lt v = false := by
  obtain ⟨s, d, rfl⟩ := XVal.isZero_eq hu
  obtain ⟨t, e, rfl⟩ := XVal.isZero_eq hv
  cases s <;> cases t <;> simp [XVal.lt, sgnNum]

theorem XVal.not_isNan_of_isZero {u : XVal} (h : u.isZero = true) : u.isNan = false := by
  obtain ⟨s, d, rfl⟩ := XVal.isZero_eq h; rfl

theorem XVal.eqv_of_isZero {u v : XVal} (hu : u.isZero = true) (hv : v.isZero = true) : u.eqv v = true := by
  unfold XVal.eqv
  rw [XVal.lt_of_isZero hu hv, XVal.lt_of_isZero hv hu, XVal.not_isNan_of_isZero hu, XVal.not_isNan_of_isZero hv]; rfl

theorem sgnNum_mul (s : Bool) (n k : Nat) : sgnNum s (n * k) = sgnNum s n * k := by
  unfold sgnNum; split <;> push_cast <;> ring

theorem XVal.lt_fin (s t : Bool) (n k i j : Nat) : (XVal.fin s n k).lt (.fin t i j) = decide (sgnNum s n * j < sgnNum t i * k) := by
  rw [← sgnNum_mul, ← sgnNum_mul]; rfl

/-! Conversions (R111). -/

/-- A conversion word. -/
theorem writesReg_cvtWord {i : Instr} {f : W → W × FlagSet} {m : Marks} {d a : Sreg} (hi : ∀ s, exec i s = cvtWord f m d a s) :
    WritesReg i [d.toNat, a.toNat] d (fun s => (f (rd s a 1)).1) 4 (fun s => some (f (rd s a 1)).2.bits) :=
  writesReg_of (m := m) hi

theorem ofNat_emod_eq_ofInt (i : Int) : BitVec.ofNat 64 (i % (2 ^ 64 : Nat)).toNat = BitVec.ofInt 64 i := by
  apply BitVec.eq_of_toNat_eq
  rw [BitVec.toNat_ofNat, BitVec.toNat_ofInt]
  have := Int.emod_lt_of_pos i (show (0 : Int) < (2 ^ 64 : Nat) by decide)
  omega

/-- The limits of the integers to which cvtFI converts (R33). -/
def intLo (u : Bool) : Int := if u then 0 else -(2 ^ 63)
def intHi (u : Bool) : Int := if u then 2 ^ 64 - 1 else 2 ^ 63 - 1

/-- What cvtFI answers: an integer word and its flags. -/
def toWord (u : Bool) (rm : BitVec 3) (v : XVal) : W × FlagSet :=
  (BitVec.ofNat 64 (toIntTy 64 (!u) rm.toNat 0 true v).1, (toIntTy 64 (!u) rm.toNat 0 true v).2)

theorem toWord_nan (u : Bool) (rm : BitVec 3) (neg : Bool) : toWord u rm (.nan neg) = (0, { nv := true }) := rfl

theorem toWord_inf (u : Bool) (rm : BitVec 3) (neg : Bool) :
    toWord u rm (.inf neg) = (BitVec.ofInt 64 (if neg then intLo u else intHi u), { nv := true }) := by
  cases u <;> cases neg <;> rfl

theorem toWord_fin (u : Bool) (rm : BitVec 3) (neg : Bool) (n k : Nat) :
    toWord u rm (.fin neg n k) = if (roundInt rm.toNat 0 neg n k).1 < intLo u then (BitVec.ofInt 64 (intLo u), { nv := true })
      else if intHi u < (roundInt rm.toNat 0 neg n k).1 then (BitVec.ofInt 64 (intHi u), { nv := true })
      else (BitVec.ofInt 64 (roundInt rm.toNat 0 neg n k).1, { nx := (roundInt rm.toNat 0 neg n k).2 }) := by
  unfold toWord toIntTy
  dsimp only
  generalize (roundInt rm.toNat 0 neg n k).1 = i
  generalize (roundInt rm.toNat 0 neg n k).2 = inexact
  have lo : (if (!u) = true then -((2 ^ (64 - 1) : Nat) : Int) else 0) = intLo u := by cases u <;> rfl
  have hi : (if (!u) = true then ((2 ^ (64 - 1) : Nat) : Int) - 1 else ((2 ^ 64 : Nat) : Int) - 1) = intHi u := by cases u <;> rfl
  simp only [lo, hi, if_true]
  have lo0 : intLo u ≤ 0 := by cases u <;> decide
  have hi0 : 0 ≤ intHi u := by cases u <;> decide
  by_cases below : i < intLo u
  · rw [if_pos (Or.inl below), if_pos below, decide_eq_true (show i < 0 by omega)]
    simp only [if_true, ofNat_emod_eq_ofInt]
  · rw [if_neg below]
    by_cases above : intHi u < i
    · rw [if_pos (Or.inr above), if_pos above, decide_eq_false (show ¬i < 0 by omega)]
      simp only [Bool.false_eq_true, if_false, ofNat_emod_eq_ofInt]
    · rw [if_neg above, if_neg (by omega)]
      simp only [ofNat_emod_eq_ofInt]

/-- A code of BF16 by its fields (R18, R19). -/
theorem bf16_decode (c : Nat) : bf16.decode c =
    if c / 2 ^ 7 % 2 ^ 8 = 255 then (if c % 2 ^ 7 = 0 then .inf (c / 2 ^ 15 % 2 == 1) else .nan (c / 2 ^ 15 % 2 == 1))
    else if c / 2 ^ 7 % 2 ^ 8 = 0 then XVal.scaled (c / 2 ^ 15 % 2 == 1) (c % 2 ^ 7) (-133)
    else XVal.scaled (c / 2 ^ 15 % 2 == 1) (2 ^ 7 + c % 2 ^ 7) ((c / 2 ^ 7 % 2 ^ 8 : Nat) - 134) := by
  unfold Fmt.decode bf16
  simp only [show (1 : Int) - ((127 : Nat) : Int) - ((7 : Nat) : Int) = -133 by decide, Int.sub_sub,
    show ((127 : Nat) : Int) + ((7 : Nat) : Int) = 134 by decide, show 2 ^ 8 - 1 = 255 by decide, Nat.reduceAdd]

/-- The sign bit of a code of FP32. -/
theorem fp32_signed (s : Bool) (c : Nat) : fp32.signed s c = c + if s then 2 ^ 31 else 0 := by cases s <;> rfl

/-- A value of BF16's precision, in FP32 (R32): a mantissa m of BF16 at exponent code e. -/
theorem roundTo_fp32_scaled (rm : Nat) (s : Bool) {m e : Nat} (he : 0 < e) (h255 : e < 255) (hm : m < 2 ^ 8) (hnorm : e = 1 ∨ 2 ^ 7 ≤ m) :
    (roundTo fp32 rm 0 false (XVal.scaled s m ((e : Int) - 134))).1 = (2 ^ 7 * (e - 1) + m) * 2 ^ 16 + if s then 2 ^ 31 else 0 := by
  obtain ⟨num, den, h, hd, hval, hz⟩ := XVal.scaled_eq_fin s m ((e : Int) - 134)
  rw [h]
  by_cases h0 : m = 0
  · obtain rfl := hz.2 h0
    obtain rfl : e = 1 := by omega
    rw [roundTo_zero, h0, fp32_signed]; rfl
  · have same : (num : ℚ) / den = (m * 2 ^ 16 : Nat) * 2 ^ ((e : Int) - 127 - (23 : Nat)) := by
      rw [hval]; push_cast
      rw [show (e : Int) - 127 - 23 = (e : Int) - 134 - 16 by ring, zpow_sub₀ two_ne_zero ((e : Int) - 134)]
      norm_num; ring
    have code : ((e : Int) - 127 - (1 - (127 : Nat))).toNat * 2 ^ 23 + m * 2 ^ 16 = (2 ^ 7 * (e - 1) + m) * 2 ^ 16 := by
      rw [show ((e : Int) - 127 - (1 - (127 : Nat))).toNat = e - 1 by omega]; ring
    have rounded := roundTo_of_representable fp32 rm 0 false s hd (M := m * 2 ^ 16) (E := (e : Int) - 127) (by omega) same
      (show 1 - ((127 : Nat) : Int) ≤ (e : Int) - 127 by omega) (show m * 2 ^ 16 < 2 ^ (23 + 1) by omega)
      (show (e : Int) - 127 = 1 - (127 : Nat) ∨ 2 ^ 23 ≤ m * 2 ^ 16 by omega)
      (show ((e : Int) - 127 - (1 - (127 : Nat))).toNat * 2 ^ 23 + m * 2 ^ 16 ≤ 0x7f7fffff by omega)
    rw [rounded, fp32_signed]
    exact congrArg (· + if s then 2 ^ 31 else 0) code

/-- BF16 widens exactly, in every mode (R32). -/
theorem roundTo_fp32_bf16 (rm c : Nat) (hc : c < 2 ^ 16) : (roundTo fp32 rm 0 false (bf16.decode c)).1 =
    if 0x7f80 < c % 2 ^ 15 then (if c / 2 ^ 15 % 2 = 1 then 0xffc00000 else 0x7fc00000) else c * 2 ^ 16 := by
  have sign : (if (c / 2 ^ 15 % 2 == 1) = true then 2 ^ 31 else 0) = c / 2 ^ 15 * 2 ^ 31 := by
    simp only [beq_iff_eq]; split <;> omega
  rw [bf16_decode]
  by_cases h255 : c / 2 ^ 7 % 2 ^ 8 = 255
  · rw [if_pos h255]
    by_cases h0 : c % 2 ^ 7 = 0
    · rw [if_pos h0, if_neg (by omega)]
      show fp32.signed _ (255 * 2 ^ 23) = _
      rw [fp32_signed, sign]; omega
    · rw [if_neg h0, if_pos (by omega)]
      show fp32.signed _ 0x7fc00000 = _
      rw [fp32_signed, sign]; split <;> omega
  · rw [if_neg h255, if_neg (show ¬0x7f80 < c % 2 ^ 15 by omega)]
    by_cases h0 : c / 2 ^ 7 % 2 ^ 8 = 0
    · have subnormal := roundTo_fp32_scaled rm (c / 2 ^ 15 % 2 == 1) (m := c % 2 ^ 7) (e := 1) (by omega) (by omega) (by omega) (.inl rfl)
      rw [if_pos h0]; exact subnormal.trans (by rw [sign]; omega)
    · rw [if_neg h0, roundTo_fp32_scaled rm _ (by omega) (by omega) (by omega) (.inr (by omega)), sign]; omega

theorem cvtBfF_word (rm : Nat) (w : W) : BitVec.ofNat 64 (roundTo fp32 rm 0 false (bf16.decode (w.toNat % 2 ^ 16))).1 =
    if 0x7f80 < w.toNat % 2 ^ 15 then (if w.getLsbD 15 then 0xffc00000 else 0x7fc00000) else BitVec.ofNat 64 (w.toNat % 2 ^ 16 * 2 ^ 16) := by
  rw [roundTo_fp32_bf16 rm _ (Nat.mod_lt _ (by decide)), getLsbD_eq_bits, show w.toNat % 2 ^ 16 % 2 ^ 15 = w.toNat % 2 ^ 15 by omega,
    show w.toNat % 2 ^ 16 / 2 ^ 15 % 2 = bits w.toNat 15 1 by unfold bits; omega]
  simp only [beq_iff_eq]
  split_ifs <;> rfl

/-- Settles O14. -/
theorem fpSignCompareConvertWords : Obligations.FpSignCompareConvertWords := by
  unfold Obligations.FpSignCompareConvertWords
  refine ⟨fun m d a b => ⟨?_, ?_, ?_, ?_, ?_, fun x => fclassOf x.toNat, ?_, fclassOf_fields⟩,
    fun m p a b => ⟨?_, ?_, ?_, ?_, ?_, ?_, ?_, ?_⟩,
    fun m d a u rm => ⟨?_, ?_, ⟨toWord u rm, ?_, toWord_nan u rm, toWord_inf u rm, toWord_fin u rm⟩, ⟨_, ?_, cvtBfF_word rm.toNat⟩⟩⟩
  · exact writesReg_fpBits1 (m := m) (f := fun x => unlessNan x (x % 2 ^ 31))
      (v := fun x => if nanBits x then nanWord else withSign x false) (fun _ => rfl) fun x => unlessNan_eq x _
  · exact writesReg_fpBits1 (m := m) (f := fun x => unlessNan x ((1 - bits x 31 1) * 2 ^ 31 + x % 2 ^ 31))
      (v := fun x => if nanBits x then nanWord else withSign x (!x.getLsbD 31)) (fun _ => rfl) fun x => by rw [unlessNan_eq, withSign_not_eq]
  · exact writesReg_fpBits2 (m := m) (f := fun x y => unlessNan x (bits y 31 1 * 2 ^ 31 + x % 2 ^ 31))
      (v := fun x y => if nanBits x then nanWord else withSign x (y.getLsbD 31)) (fun _ => rfl) fun x y => by rw [unlessNan_eq, withSign_eq]
  · exact writesReg_fpBits2 (m := m) (f := fminmax false) (fun _ => rfl) (fminmax_eq false)
  · exact writesReg_fpBits2 (m := m) (f := fminmax true) (fun _ => rfl) (fminmax_eq true)
  · exact writesReg_fpBits1 (m := m) (v := fun x => fclassOf x.toNat) (fun _ => rfl) fun _ => rfl
  · exact writesPred_fcmp (m := m) (c := fun x y => x.eqv y) fun _ => rfl
  · exact writesPred_fcmp (m := m) (c := fun x y => x.lt y) fun _ => rfl
  · exact writesPred_fcmp (m := m) (c := fun x y => x.lt y || x.eqv y) fun _ => rfl
  · exact writesPred_fcmp (m := m) (c := fun x y => x.isNan || y.isNan) fun _ => rfl
  · exact fun u v => XVal.lt_of_isNan
  · exact fun u v hu hv => ⟨XVal.eqv_of_isZero hu hv, XVal.lt_of_isZero hu hv⟩
  · exact fun s n k t i j => XVal.lt_fin s t n k i j
  · exact fun s n k => ⟨rfl, rfl⟩
  · exact writesReg_cvtWord (m := m)
      (f := fun x => fround rm.toNat .none (.ofInt (if u then (x.toNat : Int) else x.toInt))) fun _ => rfl
  · exact writesReg_cvtWord (m := m)
      (f := fun x => (BitVec.ofNat 64 (roundTo bf16 rm.toNat 0 false (f32 x)).1, (roundTo bf16 rm.toNat 0 false (f32 x)).2)) fun _ => rfl
  · exact writesReg_cvtWord (m := m) (f := fun x => toWord u rm (f32 x)) fun _ => rfl
  · exact writesReg_cvtWord (m := m)
      (f := fun x => (BitVec.ofNat 64 (roundTo fp32 rm.toNat 0 false (bf16.decode (x.toNat % 2 ^ 16))).1, .none)) fun _ => rfl

end Sys2Proof.Machine
end

section
/-! PROOF. Accesses of a step, one after another: reads that leave the run, writes that follow one another, groups of a row (07 R200). -/

namespace Sys2Proof.Machine

/-! Runs of a block of one element or one row. -/

theorem GoesNow.plain {s : State} {v : Site} {b : Entry} {op : Nat} (h : GoesNow s v b op) : Plain v ⟨s, b, 0, [], [], none⟩ :=
  ⟨⟨rfl, h.clean, h.noAudit, h.quiet⟩, h.noFlush⟩

/-! One element at its place. -/

theorem readVal_at {v : Site} {o l n : Nat} {i : List Nat} {r : Run} (hr : Plain v r) (h : At v r.b.f o (addrOf r.b.f o i v.t) l n)
    (hn : unitOf (tyOf r.b.f o) ≤ n) :
    readVal v o (tyOf r.b.f o) (.loc (byteOf (tyOf r.b.f o) l) (spaceOf r.b.f o), addrOf r.b.f o i v.t % 2) r =
      .ok (valOf (tyOf r.b.f o) (codeAt r.s (tyOf r.b.f o) l), r) := by
  have hp : Present r.s (byteOf (tyOf r.b.f o) l) := by have := h.present r.s (i := 0) (lt_of_lt_of_le (unitOf_pos _) hn); simpa using this
  unfold readVal
  rw [EngM.bind_ok (readCode_loc hr (.of_ne h.notVault) hp (notHot h.own.1 _) fun h5 => (h.own.2.2.2 h5).symm)]
  rfl

theorem writeCode_at {v : Site} {o l n code : Nat} {i : List Nat} {r : Run} (hr : Plain v r) (hm : r.s.memWf)
    (h : At v r.b.f o (addrOf r.b.f o i v.t) l n) (hn : unitOf (tyOf r.b.f o) ≤ n) :
    ∃ r1, writeCode v o (tyOf r.b.f o) (.loc (byteOf (tyOf r.b.f o) l) (spaceOf r.b.f o), addrOf r.b.f o i v.t % 2) code r = .ok (⟨⟩, r1) ∧
      Wrote r r1 (codeTo r.b.f o l code) :=
  writeCode_loc hr.toCalm (.of_ne h.notVault) hm (fun _ hi => h.present r.s (lt_of_lt_of_le hi hn)) (notHot h.own.1)
    fun h5 => (h.own.2.2.2 h5).symm

theorem writeVal_own {v : Site} {l n i0 : Nat} {sat : Bool} {y : Val} {i : List Nat} {r : Run} (hr : Plain v r) (hm : r.s.memWf)
    (h : At v r.b.f 0 (addrOf r.b.f 0 i v.t) l n) (hn : unitOf (tyOf r.b.f 0) ≤ n) (h5 : rmOf r.b.f ≠ 5) :
    ∃ r1, writeVal v (tyOf r.b.f 0) (.loc (byteOf (tyOf r.b.f 0) l) (spaceOf r.b.f 0), addrOf r.b.f 0 i v.t % 2) i0 sat y r = .ok (⟨⟩, r1) ∧
      Wrote r r1 (codeToD r.b.f l (codeUnder r.b.f sat (tyOf r.b.f 0) y)) :=
  writeVal_at hr (.of_ne h.notVault) hm (fun _ hi => h.present r.s (lt_of_lt_of_le hi hn)) (notHot h.own.1)
    (fun h5 => (h.own.2.2.2 h5).symm) h5

theorem Wrote.count {r r1 : Run} {ws : List Stored} (h : Wrote r r1 ws) : r1.b.n = r.b.n := by
  have e := congrArg Entry.n h.entry; exact e

/-! Lists of accesses. -/

/-- Reads that leave the run as it is, in order. -/
theorem mapM_reads {α β : Type} {g : α → EngM β} {y : α → β} {r : Run} :
    ∀ {l : List α}, (∀ a ∈ l, g a r = .ok (y a, r)) → l.mapM g r = .ok (l.map y, r)
  | [], _ => by rw [List.mapM_nil]; rfl
  | a :: l, h => by
    rw [List.mapM_cons, EngM.bind_ok (h a List.mem_cons_self), EngM.bind_ok (mapM_reads fun b hb => h b (List.mem_cons_of_mem _ hb))]
    rfl

/-- Writes that follow one another. -/
theorem mapM_writes {α : Type} {g : α → EngM Unit} {ws : α → List Stored} {r0 : Run} {l : List α}
    (h : ∀ a ∈ l, ∀ r us, Wrote r0 r us → ∃ r1, g a r = .ok (⟨⟩, r1) ∧ Wrote r r1 (ws a)) :
    ∃ us r1, l.mapM g r0 = .ok (us, r1) ∧ Wrote r0 r1 (l.flatMap ws) := by
  suffices key : ∀ (l' : List α), (∀ a ∈ l', a ∈ l) → ∀ r us, Wrote r0 r us →
      ∃ ys r1, l'.mapM g r = .ok (ys, r1) ∧ Wrote r r1 (l'.flatMap ws) from key l (fun _ ha => ha) r0 [] (.refl r0)
  intro l'
  induction l' with
  | nil => exact fun _ r us _ => ⟨[], r, by rw [List.mapM_nil]; rfl, .refl r⟩
  | cons a l' ih =>
    intro hl r us hr
    obtain ⟨r1, h1, w1⟩ := h a (hl a List.mem_cons_self) r us hr
    obtain ⟨ys, r2, h2, w2⟩ := ih (fun b hb => hl b (List.mem_cons_of_mem _ hb)) r1 _ (hr.trans w1)
    refine ⟨⟨⟩ :: ys, r2, ?_, w1.trans w2⟩
    rw [List.mapM_cons, EngM.bind_ok h1, EngM.bind_ok h2]; rfl

/-! What a write leaves of memory. -/

/-- The bytes that a write can change: the first, and how many. -/
def Stored.span : Stored → Nat × Nat
  | .bytes a bs => (a, bs.length)
  | .half l _ => (l / 2, 1)

theorem Stored.on_of_outside {m : Nat → Byte} {w : Stored} {y : Nat} (h : ¬(w.span.1 ≤ y ∧ y < w.span.1 + w.span.2)) : w.on m y = m y := by
  cases w with
  | bytes a bs => exact if_neg h
  | half l code => exact if_neg fun e => h ⟨e.ge, by rw [e]; exact Nat.lt_succ_self _⟩

theorem afterWrites_of_outside {y : Nat} : ∀ {ws : List Stored} {m : Nat → Byte},
    (∀ w ∈ ws, ¬(w.span.1 ≤ y ∧ y < w.span.1 + w.span.2)) → afterWrites ws m y = m y
  | [], _, _ => rfl
  | w :: ws, m, h => by
    have rest := afterWrites_of_outside (ws := ws) (m := w.on m) fun u hu => h u (List.mem_cons_of_mem _ hu)
    exact rest.trans (Stored.on_of_outside (h w List.mem_cons_self))

theorem codeTo_span {f : Block} {o l code : Nat} {w : Stored} (h : w ∈ codeTo f o l code) : w.span = elemSpan f o l := by
  unfold codeTo elemSpan at *
  split at h <;> rename_i h5 <;> obtain rfl := List.mem_singleton.1 h
  · rw [if_pos h5]; rfl
  · rw [if_neg h5]; exact congrArg (l, ·) (bytesOf_length ..)

/-- The code at a place depends on the bytes of its element alone. -/
theorem codeAt_congr {s t : State} {f : Block} {o l : Nat}
    (h : ∀ y, (elemSpan f o l).1 ≤ y → y < (elemSpan f o l).1 + (elemSpan f o l).2 → s.byte y = t.byte y) :
    codeAt s (tyOf f o) l = codeAt t (tyOf f o) l := by
  unfold elemSpan at h
  unfold codeAt
  split at h <;> rename_i h5
  · rw [if_pos h5, if_pos h5, h (l / 2) (Nat.le_refl _) (Nat.lt_succ_self _)]
  · rw [if_neg h5, if_neg h5, readHome_eq_map, readHome_eq_map]
    congr 1
    exact List.map_congr_left fun i hi => h _ (Nat.le_add_right _ _) (Nat.add_lt_add_left (List.mem_range.1 hi) l)

/-- An element that all writes stay apart from holds the code it held. -/
theorem Wrote.codeAt_eq {r r1 : Run} {ws : List Stored} {f : Block} {o l : Nat} (h : Wrote r r1 ws)
    (apart : ∀ w ∈ ws, Apart w.span (elemSpan f o l)) : codeAt r1.s (tyOf f o) l = codeAt r.s (tyOf f o) l := by
  refine codeAt_congr fun y lo hi => (h.bytes y).trans (afterWrites_of_outside fun w hw => ?_)
  have := apart w hw
  unfold Apart at this
  omega

/-! Groups of a row. -/

/-- A run k elements into a row, behind some writes. -/
structure GroupsDone (r0 : Run) (k : Nat) (ws : List Stored) (r : Run) : Prop where
  wrote : Wrote r0 { r with b := { r.b with n := r0.b.n } } ws
  at_ : r.b.n = r0.b.n + k

theorem GroupsDone.block {r0 r : Run} {k : Nat} {ws : List Stored} (h : GroupsDone r0 k ws r) : r.b.f = r0.b.f := h.wrote.block

theorem GroupsDone.plain {v : Site} {r0 r : Run} {k : Nat} {ws : List Stored} (h : GroupsDone r0 k ws r) (g : Plain v r0) : Plain v r := by
  have p := h.wrote.plain g
  exact ⟨⟨p.feed, p.clean, p.audit, p.quiet⟩, p.noFlush⟩

theorem GroupsDone.memWf {r0 r : Run} {k : Nat} {ws : List Stored} (h : GroupsDone r0 k ws r) (g : r0.s.memWf) : r.s.memWf := h.wrote.form g

/-- The steps of a row that takes its elements in groups of g. -/
theorem runSteps_groups {step : Nat → EngM Unit} {g n groups : Nat} {r0 : Run} {ws : Nat → List Stored} (hg : 0 < g)
    (hgroups : ∀ m, g * m < n ↔ m < groups)
    (h : ∀ m r, g * m < n → GroupsDone r0 (g * m) ((List.range m).flatMap ws) r → ∃ r1, step (g * m) r = .ok (⟨⟩, r1) ∧ Wrote r r1 (ws m)) :
    ∀ k m r, n ≤ g * m + k → m ≤ groups → GroupsDone r0 (min (g * m) n) ((List.range m).flatMap ws) r →
      ∃ r1, runSteps step g n k (min (g * m) n) r = (r1, none) ∧ GroupsDone r0 n ((List.range groups).flatMap ws) r1 := by
  have finished {m : Nat} {r : Run} (hm : m ≤ groups) (hn : n ≤ g * m) (hr : GroupsDone r0 (min (g * m) n) ((List.range m).flatMap ws) r) :
      GroupsDone r0 n ((List.range groups).flatMap ws) r := by
    have := mt (hgroups m).2 (Nat.not_lt.2 hn)
    obtain rfl : m = groups := by omega
    rwa [Nat.min_eq_right hn] at hr
  intro k
  induction k with
  | zero => exact fun m r hk hm hr => ⟨r, rfl, finished hm (by omega) hr⟩
  | succ k ih =>
    intro m r hk hm hr
    unfold runSteps
    by_cases hn : n ≤ g * m
    · exact ⟨r, if_pos (by omega), finished hm hn hr⟩
    · have hlt : g * m < n := Nat.lt_of_not_le hn
      rw [Nat.min_eq_left hlt.le] at hr ⊢
      obtain ⟨r1, h1, w1⟩ := h m r hlt hr
      have size : g * m + max 1 (min g (n - g * m)) = min (g * (m + 1)) n := by rw [Nat.mul_succ]; omega
      have more : GroupsDone r0 (min (g * (m + 1)) n) ((List.range (m + 1)).flatMap ws)
          { r1 with b := { r1.b with n := r1.b.n + max 1 (min g (n - g * m)) } } := by
        refine ⟨?_, by dsimp only; rw [w1.count, hr.at_]; omega⟩
        rw [List.range_succ, List.flatMap_append, List.flatMap_singleton]
        refine hr.wrote.trans ⟨w1.bytes, w1.form, w1.rest, w1.hot, w1.wrote, w1.names, w1.feed, ?_⟩
        have e := congrArg (fun b : Entry => { b with n := r0.b.n }) w1.entry; exact e
      obtain ⟨r2, h2, d2⟩ := ih (m + 1) _ (by rw [Nat.mul_succ]; omega) ((hgroups m).1 hlt) more
      refine ⟨r2, ?_, d2⟩
      rw [if_neg (by omega), show (step (g * m)).run r = .ok (⟨⟩, r1) from h1]
      simp only [size]
      exact h2

theorem totalOf_row {f : Block} {n : Nat} (hd : ndimOf f = 1) (h0 : extOf f 0 = n) : totalOf f = n := by
  have others (j : Nat) (hj : 1 ≤ j) : extOf f j = 1 := by unfold extOf; rw [hd, if_neg (by omega)]
  unfold totalOf
  simp [List.range, List.range.loop, h0, others]

theorem GroupsDone.stepDone {s : State} {b : Entry} {v : Site} {n : Nat} {ws : List Stored} {r : Run}
    (h : GroupsDone ⟨s, b, 0, [], [], none⟩ n ws r) : StepDone s b v r ws (s.tile v.c v.t) s := by
  have hd := Wrote.done (v := v) h.wrote
  exact ⟨hd.bytes, hd.queues, hd.tile, hd.tiles, hd.core, hd.cores, hd.rest, hd.hot, hd.wrote, hd.seq⟩

/-- An operator that takes a row in groups performs it when the step of each group does. -/
theorem performsRow_groups {i : Cl → Tl → Instr} {op g : Nat} {groups : Nat → Nat} {body : OpBody} {used : Nat → List (Nat × Nat)}
    {ok : Site → Block → Nat → (Nat → Nat → Nat) → Prop} {ws : State → Site → Block → Nat → (Nat → Nat → Nat) → Nat → List Stored}
    (hi : ∀ c t s, exec (i c t) s = operator op body c t .v s) (hg : ∀ f, body.grain f = g) (hwhole : body.whole = true) (hpos : 0 < g)
    (hgroups : ∀ n m, g * m < n ↔ m < groups n)
    (h : ∀ (s : State) (v : Site) (b : Entry) (n : Nat) (x : Nat → Nat → Nat), v.e = .v → OneRow s v b op n →
      (∀ o ∈ used n, ∀ j < o.2, At v b.f o.1 (addrOf b.f o.1 [j] v.t) (x o.1 j) 8) → ok v b.f n x →
      body.clear s v b = true ∧ ∀ m r, g * m < n →
        GroupsDone ⟨s, b, 0, [], [], none⟩ (g * m) ((List.range m).flatMap (ws s v b.f n x)) r →
        ∃ r1, body.step v (g * m) r = .ok (⟨⟩, r1) ∧ Wrote r r1 (ws s v b.f n x m)) :
    PerformsRow i op { used := used, ok := ok, writes := fun s v f n x => (List.range (groups n)).flatMap (ws s v f n x) } := by
  intro s c t b n x v hone hx hok
  obtain ⟨hc, hstep⟩ := h s v b n x rfl hone hx hok
  obtain ⟨r1, hrun, hd⟩ := runSteps_groups hpos (hgroups n) hstep n 0 ⟨s, b, 0, [], [], none⟩ (by omega) (Nat.zero_le _)
    ⟨.refl _, by simp⟩
  have h1 : r1.b.n = n := by rw [hd.at_, show (⟨s, b, 0, [], [], none⟩ : Run).b.n = 0 from hone.first, Nat.zero_add]
  have hrow : runSteps (body.step v) (body.grain b.f) (extOf b.f 0) (if body.whole then extOf b.f 0 else 1) 0 ⟨s, b, 0, [], [], none⟩ =
      (r1, none) := by
    rw [hg, hwhole, if_pos rfl, hone.row]
    rwa [Nat.mul_zero, Nat.zero_min] at hrun
  have done := hd.stepDone (v := v)
  obtain ⟨b2, hs2, hp, hu⟩ := operator_row hone.toGoesNow hc hrow (by rw [totalOf_row hone.dims hone.row, h1]) done.wrote done.hot
  rw [h1] at hp
  exact ⟨_, (hi c t s).trans hu, done.allDone hs2 hp⟩

end Sys2Proof.Machine
end

section
/-! PROOF. Vector functions of one value, by built-in or by table, and block-scaled values in a nest (07 R220 to R225, 01 R41, R42). -/

namespace Sys2Proof.Machine

/-! An element of a nest row, with its operands at hand. -/

/-- A function of A's element, of FP32, is performed on every element of a row. -/
theorem elementwise_stepFunc {i : Cl → Tl → Instr} {op : Nat} {g : State → Site → Block → Nat → XVal} {ticks : State → Site → Entry → Nat}
    (y : Site → Tile → Block → XVal → XVal) (hi : ∀ c t s, exec (i c t) s = operator op (vectorOp (stepFunc g) ticks) c t .v s)
    (hg : ∀ s v f x, g s v f (roundTo fp32 0 0 false x).1 = y v (s.tile v.c v.t) f x) :
    Elementwise i op (fun _ => [1]) fun v t f m x => .f (y v t f (valOn m f 1 (x 1)).real) := by
  refine performsNest_of hi fun s v b n j x q r _ hrow hx hj hin => ?_
  have calm := hin.calm hrow
  have place1 := hin.placed (hx _ (mem_atEach (o := 1) (by simp) hj))
  have place0 := hin.placed (hx _ (mem_atEach (o := 0) (by simp) hj))
  obtain ⟨r1, h1, w1⟩ := writeVal_placed (i0 := j) (sat := satOf r.b.f)
    (y := .f (y v (r.s.tile v.c v.t) r.b.f (valOn r.s.byte r.b.f 1 (x 1 (indexOf b.f (b.n + j)))).real)) calm hin.form place0
  refine ⟨r1, ?_, ?_⟩
  · unfold stepFunc
    rw [EngM.bind_ok (EngM.get_ok r), hin.idx hrow hj j, EngM.bind_ok (valAt_placed calm place1),
      EngM.bind_ok (place0.found calm.feed false true).1, hg]
    exact h1
  · have tile : r.s.tile v.c v.t = s.tile v.c v.t := congrArg (fun c : Core => c.tile v.t) (hin.core v.c)
    rw [tile, hin.block] at w1
    rw [hin.state]; exact w1

/-- The place of a scale halfword in a row. -/
theorem scaleAt_inRow {s : State} {v : Site} {b : Entry} {op n j : Nat} {q : RowState} {r : Run} (h : InRow s v b j q r)
    (g : NestRow s v b op n) (hj : j < n) :
    scaleAt r.b j = fbits b.f 23 0 20 + 2 * (b.n / extOf b.f 0 * ((extOf b.f 0 + 31) / 32) + j / 32) := by
  have row : (b.n + j) / n = b.n / n := by
    obtain ⟨k, hk⟩ := Nat.dvd_of_mod_eq_zero g.start
    rw [hk, Nat.mul_add_div g.some, Nat.div_eq_of_lt hj, Nat.add_zero, Nat.mul_div_cancel_left _ g.some]
  unfold scaleAt; rw [h.block, h.at_, g.row, row]

theorem auxRead_inRow {v : Site} {off n : Nat} {r : Run} (hr : Calm v r) : auxRead v off n r = .ok (tableOn r.s.byte v (off % 2 ^ 20) n, r) := by
  have h := auxRead_own (n := n) hr (Nat.mod_lt off (show 0 < 2 ^ 20 by decide))
  unfold auxRead at h ⊢
  rw [Nat.mod_mod] at h
  rw [h, readHome_eq_map]; rfl

theorem dqblk_performs : PerformsNest .dqblk 0x19
    { used := atEach [0, 1]
      elem := fun v f _ m k j x =>
        let z := zdecode (tableOn m v ((fbits f 23 0 20 + 2 * (k / extOf f 0 * ((extOf f 0 + 31) / 32) + j / 32)) % 2 ^ 20) 2 % 2 ^ 10)
        .value (satOf f) (.f (if z.isNan then .nan false else if z.isZero then .zero else (valOn m f 1 (x 1 (indexOf f (k + j)))).real.mul z)) } := by
  refine performsNest_of (step := stepDqblk) (ticks := laneTicks) (fun _ _ _ => rfl) fun s v b n j x q r _ hrow hx hj hin => ?_
  have calm := hin.calm hrow
  have place1 := hin.placed (hx _ (mem_atEach (o := 1) (by simp) hj))
  have place0 := hin.placed (hx _ (mem_atEach (o := 0) (by simp) hj))
  obtain ⟨r1, h1, w1⟩ := writeVal_placed (i0 := j) (sat := satOf r.b.f)
    (y := .f (scaled (valOn r.s.byte r.b.f 1 (x 1 (indexOf b.f (b.n + j)))).real (tableOn r.s.byte v (scaleAt r.b j % 2 ^ 20) 2 % 2 ^ 10)))
    calm hin.form place0
  refine ⟨r1, ?_, ?_⟩
  · unfold stepDqblk
    rw [EngM.bind_ok (EngM.get_ok r)]; dsimp only
    rw [hin.idx hrow hj j, EngM.bind_ok (valAt_placed calm place1), EngM.bind_ok (auxRead_inRow calm),
      EngM.bind_ok (place0.found calm.feed false true).1]
    exact h1
  · rw [scaleAt_inRow hin hrow hj, hin.block] at w1
    rw [hin.state]; exact w1

/-! Block quantisation (R220). -/

theorem addrOf_row {f : Block} (h : ndimOf f = 1) (o j : Nat) (is : List Nat) (t : Tl) : addrOf f o (j :: is) t = addrOf f o [j] t := by
  unfold addrOf addrAs; rw [h]; rfl

/-- The write of one element of a quantised group (R220): its code under the scale. -/
def quantWrites (s : State) (f : Block) (x : Nat → Nat → Nat) (sc j : Nat) : List Stored :=
  codeToD f (x 0 j) (if sc = 0 ∨ sc = 0x3f8 then 0
    else (roundTo (fmtOf (tyOf f 0)) (rmOf f) 0 true ((valOf (tyOf f 1) (codeAt s (tyOf f 1) (x 1 j))).real.div (zdecode sc))).1)

/-- The elements of group m of a row of n, and their scale. -/
def groupOf (n m : Nat) : List Nat := (List.range (min 32 (n - 32 * m))).map (32 * m + ·)
def groupScale (s : State) (f : Block) (n : Nat) (x : Nat → Nat → Nat) (m : Nat) : Nat :=
  blockScale (tyOf f 0) ((groupOf n m).map fun j => (valOf (tyOf f 1) (codeAt s (tyOf f 1) (x 1 j))).real)

/-- All that a group writes. -/
def groupWrites (s : State) (v : Site) (f : Block) (n : Nat) (x : Nat → Nat → Nat) (m : Nat) : List Stored :=
  .bytes (spadLoc v.c v.t (fbits f 23 0 20 + 2 * m)) (bytesOf 2 (groupScale s f n x m)) ::
    (groupOf n m).flatMap (quantWrites s f x (groupScale s f n x m))

theorem mem_groupOf {n m j : Nat} (h : j ∈ groupOf n m) : j < n ∧ j / 32 = m := by
  unfold groupOf at h
  obtain ⟨k, hk, rfl⟩ := List.mem_map.1 h
  have := List.mem_range.1 hk
  omega

/-- What the statement asks of a row to be quantised. -/
def QuantRow (v : Site) (f : Block) (n : Nat) (x : Nat → Nat → Nat) : Prop :=
  (tyOf f 0 = 4 ∨ tyOf f 0 = 5) ∧ fbits f 23 0 20 + 2 * ((n + 31) / 32) ≤ 0xc0000 ∧
    ∀ i j, i < n → j < n → i / 32 < j / 32 → Apart (elemSpan f 0 (x 0 i)) (elemSpan f 1 (x 1 j)) ∧
      Apart (spadLoc v.c v.t (fbits f 23 0 20 + 2 * (i / 32)), 2) (elemSpan f 1 (x 1 j))

/-- The groups before an element leave it as it was. -/
theorem groupWrites_apart {s : State} {v : Site} {f : Block} {n m j : Nat} {x : Nat → Nat → Nat} (h : QuantRow v f n x) (hj : j < n)
    (hm : j / 32 = m) {w : Stored} (hw : w ∈ (List.range m).flatMap (groupWrites s v f n x)) : Apart w.span (elemSpan f 1 (x 1 j)) := by
  obtain ⟨-, -, apart⟩ := h
  obtain ⟨k, hk, hw⟩ := List.mem_flatMap.1 hw
  have hk := List.mem_range.1 hk
  obtain rfl | hw := List.mem_cons.1 hw
  · have := (apart (32 * k) j (by omega) hj (by omega)).2
    rwa [show 32 * k / 32 = k by omega] at this
  · obtain ⟨i, hi, hw⟩ := List.mem_flatMap.1 hw
    obtain ⟨hin, hik⟩ := mem_groupOf hi
    rw [codeTo_span hw]
    exact (apart i j hin hj (by omega)).1

theorem valAt_row {v : Site} {f : Block} {o j l : Nat} {is : List Nat} {r : Run} (hf : r.b.f = f) (hr : Plain v r) (hd : ndimOf f = 1)
    (h : At v f o (addrOf f o [j] v.t) l 8) : valAt v o (j :: is) r = .ok (valOf (tyOf f o) (codeAt r.s (tyOf f o) l), r) := by
  subst hf
  rw [← addrOf_row hd o j is] at h
  exact valAt_own hr h (unitOf_le _)

/-- The machine's write of an element of a group: its value a under the scale, at index vector i. -/
def writeQuant (v : Site) (f : Block) (sc : Nat) (i : List Nat) (j : Nat) (a : XVal) : EngM Unit := do
  let pd ← placeAt v 0 i false true
  if sc = 0 ∨ sc = 0x3f8 then writeCode v 0 (tyOf f 0) pd 0 else writeVal v (tyOf f 0) pd j true (.f (a.div (zdecode sc)))

theorem stepQblk_eq (v : Site) (i0 : Nat) (r : Run) : stepQblk v i0 r =
    ((((List.range (min 32 (extOf r.b.f 0 - i0))).map (i0 + ·)).mapM fun j => do return (← valAt v 1 (idxAt r.b j)).real) >>= fun xs => do
      auxWrite v (scaleAt r.b i0) 2 (blockScale (tyOf r.b.f 0) xs)
      let _ ← (((List.range (min 32 (extOf r.b.f 0 - i0))).map (i0 + ·)).zip xs).mapM fun x =>
        writeQuant v r.b.f (blockScale (tyOf r.b.f 0) xs) (idxAt r.b x.1) x.1 x.2 : EngM Unit) r := rfl

theorem writeQuant_goes {s : State} {v : Site} {f : Block} {x : Nat → Nat → Nat} {sc j : Nat} {is : List Nat} {r : Run} (hf : r.b.f = f)
    (hr : Plain v r) (hm : r.s.memWf) (h5 : rmOf f ≠ 5) (hty : isFloatTy (tyOf f 0) = true) (hd : ndimOf f = 1)
    (h : At v f 0 (addrOf f 0 [j] v.t) (x 0 j) 8) :
    ∃ r1, writeQuant v f sc (j :: is) j (valOf (tyOf f 1) (codeAt s (tyOf f 1) (x 1 j))).real r = .ok (⟨⟩, r1) ∧
      Wrote r r1 (quantWrites s f x sc j) := by
  subst hf
  rw [← addrOf_row hd 0 j is] at h
  unfold writeQuant quantWrites
  rw [EngM.bind_ok (placeAt_own h (unitOf_le _) hr.feed)]
  split
  · exact writeCode_at hr hm h (unitOf_le _)
  · obtain ⟨r1, h1, w1⟩ := writeVal_own (i0 := j) (sat := true)
      (y := .f ((valOf (tyOf r.b.f 1) (codeAt s (tyOf r.b.f 1) (x 1 j))).real.div (zdecode sc))) hr hm h (unitOf_le _) h5
    refine ⟨r1, h1, ?_⟩
    unfold codeUnder at w1
    rw [hty] at w1
    exact w1

/-- A group of a quantised row: its elements are read, its scale and then its codes are written (R220). -/
theorem stepQblk_group {s : State} {v : Site} {b : Entry} {n m : Nat} {x : Nat → Nat → Nat} {r : Run} (hone : OneRow s v b 0x18 n)
    (hx : ∀ o ∈ [(0, n), (1, n)], ∀ j < o.2, At v b.f o.1 (addrOf b.f o.1 [j] v.t) (x o.1 j) 8) (hok : QuantRow v b.f n x) (hm : 32 * m < n)
    (hr : GroupsDone ⟨s, b, 0, [], [], none⟩ (32 * m) ((List.range m).flatMap (groupWrites s v b.f n x)) r) :
    ∃ r1, stepQblk v (32 * m) r = .ok (⟨⟩, r1) ∧ Wrote r r1 (groupWrites s v b.f n x m) := by
  have block : r.b.f = b.f := hr.block
  have plain : Plain v r := hr.plain hone.toGoesNow.plain
  have form : r.s.memWf := hr.memWf hone.form
  have count : r.b.n = 32 * m := by rw [hr.at_, show (⟨s, b, 0, [], [], none⟩ : Run).b.n = 0 from hone.first, Nat.zero_add]
  have place (o j : Nat) (ho : o = 0 ∨ o = 1) (hj : j < n) : At v b.f o (addrOf b.f o [j] v.t) (x o j) 8 := by
    obtain rfl | rfl := ho
    · exact hx (0, n) (by simp) j hj
    · exact hx (1, n) (by simp) j hj
  have float : isFloatTy (tyOf b.f 0) = true := by obtain h | h := hok.1 <;> rw [h] <;> rfl
  have reads : ((groupOf n m).mapM fun j => do return (← valAt v 1 (idxAt r.b j)).real : EngM (List XVal)) r =
      .ok ((groupOf n m).map fun j => (valOf (tyOf b.f 1) (codeAt s (tyOf b.f 1) (x 1 j))).real, r) := by
    refine mapM_reads fun j hj => ?_
    obtain ⟨hjn, hjm⟩ := mem_groupOf hj
    have kept : codeAt r.s (tyOf b.f 1) (x 1 j) = codeAt s (tyOf b.f 1) (x 1 j) :=
      hr.wrote.codeAt_eq fun w hw => groupWrites_apart hok hjn hjm hw
    unfold idxAt
    rw [EngM.bind_ok (valAt_row block plain hone.dims (place 1 j (.inr rfl) hjn)), kept]; rfl
  have scale : scaleAt r.b (32 * m) = fbits b.f 23 0 20 + 2 * m := by
    unfold scaleAt
    rw [block, count, hone.row, Nat.div_eq_of_lt hm, Nat.zero_mul, Nat.zero_add, Nat.mul_div_cancel_left _ (by decide)]
  obtain ⟨r1, h1, w1⟩ := auxWrite_own (n := 2) (off := fbits b.f 23 0 20 + 2 * m) (x := groupScale s b.f n x m) plain.toCalm form
    (by have := hok.2.1; omega) (by decide)
  have plain1 : Plain v r1 := w1.plain plain
  obtain ⟨us, r2, h2, w2⟩ := mapM_writes (r0 := r1) (l := groupOf n m) (ws := quantWrites s b.f x (groupScale s b.f n x m))
    (g := fun j => writeQuant v b.f (groupScale s b.f n x m) (idxAt r.b j) j (valOf (tyOf b.f 1) (codeAt s (tyOf b.f 1) (x 1 j))).real)
    fun j hj r' _ hr' => writeQuant_goes (hr'.block.trans (w1.block.trans block)) (hr'.plain plain1) (hr'.form (w1.form form)) hone.mode
      float hone.dims (place 0 j (.inl rfl) (mem_groupOf hj).1)
  have zip (y : Nat → XVal) : (groupOf n m).zip ((groupOf n m).map y) = (groupOf n m).map fun j => (j, y j) := by
    exact List.map_prod_left_eq_zip.symm
  refine ⟨r2, ?_, w1.trans w2⟩
  rw [stepQblk_eq, block, hone.row, scale, show (List.range (min 32 (n - 32 * m))).map (32 * m + ·) = groupOf n m from rfl]
  refine (EngM.bind_ok reads).trans ((EngM.bind_ok h1).trans ?_)
  rw [zip, List.mapM_map]
  exact EngM.bind_ok h2

theorem rowClear_of_landed {s : State} {v : Site} {b : Entry} (h : (s.tile v.c v.t).redLand = []) : rowClear s v b = true := by
  unfold rowClear; rw [h]; rfl

theorem qblk_performs : PerformsRow .qblk 0x18
    { used := fun n => [(0, n), (1, n)], ok := QuantRow, writes := fun s v f n x => (List.range ((n + 31) / 32)).flatMap (groupWrites s v f n x) } :=
  performsRow_groups (body := qblkOp) (g := 32) (groups := fun n => (n + 31) / 32) (fun _ _ _ => rfl) (fun _ => rfl) rfl (by decide)
    (fun n m => by omega) fun s v b n x _ hone hx hok =>
      ⟨rowClear_of_landed hone.landed, fun m r hm hr => stepQblk_group hone hx hok hm hr⟩

/-! acc.rd (R222). -/

/-- The factor, the scaled element with its bias, and what D gets. -/
def accFactor (s : State) (f : Block) (x : Nat → Nat) : XVal :=
  if fbits f 22 0 1 = 1 then (valIn s f 2 x).real else fp32.decode (fbits f 23 0 32)
def accBiased (s : State) (v : Site) (f : Block) (x : Nat → Nat) : XVal :=
  if fbits f 22 1 1 = 1 then
    ((valIn s f 1 x).real.mul (accFactor s f x)).add (rmOf f) (fp32.decode (tableAt s v (fbits f 24 0 20 / 4 * 4) 4))
  else (valIn s f 1 x).real.mul (accFactor s f x)
def accResult (s : State) (v : Site) (f : Block) (x : Nat → Nat) : XVal :=
  if fbits f 22 2 2 = 1 then relu (accBiased s v f x) else accBiased s v f x

theorem flushCode_off (ty code : Nat) : flushCode false ty code = code := by simp [flushCode]

/-- A value that one of two ways delivers, and what follows. -/
theorem EngM.ite_bind_ok {α β : Type} {c : Prop} [Decidable c] {a b : EngM α} {k : α → EngM β} {r r1 : Run} {y : α}
    (h : (if c then a else b) r = .ok (y, r1)) : (if c then a >>= k else b >>= k) r = k y r1 := by
  split at h
  · exact (congrFun (if_pos ‹c›) r).trans (EngM.bind_ok h)
  · exact (congrFun (if_neg ‹¬c›) r).trans (EngM.bind_ok h)

theorem accRd_step {s : State} {v : Site} {b : Entry} {x : Nat → Nat} (hone : OneElem s v b 0x1a) (h0 : Lies v b.f 0 (x 0) 8)
    (h1 : Lies v b.f 1 (x 1) 8) (h2 : fbits b.f 22 0 1 = 1 → Lies v b.f 2 (x 2) 8) :
    ∃ r1, stepAccRd v 0 ⟨s, b, 0, [], [], none⟩ = .ok (⟨⟩, r1) ∧ Wrote ⟨s, b, 0, [], [], none⟩ r1
      (toD b.f (x 0) (.f (accResult s v b.f x)) ++ if fbits b.f 22 4 1 = 1 then codeTo b.f 1 (x 1) 0 else []) := by
  have plain := hone.toGoesNow.plain
  have place0 := h0.elem hone.dims hone.noStep (idx b 0)
  have place1 := h1.elem hone.dims hone.noStep (idx b 0)
  obtain ⟨y, hy, hreal⟩ : ∃ y : Val,
      (if fbits b.f 22 0 1 = 1 then valAt v 2 (idx b 0) else pure (.f (fp32.decode (fbits b.f 23 0 32))) : EngM Val)
      ⟨s, b, 0, [], [], none⟩ = .ok (y, ⟨s, b, 0, [], [], none⟩) ∧ y.real = accFactor s b.f x := by
    unfold accFactor
    split
    · exact ⟨_, valAt_own plain ((h2 ‹_›).elem hone.dims hone.noStep (idx b 0)) (unitOf_le _), rfl⟩
    · exact ⟨_, rfl, rfl⟩
  obtain ⟨r1, e1, w1⟩ := writeVal_own (i0 := 0) (sat := satOf b.f) (y := .f (accResult s v b.f x)) plain hone.form place0 (unitOf_le _) hone.mode
  obtain ⟨r2, e2, w2⟩ : ∃ r2, (if (fbits b.f 22 4 1 == 1) = true then writeCode v 1 (tyOf b.f 1)
      (.loc (byteOf (tyOf b.f 1) (x 1)) (spaceOf b.f 1), addrOf b.f 1 (idx b 0) v.t % 2) 0 else pure ⟨⟩ : EngM PUnit) r1 = .ok (⟨⟩, r2) ∧
      Wrote r1 r2 (if fbits b.f 22 4 1 = 1 then codeTo b.f 1 (x 1) 0 else []) := by
    have block : r1.b.f = b.f := w1.block
    by_cases hc : fbits b.f 22 4 1 = 1
    · rw [if_pos hc, if_pos (by simp [hc])]
      rw [← block] at place1 ⊢
      exact writeCode_at (w1.plain plain) (w1.form hone.form) place1 (unitOf_le _)
    · rw [if_neg hc, if_neg (by simp [hc])]
      exact ⟨r1, rfl, .refl r1⟩
  refine ⟨r2, ?_, w1.trans w2⟩
  unfold stepAccRd
  rw [EngM.bind_ok (EngM.get_ok _)]
  refine (EngM.ite_bind_ok hy).trans ?_
  refine (EngM.bind_ok (placeAt_own place1 (unitOf_le _) rfl)).trans ?_
  refine (EngM.bind_ok (placeAt_own place0 (unitOf_le _) rfl)).trans ?_
  refine (EngM.bind_ok (readVal_at plain place1 (unitOf_le _))).trans ?_
  have tail (q : XVal) (hq : accBiased s v b.f x = q) :
      (writeVal v (tyOf b.f 0) (.loc (byteOf (tyOf b.f 0) (x 0)) (spaceOf b.f 0), addrOf b.f 0 (idx b 0) v.t % 2) 0 (satOf b.f)
        (.f (if fbits b.f 22 2 2 = 1 then relu q else q)) >>= fun _ =>
          if (fbits b.f 22 4 1 == 1) = true then
            writeCode v 1 (tyOf b.f 1) (.loc (byteOf (tyOf b.f 1) (x 1)) (spaceOf b.f 1), addrOf b.f 1 (idx b 0) v.t % 2) 0
          else pure ⟨⟩) ⟨s, b, 0, [], [], none⟩ = .ok (⟨⟩, r2) := by
    subst hq
    exact (EngM.bind_ok e1).trans e2
  unfold accBiased at tail
  rw [← hreal] at tail
  by_cases hb : fbits b.f 22 1 1 = 1
  · rw [if_pos hb] at tail
    have small (f : Block) : fbits f 24 0 20 / 4 * 4 + 4 * (0 % 128) < 2 ^ 20 := by
      have : fbits f 24 0 20 < 2 ^ 20 := Nat.mod_lt _ (by decide)
      omega
    refine (congrFun (if_pos hb) _).trans ((EngM.bind_ok (auxRead_own plain.toCalm (small _))).trans (tail _ ?_))
    rw [hone.noFlush, flushCode_off]; rfl
  · rw [if_neg hb] at tail
    exact (congrFun (if_neg hb) _).trans (tail _ rfl)

theorem accRd_performs : Performs .accRd .v 0x1a
    { used := fun f => [(0, 8), (1, 8)] ++ if fbits f 22 0 1 = 1 then [(2, 8)] else []
      ok := fun _ _ f _ => tyOf f 1 = 0 ∨ tyOf f 1 = 8
      writes := fun s v f x => toD f (x 0) (.f (accResult s v f x)) ++ if fbits f 22 4 1 = 1 then codeTo f 1 (x 1) 0 else [] } := by
  refine performs_of (body := accRdOp) (fun _ _ _ => rfl) (fun _ _ => Nat.one_pos) fun s v b x _ hone hx _ => ⟨rowClear_of_landed hone.landed, ?_⟩
  obtain ⟨r1, h1, w1⟩ := accRd_step hone (hx (0, 8) (by simp)) (hx (1, 8) (by simp)) fun h => hx (2, 8) (by simp [h])
  exact ⟨r1, h1, w1.count.trans hone.first, w1.done⟩

end Sys2Proof.Machine
end

section
/-! PROOF. The scale of a quantised block: the least that holds its largest magnitude (01 R24, 07 R220). -/

namespace Sys2Proof.Machine

/-! Magnitudes: finite values of sign 0, by their ratios. -/

/-- A finite value of sign 0 that is the ratio q. -/
def XVal.IsRatio (x : XVal) (q : ℚ) : Prop := ∃ n d, x = .fin false n d ∧ d ≠ 0 ∧ (n : ℚ) / d = q

theorem XVal.IsRatio.nonneg {x : XVal} {q : ℚ} (h : x.IsRatio q) : 0 ≤ q := by
  obtain ⟨n, d, -, -, rfl⟩ := h; positivity

theorem XVal.IsRatio.unique {x : XVal} {p q : ℚ} (h : x.IsRatio p) (g : x.IsRatio q) : p = q := by
  obtain ⟨n, d, rfl, -, rfl⟩ := h
  obtain ⟨m, e, same, -, rfl⟩ := g
  cases same; rfl

theorem XVal.IsRatio.lt {x y : XVal} {p q : ℚ} (hx : x.IsRatio p) (hy : y.IsRatio q) : x.lt y = decide (p < q) := by
  obtain ⟨n, d, rfl, hd, rfl⟩ := hx
  obtain ⟨m, e, rfl, he, rfl⟩ := hy
  have key : (n : ℚ) / d < m / e ↔ n * e < m * d := by
    rw [div_lt_div_iff₀ (by positivity) (by positivity)]; norm_cast
  rw [XVal.lt_fin]
  simp only [key, sgnNum, Bool.false_eq_true, if_false]
  norm_cast

theorem XVal.IsRatio.isZero {x : XVal} {q : ℚ} (h : x.IsRatio q) : x.isZero = true ↔ q = 0 := by
  obtain ⟨n, d, rfl, hd, rfl⟩ := h
  simp [XVal.isZero, hd]

theorem XVal.IsRatio.mul {x y : XVal} {p q : ℚ} (hx : x.IsRatio p) (hy : y.IsRatio q) : (x.mul y).IsRatio (p * q) := by
  obtain ⟨n, d, rfl, hd, rfl⟩ := hx
  obtain ⟨m, e, rfl, he, rfl⟩ := hy
  exact ⟨n * m, d * e, rfl, Nat.mul_ne_zero hd he, by push_cast; rw [div_mul_div_comm]⟩

theorem XVal.IsRatio.div {x y : XVal} {p q : ℚ} (hx : x.IsRatio p) (hy : y.IsRatio q) (h0 : q ≠ 0) : (x.div y).IsRatio (p / q) := by
  obtain ⟨n, d, rfl, hd, rfl⟩ := hx
  obtain ⟨m, e, rfl, he, rfl⟩ := hy
  have hm : m ≠ 0 := by rintro rfl; simp at h0
  exact ⟨n * e, d * m, by simp [XVal.div, hm], Nat.mul_ne_zero hd hm, by push_cast; rw [div_div_div_eq]⟩

theorem XVal.IsRatio.xmax {x y : XVal} {p q : ℚ} (hx : x.IsRatio p) (hy : y.IsRatio q) : (Machine.xmax x y).IsRatio (max p q) := by
  have sign : x.sign = false := by obtain ⟨n, d, rfl, -⟩ := hx; rfl
  have nan : x.isNan = false ∧ y.isNan = false := by
    obtain ⟨n, d, rfl, -⟩ := hx; obtain ⟨m, e, rfl, -⟩ := hy; exact ⟨rfl, rfl⟩
  unfold Machine.xmax belowF
  rw [nan.1, nan.2, sign, hx.lt hy]
  by_cases h : p < q
  · simpa [h, max_eq_right h.le] using hy
  · simpa [h, max_eq_left (not_lt.1 h)] using hx

/-! Codes. -/

theorem XVal.scaled_is (n : Nat) (e : Int) : ∃ q, (XVal.scaled false n e).IsRatio q := by
  obtain ⟨num, den, h, hd, -, -⟩ := XVal.scaled_eq_fin false n e
  exact ⟨_, num, den, h, hd, rfl⟩

theorem XVal.scaled_abs (s : Bool) (n : Nat) (e : Int) : (XVal.scaled s n e).abs = XVal.scaled false n e := by
  unfold XVal.scaled; split <;> rfl

/-- What codes decode to, in any format. -/
theorem Fmt.decode_cases (g : Fmt) (c : Nat) :
    (∃ s, g.decode c = .nan s) ∨ (∃ s, g.decode c = .inf s) ∨ ∃ s n e, g.decode c = XVal.scaled s n e := by
  unfold Fmt.decode
  cases g.kind <;> dsimp only <;> split_ifs <;> simp

theorem Fmt.decode_abs_is (g : Fmt) (c : Nat) (hn : (g.decode c).isNan = false) (hi : (g.decode c).isInf = false) :
    ∃ q, (g.decode c).abs.IsRatio q := by
  obtain ⟨s, h⟩ | ⟨s, h⟩ | ⟨s, n, e, h⟩ := g.decode_cases c
  · rw [h] at hn; cases hn
  · rw [h] at hi; cases hi
  · rw [h, XVal.scaled_abs]; exact XVal.scaled_is n e

theorem XVal.isZero_abs (x : XVal) : x.abs.isZero = x.isZero := by cases x <;> rfl

/-- A Z-scale code below the NaNs is a magnitude (R24). -/
theorem zdecode_is {k : Nat} (h : k < 0x3f8) : ∃ q, (zdecode k).IsRatio q := by
  unfold zdecode
  rw [if_neg (by omega)]
  split
  · exact XVal.scaled_is _ _
  · exact XVal.scaled_is _ _

/-- The greatest value of E4M3 and of E2M1. -/
theorem topValue_is {ty : Nat} (h : ty = 4 ∨ ty = 5) : ∃ q, ((fmtOf ty).decode (fmtOf ty).maxCode).IsRatio q ∧ 0 < q := by
  obtain rfl | rfl := h
  · exact ⟨448, ⟨448, 1, by decide, one_ne_zero, by norm_num⟩, by norm_num⟩
  · exact ⟨6, ⟨6, 1, by decide, one_ne_zero, by norm_num⟩, by norm_num⟩

/-! The largest magnitude. -/

/-- The largest magnitude of a group, from a start: it bounds all, and is the start or one of them. -/
theorem foldl_xmax_is : ∀ (xs : List XVal) {m : XVal} {p : ℚ}, m.IsRatio p → (∀ a ∈ xs, ∃ q, a.abs.IsRatio q) →
    ∃ t, (xs.foldl (fun a x => xmax a x.abs) m).IsRatio t ∧ p ≤ t ∧ (∀ a ∈ xs, ∀ q, a.abs.IsRatio q → q ≤ t) ∧ (t = p ∨ ∃ a ∈ xs, a.abs.IsRatio t)
  | [], _, p, hm, _ => ⟨p, hm, le_rfl, by simp, .inl rfl⟩
  | x :: xs, m, p, hm, h => by
    obtain ⟨q, hq⟩ := h x List.mem_cons_self
    obtain ⟨t, ht, le, bound, attained⟩ := foldl_xmax_is xs (hm.xmax hq) fun a ha => h a (List.mem_cons_of_mem _ ha)
    refine ⟨t, ht, (le_max_left p q).trans le, fun a ha r hr => ?_, ?_⟩
    · obtain rfl | ha := List.mem_cons.1 ha
      · rw [hr.unique hq]; exact (le_max_right p q).trans le
      · exact bound a ha r hr
    · obtain rfl | ⟨a, ha, hat⟩ := attained
      · obtain e | e := max_choice p q
        · exact .inl e
        · exact .inr ⟨x, List.mem_cons_self, by rw [e]; exact hq⟩
      · exact .inr ⟨a, List.mem_cons_of_mem _ ha, hat⟩

/-- The largest magnitude of a group of finite values. -/
def groupMax (xs : List XVal) : XVal := xs.foldl (fun a x => xmax a x.abs) .zero

/-- Codes of finite values have magnitudes. -/
theorem abs_is_of_codes {xs : List XVal} (hcode : ∀ a ∈ xs, ∃ (g : Fmt) (c : Nat), a = g.decode c)
    (finite : ∀ a ∈ xs, a.isNan = false ∧ a.isInf = false) : ∀ a ∈ xs, ∃ q, a.abs.IsRatio q := by
  intro a ha
  obtain ⟨g, c, rfl⟩ := hcode a ha
  exact g.decode_abs_is c (finite _ ha).1 (finite _ ha).2

theorem groupMax_is {xs : List XVal} (h : ∀ a ∈ xs, ∃ q, a.abs.IsRatio q) :
    ∃ t, (groupMax xs).IsRatio t ∧ (∀ a ∈ xs, ∀ q, a.abs.IsRatio q → q ≤ t) ∧ (t = 0 ∨ ∃ a ∈ xs, a.abs.IsRatio t) := by
  obtain ⟨t, ht, -, bound, attained⟩ := foldl_xmax_is xs (m := .zero) (p := 0) ⟨0, 1, rfl, one_ne_zero, by simp⟩ h
  exact ⟨t, ht, bound, attained⟩

/-! The scale (R220). -/

theorem blockScale_of_special {ty : Nat} {xs : List XVal} (h : ∃ a ∈ xs, a.isNan = true ∨ a.isInf = true) : blockScale ty xs = 0x3f8 := by
  unfold blockScale
  rw [if_pos (by simpa using h)]

theorem blockScale_of_finite {ty : Nat} {xs : List XVal} (h : ∀ a ∈ xs, a.isNan = false ∧ a.isInf = false) :
    blockScale ty xs = if (groupMax xs).isZero then 0
      else ((List.range 0x3f8).find? fun k => !(zdecode k).lt ((groupMax xs).div ((fmtOf ty).decode (fmtOf ty).maxCode))).getD 0x3f7 := by
  unfold blockScale
  rw [if_neg (by simpa using h)]; rfl

/-- The first number of a range that meets a test, or the last. -/
theorem find?_range_getD {n : Nat} (p : Nat → Bool) (hn : 0 < n) {k : Nat} (hk : ((List.range n).find? p).getD (n - 1) = k) :
    k < n ∧ (k = n - 1 ∨ p k = true) ∧ ∀ i, i < k → p i = false := by
  cases hf : (List.range n).find? p with
  | none =>
    rw [hf] at hk
    obtain rfl : n - 1 = k := hk
    have none := List.find?_eq_none.1 hf
    exact ⟨by omega, .inl rfl, fun i hi => by simpa using none i (List.mem_range.2 (by omega))⟩
  | some m =>
    rw [hf] at hk
    obtain rfl : m = k := hk
    obtain ⟨hp, hm, before⟩ := List.find?_range_eq_some.1 hf
    exact ⟨List.mem_range.1 hm, .inr hp, fun i hi => by simpa using before i hi⟩

/-- R220 on a group of finite values that are not all zero. -/
theorem blockScale_least {ty : Nat} {xs : List XVal} (hty : ty = 4 ∨ ty = 5) (hcode : ∀ a ∈ xs, ∃ (g : Fmt) (c : Nat), a = g.decode c)
    (finite : ∀ a ∈ xs, a.isNan = false ∧ a.isInf = false) (nonzero : ∃ a ∈ xs, a.isZero = false) :
    blockScale ty xs < 0x3f8 ∧
      (blockScale ty xs = 0x3f7 ∨ ∀ a ∈ xs, ((zdecode (blockScale ty xs)).mul ((fmtOf ty).decode (fmtOf ty).maxCode)).lt a.abs = false) ∧
      ∀ k, k < blockScale ty xs → ∃ a ∈ xs, ((zdecode k).mul ((fmtOf ty).decode (fmtOf ty).maxCode)).lt a.abs = true := by
  have magnitude := abs_is_of_codes hcode finite
  obtain ⟨t, ht, bound, attained⟩ := groupMax_is magnitude
  obtain ⟨top, htop, pos⟩ := topValue_is hty
  have positive : t ≠ 0 := by
    obtain ⟨a, ha, h0⟩ := nonzero
    obtain ⟨q, hq⟩ := magnitude a ha
    have qne : q ≠ 0 := fun e => by have := hq.isZero.2 e; rw [XVal.isZero_abs, h0] at this; cases this
    have := bound a ha q hq
    have := hq.nonneg
    exact fun e => qne (by linarith)
  obtain ⟨a, ha, hat⟩ := attained.resolve_left positive
  have test (k : Nat) (hk : k < 0x3f8) (b : XVal) (q : ℚ) (hb : b.abs.IsRatio q) :
      ((zdecode k).mul ((fmtOf ty).decode (fmtOf ty).maxCode)).lt b.abs = true ↔ ∃ z, (zdecode k).IsRatio z ∧ z * top < q := by
    obtain ⟨z, hz⟩ := zdecode_is hk
    rw [(hz.mul htop).lt hb, decide_eq_true_iff]
    exact ⟨fun h => ⟨z, hz, h⟩, fun ⟨w, hw, h⟩ => by rwa [hz.unique hw]⟩
  have search (k : Nat) (hk : k < 0x3f8) :
      (!(zdecode k).lt ((groupMax xs).div ((fmtOf ty).decode (fmtOf ty).maxCode))) = false ↔ ∃ z, (zdecode k).IsRatio z ∧ z * top < t := by
    obtain ⟨z, hz⟩ := zdecode_is hk
    rw [hz.lt (ht.div htop pos.ne'), Bool.not_eq_false', decide_eq_true_iff, lt_div_iff₀ pos]
    exact ⟨fun h => ⟨z, hz, h⟩, fun ⟨w, hw, h⟩ => by rwa [hz.unique hw]⟩
  have shape := blockScale_of_finite (ty := ty) finite
  rw [if_neg (by rw [ht.isZero]; exact positive)] at shape
  obtain ⟨small, found, before⟩ := find?_range_getD _ (show 0 < 0x3f8 by decide) shape.symm
  refine ⟨small, found.imp_right fun hp b hb => ?_, fun k hk => ⟨a, ha, ?_⟩⟩
  · obtain ⟨q, hq⟩ := magnitude b hb
    have no := mt (search _ small).2 (by rw [hp]; decide)
    refine Bool.eq_false_iff.2 fun e => no ?_
    obtain ⟨z, hz, h⟩ := (test _ small b q hq).1 e
    exact ⟨z, hz, h.trans_le (bound b hb q hq)⟩
  · exact (test k (by omega) a t hat).2 ((search k (by omega)).1 (before k hk))

theorem blockScale_of_zeros {ty : Nat} {xs : List XVal} (hcode : ∀ a ∈ xs, ∃ (g : Fmt) (c : Nat), a = g.decode c)
    (hz : ∀ a ∈ xs, a.isZero = true) : blockScale ty xs = 0 := by
  have finite (a) (ha : a ∈ xs) : a.isNan = false ∧ a.isInf = false := by
    obtain ⟨s, d, rfl⟩ := XVal.isZero_eq (hz a ha); exact ⟨rfl, rfl⟩
  obtain ⟨t, ht, -, attained⟩ := groupMax_is (abs_is_of_codes hcode finite)
  have zero : t = 0 := by
    obtain h | ⟨a, ha, hat⟩ := attained
    · exact h
    · exact hat.isZero.1 (by rw [XVal.isZero_abs]; exact hz a ha)
  rw [blockScale_of_finite finite, if_pos (ht.isZero.2 zero)]

/-- Settles O39. -/
theorem vectorFunctions : Obligations.VectorFunctions := by
  unfold Obligations.VectorFunctions
  refine ⟨?_, ?_, ?_, ?_, dqblk_performs, qblk_performs, fun ty xs hty hcode => ⟨blockScale_of_special, blockScale_of_zeros hcode,
    blockScale_least hty hcode⟩, ?_⟩
  · exact elementwise_stepFunc (fun _ _ _ a => rne (exp2Val (rne a))) (fun _ _ _ => rfl) fun _ _ _ _ => rfl
  · exact elementwise_stepFunc (fun _ _ _ a => rne (rcpVal (rne a))) (fun _ _ _ => rfl) fun _ _ _ _ => rfl
  · exact elementwise_stepFunc (fun _ _ _ a => rne (rsqrtVal (rne a))) (fun _ _ _ => rfl) fun _ _ _ _ => rfl
  · exact elementwise_stepFunc (fun _ t f a => tinterp (roundTo fp32 0 0 false a).1 (t.slots.get (Fin.ofNat 2 (fbits f 22 0 1))))
      (fun _ _ _ => rfl) fun _ _ _ _ => rfl
  · exact accRd_performs

end Sys2Proof.Machine
end

section
/-! PROOF. The matrix engine: runs of elements, rows of the accumulator, products that land later (07 R205 to R212, 01 R35, R36). -/

namespace Sys2Proof.Machine

/-! Runs of elements. -/

/-- What is left of a run of elements from element k on. -/
theorem At.step {v : Site} {f : Block} {o a l n k m : Nat} (h : At v f o a l n) (hk : k * unitOf (tyOf f o) + m ≤ n) :
    At v f o (a + k * unitOf (tyOf f o)) (l + k * unitOf (tyOf f o)) m := by
  have spad (y i : Nat) : spadLoc v.c v.t (y + i) = spadLoc v.c v.t y + i := (Nat.add_assoc _ _ _).symm
  have acc (y i : Nat) : accLoc v.c v.t (y + i) = accLoc v.c v.t y + i := (Nat.add_assoc _ _ _).symm
  unfold At at h ⊢
  dsimp only at h ⊢
  by_cases h5 : tyOf f o = 5
  · rw [h5, unitOf_half] at hk ⊢
    simp only [h5, if_true, Nat.mul_one] at h hk ⊢
    have half : (a + k) / 2 = a / 2 + (a % 2 + k) / 2 := by omega
    rw [half, spad, acc]
    omega
  · simp only [h5, if_false] at h ⊢
    rw [spad, acc]
    omega

theorem At.small {v : Site} {f : Block} {o a l n : Nat} (h : At v f o a l n) : a < 2 ^ 21 := by
  have hm := h.own.2.1
  have := ownSize_le (spaceOf f o)
  unfold Fits8 at hm
  split at hm <;> omega

theorem stepAddr_eq {a k ty : Nat} (h : a + k * unitOf ty < 2 ^ 64) : stepAddr a (k : Int) ty = a + k * unitOf ty := by
  unfold stepAddr wrap64
  rw [show (a : Int) + (k : Int) * (unitOf ty : Int) = ((a + k * unitOf ty : Nat) : Int) by push_cast; rfl]
  omega

theorem readCode_at {v : Site} {o a l n : Nat} {r : Run} (hr : Plain v r) (h : At v r.b.f o a l n) (hn : unitOf (tyOf r.b.f o) ≤ n) :
    (do let p ← place v o (tyOf r.b.f o) a true false; readCode v o (tyOf r.b.f o) p : EngM Nat) r = .ok (codeAt r.s (tyOf r.b.f o) l, r) := by
  have hp : Present r.s (byteOf (tyOf r.b.f o) l) := by have := h.present r.s (i := 0) (lt_of_lt_of_le (unitOf_pos _) hn); simpa using this
  rw [EngM.bind_ok (placeOf_at h hn hr.feed)]
  exact readCode_loc hr (.of_ne h.notVault) hp (notHot h.own.1 _) fun h5 => (h.own.2.2.2 h5).symm

/-- Contiguous elements, read as codes. -/
theorem readRun_at {v : Site} {o a l n : Nat} {r : Run} (hr : Plain v r) (h : At v r.b.f o a l (n * unitOf (tyOf r.b.f o))) :
    readRun v o (tyOf r.b.f o) a n r = .ok ((List.range n).map fun k => codeAt r.s (tyOf r.b.f o) (l + k * unitOf (tyOf r.b.f o)), r) := by
  refine mapM_reads fun k hk => ?_
  have step := h.step (k := k) (m := unitOf (tyOf r.b.f o)) (by rw [← Nat.succ_mul]; exact Nat.mul_le_mul_right _ (List.mem_range.1 hk))
  rw [stepAddr_eq (lt_trans step.small (by decide))]
  exact readCode_at hr step le_rfl

/-! Rows of the accumulator. -/

/-- The row that an operand's address names, and that it lies in the accumulator store (R208). -/
def accRow (v : Site) (f : Block) (o : Nat) : Nat := accLoc v.c v.t (fld f (10 + 4 * o) / 512 * 512)
def InAcc (f : Block) (o : Nat) : Prop := spaceOf f o = 2 ∧ swzOf f o = 0 ∧ fld f (10 + 4 * o) < 0x40000

theorem fld_lt (f : Block) (i : Nat) : fld f i < 2 ^ 64 := BitVec.isLt _

theorem placeRow_at {v : Site} {o : Nat} {i : List Nat} {wr : Bool} {r : Run} (hd : ndimOf r.b.f = 0) (h29 : fld r.b.f 29 = 0)
    (h : InAcc r.b.f o) (hf : r.feed = none) :
    placeRow v o i wr r = .ok ((.loc (accRow v r.b.f o) 2, fld r.b.f (10 + 4 * o) / 512 * 512 % 2), r) := by
  obtain ⟨hs, hz, hlt⟩ := h
  unfold placeRow
  rw [EngM.bind_ok (EngM.get_ok r), addrOf_plain hd h29 (fld_lt _ _)]
  exact place_own hs (.inr rfl) hz (show fld r.b.f (10 + 4 * o) / 512 * 512 + 4 ≤ 0x40000 by omega) hf

theorem rowLoc_eq {s : State} {v : Site} {b : Entry} {o : Nat} (hd : ndimOf b.f = 0) (h29 : fld b.f 29 = 0) (h : InAcc b.f o) :
    rowLoc s v b o = accRow v b.f o := by
  have hlt := h.2.2
  unfold rowLoc engineTgt accRow
  rw [addrOf_plain hd h29 (fld_lt _ _), if_neg (by decide), if_pos rfl]
  exact congrArg (accLoc v.c v.t) (Nat.mod_eq_of_lt (by omega))

/-- A row's locations are there. -/
theorem accRow_present {v : Site} {f : Block} {o : Nat} (h : InAcc f o) (s : State) {i : Nat} (hi : i < 512) : Present s (accRow v f o + i) := by
  have hlt := h.2.2
  have there := own_stored s v 2 (fld f (10 + 4 * o) / 512 * 512 + i) (by omega)
  rwa [← ownLoc_add] at there

theorem fetchRow {v : Site} {o : Nat} {r : Run} (hr : Plain v r) (h : InAcc r.b.f o) :
    fetchBytes v o (.loc (accRow v r.b.f o) 2) 512 r = .ok (readHome r.s (accRow v r.b.f o) 512, r) :=
  fetchBytes_loc hr.toCalm (.of_ne (by decide)) (accRow_present h r.s (i := 0) (by decide)) (notHot (.inr h.1) _)

theorem storeRow {v : Site} {o : Nat} {bs : List Byte} {r : Run} (hr : Plain v r) (hm : r.s.memWf) (h : InAcc r.b.f o) (hb : bs.length = 512) :
    ∃ r1, storeBytes v o (.loc (accRow v r.b.f o) 2) bs r = .ok (⟨⟩, r1) ∧ Wrote r r1 [.bytes (accRow v r.b.f o) bs] :=
  storeBytes_loc hr.toCalm (.of_ne (by decide)) hm (fun _ hi => accRow_present h r.s (hb ▸ hi)) (notHot (.inr h.1) _)

/-- Word j of a row. -/
def rowWord (s : State) (a j : Nat) : Nat := ofBytes (readHome s (a + 4 * j) 4)

theorem words4_readHome (s : State) : ∀ n a, words4 (readHome s a (4 * n)) = (List.range n).map (rowWord s a)
  | 0, _ => rfl
  | n + 1, a => by
    have rest := words4_readHome s n (a + 4)
    rw [List.range_succ_eq_map, List.map_cons, List.map_map]
    refine congrArg₂ List.cons rfl (rest.trans (List.map_congr_left fun j _ => ?_))
    unfold rowWord; dsimp only [Function.comp]
    rw [show a + 4 * (j + 1) = a + 4 + 4 * j by ring]

theorem zipIdx_range_map {α : Type} (n : Nat) (y : Nat → α) : ((List.range n).map y).zipIdx = (List.range n).map fun j => (y j, j) := by
  apply List.ext_getElem
  · simp
  · intro i h1 h2; simp

/-! Results on their way (R212). -/

/-- A tile to whose accumulator a row of words is on its way, in a step that takes so many ticks. -/
def rowSent (s : State) (v : Site) (ticks : Nat) (a : Nat) (ws : Nat → Nat) (y : Tile) : Tile :=
  let halves := if (s.core v.c).narrowed then 2 else 1
  let pace := if (s.core v.c).bin = 2 then 2 else 1
  let due := tickOf s.cycle + pace * (ticks * halves - 1) + (if (s.core v.c).narrowed then 5 else 4)
  { y with accLand := y.accLand ++ [Landing.mk due a ((List.range 128).flatMap fun j => bytesOf 4 (ws j))] }

theorem landRow_sent {v : Site} {ticks a sp : Nat} {ws : Nat → Nat} {r : Run} (hr : r.b.audit = none) :
    landRow v (ticks * narrowFactor r.s v) (.loc a sp) ((List.range 128).map ws) r =
      .ok (⟨⟩, { r with s := r.s.modTile v.c v.t (rowSent r.s v ticks a ws) }) := by
  unfold landRow
  rw [EngM.bind_ok (EngM.get_ok r), List.flatMap_map, sign_none hr]
  rfl

/-! mma and mma.z (R35, R36, R208). -/

/-- The set that a block names. -/
def usedSet (s : State) (v : Site) (f : Block) : WeightSet := (s.tile v.c v.t).sets.get (Fin.ofNat 2 (fbits f 22 10 1))

/-- Element k of A's run: its code, its value, under its block scale if the operator takes scales. -/
def mmaCode (s : State) (f : Block) (x k : Nat) : Nat := codeAt s (tyOf f 1) (x + k * unitOf (tyOf f 1))
def mmaValue (s : State) (v : Site) (f : Block) (x k : Nat) : XVal :=
  if fbits f 22 11 1 = 1 then scaled (valOf (tyOf f 1) (mmaCode s f x k)).real (tableAt s v (fbits f 23 0 20 / 2 * 2 + 2 * (k / 32)) 2)
  else (valOf (tyOf f 1) (mmaCode s f x k)).real

/-- Word j of a product's row. -/
def mmaWord (zero : Bool) (s : State) (v : Site) (f : Block) (x j : Nat) : Nat :=
  let old := if zero then 0 else rowWord s (accRow v f 0) j
  if tyOf f 1 = 6 then mmaInt old ((List.range (fbits f 22 0 10)).map fun k => sx (mmaCode s f x k) 8) fun k => (usedSet s v f).weightInt k j
  else mmaFloat false old ((List.range (fbits f 22 0 10)).map fun k => (mmaValue s v f x k).mul ((usedSet s v f).weight k j))

/-- The ticks of a product's step (07 Table 5). -/
def mmaSteps (f : Block) : Nat :=
  max 1 ((fbits f 22 0 10 * typeBits (tyOf f 1) + 2047) / 2048) + if fld f 14 % (if tyOf f 1 = 5 then 128 else 64) = 0 then 0 else 1

theorem mmaTicks_eq {s : State} {v : Site} {b : Entry} (hd : ndimOf b.f = 0) (h29 : fld b.f 29 = 0) :
    mmaTicks s v b = mmaSteps b.f * narrowFactor s v := by
  unfold mmaTicks; rw [addrOf_plain hd h29 (fld_lt _ _)]; rfl

/-- A block's scales, read in order. -/
theorem mmaScales_read {v : Site} {r : Run} (hr : Plain v r) (hn : r.b.n = 0)
    (fits : fbits r.b.f 22 11 1 = 1 → fbits r.b.f 23 0 20 / 2 * 2 + 2 * (fbits r.b.f 22 0 10 / 32) ≤ 0xc0000) :
    ((List.range (if (fbits r.b.f 22 11 1 == 1) = true then fbits r.b.f 22 0 10 / 32 else 0)).mapM fun j =>
        auxRead v (fbits r.b.f 23 0 20 / 2 * 2 + 2 * (r.b.n * fbits r.b.f 22 0 10 / 32 + j)) 2 : EngM (List Nat)) r =
      .ok ((List.range (if (fbits r.b.f 22 11 1 == 1) = true then fbits r.b.f 22 0 10 / 32 else 0)).map fun j =>
        tableAt r.s v (fbits r.b.f 23 0 20 / 2 * 2 + 2 * j) 2, r) := by
  refine mapM_reads fun j hj => ?_
  have hj := List.mem_range.1 hj
  rw [hn, Nat.zero_mul, Nat.zero_div, Nat.zero_add]
  split at hj
  · have := fits (by simpa using ‹(fbits r.b.f 22 11 1 == 1) = true›)
    exact auxRead_own hr.toCalm (by omega)
  · exact absurd hj (Nat.not_lt_zero _)

/-- The value of an element by the scales that were read. -/
theorem mmaValue_eq {s : State} {v : Site} {f : Block} {x k : Nat} (hk : k < fbits f 22 0 10)
    (whole : fbits f 22 11 1 = 1 → fbits f 22 0 10 % 32 = 0) :
    (if (fbits f 22 11 1 == 1) = true then scaled (valOf (tyOf f 1) (mmaCode s f x k)).real
        ((((List.range (if (fbits f 22 11 1 == 1) = true then fbits f 22 0 10 / 32 else 0)).map fun j =>
          tableAt s v (fbits f 23 0 20 / 2 * 2 + 2 * j) 2)[k / 32]?).getD 0)
      else (valOf (tyOf f 1) (mmaCode s f x k)).real) = mmaValue s v f x k := by
  unfold mmaValue
  by_cases hbs : fbits f 22 11 1 = 1
  · have := whole hbs
    simp [hbs, show k / 32 < fbits f 22 0 10 / 32 by omega]
  · simp [hbs]

/-- What mma asks of its block: D a row, its elements and its scales in place. -/
structure MmaFits (s : State) (v : Site) (b : Entry) (x : Nat) : Prop where
  acc : InAcc b.f 0
  run : Lies v b.f 1 x (fbits b.f 22 0 10 * unitOf (tyOf b.f 1))
  scales : fbits b.f 22 11 1 = 1 → fbits b.f 23 0 20 / 2 * 2 + 2 * (fbits b.f 22 0 10 / 32) ≤ 0xc0000 ∧ fbits b.f 22 0 10 % 32 = 0

/-- A row of words that a product makes, from the words it starts with, its codes and its scales. -/
theorem mmaWords_eq (zero : Bool) {s : State} {v : Site} {f : Block} {x : Nat}
    (whole : fbits f 22 11 1 = 1 → fbits f 22 0 10 % 32 = 0) :
    (((List.range 128).map fun j => if zero then 0 else rowWord s (accRow v f 0) j).zipIdx.map fun z =>
      if tyOf f 1 = 6 then mmaInt z.1 (((List.range (fbits f 22 0 10)).map (mmaCode s f x)).map fun a => sx a 8)
        fun k => (usedSet s v f).weightInt k z.2
      else mmaFloat false z.1 (((List.range (fbits f 22 0 10)).map (mmaCode s f x)).zipIdx.map fun a =>
        let y := (valOf (tyOf f 1) a.1).real
        (if (fbits f 22 11 1 == 1) = true then
          scaled y ((((List.range (if (fbits f 22 11 1 == 1) = true then fbits f 22 0 10 / 32 else 0)).map fun j =>
            tableAt s v (fbits f 23 0 20 / 2 * 2 + 2 * j) 2)[a.2 / 32]?).getD 0)
        else y).mul ((usedSet s v f).weight a.2 z.2))) =
      (List.range 128).map (mmaWord zero s v f x) := by
  rw [zipIdx_range_map, zipIdx_range_map, List.map_map]
  refine List.map_congr_left fun j _ => ?_
  simp only [Function.comp, List.map_map]
  unfold mmaWord
  refine if_congr Iff.rfl rfl (congrArg _ (List.map_congr_left fun k hk => ?_))
  exact congrArg (fun y : XVal => y.mul ((usedSet s v f).weight k j)) (mmaValue_eq (List.mem_range.1 hk) whole)

theorem stepMma_sends {s : State} {v : Site} {b : Entry} {op x : Nat} (zero : Bool) (hone : OneElem s v b op) (h : MmaFits s v b x) :
    stepMma zero v 0 ⟨s, b, 0, [], [], none⟩ =
      .ok (⟨⟩, ⟨s.modTile v.c v.t (rowSent s v (mmaSteps b.f) (accRow v b.f 0) (mmaWord zero s v b.f x)), b, 0, [], [], none⟩) := by
  have plain := hone.toGoesNow.plain
  have sent := landRow_sent (r := ⟨s, b, 0, [], [], none⟩) (v := v) (ticks := mmaSteps b.f) (a := accRow v b.f 0) (sp := 2)
    (ws := mmaWord zero s v b.f x) hone.noAudit
  rw [← mmaWords_eq zero fun hbs => (h.scales hbs).2, ← mmaTicks_eq hone.dims hone.noStep] at sent
  unfold stepMma
  rw [EngM.bind_ok (EngM.get_ok _)]
  refine (EngM.bind_ok (placeRow_at hone.dims hone.noStep h.acc rfl)).trans ?_
  refine (EngM.bind_ok (readRun_at plain (h.run.elem hone.dims hone.noStep (idx b 0)))).trans ?_
  refine (EngM.bind_ok (mmaScales_read plain hone.first fun hbs => (h.scales hbs).1)).trans ?_
  cases zero
  · refine (EngM.bind_ok (fetchRow plain h.acc)).trans ?_
    rw [show 512 = 4 * 128 from rfl, words4_readHome, hone.noFlush]
    exact sent
  · rw [hone.noFlush]
    exact sent

/-! When a step may go on (R207, R212). -/

theorem setLoaded_of_no_wload {s : State} {v : Site} {b : Entry} (h : ∀ q ∈ ((s.tile v.c v.t).queue v.e).entries, opOf q.f ≠ 4) :
    setLoaded s v b = true := by
  unfold setLoaded
  refine List.all_eq_true.2 fun q hq => ?_
  simp [h q ((List.takeWhile_sublist _).mem hq)]

theorem rowLanded_of_landed {s : State} {v : Site} {b : Entry} {o : Nat} (hd : ndimOf b.f = 0) (h29 : fld b.f 29 = 0) (h : InAcc b.f o)
    (landed : ∀ z ∈ (s.tile v.c v.t).accLand, z.loc ≠ accRow v b.f o) : rowLanded s v (rowLoc s v b o) = true := by
  rw [rowLoc_eq hd h29 h]
  exact List.all_eq_true.2 fun z hz => by simpa using landed z hz

/-- A step that changes its tile alone. -/
theorem stepDone_of_tile {s : State} {b : Entry} {v : Site} {g : Tile → Tile} (hq : ∀ y, (g y).queues = y.queues)
    (hg : ∀ y, (g y).rings = y.rings) (ho : ∀ y, (g y).accOld = y.accOld) :
    StepDone s b v ⟨s.modTile v.c v.t g, b, 0, [], [], none⟩ [] (g (s.tile v.c v.t)) s :=
  .of_tile rfl hq hg ho rfl rfl rfl

/-- mma and mma.z, in the terms of the statement. -/
theorem mma_performs {i : Cl → Tl → Instr} {op : Nat} (zero : Bool) {clear : State → Site → Entry → Bool}
    (hi : ∀ c t s, exec (i c t) s = operator op (matrixOp (stepMma zero) mmaTicks clear) c t .m s)
    (hclear : ∀ s v b, setLoaded s v b = true → (zero = false → rowLanded s v (rowLoc s v b 0) = true) → clear s v b = true) :
    Performs i .m op
      { used := fun f => [(1, fbits f 22 0 10 * unitOf (tyOf f 1))]
        ok := fun s v f _ => (zero = false → ∀ z ∈ (s.tile v.c v.t).accLand, z.loc ≠ accRow v f 0) ∧
          ((∀ q ∈ ((s.tile v.c v.t).queue v.e).entries, opOf q.f ≠ 4) ∧ InAcc f 0) ∧
          (fbits f 22 11 1 = 1 → fbits f 23 0 20 / 2 * 2 + 2 * (fbits f 22 0 10 / 32) ≤ 0xc0000 ∧ fbits f 22 0 10 % 32 = 0)
        tile := fun s v f x => rowSent s v (mmaSteps f) (accRow v f 0) (mmaWord zero s v f (x 1)) } := by
  refine performs_of hi (fun _ _ => Nat.one_pos) fun s v b x _ hone hx ⟨landed, ⟨free, acc⟩, scales⟩ => ⟨?_, ?_⟩
  · exact hclear s v b (setLoaded_of_no_wload free) fun hz => rowLanded_of_landed hone.dims hone.noStep acc (landed hz)
  · exact ⟨_, stepMma_sends zero hone ⟨acc, hx _ (List.mem_singleton.2 rfl), scales⟩, hone.first,
      stepDone_of_tile (fun _ => rfl) (fun _ => rfl) fun _ => rfl⟩

/-! mma.chain (R210). -/

/-- Word j of a chained product: A's row, converted down, times the set. -/
def chainWord (s : State) (v : Site) (f : Block) (j : Nat) : Nat :=
  let down := fmtOf (fbits f 22 12 4)
  mmaFloat false (rowWord s (accRow v f 0) j) ((List.range (fbits f 22 0 10)).map fun k =>
    (down.decode (roundTo down (rmOf f) 0 (satOf f) (fp32.decode (rowWord s (accRow v f 1) k))).1).mul ((usedSet s v f).weight k j))

theorem chainWords_eq {s : State} {v : Site} {f : Block} (hk : fbits f 22 0 10 ≤ 128) :
    (((List.range 128).map (rowWord s (accRow v f 0))).zipIdx.map fun z =>
      mmaFloat false z.1 (((((List.range 128).map (rowWord s (accRow v f 1))).take (fbits f 22 0 10)).map fun w =>
        (fmtOf (fbits f 22 12 4)).decode (flushCode false (fbits f 22 12 4)
          (roundTo (fmtOf (fbits f 22 12 4)) (rmOf f) 0 (satOf f) (fp32.decode (flushCode false 0 w))).1)).zipIdx.map fun y =>
            y.1.mul ((usedSet s v f).weight y.2 z.2))) =
      (List.range 128).map (chainWord s v f) := by
  rw [← List.map_take, List.take_range, Nat.min_eq_left hk, List.map_map, zipIdx_range_map, zipIdx_range_map, List.map_map]
  simp only [flushCode_off, List.map_map]
  rfl

theorem stepChain_sends {s : State} {v : Site} {b : Entry} {op : Nat} (hone : OneElem s v b op) (h0 : InAcc b.f 0) (h1 : InAcc b.f 1)
    (hk : fbits b.f 22 0 10 ≤ 128) :
    stepChain v 0 ⟨s, b, 0, [], [], none⟩ =
      .ok (⟨⟩, ⟨s.modTile v.c v.t (rowSent s v 1 (accRow v b.f 0) (chainWord s v b.f)), b, 0, [], [], none⟩) := by
  have plain := hone.toGoesNow.plain
  have sent := landRow_sent (r := ⟨s, b, 0, [], [], none⟩) (v := v) (ticks := 1) (a := accRow v b.f 0) (sp := 2) (ws := chainWord s v b.f)
    hone.noAudit
  rw [← chainWords_eq hk, Nat.one_mul] at sent
  unfold stepChain
  rw [EngM.bind_ok (EngM.get_ok _)]
  refine (EngM.bind_ok (placeRow_at hone.dims hone.noStep h1 rfl)).trans ?_
  refine (EngM.bind_ok (placeRow_at hone.dims hone.noStep h0 rfl)).trans ?_
  refine (EngM.bind_ok (fetchRow plain h1)).trans ?_
  refine (EngM.bind_ok (fetchRow plain h0)).trans ?_
  rw [show 512 = 4 * 128 from rfl, words4_readHome, words4_readHome, hone.noFlush]
  exact sent

theorem mmaChain_performs : Performs .mmaChain .m 3
    { used := fun _ => []
      ok := fun s v f _ => (∀ z ∈ (s.tile v.c v.t).accLand, z.loc ≠ accRow v f 0) ∧ (∀ z ∈ (s.tile v.c v.t).accLand, z.loc ≠ accRow v f 1) ∧
        ((∀ q ∈ ((s.tile v.c v.t).queue v.e).entries, opOf q.f ≠ 4) ∧ InAcc f 0) ∧ InAcc f 1 ∧ fbits f 22 0 10 ≤ 128
      tile := fun s v f _ => rowSent s v 1 (accRow v f 0) (chainWord s v f) } := by
  refine performs_of (body := mmaChainOp) (fun _ _ _ => rfl) (fun _ _ => Nat.one_pos)
    fun s v b x _ hone _ ⟨landed0, landed1, ⟨free, acc0⟩, acc1, hk⟩ => ⟨?_, ?_⟩
  · show (setLoaded s v b && rowLanded s v (rowLoc s v b 0) && rowLanded s v (rowLoc s v b 1)) = true
    rw [setLoaded_of_no_wload free, rowLanded_of_landed hone.dims hone.noStep acc0 landed0,
      rowLanded_of_landed hone.dims hone.noStep acc1 landed1]; rfl
  · exact ⟨_, stepChain_sends hone acc0 acc1 hk, hone.first, stepDone_of_tile (fun _ => rfl) (fun _ => rfl) fun _ => rfl⟩

/-! Rows written at once (R211). -/

/-- An operator that only writes, once no result is on its way to its row. -/
theorem performs_rowWrites {i : Cl → Tl → Instr} {op : Nat} {step : Site → Nat → EngM Unit} {ticks : State → Site → Entry → Nat}
    {used : Block → List (Nat × Nat)} {writes : State → Site → Block → (Nat → Nat) → List Stored}
    (hi : ∀ c t s, exec (i c t) s = operator op (matrixOp step ticks fun s v b => rowLanded s v (rowLoc s v b 0)) c t .m s)
    (h : ∀ s v b x, OneElem s v b op → InAcc b.f 0 → (∀ o ∈ used b.f, Lies v b.f o.1 (x o.1) o.2) →
      ∃ r1, step v 0 ⟨s, b, 0, [], [], none⟩ = .ok (⟨⟩, r1) ∧ Wrote ⟨s, b, 0, [], [], none⟩ r1 (writes s v b.f x)) :
    Performs i .m op
      { used := used, ok := fun s v f _ => (∀ z ∈ (s.tile v.c v.t).accLand, z.loc ≠ accRow v f 0) ∧ InAcc f 0, writes := writes } := by
  refine performs_of hi (fun _ _ => Nat.one_pos) fun s v b x _ hone hx ⟨landed, acc⟩ =>
    ⟨rowLanded_of_landed hone.dims hone.noStep acc landed, ?_⟩
  obtain ⟨r1, h1, w1⟩ := h s v b x hone acc hx
  exact ⟨r1, h1, w1.count.trans hone.first, w1.done⟩

theorem accZero_performs : Performs .accZero .m 5
    { used := fun _ => []
      ok := fun s v f _ => (∀ z ∈ (s.tile v.c v.t).accLand, z.loc ≠ accRow v f 0) ∧ InAcc f 0
      writes := fun _ v f _ => [.bytes (accRow v f 0) (List.replicate 512 0)] } := by
  refine performs_rowWrites (step := stepAccZero) (fun _ _ _ => rfl) fun s v b x hone acc _ => ?_
  obtain ⟨r1, h1, w1⟩ := storeRow (bs := List.replicate 512 0) hone.toGoesNow.plain hone.form acc List.length_replicate
  refine ⟨r1, ?_, w1⟩
  unfold stepAccZero
  rw [EngM.bind_ok (EngM.get_ok _)]
  exact (EngM.bind_ok (placeRow_at hone.dims hone.noStep acc rfl)).trans h1

/-- The word as which acc.ld writes a code of A. -/
def accWord (f : Block) (code : Nat) : Nat :=
  match valOf (tyOf f 1) code with
  | .i z => narrow 8 false z
  | .f y => (roundTo fp32 0 0 false y).1

theorem accLd_performs : Performs .accLd .m 6
    { used := fun f => [(1, 128 * unitOf (tyOf f 1))]
      ok := fun s v f _ => (∀ z ∈ (s.tile v.c v.t).accLand, z.loc ≠ accRow v f 0) ∧ InAcc f 0
      writes := fun s v f x => [.bytes (accRow v f 0) ((List.range 128).flatMap fun j => bytesOf 4 (accWord f (mmaCode s f (x 1) j)))] } := by
  refine performs_rowWrites (step := stepAccLd) (fun _ _ _ => rfl) fun s v b x hone acc hx => ?_
  have plain := hone.toGoesNow.plain
  have run : Lies v b.f 1 (x 1) (128 * unitOf (tyOf b.f 1)) := hx _ (List.mem_singleton.2 rfl)
  obtain ⟨r1, h1, w1⟩ := storeRow (bs := (List.range 128).flatMap fun j => bytesOf 4 (accWord b.f (mmaCode s b.f (x 1) j))) plain hone.form acc
    (by simp [bytesOf_length])
  refine ⟨r1, ?_, w1⟩
  unfold stepAccLd
  rw [EngM.bind_ok (EngM.get_ok _)]
  refine (EngM.bind_ok (placeRow_at hone.dims hone.noStep acc rfl)).trans ?_
  refine (EngM.bind_ok (readRun_at plain (run.elem hone.dims hone.noStep (idx b 0)))).trans ?_
  rw [List.flatMap_map, hone.noFlush]
  exact h1

/-! wload (R205, R207). -/

/-- The pitch of a block's rows of weights. -/
def pitchOf (f : Block) : Nat := (sx (fbits f 24 0 32) 32).toNat

/-- A weight as a set holds it: its code, and its scale if the block has scales. -/
def weightAt (s : State) (v : Site) (f : Block) (x k j : Nat) : BitVec 16 × Option (BitVec 10) :=
  (BitVec.ofNat 16 (codeAt s (tyOf f 2) (x + (k * pitchOf f + j) * unitOf (tyOf f 2))),
    if fbits f 22 11 1 = 1 then some (BitVec.ofNat 10 (tableAt s v (fbits f 23 0 20 / 2 * 2 + 2 * (k / 32 * 128 + j)) 2)) else none)

/-- A set as wload leaves it. -/
def loadedSet (s : State) (v : Site) (f : Block) (x : Nat) : WeightSet :=
  ⟨setClass (tyOf f 2), fbits f 22 0 10, fbits f 22 11 1 == 1, tyOf f 2,
    (List.range (fbits f 22 0 10)).map fun k => (List.range 128).map (weightAt s v f x k)⟩

/-- The bytes that a set's rows take, and its scales (R207). -/
structure WloadFits (v : Site) (f : Block) (x : Nat) : Prop where
  pitch : 0 ≤ sx (fbits f 24 0 32) 32
  run : Lies v f 2 x (((fbits f 22 0 10 - 1) * pitchOf f + 128) * unitOf (tyOf f 2))
  scales : fbits f 22 11 1 = 1 → fbits f 23 0 20 / 2 * 2 + 2 * (fbits f 22 0 10 / 32 * 128 + 128) ≤ 0xc0000

/-- One weight of row k, as the step forms it from its code. -/
theorem weight_read {s : State} {v : Site} {b : Entry} {r : Run} (hs : r.s = s) (hb : r.b = b) (hr : Plain v r) {x k j : Nat}
    (h : WloadFits v b.f x) (hk : k < fbits b.f 22 0 10) (hj : j < 128) :
    (do
      let sc ← if (fbits b.f 22 11 1 == 1) = true then auxRead v (fbits b.f 23 0 20 / 2 * 2 + 2 * (k / 32 * 128 + j)) 2 else pure 0
      return (BitVec.ofNat 16 (codeAt s (tyOf b.f 2) (x + (k * pitchOf b.f + j) * unitOf (tyOf b.f 2))),
        if (fbits b.f 22 11 1 == 1) = true then some (BitVec.ofNat 10 sc) else none) : EngM (BitVec 16 × Option (BitVec 10))) r =
      .ok (weightAt s v b.f x k j, r) := by
  subst hs hb
  unfold weightAt
  by_cases hbs : fbits r.b.f 22 11 1 = 1
  · have := h.scales hbs
    have : k / 32 ≤ fbits r.b.f 22 0 10 / 32 := Nat.div_le_div_right hk.le
    have aux := auxRead_own (n := 2) hr.toCalm (show fbits r.b.f 23 0 20 / 2 * 2 + 2 * (k / 32 * 128 + j) < 2 ^ 20 by omega)
    simp only [hbs, beq_self_eq_true, if_true]
    exact EngM.bind_ok aux
  · simp only [hbs, beq_iff_eq, if_false]
    rfl

/-- Row k of the weights, read element by element. -/
theorem weightRow_read {s : State} {v : Site} {b : Entry} {op x k : Nat} (hone : OneElem s v b op) (h : WloadFits v b.f x)
    (hk : k < fbits b.f 22 0 10) :
    readRun v 2 (tyOf b.f 2) (stepAddr (addrOf b.f 2 (idx b 0) v.t) ((k : Int) * sx (fbits b.f 24 0 32) 32) (tyOf b.f 2)) 128
        ⟨s, b, 0, [], [], none⟩ =
      .ok ((List.range 128).map fun j => codeAt s (tyOf b.f 2) (x + (k * pitchOf b.f + j) * unitOf (tyOf b.f 2)), ⟨s, b, 0, [], [], none⟩) := by
  have first := h.run.elem hone.dims hone.noStep (idx b 0)
  have pitch : (k : Int) * sx (fbits b.f 24 0 32) 32 = ((k * pitchOf b.f : Nat) : Int) := by
    unfold pitchOf; push_cast; rw [Int.toNat_of_nonneg h.pitch]
  have size : k * pitchOf b.f * unitOf (tyOf b.f 2) + 128 * unitOf (tyOf b.f 2) ≤
      ((fbits b.f 22 0 10 - 1) * pitchOf b.f + 128) * unitOf (tyOf b.f 2) := by
    rw [← Nat.add_mul]
    exact Nat.mul_le_mul_right _ (Nat.add_le_add_right (Nat.mul_le_mul_right _ (by omega)) _)
  have row := first.step size
  rw [pitch, stepAddr_eq (lt_trans row.small (by decide)),
    readRun_at (r := ⟨s, b, 0, [], [], none⟩) hone.toGoesNow.plain row]
  simp only [Nat.add_assoc, Nat.add_mul]

theorem stepWload_loads {s : State} {v : Site} {b : Entry} {op x : Nat} (hone : OneElem s v b op) (h : WloadFits v b.f x) :
    stepWload v 0 ⟨s, b, 0, [], [], none⟩ = .ok (⟨⟩, ⟨s.modTile v.c v.t fun y =>
      { y with sets := y.sets.set (fbits b.f 22 10 1 % 2) (loadedSet s v b.f x) (Nat.mod_lt _ (by decide)) }, b, 0, [], [], none⟩) := by
  have plain := hone.toGoesNow.plain
  have rows : (List.range (fbits b.f 22 0 10)).mapM (fun (k : Nat) => do
        let codes ← readRun v 2 (tyOf b.f 2) (stepAddr (addrOf b.f 2 (idx b 0) v.t) ((k : Int) * sx (fbits b.f 24 0 32) 32) (tyOf b.f 2)) 128
        (codes.zipIdx).mapM fun (x : Nat × Nat) => do
          let sc ← if fbits b.f 22 11 1 == 1 then auxRead v (fbits b.f 23 0 20 / 2 * 2 + 2 * (k / 32 * 128 + x.2)) 2 else pure 0
          return (BitVec.ofNat 16 x.1, if fbits b.f 22 11 1 == 1 then some (BitVec.ofNat 10 sc) else none) :
            Nat → EngM (List (BitVec 16 × Option (BitVec 10)))) ⟨s, b, 0, [], [], none⟩ =
      .ok ((List.range (fbits b.f 22 0 10)).map fun k => (List.range 128).map (weightAt s v b.f x k), ⟨s, b, 0, [], [], none⟩) := by
    refine mapM_reads fun k hk => ?_
    refine (EngM.bind_ok (weightRow_read hone h (List.mem_range.1 hk))).trans ?_
    rw [zipIdx_range_map, List.mapM_map]
    exact mapM_reads fun j hj => weight_read rfl rfl plain h (List.mem_range.1 hk) (List.mem_range.1 hj)
  unfold stepWload
  rw [EngM.bind_ok (EngM.get_ok _)]
  exact EngM.bind_ok rows

theorem wload_performs : Performs .wload .m 4
    { used := fun f => [(2, ((fbits f 22 0 10 - 1) * pitchOf f + 128) * unitOf (tyOf f 2))]
      ok := fun _ _ f _ => 0 ≤ sx (fbits f 24 0 32) 32 ∧
        (fbits f 22 11 1 = 1 → fbits f 23 0 20 / 2 * 2 + 2 * (fbits f 22 0 10 / 32 * 128 + 128) ≤ 0xc0000)
      tile := fun s v f x y =>
        { y with sets := y.sets.set (fbits f 22 10 1 % 2) (loadedSet s v f (x 2)) (Nat.mod_lt _ (by decide)) } } :=
  performs_of (body := wloadOp) (fun _ _ _ => rfl) (fun _ _ => Nat.one_pos) fun _ _ _ _ _ hone hx ⟨pitch, scales⟩ =>
    ⟨rfl, _, stepWload_loads hone ⟨pitch, hx _ (List.mem_singleton.2 rfl), scales⟩, hone.first,
      stepDone_of_tile (fun _ => rfl) (fun _ => rfl) fun _ => rfl⟩

/-- Settles O43. -/
theorem matrixOperators : Obligations.MatrixOperators := by
  unfold Obligations.MatrixOperators
  refine ⟨?_, ?_, mmaChain_performs, wload_performs, accZero_performs, accLd_performs⟩
  · exact mma_performs false (fun _ _ _ => rfl) fun s v b loaded landed => by rw [loaded, landed rfl]; rfl
  · exact mma_performs true (fun _ _ _ => rfl) fun _ _ _ loaded _ => loaded

end Sys2Proof.Machine
end

section
/-! PROOF. What a source operand reads, words that have no meaning, predicate words (02 R47 to R50, R64, R65, 03 R71 to R81, 04 R103). -/

namespace Sys2Proof.Machine

/-! Source operands (R48 to R50, R64, R65). -/

theorem rd_of_readable {s : State} {f : Sreg} (h : Readable s f) (pos : Nat) : rd s f pos = s.me.regs.get f.toFin := by
  obtain ⟨landed, live⟩ := h
  have alive : ¬(f = 0 ∧ s.me.qLive = false) := fun ⟨hq, dead⟩ => absurd (live hq) (by rw [dead]; exact Bool.false_ne_true)
  simp only [rd, landed, Bool.false_eq_true, if_false, if_neg alive]

theorem rd_of_regBusy {s : State} {f : Sreg} (h : s.me.regBusy s.cycle f = true) (pos : Nat) :
    rd s f pos = Config.freeWord s.fresh pos := if_pos h

theorem rd_dead_q {s : State} (h : s.me.qLive = false) (pos : Nat) : rd s 0 pos = Config.freeWord s.fresh pos := by
  unfold rd; simp only [h, and_self, if_true, ite_self]

theorem rdp_zero (s : State) (pos : Nat) : rdp s 0 pos = true := if_pos rfl

theorem rdp_of_readable {s : State} {p : Preg} (hp : p ≠ 0) (h : ReadableP s p) (pos : Nat) : rdp s p pos = s.me.preds.getLsbD p.toNat := by
  unfold rdp; rw [if_neg hp, h hp, if_neg Bool.false_ne_true]

theorem rdp_of_predBusy {s : State} {p : Preg} (hp : p ≠ 0) (h : s.me.predBusy s.cycle p = true) (pos : Nat) :
    rdp s p pos = Config.freeBool s.fresh pos := by
  unfold rdp; rw [if_neg hp, if_pos h]

/-- Settles O7. -/
theorem operandReads : Obligations.OperandReads := fun _ _ _ pos =>
  ⟨fun h => rd_of_readable h pos, fun h => rd_of_regBusy h pos, fun hf h => hf ▸ rd_dead_q h pos, rdp_zero _ pos,
    fun hp h => rdp_of_readable hp h pos, fun hp h => rdp_of_predBusy hp h pos⟩

/-! Words written out (R71 to R81). -/

/-- Settles O4, by decoding each word. -/
theorem decodeWorkedWords : Obligations.DecodeWorkedWords := by
  unfold Obligations.DecodeWorkedWords
  decide

/-! Words that trap (R47, R79, R94). -/

theorem fits_nil (s : State) : Fits s [] := fun _ h => nomatch h

/-- A word that is illegal when it issues traps with itself in xtval (R79). -/
theorem issueWord_illegal {s : State} (h : Runs s) :
    issueWord [] trapIllegal s = .next (takeTrap s s.cur.c s.cur.k true 0x01 false 0 (s.cur.word.setWidth 64) s.me.pc) :=
  issueWord_next h (fits_nil s) _

theorem badField_cons_of_le {n f : Nat} (h : n ≤ f) (fs : List Nat) : badField n (f :: fs) = some f :=
  List.find?_cons_of_pos (decide_eq_true h)

theorem badField_cons_of_lt {n f : Nat} (h : f < n) (fs : List Nat) : badField n (f :: fs) = badField n fs :=
  List.find?_cons_of_neg (by simpa using h)

/-- A word whose first field beyond the allotment is f takes the allotment trap and names f (R47). -/
theorem traps_of_badField {i : Instr} {s : State} {fields : List Nat} {body : State → State} {f : Sreg} (h : Runs s)
    (hi : exec i s = issueWord fields body s) (hf : badField s.me.allot fields = some f.toNat) :
    Traps i s 0x02 (f.setWidth 16) (s.cur.word.setWidth 64) := by
  have trapped := issueWord_trap h hf body
  rw [BitVec.ofNat_toNat] at trapped
  exact hi.trans trapped

/-- Settles O19. -/
theorem illegalWordsTrap : Obligations.IllegalWordsTrap := by
  intro s m d a b h
  have add (f : Sreg) (hf : badField s.me.allot [d.toNat, a.toNat, b.toNat] = some f.toNat) :
      Traps (.add m d a b) s 0x02 (f.setWidth 16) (s.cur.word.setWidth 64) :=
    traps_of_badField (body := fun s => writeBack m d (rd s a 1 + rd s b 2) 1 s) h rfl hf
  have unassigned : exec .unassignedEncoding s = issueWord [] trapIllegal s := rfl
  refine ⟨unassigned.trans (issueWord_illegal h), fun hd => add d ?_, fun hd ha => add a ?_, fun hd ha hb => add b ?_⟩
  · exact badField_cons_of_le hd _
  · rw [badField_cons_of_lt hd, badField_cons_of_le ha]
  · rw [badField_cons_of_lt hd, badField_cons_of_lt ha, badField_cons_of_le hb]

/-! Predicate words (R50, R103). -/

/-- The word that psave writes: bit i is what predicate i reads. -/
def savedPreds (s : State) : W := BitVec.ofNat 64 (((List.range 8).map fun i => (rdp s (BitVec.ofNat 3 i) i).toNat * 2 ^ i).sum)

theorem savedPreds_eq_ofBits (s : State) :
    savedPreds s = BitVec.ofNat 64 (Nat.ofBits fun i : Fin 8 => rdp s (BitVec.ofNat 3 i) i) := by
  have sum : ((List.range 8).map fun i => (rdp s (BitVec.ofNat 3 i) i).toNat * 2 ^ i).sum =
      Nat.ofBits fun i : Fin 8 => rdp s (BitVec.ofNat 3 i) i := by
    simp [List.range_succ, Nat.ofBits_succ]; ring
  rw [savedPreds, sum]

theorem savedPreds_get (s : State) (i : Preg) : (savedPreds s).getLsbD i.toNat = rdp s i i.toNat := by
  have hi := i.isLt
  rw [savedPreds_eq_ofBits, BitVec.getLsbD_ofNat, Nat.testBit_ofBits_lt _ _ hi, BitVec.ofNat_toNat, BitVec.setWidth_eq]
  simp only [show i.toNat < 64 by omega, decide_true, Bool.true_and]

theorem savedPreds_high (s : State) {i : Nat} (h : 8 ≤ i) : (savedPreds s).getLsbD i = false := by
  rw [savedPreds_eq_ofBits, BitVec.getLsbD_ofNat, Nat.testBit_ofBits_ge _ _ h, Bool.and_false]

theorem savedPreds_zero (s : State) : (savedPreds s).getLsbD 0 = true := (savedPreds_get s 0).trans (rdp_zero s 0)

/-- A write of several predicates and its retirement. -/
theorem wrPreds_retire (m : Marks) (mask v : BitVec 8) (hm : mask &&& 0xfe ≠ 0) (bound : Nat) (fl : Option (BitVec 5)) (s : State) :
    let t := retire m (s.modMe (·.wrPreds s.cycle mask v bound fl))
    t.me.preds = s.me.preds &&& ~~~(mask &&& 0xfe) ||| v &&& (mask &&& 0xfe) ∧
    t.me.flights = s.me.flights ++ [⟨.preds (mask &&& 0xfe), s.cycle + bound, fl, s.cycle⟩] ∧ PredFrame s t (mask &&& 0xfe) := by
  intro t
  have still : t.me.still = (s.me.wrPreds s.cycle mask v bound fl).still := by
    rw [show t = retire m _ from rfl, retire_still, State.me_modMe]
  have preds : t.me.preds = s.me.preds &&& ~~~(mask &&& 0xfe) ||| v &&& (mask &&& 0xfe) := by
    have h := congrArg Strand.preds still; exact h
  refine ⟨preds, ?_, (WordFrame.modMe _ _).trans (retire_frame _ _), ?_, by rw [still]; rfl⟩
  · have h := congrArg Strand.flights still
    simp only [Strand.wrPreds, Strand.still, if_neg hm] at h
    exact h
  · rw [preds]
    generalize mask &&& 0xfe = k
    ext i hi; simp; cases k[i] <;> simp

/-- Settles O12. -/
theorem predicateWords : Obligations.PredicateWords := by
  intro m d a b r
  have op (f : Bool → Bool → Bool) {i : Instr} (hi : ∀ s, exec i s = predOp f m d a b s) :
      WritesPred i [] d (fun s => f (rdp s a 1) (rdp s b 2)) 1 (fun _ => none) := writesPred_of (m := m) hi fun _ => rfl
  refine ⟨op (fun x y => x && y) fun _ => rfl, op (fun x y => x || y) fun _ => rfl, ?_, op (fun x y => x && !y) fun _ => rfl,
    writesPred_of (m := m) (w := fun s => rdp s a 1) (fun _ => rfl) fun _ => rfl,
    ⟨savedPreds, writesReg_of (m := m) fun _ => rfl, fun s => ⟨savedPreds_zero s, savedPreds_get s, fun i => savedPreds_high s⟩⟩, ?_⟩
  · have pxor := op (fun x y => x != y) (i := .pxor m d a b) fun _ => rfl
    simpa only [Bool.bne_eq_xor] using pxor
  · intro s hr hf
    obtain ⟨preds, flights, frame⟩ := wrPreds_retire m 0xff ((rd s r 1).setWidth 8) (by decide) 1 none s
    have loads : exec (.pload m r) s =
        issueWord [r.toNat] (fun s => retire m (s.modMe (·.wrPreds s.cycle 0xff ((rd s r 1).setWidth 8) 1 none))) s := rfl
    refine ⟨_, loads.trans (issueWord_next hr hf _), fun i lo hi => ?_, flights, frame⟩
    have bit : (0xff &&& 0xfe : BitVec 8).getLsbD i = true := by interval_cases i <;> rfl
    rw [preds, BitVec.getLsbD_or, BitVec.getLsbD_and, BitVec.getLsbD_not, BitVec.getLsbD_and (x := BitVec.setWidth 8 _), bit]
    simp [hi]

end Sys2Proof.Machine
end

section
/-! PROOF. Control registers: what they read as, how a write goes under way and what it leaves (02 R55 to R62, 05 R157, R160, R164, 08 R267). -/

namespace Sys2Proof.Machine

/-! Words that may be illegal when they issue (R56, R79). -/

theorem issueLegal_next {s : State} {legal : State → Bool} {fields : List Nat} (h : Runs s) (hf : Fits s fields) (hl : legal s = true)
    (body : State → State) : issueLegal legal fields body s = .next (body s) := by
  unfold issueLegal; rw [if_pos hl, issueWord_next h hf]

theorem traps_of_illegal {i : Instr} {s : State} {legal : State → Bool} {fields : List Nat} {body : State → State} (h : Runs s)
    (hi : exec i s = issueLegal legal fields body s) (hl : legal s = false) : Traps i s 0x01 0 (s.cur.word.setWidth 64) := by
  have trapped : issueLegal legal fields body s = _ := (if_neg (by rw [hl]; exact Bool.false_ne_true)).trans (issueWord_illegal h)
  exact hi.trans trapped

/-! What a control register reads as (R55, R57, R59). -/

theorem xstatusOf_eq (x : Core) (t : Strand) : xstatusOf x t = (t.xstatus &&& ~~~0x10) ||| if x.narrowed then 0x10 else 0 := by
  unfold xstatusOf setBit
  rw [show (1 : W) <<< 4 = 0x10 from rfl]
  cases x.narrowed
  · simp
  · have absorb (a k : W) : a ||| k = a &&& ~~~k ||| k := by
      ext i hi; simp only [BitVec.getElem_or, BitVec.getElem_and, BitVec.getElem_not]; cases k[i] <;> simp
    exact absorb ..

theorem xflq_eq (t : Strand) : t.xflq =
    BitVec.ofNat 64 (t.flqHead.toNat + 8 * t.flq.length + (t.flqHalt.map fun h => 128 + 256 * h.idx.toNat).getD 0) := by
  unfold Strand.xflq; cases t.flqHalt <;> rfl

/-- The control-register number of a mailbox. -/
def mailboxNumber (i : Fin 8) : BitVec 8 := 0x10 + BitVec.ofFin (i.castLE (by decide))

theorem mailboxNumber_toNat (i : Fin 8) : (mailboxNumber i).toNat = 16 + i.val := by revert i; decide

theorem readCtl_mailbox (s : State) (c : Cl) (k : Sn) (i : Fin 8) : readCtl s c k (mailboxNumber i) = some ((s.core c).mbox.get i) := by
  fin_cases i <;> rfl

/-- No number from 0x24 on names a register. -/
theorem lt_of_readCtl {s : State} {c : Cl} {k : Sn} {n : BitVec 8} (h : readCtl s c k n ≠ none) : n.toNat < 0x24 := by
  revert h; unfold readCtl; split <;> simp_all

theorem readCtl_unassigned (s : State) (c : Cl) (k : Sn) {n : BitVec 8} (h : n = 0x1e ∨ n = 0x1f ∨ 0x24 ≤ n) : readCtl s c k n = none := by
  obtain rfl | rfl | above := h
  · rfl
  · rfl
  · by_contra assigned
    exact absurd (lt_of_readCtl assigned) (Nat.not_lt.2 above)

/-! Reading one (R56, R63, R157, R164, R267). -/

/-- What xrd does where its register is assigned. -/
theorem xrd_next {s : State} {m : Marks} {d : Sreg} {n : BitVec 8} {v : W} (h : Runs s) (hf : Fits s [d.toNat])
    (hv : readCtl s s.cur.c s.cur.k n = some v) :
    exec (.xrd m d n) s = .next (if n = 0x09 ∧ s.me.xlates ≠ [] then hold s else retire m (wr d v 2 (mailboxRead n s))) := by
  have legal : ctlReadable n s = true := by unfold ctlReadable; rw [hv]; rfl
  have read := issueLegal_next h hf legal (fun s =>
    if n = 0x09 ∧ s.me.xlates ≠ [] then hold s else writeBack m d ((readCtl s s.cur.c s.cur.k n).getD 0) 2 (mailboxRead n s))
  rw [hv] at read
  exact read

/-- A mailbox that the host has not written reads plainly. -/
theorem mailboxRead_unwritten {s : State} (h : s.myCore.mboxHost = 0) (n : BitVec 8) : mailboxRead n s = s := by
  unfold mailboxRead; split
  · rw [h]; simp
  · rfl

theorem mailboxOf_mailboxNumber (i : Fin 8) : mailboxOf (mailboxNumber i) = some i := by revert i; decide

/-- The host's mark of a mailbox goes. -/
def Core.unmarkMailbox (x : Core) (i : Fin 8) : Core := { x with mboxHost := x.mboxHost &&& ~~~((1 : BitVec 8) <<< i.val) }

/-- A mailbox that the host has written acquires, and its mark goes (R267). -/
theorem mailboxRead_written {s : State} {i : Fin 8} (h : s.myCore.mboxHost.getLsbD i.val = true) :
    mailboxRead (mailboxNumber i) s = (acquireAt s.cur.c (scopeSet s s.cur.c 31) s).modMyCore (·.unmarkMailbox i) := by
  unfold mailboxRead; rw [mailboxOf_mailboxNumber]; exact if_pos h

theorem State.myCore_modMyCore (s : State) (f : Core → Core) : (s.modMyCore f).myCore = f s.myCore := State.core_modMyCore s f

theorem WordFrame.mboxHost_eq {s t : State} (h : WordFrame s t) : t.myCore.mboxHost = s.myCore.mboxHost := by
  have same := congrArg Core.mboxHost h.core
  rw [State.myCore, h.cur_eq]; exact same

/-- One mark goes, and the others stand. -/
theorem Core.unmarkMailbox_get (x : Core) (i j : Fin 8) :
    (x.unmarkMailbox i).mboxHost.getLsbD j.val = (x.mboxHost.getLsbD j.val && decide (j ≠ i)) := by
  have bit : ((1 : BitVec 8) <<< i.val).getLsbD j.val = decide (j = i) := by revert i j; decide
  rw [Core.unmarkMailbox, BitVec.getLsbD_and, BitVec.getLsbD_not, bit]; simp

/-- The marks behind a read of a mailbox that the host has written. -/
theorem mailboxRead_marks {s : State} {i : Fin 8} (h : s.myCore.mboxHost.getLsbD i.val = true) (j : Fin 8) :
    (mailboxRead (mailboxNumber i) s).myCore.mboxHost.getLsbD j.val =
      ((acquireAt s.cur.c (scopeSet s s.cur.c 31) s).myCore.mboxHost.getLsbD j.val && decide (j ≠ i)) := by
  rw [mailboxRead_written h, State.myCore_modMyCore, Core.unmarkMailbox_get]

/-- Settles O20. -/
theorem controlRegisterReads : Obligations.ControlRegisterReads := by
  refine ⟨fun s c k => ⟨congrArg some (xstatusOf_eq ..), rfl, rfl, rfl, rfl, rfl, rfl, rfl, rfl, rfl, rfl, rfl, rfl, rfl, congrArg some (xflq_eq _), rfl,
      readCtl_mailbox s c k, rfl, rfl, rfl, rfl, rfl, rfl, rfl, rfl, rfl, rfl, fun n => readCtl_unassigned s c k, ?_⟩,
    fun m d n => ⟨?_, ?_, writesReg_of (m := m) fun _ => rfl, writesReg_of (m := m) fun _ => rfl, writesReg_of (m := m) fun _ => rfl⟩, ?_⟩
  · intro m d n unassigned h
    exact traps_of_illegal (legal := ctlReadable n) h rfl (by unfold ctlReadable; rw [unassigned]; rfl)
  · intro s v h hf hv unwritten idle
    have goes : ¬(n = 0x09 ∧ s.me.xlates ≠ []) := fun ⟨hn, busy⟩ => busy (idle hn)
    refine ⟨_, xrd_next h hf hv, ?_⟩
    rw [if_neg goes, mailboxRead_unwritten unwritten]
    exact wr_retire m d v 2 none s
  · intro s h hf busy
    exact (xrd_next h hf (n := 0x09) rfl).trans (congrArg _ (if_pos ⟨rfl, busy⟩))
  · intro m d i s h hf written
    obtain ⟨value, -, frame⟩ := wr_retire m d (s.myCore.mbox.get i) 2 none (mailboxRead (mailboxNumber i) s)
    have goes : ¬(mailboxNumber i = 0x09 ∧ s.me.xlates ≠ []) := fun ⟨hn, _⟩ => by
      have := mailboxNumber_toNat i; rw [hn] at this; simp at this; omega
    have mem := congrArg State.mem (mailboxRead_written written)
    have marks (j : Fin 8) := (congrArg (·.getLsbD j.val) frame.word.mboxHost_eq).trans (mailboxRead_marks written j)
    refine ⟨_, (xrd_next h hf (readCtl_mailbox ..)).trans (congrArg _ (if_neg goes)), value, frame.word.mem_eq.trans mem,
      (marks i).trans ?_, fun j hj => (marks j).trans ?_⟩
    · rw [decide_eq_false (not_not_intro rfl), Bool.and_false]
    · rw [decide_eq_true hj, Bool.and_true]

/-! Writing one (R55, R56, R160). -/

theorem ctlAccess_never (n : BitVec 8) :
    (n ∈ [0x09, 0x0b, 0x0f, 0x20, 0x21, 0x23, 0x1e, 0x1f] ∨ 0x24 ≤ n) ↔ ctlAccess n = .never := by revert n; decide

theorem ctlAccess_firmware (n : BitVec 8) : (n = 0x0c ∨ n = 0x0e) ↔ ctlAccess n = .firmware := by revert n; decide

theorem ctlCore_iff (n : BitVec 8) : (n = 0x0a ∨ n = 0x0c ∨ n = 0x22 ∨ (0x10 ≤ n ∧ n ≤ 0x17)) ↔ ctlCore n = true := by revert n; decide

/-- Which writes are legal when they issue. -/
theorem ctlWritable_iff (n : BitVec 8) (s : State) :
    ctlWritable n s = true ↔ ctlAccess n ≠ .never ∧ (ctlAccess n = .firmware → s.me.xstatus.getLsbD 1 = true) := by
  unfold ctlWritable; cases ctlAccess n <;> simp [stBit]

/-! What a word leaves alone that acts on its core. -/

/-- Everything outside the current strand's core, and the other strands of it, but for their rendezvous. -/
structure OwnCore (s t : State) : Prop where
  outside : sameOutside s t
  clusters : sameClusters s t
  strands : sameStrands s t

theorem WordFrame.ownCore {s t : State} (h : WordFrame s t) : OwnCore s t := ⟨h.outside, h.clusters, h.strands⟩

theorem OwnCore.cur_eq {s t : State} (h : OwnCore s t) : t.cur = s.cur := by
  have := congrArg State.cur h.outside; exact this

theorem OwnCore.trans {s t u : State} (h : OwnCore s t) (g : OwnCore t u) : OwnCore s u := by
  have hc := h.cur_eq
  refine ⟨?_, fun c hne => ?_, fun k hk => ?_⟩
  · have a := h.outside
    have b := g.outside
    unfold sameOutside at a b ⊢
    exact (congrArg (fun x : State => { x with cores := s.cores, fresh := s.fresh }) b).trans a
  · rw [g.clusters c (by rw [hc]; exact hne), h.clusters c hne]
  · have b := g.strands k (by rw [hc]; exact hk)
    rw [hc] at b
    exact (congrArg (fun x : Strand => { x with zWait := (s.strand s.cur.c k).zWait }) b).trans (h.strands k hk)

/-- A change of the current core that keeps its strands. -/
theorem OwnCore.modMyCore (s : State) {f : Core → Core} (hf : (f s.myCore).strands = s.myCore.strands) : OwnCore s (s.modMyCore f) := by
  refine ⟨rfl, fun c hc => State.core_modCore_ne s f hc, fun k _ => ?_⟩
  simp only [State.strand, State.core_modMyCore]
  unfold Core.strand; rw [hf]; rfl

theorem State.me_modMyCore (s : State) {f : Core → Core} (hf : (f s.myCore).strands = s.myCore.strands) : (s.modMyCore f).me = s.me := by
  have strands : (s.modMyCore f).myCore.strands = s.myCore.strands := by rw [State.myCore_modMyCore, hf]
  exact congrArg (fun v : Vector Strand 4 => v.get s.cur.k) strands

theorem WordFrame.ctl_eq {s t : State} (h : WordFrame s t) : t.myCore.ctl = s.myCore.ctl := by
  have same := congrArg Core.ctl h.core
  rw [State.myCore, h.cur_eq]; exact same

/-- A control-register write goes under way on its strand, or on its core where the register is the core's (R55, R56). -/
theorem ctlWrite_retires (m : Marks) (w : CtlWrite) (shared : Bool) (s : State) :
    let t := retire m (if shared then s.modMyCore (fun x => { x with ctl := x.ctl ++ [w] }) else s.modMe fun t => { t with ctl := t.ctl ++ [w] })
    (t.me.ctl = if shared then s.me.ctl else s.me.ctl ++ [w]) ∧ (t.myCore.ctl = if shared then s.myCore.ctl ++ [w] else s.myCore.ctl) ∧
      OwnCore s t ∧ { t.me.still with ctl := s.me.ctl } = s.me.still := by
  intro t
  cases shared with
  | false =>
    have frame : WordFrame s t := (WordFrame.modMe s _).trans (retire_frame m _)
    have still : t.me.still = { s.me with ctl := s.me.ctl ++ [w] }.still := (retire_still m _).trans (congrArg _ (State.me_modMe s _))
    have ctl := congrArg Strand.ctl still
    exact ⟨ctl, frame.ctl_eq, frame.ownCore, congrArg (fun t : Strand => { t with ctl := s.me.ctl }) still⟩
  | true =>
    have step := retire_frame m (s.modMyCore fun x => { x with ctl := x.ctl ++ [w] })
    have still : t.me.still = s.me.still := (retire_still m _).trans (congrArg _ (State.me_modMyCore s rfl))
    have ctl := congrArg Strand.ctl still
    exact ⟨ctl, step.ctl_eq.trans (congrArg Core.ctl (State.myCore_modMyCore ..)), (OwnCore.modMyCore s rfl).trans step.ownCore,
      congrArg (fun t : Strand => { t with ctl := s.me.ctl }) still⟩

/-- A legal control-register write completes so; shared says whether the register is the core's. -/
theorem ctlWrite_goes {i : Instr} {op : CtlOp} {m : Marks} {a : Sreg} {n : BitVec 8} {s : State} {shared : Prop}
    (hc : shared ↔ ctlCore n = true) (h : Runs s) (hf : Fits s [a.toNat]) (legal : ctlWritable n s = true)
    (hi : exec i s = ctlWrite op m a n s) :
    ∃ t, exec i s = .next t ∧
      (¬shared → t.me.ctl = s.me.ctl ++ [⟨s.cycle + 2, n, op, rd s a 1⟩] ∧ t.myCore.ctl = s.myCore.ctl) ∧
      (shared → t.me.ctl = s.me.ctl ∧ t.myCore.ctl = s.myCore.ctl ++ [⟨s.cycle + 2, n, op, rd s a 1⟩]) ∧
      sameOutside s t ∧ sameClusters s t ∧ sameStrands s t ∧ { t.me.still with ctl := s.me.ctl } = s.me.still := by
  obtain ⟨strand, core, frame, still⟩ := ctlWrite_retires m ⟨s.cycle + 2, n, op, rd s a 1⟩ (ctlCore n) s
  refine ⟨_, hi.trans (issueLegal_next h hf legal _), fun own => ⟨strand.trans ?_, core.trans ?_⟩, fun own => ⟨strand.trans ?_, core.trans ?_⟩,
    frame.outside, frame.clusters, frame.strands, still⟩
  · rw [if_neg (own ∘ hc.2)]
  · rw [if_neg (own ∘ hc.2)]
  · rw [if_pos (hc.1 own)]
  · rw [if_pos (hc.1 own)]

/-! What a write leaves when it takes effect (R57 to R62, R160). -/

/-- A register of n bits keeps the low n bits of what is written. -/
theorem setWidth_setWidth_eq_and (v : W) (n : Nat) (hn : n ≤ 64) : ((v.setWidth n).setWidth 64 : W) = v &&& BitVec.ofNat 64 (2 ^ n - 1) := by
  have le : 2 ^ n ≤ 2 ^ 64 := Nat.pow_le_pow_right (by decide) hn
  have pos : 0 < 2 ^ n := Nat.two_pow_pos n
  have low : v.toNat % 2 ^ n < 2 ^ n := Nat.mod_lt _ pos
  apply BitVec.eq_of_toNat_eq
  rw [BitVec.toNat_and, BitVec.toNat_ofNat, Nat.mod_eq_of_lt (show 2 ^ n - 1 < 2 ^ 64 by omega), Nat.and_two_pow_sub_one_eq_mod,
    BitVec.toNat_setWidth, BitVec.toNat_setWidth, Nat.mod_eq_of_lt (by omega)]

theorem Core.settleRendezvous_xjoin (x : Core) : x.settleRendezvous.xjoin = x.xjoin := by
  have same := congrArg Core.xjoin x.settleRendezvous_frame; exact same

/-- A write of xjoin (R61). -/
theorem Core.applyCtl_xjoin (x : Core) (cycle : Nat) (op : CtlOp) (v : W) :
    ((x.applyCtl cycle 0x0a op v).xjoin.setWidth 64 : W) = op.apply (x.xjoin.setWidth 64) v &&& 0xf := by
  have joined : (x.applyCtl cycle 0x0a op v).xjoin = (op.apply (x.xjoin.setWidth 64) v).setWidth 4 := Core.settleRendezvous_xjoin _
  rw [joined]; exact setWidth_setWidth_eq_and _ 4 (by decide)

/-- A write of xfflags (R58). -/
theorem Strand.applyCtl_xfflags (t : Strand) (op : CtlOp) (v : W) :
    ((t.applyCtl 0x06 op v).xfflags.setWidth 64 : W) = op.apply (t.xfflags.setWidth 64) v &&& 0x1f1f := by
  have flags : (t.applyCtl 0x06 op v).xfflags = (op.apply (t.xfflags.setWidth 64) v).setWidth 13 &&& 0x1f1f := rfl
  rw [flags, BitVec.setWidth_and, setWidth_setWidth_eq_and _ 13 (by decide), BitVec.and_assoc]; rfl

/-- A write of xrep outside a repetition (R59). -/
theorem Strand.applyCtl_xrep {t : Strand} (h : t.inRep = false) (op : CtlOp) (v : W) :
    (t.applyCtl 0x08 op v).xrep = op.apply t.xrep v :=
  congrArg Strand.xrep (if_neg fun both => absurd both.1 (by rw [h]; exact Bool.false_ne_true))

/-- A write of a mailbox (R62). -/
theorem Core.applyCtl_mailbox (x : Core) (cycle : Nat) (i : Fin 8) (op : CtlOp) (v : W) :
    (x.applyCtl cycle (mailboxNumber i) op v).mbox.get i = op.apply (x.mbox.get i) v := by
  have hi := i.isLt
  have place : Fin.ofNat 8 (16 + i.val) = i := Fin.ext (show (16 + i.val) % 8 = i.val by omega)
  unfold Core.applyCtl
  simp only [mailboxNumber_toNat, show ¬16 + i.val = 0x0a by omega, show ¬16 + i.val = 0x0c by omega, show ¬16 + i.val = 0x22 by omega,
    if_false, place]
  exact Vector.get_set_same ..

/-- Settles O21. -/
theorem controlRegisterWrites : Obligations.ControlRegisterWrites := by
  refine ⟨fun m a n s h => ⟨fun assigned level hf => ?_, fun illegal => ?_⟩, fun t x cyc op v =>
    ⟨rfl, rfl, rfl, rfl, rfl, setWidth_setWidth_eq_and _ 3 (by decide), Strand.applyCtl_xfflags t op v,
      setWidth_setWidth_eq_and _ 8 (by decide), fun out => Strand.applyCtl_xrep out op v, rfl, rfl, rfl, rfl, rfl, rfl, rfl,
      Core.applyCtl_xjoin x cyc op v, rfl, rfl, fun i => Core.applyCtl_mailbox x cyc i op v⟩⟩
  · have legal : ctlWritable n s = true := (ctlWritable_iff n s).2
      ⟨fun never => assigned ((ctlAccess_never n).2 never), fun firm => level ((ctlAccess_firmware n).2 firm)⟩
    have shared := ctlCore_iff n
    exact ⟨ctlWrite_goes shared h hf legal rfl, ctlWrite_goes shared h hf legal rfl, ctlWrite_goes shared h hf legal rfl⟩
  · have refused : ctlWritable n s = false := by
      rw [Bool.eq_false_iff, Ne, ctlWritable_iff, ← ctlAccess_firmware, Ne, ← ctlAccess_never]
      rintro ⟨assigned, level⟩
      obtain never | ⟨firm, low⟩ := illegal
      · exact assigned never
      · rw [level firm] at low; cases low
    have traps {i : Instr} {op : CtlOp} (hi : exec i s = ctlWrite op m a n s) : Traps i s 0x01 0 (s.cur.word.setWidth 64) :=
      traps_of_illegal h hi refused
    exact ⟨traps (op := .write) rfl, traps (op := .set) rfl, traps (op := .clear) rfl⟩

end Sys2Proof.Machine
end

section
/-! PROOF. Far loads, atomics and trigger words: claims of the far-load queue (02 R53, 05 R133 to R139, 13 R376 to R382). -/

namespace Sys2Proof.Machine

/-! Starting an access (R131, R133). -/

/-- A word that starts an access and claims an entry of the far-load queue for d (R53). -/
theorem claim_retires (m : Marks) (d : Sreg) (p : Pend) (s : State) :
    let t := retire m (claim d (post p s))
    t.me.flq = s.me.flq ++ [⟨d, .waiting⟩] ∧ t.me.pend = s.me.pend ++ [{ p with pc := s.me.pc }] ∧ PendFrame s t := by
  intro t
  have me : (claim d (post p s)).me =
      { s.me with flq := s.me.flq ++ [⟨d, .waiting⟩], pend := s.me.pend ++ [{ p with pc := s.me.pc }] } := by
    rw [claim, State.me_modMe, post, State.me_modMe]
  have still : t.me.still = _ := (retire_still m _).trans (congrArg Strand.still me)
  have flq := congrArg Strand.flq still
  have pend := congrArg Strand.pend still
  exact ⟨flq, pend, ((WordFrame.modMe s _).trans (WordFrame.modMe (post p s) _)).trans (retire_frame m _),
    congrArg (fun t : Strand => { t with pend := s.me.pend, flq := s.me.flq }) still⟩

theorem queueWord_full {s : State} (h : 8 ≤ s.me.flq.length) (d : Sreg) (p : BitVec 3 → Pend) (m : Marks) : queueWord s d p m = hold s := if_pos h

theorem queueWord_claims {s : State} (h : s.me.flq.length < 8) (d : Sreg) (p : BitVec 3 → Pend) (m : Marks) :
    queueWord s d p m = retire m (claim d (post (p s.me.nextSlot) s)) := if_neg (Nat.not_le.2 h)

/-- A word that puts a request to the island claims an entry for its answer, or holds while eight are claimed (R376 to R379). -/
theorem asksIsland {i : Instr} {s : State} {fields : List Nat} {d : Sreg} {kind : State → BitVec 3 → AccKind} {m : Marks} (h : Runs s)
    (hf : Fits s fields) (hi : exec i s = issueWord fields (fun s => queueWord s d (fun k => plainPend (kind s k) 0 (.loc 0 0)) m) s) :
    (s.me.flq.length < 8 → ∃ t, exec i s = .next t ∧ t.me.flq = s.me.flq ++ [⟨d, .waiting⟩] ∧ PendFrame s t ∧
      t.me.pend = s.me.pend ++ [⟨kind s s.me.nextSlot, 0, .loc 0 0, none, none, false, s.me.pc⟩]) ∧
    (8 ≤ s.me.flq.length → Holds i s) := by
  have goes := hi.trans (issueWord_next h hf _)
  refine ⟨fun room => ?_, fun full => goes.trans (congrArg _ (queueWord_full full d _ m))⟩
  obtain ⟨flq, pend, frame⟩ := claim_retires m d (plainPend (kind s s.me.nextSlot) 0 (.loc 0 0)) s
  exact ⟨_, goes.trans (congrArg _ (queueWord_claims room d _ m)), flq, frame, pend⟩

/-- A word that reaches an address for the far-load queue is a far word (R133). -/
theorem farWord_of {i : Instr} {fields : List Nat} {d : Sreg} {x : State → W} {n : Nat} {p : State → Tgt → BitVec 3 → Pend}
    {q : State → Tgt → BitVec 3 → Pend} {m : Marks}
    (hi : ∀ s, exec i s = issueWord fields (fun s => farTarget s (x s) n fun t => queueWord s d (q s t) m) s)
    (hp : ∀ s t k, { q s t k with pc := s.me.pc } = p s t k) : FarWord i fields d x n p := by
  intro s h hf
  have goes := (hi s).trans (issueWord_next h hf _)
  refine ⟨fun sp o reached room => ?_, fun v reached full => ?_, fun r failed => ?_⟩
  · have claims := goes.trans (congrArg _ ((by simp only [farTarget, reached]) : _ = queueWord s d (q s (tgtOf s s.cur.c sp o)) m))
    obtain ⟨flq, pend, frame⟩ := claim_retires m d (q s (tgtOf s s.cur.c sp o) s.me.nextSlot) s
    rw [hp] at pend
    exact ⟨_, claims.trans (congrArg _ (queueWord_claims room ..)), flq, pend, frame⟩
  · have holds := goes.trans (congrArg _ ((by simp only [farTarget, reached]) : _ = queueWord s d (q s (tgtOf s s.cur.c v.1 v.2)) m))
    exact holds.trans (congrArg _ (queueWord_full full ..))
  · exact goes.trans (congrArg _ (by simp only [farTarget, failed]; rfl))

/-- The address of a memory word (R130). -/
theorem memAddr_eq (base : W) (off : BitVec 6) (n : Nat) : memAddr base off n = base + BitVec.ofInt 64 (off.toInt * n) := by
  unfold memAddr
  rw [BitVec.ofInt_mul, BitVec.ofInt_natCast]; rfl

/-- A far load (R133). -/
theorem farWord_farLoad {i : Instr} {m : Marks} {d a : Sreg} {cls : BitVec 4} {off : BitVec 6} (n : Nat) (sg : Bool)
    (hi : ∀ s, exec i s = farLoad n sg m d a cls off s) :
    FarWord i [d.toNat, a.toNat] d (fun s => rd s a 1 + BitVec.ofInt 64 (off.toInt * n)) n
      (fun s u k => ⟨.load k n sg, cls.toNat, u, none, none, false, s.me.pc⟩) := by
  simp only [← memAddr_eq]
  exact farWord_of (q := fun _ t k => plainPend (.load k n sg) cls.toNat t) hi fun _ _ _ => rfl

/-- An atomic of one operand (R137, R382). -/
theorem farWord_amo {i : Instr} {m : Marks} {d a b : Sreg} (op : AmoOp) (hi : ∀ s, exec i s = amo op m d a b s) :
    FarWord i [d.toNat, a.toNat, b.toNat] d (fun s => rd s a 1) 8
      (fun s u k => ⟨.amo k op (rd s b 2) 0, 0, u, none, none, false, s.me.pc⟩) :=
  farWord_of (q := fun s t k => plainPend (.amo k op (rd s b 2) 0) 0 t) hi fun _ _ _ => rfl

/-- An atomic of a register pair (R76, R137, R382). -/
theorem farWord_amoPair {i : Instr} {m : Marks} {d a b : Sreg} (op : AmoOp) (hi : ∀ s, exec i s = amoPair op m d a b s) :
    FarWord i [d.toNat, a.toNat, b.toNat, b.toNat + 1] d (fun s => rd s a 1) 8
      (fun s u k => ⟨.amo k op (rd s b 2) (rd s (b + 1) 3), 0, u, none, none, false, s.me.pc⟩) :=
  farWord_of (q := fun s t k => plainPend (.amo k op (rd s b 2) (rd s (b + 1) 3)) 0 t) hi fun _ _ _ => rfl

/-- Settles O28. -/
theorem farAndTriggerWords : Obligations.FarAndTriggerWords := by
  refine ⟨fun m d a b cls off scope => ⟨farWord_farLoad 1 true fun _ => rfl, farWord_farLoad 1 false fun _ => rfl,
      farWord_farLoad 2 true fun _ => rfl, farWord_farLoad 2 false fun _ => rfl, farWord_farLoad 4 true fun _ => rfl,
      farWord_farLoad 4 false fun _ => rfl, farWord_farLoad 8 false fun _ => rfl, ?_,
      farWord_amo 0 fun _ => rfl, farWord_amo 1 fun _ => rfl, farWord_amo 2 fun _ => rfl, farWord_amo 3 fun _ => rfl,
      farWord_amo 4 fun _ => rfl, farWord_amo 5 fun _ => rfl, farWord_amo 6 fun _ => rfl, farWord_amo 7 fun _ => rfl,
      farWord_amo 8 fun _ => rfl, farWord_amoPair 9 fun _ => rfl, farWord_amoPair 10 fun _ => rfl,
      farWord_amo 0 fun _ => rfl, farWord_amo 1 fun _ => rfl, farWord_amo 2 fun _ => rfl, farWord_amo 3 fun _ => rfl,
      farWord_amo 4 fun _ => rfl, farWord_amo 5 fun _ => rfl, farWord_amo 6 fun _ => rfl, farWord_amo 7 fun _ => rfl,
      farWord_amo 8 fun _ => rfl, farWord_amoPair 9 fun _ => rfl⟩,
    fun m d a b => ⟨?_, fun s h hf => ?_, fun s h hf => ?_, fun s h hf => ?_⟩⟩
  · exact farWord_of (m := m) (q := fun s t k => ⟨.load k 8 false, 0, t, some (scopeSet s s.cur.c scope), none, true, 0⟩)
      (fun _ => rfl) fun _ _ _ => rfl
  · exact farWord_of (m := m) (q := fun s t k => ⟨.trig k 0 (rd s a 1) (rd s b 2), 0, t, none, some (scopeSet s s.cur.c 3), false, 0⟩)
      (fun _ => rfl) fun _ _ _ => rfl
  · exact asksIsland (m := m) (kind := fun s k => .trig k 1 0 (rd s b 2)) h hf rfl
  · exact asksIsland (m := m) (kind := fun s k => .trig k 2 0 (rd s b 2)) h hf rfl
  · exact asksIsland (m := m) (kind := fun s k => .trig k 4 (rd s a 1) 0) h hf rfl

end Sys2Proof.Machine
end

section

/-! PROOF. The far-load queue's pop, and its halt and restart (O30). -/

namespace Sys2Proof.Machine

/-! Translation does not look at the count of free values (R342). -/

/-- The state with another count of free values. -/
def State.withFresh (s : State) (n : Nat) : State := { s with fresh := n }

theorem State.setByte_withFresh (s : State) (n x : Nat) (v : Byte) : (s.withFresh n).setByte x v = (s.setByte x v).withFresh n :=
  (apply_ite (State.withFresh · n) (nowhere ≤ x ∨ s.uncoreOff x = true) s { s with mem := memSet s.mem x v }).symm

theorem readHome_withFresh (s : State) (n x : Nat) : ∀ len, readHome (s.withFresh n) x len = readHome s x len
  | 0 => rfl
  | len + 1 => congrArg (s.byte x :: ·) (readHome_withFresh s n (x + 1) len)
termination_by structural len => len

theorem writeBytes_withFresh (n : Nat) : ∀ (bs : List Byte) (s : State) (x : Nat),
    writeBytes (s.withFresh n) x bs = (writeBytes s x bs).withFresh n
  | [], _, _ => rfl
  | b :: bs, s, x => (congrArg (writeBytes · (x + 1) bs) (s.setByte_withFresh n x b)).trans (writeBytes_withFresh n bs _ _)

theorem recryptFrame_withFresh (old new : BitVec 512) (f n : Nat) (s : State) :
    recryptFrame old new f (s.withFresh n) = (recryptFrame old new f s).withFresh n := by
  unfold recryptFrame
  simp only [readHome_withFresh]
  exact List.foldl_hom (State.withFresh · n) fun z l => writeBytes_withFresh n _ z _

theorem keyFrame_withFresh (k f n : Nat) (s : State) : keyFrame k f (s.withFresh n) = (keyFrame k f s).withFresh n := by
  have uncore : (s.withFresh n).uncoreOff (f * 2 ^ 16) = s.uncoreOff (f * 2 ^ 16) := rfl
  unfold keyFrame
  simp only [uncore, recryptFrame_withFresh, show (s.withFresh n).pageKeys = s.pageKeys from rfl, show (s.withFresh n).keyBits = s.keyBits from rfl]
  split
  · rfl
  · split
    · split
      · rfl
      · split <;> rfl
    · rfl

theorem State.underKey_withFresh (s : State) (n a k : Nat) : (s.withFresh n).underKey a k = (s.underKey a k).withFresh n := by
  unfold State.underKey; rw [keyFrame_withFresh]; split <;> rfl

theorem tableWord_withFresh (s : State) (n a : Nat) : tableWord (s.withFresh n) a = tableWord s a := by
  unfold tableWord; rw [State.underKey_withFresh, readHome_withFresh]

theorem walkLeaf_withFresh (s : State) (n : Nat) (x : Fin 64) (va : Nat) : walkLeaf (s.withFresh n) x va = walkLeaf s x va := by
  unfold walkLeaf readPte; simp only [tableWord_withFresh]; rfl

theorem lookup_withFresh (s : State) (n : Nat) (tlb : List TlbEntry) (x : Fin 64) (va : Nat) (rd wr : Bool) (req : Option (BitVec 9)) :
    lookup (s.withFresh n) tlb x va rd wr req = lookup s tlb x va rd wr req := by
  unfold lookup walk; rw [walkLeaf_withFresh]; rfl

/-! The access side halts (R54, R346). -/

/-- A translation that fails. -/
theorem translateCore_error {s : State} {c : Cl} {va : Nat} {rd wr : Bool} {code : BitVec 8}
    (h : lookup s (s.core c).tlb (s.ctxOf c) va rd wr (s.requestKey c) = .error code) : translateCore s c va rd wr = (s, .error code) := by
  unfold translateCore; rw [h]

theorem resolve_virt_error {s : State} {c : Cl} {va : W} {rd wr : Bool} {code : BitVec 8} (n : Nat)
    (h : lookup s (s.core c).tlb (s.ctxOf c) va.toNat rd wr (s.requestKey c) = .error code) :
    resolve (s.withFresh n) c (.virt va) rd wr = (s.withFresh n, .error code) := by
  unfold resolve
  dsimp only
  rw [translateCore_error ((lookup_withFresh s n ..).trans h)]

/-- A far load or an atomic whose translation fails at its turn. -/
theorem performPend_fault {u : State} {c : Cl} {k : Sn} {kind : AccKind} {slot : BitVec 3} {cls : Nat} {va pc : W} {code : BitVec 8} {write : Bool}
    {acq : Option ScopeSet} {order : Bool}
    (hk : (∃ n sg, kind = .load slot n sg ∧ write = false) ∨ ∃ op y z, kind = .amo slot op y z ∧ write = true)
    (h : lookup u (u.core c).tlb (u.ctxOf c) va.toNat true write (u.requestKey c) = .error code) :
    performPend u c k ⟨kind, cls, .virt va, acq, none, order, pc⟩ = .fault (u.withFresh (u.fresh + 1)) code va write := by
  have stops := resolve_virt_error (u.fresh + 1) h
  unfold State.withFresh at stops
  obtain ⟨n, sg, rfl, rfl⟩ | ⟨op, y, z, rfl, rfl⟩ := hk
  · unfold performPend; dsimp only; rw [stops]; rfl
  · unfold performPend; dsimp only; rw [stops]; rfl

/-- The far-load queue after a halt: the faulting entry is recorded, and the die's firmware gets one fault more. -/
theorem haltFlq_spec (u : State) (c : Cl) (k : Sn) (slot : BitVec 3) (code : BitVec 8) (va pc : W) (write : Bool) :
    let t := haltFlq u c k slot code va write pc
    (t.strand c k).flqHalt = some ⟨slot, ⟨code, va, write⟩⟩ ∧ (t.strand c k).pend = (u.strand c k).pend ∧
      (t.strand c k).flq = (u.strand c k).flq ∧ t.mem = u.mem ∧
      (t.faultq.get (dieOf c)).length = (u.faultq.get (dieOf c)).length + 1 := by
  intro t
  have hs : t.strand c k = { u.strand c k with flqHalt := some ⟨slot, ⟨code, va, write⟩⟩ } :=
    State.strand_modStrand u c k fun x => { x with flqHalt := some ⟨slot, ⟨code, va, write⟩⟩ }
  refine ⟨by rw [hs], by rw [hs], by rw [hs], rfl, ?_⟩
  have hq : t.faultq.get (dieOf c) = u.faultq.get (dieOf c) ++ [_] := Vector.get_set_same ..
  rw [hq, List.length_append, List.length_singleton]

/-- A far access whose translation fails halts the access side at its entry. -/
theorem farEnd_halts {s u : State} {c : Cl} {k : Sn} {j : Nat} {p : Pend} {slot : BitVec 3} {code : BitVec 8} {va : W} {write : Bool}
    (hp : (s.strand c k).pend[j]? = some p) (hslot : p.kind.slot? = some slot) (hc : canPerform s c k j = true)
    (hu : translateOlder c k ((s.strand c k).pend.take j) s = some u)
    (hf : performPend u c k p = .fault (u.withFresh (u.fresh + 1)) code va write) :
    farEnd .faulted c k j s = haltFlq (u.withFresh (u.fresh + 1)) c k slot code va write p.pc := by
  unfold farEnd
  simp only [hp, hslot, hc, hu, hf, if_true]

/-! pop (R134, R135). -/

/-- What a pop does with the oldest entry, by the entry's result. -/
def popped (m : Marks) (s : State) (e : FlqEntry) : State :=
  match e.res with
  | .waiting => hold s
  | .value v => writeBack m e.d v 1 (s.modMe (·.popEntry))
  | .poisoned l addr => machineCheck s s.cur.c s.cur.k (unitAt l) addr
  | .refused detail addr => takeTrap (s.modMe (·.popEntry)) s.cur.c s.cur.k true 0x08 false detail addr s.me.pastPc

theorem exec_pop {m : Marks} {s : State} (h : Runs s) {e : FlqEntry} {es : List FlqEntry} (hq : s.me.flq = e :: es) :
    exec (.pop m) s = .next (popped m s e) := by
  rw [show exec (.pop m) s = execPop m s from rfl, execPop, issueWord_next h (fits_nil s)]
  simp only [hq]
  rfl

theorem exec_pop_empty {m : Marks} {s : State} (h : Runs s) (hq : s.me.flq = []) : exec (.pop m) s = .next (trap s 0x06 0 0) := by
  rw [show exec (.pop m) s = execPop m s from rfl, execPop, issueWord_next h (fits_nil s)]
  simp only [hq]

/-- Settles O30. A failing translation ends the access in a halt at its entry, and a pop is told by the oldest entry. -/
theorem farQueuePopAndHalt : Obligations.FarQueuePopAndHalt := by
  refine ⟨fun s c k j cls n slot sg va pc code => ⟨fun kind acq order u hc hu hp => ?_, fun ha => ?_, fun h hh ha => ?_⟩,
    fun m s hr => ⟨fun hq => ?_, fun d es hq => exec_pop hr hq, fun d v es hq => ?_, fun d l x es hq => exec_pop hr hq,
      fun d detail x es hq hi => ?_⟩⟩
  · have halts (write : Bool) (hk : (∃ n sg, kind = .load slot n sg ∧ write = false) ∨ ∃ op y z, kind = .amo slot op y z ∧ write = true)
        (hs : kind.slot? = some slot) (hl : lookup u (u.core c).tlb (u.ctxOf c) va.toNat true write (u.requestKey c) = .error code) :
        exec (.farAccessTranslationFault c k j) s = .next (haltFlq (u.withFresh (u.fresh + 1)) c k slot code va write pc) :=
      congrArg Host.Outcome.next (farEnd_halts hp hs hc hu (performPend_fault hk hl))
    exact ⟨fun hk hl => ⟨_, halts false (.inl ⟨n, sg, hk, rfl⟩) (hk ▸ rfl) hl, haltFlq_spec ..⟩,
      fun op y z hk hl => ⟨_, halts true (.inr ⟨op, y, z, hk, rfl⟩) (hk ▸ rfl) hl, haltFlq_spec ..⟩⟩
  · have e : exec (.flqRestart c k) s = .next (byCore (dieCore (dieOf c)) s _) := rfl
    rw [e, byCore, ha]; rfl
  · have e : exec (.flqRestart c k) s = .next ((s.modStrand c k fun u => { u with flqHalt := none }).clearFaults c k) := by
      change Host.Outcome.next (byCore (dieCore (dieOf c)) s _) = _
      rw [byCore, ha, hh]; rfl
    exact ⟨_, e, rfl, Vector.get_set_same ..⟩
  · exact exec_pop_empty hr hq
  · obtain ⟨hd, hfl, hframe⟩ := wr_retire m d v 1 none (s.modMe (·.popEntry))
    have hme : (s.modMe (·.popEntry)).me = s.me.popEntry := State.me_modMe ..
    rw [hme] at hfl
    obtain ⟨hword, hregs, hstill⟩ := hframe
    rw [hme] at hregs hstill
    have flq := congrArg Strand.flq hstill
    have flqHead := congrArg Strand.flqHead hstill
    have preds := congrArg Strand.preds hstill
    have pend := congrArg Strand.pend hstill
    have xstatus := congrArg Strand.xstatus hstill
    exact ⟨_, exec_pop hr hq, hd, flq.trans (congrArg List.tail hq), flqHead, (WordFrame.modMe _ _).trans hword, hfl, hregs,
      preds, pend, xstatus⟩
  · have past : s.me.pastPc = s.me.pc + 4 := if_neg (by simp [hi])
    have freed : s.modMe (·.popEntry) = s.modMe fun t => { t with flq := es, flqHead := t.flqHead + 1 } := by
      have tail : s.me.flq.tail = es := congrArg List.tail hq
      exact congrArg (State.setStrand s s.cur.c s.cur.k) (congrArg (fun es => { s.me with flq := es, flqHead := s.me.flqHead + 1 }) tail)
    rw [exec_pop hr hq, ← freed, ← past]; rfl

end Sys2Proof.Machine
end

section
/-! PROOF. Handle words and the layout of a handle (02 R51, R52, 05 R154 to R156), and near reads of a scratchpad (05 R130). -/

namespace Sys2Proof.Machine

/-! Reads of a scratchpad behind nothing. -/

theorem neededFor_nothing (s : State) (c : Cl) {first : Pend → Bool} :
    ∀ {ps : List Pend}, (∀ p ∈ ps, first p = false) → neededFor s c first ps = ps.map fun _ => false
  | [], _ => rfl
  | p :: ps, h => by
    have none_later : ((ps.zip (ps.map fun _ => false)).any fun x => x.2 && ordered s c p x.1) = false := by
      rw [List.any_eq_false]
      rintro x hx
      simp [List.eq_of_mem_map_const (List.of_mem_zip hx).2]
    rw [neededFor, neededFor_nothing s c fun q hq => h q (List.mem_cons_of_mem p hq), none_later, h p List.mem_cons_self]
    rfl

theorem performMarked_none (c : Cl) (k : Sn) (s : State) : ∀ ps : List Pend, performMarked c k (ps.zip (ps.map fun _ => false)) s = some s
  | [] => rfl
  | p :: ps => by
    have none_marked : ((ps.zip (ps.map fun _ => false)).any fun q => q.2 && q.1.kind.slot?.isSome) = false := by
      rw [List.any_eq_false]
      rintro x hx
      simp [List.eq_of_mem_map_const (List.of_mem_zip hx).2]
    rw [List.map_cons, List.zip_cons_cons, performMarked, none_marked]
    exact performMarked_none c k s ps

/-- An access that is ordered after none of those under way performs none of them. -/
theorem performBefore_nothing {s : State} {first : Pend → Bool} (h : ∀ p ∈ s.me.pend, first p = false) : performBefore s first = some s := by
  simp only [performBefore, neededFor_nothing s _ h, performMarked_none]

theorem spadLoc_other (c d : Cl) (t : Tl) {o : Nat} (ho : o < 2 ^ 20) : spadLoc c t o / 2 ^ 24 ≠ 2 ^ 16 + d.val := by
  unfold spadLoc; omega

theorem tgtOf_spad (s : State) (c : Cl) (o : Nat) : tgtOf s c 0 o = .loc (spadLoc c (Fin.ofNat 8 (o / 2 ^ 20)) (o % 2 ^ 20)) 0 := by
  have tile : Fin.ofNat 8 (bits o 20 3) = Fin.ofNat 8 (o / 2 ^ 20) := Fin.ext (Nat.mod_mod _ _)
  rw [← tile]; rfl

theorem loadAt_spad (s : State) (c : Cl) (k : Sn) (cls : Nat) (t : Tl) {o : Nat} (ho : o < 2 ^ 20) (n : Nat) :
    loadAt s c k cls (.loc (spadLoc c t o) 0) n false = (s, .data (readHome s (spadLoc c t o) n)) := by
  have away : leaveCache c (spadLoc c t o) s = s := leaveCache_other (spadLoc_other _ _ _ ho) s
  unfold loadAt
  simp only [away, countAccess_near (by decide : (0 : Nat) ∉ [1, 4, 5])]
  exact if_neg (by simp)

/-- A near read of a scratchpad reads the bytes at home, with bound 12. -/
theorem nearRead_spad {s : State} {x : W} {n cls o : Nat} (k : State → List Byte → Nat → State)
    (ht : target s s.cur.c x n = .ok (0, o)) (hb : NothingBefore s n cls (.loc (spadLoc s.cur.c (Fin.ofNat 8 (o / 2 ^ 20)) (o % 2 ^ 20)) 0))
    (hp : s.poisonedIn (spadLoc s.cur.c (Fin.ofNat 8 (o / 2 ^ 20)) (o % 2 ^ 20)) n = none) :
    nearRead s x n cls k = k s (readHome s (spadLoc s.cur.c (Fin.ofNat 8 (o / 2 ^ 20)) (o % 2 ^ 20)) n) 12 := by
  have ends := loadAt_spad s s.cur.c s.cur.k cls (Fin.ofNat 8 (o / 2 ^ 20)) (Nat.mod_lt o (by decide : 0 < 2 ^ 20)) n
  have place := tgtOf_spad s s.cur.c o
  generalize spadLoc s.cur.c (Fin.ofNat 8 (o / 2 ^ 20)) (o % 2 ^ 20) = l at *
  have alone : performBefore s (before s (plainPend (.load 0 n false) cls (.loc l 0))) = some s := performBefore_nothing hb
  have clean : (Tgt.loc l 0).poison s n = none := hp
  unfold nearRead
  simp only [ht, place]
  rw [if_neg (by decide)]
  simp only [clean, alone, ends, if_true]

/-! Handles (R51). -/

theorem WordFrame.handles_eq {s t : State} (h : WordFrame s t) : t.myCore.handles = s.myCore.handles ∧ t.myCore.hflights = s.myCore.hflights := by
  have handles := congrArg Core.handles h.core
  have hflights := congrArg Core.hflights h.core
  rw [State.myCore, h.cur_eq]; exact ⟨handles, hflights⟩

/-- A handle write and its retirement, with every part of the result. -/
theorem wrHandle_retires (m : Marks) (h : BitVec 5) (v : Handle) (mask : BitVec 11) (bound : Nat) (s : State) :
    WritesHandle s (retire m (wrHandle h v mask bound s)) h v mask bound := by
  set u : State := s.modMyCore fun x =>
    { x with
      handles := x.handles.set h.toNat v (by have := h.isLt; omega)
      hflights := x.hflights ++ [⟨h, mask, s.cycle + bound⟩] }
  set t : State := retire m (wrHandle h v mask bound s)
  have frame : WordFrame u t := (WordFrame.modMe u _).trans (retire_frame m _)
  have own : OwnCore s t := (OwnCore.modMyCore s rfl).trans frame.ownCore
  have me : u.me = s.me := State.me_modMyCore s rfl
  have still : t.me.still = { s.me with flights := s.me.flights ++ [(⟨.nothing, s.cycle + bound, none, s.cycle⟩ : Flight)] }.still :=
    (retire_still m _).trans (congrArg _ ((State.me_modMe u _).trans (by rw [me])))
  have handles : t.myCore.handles = s.myCore.handles.set h.toNat v h.isLt :=
    frame.handles_eq.1.trans (congrArg Core.handles (State.myCore_modMyCore ..))
  have hflights : t.myCore.hflights = s.myCore.hflights ++ [⟨h, mask, s.cycle + bound⟩] :=
    frame.handles_eq.2.trans (congrArg Core.hflights (State.myCore_modMyCore ..))
  have flights := congrArg Strand.flights still
  refine ⟨?_, fun g hg => ?_, hflights, flights, own.outside, own.clusters, ?_⟩
  · rw [handles]; exact Vector.get_set_same (i := h.toFin) ..
  · rw [handles]; exact Vector.get_set_other (i := h.toFin) _ _ hg
  · exact congrArg (fun t : Strand => { t with flights := s.me.flights }) still

/-- A handle that no write in flight names reads as it stands. -/
theorem readHandle_landed {s : State} (hf : s.myCore.hflights = []) (h : BitVec 5) : readHandle s h = s.myCore.handles.get h.toFin := by
  have none_names (i : Nat) : ((s.core s.cur.c).hflights.any fun x => x.h == h && x.mask.getLsbD i && decide (s.cycle < x.due)) = false :=
    (congrArg (List.any · _) hf).trans rfl
  unfold readHandle State.handleOf
  simp only [none_names]
  rfl

/-- The stride that h.adv reads is the one h.get reads. -/
theorem Handle.stride_eq_field (h : Handle) {dim : Nat} (hd : dim < 4) : h.stride dim = (h.field (4 + 2 * dim)).toInt := by
  obtain rfl | rfl | rfl | rfl : dim = 0 ∨ dim = 1 ∨ dim = 2 ∨ dim = 3 := by omega
  all_goals exact (BitVec.toInt_signExtend_of_le (by decide)).symm

/-- In space 6 the low 41 bits of the address step alone. -/
theorem Handle.advance_six {h : Handle} (hs : h.space = 6) (dim : Nat) (steps : W) :
    (h.advance dim steps).toNat / 2 ^ 41 = h.addr.toNat / 2 ^ 41 ∧
      ((h.advance dim steps).toNat : Int) % 2 ^ 41 = (h.addr.toNat + steps.toInt * h.stride dim * unitOf h.type.toNat) % 2 ^ 41 := by
  have lt := h.addr.isLt
  unfold Handle.advance setBits
  simp only [hs, if_true, BitVec.toNat_ofNat]
  generalize steps.toInt * h.stride dim * unitOf h.type.toNat = v
  omega

theorem toNat_signExtend_low (v : BitVec 32) : (v.signExtend 64).toNat % 2 ^ 32 = v.toNat := by
  have := v.isLt
  rw [BitVec.toNat_signExtend, BitVec.toNat_setWidth]
  split <;> omega

/-- A field that is set reads back in its width. -/
theorem Handle.field_setField_same (h : Handle) {i : Nat} (hi : i < 11) (v : W) :
    let width : Nat := if i = 0 then 57 else if i = 1 then 3 else if i = 2 then 4 else if i % 2 = 1 then 16 else 32
    ((h.setField i v).field i).toNat % 2 ^ width = v.toNat % 2 ^ width := by
  have stride : ((v.setWidth 32).signExtend 64).toNat % 2 ^ 32 = v.toNat % 2 ^ 32 :=
    (toNat_signExtend_low _).trans (BitVec.toNat_setWidth ..)
  interval_cases i <;> simp [Handle.setField, Handle.field] at stride ⊢ <;> exact stride

theorem Handle.field_setField_ne (h : Handle) {i j : Nat} (hi : i < 11) (hj : j < 11) (hij : i ≠ j) (v : W) :
    (h.setField i v).field j = h.field j := by
  interval_cases i <;> interval_cases j <;> simp [Handle.setField, Handle.field] at hij ⊢

theorem Handle.toNat_lt (h : Handle) : h.toNat < 2 ^ 256 := by
  unfold Handle.toNat
  have := h.addr.isLt; have := h.space.isLt; have := h.type.isLt
  have := h.ext0.isLt; have := h.str0.isLt; have := h.ext1.isLt; have := h.str1.isLt
  have := h.ext2.isLt; have := h.str2.isLt; have := h.ext3.isLt; have := h.str3.isLt
  omega

theorem Handle.ofNat_toNat (h : Handle) : Handle.ofNat h.toNat = h := by
  have := h.addr.isLt; have := h.space.isLt; have := h.type.isLt
  have := h.ext0.isLt; have := h.str0.isLt; have := h.ext1.isLt; have := h.str1.isLt
  have := h.ext2.isLt; have := h.str2.isLt; have := h.ext3.isLt; have := h.str3.isLt
  cases h
  simp only [Handle.ofNat, Handle.toNat, Handle.mk.injEq] at *
  refine ⟨?_, ?_, ?_, ?_, ?_, ?_, ?_, ?_, ?_, ?_, ?_⟩ <;> apply BitVec.eq_of_toNat_eq <;> rw [BitVec.toNat_ofNat] <;> omega

/-- Settles O35: every handle word but h.get is one handle write, and the fields of a handle are the parts of its bits. -/
theorem handleWords : Obligations.HandleWords := by
  refine ⟨fun m h g x f cls s hr => ⟨fun o hf ht hb hp => ?_, fun hf => ?_, fun hf hl => ?_, fun hf hl hd => ?_, fun hl => ?_, ?_⟩,
    fun h i j v hi hj => ⟨h.field_setField_same hi v, fun hij => h.field_setField_ne hi hj hij v, h.ofNat_toNat, h.toNat_lt⟩⟩
  · have e := issueWord_next hr hf fun s => nearRead s (rd s x 1) 32 cls.toNat fun s1 bs bound =>
      retire m (wrHandle h (.ofNat (ofBytes bs)) allFields bound s1)
    rw [nearRead_spad _ ht hb hp] at e
    exact ⟨_, e, wrHandle_retires ..⟩
  · have e := issueWord_next hr hf fun s =>
      retire m (wrHandle h ((s.myCore.handles.get h.toFin).setField f.toNat (rd s x 1)) (1 <<< f.toNat) 1 s)
    exact ⟨_, e, wrHandle_retires ..⟩
  · have e := issueWord_next hr hf fun s => writeBack m x ((readHandle s h).field f.toNat) 1 s
    rw [readHandle_landed hl] at e
    exact ⟨_, e, wr_retire m x _ 1 none s⟩
  · have e := issueWord_next hr hf fun s =>
      retire m (wrHandle h { s.myCore.handles.get h.toFin with addr := (readHandle s h).advance f.toNat (rd s x 1) } 1 1 s)
    rw [readHandle_landed hl] at e
    rw [← Handle.stride_eq_field _ hd]
    refine ⟨_, e, fun hs => ?_, fun hs => ⟨_, wrHandle_retires .., Handle.advance_six hs _ _⟩⟩
    have flat : (s.myCore.handles.get h.toFin).advance f.toNat (rd s x 1) = _ := if_neg hs
    rw [flat]
    exact wrHandle_retires ..
  · have e := issueWord_next hr (fits_nil s) fun s => retire m (wrHandle h (readHandle s g) allFields 1 s)
    rw [readHandle_landed hl] at e
    exact ⟨_, e, wrHandle_retires ..⟩
  · have e := issueWord_next hr (fits_nil s) fun s => retire m (wrHandle h .zero allFields 1 s)
    exact ⟨_, e, wrHandle_retires ..⟩

end Sys2Proof.Machine
end

section
/-! PROOF. Near loads through the data cache (05 R130, R251): the statement asks no form of the lines a cache holds, and fails where one is
longer than a line (O25). -/

namespace Sys2Proof.Machine

/-! A near read of the own vault behind nothing goes through the data cache. -/

theorem loadAt_cached (s : State) (c : Cl) (k : Sn) (cls l n : Nat) :
    loadAt s c k cls (.loc l 3) n false = ((cacheLoad c l n s).1, .data (cacheLoad c l n s).2) := by
  unfold loadAt
  exact if_pos (And.intro rfl rfl)

theorem tgtOf_vault (s : State) (c : Cl) (o : Nat) : tgtOf s c 3 o = .loc (vaultLoc c (o % 2 ^ 24)) 3 := by unfold tgtOf; rfl

/-- A near read of space 3 behind nothing, at the location of its target. -/
theorem nearRead_cached {s : State} {x : W} {n cls o l : Nat} (k : State → List Byte → Nat → State)
    (ht : target s s.cur.c x n = .ok (3, o)) (place : tgtOf s s.cur.c 3 o = .loc l 3) (hb : NothingBefore s n cls (.loc l 3))
    (hp : s.poisonedIn l n = none) : nearRead s x n cls k = k (cacheLoad s.cur.c l n s).1 (cacheLoad s.cur.c l n s).2 48 := by
  have alone : performBefore s (before s (plainPend (.load 0 n false) cls (.loc l 3))) = some s := performBefore_nothing hb
  have clean : (Tgt.loc l 3).poison s n = none := hp
  unfold nearRead
  simp only [ht, place]
  rw [if_neg (by decide)]
  simp only [clean, alone, loadAt_cached]
  rw [if_neg (by decide)]

/-! A fill that evicts. -/

theorem writeBackLine_core (c d : Cl) (y : DLine) (s : State) : (writeBackLine d y s).core c = s.core c := by
  have e := congrArg (State.core · c) (writeBackLine_rest d y s)
  exact e

/-- A cache whose lines all have one number is empty once that line has left. -/
theorem dropLine_last {s : State} {c : Cl} {l : Nat} (h : ∀ y ∈ (s.core c).dcache, y.line = l) : ((dropLine c l s).core c).dcache = [] := by
  have kept : ∀ y ∈ ((cleanLine c l s).core c).dcache, y.line = l := by
    unfold cleanLine
    split
    · rw [State.core_modCore, writeBackLine_core]
      intro y hy
      obtain ⟨z, hz, rfl⟩ := List.mem_map.mp hy
      split <;> exact h z hz
    · exact h
  rw [dropLine_eq, State.core_modCore]
  exact List.filter_eq_nil_iff.mpr fun y hy => by simpa using kept y hy

/-- What memory holds once a line, dirty in every byte, has left the cache. -/
theorem dropLine_dirty_mem {s : State} {c : Cl} {l : Nat} {y : DLine} (h : (s.core c).line? l = some y) (hd : y.dirty = BitVec.allOnes 64) :
    (dropLine c l s).mem = (writeHome s (vaultLoc c (y.line * 64)) y.data).mem := by
  have cleaned : (cleanLine c l s).mem = (writeBackLine c y s).mem := by unfold cleanLine; rw [h]; rfl
  rw [dropLine_eq, modCore_mem, cleaned, writeBackLine, if_pos hd]

theorem lineOf_vaultLoc (c : Cl) {o : Nat} (ho : o < 2 ^ 24) : lineOf c (vaultLoc c o) = some (o / 64) := by
  unfold vaultLoc
  rw [lineOf_own (by omega), show (2 ^ 40 + c.val * 2 ^ 24 + o) % 2 ^ 24 = o by omega]

theorem fillLine_evicting {s : State} {c : Cl} {l v : Nat} (miss : (s.core c).line? l = none) (hv : victim s c l = some v)
    (last : ((dropLine c v s).core c).dcache = []) :
    ((fillLine c l s).core c).line? l = some ⟨l, readHome (dropLine c v s) (vaultLoc c (l * 64)) 64, 0⟩ := by
  generalize hu : dropLine c v s = u at last
  have filled : fillLine c l s = u.modCore c fun x => { x with dcache := x.dcache ++ [⟨l, readHome u (vaultLoc c (l * 64)) 64, 0⟩] } := by
    unfold fillLine
    simp only [miss, hv, hu]
  rw [filled, State.core_modCore]
  unfold Core.line?
  rw [last]
  exact List.find?_cons_of_pos (beq_self_eq_true l)

/-- A load that misses reads the line as it stands once the victim has left. -/
theorem cacheLoad_evicting {s : State} {c : Cl} {x l v n : Nat} (line : lineOf c x = some l) (miss : (s.core c).line? l = none)
    (hv : victim s c l = some v) (last : ((dropLine c v s).core c).dcache = []) :
    (cacheLoad c x n s).2 = ((readHome (dropLine c v s) (vaultLoc c (l * 64)) 64).drop (x % 64)).take n := by
  have filled := fillLine_evicting miss hv last
  generalize readHome (dropLine c v s) (vaultLoc c (l * 64)) 64 = bs at *
  unfold cacheLoad
  rw [line]
  dsimp only
  rw [filled]
  rfl

theorem vault_present (s : State) (c : Cl) {o : Nat} (ho : o < 2 ^ 24) : Present s (vaultLoc c o) := by
  have beyond : ¬vaultLoc c o < hbmSize := by unfold vaultLoc hbmSize; omega
  refine ⟨by unfold vaultLoc nowhere; omega, ?_⟩
  unfold State.uncoreOff
  rw [decide_eq_false beyond, Bool.false_and]

theorem readHome_take_one (s : State) (x n : Nat) : (readHome s x (n + 1)).take 1 = [s.byte x] := rfl

/-! The counterexample. -/

/-- A line of 65 bytes, each of them 1 and dirty. -/
def overlongLine : DLine := ⟨0, List.replicate 65 1, BitVec.allOnes 64⟩

/-- Strand 0 of cluster 0 runs with the address of byte 64 of its vault in s2; its cluster's data cache is full of one line, which is
longer than a line; memory is blank. -/
def overlongCache : State :=
  (State.reset.modCore 0 fun x => { x with dcache := List.replicate 512 overlongLine }).modStrand 0 0
    fun t => { t with state := .run, regs := t.regs.set 2 0xb000000000000040 }

theorem overlongCache_me : overlongCache.me = { Strand.reset with state := .run, regs := Strand.reset.regs.set 2 0xb000000000000040 } :=
  State.strand_modStrand ..

theorem overlongCache_dcache : (overlongCache.core 0).dcache = List.replicate 512 overlongLine := by
  unfold overlongCache
  rw [State.core_modStrand, Core.modStrand_dcache, State.core_modCore]

theorem overlongCache_mem : overlongCache.mem = [] := rfl

theorem overlongCache_runs : Runs overlongCache := .inl (congrArg Strand.state overlongCache_me)

theorem overlongCache_fits : Fits overlongCache [(1 : Sreg).toNat, (2 : Sreg).toNat] := by
  have allot : overlongCache.me.allot = 8 := by rw [overlongCache_me]; decide
  intro f hf
  rw [allot]
  revert f; decide

theorem overlongCache_nothing : NothingBefore overlongCache 1 0 (.loc (vaultLoc 0 64) 3) := by
  have pend : overlongCache.me.pend = [] := by rw [overlongCache_me]; rfl
  intro p hp
  rw [pend] at hp
  exact absurd hp List.not_mem_nil

theorem overlongCache_rd : rd overlongCache 2 1 = 0xb000000000000040 := by
  have flights : overlongCache.me.flights = [] := by rw [overlongCache_me]; rfl
  have idle : overlongCache.me.regBusy overlongCache.cycle 2 = false := by
    unfold Strand.regBusy; rw [flights]; rfl
  rw [rd_of_readable ⟨idle, fun h => absurd h (by decide)⟩, overlongCache_me]
  exact Vector.get_set_same (i := 2) ..

theorem overlongCache_target : target overlongCache 0 0xb000000000000040 1 = .ok (3, 64) := by
  rfl

theorem overlongCache_miss : (overlongCache.core 0).line? 1 = none := by
  unfold Core.line?
  rw [overlongCache_dcache]
  exact List.find?_eq_none.mpr fun y hy => by rw [List.eq_of_mem_replicate hy]; decide

theorem overlongCache_hit : (overlongCache.core 0).line? 0 = some overlongLine := by
  unfold Core.line?
  rw [overlongCache_dcache]
  rfl

theorem overlongCache_clean : overlongCache.poisonedIn (vaultLoc 0 64) 1 = none := by
  obtain ⟨-, powered⟩ := vault_present overlongCache 0 (by decide : 64 < 2 ^ 24)
  have unmarked : overlongCache.poison = [] := rfl
  unfold State.poisonedIn
  rw [powered, unmarked]
  rfl

/-- Whichever line the fill chooses, it is line 0. -/
theorem overlongCache_victim : victim overlongCache 0 1 = some 0 := by
  unfold victim
  simp only [overlongCache_dcache, List.length_replicate]
  rw [if_neg (by decide), List.getElem?_replicate, if_pos (Nat.mod_lt _ (by decide))]
  rfl

/-- The line's last byte is written back over the first of the next line. -/
theorem overlongCache_byte : (dropLine 0 0 overlongCache).byte (vaultLoc 0 64) = 1 := by
  have mem := dropLine_dirty_mem overlongCache_hit rfl
  have here (i : Nat) (hi : i < overlongLine.data.length) : Present overlongCache (vaultLoc 0 (overlongLine.line * 64) + i) := by
    have short : i < 65 := hi
    exact vault_present overlongCache 0 (o := i) (by omega)
  have written := writeHome_byte (s := overlongCache) rfl _ _ here (vaultLoc 0 64)
  rw [if_pos (by decide)] at written
  rw [State.byte, mem]
  exact written.trans (by decide)

/-- The byte that the load misses. -/
theorem overlongCache_loaded : (cacheLoad 0 (vaultLoc 0 64) 1 overlongCache).2 = [1] := by
  have drops : ((dropLine 0 0 overlongCache).core 0).dcache = [] := dropLine_last fun y hy => by
    rw [overlongCache_dcache] at hy
    rw [List.eq_of_mem_replicate hy]; rfl
  have line1 : lineOf 0 (vaultLoc 0 64) = some 1 := lineOf_vaultLoc 0 (by decide)
  rw [cacheLoad_evicting line1 overlongCache_miss overlongCache_victim drops]
  have first := overlongCache_byte
  generalize dropLine 0 0 overlongCache = u at *
  have line : vaultLoc 0 (1 * 64) = vaultLoc 0 64 := rfl
  rw [show vaultLoc 0 64 % 64 = 0 by decide, List.drop_zero, line, readHome_take_one u (vaultLoc 0 64) 63, first]

/-- Refutes O25: a full data cache whose lines hold 65 bytes writes one of them over the line that a load then brings in. -/
theorem not_nearLoads : ¬ Obligations.NearLoads := by
  intro h
  obtain ⟨-, hld, -⟩ := h .plain 1 2 0 0
  obtain ⟨-, hvault, -⟩ := hld overlongCache overlongCache_runs overlongCache_fits
  rw [overlongCache_rd] at hvault
  obtain ⟨-, hmiss⟩ := hvault 64 overlongCache_target overlongCache_nothing overlongCache_clean
  obtain ⟨t, ht, hvalue, -⟩ := hmiss overlongCache_miss
  have e := issueWord_next overlongCache_runs overlongCache_fits fun s =>
    nearRead s (memAddr (rd s 2 1) 0 1) 1 0 fun s1 bs bound => writeBack .plain 1 (extend false bs) bound s1
  have hx : memAddr (rd overlongCache 2 1) 0 1 = 0xb000000000000040 := by rw [overlongCache_rd]; rfl
  rw [hx, nearRead_cached _ overlongCache_target (tgtOf_vault ..) overlongCache_nothing overlongCache_clean] at e
  obtain ⟨hread, -⟩ := wr_retire .plain 1 (extend false (cacheLoad 0 (vaultLoc 0 64) 1 overlongCache).2) 48 none
    (cacheLoad 0 (vaultLoc 0 64) 1 overlongCache).1
  have same : t = _ := Host.Outcome.next.inj (ht.symm.trans e)
  have got : extend false (cacheLoad 0 (vaultLoc 0 64) 1 overlongCache).2 = _ :=
    hread.symm.trans ((congrArg (fun u : State => u.me.regs.get 1) same).symm.trans hvalue)
  rw [overlongCache_loaded] at got
  exact absurd got (by decide)

end Sys2Proof.Machine
end

section
/-! PROOF. FP32 arithmetic: special cases and codes that round to themselves (01 R18, R27, 05 R106). -/

namespace Sys2Proof.Machine

/-! What the one rounding makes of NaN, infinities and zeros. -/

theorem fround_nan (rm : Nat) (pre : FlagSet) : fround rm pre (.nan false) = (0x7fc00000, { nv := pre.nv, dz := pre.dz }) := rfl

theorem fround_inf (rm : Nat) (pre : FlagSet) (s : Bool) :
    fround rm pre (.inf s) = (if s then 0xff800000 else 0x7f800000, { nv := pre.nv, dz := pre.dz }) := by cases s <;> rfl

theorem fround_zero (rm : Nat) (pre : FlagSet) (s : Bool) (den : Nat) :
    fround rm pre (.fin s 0 den) = (if s then 0x80000000 else 0, { nv := pre.nv, dz := pre.dz }) := by cases s <;> rfl

/-! A NaN operand gives NaN, and no flag of its own. -/

theorem XVal.isNan_eq {u : XVal} (h : u.isNan = true) : ∃ s, u = .nan s := by
  cases u with
  | nan s => exact ⟨s, rfl⟩
  | inf s => cases h
  | fin s n d => cases h

theorem XVal.of_isNan {x y : XVal} (rm : Nat) (h : x.isNan = true ∨ y.isNan = true) :
    x.add rm y = .nan false ∧ x.mul y = .nan false ∧ x.div y = .nan false := by
  obtain h | h := h <;> obtain ⟨s, rfl⟩ := XVal.isNan_eq h
  · exact ⟨rfl, rfl, rfl⟩
  · cases x <;> exact ⟨rfl, rfl, rfl⟩

theorem flags_of_isNan {x y : XVal} (h : x.isNan = true ∨ y.isNan = true) :
    nvAdd x y = .none ∧ nvMul x y = false ∧ nvDiv x y = .none := by
  obtain h | h := h <;> obtain ⟨s, rfl⟩ := XVal.isNan_eq h
  · exact ⟨rfl, rfl, rfl⟩
  · refine ⟨?_, ?_, ?_⟩ <;> simp [nvAdd, nvMul, nvDiv, XVal.isNan, XVal.isZero, XVal.isInf, FlagSet.none]

theorem nvSqrt_of_isNan {x : XVal} (h : x.isNan = true) : nvSqrt x = .none ∧ x.sqrt = .nan false := by
  obtain ⟨s, rfl⟩ := XVal.isNan_eq h
  exact ⟨rfl, rfl⟩

/-- A fused multiply-add of a NaN is NaN. -/
theorem XVal.fma_of_isNan {x y z : XVal} (rm : Nat) (h : x.isNan = true ∨ y.isNan = true ∨ z.isNan = true) : (x.mul y).add rm z = .nan false := by
  obtain h | h | h := h
  · rw [(XVal.of_isNan rm (.inl h)).2.1]; rfl
  · rw [(XVal.of_isNan rm (.inr h)).2.1]; rfl
  · exact (XVal.of_isNan rm (.inr h)).1

/-- With a NaN among its operands, only zero times infinity marks a fused multiply-add. -/
theorem nvFma_of_isNan {x y z : XVal} (h : x.isNan = true ∨ y.isNan = true ∨ z.isNan = true) : nvFma x y z = { nv := nvMul x y } := by
  have ordered : (!x.isNan && !y.isNan && !z.isNan) = false := by
    obtain h | h | h := h <;> simp [h]
  unfold nvFma
  simp only [ordered, Bool.false_and, Bool.or_false]

theorem nvMul_eq_false {x y : XVal} (h : ¬(x.isZero = true ∧ y.isInf = true)) (g : ¬(x.isInf = true ∧ y.isZero = true)) :
    nvMul x y = false := by
  unfold nvMul
  rw [← Bool.and_eq_true, Bool.not_eq_true] at h g
  rw [h, g, Bool.or_false]

/-! Products and infinities. -/

/-- Zero times infinity. -/
theorem XVal.zero_mul_inf {x : XVal} (h : x.isZero = true) (t : Bool) :
    (x.mul (.inf t) = .nan false ∧ nvMul x (.inf t) = true) ∧ (XVal.inf t).mul x = .nan false ∧ nvMul (.inf t) x = true := by
  obtain ⟨s, d, rfl⟩ := XVal.isZero_eq h
  exact ⟨⟨rfl, rfl⟩, rfl, rfl⟩

/-- An infinite product has no NaN among its factors. -/
theorem XVal.ordered_of_mul_inf {x y : XVal} {s : Bool} (h : x.mul y = .inf s) : x.isNan = false ∧ y.isNan = false := by
  have not_nan : ¬(x.isNan = true ∨ y.isNan = true) := fun g => by
    have := (XVal.of_isNan 0 g).2.1
    rw [h] at this
    cases this
  simpa using not_nan

/-- An infinite product against the other infinity. -/
theorem nvFma_inf_inf {x y : XVal} {s : Bool} (h : x.mul y = .inf s) : nvFma x y (.inf !s) = { nv := true } := by
  obtain ⟨hx, hy⟩ := XVal.ordered_of_mul_inf h
  have ordered : (!x.isNan && !y.isNan && !(XVal.inf !s).isNan) = true := by rw [hx, hy]; rfl
  have against : ((XVal.inf s).isInf && (XVal.inf !s).isInf && (XVal.inf s).sign != (XVal.inf !s).sign) = true := by cases s <;> rfl
  unfold nvFma
  simp only [h, ordered, against, Bool.and_self, Bool.or_true]

/-! Codes that round to themselves. -/

theorem fp32_signed_lt {s : Bool} {v : Nat} (h : v < 2 ^ 31) : fp32.signed s v < 2 ^ 32 := by
  have sign : 2 ^ (fp32.man + fp32.exp) = 2 ^ 31 := rfl
  unfold Fmt.signed
  rw [sign]
  split <;> omega

/-- A code of FP32 is its sign and its other bits. -/
theorem fp32_signed_code {c : Nat} (h : c < 2 ^ 32) : fp32.signed (c / 2 ^ 31 % 2 == 1) (c % 2 ^ 31) = c := by
  unfold Fmt.signed fp32
  simp only [beq_iff_eq]
  split <;> omega

/-- A value of FP32's precision, at an exponent code e, rounds to the code that says so. -/
theorem roundTo_fp32_exact (rm : Nat) (s : Bool) {m e : Nat} (hm : m < 2 ^ 24) (he : 0 < e) (he' : e < 255) (norm : e = 1 ∨ 2 ^ 23 ≤ m) :
    roundTo fp32 rm 0 false (XVal.scaled s m ((e : Int) - 150)) = (fp32.signed s ((e - 1) * 2 ^ 23 + m), .none) := by
  obtain ⟨num, den, eq, hd, hval, hzero⟩ := XVal.scaled_eq_fin s m ((e : Int) - 150)
  rw [eq]
  by_cases h0 : m = 0
  · have he1 : e = 1 := by omega
    rw [hzero.mpr h0, roundTo_zero, h0, he1]; rfl
  · have man : (fp32.man : Int) = 23 := rfl
    have low : 1 - (fp32.bias : Int) = -126 := rfl
    have hE : ((e : Int) - 127) - fp32.man = (e : Int) - 150 := by omega
    have above : ((e : Int) - 127 - (1 - fp32.bias)).toNat = e - 1 := by omega
    have exact := roundTo_of_representable fp32 rm 0 false s (E := (e : Int) - 127) hd h0 (by rw [hE]; exact hval) (by omega) hm
      (norm.imp (by omega) id) (by rw [above]; change (e - 1) * 2 ^ 23 + m ≤ 0x7f7fffff; omega)
    rw [exact, above]; rfl

/-- A code that is no NaN rounds to itself. -/
theorem roundTo_fp32_decode (rm : Nat) {c : Nat} (hc : c < 2 ^ 32) (hn : (fp32.decode c).isNan = false) :
    roundTo fp32 rm 0 false (fp32.decode c) = (c, .none) := by
  have code := fp32_signed_code hc
  rw [fp32_decode_isNan, decide_eq_false_iff_not] at hn
  rw [fp32_decode]
  generalize (c / 2 ^ 31 % 2 == 1) = s at *
  split_ifs with infinite mant subnormal
  · have high : c % 2 ^ 31 = (2 ^ 8 - 1) * 2 ^ 23 := by omega
    rw [high] at code
    exact congrArg (·, FlagSet.none) code
  · omega
  · have exact := roundTo_fp32_exact rm s (m := c % 2 ^ 23) (e := 1) (by omega) (by decide) (by decide) (.inl rfl)
    rw [show (1 - 1) * 2 ^ 23 + c % 2 ^ 23 = c % 2 ^ 31 by omega, code] at exact
    exact exact
  · have exact := roundTo_fp32_exact rm s (m := 2 ^ 23 + c % 2 ^ 23) (e := c / 2 ^ 23 % 2 ^ 8) (by omega) (by omega) (by omega)
      (.inr (Nat.le_add_right ..))
    rw [show (c / 2 ^ 23 % 2 ^ 8 - 1) * 2 ^ 23 + (2 ^ 23 + c % 2 ^ 23) = c % 2 ^ 31 by omega, code] at exact
    exact exact

/-- What a rounding gives lies below a bound that the format's NaN, its infinity and its finite codes keep. -/
theorem roundTo_lt {f : Fmt} {n : Nat} (nan : ∀ s, f.nan s < n) (special : ∀ s, f.special s false < n)
    (finite : ∀ s c, c ≤ f.maxCode → f.signed s c < n) (rm : Nat) (v : XVal) : (roundTo f rm 0 false v).1 < n := by
  cases v with
  | nan s => exact nan s
  | inf s => exact special s
  | fin s num den =>
    unfold roundTo
    refine iteInduction (motive := fun r : Nat × FlagSet => r.1 < n) (fun _ => finite s 0 (Nat.zero_le _)) fun _ =>
      iteInduction (motive := fun r : Nat × FlagSet => r.1 < n) (fun _ => ?_) fun fits => finite s _ (Nat.not_lt.mp fits)
    exact iteInduction (motive := fun r : Nat => r < n) (fun _ => finite s _ le_rfl) fun _ => special s

theorem fp32_nan_lt (s : Bool) : fp32.nan s < 2 ^ 32 := by revert s; decide

theorem fp32_special_lt (s : Bool) : fp32.special s false < 2 ^ 32 := by revert s; decide

/-- A result of FP32 has 32 bits. -/
theorem roundTo_fp32_lt (rm : Nat) (v : XVal) : (roundTo fp32 rm 0 false v).1 < 2 ^ 32 :=
  roundTo_lt fp32_nan_lt fp32_special_lt (fun _ _ h => fp32_signed_lt (lt_of_le_of_lt h (by decide))) rm v

theorem fround_lt (rm : Nat) (pre : FlagSet) (v : XVal) : (fround rm pre v).1.toNat < 2 ^ 32 :=
  lt_of_le_of_lt (Nat.mod_le _ _) (roundTo_fp32_lt rm v)

/-- Settles O13: the words are one rounding of the exact value, the special cases go by the operands, and a code decodes to a value of its
own exponent. -/
theorem fpArithmeticWords : Obligations.FpArithmeticWords := by
  refine ⟨fun m d a b c => ⟨writesReg_of (m := m) fun _ => rfl, writesReg_of (m := m) fun _ => rfl, writesReg_of (m := m) fun _ => rfl,
      writesReg_of (m := m) fun _ => rfl, writesReg_of (m := m) fun _ => rfl, writesReg_of (m := m) fun _ => rfl, fun _ => rfl, fround_lt⟩,
    fun rm x y z s t n k => ⟨fun h => ?_, fun h => ?_, fun h hv => ?_, fun h g g' => ?_, ?_, ?_, fun h => ?_, fun h g => ?_, ?_, fun h g => ?_,
      ?_, ?_, fun h => ?_, ?_, ?_, ?_, fun h => ?_, fun h => ?_⟩,
    fun rm c => roundTo_fp32_decode rm⟩
  · obtain ⟨add, mul, div⟩ := XVal.of_isNan rm h
    obtain ⟨nadd, nmul, ndiv⟩ := flags_of_isNan h
    rw [add, mul, div, nadd, nmul, ndiv]
    exact ⟨rfl, rfl, rfl⟩
  · obtain ⟨flags, value⟩ := nvSqrt_of_isNan h
    rw [flags, value]; rfl
  · rw [XVal.fma_of_isNan rm h, fround_nan, hv]; rfl
  · rw [nvFma_of_isNan h, nvMul_eq_false g g']; rfl
  · cases s <;> rfl
  · cases s <;> rfl
  · obtain ⟨⟨value, flag⟩, value', flag'⟩ := XVal.zero_mul_inf h t
    rw [value, flag, value', flag']
    exact ⟨rfl, rfl⟩
  · obtain ⟨u, i, rfl⟩ := XVal.isZero_eq h
    obtain ⟨v, j, rfl⟩ := XVal.isZero_eq g
    rfl
  · rfl
  · obtain ⟨v, j, rfl⟩ := XVal.isZero_eq g
    have value : (XVal.fin s n k).div (.fin v 0 j) = .inf (s != v) := by simp [XVal.div, h]
    have flags : nvDiv (.fin s n k) (.fin v 0 j) = { dz := true } := by simp [nvDiv, XVal.isZero, XVal.isNan, XVal.isInf, h]
    rw [value, flags, fround_inf]; rfl
  · exact fround_inf ..
  · have flags : nvDiv (.fin s n k) (.inf t) = .none := by simp [nvDiv, XVal.isZero, XVal.isNan, XVal.isInf, FlagSet.none]
    rw [flags]
    exact fround_zero rm .none (s != t) 1
  · have value : (XVal.fin true n k).sqrt = .nan false := by simp [XVal.sqrt, h]
    have flags : nvSqrt (.fin true n k) = { nv := true } := by simp [nvSqrt, XVal.isZero, XVal.isNan, XVal.sign, h]
    rw [value, flags]; rfl
  · rfl
  · cases s <;> rfl
  · rfl
  · obtain ⟨⟨value, flag⟩, value', flag'⟩ := XVal.zero_mul_inf h t
    have marks {u v : XVal} (hv : u.mul v = .nan false) (hf : nvMul u v = true) :
        fround rm (nvFma u v z) ((u.mul v).add rm z) = (0x7fc00000, { nv := true }) := by
      rw [hv, nvFma, hf]; rfl
    exact ⟨marks value flag, marks value' flag'⟩
  · rw [nvFma_inf_inf h, h]; cases s <;> rfl

end Sys2Proof.Machine
end

section
/-! PROOF. Every instruction, and every step that nothing from outside takes part in, answers a next state (O3). -/

namespace Sys2Proof.Machine

/-- An outcome that is a next state. -/
def Answers (o : Host.Outcome State Fault Refusal) : Prop := ∃ t, o = .next t

/-- What the meaning of a word is on a state: a next state when the current strand runs, else a fault by name. -/
structure WordAnswers (o : Host.Outcome State Fault Refusal) (s : State) : Prop where
  runs : Runs s → Answers o
  idle : ¬Runs s → o = .fault .noRunningStrand

/-! Words. -/

theorem issueWord_wordAnswers (fields : List Nat) (body : State → State) (s : State) : WordAnswers (issueWord fields body s) s := by
  refine ⟨fun h => ?_, fun h => if_neg h⟩
  unfold Runs at h
  rw [issueWord, if_pos h]
  split <;> exact ⟨_, rfl⟩

theorem issueLegal_wordAnswers (legal : State → Bool) (fields : List Nat) (body : State → State) (s : State) :
    WordAnswers (issueLegal legal fields body s) s := by
  unfold issueLegal
  split <;> exact issueWord_wordAnswers ..

theorem alu3_wordAnswers (f : W → W → W) (bound : Nat) (m : Marks) (d a b : Sreg) (s : State) : WordAnswers (alu3 f bound m d a b s) s := by
  unfold alu3; exact issueWord_wordAnswers _ _ s

theorem alu2_wordAnswers (f : W → W) (bound : Nat) (m : Marks) (d a : Sreg) (s : State) : WordAnswers (alu2 f bound m d a s) s := by
  unfold alu2; exact issueWord_wordAnswers _ _ s

theorem load_wordAnswers (n : Nat) (signed : Bool) (m : Marks) (d a : Sreg) (cls : BitVec 4) (off : BitVec 6) (s : State) :
    WordAnswers (load n signed m d a cls off s) s := by
  unfold load; exact issueWord_wordAnswers _ _ s

theorem store_wordAnswers (n : Nat) (m : Marks) (d a : Sreg) (cls : BitVec 4) (off : BitVec 6) (s : State) :
    WordAnswers (store n m d a cls off s) s := by
  unfold store; exact issueWord_wordAnswers _ _ s

theorem farLoad_wordAnswers (n : Nat) (signed : Bool) (m : Marks) (d a : Sreg) (cls : BitVec 4) (off : BitVec 6) (s : State) :
    WordAnswers (farLoad n signed m d a cls off s) s := by
  unfold farLoad; exact issueWord_wordAnswers _ _ s

theorem waitvWord_wordAnswers (cond : Nat) (m : Marks) (dw : Bool) (a b : Sreg) (lim : BitVec 4) (s : State) :
    WordAnswers (waitvWord cond m dw a b lim s) s := by
  unfold waitvWord; exact issueWord_wordAnswers _ _ s

theorem patchWord_wordAnswers (e : Eng) (t : BitVec 6) (go : Bool) (f : BitVec 5) (v : BitVec 16) (s : State) :
    WordAnswers (patchWord e t go f v s) s := by
  unfold patchWord; exact issueWord_wordAnswers _ _ s

theorem fp2_wordAnswers (f : Nat → XVal → XVal → W × FlagSet) (bound : Nat) (m : Marks) (d a b : Sreg) (s : State) :
    WordAnswers (fp2 f bound m d a b s) s := by
  unfold fp2; exact issueWord_wordAnswers _ _ s

theorem fpBits2_wordAnswers (f : Nat → Nat → W) (m : Marks) (d a b : Sreg) (s : State) : WordAnswers (fpBits2 f m d a b s) s := by
  unfold fpBits2; exact issueWord_wordAnswers _ _ s

theorem fpBits1_wordAnswers (f : Nat → W) (m : Marks) (d a : Sreg) (s : State) : WordAnswers (fpBits1 f m d a s) s := by
  unfold fpBits1; exact issueWord_wordAnswers _ _ s

theorem cvtWord_wordAnswers (f : W → W × FlagSet) (m : Marks) (d a : Sreg) (s : State) : WordAnswers (cvtWord f m d a s) s := by
  unfold cvtWord; exact issueWord_wordAnswers _ _ s

theorem predOp_wordAnswers (f : Bool → Bool → Bool) (m : Marks) (d a b : Preg) (s : State) : WordAnswers (predOp f m d a b s) s := by
  unfold predOp; exact issueWord_wordAnswers _ _ s

theorem fcmp_wordAnswers (c : XVal → XVal → Bool) (m : Marks) (p : Preg) (a b : Sreg) (s : State) : WordAnswers (fcmp c m p a b s) s := by
  unfold fcmp; exact issueWord_wordAnswers _ _ s

theorem cmpWord_wordAnswers (cond : Nat) (m : Marks) (p : Preg) (a : Sreg) (fields : List Nat) (y : State → W) (s : State) :
    WordAnswers (cmpWord cond m p a fields y s) s :=
  issueWord_wordAnswers fields (fun s => retire m (wrp p (condHolds cond (rd s a 1) (y s)) 1 none s)) s

theorem cmp_wordAnswers (cond : Nat) (m : Marks) (p : Preg) (a b : Sreg) (s : State) : WordAnswers (cmp cond m p a b s) s :=
  cmpWord_wordAnswers cond m p a [a.toNat, b.toNat] (fun s => rd s b 2) s

theorem cmpi_wordAnswers (cond : Nat) (m : Marks) (p : Preg) (a : Sreg) (i : BitVec 10) (s : State) : WordAnswers (cmpi cond m p a i s) s :=
  cmpWord_wordAnswers cond m p a [a.toNat] (fun _ => simm i) s

theorem atomic_wordAnswers (op : AmoOp) (fields : List Nat) (z : State → W) (m : Marks) (d a b : Sreg) (s : State) :
    WordAnswers (atomic op fields z m d a b s) s := by
  unfold atomic; exact issueWord_wordAnswers _ _ s

theorem amo_wordAnswers (op : AmoOp) (m : Marks) (d a b : Sreg) (s : State) : WordAnswers (amo op m d a b s) s :=
  atomic_wordAnswers op [d.toNat, a.toNat, b.toNat] (fun _ => 0) m d a b s

theorem amoPair_wordAnswers (op : AmoOp) (m : Marks) (d a b : Sreg) (s : State) : WordAnswers (amoPair op m d a b s) s :=
  atomic_wordAnswers op [d.toNat, a.toNat, b.toNat, b.toNat + 1] (fun s => rd s (b + 1) 3) m d a b s

theorem remAmo_wordAnswers (op : AmoOp) (m : Marks) (d a b : Sreg) (s : State) : WordAnswers (remAmo op m d a b s) s := by
  unfold remAmo
  split
  · exact amoPair_wordAnswers ..
  · exact amo_wordAnswers ..

/-- A word asks only whether its strand runs. -/
theorem exec_wordAnswers (i : Instr) (s : State) (hw : i.isWord = true) : WordAnswers (exec i s) s := by
  cases i with
  | xrd | xwr | xset | xclr | eret | tlbi =>
    rw [exec]; exact issueLegal_wordAnswers _ _ _ _
  | cmpEq | cmpNe | cmpLt | cmpGe | cmpLtu | cmpGeu =>
    rw [exec]; exact cmp_wordAnswers _ _ _ _ _ _
  | cmpiEq | cmpiNe | cmpiLt | cmpiGe | cmpiLtu | cmpiGeu =>
    rw [exec]; exact cmpi_wordAnswers _ _ _ _ _ _
  | amoAdd | amoAnd | amoOr | amoXor | amoMin | amoMax | amoMinu | amoMaxu | amoSwap =>
    rw [exec]; exact amo_wordAnswers _ _ _ _ _ _
  | cas | amoBadd =>
    rw [exec]; exact amoPair_wordAnswers _ _ _ _ _ _
  | add | sub | mul | mulh | mulhu | div | divu | rem | remu | and | or | xor | andn | shl | shr | sra | min | max | minu | maxu =>
    rw [exec]; exact alu3_wordAnswers _ _ _ _ _ _ _
  | clz | ctz | popc | addi | andi | ori | xori | shli | shri | srai | bfx =>
    rw [exec]; exact alu2_wordAnswers _ _ _ _ _ _
  | ldB | ldBu | ldH | ldHu | ldW | ldWu | ldD =>
    rw [exec]; exact load_wordAnswers _ _ _ _ _ _ _ _
  | stB | stH | stW | stD =>
    rw [exec]; exact store_wordAnswers _ _ _ _ _ _ _
  | ldqB | ldqBu | ldqH | ldqHu | ldqW | ldqWu | ldqD =>
    rw [exec]; exact farLoad_wordAnswers _ _ _ _ _ _ _ _
  | waitvEq | waitvNe | waitvLt | waitvGe | waitvLtu | waitvGeu =>
    rw [exec]; exact waitvWord_wordAnswers _ _ _ _ _ _ _
  | pwL | pwM | pwV | pwS =>
    rw [exec]; exact patchWord_wordAnswers _ _ _ _ _ _
  | fadd | fsub | fmul | fdiv =>
    rw [exec]; exact fp2_wordAnswers _ _ _ _ _ _ _
  | fmin | fmax | fsgnj =>
    rw [exec]; exact fpBits2_wordAnswers _ _ _ _ _ _
  | fabs | fneg | fclass =>
    rw [exec]; exact fpBits1_wordAnswers _ _ _ _ _
  | cvtIF | cvtFI | cvtFBf | cvtBfF =>
    rw [exec]; exact cvtWord_wordAnswers _ _ _ _ _
  | pand | por | pxor | pandn =>
    rw [exec]; exact predOp_wordAnswers _ _ _ _ _ _
  | fcmpEq | fcmpLt | fcmpLe | fcmpUn =>
    rw [exec]; exact fcmp_wordAnswers _ _ _ _ _ _
  | remAmoAdd | remAmoAnd | remAmoOr | remAmoXor | remAmoMin | remAmoMax | remAmoMinu | remAmoMaxu | remAmoSwap | remAmoBadd =>
    rw [exec]; exact remAmo_wordAnswers _ _ _ _ _ _
  | nop | svc | brk | li | lih | pmov | psave | pload | fsqrt | fma | br | jmp | call | jmpr | callr | ret | halt | loop | loopi | rep | repImm |
    ldqAcq | stRel | pop | fence | semWait | semPost | semRd | ringDecl | ringWait | ringRel | ringWp | barArrive | barWait | barSync | tmask |
    epatch | ebind | eissue | efence | egen | estat | tmplLd | tmplSt | hLd | hSt | hSet | hGet | hAdv | hMov | hClr | xlate | spawn | taskDone |
    validSet | trigPost | trigCancel | trigQuery | ctrAdd | ctrRd | remSt | remSig | rdtick | rdframe | rdtime | enter | leave | bfi | sel | madd
    | hint =>
    rw [exec]; exact issueWord_wordAnswers _ _ _
  | _ => cases hw

/-! Steps of the machine. -/

theorem operator_answers (code : Nat) (op : OpBody) (c : Cl) (t : Tl) (e : Eng) (s : State) : Answers (operator code op c t e s) := by
  unfold operator
  split <;> exact ⟨_, rfl⟩

theorem moveOperator_answers (code : Nat) (op : OpBody) (c : Cl) (t : Tl) (e : Eng) (s : State) :
    Answers (moveOperator code op c t e s) := by
  unfold moveOperator
  split
  · exact operator_answers ..
  · exact operator_answers ..
  · exact ⟨_, rfl⟩

/-- A step of the machine answers on any state. -/
theorem exec_answers_of_step (i : Instr) (s : State) (hw : i.isWord = false) (hr : i ≠ .repIteration) (hu : i ≠ .unassignedEncoding) :
    Answers (exec i s) := by
  cases i with
  | repIteration => exact absurd rfl hr
  | unassignedEncoding => exact absurd rfl hu
  | mma | mmaZ | mmaChain | wload | accZero | accLd | vAdd | vSub | vMul | vFma | vMin | vMax | vAbs | vNeg | clamp | vCvt | scale | cmpsel |
    redsum | redmax | redmin | scan | bcast | perm | qblk | dqblk | accRd | tload | tint | exp2 | rcp | rsqrt | bucket | hashcell | iota |
    sortnet | emit =>
    rw [exec]; exact operator_answers _ _ _ _ _ _
  | copy | gather | scatter | scatterBkt | fill | acopy | signal | prefetch | ctrPost =>
    rw [exec]; exact moveOperator_answers _ _ _ _ _ _
  | xlateDeliver | resultLand | gapEnd | switchAwayEnd | farAccessComplete | farAccessRefused | farAccessTranslationFault | flqRestart | tileTick
    | hostMailboxWrite | firmwareResume | templateTick | scheduleMiss | matrixRowLand | reductionLand | deviceTick | xframeAdvance |
    fabricTimeTick | rerank | spillReturn | completionRecordWrite | queueTableWrite | rankProgramInstall | firmwareTableWrite | contextCreate |
    contextKill | killComplete | nodeBoundaryRequest | generationFenceRequest | peerAccessArrive | routeUpdate | portRetrain | flitResend |
    counterAddition | triggerOrphan | ptpMessage | hostRead | hostWrite | hostFetchadd | hostCas | supersededBitsRead | poisonConsumption | purge
    | tableScrub | masterReplace | clusterRetest | checkpointRequest | checkpointStream | checkpointResume | powerApply | powerRemove |
    islandResetRequest | drainEnd | diePowerOn | dieResetRelease | dieBootComplete | dieDrain | dieDrainComplete | powerSample | powerBudgetWrite
    | coldPlateAlarm | idleClockGate | idlePowerGate | leaseRenew | leaseCheck | leaseCas | leaseVacate | firmwarePrepare | quoteRequest |
    measurementExtend | keyAssign | transitTraffic | islandAgentFaultResolved | faultLeftUnresolved | fencedDieReset =>
    rw [exec]; exact ⟨_, rfl⟩
  | waitvReread | storePerform | waitExpiry | mailboxInterrupt | asyncTrapDelivery | firmwareReflect | blockStart | blockComplete |
    engineFaultResume | tmplLdWrite | auditReplay | queueTake | launchPacket | copyPacket | noOpPacket | admission | placement | gangRelease |
    reefPoint | reefDiversion | reefBudgetExpiry | yieldPointSave | fenceSnapshot | fenceAbandon | gangRestore | chainActionComplete |
    purgeComplete | dieFence | queueReset | queueResetComplete | checkpointRestore | firmwareCommit | keyRetire | keyRetireComplete |
    faultPolicyEndLaunch | remStComplete | firmwareSwitch =>
    simp only [exec, execWaitvReread, execStorePerform, execWaitExpiry, execMailboxInterrupt, execAsyncTrapDelivery, execFirmwareReflect,
      execBlockStart, execBlockComplete, execEngineFaultResume, execTmplLdWrite, execAuditReplay, execQueueTake, execLaunchPacket,
      execCopyPacket, execNoOpPacket, execAdmission, execPlacement, execGangRelease, execReefPoint, execReefDiversion, execReefBudgetExpiry,
      execYieldPointSave, execFenceSnapshot, execFenceAbandon, execGangRestore, execChainActionComplete, execPurgeComplete, execDieFence,
      execQueueReset, execQueueResetComplete, execCheckpointRestore, execFirmwareCommit, execKeyRetire, execKeyRetireComplete,
      execFaultPolicyEndLaunch, execRemStComplete, execFirmwareSwitch]
    (repeat' split) <;> exact ⟨_, rfl⟩
  | _ => cases hw

/-! Iterations of a repetition. -/

theorem trapIllegal_answers {s : State} (h : Runs s) : Answers (issueWord [] trapIllegal s) := (issueWord_wordAnswers _ _ s).runs h

theorem exec_answers_of_ne {i : Instr} {s : State} (hi : i ≠ .repIteration) (h : Runs s) : Answers (exec i s) := by
  cases hw : i.isWord with
  | true => exact (exec_wordAnswers i s hw).runs h
  | false =>
    by_cases hu : i = .unassignedEncoding
    · subst hu; exact trapIllegal_answers h
    · exact exec_answers_of_step i s hw hi hu

theorem execRepeated_answers (i : Instr) {s : State} (h : Runs s) : Answers (execRepeated i s) := by
  by_cases hi : i = .repIteration
  · subst hi; exact trapIllegal_answers h
  · obtain e | e := execRepeated_eq i s
    · rw [e]; exact exec_answers_of_ne hi h
    · rw [e]; exact trapIllegal_answers h

theorem iterate_answers (w : Nat) (i : Instr) (sd sa sb : BitVec 3) {s : State} (h : Runs s) : Answers (iterate w i sd sa sb s) := by
  unfold iterate
  extract_lets j use d a b off n bad fails w1 w2
  split
  · exact trapIllegal_answers h
  clear_value fails
  cases fails with
  | some x => exact (issueWord_wordAnswers _ _ s).runs h
  | none =>
    dsimp only
    split
    · exact execRepeated_answers _ h
    · exact trapIllegal_answers h

theorem execRepIteration_answers {s : State} (h : Runs s) : Answers (execRepIteration s) := by
  unfold execRepIteration
  split
  · exact ⟨_, rfl⟩
  split
  · exact (issueWord_wordAnswers _ _ s).runs h
  split
  · exact ⟨_, rfl⟩
  split
  · exact (issueWord_wordAnswers _ _ s).runs h
  extract_lets _ s1
  have h1 : Runs s1 := h
  split
  · split
    · exact iterate_answers _ _ _ _ _ h1
    · exact trapIllegal_answers h1
  · exact trapIllegal_answers h1

/-- Every instruction answers on a strand that runs. -/
theorem exec_answers (i : Instr) {s : State} (h : Runs s) : Answers (exec i s) := by
  by_cases hi : i = .repIteration
  · subst hi; exact execRepIteration_answers h
  · exact exec_answers_of_ne hi h

/-! Work of a tick. -/

theorem matrixRow_answers (op : Nat) (c : Cl) (t : Tl) (s : State) : Answers (matrixRow op c t s) := by
  unfold matrixRow
  split
  case h_7 => exact ⟨_, rfl⟩
  all_goals exact operator_answers ..

theorem vectorRow_answers (op : Nat) (c : Cl) (t : Tl) (s : State) : Answers (vectorRow op c t s) := by
  unfold vectorRow
  split
  case h_32 => exact ⟨_, rfl⟩
  all_goals exact operator_answers ..

theorem moveRow_answers (op : Nat) (c : Cl) (t : Tl) (e : Eng) (s : State) : Answers (moveRow op c t e s) := by
  unfold moveRow
  split
  case h_10 => exact ⟨_, rfl⟩
  all_goals exact moveOperator_answers ..

theorem rowOf_answers (c : Cl) (t : Tl) (e : Eng) (s : State) : Answers (rowOf c t e s) := by
  unfold rowOf
  split
  · exact ⟨_, rfl⟩
  refine iteInduction (motive := Answers) (fun _ => ⟨_, rfl⟩) fun _ => ?_
  cases e with
  | m => exact matrixRow_answers ..
  | v => exact vectorRow_answers ..
  | l => exact moveRow_answers ..
  | s => exact moveRow_answers ..

theorem runRowWork_answers (c : Cl) (t : Tl) (e : Eng) (s : State) : Answers (runRowWork c t e s) := by
  obtain ⟨u, hu⟩ := rowOf_answers c t e s
  unfold runRowWork
  rw [hu]
  exact ⟨_, rfl⟩

theorem runEvent_answers (c : Cl) (k : Sn) (s : State) : Answers (runEvent c k s) := by
  unfold runEvent
  split
  · exact exec_answers_of_step (.asyncTrapDelivery c k) s rfl nofun nofun
  · exact exec_answers_of_step (.mailboxInterrupt c k) s rfl nofun nofun

theorem runWork_answers (w : Work) (s : State) : Answers (runWork w s) := by
  cases w with
  | row c t e => exact runRowWork_answers c t e s
  | emitRow c t =>
    unfold runWork
    dsimp only
    split
    · exact runRowWork_answers c t .v s
    · exact ⟨_, rfl⟩
  | withdraw c k =>
    unfold runWork
    dsimp only
    split
    · exact ⟨_, rfl⟩
    split
    · exact runEvent_answers c k s
    · exact ⟨_, rfl⟩
  | launchPacket q =>
    obtain ⟨u, hu⟩ := exec_answers_of_step (.launchPacket q) s rfl nofun nofun
    have launch : execLaunchPacket q s = .next u := hu
    unfold runWork
    dsimp only
    rw [launch]
    exact ⟨_, rfl⟩
  | reefRestore g => exact ⟨_, rfl⟩
  | contextKill x => exact ⟨_, rfl⟩
  | tileTick c t => exact exec_answers_of_step (.tileTick c t) s rfl nofun nofun
  | templateTick c t => exact exec_answers_of_step (.templateTick c t) s rfl nofun nofun
  | blockStart c t e => exact exec_answers_of_step (.blockStart c t e) s rfl nofun nofun
  | blockComplete c t e => exact exec_answers_of_step (.blockComplete c t e) s rfl nofun nofun
  | scheduleMiss c t e => exact exec_answers_of_step (.scheduleMiss c t e) s rfl nofun nofun
  | matrixRowLand c t => exact exec_answers_of_step (.matrixRowLand c t) s rfl nofun nofun
  | reductionLand c t => exact exec_answers_of_step (.reductionLand c t) s rfl nofun nofun
  | tmplLdWrite c t => exact exec_answers_of_step (.tmplLdWrite c t) s rfl nofun nofun
  | deviceTick => exact exec_answers_of_step .deviceTick s rfl nofun nofun
  | fabricTimeTick => exact exec_answers_of_step .fabricTimeTick s rfl nofun nofun
  | xframeAdvance c => exact exec_answers_of_step (.xframeAdvance c) s rfl nofun nofun
  | waitExpiry c k => exact exec_answers_of_step (.waitExpiry c k) s rfl nofun nofun
  | purge x tag => exact exec_answers_of_step (.purge x tag) s rfl nofun nofun
  | purgeComplete x tag => exact exec_answers_of_step (.purgeComplete x tag) s rfl nofun nofun
  | queueTake q => exact exec_answers_of_step (.queueTake q) s rfl nofun nofun
  | copyPacket q => exact exec_answers_of_step (.copyPacket q) s rfl nofun nofun
  | noOpPacket q => exact exec_answers_of_step (.noOpPacket q) s rfl nofun nofun
  | queueResetComplete q => exact exec_answers_of_step (.queueResetComplete q) s rfl nofun nofun
  | rerank d => exact exec_answers_of_step (.rerank d) s rfl nofun nofun
  | admission d => exact exec_answers_of_step (.admission d) s rfl nofun nofun
  | placement d => exact exec_answers_of_step (.placement d) s rfl nofun nofun
  | spillReturn d => exact exec_answers_of_step (.spillReturn d) s rfl nofun nofun
  | gangRelease g => exact exec_answers_of_step (.gangRelease g) s rfl nofun nofun
  | reefPoint l => exact exec_answers_of_step (.reefPoint l) s rfl nofun nofun
  | reefDiversion l => exact exec_answers_of_step (.reefDiversion l) s rfl nofun nofun
  | reefBudgetExpiry l => exact exec_answers_of_step (.reefBudgetExpiry l) s rfl nofun nofun
  | completionRecordWrite l => exact exec_answers_of_step (.completionRecordWrite l) s rfl nofun nofun
  | chainActionComplete h => exact exec_answers_of_step (.chainActionComplete h) s rfl nofun nofun
  | killComplete x => exact exec_answers_of_step (.killComplete x) s rfl nofun nofun
  | yieldPointSave g => exact exec_answers_of_step (.yieldPointSave g) s rfl nofun nofun
  | fenceSnapshot g => exact exec_answers_of_step (.fenceSnapshot g) s rfl nofun nofun
  | fenceAbandon g => exact exec_answers_of_step (.fenceAbandon g) s rfl nofun nofun
  | diePowerOn d => exact exec_answers_of_step (.diePowerOn d) s rfl nofun nofun
  | dieResetRelease d => exact exec_answers_of_step (.dieResetRelease d) s rfl nofun nofun
  | dieBootComplete d => exact exec_answers_of_step (.dieBootComplete ⟨d, true⟩) s rfl nofun nofun
  | masterReplace => exact exec_answers_of_step .masterReplace s rfl nofun nofun
  | dieFence d => exact exec_answers_of_step (.dieFence d) s rfl nofun nofun
  | checkpointResume => exact exec_answers_of_step .checkpointResume s rfl nofun nofun

/-! The strand that the selector picks. -/

/-- A picked strand is in Run or Handler: an event comes to no other, and no other is ready. -/
theorem Core.runs_of_pick {x : Core} {cycle : Nat} {k : Sn} (h : x.pick cycle = some k) :
    (x.strand k).state = .run ∨ (x.strand k).state = .handler := by
  unfold Core.pick at h
  split at h
  · cases h
  split at h
  · cases h
    have due := List.find?_some ‹_›
    simp only [Bool.and_eq_true, Strand.eventDue, Strand.takesEvents, Bool.or_eq_true, beq_iff_eq] at due
    tauto
  split at h
  · cases h
  · have ready := List.find?_some h
    simp only [Bool.and_eq_true, Strand.ready, Bool.or_eq_true, beq_iff_eq] at ready
    tauto

theorem runStrand_answers {c : Cl} {k : Sn} {s : State} (h : (s.strand c k).state = .run ∨ (s.strand c k).state = .handler) :
    Answers (runStrand c k s) := by
  have runs (w : BitVec 32) : Runs (s.enter c k w) := h
  unfold runStrand
  dsimp only
  split
  · exact runEvent_answers c k s
  split
  · exact execRepIteration_answers (runs 0)
  split
  · exact (issueWord_wordAnswers _ _ _).runs (runs 0)
  split
  · exact exec_answers _ (runs _)
  · exact trapIllegal_answers (runs _)

theorem coreMachine_strand (f : Fin 5) (s : State) (k : Sn) : (coreMachine f s).strand 0 k = (s.fwCores.get f).asCore.strand k :=
  congrArg (Core.strand · k) (Vector.get_set_same (i := (0 : Cl)) ..)

theorem runCore_answers {f : Fin 5} {k : Sn} {s : State} (h : (s.fwCores.get f).asCore.pick s.cycle = some k) : Answers (runCore f k s) := by
  have ran : Answers (runStrand 0 k (coreMachine f s)) := runStrand_answers (by rw [coreMachine_strand]; exact Core.runs_of_pick h)
  obtain ⟨t, ht⟩ := ran
  unfold runCore
  dsimp only
  rw [ht]
  cases (fetch (coreMachine f s) 0 _).elim true ownWord <;> exact ⟨_, rfl⟩

theorem State.pick_core {s : State} {c : Cl} {k : Sn} (h : s.pick = some (c, k)) : (s.core c).pick s.cycle = some k := by
  unfold State.pick at h
  obtain ⟨i, -, hi⟩ := List.exists_of_findSome?_eq_some h
  obtain ⟨j, hj, e⟩ := Option.map_eq_some_iff.mp hi
  cases e
  exact hj

theorem State.pickCore_core {s : State} {f : Fin 5} {k : Sn} (h : s.pickCore = some (f, k)) : (s.fwCores.get f).asCore.pick s.cycle = some k := by
  unfold State.pickCore at h
  obtain ⟨i, -, hi⟩ := List.exists_of_findSome?_eq_some h
  split at hi
  · obtain ⟨j, hj, e⟩ := Option.map_eq_some_iff.mp hi
    cases e
    exact hj
  · cases hi

/-- A step that takes nothing from outside answers. -/
theorem step_answers {s : State} (h : s.agenda = []) : Answers (step s) := by
  unfold step stepOne
  split
  · exact runWork_answers ..
  rw [h]
  dsimp only
  split
  · exact exec_answers_of_step .powerApply s rfl nofun nofun
  split
  · exact runStrand_answers (Core.runs_of_pick (State.pick_core ‹_›))
  split
  · exact runCore_answers (State.pickCore_core ‹_›)
  · exact ⟨_, rfl⟩

/-- Settles O3: a word asks only whether its strand runs, a step of the machine asks nothing, and the selector picks strands that run. -/
theorem everyInstructionAnswers : Obligations.EveryInstructionAnswers :=
  ⟨fun i _ h => exec_answers i h, fun i s hw hr hu => exec_answers_of_step i s hw hr hu, fun _ h => step_answers h,
    fun i s hw hr hh => (exec_wordAnswers i s hw).idle fun h => h.elim hr hh⟩

end Sys2Proof.Machine
end

section
/-! PROOF. Instruction words: a word reads as the fields it was made of, so decoding undoes encoding, and what decodes is well formed
(03 R71 to R81). -/

namespace Sys2Proof

/-! Bit ranges of a word that is a sum of fields in their places (R72, R73). -/

/-- The codes of a word, before its fields are added. -/
def codes (c : Nat) : Nat := c

theorem wordOf_eq_codes (c : Nat) (fs : List Nat) : wordOf c fs = codes c + fs.sum := by rw [wordOf, codes]

theorem add_sum_nil (n : Nat) : n + ([] : List Nat).sum = n := by rw [List.sum_nil, Nat.add_zero]

theorem add_sum_cons (n f : Nat) (fs : List Nat) : n + (f :: fs).sum = n + f + fs.sum := by rw [List.sum_cons, Nat.add_assoc]

theorem bits_codes (c lo k : Nat) : bits (codes c) lo k = c >>> lo % (1 <<< k) := by
  rw [Nat.shiftRight_eq_div_pow, Nat.one_shiftLeft]; rfl

theorem mod_eq_bits (n k : Nat) : n % 2 ^ k = bits n 0 k := by rw [bits, Nat.pow_zero, Nat.div_one]

theorem bits_bits {n w lo k : Nat} (h : lo + k ≤ w) : bits (bits n 0 w) lo k = bits n lo k := by
  obtain ⟨q, rfl⟩ := Nat.exists_eq_add_of_le h
  rw [← mod_eq_bits, bits, Nat.add_assoc, pow_add, Nat.mod_mul_right_div_self,
    Nat.mod_mod_of_dvd _ (Nat.pow_dvd_pow 2 (Nat.le_add_right k q))]
  rfl

theorem add_at_div (n v p : Nat) : (n + at_ v p) / 2 ^ p = n / 2 ^ p + v := Nat.add_mul_div_right _ _ (by positivity)

/-- A field does not reach the bits below its place. -/
theorem bits_at_above {n v p lo k : Nat} (h : lo + k ≤ p) : bits (n + at_ v p) lo k = bits n lo k := by
  obtain ⟨q, rfl⟩ := Nat.exists_eq_add_of_le h
  have : at_ v (lo + k + q) = 2 ^ lo * (2 ^ k * (2 ^ q * v)) := by unfold at_; ring
  rw [bits, this, Nat.add_mul_div_left _ _ (by positivity), Nat.add_mul_mod_self_left]; rfl

theorem bits_at_same {n v p w : Nat} (hv : v < 2 ^ w) (free : bits n p w = 0) : bits (n + at_ v p) p w = v := by
  rw [bits, add_at_div, Nat.add_mod, show n / 2 ^ p % 2 ^ w = 0 from free, Nat.zero_add, Nat.mod_mod, Nat.mod_eq_of_lt hv]

/-- A field added where the word is still clear carries nothing into the bits above it. -/
theorem bits_at_below {n v p w lo k : Nat} (hv : v < 2 ^ w) (h : p + w ≤ lo) (free : bits n p w = 0) :
    bits (n + at_ v p) lo k = bits n lo k := by
  obtain ⟨q, rfl⟩ := Nat.exists_eq_add_of_le h
  obtain ⟨u, hu⟩ : 2 ^ w ∣ n / 2 ^ p := Nat.dvd_of_mod_eq_zero free
  have top : (n + at_ v p) / 2 ^ (p + w) = n / 2 ^ (p + w) := by
    rw [pow_add, ← Nat.div_div_eq_div_mul, ← Nat.div_div_eq_div_mul, add_at_div, hu, Nat.mul_add_div (by positivity),
      Nat.div_eq_of_lt hv, Nat.add_zero, Nat.mul_div_right _ (by positivity)]
  rw [bits, bits, pow_add _ (p + w), ← Nat.div_div_eq_div_mul, top, Nat.div_div_eq_div_mul]

/-- What a range of bits reads: a field in its place, or what the word reads there without the field. -/
theorem bits_add_field :
    (∀ {n p lo k : Nat} (v : Nat), lo + k ≤ p → bits (n + at_ v p) lo k = bits n lo k) ∧
    (∀ {n p w : Nat} (v : BitVec w), bits n p w = 0 → bits (n + at_ v.toNat p) p w = v.toNat) ∧
    (∀ {n p w lo k : Nat} (v : BitVec w), p + w ≤ lo → bits n p w = 0 → bits (n + at_ v.toNat p) lo k = bits n lo k) ∧
    (∀ {n p : Nat} (v : Bool), bits n p 1 = 0 → bits (n + at_ v.toNat p) p 1 = v.toNat) ∧
    ∀ {n p lo k : Nat} (v : Bool), p + 1 ≤ lo → bits n p 1 = 0 → bits (n + at_ v.toNat p) lo k = bits n lo k :=
  ⟨fun _ => bits_at_above, fun v => bits_at_same v.isLt, fun v => bits_at_below v.isLt, fun v => bits_at_same v.toNat_lt,
    fun v => bits_at_below v.toNat_lt⟩

/-! The marks as one field of three bits (R72). -/

def Marks.code (m : Marks) : BitVec 3 := BitVec.ofBool m.z ++ m.gap

def Marks.ofCode (v : Nat) : Marks := ⟨v / 4 % 2 == 1, BitVec.ofNat 2 v⟩

theorem Marks.code_toNat (m : Marks) : m.code.toNat = 4 * m.z.toNat + m.gap.toNat := by
  rw [code, BitVec.toNat_append, BitVec.toNat_ofBool, Nat.shiftLeft_eq, Nat.mul_comm, ← Nat.two_pow_add_eq_or_of_lt m.gap.isLt]

theorem Marks.enc_eq (m : Marks) : m.enc = at_ m.code.toNat 23 := by rw [code_toNat, enc, at_]; ring

theorem Marks.ofCode_code (m : Marks) : ofCode m.code.toNat = m := by
  obtain ⟨z, g⟩ := m
  have hg : g.toNat < 4 := g.isLt
  have hz : (4 * z.toNat + g.toNat) / 4 % 2 = z.toNat := by have := z.toNat_lt; omega
  have hv : BitVec.ofNat 2 (4 * z.toNat + g.toNat) = g := BitVec.eq_of_toNat_eq (by rw [BitVec.toNat_ofNat]; omega)
  rw [ofCode, code_toNat, hz, hv]
  cases z <;> rfl

theorem marksOf_eq_ofCode (n : Nat) : marksOf n = Marks.ofCode (bits n 23 3) := by
  unfold marksOf Marks.ofCode bit bits
  congr 1
  · congr 1; omega
  · apply BitVec.eq_of_toNat_eq; rw [fld, BitVec.toNat_ofNat, BitVec.toNat_ofNat]; omega

/-! The decoder's reads of a word as ranges of its bits. -/

theorem fld_eq_bits (k n lo : Nat) : fld k n lo = BitVec.ofNat k (bits n lo k) := by
  apply BitVec.eq_of_toNat_eq; simp [fld, bits]

theorem reads_as_bits :
    (∀ n, marksOf n = Marks.ofCode (bits n 23 3)) ∧ (∀ k n lo, fld k n lo = BitVec.ofNat k (bits n lo k)) ∧
    (∀ n lo, bit n lo = (bits n lo 1 == 1)) ∧ (∀ n k, n % 2 ^ k = bits n 0 k) ∧ ∀ n a k, bits (n / 2 ^ a) 0 k = bits n a k :=
  ⟨marksOf_eq_ofCode, fld_eq_bits, fun _ _ => rfl, mod_eq_bits, fun _ _ _ => (mod_eq_bits ..).symm⟩

/-- What the decoder makes of a range that reads as a field is the field. -/
theorem value_of_bits :
    (∀ m : Marks, Marks.ofCode m.code.toNat = m) ∧ (∀ {k} (v : BitVec k), BitVec.ofNat k v.toNat = v) ∧
    ∀ v : Bool, (v.toNat == 1) = v :=
  ⟨Marks.ofCode_code, fun v => by rw [BitVec.ofNat_toNat, BitVec.setWidth_eq], fun v => by cases v <;> rfl⟩

/-! Every word decodes to the instruction it was made of. -/

/-- The 32 bits of n are those of the word of i. -/
def Reads (n : Nat) (i : Instr) : Prop := ∀ lo k, lo + k ≤ 32 → bits n lo k = bits (encodeNat i) lo k

/-- What reads as i decodes to i, unless a condition of R76 or R79 refuses the fields of i. -/
def Decodes (i : Instr) : Prop := WellFormed i = true → ∀ n, Reads n i → decodeNat n = .ok i

theorem encode_reads (i : Instr) : Reads (encode i).toNat i := fun lo k h => by
  rw [encode, BitVec.toNat_ofNat, mod_eq_bits, bits_bits h]

/-- Integer arithmetic, immediates, select (04 R95 to R100). -/
theorem decodes_arithmetic :
    (∀ m d a b, Decodes (.add m d a b) ∧ Decodes (.sub m d a b) ∧ Decodes (.mul m d a b) ∧ Decodes (.mulh m d a b) ∧
    Decodes (.mulhu m d a b) ∧ Decodes (.div m d a b) ∧ Decodes (.divu m d a b) ∧ Decodes (.rem m d a b) ∧
    Decodes (.remu m d a b) ∧ Decodes (.and m d a b) ∧ Decodes (.or m d a b) ∧ Decodes (.xor m d a b) ∧ Decodes (.andn m d a b) ∧
    Decodes (.shl m d a b) ∧ Decodes (.shr m d a b) ∧ Decodes (.sra m d a b) ∧ Decodes (.min m d a b) ∧ Decodes (.max m d a b) ∧
    Decodes (.minu m d a b) ∧ Decodes (.maxu m d a b)) ∧
    (∀ m d a, Decodes (.clz m d a) ∧ Decodes (.ctz m d a) ∧ Decodes (.popc m d a)) ∧
    (∀ m d a sh, Decodes (.shli m d a sh) ∧ Decodes (.shri m d a sh) ∧ Decodes (.srai m d a sh)) ∧
    (∀ m d a i, Decodes (.addi m d a i) ∧ Decodes (.andi m d a i) ∧ Decodes (.ori m d a i) ∧ Decodes (.xori m d a i)) ∧
    (∀ m d i, Decodes (.li m d i) ∧ Decodes (.lih m d i)) ∧
    (∀ m d a b c, Decodes (.madd m d a b c)) ∧
    ∀ m d a b p sense, Decodes (.sel m d a b p sense) := by
  and_intros <;> intros <;> and_intros
  all_goals
    intro _ n h
    dsimp only [Reads, encodeNat] at h
    simp only [wordOf_eq_codes, add_sum_cons, add_sum_nil, Marks.enc_eq] at h
    simp only [decodeNat, decodeAlu3, decodeShift, reads_as_bits, bits_add_field, bits_codes, value_of_bits, h,
      Nat.reduceShiftRight, Nat.reduceShiftLeft, Nat.reduceMod, Nat.reduceLeDiff, Nat.reduceAdd]

/-- Compares, predicates, FP32 (04 R101 to R109). -/
theorem decodes_comparisons :
    (∀ m p a b, Decodes (.cmpEq m p a b) ∧ Decodes (.cmpNe m p a b) ∧ Decodes (.cmpLt m p a b) ∧ Decodes (.cmpGe m p a b) ∧
    Decodes (.cmpLtu m p a b) ∧ Decodes (.cmpGeu m p a b) ∧ Decodes (.fcmpEq m p a b) ∧ Decodes (.fcmpLt m p a b) ∧
    Decodes (.fcmpLe m p a b) ∧ Decodes (.fcmpUn m p a b)) ∧
    (∀ m p a i, Decodes (.cmpiEq m p a i) ∧ Decodes (.cmpiNe m p a i) ∧ Decodes (.cmpiLt m p a i) ∧ Decodes (.cmpiGe m p a i) ∧
    Decodes (.cmpiLtu m p a i) ∧ Decodes (.cmpiGeu m p a i)) ∧
    (∀ m d a b, Decodes (.pand m d a b) ∧ Decodes (.por m d a b) ∧ Decodes (.pxor m d a b) ∧ Decodes (.pandn m d a b)) ∧
    (∀ m d a, Decodes (.pmov m d a)) ∧
    (∀ m d, Decodes (.psave m d)) ∧
    (∀ m a, Decodes (.pload m a)) ∧
    (∀ m d a b, Decodes (.fadd m d a b) ∧ Decodes (.fsub m d a b) ∧ Decodes (.fmul m d a b) ∧ Decodes (.fdiv m d a b) ∧
    Decodes (.fmin m d a b) ∧ Decodes (.fmax m d a b) ∧ Decodes (.fsgnj m d a b)) ∧
    (∀ m d a, Decodes (.fsqrt m d a) ∧ Decodes (.fabs m d a) ∧ Decodes (.fneg m d a) ∧ Decodes (.fclass m d a)) ∧
    ∀ m d a b c, Decodes (.fma m d a b c) := by
  and_intros <;> intros <;> and_intros
  all_goals
    intro _ n h
    dsimp only [Reads, encodeNat] at h
    simp only [wordOf_eq_codes, add_sum_cons, add_sum_nil, Marks.enc_eq] at h
    simp only [decodeNat, decodeCmp, decodeCmpi, decodePred, decodeFp3, reads_as_bits, bits_add_field, bits_codes, value_of_bits, h,
      Nat.reduceShiftRight, Nat.reduceShiftLeft, Nat.reduceMod, Nat.reduceLeDiff, Nat.reduceAdd]

/-- System words, transfers, repetition, frames, times (04 R112 to R124, 05 R159 to R164). -/
theorem decodes_flow :
    (∀ m, Decodes (.nop m) ∧ Decodes (.eret m) ∧ Decodes (.ret m) ∧ Decodes (.halt m)) ∧
    (∀ m d xr, Decodes (.xrd m d xr)) ∧
    (∀ m a xr, Decodes (.xwr m a xr) ∧ Decodes (.xset m a xr) ∧ Decodes (.xclr m a xr)) ∧
    (∀ m n, Decodes (.svc m n) ∧ Decodes (.brk m n)) ∧
    (∀ m i, Decodes (.jmp m i) ∧ Decodes (.call m i)) ∧
    (∀ m a, Decodes (.jmpr m a) ∧ Decodes (.callr m a)) ∧
    (∀ m a sd sa sb, Decodes (.rep m a sd sa sb)) ∧
    (∀ m cnt sd sa sb, Decodes (.repImm m cnt sd sa sb)) ∧
    (∀ m n, Decodes (.enter m n) ∧ Decodes (.leave m n)) ∧
    (∀ m d, Decodes (.rdtick m d) ∧ Decodes (.rdframe m d) ∧ Decodes (.rdtime m d)) ∧
    ∀ m p sense disp, Decodes (.br m p sense disp) := by
  and_intros <;> intros <;> and_intros
  all_goals
    intro _ n h
    dsimp only [Reads, encodeNat] at h
    simp only [wordOf_eq_codes, add_sum_cons, add_sum_nil, Marks.enc_eq] at h
    simp only [decodeNat, decodeSys, decodeJmp, decodeJreg, decodeRep, decodeFrame, decodeTime, reads_as_bits, bits_add_field,
      bits_codes, value_of_bits, h, Nat.reduceShiftRight, Nat.reduceShiftLeft, Nat.reduceMod, Nat.reduceLeDiff, Nat.reduceAdd]

/-- Loads, stores, far loads, the fence (05 R130 to R140). -/
theorem decodes_accesses :
    (∀ m d a cls off, Decodes (.ldB m d a cls off) ∧ Decodes (.ldBu m d a cls off) ∧ Decodes (.ldH m d a cls off) ∧
    Decodes (.ldHu m d a cls off) ∧ Decodes (.ldW m d a cls off) ∧ Decodes (.ldWu m d a cls off) ∧ Decodes (.ldD m d a cls off) ∧
    Decodes (.stB m d a cls off) ∧ Decodes (.stH m d a cls off) ∧ Decodes (.stW m d a cls off) ∧ Decodes (.stD m d a cls off) ∧
    Decodes (.ldqB m d a cls off) ∧ Decodes (.ldqBu m d a cls off) ∧ Decodes (.ldqH m d a cls off) ∧
    Decodes (.ldqHu m d a cls off) ∧ Decodes (.ldqW m d a cls off) ∧ Decodes (.ldqWu m d a cls off) ∧
    Decodes (.ldqD m d a cls off)) ∧
    (∀ m d a scope, Decodes (.ldqAcq m d a scope) ∧ Decodes (.stRel m d a scope)) ∧
    (∀ m, Decodes (.pop m)) ∧
    ∀ m cmask scope, Decodes (.fence m cmask scope) := by
  and_intros <;> intros <;> and_intros
  all_goals
    intro _ n h
    dsimp only [Reads, encodeNat] at h
    simp only [wordOf_eq_codes, add_sum_cons, add_sum_nil, Marks.enc_eq] at h
    simp only [decodeNat, decodeLd, decodeSt, decodeFar, reads_as_bits, bits_add_field, bits_codes, value_of_bits, h,
      Nat.reduceShiftRight, Nat.reduceShiftLeft, Nat.reduceMod, Nat.reduceLeDiff, Nat.reduceAdd]

/-- Atomics, remote and trigger words, tasks (05 R137, R157, R158, 11 R325, 13 R376 to R382). -/
theorem decodes_atomics :
    (∀ m d a b scope, Decodes (.amoAdd m d a b scope) ∧ Decodes (.amoAnd m d a b scope) ∧ Decodes (.amoOr m d a b scope) ∧
    Decodes (.amoXor m d a b scope) ∧ Decodes (.amoMin m d a b scope) ∧ Decodes (.amoMax m d a b scope) ∧
    Decodes (.amoMinu m d a b scope) ∧ Decodes (.amoMaxu m d a b scope) ∧ Decodes (.amoSwap m d a b scope)) ∧
    (∀ m d a b, Decodes (.remSt m d a b) ∧ Decodes (.remAmoAdd m d a b) ∧ Decodes (.remAmoAnd m d a b) ∧
    Decodes (.remAmoOr m d a b) ∧ Decodes (.remAmoXor m d a b) ∧ Decodes (.remAmoMin m d a b) ∧ Decodes (.remAmoMax m d a b) ∧
    Decodes (.remAmoMinu m d a b) ∧ Decodes (.remAmoMaxu m d a b) ∧ Decodes (.remAmoSwap m d a b) ∧ Decodes (.trigPost m d a b)) ∧
    (∀ m a b, Decodes (.remSig m a b) ∧ Decodes (.ctrAdd m a b) ∧ Decodes (.spawn m a b)) ∧
    (∀ m d b, Decodes (.trigCancel m d b) ∧ Decodes (.trigQuery m d b)) ∧
    (∀ m d a, Decodes (.ctrRd m d a)) ∧
    (∀ m, Decodes (.taskDone m)) ∧
    (∀ m a, Decodes (.validSet m a)) ∧
    ∀ m a wr, Decodes (.xlate m a wr) := by
  and_intros <;> intros <;> and_intros
  all_goals
    intro _ n h
    dsimp only [Reads, encodeNat] at h
    simp only [wordOf_eq_codes, add_sum_cons, add_sum_nil, Marks.enc_eq] at h
    simp only [decodeNat, decodeAmo, decodeCas, decodeRemote, decodeTrig, decodeTask, reads_as_bits, bits_add_field, bits_codes,
      value_of_bits, h, Nat.reduceShiftRight, Nat.reduceShiftLeft, Nat.reduceMod, Nat.reduceLeDiff, Nat.reduceAdd]

/-- Semaphores, rings, barriers, memory words (05 R144 to R153). -/
theorem decodes_waits :
    (∀ m t k cnt lim, Decodes (.semWait m t k cnt lim)) ∧
    (∀ m t k cnt, Decodes (.semPost m t k cnt)) ∧
    (∀ m t k d, Decodes (.semRd m t k d)) ∧
    (∀ m t g cnt lim, Decodes (.ringWait m t g cnt lim)) ∧
    (∀ m t g cnt, Decodes (.ringRel m t g cnt)) ∧
    (∀ m t g d, Decodes (.ringWp m t g d)) ∧
    (∀ m b, Decodes (.barArrive m b)) ∧
    (∀ m b lim, Decodes (.barWait m b lim) ∧ Decodes (.barSync m b lim)) ∧
    ∀ m dw a b lim, Decodes (.waitvEq m dw a b lim) ∧ Decodes (.waitvNe m dw a b lim) ∧ Decodes (.waitvLt m dw a b lim) ∧
    Decodes (.waitvGe m dw a b lim) ∧ Decodes (.waitvLtu m dw a b lim) ∧ Decodes (.waitvGeu m dw a b lim) := by
  and_intros <;> intros <;> and_intros
  all_goals
    intro _ n h
    dsimp only [Reads, encodeNat] at h
    simp only [wordOf_eq_codes, add_sum_cons, add_sum_nil, Marks.enc_eq] at h
    simp only [decodeNat, decodeSem, decodeRing, decodeBar, decodeWaitv, reads_as_bits, bits_add_field, bits_codes, value_of_bits,
      h, Nat.reduceShiftRight, Nat.reduceShiftLeft, Nat.reduceMod, Nat.reduceLeDiff, Nat.reduceAdd]

/-- Engine words and handle words (05 R154 to R156, 06 R187 to R196). -/
theorem decodes_engines :
    (∀ m a, Decodes (.tmask m a)) ∧
    (∀ m e t f go a, Decodes (.epatch m e t f go a)) ∧
    (∀ m e t, Decodes (.eissue m e t)) ∧
    (∀ m e all lim, Decodes (.efence m e all lim)) ∧
    (∀ m d, Decodes (.egen m d)) ∧
    (∀ m e d tile, Decodes (.estat m e d tile)) ∧
    (∀ m e t a, Decodes (.tmplLd m e t a) ∧ Decodes (.tmplSt m e t a)) ∧
    (∀ m h x cls, Decodes (.hLd m h x cls) ∧ Decodes (.hSt m h x cls)) ∧
    (∀ m h x, Decodes (.hMov m h x)) ∧
    ∀ m h, Decodes (.hClr m h) := by
  and_intros <;> intros <;> and_intros
  all_goals
    intro _ n h
    dsimp only [Reads, encodeNat] at h
    simp only [wordOf_eq_codes, add_sum_cons, add_sum_nil, Marks.enc_eq] at h
    simp only [decodeNat, decodeEngine, decodeHandle, reads_as_bits, bits_add_field, bits_codes, value_of_bits, h,
      Nat.reduceShiftRight, Nat.reduceShiftLeft, Nat.reduceMod, Nat.reduceLeDiff, Nat.reduceAdd]

/-- Words with a field whose high values are unassigned. -/
theorem decodes_bounded :
    (∀ m a kind, Decodes (.tlbi m a kind)) ∧
    (∀ m h x f, Decodes (.hSet m h x f) ∧ Decodes (.hGet m h x f) ∧ Decodes (.hAdv m h x f)) ∧
    (∀ m d a u rm, Decodes (.cvtIF m d a u rm) ∧ Decodes (.cvtFI m d a u rm)) ∧
    ∀ m d a rm, Decodes (.cvtFBf m d a rm) ∧ Decodes (.cvtBfF m d a rm) := by
  and_intros <;> intros <;> and_intros
  all_goals
    intro hf n h
    dsimp only [Reads, encodeNat] at h
    simp only [wordOf_eq_codes, add_sum_cons, add_sum_nil, Marks.enc_eq] at h
    simp only [decodeNat, decodeSys, decodeHandle, decodeCvt, reads_as_bits, bits_add_field, bits_codes, value_of_bits, h,
      Nat.reduceShiftRight, Nat.reduceShiftLeft, Nat.reduceMod, Nat.reduceLeDiff, Nat.reduceAdd]
    exact if_neg (Nat.not_le.mpr (of_decide_eq_true hf))

/-- Words with a field of which one value is illegal. -/
theorem decodes_excluded :
    (∀ m lv a fin, Decodes (.loop m lv a fin)) ∧
    (∀ m lv cnt fin, Decodes (.loopi m lv cnt fin)) ∧
    (∀ m d a b scope, Decodes (.cas m d a b scope) ∧ Decodes (.amoBadd m d a b scope)) ∧
    (∀ m d a b, Decodes (.remAmoBadd m d a b)) ∧
    (∀ m t g h ns, Decodes (.ringDecl m t g h ns)) ∧
    ∀ m e t h slot, Decodes (.ebind m e t h slot) := by
  and_intros <;> intros <;> and_intros
  all_goals
    intro hf n h
    dsimp only [Reads, encodeNat] at h
    simp only [wordOf_eq_codes, add_sum_cons, add_sum_nil, Marks.enc_eq] at h
    simp only [decodeNat, decodeLoop, decodeCas, decodeRemote, decodeRing, decodeEngine, reads_as_bits, bits_add_field, bits_codes,
      value_of_bits, h, Nat.reduceShiftRight, Nat.reduceShiftLeft, Nat.reduceMod, Nat.reduceLeDiff, Nat.reduceAdd]
    exact if_neg (of_decide_eq_true hf)

/-- Words on a bit field, which ends within the register. -/
theorem decodes_bitfield :
    ∀ m d a pos len, Decodes (.bfx m d a pos len) ∧ Decodes (.bfi m d a pos len) := by
  intros; and_intros
  all_goals
    intro hf n h
    dsimp only [Reads, encodeNat] at h
    simp only [wordOf_eq_codes, add_sum_cons, add_sum_nil, Marks.enc_eq] at h
    simp only [decodeNat, decodeBitfield, reads_as_bits, bits_add_field, bits_codes, value_of_bits, h, Nat.reduceShiftRight,
      Nat.reduceShiftLeft, Nat.reduceMod, Nat.reduceLeDiff, Nat.reduceAdd]
    exact if_neg (Nat.not_lt.mpr (of_decide_eq_true hf))

theorem decodeNat_of_patch {n : Nat} (h : bits n 30 2 = 3) : decodeNat n = decodePatch n := by
  have top : n / 2 ^ 30 % 2 ^ 2 = 3 := h
  unfold decodeNat
  split
  case h_49 => rfl
  all_goals omega

/-- Patch words (R73). -/
theorem decodes_patch (t : BitVec 6) (go : Bool) (f : BitVec 5) (v : BitVec 16) :
    Decodes (.pwL t go f v) ∧ Decodes (.pwM t go f v) ∧ Decodes (.pwV t go f v) ∧ Decodes (.pwS t go f v) := by
  and_intros
  all_goals
    intro _ n h
    dsimp only [Reads, encodeNat] at h
    simp only [wordOf_eq_codes, add_sum_cons, add_sum_nil] at h
    have top : bits n 30 2 = 3 := by
      simp only [bits_add_field, bits_codes, h, Nat.reduceShiftRight, Nat.reduceShiftLeft, Nat.reduceMod, Nat.reduceLeDiff, Nat.reduceAdd]
    rw [decodeNat_of_patch top]
    simp only [decodePatch, reads_as_bits, bits_add_field, bits_codes, value_of_bits, h, Nat.reduceShiftRight, Nat.reduceShiftLeft,
      Nat.reduceMod, Nat.reduceLeDiff, Nat.reduceAdd]

theorem decodeNat_of_hint {n : Nat} (h : bits n 28 4 = 11) : decodeNat n = .ok (.hint (marksOf n) (fld 2 n 26) (fld 23 n 0)) := by
  have top : n / 2 ^ 28 % 2 ^ 4 = 11 := h
  have major : n / 2 ^ 26 % 2 ^ 6 = 0x2c ∨ n / 2 ^ 26 % 2 ^ 6 = 0x2d ∨ n / 2 ^ 26 % 2 ^ 6 = 0x2e ∨ n / 2 ^ 26 % 2 ^ 6 = 0x2f := by
    omega
  unfold decodeNat
  obtain e | e | e | e := major
  all_goals simp only [e]

/-- The hint region (R80). -/
theorem decodes_hint (m : Marks) (hh : BitVec 2) (v : BitVec 23) : Decodes (.hint m hh v) := by
  intro _ n h
  dsimp only [Reads, encodeNat] at h
  simp only [wordOf_eq_codes, add_sum_cons, add_sum_nil, Marks.enc_eq] at h
  have top : bits n 28 4 = 11 := by
    simp only [bits_add_field, bits_codes, h, Nat.reduceShiftRight, Nat.reduceShiftLeft, Nat.reduceMod, Nat.reduceLeDiff, Nat.reduceAdd]
  rw [decodeNat_of_hint top]
  simp only [reads_as_bits, bits_add_field, bits_codes, value_of_bits, h, Nat.reduceShiftRight, Nat.reduceShiftLeft, Nat.reduceMod,
    Nat.reduceLeDiff, Nat.reduceAdd]

theorem decodes_of_isWord {i : Instr} (hw : i.isWord = true) : Decodes i := by
  cases i
  all_goals cases hw
  all_goals
    simp only [decodes_arithmetic, decodes_comparisons, decodes_flow, decodes_accesses, decodes_atomics, decodes_waits,
      decodes_engines, decodes_bounded, decodes_excluded, decodes_bitfield, decodes_patch, decodes_hint]

theorem decode_encode {i : Instr} (hw : i.isWord = true) (hf : WellFormed i = true) : decode (encode i) = .ok i :=
  decodes_of_isWord hw hf _ (encode_reads i)

/-! What a word decodes to is well formed. -/

/-- The outcome is an error, or a word's instruction that meets the conditions of R76 and R79. -/
def legal : Except DecodeError Instr → Bool
  | .ok i => i.isWord && WellFormed i
  | .error _ => true

theorem legal_unless {c : Prop} [Decidable c] {e : DecodeError} {i : Instr} (h : ¬c → legal (.ok i) = true) :
    legal (if c then .error e else .ok i) = true := by
  split
  · rfl
  · exact h ‹_›

theorem fld_toNat (k n lo : Nat) : (fld k n lo).toNat = n / 2 ^ lo % 2 ^ k := BitVec.toNat_ofNat ..

theorem fld_zero_toNat (k n : Nat) : (fld k n 0).toNat = n % 2 ^ k := by rw [fld_toNat, Nat.pow_zero, Nat.div_one]

/-- The decoders that refuse nothing but unassigned minor codes. -/
theorem unconditional_legal (n : Nat) :
    legal (decodeAlu3 n) ∧ legal (decodeShift n) ∧ legal (decodeCmp n) ∧ legal (decodeCmpi n) ∧ legal (decodePred n) ∧
    legal (decodeFp3 n) ∧ legal (decodeJmp n) ∧ legal (decodeJreg n) ∧ legal (decodeRep n) ∧ legal (decodeLd n) ∧
    legal (decodeSt n) ∧ legal (decodeAmo n) ∧ legal (decodeSem n) ∧ legal (decodeBar n) ∧ legal (decodeWaitv n) ∧
    legal (decodeTask n) ∧ legal (decodeTrig n) ∧ legal (decodeTime n) ∧ legal (decodeFrame n) ∧ legal (decodePatch n) := by
  unfold decodeAlu3 decodeShift decodeCmp decodeCmpi decodePred decodeFp3 decodeJmp decodeJreg decodeRep decodeLd decodeSt decodeAmo
    decodeSem decodeBar decodeWaitv decodeTask decodeTrig decodeTime decodeFrame decodePatch
  and_intros
  all_goals split
  all_goals rfl

theorem decodeSys_legal (n : Nat) : legal (decodeSys n) := by
  unfold decodeSys
  split
  case h_9 => exact legal_unless fun h => decide_eq_true (Nat.lt_of_not_le h)
  all_goals rfl

theorem decodeLoop_legal (n : Nat) : legal (decodeLoop n) := by
  unfold decodeLoop
  split
  all_goals exact legal_unless fun h => decide_eq_true (by rwa [fld_zero_toNat])

theorem decodeFar_legal (n : Nat) : legal (decodeFar n) := by
  unfold decodeFar
  split
  case h_8 =>
    split
    all_goals rfl
  all_goals rfl

theorem decodeCas_legal (n : Nat) : legal (decodeCas n) := by
  unfold decodeCas
  split
  case h_1 | h_3 => exact legal_unless fun h => decide_eq_true h
  all_goals rfl

theorem decodeRing_legal (n : Nat) : legal (decodeRing n) := by
  unfold decodeRing
  split
  case h_1 => exact legal_unless fun h => decide_eq_true (by rwa [fld_zero_toNat])
  all_goals rfl

theorem decodeEngine_legal (n : Nat) : legal (decodeEngine n) := by
  unfold decodeEngine
  split
  case h_3 => exact legal_unless fun h => decide_eq_true (by rwa [fld_zero_toNat])
  all_goals rfl

theorem decodeHandle_legal (n : Nat) : legal (decodeHandle n) := by
  unfold decodeHandle
  split
  case h_3 | h_4 | h_5 => exact legal_unless fun h => decide_eq_true (Nat.lt_of_not_le h)
  all_goals rfl

theorem decodeRemote_legal (n : Nat) : legal (decodeRemote n) := by
  unfold decodeRemote
  split
  case h_12 => exact legal_unless fun h => decide_eq_true h
  all_goals rfl

theorem decodeBitfield_legal (n : Nat) : legal (decodeBitfield n) := by
  unfold decodeBitfield
  split
  all_goals exact legal_unless fun h => decide_eq_true (by rw [fld_toNat, fld_zero_toNat]; exact Nat.le_of_not_lt h)

theorem decodeCvt_legal (n : Nat) : legal (decodeCvt n) := by
  unfold decodeCvt
  split
  case h_5 => rfl
  all_goals exact legal_unless fun h => decide_eq_true (by rw [fld_zero_toNat]; exact Nat.lt_of_not_le h)

theorem decodeNat_legal (n : Nat) : legal (decodeNat n) := by
  unfold decodeNat
  split
  case h_3 | h_4 | h_5 | h_6 | h_8 | h_9 | h_14 | h_15 | h_25 | h_32 | h_39 | h_40 => rfl
  case h_42 | h_43 | h_44 | h_45 | h_46 | h_47 | h_48 => rfl
  all_goals
    simp only [unconditional_legal, decodeSys_legal, decodeLoop_legal, decodeFar_legal, decodeCas_legal, decodeRing_legal,
      decodeEngine_legal, decodeHandle_legal, decodeRemote_legal, decodeBitfield_legal, decodeCvt_legal]

theorem isWord_and_wellFormed_of_decode {w : BitVec 32} {i : Instr} (h : decode w = .ok i) : i.isWord = true ∧ WellFormed i = true := by
  have := decodeNat_legal w.toNat
  rw [show decodeNat w.toNat = .ok i from h] at this
  exact Bool.and_eq_true_iff.mp this

/-- Settles O5: a word reads as the fields it was made of, in every place the decoder looks at, and each decoder refuses just the
fields that the well-formed instructions do not have. -/
theorem decodeEncode : Obligations.DecodeEncode :=
  ⟨fun _ hw hf => decode_encode hw hf, fun _ _ h => isWord_and_wellFormed_of_decode h⟩

end Sys2Proof
end

section
/-! PROOF. Where a strand goes on, what the issue of a word does to its strand and its core, and what a halt leaves (02 R68 to R70,
04 R114, R117, 05 R151, 06 R186, 11 R328). -/

namespace Sys2Proof.Machine

/-! Where a strand goes on (R117). -/

/-- The check of level 0, for a strand whose level 1 does not start its body again. -/
def Strand.check0 (t : Strand) (w : W) : Strand × Option W :=
  if t.loop0.count ≠ 0 ∧ w = t.loop0.last then
    ({ t with loop0 := { t.loop0 with count := t.loop0.count - 1 } }, if t.loop0.count = 1 then none else some t.loop0.start)
  else (t, none)

theorem sub_one_eq_zero_iff (n : W) : n - 1 = 0 ↔ n = 1 := sub_eq_zero

theorem check0_eq (t : Strand) (w : W) :
    (let hit0 : Bool := t.loop0.count ≠ 0 && w == t.loop0.last
     let t0 := if hit0 then { t with loop0 := { t.loop0 with count := t.loop0.count - 1 } } else t
     (t0, if hit0 && t0.loop0.count ≠ 0 then some t0.loop0.start else none)) = t.check0 w := by
  dsimp only
  unfold Strand.check0
  by_cases atEnd : t.loop0.count ≠ 0 ∧ w = t.loop0.last
  · have hit : (decide (t.loop0.count ≠ 0) && w == t.loop0.last) = true := by
      simpa using atEnd
    rw [if_pos atEnd, hit, if_pos rfl, Bool.true_and]
    by_cases last : t.loop0.count = 1
    · rw [if_pos last]; simp [last]
    · rw [if_neg last, if_pos (decide_eq_true (mt (sub_one_eq_zero_iff _).mp last))]
  · have miss : (decide (t.loop0.count ≠ 0) && w == t.loop0.last) = false := by simpa using atEnd
    rw [if_neg atEnd, miss]; rfl

theorem loopCheck_eq (t : Strand) (w : W) : loopCheck t w =
    if t.loop1.count ≠ 0 ∧ w = t.loop1.last then
      if t.loop1.count = 1 then { t with loop1 := { t.loop1 with count := 0 } }.check0 w
      else ({ t with loop1 := { t.loop1 with count := t.loop1.count - 1 } }, some t.loop1.start)
    else t.check0 w := by
  unfold loopCheck
  simp only [check0_eq]
  by_cases atEnd : t.loop1.count ≠ 0 ∧ w = t.loop1.last
  · have hit : (decide (t.loop1.count ≠ 0) && w == t.loop1.last) = true := by
      simpa using atEnd
    rw [if_pos atEnd, hit, if_pos rfl, Bool.true_and]
    by_cases last : t.loop1.count = 1
    · rw [if_pos last]; simp [last]
    · rw [if_neg last, if_pos (decide_eq_true (mt (sub_one_eq_zero_iff _).mp last))]
  · have miss : (decide (t.loop1.count ≠ 0) && w == t.loop1.last) = false := by simpa using atEnd
    rw [if_neg atEnd, miss]; rfl
theorem Strand.check0_place (t : Strand) (w next : W) :
    { (t.check0 w).1 with pc := ((t.check0 w).2.map alignPc).getD next }.place =
      if t.loop0.count ≠ 0 ∧ w = t.loop0.last then
        (if t.loop0.count = 1 then next else t.loop0.start &&& ~~~3, t.loop0.count - 1, t.loop1.count)
      else (next, t.loop0.count, t.loop1.count) := by
  unfold check0
  split
  · dsimp only; split <;> rfl
  · rfl

/-- Level 1 returns to its body, falls through, or is not at its end; only in the first case level 0 is not looked at. -/
theorem endCheck_place (t : Strand) (w next : W) : (endCheck t w next).place = bodyEnd t w next := by
  unfold endCheck bodyEnd
  dsimp only
  rw [loopCheck_eq]
  by_cases returns : (t.loop1.count ≠ 0 ∧ w = t.loop1.last) ∧ t.loop1.count ≠ 1
  · rw [if_pos returns, if_pos returns.1, if_neg returns.2]; rfl
  · rw [if_neg returns]
    by_cases atEnd : t.loop1.count ≠ 0 ∧ w = t.loop1.last
    · rw [if_pos atEnd, if_pos (not_not.mp fun last => returns ⟨atEnd, last⟩), if_pos atEnd]; exact Strand.check0_place ..
    · rw [if_neg atEnd, if_neg atEnd]; exact Strand.check0_place ..

/-- Issue leaves its strand as it was but for its count, its holds and its rendezvous mark. -/
theorem issue_me_rest (m : Marks) (s : State) :
    { (issue m s).me with issues := s.me.issues, gapUntil := s.me.gapUntil, swUntil := s.me.swUntil, zWait := s.me.zWait } = s.me := by
  have marks := congrArg (fun t : Strand => { t with issues := s.me.issues, gapUntil := s.me.gapUntil, swUntil := s.me.swUntil })
    (issue_me m s)
  have gap := congrArg (fun t : Strand => { t with issues := s.me.issues, zWait := s.me.zWait }) (s.me.applyGap_eq s.cycle m.gap)
  exact marks.trans gap

theorem issue_me_field {α : Type} (f : Strand → α) (m : Marks) (s : State)
    (hf : ∀ (t : Strand) i g w z, f { t with issues := i, gapUntil := g, swUntil := w, zWait := z } = f t) : f (issue m s).me = f s.me :=
  (hf ..).symm.trans (congrArg f (issue_me_rest m s))

theorem Strand.advance_place {t : Strand} (h : t.inRep = false) : (t.advance none).place = bodyEnd t t.pc (t.pc + 4) := by
  unfold Strand.advance
  rw [if_neg (by rw [h]; exact Bool.false_ne_true)]
  exact endCheck_place ..

theorem retire_place {m : Marks} {s : State} (h : s.me.inRep = false) : (retire m s).me.place = bodyEnd s.me s.me.pc (s.me.pc + 4) := by
  have alone : (issue m s).me.inRep = false := (issue_me_field (·.inRep) m s fun _ _ _ _ _ => rfl).trans h
  rw [retire, State.me_modMe, Strand.advance_place alone]
  exact issue_me_field (fun t => bodyEnd t t.pc (t.pc + 4)) m s fun _ _ _ _ _ => rfl

theorem retire_flowFrame (m : Marks) (s : State) : FlowFrame s (retire m s) := ⟨retire_frame m s, retire_still m s⟩

theorem goesOn_of_retire {i : Instr} {fields : List Nat} {m : Marks} (h : ∀ s, exec i s = issueWord fields (retire m) s) :
    GoesOn i fields :=
  fun s hr hf alone => ⟨_, (h s).trans (issueWord_next hr hf _), retire_place alone, retire_flowFrame m s⟩

/-- Behind a write that its strand's place and loops do not see. -/
theorem retire_modMe_place {m : Marks} {s : State} {f : Strand → Strand} (h : s.me.inRep = false) (hr : (f s.me).inRep = s.me.inRep)
    (hp : bodyEnd (f s.me) (f s.me).pc ((f s.me).pc + 4) = bodyEnd s.me s.me.pc (s.me.pc + 4)) :
    (retire m (s.modMe f)).me.place = bodyEnd s.me s.me.pc (s.me.pc + 4) := by
  rw [retire_place (by rw [State.me_modMe, hr, h]), State.me_modMe, hp]


theorem add_cmpEq_place (m : Marks) (d a b : Sreg) (p : Preg) (s : State) (hr : Runs s) (hf : Fits s [d.toNat, a.toNat, b.toNat])
    (alone : s.me.inRep = false) :
    ∃ t u, exec (.add m d a b) s = .next t ∧ t.me.place = bodyEnd s.me s.me.pc (s.me.pc + 4) ∧
      exec (.cmpEq m p a b) s = .next u ∧ u.me.place = bodyEnd s.me s.me.pc (s.me.pc + 4) := by
  have adds : exec (.add m d a b) s = issueWord [d.toNat, a.toNat, b.toNat] (fun s => retire m (wr d (rd s a 1 + rd s b 2) 1 s)) s := rfl
  have compares : exec (.cmpEq m p a b) s =
      issueWord [a.toNat, b.toNat] (fun s => retire m (wrp p (condHolds 0 (rd s a 1) (rd s b 2)) 1 none s)) s := rfl
  have hf' : Fits s [a.toNat, b.toNat] := fun r h => hf r (List.mem_cons_of_mem _ h)
  exact ⟨_, _, adds.trans (issueWord_next hr hf _), retire_modMe_place alone rfl rfl,
    compares.trans (issueWord_next hr hf' _), retire_modMe_place alone rfl rfl⟩

/-! What issue does to the strand and its core (R68 to R70, R272). -/

theorem loopCheck_rest (t : Strand) (w : W) : { (loopCheck t w).1 with loop0 := t.loop0, loop1 := t.loop1 } = t := by
  unfold loopCheck; dsimp only
  split_ifs <;> rfl

/-- Going on behind a word outside a repetition changes where the strand stands, and the counts of its loops. -/
theorem Strand.advance_rest {t : Strand} (h : t.inRep = false) :
    { t.advance none with pc := t.pc, loop0 := t.loop0, loop1 := t.loop1 } = t := by
  unfold advance
  rw [if_neg (by rw [h]; exact Bool.false_ne_true)]
  exact congrArg (fun u : Strand => { u with pc := t.pc }) (loopCheck_rest t t.pc)

theorem retire_myCore (m : Marks) (s : State) : (retire m s).myCore = (issue m s).myCore.modStrand s.cur.k (·.advance none) := by
  have cur := (issue_frame m s).cur_eq
  unfold State.myCore
  rw [(retire_frame m s).cur_eq, retire, ← cur, State.core_modMe]

theorem issue_myCore {m : Marks} {s : State} (h : s.me.inRep = false) :
    (issue m s).myCore = if m.z = true then (issuedCore m s).arriveZ s.cur.k else issuedCore m s := by
  have last : (!s.me.inRep || decide ((s.me.xrep.setWidth 32 : BitVec 32) = 1)) = true := by rw [h]; rfl
  unfold State.myCore
  rw [(issue_frame m s).cur_eq, issue_eq]
  simp only [last, and_true]
  exact State.core_modMyCore s fun _ => if m.z = true then (issuedCore m s).arriveZ s.cur.k else issuedCore m s

/-- A strand that the rendezvous of its core still waits for (R70). -/
def Core.lacks (x : Core) (k : Sn) : Prop := x.xjoin.getLsbD k.val = true ∧ (x.strand k).state = .run ∧ (x.strand k).zWait = false

theorem Core.settleRendezvous_of_lacks {x : Core} {k : Sn} (h : x.lacks k) : x.settleRendezvous = x := by
  obtain ⟨joins, runs, missing⟩ := h
  unfold settleRendezvous
  dsimp only
  refine if_neg fun ready => ?_
  have := List.all_eq_true.mp ready k (List.mem_finRange k)
  rw [joins, runs, missing] at this
  exact absurd this (by decide)

theorem Core.settleRendezvous_zWait {x : Core} (h : ¬∃ k, x.lacks k) (k : Sn) : (x.settleRendezvous.strand k).zWait = false := by
  unfold settleRendezvous
  dsimp only
  rw [if_pos (List.all_eq_true.mpr fun j _ => ?_)]
  · exact congrArg Strand.zWait (Vector.get_each ..)
  · by_contra open_
    simp only [Bool.or_eq_true, Bool.not_eq_true', bne_iff_ne, not_or, Bool.not_eq_false, not_not, Bool.not_eq_true] at open_
    exact h ⟨j, open_.1.1, open_.1.2, open_.2⟩

/-- Arriving, a strand waits as long as another is missing; the last one ends the wait of all. -/
theorem Core.arriveZ_zWait {x : Core} {k : Sn} (h : x.xjoin.getLsbD k.val = true ∧ (x.strand k).state = .run) :
    ((∃ j, j ≠ k ∧ x.lacks j) → ((x.arriveZ k).strand k).zWait = true ∧ ∀ j, j ≠ k → (x.arriveZ k).strand j = x.strand j) ∧
    ((¬∃ j, j ≠ k ∧ x.lacks j) → ∀ j, ((x.arriveZ k).strand j).zWait = false) := by
  have lacks (j : Sn) : (x.modStrand k fun t => { t with zWait := true }).lacks j ↔ j ≠ k ∧ x.lacks j := by
    unfold lacks
    by_cases e : j = k
    · subst e; simp
    · simp only [Core.strand_modStrand_ne _ _ e, e, ne_eq, not_false_iff, true_and]; rfl
  unfold arriveZ
  rw [if_pos h]
  refine ⟨fun ⟨j, missing⟩ => ?_, fun none => ?_⟩
  · rw [Core.settleRendezvous_of_lacks ((lacks j).mpr missing)]
    exact ⟨by rw [Core.strand_modStrand], fun i hi => Core.strand_modStrand_ne _ _ hi⟩
  · exact Core.settleRendezvous_zWait fun ⟨j, hj⟩ => none ⟨j, (lacks j).mp hj⟩

theorem issuedCore_strand (m : Marks) (s : State) :
    (issuedCore m s).strand s.cur.k = { s.me.applyGap s.cycle m.gap with issues := s.me.issues + 1 } :=
  Core.strand_modStrand s.myCore s.cur.k fun t => { t.applyGap s.cycle m.gap with issues := t.issues + 1 }

theorem issuedCore_strand_ne (m : Marks) (s : State) {k : Sn} (h : k ≠ s.cur.k) : (issuedCore m s).strand k = s.strand s.cur.c k :=
  Core.strand_modStrand_ne s.myCore (fun t => { t.applyGap s.cycle m.gap with issues := t.issues + 1 }) h

theorem Strand.applyGap_switch_idle {t : Strand} {cycle : Nat} (h : t.latest cycle = cycle) :
    t.applyGap cycle 3 = { t with gapUntil := cycle + 2 } := if_neg (by rw [h]; exact lt_irrefl _)

theorem Strand.applyGap_switch_busy {t : Strand} {cycle : Nat} (h : cycle < t.latest cycle) :
    t.applyGap cycle 3 = { t with swUntil := t.latest cycle } := if_pos h

theorem issuedCore_zWait (m : Marks) (s : State) (k : Sn) : ((issuedCore m s).strand k).zWait = (s.strand s.cur.c k).zWait := by
  by_cases e : k = s.cur.k
  · have mark := congrArg Strand.zWait (s.me.applyGap_eq s.cycle m.gap)
    subst e
    rw [issuedCore_strand]; exact mark
  · rw [issuedCore_strand_ne m s e]

theorem issuedCore_joins (m : Marks) (s : State) :
    ((issuedCore m s).xjoin.getLsbD s.cur.k.val = true ∧ ((issuedCore m s).strand s.cur.k).state = .run) ↔
      s.myCore.xjoin.getLsbD s.cur.k.val = true ∧ s.me.state = .run := by
  have state := congrArg Strand.state (s.me.applyGap_eq s.cycle m.gap)
  rw [issuedCore_strand]
  exact and_congr_right fun _ => by rw [← state]

theorem issuedCore_lacks {m : Marks} {s : State} {k : Sn} (h : k ≠ s.cur.k) : (issuedCore m s).lacks k ↔ s.myCore.lacks k := by
  unfold Core.lacks; rw [issuedCore_strand_ne m s h]; rfl

/-! The issue marks of a word that only goes on (R68 to R70). -/

section
variable {m : Marks} {s : State} (alone : s.me.inRep = false)
include alone

theorem retire_strand_zWait (k : Sn) : ((retire m s).strand s.cur.c k).zWait = ((issue m s).myCore.strand k).zWait := by
  have core := retire_myCore m s
  unfold State.myCore at core
  rw [(retire_frame m s).cur_eq] at core
  rw [State.strand, core]
  by_cases e : k = s.cur.k
  · subst e
    have me : (issue m s).me = (issue m s).myCore.strand s.cur.k := by
      unfold State.me State.strand State.myCore; rw [(issue_frame m s).cur_eq]
    have still := (issue_me_field (·.inRep) m s fun _ _ _ _ _ => rfl).trans alone
    rw [me] at still
    rw [Core.strand_modStrand]
    have mark := congrArg Strand.zWait (Strand.advance_rest still)
    exact mark
  · rw [Core.strand_modStrand_ne _ _ e]; rfl

/-- Behind its issue the strand has counted and its gap applies; the strands of its core stand in their order. -/
theorem retire_issue : (retire m s).me.issues = s.me.issues + 1 ∧ (retire m s).myCore.issued = s.cycle + 1 ∧
    (retire m s).myCore.order = s.myCore.order.filter (· ≠ s.cur.k) ++ [s.cur.k] ∧
    (retire m s).me.gapUntil = (s.me.applyGap s.cycle m.gap).gapUntil ∧
    (retire m s).me.swUntil = (s.me.applyGap s.cycle m.gap).swUntil := by
  have still := (issue_me_field (·.inRep) m s fun _ _ _ _ _ => rfl).trans alone
  have me : { (retire m s).me with
      pc := (issue m s).me.pc, loop0 := (issue m s).me.loop0, loop1 := (issue m s).me.loop1 } = (issue m s).me := by
    rw [retire, State.me_modMe]; exact Strand.advance_rest still
  have gap := issue_me m s
  have core : { (retire m s).myCore with strands := (issuedCore m s).strands } = issuedCore m s := by
    rw [retire_myCore, issue_myCore alone]
    split
    · exact (issuedCore m s).arriveZ_frame s.cur.k
    · rfl
  have issues := congrArg Strand.issues me
  have counted := congrArg Strand.issues gap
  have gapUntil := congrArg Strand.gapUntil me
  have gapped := congrArg Strand.gapUntil gap
  have swUntil := congrArg Strand.swUntil me
  have switched := congrArg Strand.swUntil gap
  have issued := congrArg Core.issued core
  have order := congrArg Core.order core
  exact ⟨issues.trans counted, issued, order, gapUntil.trans gapped, swUntil.trans switched⟩

/-- A word without Z, or on a strand that takes no part, leaves the marks of the rendezvous. -/
theorem retire_zWait_apart (h : ¬(m.z = true ∧ s.myCore.xjoin.getLsbD s.cur.k.val = true ∧ s.me.state = .run)) (k : Sn) :
    ((retire m s).strand s.cur.c k).zWait = (s.strand s.cur.c k).zWait := by
  rw [retire_strand_zWait alone, issue_myCore alone, ← issuedCore_zWait m s k]
  split
  next z => rw [Core.arriveZ, if_neg fun part => h ⟨z, (issuedCore_joins m s).mp part⟩]
  next => rfl

/-- A strand that arrives while another is missing waits. -/
theorem retire_zWait_waits (h : m.z = true ∧ s.myCore.xjoin.getLsbD s.cur.k.val = true ∧ s.me.state = .run)
    (missing : ∃ k, k ≠ s.cur.k ∧ s.myCore.lacks k) : (retire m s).me.zWait = true ∧
      ∀ k, k ≠ s.cur.k → ((retire m s).strand s.cur.c k).zWait = (s.strand s.cur.c k).zWait := by
  obtain ⟨k, hk, lacks⟩ := missing
  obtain ⟨own, others⟩ := (Core.arriveZ_zWait ((issuedCore_joins m s).mpr h.2)).1 ⟨k, hk, (issuedCore_lacks hk).mpr lacks⟩
  have core : (issue m s).myCore = (issuedCore m s).arriveZ s.cur.k := by rw [issue_myCore alone, if_pos h.1]
  refine ⟨?_, fun j hj => ?_⟩
  · rw [State.me, (retire_frame m s).cur_eq, retire_strand_zWait alone, core, own]
  · rw [retire_strand_zWait alone, core, others j hj, issuedCore_zWait]

/-- The last strand that arrives ends the wait of all. -/
theorem retire_zWait_ends (h : m.z = true ∧ s.myCore.xjoin.getLsbD s.cur.k.val = true ∧ s.me.state = .run)
    (all : ¬∃ k, k ≠ s.cur.k ∧ s.myCore.lacks k) (k : Sn) : ((retire m s).strand s.cur.c k).zWait = false := by
  rw [retire_strand_zWait alone, issue_myCore alone, if_pos h.1]
  exact (Core.arriveZ_zWait ((issuedCore_joins m s).mpr h.2)).2 (fun ⟨j, hj, lacks⟩ => all ⟨j, hj, (issuedCore_lacks hj).mp lacks⟩) k

end

/-! Halting (R114, R151, R186). -/

theorem State.settleBars_rest (s : State) (c : Cl) : { s.settleBars c with gangs := s.gangs } = s := by
  unfold settleBars
  split <;> rfl

theorem State.halt_cores (s : State) (c : Cl) (k : Sn) : (s.halt c k).cores = (s.modCore c (·.haltStrand s.cycle k)).cores := by
  have cores := congrArg State.cores ((s.modCore c (·.haltStrand s.cycle k)).settleBars_rest c); exact cores

theorem State.halt_rest (s : State) (c : Cl) (k : Sn) : { s.halt c k with cores := s.cores, gangs := s.gangs } = s := by
  have rest := (s.modCore c (·.haltStrand s.cycle k)).settleBars_rest c
  exact congrArg (fun x : State => { x with cores := s.cores }) rest

theorem State.halt_core (s : State) (c : Cl) (k : Sn) : (s.halt c k).core c = (s.core c).haltStrand s.cycle k := by
  rw [State.core, State.halt_cores]; exact State.core_modCore ..

theorem State.halt_core_ne (s : State) {c d : Cl} (k : Sn) (h : d ≠ c) : (s.halt c k).core d = s.core d := by
  rw [State.core, State.halt_cores]; exact State.core_modCore_ne _ _ h

theorem State.halt_cur (s : State) (c : Cl) (k : Sn) : (s.halt c k).cur = s.cur := by
  have cur := congrArg State.cur (s.halt_rest c k); exact cur

/-- A strand that has halted. -/
def Strand.halted (t : Strand) : Strand :=
  { t with state := .halted, flq := [], inRep := false, zWait := false, wait := none, fw := none, mboxInt := none, asyncs := [] }

theorem Core.settleRendezvous_events (x : Core) : x.settleRendezvous.events = x.events := by
  have events := congrArg Core.events x.settleRendezvous_frame; exact events

/-- A halt of a strand that waits for nothing: its traps go to others, and the rendezvous completes among those that remain. -/
theorem Core.haltStrand_eq {x : Core} {k : Sn} (cycle : Nat) (h : (x.strand k).wait = none) :
    x.haltStrand cycle k =
      ((x.strand k).asyncs.foldl (fun a y => a.addAsync cycle k y) (x.setStrand k (x.strand k).halted)).settleRendezvous := by
  have unheld : x.withdraw k = x := if_neg (by rw [h]; exact Bool.false_ne_true)
  unfold haltStrand
  rw [unheld]; rfl

/-! Traps that wait for a strand that has halted (R186). -/

/-- The strand that takes the traps of one that has ended: the lowest in Run. -/
def Core.heir (x : Core) : Option Sn := (List.finRange 4).find? fun j => (x.strand j).state == .run

theorem Core.heir_eq_some {x : Core} {j : Sn} (run : (x.strand j).state = .run) (least : ∀ i, i < j → (x.strand i).state ≠ .run) :
    x.heir = some j := by
  unfold heir
  rw [List.find?_eq_some_iff_getElem]
  refine ⟨beq_iff_eq.mpr run, j.val, by simp, by simp, fun i hi => ?_⟩
  simpa using least ⟨i, by omega⟩ hi

theorem Core.heir_eq_none {x : Core} (h : ∀ j, (x.strand j).state ≠ .run) : x.heir = none := by
  unfold heir
  rw [List.find?_eq_none]
  exact fun j _ => by simpa using h j

section
variable {x : Core} {k : Sn} (cycle : Nat) (ended : (x.strand k).state = .halted)
include ended

theorem Core.addAsync_of_heir {j : Sn} (h : x.heir = some j) (a : AsyncTrap) :
    x.addAsync cycle k a = x.modStrand j fun t => { t with asyncs := t.asyncs ++ [a] } := by
  have who : ((List.finRange 4).find? fun j => (x.strand j).state == .run) = some j := h
  simp [addAsync, ended, who]

theorem Core.addAsync_of_no_heir (h : x.heir = none) (a : AsyncTrap) :
    x.addAsync cycle k a = x.addEvent ⟨cycle, k, a.code.setWidth 64 ||| (a.detail.setWidth 64 <<< 16), 0, a.tval, false, true⟩ := by
  have who : ((List.finRange 4).find? fun j => (x.strand j).state == .run) = none := h
  simp [addAsync, ended, who]

/-- The heir takes all the traps, and nothing else of the core changes. -/
theorem Core.foldl_addAsync_of_heir {j : Sn} (h : x.heir = some j) (as : List AsyncTrap) :
    let y := as.foldl (fun x a => x.addAsync cycle k a) x
    (y.strand j).asyncs = (x.strand j).asyncs ++ as ∧ (∀ i, i ≠ j → y.strand i = x.strand i) ∧ y.events = x.events := by
  induction as generalizing x with
  | nil => exact ⟨(List.append_nil _).symm, fun _ _ => rfl, rfl⟩
  | cons a as ih =>
    have states (i : Sn) : ((x.addAsync cycle k a).strand i).state = (x.strand i).state := by
      rw [Core.addAsync_of_heir cycle ended h]
      by_cases e : i = j
      · subst e; rw [Core.strand_modStrand]
      · rw [Core.strand_modStrand_ne _ _ e]
    have heir : (x.addAsync cycle k a).heir = some j := by simp only [Core.heir, states]; exact h
    obtain ⟨taken, others, events⟩ := ih ((states k).trans ended) heir
    refine ⟨taken.trans ?_, fun i hi => (others i hi).trans ?_, events.trans ?_⟩
    · rw [Core.addAsync_of_heir cycle ended h, Core.strand_modStrand, List.append_assoc]; rfl
    · rw [Core.addAsync_of_heir cycle ended h, Core.strand_modStrand_ne _ _ hi]
    · rw [Core.addAsync_of_heir cycle ended h]; rfl

/-- Without an heir the traps go to the record of events, and nothing else of the core changes. -/
theorem Core.foldl_addAsync_of_no_heir (h : x.heir = none) (as : List AsyncTrap) :
    as.foldl (fun x a => x.addAsync cycle k a) x = { x with events := x.events ++ as.map fun a =>
      ⟨cycle, k, a.code.setWidth 64 ||| (a.detail.setWidth 64 <<< 16), 0, a.tval, false, true⟩ } := by
  induction as generalizing x with
  | nil => simp
  | cons a as ih =>
    have rest := ih (x := x.addAsync cycle k a) (by rw [Core.addAsync_of_no_heir cycle ended h]; exact ended)
      (by rw [Core.addAsync_of_no_heir cycle ended h]; exact h)
    rw [List.foldl_cons, rest, Core.addAsync_of_no_heir cycle ended h]
    simp [Core.addEvent]

/-- The strand that has ended takes none of them. -/
theorem Core.foldl_addAsync_strand_self (as : List AsyncTrap) :
    (as.foldl (fun x a => x.addAsync cycle k a) x).strand k = x.strand k := by
  cases h : x.heir with
  | some j =>
    have run : (x.strand j).state = .run := by simpa using List.find?_some h
    have other : k ≠ j := fun e => by subst e; rw [ended] at run; exact absurd run (by decide)
    exact (Core.foldl_addAsync_of_heir cycle ended h as).2.1 k other
  | none => rw [Core.foldl_addAsync_of_no_heir cycle ended h]; rfl

end

/-! What a halt leaves of a state in which a word has issued. -/

/-- A state that differs from s by the issue of a word, and by what its core records. -/
structure Issued (s u : State) : Prop where
  outside : sameOutside s u
  clusters : sameClusters s u
  strands : sameStrands s u
  me : { u.me with issues := s.me.issues, gapUntil := s.me.gapUntil, swUntil := s.me.swUntil, zWait := s.me.zWait } = s.me
  gang : u.myCore.gang = s.myCore.gang
  events : u.myCore.events = s.myCore.events

theorem issue_issued (m : Marks) (s : State) : Issued s (issue m s) := by
  obtain ⟨outside, clusters, core, strands⟩ := issue_frame m s
  have gang := congrArg Core.gang core
  have events := congrArg Core.events core
  refine ⟨outside, clusters, strands, issue_me_rest m s, ?_, ?_⟩
  · rw [State.myCore, (issue_frame m s).cur_eq]; exact gang
  · rw [State.myCore, (issue_frame m s).cur_eq]; exact events

theorem Issued.cur_eq {s u : State} (h : Issued s u) : u.cur = s.cur := by
  have cur := congrArg State.cur h.outside; exact cur

theorem Issued.cycle_eq {s u : State} (h : Issued s u) : u.cycle = s.cycle := by
  have cycle := congrArg State.cycle h.outside; exact cycle

theorem Issued.gangs_eq {s u : State} (h : Issued s u) : u.gangs = s.gangs := by
  have gangs := congrArg State.gangs h.outside; exact gangs

/-- done records on its core that it has executed (R328). -/
theorem Issued.didDone {s u : State} (h : Issued s u) : Issued s (u.modMyCore fun x => { x with didDone := true }) := by
  have cur : (u.modMyCore fun x => { x with didDone := true }).cur = u.cur := rfl
  have core : (u.modMyCore fun x => { x with didDone := true }).core u.cur.c = { u.myCore with didDone := true } := State.core_modMyCore ..
  have strand (k : Sn) : (u.modMyCore fun x => { x with didDone := true }).strand s.cur.c k = u.strand s.cur.c k := by
    rw [← h.cur_eq, State.strand, core]; rfl
  refine ⟨h.outside, fun c hc => ?_, fun k hk => ?_, ?_, ?_, ?_⟩
  · rw [← h.clusters c hc]
    exact State.core_modCore_ne _ _ (by rw [h.cur_eq]; exact hc)
  · rw [strand]; exact h.strands k hk
  · have me : (u.modMyCore fun x => { x with didDone := true }).me = u.me := by
      unfold State.me; rw [cur, h.cur_eq, strand]
    rw [me]; exact h.me
  · rw [State.myCore, cur, core]; exact h.gang
  · rw [State.myCore, cur, core]; exact h.events

theorem Issued.me_field {α : Type} {s u : State} (h : Issued s u) (f : Strand → α)
    (hf : ∀ (t : Strand) i g w z, f { t with issues := i, gapUntil := g, swUntil := w, zWait := z } = f t) : f u.me = f s.me :=
  (hf ..).symm.trans (congrArg f h.me)

theorem Issued.strand_ne {s u : State} (h : Issued s u) {k : Sn} (hk : k ≠ s.cur.k) :
    { u.myCore.strand k with zWait := (s.strand s.cur.c k).zWait } = s.strand s.cur.c k := by
  rw [State.myCore, h.cur_eq]; exact h.strands k hk

theorem Issued.state_ne {s u : State} (h : Issued s u) {k : Sn} (hk : k ≠ s.cur.k) :
    ((u.myCore.setStrand s.cur.k u.me.halted).strand k).state = (s.strand s.cur.c k).state := by
  have state := congrArg Strand.state (h.strand_ne hk)
  rw [Core.strand_setStrand_ne _ _ hk]; exact state

theorem ended_state (s u : State) : ((u.myCore.setStrand s.cur.k u.me.halted).strand s.cur.k).state = .halted := by
  rw [Core.strand_setStrand]; rfl

theorem Issued.halt_cur {s u : State} (h : Issued s u) : (u.halt s.cur.c s.cur.k).cur = s.cur := (State.halt_cur ..).trans h.cur_eq

section
variable {s u : State} (issued : Issued s u) (free : s.me.wait = none)
include issued free

theorem Issued.halt_core : (u.halt s.cur.c s.cur.k).core s.cur.c = (s.me.asyncs.foldl (fun x a => x.addAsync s.cycle s.cur.k a)
    (u.myCore.setStrand s.cur.k u.me.halted)).settleRendezvous := by
  have wait : u.me.wait = none := (issued.me_field (·.wait) fun _ _ _ _ _ => rfl).trans free
  have asyncs : u.me.asyncs = s.me.asyncs := issued.me_field (·.asyncs) fun _ _ _ _ _ => rfl
  have own : u.me = (u.core s.cur.c).strand s.cur.k := by rw [State.me, State.strand, issued.cur_eq]
  rw [State.halt_core, Core.haltStrand_eq _ (by rw [← own]; exact wait), issued.cycle_eq, ← own, State.myCore, issued.cur_eq, asyncs]

/-- The strand that halts: its registers and its accesses under way stand. -/
theorem Issued.halt_me : { (u.halt s.cur.c s.cur.k).me with zWait := false } = u.me.halted := by
  rw [State.me, State.strand, issued.halt_cur, issued.halt_core free]
  have settled := Core.settleRendezvous_strand (s.me.asyncs.foldl (fun x a => x.addAsync s.cycle s.cur.k a)
    (u.myCore.setStrand s.cur.k u.me.halted)) s.cur.k
  rw [Core.foldl_addAsync_strand_self _ (ended_state s u), Core.strand_setStrand] at settled
  exact settled

/-- Without traps that wait for it, the halt of a strand changes nothing of its core but its own state and the rendezvous. -/
theorem Issued.halt_core_of_calm (calm : s.me.asyncs = []) :
    (u.halt s.cur.c s.cur.k).core s.cur.c = (u.myCore.setStrand s.cur.k u.me.halted).settleRendezvous := by
  rw [issued.halt_core free, calm]; rfl

theorem Issued.halt_sameStrands (calm : s.me.asyncs = []) : sameStrands s (u.halt s.cur.c s.cur.k) := by
  intro k hk
  rw [State.strand, issued.halt_core_of_calm free calm]
  have settled := Core.settleRendezvous_strand (u.myCore.setStrand s.cur.k u.me.halted) k
  rw [Core.strand_setStrand_ne _ _ hk] at settled
  have marks := congrArg (fun t : Strand => { t with zWait := (s.strand s.cur.c k).zWait }) settled
  exact marks.trans (issued.strand_ne hk)

theorem Issued.halt_didDone (calm : s.me.asyncs = []) : (u.halt s.cur.c s.cur.k).myCore.didDone = u.myCore.didDone := by
  rw [State.myCore, issued.halt_cur, issued.halt_core_of_calm free calm]
  have done := congrArg Core.didDone (u.myCore.setStrand s.cur.k u.me.halted).settleRendezvous_frame; exact done

/-- The traps of the strand go to the lowest other strand in Run (R186). -/
theorem Issued.halt_heir {j : Sn} (hj : j ≠ s.cur.k) (run : (s.strand s.cur.c j).state = .run)
    (least : ∀ i, i < j → i ≠ s.cur.k → (s.strand s.cur.c i).state ≠ .run) :
    ((u.halt s.cur.c s.cur.k).strand s.cur.c j).asyncs = (s.strand s.cur.c j).asyncs ++ s.me.asyncs ∧
      (u.halt s.cur.c s.cur.k).myCore.events = s.myCore.events := by
  have heir : (u.myCore.setStrand s.cur.k u.me.halted).heir = some j := Core.heir_eq_some (by rw [issued.state_ne hj, run]) fun i hi => by
    by_cases e : i = s.cur.k
    · subst e; rw [Core.strand_setStrand]; exact StrandState.noConfusion
    · rw [issued.state_ne e]; exact least i hi e
  obtain ⟨taken, -, events⟩ := Core.foldl_addAsync_of_heir s.cycle (ended_state s u) heir s.me.asyncs
  have own := issued.strand_ne hj
  have asyncs := congrArg Strand.asyncs own
  rw [State.strand, State.myCore, issued.halt_cur, issued.halt_core free, Core.settleRendezvous_events, events]
  refine ⟨?_, issued.events⟩
  have settled := Core.settleRendezvous_strand (s.me.asyncs.foldl (fun x a => x.addAsync s.cycle s.cur.k a)
    (u.myCore.setStrand s.cur.k u.me.halted)) j
  have kept := congrArg Strand.asyncs settled
  rw [Core.strand_setStrand_ne _ _ hj] at taken
  exact kept.trans (taken.trans (congrArg (· ++ s.me.asyncs) asyncs))

/-- Without such a strand they go to the record of events (R186). -/
theorem Issued.halt_no_heir (none : ∀ j, j ≠ s.cur.k → (s.strand s.cur.c j).state ≠ .run) :
    (u.halt s.cur.c s.cur.k).myCore.events = s.myCore.events ++ s.me.asyncs.map fun a =>
      ⟨s.cycle, s.cur.k, a.code.setWidth 64 ||| (a.detail.setWidth 64 <<< 16), 0, a.tval, false, true⟩ := by
  have heir : (u.myCore.setStrand s.cur.k u.me.halted).heir = Option.none := Core.heir_eq_none fun j => by
    by_cases e : j = s.cur.k
    · subst e; rw [Core.strand_setStrand]; exact StrandState.noConfusion
    · rw [issued.state_ne e]; exact none j e
  rw [State.myCore, issued.halt_cur, issued.halt_core free, Core.settleRendezvous_events,
    Core.foldl_addAsync_of_no_heir s.cycle (ended_state s u) heir, ← issued.events]
  rfl

end

/-- A barrier of a gang behind a halt that leaves t: a phase that lacks no strand completes (R151, R350). -/
def barBehind (t : State) (g : Gang) (b : Fin 16) (x : Barrier) : Barrier :=
  if ¬(b = 15 ∧ g.preempt = some .node) ∧ x.arrived ≠ [] ∧ participants t g ≤ x.arrived.length then ⟨x.phase + 1, []⟩ else x

theorem settled_eq_barBehind (s : State) (g : Gang) (b : Fin 16) (x : Barrier) :
    (if g.keepsOpen b.val then x else settleBarrier s g x) = barBehind s g b x := by
  have open_ : g.keepsOpen b.val = true ↔ b = 15 ∧ g.preempt = some .node := by
    rw [Gang.keepsOpen, Bool.and_eq_true, beq_iff_eq, beq_iff_eq, Fin.ext_iff]; rfl
  unfold barBehind settleBarrier
  by_cases h : g.keepsOpen b.val = true
  · rw [if_pos h, if_neg fun c => c.1 (open_.mp h)]
  · rw [if_neg h]
    exact if_congr ⟨fun c => ⟨mt open_.mpr h, c⟩, fun c => c.2⟩ rfl rfl

theorem participants_of_cores {s t : State} (h : t.cores = s.cores) (g : Gang) : participants t g = participants s g := by
  unfold participants State.core; rw [h]

theorem State.halt_gangs_of_none {s : State} {c : Cl} {k : Sn} (h : (s.modCore c (·.haltStrand s.cycle k)).gangOf c = none) :
    (s.halt c k).gangs = s.gangs := by
  unfold State.halt State.settleBars
  rw [h]; rfl

theorem State.halt_gangs_of_some {s : State} {c : Cl} {k : Sn} {g : Gang} (h : (s.modCore c (·.haltStrand s.cycle k)).gangOf c = some g) :
    (s.halt c k).gangs = s.gangs.map fun y =>
      if y.id = g.id then { y with bars := Vector.ofFn fun b => barBehind (s.halt c k) g b (y.bars.get b) } else y := by
  have same : ∀ b x, barBehind (s.halt c k) g b x = barBehind (s.modCore c (·.haltStrand s.cycle k)) g b x := fun b x => by
    unfold barBehind; rw [participants_of_cores (State.halt_cores s c k)]
  simp only [same, ← settled_eq_barBehind]
  unfold State.halt State.settleBars
  rw [h]; rfl

theorem Issued.gangOf_halted {s u : State} (h : Issued s u) (free : s.me.wait = none) (calm : s.me.asyncs = []) :
    (u.modCore s.cur.c (·.haltStrand u.cycle s.cur.k)).gangOf s.cur.c = s.gangOf s.cur.c := by
  have gang : ((u.halt s.cur.c s.cur.k).core s.cur.c).gang = s.myCore.gang := by
    rw [h.halt_core_of_calm free calm, ← h.gang]
    have frame := congrArg Core.gang (u.myCore.setStrand s.cur.k u.me.halted).settleRendezvous_frame; exact frame
  rw [State.halt_core] at gang
  unfold State.gangOf State.gang?
  rw [State.core_modCore, gang]
  show s.myCore.gang.bind (fun i => u.gangs.find? (·.id == i)) = _
  rw [h.gangs_eq]; rfl

/-! The words. -/

theorem exec_halt (m : Marks) {s : State} (h : Runs s) : exec (.halt m) s = .next ((issue m s).halt s.cur.c s.cur.k) :=
  issueWord_next h (fits_nil s) fun s => (issue m s).halt s.cur.c s.cur.k

theorem exec_taskDone (m : Marks) {s : State} (h : Runs s) :
    exec (.taskDone m) s = .next (((issue m s).modMyCore fun x => { x with didDone := true }).halt s.cur.c s.cur.k) :=
  issueWord_next h (fits_nil s) fun s => ((issue m s).modMyCore fun x => { x with didDone := true }).halt s.cur.c s.cur.k

theorem exec_nop (m : Marks) {s : State} (h : Runs s) : exec (.nop m) s = .next (retire m s) := issueWord_next h (fits_nil s) (retire m)

/-- What halt and done leave, where no trap waits for their strand (R114, R151, R328). -/
def Ends (s t : State) : Prop :=
  t.me.state = .halted ∧ t.me.flq = [] ∧ t.me.regs = s.me.regs ∧ t.me.preds = s.me.preds ∧
    t.me.pend = s.me.pend ∧ t.me.flights = s.me.flights ∧ t.me.xstatus = s.me.xstatus ∧ t.me.pc = s.me.pc ∧
    { t with cores := s.cores, fresh := s.fresh, gangs := s.gangs } = s ∧ sameClusters s t ∧ sameStrands s t ∧
    (∀ g, s.gangOf s.cur.c = some g → t.gangs = s.gangs.map fun y =>
      if y.id = g.id then { y with bars := Vector.ofFn fun b => barBehind t g b (y.bars.get b) } else y) ∧
    (s.gangOf s.cur.c = none → t.gangs = s.gangs)

theorem Issued.ends {s u : State} (h : Issued s u) (calm : s.me.asyncs = []) (free : s.me.wait = none) :
    Ends s (u.halt s.cur.c s.cur.k) := by
  have me := h.halt_me free
  have field {α : Type} (f : Strand → α) (hz : ∀ (t : Strand), f { t with zWait := false } = f t) :
      f (u.halt s.cur.c s.cur.k).me = f u.me.halted := (hz _).symm.trans (congrArg f me)
  have kept {α : Type} (f : Strand → α) (hz : ∀ (t : Strand), f { t with zWait := false } = f t) (hh : ∀ t : Strand, f t.halted = f t)
      (hf : ∀ (t : Strand) i g w z, f { t with issues := i, gapUntil := g, swUntil := w, zWait := z } = f t) :
      f (u.halt s.cur.c s.cur.k).me = f s.me := (field f hz).trans ((hh _).trans (h.me_field f hf))
  have outside : { u.halt s.cur.c s.cur.k with cores := s.cores, fresh := s.fresh, gangs := s.gangs } = s :=
    (congrArg (fun x : State => { x with cores := s.cores, fresh := s.fresh, gangs := s.gangs }) (u.halt_rest s.cur.c s.cur.k)).trans
      (congrArg (fun x : State => { x with gangs := s.gangs }) h.outside)
  have clusters : sameClusters s (u.halt s.cur.c s.cur.k) := fun c hc => (State.halt_core_ne u s.cur.k hc).trans (h.clusters c hc)
  have gang := h.gangOf_halted free calm
  refine ⟨field (·.state) fun _ => rfl, field (·.flq) fun _ => rfl, ?_, ?_, ?_, ?_, ?_, ?_, outside, clusters,
    h.halt_sameStrands free calm, fun g hg => ?_, fun hg => ?_⟩
  · exact kept (·.regs) (fun _ => rfl) (fun _ => rfl) fun _ _ _ _ _ => rfl
  · exact kept (·.preds) (fun _ => rfl) (fun _ => rfl) fun _ _ _ _ _ => rfl
  · exact kept (·.pend) (fun _ => rfl) (fun _ => rfl) fun _ _ _ _ _ => rfl
  · exact kept (·.flights) (fun _ => rfl) (fun _ => rfl) fun _ _ _ _ _ => rfl
  · exact kept (·.xstatus) (fun _ => rfl) (fun _ => rfl) fun _ _ _ _ _ => rfl
  · exact kept (·.pc) (fun _ => rfl) (fun _ => rfl) fun _ _ _ _ _ => rfl
  · rw [State.halt_gangs_of_some (gang.trans hg), h.gangs_eq]
  · rw [State.halt_gangs_of_none (gang.trans hg), h.gangs_eq]

/-- Settles O16: a word that goes on is its issue and the end-of-body check, a halt is its issue and the halt of its strand. -/
theorem plainWordsAndHalts : Obligations.PlainWordsAndHalts := by
  refine ⟨fun m h v d a b p => ⟨goesOn_of_retire fun _ => rfl, goesOn_of_retire fun _ => rfl, fun s hr hf alone =>
    add_cmpEq_place m d a b p s hr hf alone⟩, ?_, ?_, ?_⟩
  · intro m s hr calm free ends
    have ends_of {t : State} (e : Ends s t) : ends t := by
      obtain ⟨state, flq, regs, preds, pend, flights, status, pc, outside, clusters, strands, gangs, noGang⟩ := e
      refine ⟨state, flq, regs, preds, pend, flights, status, pc, outside, clusters, strands, ?_⟩
      cases hg : s.gangOf s.cur.c with
      | some g => exact gangs g hg
      | none => exact noGang hg
    have issued := issue_issued m s
    have didDone := congrArg Core.didDone (issue_frame m s).core
    refine ⟨⟨_, exec_halt m hr, ends_of (issued.ends calm free), ?_⟩,
      ⟨_, exec_taskDone m hr, ends_of (issued.didDone.ends calm free), ?_⟩⟩
    · rw [issued.halt_didDone free calm, State.myCore, issued.cur_eq]; exact didDone
    · rw [issued.didDone.halt_didDone free calm]
      exact congrArg Core.didDone (State.core_modMyCore (issue m s) fun x => { x with didDone := true })
  · intro m s hr free
    have issued := issue_issued m s
    have me := issued.halt_me free
    have state := congrArg Strand.state me
    have asyncs := congrArg Strand.asyncs me
    exact ⟨_, exec_halt m hr, state, asyncs, fun _ hj run least => issued.halt_heir free hj run least,
      fun none => issued.halt_no_heir free none⟩
  · intro z g s hr alone
    obtain ⟨issues, issued, order, gap, switch⟩ := retire_issue (m := ⟨z, g⟩) alone
    refine ⟨_, exec_nop _ hr, issues, issued, order, ?_, ?_, ?_, ?_, ?_,
      fun apart k => retire_zWait_apart alone apart k, fun part missing => retire_zWait_waits alone part missing,
      fun part all k => retire_zWait_ends alone part all k⟩
    · rintro rfl; exact ⟨gap, switch⟩
    · rintro rfl; exact ⟨gap, switch⟩
    · rintro rfl; exact ⟨gap, switch⟩
    · rintro rfl none
      rw [gap, switch, Strand.applyGap_switch_idle none]; exact ⟨rfl, rfl⟩
    · rintro rfl flying
      rw [gap, switch, Strand.applyGap_switch_busy flying]; exact ⟨rfl, rfl⟩

end Sys2Proof.Machine
end

section
/-! PROOF. What the step runs: the word at the program counter of the strand that the selector picks (03 R71, R79; 09 R272, R295). -/

namespace Sys2Proof

/-! Only a word of major 0x07 is an li (03 R78). -/

/-- The word loads an immediate. -/
def isLi : Except DecodeError Instr → Bool
  | .ok (.li ..) => true
  | _ => false

/-- The decoder of a major with minor codes gives no li. -/
theorem minors_isLi (n : Nat) :
    isLi (decodeSys n) = false ∧ isLi (decodeAlu3 n) = false ∧ isLi (decodeShift n) = false ∧ isLi (decodeCmp n) = false ∧
    isLi (decodeCmpi n) = false ∧ isLi (decodePred n) = false ∧ isLi (decodeFp3 n) = false ∧ isLi (decodeJmp n) = false ∧
    isLi (decodeJreg n) = false ∧ isLi (decodeLoop n) = false ∧ isLi (decodeRep n) = false ∧ isLi (decodeLd n) = false ∧
    isLi (decodeSt n) = false ∧ isLi (decodeFar n) = false ∧ isLi (decodeAmo n) = false ∧ isLi (decodeCas n) = false ∧
    isLi (decodeSem n) = false ∧ isLi (decodeRing n) = false ∧ isLi (decodeBar n) = false ∧ isLi (decodeWaitv n) = false ∧
    isLi (decodeEngine n) = false ∧ isLi (decodeHandle n) = false ∧ isLi (decodeTask n) = false ∧ isLi (decodeTrig n) = false ∧
    isLi (decodeRemote n) = false ∧ isLi (decodeTime n) = false ∧ isLi (decodeFrame n) = false ∧ isLi (decodeBitfield n) = false ∧
    isLi (decodeCvt n) = false ∧ isLi (decodePatch n) = false := by
  unfold decodeSys decodeAlu3 decodeShift decodeCmp decodeCmpi decodePred decodeFp3 decodeJmp decodeJreg decodeLoop decodeRep decodeLd
    decodeSt decodeFar decodeAmo decodeCas decodeSem decodeRing decodeBar decodeWaitv decodeEngine decodeHandle decodeTask decodeTrig
    decodeRemote decodeTime decodeFrame decodeBitfield decodeCvt decodePatch
  and_intros
  all_goals repeat' split
  all_goals rfl

theorem major_of_isLi {n : Nat} (h : isLi (decodeNat n) = true) : n / 2 ^ 26 % 2 ^ 6 = 0x07 := by
  unfold decodeNat at h
  split at h
  case h_8 major => exact major
  case h_3 | h_4 | h_5 | h_6 | h_9 | h_14 | h_15 | h_25 | h_32 | h_39 | h_40 => cases h
  case h_42 | h_43 | h_44 | h_45 | h_46 | h_47 | h_48 => cases h
  all_goals simp only [minors_isLi, Bool.false_eq_true] at h

end Sys2Proof

namespace Sys2Proof.Machine

theorem majorOf_li {w : BitVec 32} {m : Marks} {d : Sreg} {i : BitVec 18} (h : decode w = .ok (.li m d i)) : majorOf w = 0x07 := by
  have major : w.toNat / 2 ^ 26 % 2 ^ 6 = 0x07 := major_of_isLi (congrArg isLi h)
  have := w.isLt
  unfold majorOf
  omega

/-! The strand that is picked. -/

theorem State.enter_me (s : State) (c : Cl) (k : Sn) (w : BitVec 32) : (s.enter c k w).me = s.strand c k := rfl

/-- With nothing else due, the picked strand goes on. -/
theorem step_of_pick {s : State} {c : Cl} {k : Sn} (todo : s.todo = []) (agenda : s.agenda = []) (on : s.island ≠ .off)
    (pick : s.pick = some (c, k)) : step s = runStrand c k s := by
  unfold step stepOne
  rw [todo, agenda]
  dsimp only
  rw [if_neg on, pick]

theorem step_of_pickCore {s : State} {f : Fin 5} {k : Sn} (todo : s.todo = []) (agenda : s.agenda = []) (on : s.island ≠ .off)
    (pick : s.pick = none) (core : s.pickCore = some (f, k)) : step s = runCore f k s := by
  unfold step stepOne
  rw [todo, agenda]
  dsimp only
  rw [if_neg on, pick]
  dsimp only
  rw [core]

theorem step_advance {s : State} (todo : s.todo = []) (agenda : s.agenda = []) (on : s.island ≠ .off)
    (pick : s.pick = none) (core : s.pickCore = none) : step s = .next (advance s) := by
  unfold step stepOne
  rw [todo, agenda]
  dsimp only
  rw [if_neg on, pick]
  dsimp only
  rw [core]

section
variable {s : State} {c : Cl} {k : Sn} (quiet : (s.strand c k).eventDue s.cycle = false)
include quiet

theorem runStrand_rep (rep : (s.strand c k).inRep = true) : runStrand c k s = exec .repIteration (s.enter c k 0) := by
  unfold runStrand
  dsimp only
  rw [quiet, rep]
  rfl

/-- Between repetitions the word at the program counter decides what a strand does. -/
theorem runStrand_word (plain : (s.strand c k).inRep = false) :
    runStrand c k s = match fetch s c (s.strand c k).pc with
      | none => issueWord [] (trapFetch · (s.strand c k).pc) (s.enter c k 0)
      | some w => match decode w with
        | .ok i => exec i (s.enter c k w)
        | .error _ => exec .unassignedEncoding (s.enter c k w) := by
  unfold runStrand
  dsimp only
  rw [quiet, plain]
  rfl

theorem runStrand_decoded (plain : (s.strand c k).inRep = false) {w : BitVec 32} {i : Instr}
    (at_pc : fetch s c (s.strand c k).pc = some w) (ok : decode w = .ok i) : runStrand c k s = exec i (s.enter c k w) := by
  rw [runStrand_word quiet plain, at_pc]
  dsimp only
  rw [ok]

theorem runStrand_illegal (plain : (s.strand c k).inRep = false) {w : BitVec 32} {e : DecodeError}
    (at_pc : fetch s c (s.strand c k).pc = some w) (bad : decode w = .error e) :
    runStrand c k s = exec .unassignedEncoding (s.enter c k w) := by
  rw [runStrand_word quiet plain, at_pc]
  dsimp only
  rw [bad]

theorem runStrand_outside (plain : (s.strand c k).inRep = false) (at_pc : fetch s c (s.strand c k).pc = none)
    (run : (s.strand c k).state = .run ∨ (s.strand c k).state = .handler) :
    runStrand c k s = .next (trapFetch (s.enter c k 0) (s.strand c k).pc) := by
  rw [runStrand_word quiet plain, at_pc]
  have runs : Runs (s.enter c k 0) := run
  exact issueWord_next runs (fits_nil _) _

end

/-! A firmware core's strand (00 R1, 08 R244). -/

theorem State.pickCore_runs {s : State} {f : Fin 5} {k : Sn} (h : s.pickCore = some (f, k)) : s.coreRuns f = true := by
  unfold State.pickCore at h
  obtain ⟨i, -, hi⟩ := List.exists_of_findSome?_eq_some h
  split at hi
  · obtain ⟨j, -, e⟩ := Option.map_eq_some_iff.mp hi
    cases e
    assumption
  · cases hi

/-- The machine after a firmware core's strand has gone on in the state in which its word runs. -/
def afterCore (f : Fin 5) (s t : State) : State :=
  { s with fwCores := s.fwCores.set f.val ((s.fwCores.get f).ofCore (t.core 0)), fresh := t.fresh }

theorem afterCore_core (f : Fin 5) (s t : State) : (afterCore f s t).fwCores.get f = (s.fwCores.get f).ofCore (t.core 0) :=
  Vector.get_set_same ..

theorem afterCore_other (s t : State) {f g : Fin 5} (h : g ≠ f) : (afterCore f s t).fwCores.get g = s.fwCores.get g :=
  Vector.get_set_other _ _ h

theorem runCore_eq (f : Fin 5) (k : Sn) (s : State) {t : State}
    (h : (let z := coreMachine f s
      if (fetch z 0 ((z.strand 0 k).pc + if (z.strand 0 k).inRep then 4 else 0)).elim true ownWord then runStrand 0 k z
      else .next (hold (z.enter 0 k 0))) = .next t) : runCore f k s = .next (afterCore f s t) := by
  unfold runCore
  dsimp only at h ⊢
  rw [h]
  rfl

/-- A firmware core's step changes that core alone. -/
theorem runCore_changes {f : Fin 5} {k : Sn} {s : State} (h : (s.fwCores.get f).asCore.pick s.cycle = some k) :
    ∃ t, runCore f k s = .next (afterCore f s t) := by
  have ran : Answers (runStrand 0 k (coreMachine f s)) := runStrand_answers (by rw [coreMachine_strand]; exact Core.runs_of_pick h)
  obtain ⟨t, ht⟩ := ran
  cases own : (fetch (coreMachine f s) 0 (((coreMachine f s).strand 0 k).pc + if ((coreMachine f s).strand 0 k).inRep then 4 else 0)).elim
    true ownWord with
  | true => exact ⟨t, runCore_eq f k s ((if_pos own).trans ht)⟩
  | false => exact ⟨_, runCore_eq f k s (if_neg (by rw [own]; nofun))⟩

theorem runCore_own {f : Fin 5} {k : Sn} {s t : State} {w : BitVec 32} (plain : ((s.fwCores.get f).strands.get k).inRep = false)
    (at_pc : fetch (coreMachine f s) 0 ((s.fwCores.get f).strands.get k).pc = some w) (own : ownWord w = true)
    (ran : runStrand 0 k (coreMachine f s) = .next t) : runCore f k s = .next (afterCore f s t) := by
  apply runCore_eq
  dsimp only
  have e : (coreMachine f s).strand 0 k = (s.fwCores.get f).strands.get k := coreMachine_strand f s k
  rw [e, plain, if_neg Bool.false_ne_true, show ((s.fwCores.get f).strands.get k).pc + 0 = _ from BitVec.add_zero _,
    at_pc, Option.elim_some, if_pos own]
  exact ran

theorem fwText_get {image : List Byte} {a : Nat} (aligned : a % 4 = 0) (inside : a + 4 ≤ image.length) :
    (fwText image)[a / 4]? = some (BitVec.ofNat 32 (ofBytes ((image.drop a).take 4))) := by
  have e : 4 * (a / 4) = a := by omega
  unfold fwText
  rw [List.getElem?_map, List.getElem?_range (by omega), Option.map_some, e]

/-- The gang of the state in which a firmware core's word runs: its text is the image's, from address 0 on. -/
theorem coreMachine_gangOf (f : Fin 5) (s : State) :
    ∃ g, (coreMachine f s).gangOf 0 = some g ∧ g.text = 0 ∧ g.image.text = fwText (s.fwCores.get f).image := by
  have gang : ((coreMachine f s).core 0).gang = some 0 := congrArg Core.gang (Vector.get_set_same (i := (0 : Cl)) ..)
  unfold State.gangOf
  rw [gang]
  exact ⟨_, rfl, rfl, rfl⟩

theorem coreMachine_fetch (f : Fin 5) (s : State) (pc : W) (aligned : pc.toNat % 4 = 0)
    (inside : pc.toNat + 4 ≤ (s.fwCores.get f).image.length) :
    fetch (coreMachine f s) 0 pc = some (BitVec.ofNat 32 (ofBytes (((s.fwCores.get f).image.drop pc.toNat).take 4))) := by
  obtain ⟨g, gang, text, words⟩ := coreMachine_gangOf f s
  unfold fetch Gang.word
  rw [gang, Option.bind_some, text, words, show pc - 0 = pc from BitVec.sub_zero pc]
  exact (if_pos aligned).trans (fwText_get aligned inside)

/-- An li of the image writes its register, as on a control core. -/
theorem runCore_li {f : Fin 5} {k : Sn} {s : State} {w : BitVec 32} {m : Marks} {d : Sreg} {i : BitVec 18}
    (pick : (s.fwCores.get f).asCore.pick s.cycle = some k)
    (quiet : ((s.fwCores.get f).strands.get k).eventDue s.cycle = false)
    (plain : ((s.fwCores.get f).strands.get k).inRep = false)
    (at_pc : fetch (coreMachine f s) 0 ((s.fwCores.get f).strands.get k).pc = some w) (ok : decode w = .ok (.li m d i))
    (fits : d.toNat < ((s.fwCores.get f).strands.get k).allot) :
    ∃ t, runCore f k s = .next (afterCore f s t) ∧ (((t.core 0).strands.get k).regs.get d.toFin) = i.signExtend 64 := by
  have me : (coreMachine f s).strand 0 k = (s.fwCores.get f).strands.get k := coreMachine_strand f s k
  have own : ownWord w = true := by unfold ownWord; simp [majorOf_li ok]
  have run : Runs ((coreMachine f s).enter 0 k w) := by
    have := Core.runs_of_pick pick
    unfold Runs; rw [State.enter_me, me]; exact this
  have fit : Fits ((coreMachine f s).enter 0 k w) [d.toNat] := by
    intro x hx
    obtain rfl := List.mem_singleton.mp hx
    rw [State.enter_me, me]; exact fits
  have writes : WritesReg (.li m d i) [d.toNat] d (fun _ => simm i) 1 (fun _ => none) := writesReg_of (m := m) fun _ => rfl
  obtain ⟨t, ht, reg, -, frame⟩ := writes _ run fit
  have cur : t.cur = ⟨0, k, w⟩ := congrArg State.cur frame.word.outside
  have ran : runStrand 0 k (coreMachine f s) = .next t :=
    (runStrand_decoded (by rw [me]; exact quiet) (by rw [me]; exact plain) (by rw [me]; exact at_pc) ok).trans ht
  refine ⟨t, runCore_own plain at_pc own ran, ?_⟩
  have same : t.me = (t.core 0).strands.get k := by unfold State.me; rw [cur]; rfl
  rw [← same]; exact reg

/-! A word placed to be the next that issues (log 1). -/

/-- Abandoning the audits of a cluster changes cores and dies alone. -/
theorem State.abandonOn_eq (s : State) (c : Cl) : ∃ cs ds, s.abandonOn c = { s with cores := cs, dies := ds } := by
  unfold State.abandonOn
  dsimp only
  split
  · exact ⟨s.cores, s.dies, rfl⟩
  · exact ⟨_, _, rfl⟩

theorem writeHome_nil (s : State) (x : Nat) : writeHome s x [] = { s with poison := s.marksPast x 0 } := rfl

/-- A gang of cluster 0 alone, without data, starts there: outside the cores, the dies and the marks of poison it is just listed. -/
theorem startGang_one {g : Gang} (members : g.members = [⟨0, 0⟩]) (data : g.image.data = []) (s : State) :
    ∃ (z : State) (ds : _) (ps : _), startGang g [] s =
      { s with cores := z.cores.set 0 (startCore z g [] 0 0), dies := ds, poison := ps, gangs := s.gangs ++ [g] } := by
  obtain ⟨cs, ds, e⟩ := State.abandonOn_eq s 0
  unfold startGang
  rw [members, data]
  simp only [List.foldl_cons, List.foldl_nil, List.zipIdx_cons, List.zipIdx_nil, writeHome_nil, e]
  exact ⟨{ s with cores := cs, dies := ds, gangs := s.gangs ++ [g] }, ds, _, rfl⟩

/-- What the selector and the fetch read of a state in which a word is placed. -/
structure AtWord (w : BitVec 32) (t : State) : Prop where
  todo : t.todo = []
  agenda : t.agenda = []
  on : t.island ≠ .off
  turn : t.turn = 0
  order : (t.core 0).order = [0, 1, 2, 3]
  issued : (t.core 0).issued = 0
  gang : ∃ id, t.gangOf 0 = some (wordGang w id)
  strands : ∃ id, ∀ k, t.strand 0 k = startStrand (wordGang w id) k

/-- Placing a word is the start of its gang on cluster 0 of a module that runs, with nothing else due. -/
theorem placeWord_eq (w : BitVec 32) (s : State) :
    ∃ (y z : State), placeWord w s = y.setCore 0 { startCore z (wordGang w s.made) [] 0 0 with issued := 0 } ∧
      y.todo = [] ∧ y.agenda = [] ∧ y.island = .attached ∧ y.turn = 0 ∧ y.gangs = [wordGang w s.made] := by
  obtain ⟨z, ds, ps, start⟩ := startGang_one (g := wordGang w s.made) rfl rfl
    (({ s with island := .attached, gangs := [], todo := [], agenda := [], turn := 0 }.modDie 0 fun d =>
      { d with state := .run, uncore := true }).modCtx 0 fun x => { x with state := .active, cmap := x.cmap.set 0 (some 0) })
  have core {y : State} (h : y.cores = z.cores.set 0 (startCore z (wordGang w s.made) [] 0 0)) :
      y.core 0 = startCore z (wordGang w s.made) [] 0 0 := by
    unfold State.core
    rw [h]
    exact Vector.get_set_same (i := (0 : Cl)) ..
  unfold placeWord State.modCore
  dsimp only
  rw [start, core rfl]
  exact ⟨_, z, rfl, rfl, rfl, rfl, rfl, rfl⟩

theorem gangOf_of_singleton {t : State} {c : Cl} {id : Nat} {g : Gang} (held : (t.core c).gang = some id) (listed : t.gangs = [g])
    (h : g.id = id) : t.gangOf c = some g := by
  unfold State.gangOf State.gang?
  rw [held, listed, ← h]
  simp

theorem placeWord_atWord (w : BitVec 32) (s : State) : AtWord w (placeWord w s) := by
  obtain ⟨y, z, e, todo, agenda, on, turn, gangs⟩ := placeWord_eq w s
  have core : (placeWord w s).core 0 = { startCore z (wordGang w s.made) [] 0 0 with issued := 0 } := by
    rw [e, State.core_setCore]
  have listed : (placeWord w s).gangs = [wordGang w s.made] := by rw [e]; exact gangs
  refine
    { todo := by rw [e]; exact todo
      agenda := by rw [e]; exact agenda
      on := ?_
      turn := by rw [e]; exact turn
      order := by rw [core]; rfl
      issued := by rw [core]
      gang := ⟨s.made, ?_⟩
      strands := ⟨s.made, fun k => ?_⟩ }
  · rw [e, show (y.setCore 0 _).island = .attached from on]; nofun
  · have held : ((placeWord w s).core 0).gang = some s.made := by rw [core]; rfl
    exact gangOf_of_singleton held listed rfl
  · unfold State.strand
    rw [core]
    exact Vector.getElem_ofFn ..

/-- No event is due on a strand at its kernel's start. -/
theorem startStrand_eventDue (g : Gang) (k : Sn) (cycle : Nat) : (startStrand g k).eventDue cycle = false := by
  unfold startStrand
  split
  · exact Bool.and_false _
  · rfl

/-- A strand in Run at its kernel's start is ready. -/
theorem startStrand_ready {g : Gang} {k : Sn} (h : k.val < g.image.strands) (cycle : Nat) : (startStrand g k).ready cycle = true := by
  unfold startStrand
  rw [if_pos h]
  simp [Strand.ready, Strand.reset]

theorem AtWord.pick {w : BitVec 32} {t : State} (h : AtWord w t) : t.pick = some (0, 0) := by
  obtain ⟨id, gang⟩ := h.gang
  obtain ⟨n, strands⟩ := h.strands
  have strand (k : Sn) : (t.core 0).strand k = startStrand (wordGang w n) k := strands k
  have core : (t.core 0).pick t.cycle = some 0 := by
    have held : (t.core 0).gang.isNone = false := by
      cases e : (t.core 0).gang with
      | none => rw [State.gangOf, e] at gang; cases gang
      | some _ => rfl
    unfold Core.pick
    rw [held, h.order, h.issued]
    simp [strand, startStrand_eventDue, startStrand_ready (g := wordGang w n) (k := 0) Nat.one_pos]
  unfold State.pick
  rw [show List.range 64 = 0 :: (List.range 63).map Nat.succ from List.range_succ_eq_map, h.turn]
  have first : ((t.core (Fin.ofNat 64 (0 + 0))).pick t.cycle).map (fun k => ((Fin.ofNat 64 (0 + 0) : Cl), k)) = some (0, 0) :=
    congrArg (Option.map fun k => ((0 : Cl), k)) core
  rw [List.findSome?_cons, first]

theorem AtWord.fetch {w : BitVec 32} {t : State} (h : AtWord w t) : fetch t 0 (t.strand 0 0).pc = some w := by
  obtain ⟨id, gang⟩ := h.gang
  obtain ⟨n, strands⟩ := h.strands
  unfold Machine.fetch
  rw [gang, strands]
  have pc : (startStrand (wordGang w n) 0).pc = 0 := by simp [startStrand, wordGang, wordImage, Gang.text, alignPc]
  have text : (wordGang w id).text = 0 := rfl
  rw [Option.bind_some, pc]
  unfold Gang.word
  rw [text]
  rfl

/-- A placed word is the next that executes. -/
theorem AtWord.step {w : BitVec 32} {t : State} (h : AtWord w t) {i : Instr} (ok : decode w = .ok i) : step t = exec i (t.enter 0 0 w) := by
  obtain ⟨n, strands⟩ := h.strands
  have quiet : (t.strand 0 0).eventDue t.cycle = false := by rw [strands]; exact startStrand_eventDue ..
  have plain : (t.strand 0 0).inRep = false := by rw [strands]; rfl
  exact (step_of_pick h.todo h.agenda h.on h.pick).trans (runStrand_decoded quiet plain h.fetch ok)

/-- Settles O2: the step goes through what is due in its order, and what is not another agent's is a strand that the selector picked. -/
theorem stepRunsDecodedWord : Obligations.StepRunsDecodedWord := by
  refine ⟨fun s c k todo agenda on pick quiet => ?_, fun s w r todo => ?_, fun s i r todo agenda => ?_,
    fun s todo agenda on pick core => step_advance todo agenda on pick core, fun s f k todo agenda on pick core => ?_, fun s w i ok => ?_⟩
  · have run := Core.runs_of_pick (State.pick_core pick)
    rw [step_of_pick todo agenda on pick]
    exact ⟨run, fun plain => ⟨fun _ _ => runStrand_decoded quiet plain, fun _ _ => runStrand_illegal quiet plain,
      fun at_pc => runStrand_outside quiet plain at_pc run⟩, runStrand_rep quiet⟩
  · unfold step stepOne; rw [todo]
  · unfold step stepOne; rw [todo, agenda]
  · have turn := State.pickCore_core core
    rw [step_of_pickCore todo agenda on pick core]
    refine ⟨State.pickCore_runs core, ?_, fun w m d i quiet plain aligned inside bytes ok _ fits => ?_⟩
    · obtain ⟨t, ht⟩ := runCore_changes turn
      exact ⟨_, ht, rfl, fun _ => afterCore_other s t⟩
    · have at_pc := coreMachine_fetch f s _ aligned inside
      rw [bytes, BitVec.ofNat_toNat, BitVec.setWidth_eq] at at_pc
      obtain ⟨t, ht, reg⟩ := runCore_li turn quiet plain at_pc ok fits
      refine ⟨_, ht, ?_⟩
      rw [afterCore_core]; exact reg
  · have placed := placeWord_atWord w s
    rw [show s.withFetchWord 32 w.toNat = placeWord w s by unfold State.withFetchWord; rw [BitVec.ofNat_toNat, BitVec.setWidth_eq]]
    exact placed.step ok

end Sys2Proof.Machine
end

section
/-! PROOF. Integer, immediate, bitfield, select, multiply-add and compare words (04 R95 to R102). -/

namespace Sys2Proof.Machine

/-! Words that write one register with a function of their sources. -/

theorem alu3_writesReg {i : Instr} {f : W → W → W} {v : State → W} {bound : Nat} {m : Marks} {d a b : Sreg}
    (hi : ∀ s, exec i s = alu3 f bound m d a b s) (hv : ∀ s, f (rd s a 1) (rd s b 2) = v s) :
    WritesReg i [d.toNat, a.toNat, b.toNat] d v bound (fun _ => none) :=
  writesReg_of_eq (m := m) (w := fun s => f (rd s a 1) (rd s b 2)) hi hv

theorem alu2_writesReg {i : Instr} {f : W → W} {v : State → W} {bound : Nat} {m : Marks} {d a : Sreg}
    (hi : ∀ s, exec i s = alu2 f bound m d a s) (hv : ∀ s, f (rd s a 1) = v s) :
    WritesReg i [d.toNat, a.toNat] d v bound (fun _ => none) :=
  writesReg_of_eq (m := m) (w := fun s => f (rd s a 1)) hi hv

/-! Results (R96). -/

theorem shiftLeft_eq_ofNat (x : W) (n : Nat) : x <<< n = BitVec.ofNat 64 (x.toNat * 2 ^ n) := by
  apply BitVec.eq_of_toNat_eq
  rw [BitVec.toNat_shiftLeft, BitVec.toNat_ofNat, Nat.shiftLeft_eq]

theorem shiftRight_eq_ofNat (x : W) (n : Nat) : x >>> n = BitVec.ofNat 64 (x.toNat / 2 ^ n) := by
  apply BitVec.eq_of_toNat_eq
  rw [BitVec.toNat_ushiftRight, BitVec.toNat_ofNat, Nat.shiftRight_eq_div_pow,
    Nat.mod_eq_of_lt (Nat.lt_of_le_of_lt (Nat.div_le_self ..) x.isLt)]

theorem sraBy_eq_ofInt (x : W) (n : Nat) : sraBy x n = BitVec.ofInt 64 (x.toInt / 2 ^ n) := by
  have shift : x.toInt >>> n = x.toInt / 2 ^ n := by rw [Int.shiftRight_eq_div_pow, Nat.cast_pow]; rfl
  rw [← shift]; rfl

theorem mul_eq_ofNat (x y : W) : x * y = BitVec.ofNat 64 (x.toNat * y.toNat) := by
  apply BitVec.eq_of_toNat_eq
  rw [BitVec.toNat_mul, BitVec.toNat_ofNat]

theorem toInt_eq_zero_iff (x : W) : x.toInt = 0 ↔ x = 0 := by rw [← BitVec.toInt_inj]; rfl

/-- Only the least word over -1 has a quotient beyond the range of a word (R96). -/
theorem tdiv_in_range {x y : Int} (lo : -2 ^ 63 ≤ x) (hi : x < 2 ^ 63) (h : ¬(x = -2 ^ 63 ∧ y = -1)) :
    -2 ^ 63 ≤ x.tdiv y ∧ x.tdiv y ≤ 2 ^ 63 - 1 := by
  have size : (x.tdiv y).natAbs ≤ x.natAbs := by rw [Int.natAbs_tdiv]; exact Nat.div_le_self ..
  by_cases least : x = -2 ^ 63
  · have half : y.natAbs ≠ 1 → (x.tdiv y).natAbs ≤ 2 ^ 62 := fun hy => by
      rw [Int.natAbs_tdiv, least]
      rcases Nat.eq_zero_or_pos y.natAbs with zero | pos
      · rw [zero]; exact Nat.zero_le _
      · exact (Nat.div_le_div_left (show 2 ≤ y.natAbs by omega) (by decide)).trans (by decide)
    have one : y = 1 → x.tdiv y = x := fun hy => by rw [hy, Int.tdiv_one]
    omega
  · omega

theorem divS_eq (x y : W) : divS x y =
    if y.toInt = 0 then (if 0 < x.toInt then 0x7fffffffffffffff else if x.toInt < 0 then 0x8000000000000000 else 0)
    else BitVec.ofInt 64 (min (2 ^ 63 - 1) (max (-(2 ^ 63)) (x.toInt.tdiv y.toInt))) := by
  unfold divS
  by_cases zero : y = 0
  · rw [if_pos zero, if_pos ((toInt_eq_zero_iff y).mpr zero)]; rfl
  · rw [if_neg zero, if_neg (mt (toInt_eq_zero_iff y).mp zero)]
    have least : x = intMin ↔ x.toInt = -2 ^ 63 := by rw [← BitVec.toInt_inj]; rfl
    by_cases beyond : x = intMin ∧ y.toInt = -1
    · rw [if_pos beyond, least.mp beyond.1, beyond.2]; rfl
    · rw [if_neg beyond]
      obtain ⟨lo, hi⟩ := tdiv_in_range (y := y.toInt) x.le_toInt x.toInt_lt (by rwa [← least])
      rw [max_eq_right lo, min_eq_right hi]

theorem divU_eq (x y : W) : divU x y =
    if y.toNat = 0 then (if x.toNat = 0 then 0 else 0xffffffffffffffff) else BitVec.ofNat 64 (x.toNat / y.toNat) := by
  have zero (z : W) : z = 0 ↔ z.toNat = 0 := by rw [← BitVec.toNat_inj]; rfl
  unfold divU
  simp only [zero]; rfl

theorem remS_eq (x y : W) : remS x y =
    if y.toInt = 0 then 0 else BitVec.ofInt 64 (x.toInt - y.toInt * x.toInt.tdiv y.toInt) := by
  unfold remS
  simp only [toInt_eq_zero_iff, Int.tmod_def]

theorem remU_eq (x y : W) : remU x y = if y.toNat = 0 then 0 else BitVec.ofNat 64 (x.toNat % y.toNat) := by
  have zero : y = 0 ↔ y.toNat = 0 := by rw [← BitVec.toNat_inj]; rfl
  unfold remU
  simp only [zero]

theorem minS_eq (x y : W) : minS x y = BitVec.ofInt 64 (min x.toInt y.toInt) := by
  unfold minS
  rw [BitVec.slt_eq_decide]
  by_cases h : y.toInt < x.toInt
  · rw [if_pos (decide_eq_true h), min_eq_right h.le, BitVec.ofInt_toInt]
  · rw [if_neg (by simpa using h), min_eq_left (not_lt.mp h), BitVec.ofInt_toInt]

theorem maxS_eq (x y : W) : maxS x y = BitVec.ofInt 64 (max x.toInt y.toInt) := by
  unfold maxS
  rw [BitVec.slt_eq_decide]
  by_cases h : x.toInt < y.toInt
  · rw [if_pos (decide_eq_true h), max_eq_right h.le, BitVec.ofInt_toInt]
  · rw [if_neg (by simpa using h), max_eq_left (not_lt.mp h), BitVec.ofInt_toInt]

theorem ofNat_toNat_self (x : W) : BitVec.ofNat 64 x.toNat = x := by rw [BitVec.ofNat_toNat, BitVec.setWidth_eq]

theorem minU_eq (x y : W) : minU x y = BitVec.ofNat 64 (min x.toNat y.toNat) := by
  unfold minU
  rw [BitVec.ult_eq_decide]
  by_cases h : y.toNat < x.toNat
  · rw [if_pos (decide_eq_true h), min_eq_right h.le, ofNat_toNat_self]
  · rw [if_neg (by simpa using h), min_eq_left (not_lt.mp h), ofNat_toNat_self]

theorem maxU_eq (x y : W) : maxU x y = BitVec.ofNat 64 (max x.toNat y.toNat) := by
  unfold maxU
  rw [BitVec.ult_eq_decide]
  by_cases h : x.toNat < y.toNat
  · rw [if_pos (decide_eq_true h), max_eq_right h.le, ofNat_toNat_self]
  · rw [if_neg (by simpa using h), max_eq_left (not_lt.mp h), ofNat_toNat_self]

/-! Bit counts (R96). -/

/-- The zero bits above the highest one bit. -/
def leadCount (x : W) : Nat := if x = 0 then 64 else 63 - Nat.log2 x.toNat

theorem leadingZeros_eq (x : W) : leadingZeros x = BitVec.ofNat 64 (leadCount x) := by
  unfold leadingZeros leadCount
  split <;> rfl

theorem leadCount_spec (x : W) :
    leadCount x ≤ 64 ∧ x.toNat < 2 ^ (64 - leadCount x) ∧ (x ≠ 0 → 2 ^ (63 - leadCount x) ≤ x.toNat ∧ leadCount x < 64) ∧
      (x = 0 → leadCount x = 64) := by
  unfold leadCount
  by_cases zero : x = 0
  · subst zero; exact ⟨le_rfl, by decide, fun h => absurd rfl h, fun _ => rfl⟩
  · have pos : x.toNat ≠ 0 := fun h => zero (BitVec.eq_of_toNat_eq h)
    have top : Nat.log2 x.toNat < 64 := (Nat.log2_lt pos).mpr x.isLt
    rw [if_neg zero, show 64 - (63 - Nat.log2 x.toNat) = Nat.log2 x.toNat + 1 by omega,
      show 63 - (63 - Nat.log2 x.toNat) = Nat.log2 x.toNat by omega]
    exact ⟨by omega, Nat.lt_log2_self, fun _ => ⟨Nat.log2_self_le pos, by omega⟩, fun h => absurd h zero⟩

/-- The zero bits below the lowest one bit. -/
def trailCount (x : W) : Nat := ((List.range 64).find? fun i => x.getLsbD i).getD 64

theorem trailingZeros_eq (x : W) : trailingZeros x = BitVec.ofNat 64 (trailCount x) := rfl

theorem trailCount_spec (x : W) :
    trailCount x ≤ 64 ∧ (∀ i, i < trailCount x → x.getLsbD i = false) ∧ (x ≠ 0 → x.getLsbD (trailCount x) = true) ∧
      (x = 0 → trailCount x = 64) := by
  unfold trailCount
  cases found : (List.range 64).find? fun i => x.getLsbD i with
  | none =>
    have clear (i : Nat) (h : i < 64) : x.getLsbD i = false := by
      simpa using List.find?_eq_none.mp found i (List.mem_range.mpr h)
    have zero : x = 0 := BitVec.eq_of_getLsbD_eq fun i h => by rw [clear i h]; exact (BitVec.getLsbD_zero ..).symm
    exact ⟨le_rfl, clear, fun h => absurd zero h, fun _ => rfl⟩
  | some k =>
    obtain ⟨hit, bound, below⟩ := List.find?_range_eq_some.mp found
    have clear (i : Nat) (h : i < k) : x.getLsbD i = false := by simpa using below i h
    refine ⟨(List.mem_range.mp bound).le, clear, fun _ => hit, fun zero => ?_⟩
    rw [zero, BitVec.ofNat_eq_ofNat, BitVec.getLsbD_zero] at hit
    cases hit

theorem countP_eq_sum_toNat (p : Nat → Bool) (l : List Nat) : l.countP p = (l.map fun i => (p i).toNat).sum := by
  induction l with
  | nil => rfl
  | cons i l ih =>
    rw [List.countP_cons, List.map_cons, List.sum_cons, ih, Nat.add_comm]
    cases p i <;> rfl

theorem popCount_eq (x : W) : popCount x = BitVec.ofNat 64 (((List.range 64).map fun i => (x.getLsbD i).toNat).sum) := by
  rw [← countP_eq_sum_toNat fun i => x.getLsbD i]; rfl

/-! The decoder of a major (R71). -/

theorem decodeNat_of_alu3 {n : Nat} (h : n / 2 ^ 26 % 2 ^ 6 = 0x01) : decodeNat n = decodeAlu3 n := by
  unfold decodeNat; simp only [h]

theorem decodeNat_of_cmp {n : Nat} (h : n / 2 ^ 26 % 2 ^ 6 = 0x09) : decodeNat n = decodeCmp n := by
  unfold decodeNat; simp only [h]

theorem decodeNat_of_cmpi {n : Nat} (h : n / 2 ^ 26 % 2 ^ 6 = 0x0a) : decodeNat n = decodeCmpi n := by
  unfold decodeNat; simp only [h]

theorem major_mod (w : BitVec 32) : w.toNat / 2 ^ 26 % 2 ^ 6 = w.toNat / 2 ^ 26 :=
  Nat.mod_eq_of_lt (Nat.div_lt_of_lt_mul w.isLt)

theorem decodeAlu3_unassigned (w : BitVec 32) (major : w.toNat / 2 ^ 26 = 0x01) (minor : 0x17 ≤ w.toNat % 2 ^ 8) :
    decode w = .error .unassignedMinor := by
  rw [decode, decodeNat_of_alu3 ((major_mod w).trans major)]
  unfold decodeAlu3
  split
  case h_24 => rfl
  all_goals omega

/-- Settles O8. -/
theorem aluWords : Obligations.AluWords := by
  refine ⟨fun m d a b => ⟨?_, ?_, ?_, ?_, ?_, ?_, ?_, ?_, ?_⟩, ⟨?_, fun m d a b => ⟨?_, ?_, ?_⟩⟩, fun m d a b => ⟨?_, ?_, ?_, ?_⟩,
    fun m d a b => ⟨?_, ?_, ?_, ?_⟩, fun m d a => ⟨⟨leadCount, ?_, leadCount_spec⟩, ⟨trailCount, ?_, trailCount_spec⟩, ?_⟩⟩
  · exact alu3_writesReg (fun _ => rfl) fun _ => rfl
  · exact alu3_writesReg (fun _ => rfl) fun _ => rfl
  · exact alu3_writesReg (fun _ => rfl) fun _ => rfl
  · exact alu3_writesReg (fun _ => rfl) fun _ => rfl
  · exact alu3_writesReg (fun _ => rfl) fun _ => rfl
  · exact alu3_writesReg (f := fun x y => x &&& ~~~y) (fun _ => rfl) fun _ => rfl
  · exact alu3_writesReg (f := fun x y => x <<< shCount y) (fun _ => rfl) fun _ => shiftLeft_eq_ofNat ..
  · exact alu3_writesReg (f := fun x y => x >>> shCount y) (fun _ => rfl) fun _ => shiftRight_eq_ofNat ..
  · exact alu3_writesReg (f := fun x y => sraBy x (shCount y)) (fun _ => rfl) fun _ => sraBy_eq_ofInt ..
  · exact fun w major minor => decodeAlu3_unassigned w major minor
  · exact alu3_writesReg (fun _ => rfl) fun _ => mul_eq_ofNat ..
  · exact alu3_writesReg (fun _ => rfl) fun _ => rfl
  · exact alu3_writesReg (fun _ => rfl) fun _ => rfl
  · exact alu3_writesReg (fun _ => rfl) fun _ => divS_eq ..
  · exact alu3_writesReg (fun _ => rfl) fun _ => divU_eq ..
  · exact alu3_writesReg (fun _ => rfl) fun _ => remS_eq ..
  · exact alu3_writesReg (fun _ => rfl) fun _ => remU_eq ..
  · exact alu3_writesReg (fun _ => rfl) fun _ => minS_eq ..
  · exact alu3_writesReg (fun _ => rfl) fun _ => maxS_eq ..
  · exact alu3_writesReg (fun _ => rfl) fun _ => minU_eq ..
  · exact alu3_writesReg (fun _ => rfl) fun _ => maxU_eq ..
  · exact alu2_writesReg (fun _ => rfl) fun _ => leadingZeros_eq ..
  · exact alu2_writesReg (fun _ => rfl) fun _ => trailingZeros_eq ..
  · exact alu2_writesReg (fun _ => rfl) fun _ => popCount_eq ..

/-! Immediate forms (R98). -/

theorem add_simm {n : Nat} (x : W) (i : BitVec n) : x + simm i = BitVec.ofInt 64 (x.toInt + i.toInt) := by
  rw [BitVec.ofInt_add, BitVec.ofInt_toInt]; rfl

theorem shiftLeft_or_uimm (x : W) (j : BitVec 18) : x <<< 18 ||| uimm j = BitVec.ofNat 64 (x.toNat * 2 ^ 18 + j.toNat) := by
  apply BitVec.eq_of_toNat_eq
  have wide : j.toNat < 2 ^ 18 := j.isLt
  have low : (uimm j).toNat = j.toNat := by
    rw [uimm, BitVec.toNat_setWidth, Nat.mod_eq_of_lt (wide.trans (by decide))]
  have cut : (x.toNat * 2 ^ 18) % 2 ^ 64 = (x.toNat % 2 ^ 46) <<< 18 := by rw [Nat.shiftLeft_eq]; omega
  rw [BitVec.toNat_or, BitVec.toNat_shiftLeft, BitVec.toNat_ofNat, Nat.shiftLeft_eq, low, cut,
    ← Nat.shiftLeft_add_eq_or_of_lt wide, Nat.shiftLeft_eq]
  omega

/-- Settles O9. -/
theorem immediateWords : Obligations.ImmediateWords := by
  intro m d a i sh j
  refine ⟨?_, ?_, ?_, ?_, ?_, ?_, ?_, ?_, ?_, fun s hr beyond => ?_⟩
  · exact alu2_writesReg (f := (· + simm i)) (fun _ => rfl) fun _ => add_simm ..
  · exact alu2_writesReg (f := (· &&& simm i)) (fun _ => rfl) fun _ => rfl
  · exact alu2_writesReg (f := (· ||| simm i)) (fun _ => rfl) fun _ => rfl
  · exact alu2_writesReg (f := (· ^^^ simm i)) (fun _ => rfl) fun _ => rfl
  · exact alu2_writesReg (f := (· <<< sh.toNat)) (fun _ => rfl) fun _ => shiftLeft_eq_ofNat ..
  · exact alu2_writesReg (f := (· >>> sh.toNat)) (fun _ => rfl) fun _ => shiftRight_eq_ofNat ..
  · exact alu2_writesReg (f := (sraBy · sh.toNat)) (fun _ => rfl) fun _ => sraBy_eq_ofInt ..
  · exact writesReg_of (m := m) fun _ => rfl
  · exact writesReg_of_eq (m := m) (w := fun s => rd s d 0 <<< 18 ||| uimm j) (fun _ => rfl) fun _ => shiftLeft_or_uimm ..
  · exact traps_of_badField (body := fun s => writeBack m d (rd s d 0 <<< 18 ||| uimm j) 1 s) hr rfl (badField_cons_of_le beyond [])

/-! Bitfields, select, multiply-add (R100). -/

theorem fieldMask_toNat (len : BitVec 6) : (fieldMask len).toNat = 2 ^ (len.toNat + 1) - 1 := by
  have width : len.toNat + 1 ≤ 64 := len.isLt
  have := Nat.pow_le_pow_right (n := 2) (by decide) width
  have := Nat.two_pow_pos (len.toNat + 1)
  rw [fieldMask, BitVec.toNat_ofNat]
  exact Nat.mod_eq_of_lt (by omega)

theorem bfx_eq (x : W) (pos len : BitVec 6) :
    x >>> pos.toNat &&& fieldMask len = BitVec.ofNat 64 (x.toNat / 2 ^ pos.toNat % 2 ^ (len.toNat + 1)) := by
  apply BitVec.eq_of_toNat_eq
  have small : x.toNat / 2 ^ pos.toNat % 2 ^ (len.toNat + 1) < 2 ^ 64 :=
    ((Nat.mod_le ..).trans (Nat.div_le_self ..)).trans_lt x.isLt
  rw [BitVec.toNat_and, fieldMask_toNat, Nat.and_two_pow_sub_one_eq_mod, BitVec.toNat_ushiftRight, Nat.shiftRight_eq_div_pow,
    BitVec.toNat_ofNat, Nat.mod_eq_of_lt small]

theorem getLsbD_fieldMask (len : BitVec 6) (i : Nat) : (fieldMask len).getLsbD i = decide (i < len.toNat + 1) := by
  rw [BitVec.getLsbD, fieldMask_toNat, Nat.testBit_two_pow_sub_one]

/-- A bit of a number with a range of bits replaced. -/
theorem testBit_setBits (v lo len x i : Nat) :
    (setBits v lo len x).testBit i = if lo ≤ i ∧ i < lo + len then x.testBit (i - lo) else v.testBit i := by
  have low : v % 2 ^ lo < 2 ^ lo := Nat.mod_lt _ (Nat.two_pow_pos lo)
  have mid : x % 2 ^ len < 2 ^ len := Nat.mod_lt _ (Nat.two_pow_pos len)
  have sum : setBits v lo len x = 2 ^ lo * (2 ^ len * (v / 2 ^ (lo + len)) + x % 2 ^ len) + v % 2 ^ lo := by
    unfold setBits; rw [pow_add]; ring
  rw [sum, Nat.testBit_two_pow_mul_add _ low, Nat.testBit_two_pow_mul_add _ mid, Nat.testBit_mod_two_pow, Nat.testBit_mod_two_pow,
    Nat.testBit_div_two_pow]
  by_cases below : i < lo
  · simp [below, Nat.not_le.mpr below]
  · by_cases inside : i < lo + len
    · have rel : i - lo < len := by omega
      simp [below, inside, rel, Nat.not_lt.mp below]
    · have rel : ¬i - lo < len := by omega
      simp only [below, inside, rel, if_false, and_false]
      congr 1; omega

theorem bfi_eq (x y : W) (pos len : BitVec 6) :
    x &&& ~~~(fieldMask len <<< pos.toNat) ||| (y &&& fieldMask len) <<< pos.toNat =
      BitVec.ofNat 64 (setBits x.toNat pos.toNat (len.toNat + 1) y.toNat) := by
  apply BitVec.eq_of_getLsbD_eq
  intro i hi
  rw [BitVec.getLsbD_ofNat, testBit_setBits]
  simp only [BitVec.getLsbD_or, BitVec.getLsbD_and, BitVec.getLsbD_not, BitVec.getLsbD_shiftLeft, getLsbD_fieldMask]
  by_cases below : i < pos.toNat
  · simp [below, hi, Nat.not_le.mpr below, BitVec.getLsbD]
  · have above : pos.toNat ≤ i := Nat.not_lt.mp below
    by_cases inside : i < pos.toNat + (len.toNat + 1)
    · have rel : i - pos.toNat < len.toNat + 1 := by omega
      simp [below, above, inside, rel, hi, BitVec.getLsbD]
    · have rel : ¬i - pos.toNat < len.toNat + 1 := by omega
      simp [above, inside, rel, hi, BitVec.getLsbD]

theorem madd_eq (x y z : W) : x * y + z = BitVec.ofNat 64 (x.toNat * y.toNat + z.toNat) := by
  rw [BitVec.ofNat_add, ofNat_toNat_self, mul_eq_ofNat]

/-- Settles O10. -/
theorem fieldSelectMaddWords : Obligations.FieldSelectMaddWords := by
  intro m d a b c pos len p sense
  refine ⟨?_, fun _ => ?_, ?_, ?_⟩
  · exact alu2_writesReg (f := fun x => x >>> pos.toNat &&& fieldMask len) (fun _ => rfl) fun _ => bfx_eq ..
  · exact writesReg_of_eq (m := m) (w := fun s => rd s d 0 &&& ~~~(fieldMask len <<< pos.toNat) ||| (rd s a 1 &&& fieldMask len) <<< pos.toNat)
      (fun _ => rfl) fun _ => bfi_eq ..
  · exact writesReg_of_eq (m := m) (w := fun s => if rdp s p 4 != sense then rd s a 1 else rd s b 2) (fun _ => rfl)
      fun _ => by rw [Bool.bne_eq_xor]
  · exact writesReg_of_eq (m := m) (w := fun s => rd s a 1 * rd s b 2 + rd s c 3) (fun _ => rfl) fun _ => madd_eq ..

/-! Compares (R102). -/

theorem condHolds_eq (x y : W) : condHolds 0 x y = decide (x = y) := Bool.beq_eq_decide_eq ..

theorem condHolds_ne (x y : W) : condHolds 1 x y = decide (x ≠ y) := by
  rw [decide_not, ← condHolds_eq]; rfl

theorem condHolds_lt (x y : W) : condHolds 2 x y = decide (x.toInt < y.toInt) := rfl

theorem condHolds_ge (x y : W) : condHolds 3 x y = decide (y.toInt ≤ x.toInt) := by
  simp only [condHolds, BitVec.slt_eq_decide, ← decide_not, not_lt]

theorem condHolds_ltu (x y : W) : condHolds 4 x y = decide (x.toNat < y.toNat) := rfl

theorem condHolds_geu (x y : W) : condHolds 5 x y = decide (y.toNat ≤ x.toNat) := by
  simp only [condHolds, BitVec.ult_eq_decide, ← decide_not, not_lt]

theorem toInt_simm (i : BitVec 10) : (simm i).toInt = i.toInt := BitVec.toInt_signExtend_of_le (by decide)

theorem eq_simm_iff (x : W) (i : BitVec 10) : x = simm i ↔ x.toInt = i.toInt := by rw [← BitVec.toInt_inj, toInt_simm]

theorem cmp_writesPred {i : Instr} {cond : Nat} {m : Marks} {p : Preg} {a b : Sreg} {v : State → Bool}
    (hi : ∀ s, exec i s = cmp cond m p a b s) (hv : ∀ s, condHolds cond (rd s a 1) (rd s b 2) = v s) :
    WritesPred i [a.toNat, b.toNat] p v 1 (fun _ => none) :=
  writesPred_of (m := m) hi hv

theorem cmpi_writesPred {i : Instr} {cond : Nat} {m : Marks} {p : Preg} {a : Sreg} {imm : BitVec 10} {v : State → Bool}
    (hi : ∀ s, exec i s = cmpi cond m p a imm s) (hv : ∀ s, condHolds cond (rd s a 1) (simm imm) = v s) :
    WritesPred i [a.toNat] p v 1 (fun _ => none) :=
  writesPred_of (m := m) hi hv

theorem decodeCmp_unassigned {n : Nat} (h : 6 ≤ n % 2 ^ 8) : decodeCmp n = .error .unassignedMinor := by
  unfold decodeCmp
  split
  case h_7 => rfl
  all_goals omega

theorem decodeCmpi_unassigned {n : Nat} (h : 6 ≤ n / 2 ^ 10 % 2 ^ 3) : decodeCmpi n = .error .unassignedMinor := by
  unfold decodeCmpi
  split
  case h_7 => rfl
  all_goals omega

/-- Settles O11. -/
theorem compareWords : Obligations.CompareWords := by
  refine ⟨fun w => ?_, fun m p a b i => ⟨?_, ?_, ?_, ?_, ?_, ?_, ?_, ?_, ?_, ?_, ?_, ?_⟩⟩
  · rintro (⟨major, minor⟩ | ⟨major, minor⟩)
    · exact (decodeNat_of_cmp ((major_mod w).trans major)).trans (decodeCmp_unassigned minor)
    · exact (decodeNat_of_cmpi ((major_mod w).trans major)).trans (decodeCmpi_unassigned minor)
  · exact cmp_writesPred (fun _ => rfl) fun _ => condHolds_eq ..
  · exact cmp_writesPred (fun _ => rfl) fun _ => condHolds_ne ..
  · exact cmp_writesPred (fun _ => rfl) fun _ => condHolds_lt ..
  · exact cmp_writesPred (fun _ => rfl) fun _ => condHolds_ge ..
  · exact cmp_writesPred (fun _ => rfl) fun _ => condHolds_ltu ..
  · exact cmp_writesPred (fun _ => rfl) fun _ => condHolds_geu ..
  · exact cmpi_writesPred (fun _ => rfl) fun _ => by simp only [condHolds_eq, eq_simm_iff]
  · exact cmpi_writesPred (fun _ => rfl) fun _ => by simp only [condHolds_ne, ne_eq, eq_simm_iff]
  · exact cmpi_writesPred (fun _ => rfl) fun _ => by rw [condHolds_lt, toInt_simm]
  · exact cmpi_writesPred (fun _ => rfl) fun _ => by rw [condHolds_ge, toInt_simm]
  · exact cmpi_writesPred (fun _ => rfl) fun _ => condHolds_ltu ..
  · exact cmpi_writesPred (fun _ => rfl) fun _ => condHolds_geu ..

end Sys2Proof.Machine
end

section
/-! PROOF. Transfers of control, stack frames, hardware loops and the repeat prefix (04 R112 to R124). -/

namespace Sys2Proof

/-! The majors of the words that the repeat prefix tells apart (R71, R120, R121). -/

/-- The major of the word of an instruction that may not stand under rep or whose stepped fields are stated; 64 for the others. -/
def repMajor : Instr → Nat
  | .add .. => 0x01
  | .addi .. => 0x02
  | .fma .. => 0x0d
  | .br .. => 0x0e
  | .jmp .. | .call .. => 0x0f
  | .jmpr .. | .callr .. | .ret .. | .halt .. => 0x10
  | .loop .. | .loopi .. => 0x11
  | .rep .. | .repImm .. => 0x12
  | .ldB .. | .ldBu .. | .ldH .. | .ldHu .. | .ldW .. | .ldWu .. | .ldD .. => 0x13
  | .stB .. | .stH .. | .stW .. | .stD .. => 0x14
  | .ldqB .. | .ldqBu .. | .ldqH .. | .ldqHu .. | .ldqW .. | .ldqWu .. | .ldqD .. => 0x15
  | .cas .. => 0x17
  | .enter .. | .leave .. => 0x24
  | .madd .. => 0x27
  | _ => 64

/-- An outcome of the decoder that a word of major k may have. -/
def inMajor (k : Nat) : Except DecodeError Instr → Bool
  | .ok i => repMajor i == 64 || repMajor i == k
  | .error _ => true

theorem minors_inMajor (n : Nat) :
    inMajor 0x00 (decodeSys n) ∧ inMajor 0x01 (decodeAlu3 n) ∧ inMajor 0x06 (decodeShift n) ∧ inMajor 0x09 (decodeCmp n) ∧
    inMajor 0x0a (decodeCmpi n) ∧ inMajor 0x0b (decodePred n) ∧ inMajor 0x0c (decodeFp3 n) ∧ inMajor 0x0f (decodeJmp n) ∧
    inMajor 0x10 (decodeJreg n) ∧ inMajor 0x11 (decodeLoop n) ∧ inMajor 0x12 (decodeRep n) ∧ inMajor 0x13 (decodeLd n) ∧
    inMajor 0x14 (decodeSt n) ∧ inMajor 0x15 (decodeFar n) ∧ inMajor 0x16 (decodeAmo n) ∧ inMajor 0x17 (decodeCas n) ∧
    inMajor 0x19 (decodeSem n) ∧ inMajor 0x1a (decodeRing n) ∧ inMajor 0x1b (decodeBar n) ∧ inMajor 0x1c (decodeWaitv n) ∧
    inMajor 0x1d (decodeEngine n) ∧ inMajor 0x1e (decodeHandle n) ∧ inMajor 0x20 (decodeTask n) ∧ inMajor 0x21 (decodeTrig n) ∧
    inMajor 0x22 (decodeRemote n) ∧ inMajor 0x23 (decodeTime n) ∧ inMajor 0x24 (decodeFrame n) ∧ inMajor 0x25 (decodeBitfield n) ∧
    inMajor 0x28 (decodeCvt n) ∧ ∀ k, inMajor k (decodePatch n) := by
  unfold decodeSys decodeAlu3 decodeShift decodeCmp decodeCmpi decodePred decodeFp3 decodeJmp decodeJreg decodeLoop decodeRep decodeLd
    decodeSt decodeFar decodeAmo decodeCas decodeSem decodeRing decodeBar decodeWaitv decodeEngine decodeHandle decodeTask decodeTrig
    decodeRemote decodeTime decodeFrame decodeBitfield decodeCvt decodePatch
  and_intros
  all_goals intros
  all_goals repeat' split
  all_goals rfl

theorem decodeNat_inMajor (n : Nat) : inMajor (n / 2 ^ 26 % 2 ^ 6) (decodeNat n) = true := by
  unfold decodeNat
  generalize n / 2 ^ 26 % 2 ^ 6 = k
  split
  case h_3 | h_4 | h_5 | h_6 | h_8 | h_9 | h_14 | h_15 | h_25 | h_32 | h_39 | h_40 => rfl
  case h_42 | h_43 | h_44 | h_45 | h_46 | h_47 | h_48 => rfl
  all_goals simp only [minors_inMajor]

/-- A word that decodes to such an instruction is of its major. -/
theorem major_of_decode {w : BitVec 32} {i : Instr} (h : decode w = .ok i) (named : repMajor i ≠ 64) : w.toNat / 2 ^ 26 = repMajor i := by
  have fits := decodeNat_inMajor w.toNat
  rw [show decodeNat w.toNat = .ok i from h, Machine.major_mod] at fits
  rcases Bool.or_eq_true_iff.mp fits with other | same
  · exact absurd (beq_iff_eq.mp other) named
  · exact (beq_iff_eq.mp same).symm

end Sys2Proof

namespace Sys2Proof.Machine

/-! Transfers (R113). -/

theorem disp_eq {n : Nat} (i : BitVec n) : disp i = BitVec.ofInt 64 (4 * i.toInt) := by
  rw [disp, BitVec.shiftLeft_eq_mul_twoPow, BitVec.mul_comm, BitVec.ofInt_mul]; rfl

theorem retireTo_place {m : Marks} {a : W} {s : State} (alone : s.me.inRep = false) :
    (retireTo m a s).me.place = (a, s.me.loop0.count, s.me.loop1.count) := by
  have inRep : (issue m s).me.inRep = false := (issue_me_field (·.inRep) m s fun _ _ _ _ _ => rfl).trans alone
  have goes : (issue m s).me.advance (some a) = { (issue m s).me with pc := a } := by
    unfold Strand.advance; rw [if_neg (by rw [inRep]; exact Bool.false_ne_true)]
  rw [retireTo, State.me_modMe, goes]
  exact issue_me_field (fun t => (a, t.loop0.count, t.loop1.count)) m s fun _ _ _ _ _ => rfl

theorem retireTo_flowFrame (m : Marks) (a : W) (s : State) : FlowFrame s (retireTo m a s) := ⟨retireTo_frame m a s, retireTo_still m a s⟩

theorem transfers_of {i : Instr} {fields : List Nat} {target : State → W} {m : Marks}
    (h : ∀ s, exec i s = issueWord fields (fun s => retireTo m (target s) s) s) : Transfers i fields target :=
  fun s hr hf alone => ⟨_, (h s).trans (issueWord_next hr hf _), retireTo_place alone, retireTo_flowFrame m _ s⟩

/-- br goes on behind its word, or transfers where its predicate differs from its sense. -/
theorem exec_br (m : Marks) (p : Preg) (sense : Bool) (i : BitVec 19) {s : State} (h : Runs s) :
    exec (.br m p sense i) s = .next (if (rdp s p 1 ^^ sense) = true then retireTo m (s.me.pc + disp i) s else retire m s) := by
  rw [← Bool.bne_eq_xor]
  exact issueWord_next h (fits_nil s) fun s => if rdp s p 1 != sense then retireTo m (s.me.pc + disp i) s else retire m s

/-- A state in which all but what any issue changes is as after a register write. -/
theorem regFrame_of_still {s t : State} {d : Sreg} {v : W} {bound : Nat} {fl : Option (BitVec 5)} (word : WordFrame s t)
    (still : t.me.still = (s.me.wrReg s.cycle d v bound fl).still) :
    t.me.regs.get d.toFin = v ∧ t.me.flights = s.me.flights ++ [⟨.reg d, s.cycle + bound, fl, s.cycle⟩] ∧ RegFrame s t d := by
  have regs : t.me.regs = (s.me.wrReg s.cycle d v bound fl).regs := by
    have h := congrArg Strand.regs still; exact h
  have flights := congrArg Strand.flights still
  refine ⟨?_, flights, word, fun r hne => ?_, by rw [still]; rfl⟩
  · rw [regs]; exact Vector.get_set_same (i := d.toFin) ..
  · rw [regs]; exact Vector.get_set_other (i := d.toFin) _ _ hne

/-- A call: its return address is in ra (R113, R63). -/
theorem retireTo_link {m : Marks} {a : W} {s : State} (alone : s.me.inRep = false) :
    let t := retireTo m a (wr 1 (s.me.pc + 4) 1 s)
    t.me.place = (a, s.me.loop0.count, s.me.loop1.count) ∧ t.me.regs.get 1 = s.me.pc + 4 ∧
      t.me.flights = s.me.flights ++ [⟨.reg 1, s.cycle + 1, none, s.cycle⟩] ∧ RegFrame s t 1 := by
  intro t
  have me : (wr 1 (s.me.pc + 4) 1 s).me = s.me.wrReg s.cycle 1 (s.me.pc + 4) 1 none := State.me_modMe ..
  have still : t.me.still = (s.me.wrReg s.cycle 1 (s.me.pc + 4) 1 none).still := by rw [← me]; exact retireTo_still ..
  refine ⟨?_, regFrame_of_still ((WordFrame.modMe s _).trans (retireTo_frame ..)) still⟩
  have place := retireTo_place (m := m) (a := a) (s := wr 1 (s.me.pc + 4) 1 s) (by rw [me]; exact alone)
  rw [me] at place; exact place

/-! Stack frames (R63, R124). -/

theorem exec_enter (m : Marks) (n : BitVec 18) {s : State} (h : Runs s) : exec (.enter m n) s = .next
    (if ((rd s 2 1).toNat : Int) - 16 * n.toNat < s.me.xstklim.toNat then trap s 0x03 0 (BitVec.ofInt 64 ((rd s 2 1).toNat - 16 * n.toNat))
     else writeBack m 2 (BitVec.ofInt 64 ((rd s 2 1).toNat - 16 * n.toNat)) 1 s) :=
  issueWord_next h (fits_nil s) fun s =>
    if ((rd s 2 1).toNat : Int) - 16 * n.toNat < s.me.xstklim.toNat then trap s 0x03 0 (BitVec.ofInt 64 ((rd s 2 1).toNat - 16 * n.toNat))
    else writeBack m 2 (BitVec.ofInt 64 ((rd s 2 1).toNat - 16 * n.toNat)) 1 s

theorem exec_leave (m : Marks) (n : BitVec 18) {s : State} (h : Runs s) :
    exec (.leave m n) s = .next (writeBack m 2 (rd s 2 1 + BitVec.ofNat 64 (16 * n.toNat)) 1 s) :=
  issueWord_next h (fits_nil s) fun s => writeBack m 2 (rd s 2 1 + BitVec.ofNat 64 (16 * n.toNat)) 1 s

theorem toNat_ofInt_of_range {z : Int} (lo : 0 ≤ z) (hi : z < 2 ^ 64) : ((BitVec.ofInt 64 z).toNat : Int) = z := by
  rw [BitVec.toNat_ofInt]; omega

/-- Settles O15: a transfer is its issue and a new place, a call writes ra besides; enter and leave write sp. -/
theorem transferAndFrameWords : Obligations.TransferAndFrameWords := by
  refine ⟨fun m p sense near far a => ⟨fun s hr alone => ?_, ?_, ?_, ?_, fun s hr alone => ?_, fun s hr hf alone => ?_⟩,
    fun m n s hr => ⟨fun room => ?_, fun short => ?_, ?_⟩⟩
  · rw [exec_br m p sense near hr, ← disp_eq]
    split
    · exact ⟨_, rfl, retireTo_flowFrame .., retireTo_place alone⟩
    · exact ⟨_, rfl, retire_flowFrame .., retire_place alone⟩
  · simp only [← disp_eq]; exact transfers_of (m := m) fun _ => rfl
  · exact transfers_of (m := m) fun _ => rfl
  · exact transfers_of (m := m) fun _ => rfl
  · rw [← disp_eq]
    exact ⟨_, issueWord_next hr (fits_nil s) fun s => retireTo m (s.me.pc + disp far) (wr 1 (s.me.pc + 4) 1 s), retireTo_link alone⟩
  · exact ⟨_, issueWord_next hr hf fun s => retireTo m (rd s a 1 &&& ~~~3) (wr 1 (s.me.pc + 4) 1 s), retireTo_link alone⟩
  · refine ⟨_, (exec_enter m n hr).trans (congrArg _ (if_neg (not_lt.mpr room))), ?_⟩
    obtain ⟨sp, rest⟩ := wr_retire m 2 (BitVec.ofInt 64 ((rd s 2 1).toNat - 16 * n.toNat)) 1 none s
    have sp' : (writeBack m 2 (BitVec.ofInt 64 ((rd s 2 1).toNat - 16 * n.toNat)) 1 s).me.regs.get 2 = _ := sp
    have top := (rd s 2 1).isLt
    exact ⟨by rw [sp']; exact toNat_ofInt_of_range (by omega) (by omega), rest⟩
  · exact (exec_enter m n hr).trans (congrArg _ (if_pos short))
  · exact ⟨_, exec_leave m n hr, wr_retire m 2 _ 1 none s⟩

/-! Loops (R115, R116). -/

/-- A strand with a loop level armed. -/
def Strand.armLoop (t : Strand) (lv : Bool) (l : LoopLevel) : Strand := if lv then { t with loop1 := l } else { t with loop0 := l }

/-- The control registers of a loop level. -/
def loopCtls (lv : Bool) : List Nat := if lv then [0x1b, 0x1c, 0x1d] else [0x18, 0x19, 0x1a]

theorem Strand.setLoop_eq (t : Strand) (lv : Bool) (l : LoopLevel) :
    t.setLoop lv l = { t.armLoop lv l with ctl := t.ctl.filter fun w => !(loopCtls lv).contains w.num.toNat } := by
  cases lv <;> rfl

theorem Strand.armLoop_pc (t : Strand) (lv : Bool) (l : LoopLevel) : (t.armLoop lv l).pc = t.pc := by cases lv <;> rfl

theorem Strand.armLoop_inRep (t : Strand) (lv : Bool) (l : LoopLevel) : (t.armLoop lv l).inRep = t.inRep := by cases lv <;> rfl

/-- What a loop word with a count other than 0 leaves: its level is armed, and its own address is checked. -/
structure Armed (s t : State) (lv : Bool) (l : LoopLevel) : Prop where
  place : t.me.place = bodyEnd (s.me.armLoop lv l) s.me.pc (s.me.pc + 4)
  word : WordFrame s t
  strand : { t.me.still with ctl := s.me.ctl } = (s.me.armLoop lv l).still
  ctl : t.me.ctl = s.me.ctl.filter fun w => !(loopCtls lv).contains w.num.toNat

theorem loopWord_skips (m : Marks) (lv : Bool) (e : Nat) {s : State} (alone : s.me.inRep = false) :
    (loopWord m lv 0 e s).me.place = (s.me.pc + BitVec.ofNat 64 (4 * e) + 4, s.me.loop0.count, s.me.loop1.count) ∧
      FlowFrame s (loopWord m lv 0 e s) :=
  ⟨retireTo_place alone, retireTo_flowFrame ..⟩

theorem loopWord_armed (m : Marks) (lv : Bool) {n : W} (hn : n ≠ 0) (e : Nat) {s : State} (alone : s.me.inRep = false) :
    Armed s (loopWord m lv n e s) lv ⟨n, s.me.pc + 4, s.me.pc + BitVec.ofNat 64 (4 * e)⟩ := by
  unfold loopWord
  dsimp only
  rw [if_neg hn]
  generalize (⟨n, s.me.pc + 4, s.me.pc + BitVec.ofNat 64 (4 * e)⟩ : LoopLevel) = l
  have me : (s.modMe (·.setLoop lv l)).me = { s.me.armLoop lv l with ctl := s.me.ctl.filter fun w => !(loopCtls lv).contains w.num.toNat } := by
    rw [State.me_modMe, Strand.setLoop_eq]
  have still := retire_still m (s.modMe (·.setLoop lv l))
  rw [me] at still
  have place := retire_place (m := m) (s := s.modMe (·.setLoop lv l)) (by rw [me]; exact (s.me.armLoop_inRep lv l).trans alone)
  rw [me] at place
  refine ⟨?_, (WordFrame.modMe s _).trans (retire_frame ..), ?_, congrArg Strand.ctl still⟩
  · rw [place, ← s.me.armLoop_pc lv l]; rfl
  · rw [still]; cases lv <;> rfl

/-! The repeat prefix (R118 to R121). -/

theorem loopCheck_idle {t : Strand} (h : plainPlace t) (w : W) : loopCheck t w = (t, none) := by
  obtain ⟨-, idle0, idle1⟩ := h
  rw [loopCheck_eq, if_neg fun c => c.1 idle1, Strand.check0, if_neg fun c => c.1 idle0]

theorem Strand.startRep_still (t : Strand) (n : BitVec 32) : { (t.startRep n).still with ctl := t.ctl } = t.still := by
  have checked := congrArg (fun u : Strand => { u with ctl := t.ctl }) (loopCheck_still t t.pc)
  unfold startRep
  dsimp only
  split
  · exact checked
  · split
    · rw [endCheck_still]; exact checked
    · exact checked

/-- A rep word that ends a loop body whose loop returns: no repetition is under way. -/
theorem Strand.startRep_returns {t : Strand} (h : (bodyEnd t t.pc t.pc).1 ≠ t.pc) (n : BitVec 32) :
    (t.startRep n).place = bodyEnd t t.pc t.pc ∧ (t.startRep n).xrep = 0 ∧ (t.startRep n).inRep = t.inRep := by
  have place := endCheck_place t t.pc t.pc
  have inRep : (loopCheck t t.pc).1.inRep = t.inRep := by
    have rest := congrArg Strand.inRep (loopCheck_rest t t.pc); exact rest
  unfold endCheck at place
  unfold startRep
  dsimp only
  cases back : (loopCheck t t.pc).2 with
  | some b =>
    rw [back] at place
    exact ⟨place, rfl, inRep⟩
  | none =>
    rw [back] at place
    exact absurd (congrArg Prod.fst place).symm h

theorem Strand.startRep_ctl (t : Strand) {n : BitVec 32} (hn : n ≠ 0) :
    (t.startRep n).ctl = t.ctl.filter fun x => !([0x08].contains x.num.toNat) := by
  have ctl : (loopCheck t t.pc).1.ctl = t.ctl := by
    have rest := congrArg Strand.ctl (loopCheck_rest t t.pc); exact rest
  rw [← ctl]
  unfold startRep
  dsimp only
  rw [if_neg hn]
  split <;> rfl

theorem Strand.startRep_of_plain {t : Strand} (h : plainPlace t) (n : BitVec 32) : t.startRep n =
    if n = 0 then { t with pc := t.pc + 8 } else { t.dropCtl [0x08] with xrep := n.setWidth 64, inRep := true } := by
  unfold startRep endCheck
  simp only [loopCheck_idle h]
  rfl

/-- What a rep word with count n leaves, its repetition under way or not. -/
def RepStarts (s t : State) (n : BitVec 32) : Prop :=
  WordFrame s t ∧ { t.me.still with ctl := s.me.ctl } = s.me.still ∧
  (n ≠ 0 → t.me.ctl = s.me.ctl.filter (fun x => !([0x08].contains x.num.toNat))) ∧ (n = 0 → plainPlace s.me → t.me.ctl = s.me.ctl) ∧
  if (bodyEnd s.me s.me.pc s.me.pc).1 ≠ s.me.pc then t.me.place = bodyEnd s.me s.me.pc s.me.pc ∧ t.me.xrep = 0 ∧ t.me.inRep = false
  else plainPlace s.me →
    if n = 0 then t.me.pc = s.me.pc + 8 ∧ t.me.xrep = s.me.xrep ∧ t.me.inRep = false
    else t.me.pc = s.me.pc ∧ t.me.xrep = n.setWidth 64 ∧ t.me.inRep = true

theorem repStarts (m : Marks) (n : BitVec 32) {s : State} (alone : s.me.inRep = false) :
    RepStarts s ((issue m s).modMe (·.startRep n)) n := by
  have same {α : Type} (f : Strand → α) (hf : ∀ (t : Strand) i g w z, f { t with issues := i, gapUntil := g, swUntil := w, zWait := z } = f t) :
      f (issue m s).me = f s.me := issue_me_field f m s hf
  have pc := same (·.pc) fun _ _ _ _ _ => rfl
  have ctl := same (·.ctl) fun _ _ _ _ _ => rfl
  have xrep := same (·.xrep) fun _ _ _ _ _ => rfl
  have inRep := same (·.inRep) fun _ _ _ _ _ => rfl
  have check := same (fun t => bodyEnd t t.pc t.pc) fun _ _ _ _ _ => rfl
  have plain := same plainPlace fun _ _ _ _ _ => rfl
  have started := issue_still m s
  unfold RepStarts
  rw [State.me_modMe, ← ctl, ← started, ← check, ← plain, ← pc, ← xrep]
  rw [← inRep] at alone
  generalize (issue m s).me = t at *
  refine ⟨(issue_frame m s).trans (WordFrame.modMe ..), t.startRep_still n, t.startRep_ctl, fun zero h => ?_, ?_⟩
  · rw [Strand.startRep_of_plain h, if_pos zero]
  · split
    next returns =>
      obtain ⟨place, none, ended⟩ := Strand.startRep_returns returns n
      exact ⟨place, none, ended.trans alone⟩
    next =>
      intro h
      rw [Strand.startRep_of_plain h]
      split
      · exact ⟨rfl, rfl, alone⟩
      · exact ⟨rfl, rfl, rfl⟩

theorem repWord_eq {s : State} {w : BitVec 32} (behind : fetch s s.cur.c (s.me.pc + 4) = some w) (m : Marks) (n : State → BitVec 32) :
    repWord m n s = if repeatable w then (issue m s).modMe (·.startRep (n s)) else trap s 0x01 0 (w.setWidth 64) := by
  unfold repWord; rw [behind]

theorem exec_repImm {s : State} (h : Runs s) (m : Marks) (cnt : BitVec 9) (sd sa sb : BitVec 3) :
    exec (.repImm m cnt sd sa sb) s = .next (repWord m (fun _ => cnt.setWidth 32) s) :=
  issueWord_next h (fits_nil s) (repWord m fun _ => cnt.setWidth 32)

/-- A rep word whose count is in a register looks at its field only where the word behind it may be repeated (R79). -/
theorem exec_rep {s : State} {w : BitVec 32} (h : Runs s) (behind : fetch s s.cur.c (s.me.pc + 4) = some w) (m : Marks) (a : Sreg)
    (sd sa sb : BitVec 3) (hf : repeatable w = true → Fits s [a.toNat]) :
    exec (.rep m a sd sa sb) s = .next (repWord m (fun s => (rd s a 1).setWidth 32) s) := by
  have fields : Fits s (if repeatsIllegal s then [] else [a.toNat]) := by
    have illegal : repeatsIllegal s = !repeatable w := by unfold repeatsIllegal; rw [behind]; rfl
    rw [illegal]
    cases may : repeatable w
    · exact fits_nil s
    · exact hf may
  exact issueWord_next h fields (repWord m fun s => (rd s a 1).setWidth 32)

/-- The majors of R120. -/
def bannedMajors : List Nat := [0x0e, 0x0f, 0x10, 0x11, 0x12, 0x24]

theorem major_or_system_of_noRepeat {i : Instr} (h : noRepeat i = true) :
    repMajor i ∈ bannedMajors ∨ ∃ m n, i = .svc m n ∨ i = .brk m n ∨ i = .eret m := by
  unfold noRepeat at h
  split at h
  case h_14 m n => exact .inr ⟨m, n, .inl rfl⟩
  case h_15 m n => exact .inr ⟨m, n, .inr (.inl rfl)⟩
  case h_16 m => exact .inr ⟨m, 0, .inr (.inr rfl)⟩
  case h_17 => cases h
  all_goals exact .inl (by simp [repMajor, bannedMajors])

theorem repeatable_eq_false_iff {w : BitVec 32} {i : Instr} (ok : decode w = .ok i) :
    repeatable w = false ↔ w.toNat / 2 ^ 26 ∈ bannedMajors ∨ noRepeat i = true := by
  have majors (k : Nat) : k ∈ bannedMajors ↔ (0x0e ≤ k ∧ k ≤ 0x12) ∨ k = 0x24 := by simp [bannedMajors]; omega
  rw [majors]
  unfold repeatable
  rw [ok]
  simp only [Bool.and_eq_false_iff, Bool.not_eq_false', Bool.and_eq_true, decide_eq_true_eq, bne_eq_false_iff_eq]

/-- A word that decodes may stand under rep unless R120 names it. -/
theorem not_repeatable_iff {w : BitVec 32} {i : Instr} (ok : decode w = .ok i) :
    repeatable w = false ↔ w.toNat / 2 ^ 26 ∈ bannedMajors ∨ ∃ m n, i = .svc m n ∨ i = .brk m n ∨ i = .eret m := by
  rw [repeatable_eq_false_iff ok]
  refine ⟨fun h => h.elim .inl fun banned => ?_, fun h => h.imp_right ?_⟩
  · refine (major_or_system_of_noRepeat banned).imp_left fun major => ?_
    rwa [major_of_decode ok fun other => by rw [other] at major; exact absurd major (by decide)]
  · rintro ⟨m, n, rfl | rfl | rfl⟩ <;> rfl

/-- Settles O17. -/
theorem loopAndRepeatWords : Obligations.LoopAndRepeatWords := by
  refine ⟨fun m lv a wide cnt fin s hr alone => ?_, fun m a cnt sd sa sb s w hr alone behind => ?_, fun w i ok => ?_⟩
  · intro armed effect
    have effect_of (n : W) (e : Nat) : effect n e (loopWord m lv n e s) := by
      by_cases zero : n = 0
      · subst zero; exact (if_pos rfl).mpr (loopWord_skips m lv e alone)
      · obtain ⟨place, word, strand, ctl⟩ := loopWord_armed m lv zero e alone
        exact (if_neg zero).mpr ⟨place, word, strand, ctl⟩
    exact ⟨fun hf => ⟨_, issueWord_next hr hf fun s => loopWord m lv (rd s a 1) wide.toNat s, effect_of ..⟩,
      ⟨_, issueWord_next hr (fits_nil s) (loopWord m lv (uimm cnt) fin.toNat), effect_of ..⟩⟩
  · intro effect
    have effect_of (n : BitVec 32) : effect n ((issue m s).modMe (·.startRep n)) := repStarts m n alone
    have starts (may : repeatable w = true) (n : State → BitVec 32) : repWord m n s = (issue m s).modMe (·.startRep (n s)) :=
      (repWord_eq behind m n).trans (if_pos may)
    have illegal (may : repeatable w = false) (n : State → BitVec 32) : repWord m n s = trap s 0x01 0 (w.setWidth 64) :=
      (repWord_eq behind m n).trans (if_neg (by rw [may]; exact Bool.false_ne_true))
    refine ⟨fun may hf => ⟨_, (exec_rep hr behind m a sd sa sb fun _ => hf).trans (congrArg _ (starts may _)), effect_of _⟩,
      fun may => ⟨_, (exec_repImm hr m cnt sd sa sb).trans (congrArg _ (starts may _)), effect_of _⟩, fun may => ?_, fun may => ?_⟩
    · exact (exec_repImm hr m cnt sd sa sb).trans (congrArg _ (illegal may _))
    · exact (exec_rep hr behind m a sd sa sb fun c => absurd c (by rw [may]; exact Bool.false_ne_true)).trans (congrArg _ (illegal may _))
  · exact not_repeatable_iff ok

end Sys2Proof.Machine
end

section
/-! PROOF. An iteration of a repeated word: its fields stepped, the checks in their order, what it leaves of the repetition
(04 R121, R122). -/

namespace Sys2Proof

/-! Bits of a word with a field replaced. -/

theorem testBit_bits (v lo len i : Nat) : (bits v lo len).testBit i = (decide (i < len) && v.testBit (lo + i)) := by
  rw [bits, Nat.testBit_mod_two_pow, Nat.testBit_div_two_pow, Nat.add_comm]

theorem bits_setBits_same (v lo len x : Nat) : bits (setBits v lo len x) lo len = x % 2 ^ len := by
  apply Nat.eq_of_testBit_eq
  intro i
  rw [testBit_bits, Nat.testBit_mod_two_pow, Machine.testBit_setBits]
  by_cases h : i < len
  · rw [if_pos ⟨Nat.le_add_right .., by omega⟩, Nat.add_sub_cancel_left]
  · rw [decide_eq_false h, Bool.false_and, Bool.false_and]

theorem bits_setBits_apart {v lo len x p k : Nat} (h : p + k ≤ lo ∨ lo + len ≤ p) : bits (setBits v lo len x) p k = bits v p k := by
  apply Nat.eq_of_testBit_eq
  intro i
  rw [testBit_bits, testBit_bits, Machine.testBit_setBits]
  by_cases hi : i < k
  · rw [if_neg (by omega)]
  · rw [decide_eq_false hi, Bool.false_and, Bool.false_and]

theorem setBits_bits_self (v lo len : Nat) : setBits v lo len (bits v lo len) = v := by
  apply Nat.eq_of_testBit_eq
  intro i
  rw [Machine.testBit_setBits]
  split
  · rw [testBit_bits, decide_eq_true (by omega), Bool.true_and]; congr 1; omega
  · rfl

theorem fld_congr {k n n' lo : Nat} (h : bits n' lo k = bits n lo k) : fld k n' lo = fld k n lo := by rw [fld_eq_bits, h, fld_eq_bits]

theorem fld_setBits (v lo k x : Nat) : fld k (setBits v lo k x) lo = BitVec.ofNat k x := by
  rw [fld_eq_bits, bits_setBits_same]
  exact BitVec.eq_of_toNat_eq (by rw [BitVec.toNat_ofNat, BitVec.toNat_ofNat, Nat.mod_mod])

/-- The word w with d, a and b in its three register positions (R73). -/
def withRegs (w d a b : Nat) : Nat := setBits (setBits (setBits w 18 5 d) 13 5 a) 8 5 b

theorem bits_withRegs_rest (w d a b : Nat) {lo k : Nat} (h : lo + k ≤ 8 ∨ 23 ≤ lo) : bits (withRegs w d a b) lo k = bits w lo k := by
  unfold withRegs
  rw [bits_setBits_apart (by omega), bits_setBits_apart (by omega), bits_setBits_apart (by omega)]

theorem fld_withRegs_d (w d a b : Nat) : fld 5 (withRegs w d a b) 18 = BitVec.ofNat 5 d := by
  unfold withRegs
  rw [fld_congr (bits_setBits_apart (by omega)), fld_congr (bits_setBits_apart (by omega)), fld_setBits]

theorem fld_withRegs_a (w d a b : Nat) : fld 5 (withRegs w d a b) 13 = BitVec.ofNat 5 a := by
  unfold withRegs
  rw [fld_congr (bits_setBits_apart (by omega)), fld_setBits]

theorem fld_withRegs_b (w d a b : Nat) : fld 5 (withRegs w d a b) 8 = BitVec.ofNat 5 b := fld_setBits ..

/-- Without a register at b nothing below a changes. -/
theorem bits_withRegs_low (w d a : Nat) {lo k : Nat} (h : lo + k ≤ 13) : bits (withRegs w d a (bits w 8 5)) lo k = bits w lo k := by
  have same : bits w 8 5 = bits (setBits (setBits w 18 5 d) 13 5 a) 8 5 := by
    rw [bits_setBits_apart (by omega), bits_setBits_apart (by omega)]
  unfold withRegs
  rw [same, setBits_bits_self, bits_setBits_apart (by omega), bits_setBits_apart (by omega)]

/-! Words that read alike but for the fields that step (R73, R121). -/

/-- The parts of a MEM-format word: its form, and its fields. -/
def memParts : Instr → Option ((Marks → Sreg → Sreg → BitVec 4 → BitVec 6 → Instr) × Marks × Sreg × Sreg × BitVec 4 × BitVec 6)
  | .ldB m d a c o => some (.ldB, m, d, a, c, o)
  | .ldBu m d a c o => some (.ldBu, m, d, a, c, o)
  | .ldH m d a c o => some (.ldH, m, d, a, c, o)
  | .ldHu m d a c o => some (.ldHu, m, d, a, c, o)
  | .ldW m d a c o => some (.ldW, m, d, a, c, o)
  | .ldWu m d a c o => some (.ldWu, m, d, a, c, o)
  | .ldD m d a c o => some (.ldD, m, d, a, c, o)
  | .stB m d a c o => some (.stB, m, d, a, c, o)
  | .stH m d a c o => some (.stH, m, d, a, c, o)
  | .stW m d a c o => some (.stW, m, d, a, c, o)
  | .stD m d a c o => some (.stD, m, d, a, c, o)
  | .ldqB m d a c o => some (.ldqB, m, d, a, c, o)
  | .ldqBu m d a c o => some (.ldqBu, m, d, a, c, o)
  | .ldqH m d a c o => some (.ldqH, m, d, a, c, o)
  | .ldqHu m d a c o => some (.ldqHu, m, d, a, c, o)
  | .ldqW m d a c o => some (.ldqW, m, d, a, c, o)
  | .ldqWu m d a c o => some (.ldqWu, m, d, a, c, o)
  | .ldqD m d a c o => some (.ldqD, m, d, a, c, o)
  | _ => none

/-- Two words have the same major, the same marks and the same bits from lo on. -/
structure Alike (n n' lo k : Nat) : Prop where
  major : n' / 2 ^ 26 % 2 ^ 6 = n / 2 ^ 26 % 2 ^ 6
  marks : marksOf n' = marksOf n
  code : bits n' lo k = bits n lo k

section
variable {n n' : Nat} {m : Marks} {d a b c : Sreg}

theorem decodeNat_add (alike : Alike n n' 0 8) (major : n / 2 ^ 26 % 2 ^ 6 = 0x01) (ok : decodeNat n = .ok (.add m d a b)) :
    d = fld 5 n 18 ∧ a = fld 5 n 13 ∧ b = fld 5 n 8 ∧
      decodeNat n' = .ok (.add m (fld 5 n' 18) (fld 5 n' 13) (fld 5 n' 8)) := by
  have func : n' % 2 ^ 8 = n % 2 ^ 8 := by rw [mod_eq_bits, alike.code, mod_eq_bits]
  rw [Machine.decodeNat_of_alu3 major] at ok
  rw [Machine.decodeNat_of_alu3 (alike.major.trans major)]
  unfold decodeAlu3 at ok ⊢
  rw [func, alike.marks]
  split at ok
  case h_1 => cases ok; exact ⟨rfl, rfl, rfl, rfl⟩
  all_goals cases ok

theorem decodeNat_addi (alike : Alike n n' 0 13) (major : n / 2 ^ 26 % 2 ^ 6 = 0x02) {i : BitVec 13}
    (ok : decodeNat n = .ok (.addi m d a i)) :
    d = fld 5 n 18 ∧ a = fld 5 n 13 ∧ decodeNat n' = .ok (.addi m (fld 5 n' 18) (fld 5 n' 13) i) := by
  unfold decodeNat at ok ⊢
  simp only [major, alike.major] at ok ⊢
  cases ok
  exact ⟨rfl, rfl, by rw [alike.marks, fld_congr alike.code]⟩

theorem decodeNat_fma (alike : Alike n n' 3 5) (major : n / 2 ^ 26 % 2 ^ 6 = 0x0d) (ok : decodeNat n = .ok (.fma m d a b c)) :
    d = fld 5 n 18 ∧ a = fld 5 n 13 ∧ b = fld 5 n 8 ∧
      decodeNat n' = .ok (.fma m (fld 5 n' 18) (fld 5 n' 13) (fld 5 n' 8) c) := by
  unfold decodeNat at ok ⊢
  simp only [major, alike.major] at ok ⊢
  cases ok
  exact ⟨rfl, rfl, rfl, by rw [alike.marks, fld_congr alike.code]⟩

theorem decodeNat_madd (alike : Alike n n' 3 5) (major : n / 2 ^ 26 % 2 ^ 6 = 0x27) (ok : decodeNat n = .ok (.madd m d a b c)) :
    d = fld 5 n 18 ∧ a = fld 5 n 13 ∧ b = fld 5 n 8 ∧
      decodeNat n' = .ok (.madd m (fld 5 n' 18) (fld 5 n' 13) (fld 5 n' 8) c) := by
  unfold decodeNat at ok ⊢
  simp only [major, alike.major] at ok ⊢
  cases ok
  exact ⟨rfl, rfl, rfl, by rw [alike.marks, fld_congr alike.code]⟩

theorem decodeNat_cas (alike : Alike n n' 0 8) (major : n / 2 ^ 26 % 2 ^ 6 = 0x17) (ok : decodeNat n = .ok (.cas m d a b c)) :
    d = fld 5 n 18 ∧ a = fld 5 n 13 ∧ b = fld 5 n 8 ∧
      (fld 5 n' 8 ≠ 0 → decodeNat n' = .ok (.cas m (fld 5 n' 18) (fld 5 n' 13) (fld 5 n' 8) c)) := by
  have code (lo k : Nat) (h : lo + k ≤ 8) : bits n' lo k = bits n lo k := by rw [← bits_bits h, alike.code, bits_bits h]
  have func : n' / 2 ^ 5 % 2 ^ 3 = n / 2 ^ 5 % 2 ^ 3 := code 5 3 (by omega)
  unfold decodeNat at ok ⊢
  simp only [major, alike.major] at ok ⊢
  unfold decodeCas at ok ⊢
  rw [func, alike.marks, fld_congr (code 0 5 (by omega))]
  split at ok
  case h_1 =>
    split at ok
    · cases ok
    · cases ok
      refine ⟨rfl, rfl, rfl, fun base => if_neg fun zero => base (BitVec.eq_of_toNat_eq ?_)⟩
      rw [fld_toNat]; exact zero
  case h_3 => split at ok <;> cases ok
  all_goals cases ok

/-- A word of a load, store or far-load form reads as that form. -/
theorem decodeNat_mem (alike : Alike n n' 6 3)
    (major : n / 2 ^ 26 % 2 ^ 6 = 0x13 ∨ n / 2 ^ 26 % 2 ^ 6 = 0x14 ∨ n / 2 ^ 26 % 2 ^ 6 = 0x15)
    {form : Marks → Sreg → Sreg → BitVec 4 → BitVec 6 → Instr} {cls : BitVec 4} {off : BitVec 6} {i : Instr}
    (parts : memParts i = some (form, m, d, a, cls, off)) (ok : decodeNat n = .ok i) :
    d = fld 5 n 18 ∧ a = fld 5 n 13 ∧ cls = fld 4 n 9 ∧ off = fld 6 n 0 ∧ n / 2 ^ 6 % 2 ^ 3 < 7 ∧
      decodeNat n' = .ok (form m (fld 5 n' 18) (fld 5 n' 13) (fld 4 n' 9) (fld 6 n' 0)) := by
  have func : n' / 2 ^ 6 % 2 ^ 3 = n / 2 ^ 6 % 2 ^ 3 := alike.code
  unfold decodeNat at ok ⊢
  rw [alike.major]
  rcases major with major | major | major
  all_goals
    simp only [major, decodeLd, decodeSt, decodeFar] at ok ⊢
    rw [func, alike.marks]
    repeat' split at ok
    all_goals cases ok <;> cases parts <;> exact ⟨rfl, rfl, rfl, rfl, by omega, rfl⟩

end

/-! The stepped values as fields. -/

theorem sx_eq_toInt (n : Nat) : sx n 6 = (fld 6 n 0).toInt := by
  rw [BitVec.toInt_eq_toNat_cond, fld_zero_toNat]
  unfold sx
  split <;> split <;> omega

theorem ofNat_toNat_eq_ofInt {k : Nat} {z : Int} (h : 0 ≤ z) : BitVec.ofNat k z.toNat = BitVec.ofInt k z := by
  obtain ⟨n, rfl⟩ := Int.eq_ofNat_of_zero_le h
  rw [Int.toNat_natCast, BitVec.ofInt_natCast]

theorem ofNat_emod_eq_ofInt6 (z : Int) : BitVec.ofNat 6 (z % 64).toNat = BitVec.ofInt 6 z := by
  apply BitVec.eq_of_toNat_eq
  rw [BitVec.toNat_ofNat, BitVec.toNat_ofInt]; omega

/-- The bits of a word are those of the number it is made of. -/
theorem bits_ofNat32 (x : Nat) {lo k : Nat} (h : lo + k ≤ 32) : bits (BitVec.ofNat 32 x).toNat lo k = bits x lo k := by
  rw [BitVec.toNat_ofNat, mod_eq_bits, bits_bits h]

theorem fld_ofNat32 (x : Nat) {lo k : Nat} (h : lo + k ≤ 32) : fld k (BitVec.ofNat 32 x).toNat lo = fld k x lo :=
  fld_congr (bits_ofNat32 x h)

theorem alike_of_bits {n x lo k : Nat} (top : bits x 26 6 = bits n 26 6) (marks : bits x 23 3 = bits n 23 3)
    (code : bits x lo k = bits n lo k) (h : lo + k ≤ 32) : Alike n (BitVec.ofNat 32 x).toNat lo k :=
  ⟨(bits_ofNat32 x (by decide)).trans top,
    by rw [marksOf_eq_ofCode, bits_ofNat32 x (by decide), marks, ← marksOf_eq_ofCode], (bits_ofNat32 x h).trans code⟩

theorem alike_withRegs (n d a b : Nat) {lo k : Nat} (h : lo + k ≤ 8) : Alike n (BitVec.ofNat 32 (withRegs n d a b)).toNat lo k :=
  alike_of_bits (bits_withRegs_rest _ _ _ _ (by omega)) (bits_withRegs_rest _ _ _ _ (by omega))
    (bits_withRegs_rest _ _ _ _ (by omega)) (by omega)

theorem alike_withRegs_low (n d a : Nat) {lo k : Nat} (h : lo + k ≤ 13) :
    Alike n (BitVec.ofNat 32 (withRegs n d a (bits n 8 5))).toNat lo k :=
  alike_of_bits (bits_withRegs_rest _ _ _ _ (by omega)) (bits_withRegs_rest _ _ _ _ (by omega)) (bits_withRegs_low _ _ _ h) (by omega)

/-- The word that iterates has in its register positions what they step to. -/
theorem fld_stepped_two (n b : Nat) {d a : Int} (hd : 0 ≤ d) (ha : 0 ≤ a) :
    let n' := (BitVec.ofNat 32 (withRegs n d.toNat a.toNat b)).toNat
    fld 5 n' 18 = BitVec.ofInt 5 d ∧ fld 5 n' 13 = BitVec.ofInt 5 a :=
  ⟨by rw [fld_ofNat32 _ (by decide), fld_withRegs_d, ofNat_toNat_eq_ofInt hd],
    by rw [fld_ofNat32 _ (by decide), fld_withRegs_a, ofNat_toNat_eq_ofInt ha]⟩

theorem fld_stepped (n : Nat) {d a b : Int} (hd : 0 ≤ d) (ha : 0 ≤ a) (hb : 0 ≤ b) :
    let n' := (BitVec.ofNat 32 (withRegs n d.toNat a.toNat b.toNat)).toNat
    fld 5 n' 18 = BitVec.ofInt 5 d ∧ fld 5 n' 13 = BitVec.ofInt 5 a ∧ fld 5 n' 8 = BitVec.ofInt 5 b := by
  obtain ⟨fd, fa⟩ := fld_stepped_two n b.toNat hd ha
  exact ⟨fd, fa, by rw [fld_ofNat32 _ (by decide), fld_withRegs_b, ofNat_toNat_eq_ofInt hb]⟩

/-- A MEM-format word with its registers and its offset stepped: its code, its class and its fields. -/
theorem reads_steppedMem (n : Nat) {d a : Int} (hd : 0 ≤ d) (ha : 0 ≤ a) (off : Int) :
    let n' := (BitVec.ofNat 32 (setBits (withRegs n d.toNat a.toNat (bits n 8 5)) 0 6 (off % 64).toNat)).toNat
    Alike n n' 6 3 ∧ fld 5 n' 18 = BitVec.ofInt 5 d ∧ fld 5 n' 13 = BitVec.ofInt 5 a ∧ fld 4 n' 9 = fld 4 n 9 ∧
      fld 6 n' 0 = BitVec.ofInt 6 off := by
  have above {lo k : Nat} (h : 6 ≤ lo) : bits (setBits (withRegs n d.toNat a.toNat (bits n 8 5)) 0 6 (off % 64).toNat) lo k =
      bits (withRegs n d.toNat a.toNat (bits n 8 5)) lo k := bits_setBits_apart (Or.inr h)
  refine ⟨alike_of_bits ?_ ?_ ?_ (by decide), ?_, ?_, ?_, ?_⟩
  · rw [above (by decide), bits_withRegs_rest _ _ _ _ (by decide)]
  · rw [above (by decide), bits_withRegs_rest _ _ _ _ (by decide)]
  · rw [above (by decide), bits_withRegs_low _ _ _ (by decide)]
  · rw [fld_ofNat32 _ (by decide), fld_congr (above (by decide)), fld_withRegs_d, ofNat_toNat_eq_ofInt hd]
  · rw [fld_ofNat32 _ (by decide), fld_congr (above (by decide)), fld_withRegs_a, ofNat_toNat_eq_ofInt ha]
  · rw [fld_ofNat32 _ (by decide), fld_congr (above (by decide)), fld_congr (bits_withRegs_low _ _ _ (by decide))]
  · rw [fld_ofNat32 _ (by decide), fld_setBits, ofNat_emod_eq_ofInt6]

end Sys2Proof

namespace Sys2Proof.Machine

/-! The checks of an iteration, in their order (R121). -/

/-- Of word w, which is i, the fields d and a step, and b where it is a register; d, a, b and off are what they and off6 step to. -/
structure Stepping (s : State) (w : Nat) (i : Instr) (sd sa sb : BitVec 3) (ub : Bool) (d a b off : Int) : Prop where
  runs : Runs s
  uses : stepsAt i = (true, true, ub)
  now : legalNow s i = true
  d_eq : stepped w 18 true sd (s.me.xrep >>> 32).toNat = d
  a_eq : stepped w 13 true sa (s.me.xrep >>> 32).toNat = a
  b_eq : stepped w 8 ub sb (s.me.xrep >>> 32).toNat = b
  off_eq : sx w 6 + sb.toInt * (s.me.xrep >>> 32).toNat = off

/-- The conditions that make the stepped word illegal. -/
def StepsIllegal (w : Nat) (i : Instr) (b off : Int) : Prop :=
  (pairBase i = true ∧ b = 0) ∨ (stepsOffset w = true ∧ (off < -32 ∨ 31 < off))

/-- The first field that a word uses outside an allotment of n registers. -/
def firstOutside (n : Nat) (fields : List (Bool × Int)) : Option (Bool × Int) :=
  fields.find? fun x => x.1 && (decide (x.2 < 0) || decide ((n : Int) ≤ x.2))

/-- The word that iterates: w with its stepped fields. -/
def steppedWord (w : Nat) (ub : Bool) (d a b off : Int) : Nat :=
  let x := withRegs w d.toNat a.toNat (if ub then b.toNat else bits w 8 5)
  if stepsOffset w then setBits x 0 6 (off % 64).toNat else x

section
variable {s : State} {w : Nat} {i : Instr} {sd sa sb : BitVec 3} {ub : Bool} {d a b off : Int}

theorem Stepping.iterate_illegal (h : Stepping s w i sd sa sb ub d a b off) (illegal : StepsIllegal w i b off) :
    iterate w i sd sa sb s = .next (trap s 0x01 0 (s.cur.word.setWidth 64)) := by
  obtain ⟨runs, uses, now, d_eq, a_eq, b_eq, off_eq⟩ := h
  unfold StepsIllegal at illegal
  unfold iterate
  simp only [uses, d_eq, a_eq, b_eq, off_eq]
  rw [if_pos (Or.inr illegal)]
  exact issueWord_next runs (fits_nil s) trapIllegal

theorem Stepping.iterate_outside (h : Stepping s w i sd sa sb ub d a b off) (legal : ¬StepsIllegal w i b off) {x : Bool × Int}
    (first : firstOutside s.me.allot [(true, d), (true, a), (ub, b), (pairBase i, b + 1)] = some x) :
    iterate w i sd sa sb s = .next (trap s 0x02 (BitVec.ofInt 16 x.2) (s.cur.word.setWidth 64)) := by
  obtain ⟨runs, uses, now, d_eq, a_eq, b_eq, off_eq⟩ := h
  unfold StepsIllegal at legal
  unfold firstOutside at first
  unfold iterate
  simp only [uses, now, d_eq, a_eq, b_eq, off_eq, Bool.true_eq_false, false_or]
  rw [if_neg legal, first]
  exact issueWord_next runs (fits_nil s) fun s => trap s 0x02 (BitVec.ofInt 16 x.2) (s.cur.word.setWidth 64)

theorem Stepping.iterate_goes (h : Stepping s w i sd sa sb ub d a b off) (legal : ¬StepsIllegal w i b off)
    (inside : firstOutside s.me.allot [(true, d), (true, a), (ub, b), (pairBase i, b + 1)] = none) {i' : Instr}
    (ok : decode (BitVec.ofNat 32 (steppedWord w ub d a b off)) = .ok i') : iterate w i sd sa sb s = execRepeated i' s := by
  obtain ⟨runs, uses, now, d_eq, a_eq, b_eq, off_eq⟩ := h
  unfold StepsIllegal at legal
  unfold firstOutside at inside
  unfold iterate
  simp only [uses, now, d_eq, a_eq, b_eq, off_eq, Bool.true_eq_false, false_or, if_true]
  unfold steppedWord withRegs at ok
  dsimp only at ok
  rw [if_neg legal, inside]
  dsimp only
  rw [ok]

end

/-- An iteration fetches the rep word and the repeated word again (R122). -/
theorem exec_repIteration {s : State} {w0 w : BitVec 32} {i0 i : Instr} {sd sa sb : BitVec 3} (under : s.me.inRep = true)
    (rep : fetch s s.cur.c s.me.pc = some w0) (ok0 : decode w0 = .ok i0) (steps : stepsOf i0 = some (sd, sa, sb))
    (behind : fetch s s.cur.c (s.me.pc + 4) = some w) (ok : decode w = .ok i) (may : repeatable w = true) :
    exec .repIteration s = iterate w.toNat i sd sa sb { s with cur := { s.cur with word := w } } := by
  show execRepIteration s = _
  unfold execRepIteration
  rw [if_neg (by rw [under]; exact Bool.noConfusion), rep]
  simp only [ok0, Except.toOption, Option.bind_some, steps, behind, ok, may, if_true]

/-! The stepped values, and the word that iterates. -/

theorem firstOutside_outside {n : Nat} {v : Int} (h : ¬(0 ≤ v ∧ v < n)) (fs : List (Bool × Int)) :
    firstOutside n ((true, v) :: fs) = some (true, v) := by
  refine List.find?_cons_of_pos ?_
  simp only [Bool.true_and, Bool.or_eq_true, decide_eq_true_eq]; omega

theorem firstOutside_inside {n : Nat} {v : Int} (h : 0 ≤ v ∧ v < n) (used : Bool) (fs : List (Bool × Int)) :
    firstOutside n ((used, v) :: fs) = firstOutside n fs := by
  refine List.find?_cons_of_neg ?_
  simp only [Bool.and_eq_true, Bool.or_eq_true, decide_eq_true_eq]; omega

theorem firstOutside_unused (n : Nat) (v : Int) (fs : List (Bool × Int)) : firstOutside n ((false, v) :: fs) = firstOutside n fs :=
  List.find?_cons_of_neg (by simp)

theorem firstOutside_nil (n : Nat) : firstOutside n [] = none := rfl

theorem stepped_used (n lo : Nat) (step : BitVec 3) (j : Nat) : stepped n lo true step j = (Sys2Proof.fld 5 n lo).toNat + step.toInt * j := by
  rw [stepped, fld_toNat]; rfl

theorem stepsOffset_of_major {n : Nat} (h : n / 2 ^ 26 ∉ [0x13, 0x14, 0x15]) : stepsOffset n = false := by
  simp only [List.mem_cons, List.not_mem_nil, or_false, not_or] at h
  obtain ⟨ld, st, far⟩ := h
  unfold stepsOffset
  simp only [beq_eq_false_iff_ne.mpr ld, beq_eq_false_iff_ne.mpr st, beq_eq_false_iff_ne.mpr far, Bool.false_and, Bool.or_self]

theorem not_stepsIllegal {w : Nat} {i : Instr} {b off : Int} (base : pairBase i = true → b ≠ 0)
    (near : stepsOffset w = true → -32 ≤ off ∧ off ≤ 31) : ¬StepsIllegal w i b off := by
  rintro (⟨pair, zero⟩ | ⟨mem, far⟩)
  · exact base pair zero
  · have := near mem; omega

/-- A stepped field lies in the allotment. -/
def Inside (s : State) (v : Int) : Prop := 0 ≤ v ∧ v < s.me.allot

section
variable {s : State} {w : Nat} {i : Instr} {sd sa sb : BitVec 3} {ub : Bool} {d a b off : Int}
  (h : Stepping s w i sd sa sb ub d a b off) (base : pairBase i = true → b ≠ 0) (near : stepsOffset w = true → -32 ≤ off ∧ off ≤ 31)
include h base near

theorem Stepping.outside_d (hd : ¬Inside s d) :
    iterate w i sd sa sb s = .next (trap s 0x02 (BitVec.ofInt 16 d) (s.cur.word.setWidth 64)) :=
  h.iterate_outside (not_stepsIllegal base near) (x := (true, d)) (firstOutside_outside hd _)

theorem Stepping.outside_a (hd : Inside s d) (ha : ¬Inside s a) :
    iterate w i sd sa sb s = .next (trap s 0x02 (BitVec.ofInt 16 a) (s.cur.word.setWidth 64)) :=
  h.iterate_outside (not_stepsIllegal base near) (x := (true, a)) (by rw [firstOutside_inside hd, firstOutside_outside ha])

theorem Stepping.outside_b (used : ub = true) (hd : Inside s d) (ha : Inside s a) (hb : ¬Inside s b) :
    iterate w i sd sa sb s = .next (trap s 0x02 (BitVec.ofInt 16 b) (s.cur.word.setWidth 64)) :=
  h.iterate_outside (not_stepsIllegal base near) (x := (true, b))
    (by rw [firstOutside_inside hd, firstOutside_inside ha, used, firstOutside_outside hb])

theorem Stepping.outside_pair (pair : pairBase i = true) (hd : Inside s d) (ha : Inside s a) (hb : Inside s b) (hp : ¬Inside s (b + 1)) :
    iterate w i sd sa sb s = .next (trap s 0x02 (BitVec.ofInt 16 (b + 1)) (s.cur.word.setWidth 64)) :=
  h.iterate_outside (not_stepsIllegal base near) (x := (true, b + 1))
    (by rw [firstOutside_inside hd, firstOutside_inside ha, firstOutside_inside hb, pair, firstOutside_outside hp])

theorem Stepping.goes (hd : Inside s d) (ha : Inside s a) (hb : ub = true → Inside s b) (hp : pairBase i = true → Inside s (b + 1))
    {i' : Instr} (ok : decode (BitVec.ofNat 32 (steppedWord w ub d a b off)) = .ok i') : iterate w i sd sa sb s = execRepeated i' s := by
  have maybe {u : Bool} {v : Int} (hv : u = true → Inside s v) (fs : List (Bool × Int)) :
      firstOutside s.me.allot ((u, v) :: fs) = firstOutside s.me.allot fs := by
    cases u with
    | true => exact firstOutside_inside (hv rfl) ..
    | false => exact firstOutside_unused ..
  refine h.iterate_goes (not_stepsIllegal base near) ?_ ok
  rw [firstOutside_inside hd, firstOutside_inside ha, maybe hb, maybe hp, firstOutside_nil]

end

theorem steppedWord_regs {n : Nat} (h : stepsOffset n = false) (d a b off : Int) :
    steppedWord n true d a b off = withRegs n d.toNat a.toNat b.toNat := by
  unfold steppedWord; dsimp only; rw [h]; rfl

theorem steppedWord_two {n : Nat} (h : stepsOffset n = false) (d a b off : Int) :
    steppedWord n false d a b off = withRegs n d.toNat a.toNat (bits n 8 5) := by
  unfold steppedWord; dsimp only; rw [h]; rfl

theorem steppedWord_mem {n : Nat} (h : stepsOffset n = true) (d a b off : Int) :
    steppedWord n false d a b off = setBits (withRegs n d.toNat a.toNat (bits n 8 5)) 0 6 (off % 64).toNat := by
  unfold steppedWord; dsimp only; rw [h]; rfl

/-- What a rep word under way finds: itself, its steps, and the word behind it. -/
structure UnderRep (s : State) (w : BitVec 32) (sd sa sb : BitVec 3) : Prop where
  runs : Runs s
  under : s.me.inRep = true
  rep : ∃ w0 i0, fetch s s.cur.c s.me.pc = some w0 ∧ decode w0 = .ok i0 ∧ stepsOf i0 = some (sd, sa, sb)
  behind : fetch s s.cur.c (s.me.pc + 4) = some w

/-- The machine at an iteration of word w. -/
def atWord (s : State) (w : BitVec 32) : State := { s with cur := { s.cur with word := w } }

/-- A field of the word, stepped. -/
def steps (s : State) (f : Sreg) (step : BitVec 3) : Int := f.toNat + step.toInt * (s.me.xrep >>> 32).toNat

section
variable {s : State} {w : BitVec 32} {sd sa sb : BitVec 3} {i : Instr}

theorem UnderRep.exec_eq (h : UnderRep s w sd sa sb) (ok : decode w = .ok i) (known : repMajor i ≠ 64)
    (unbanned : repMajor i ∉ bannedMajors) (free : noRepeat i = false) : exec .repIteration s = iterate w.toNat i sd sa sb (atWord s w) := by
  obtain ⟨runs, under, ⟨w0, i0, rep, ok0, stepsOf_eq⟩, behind⟩ := h
  refine exec_repIteration under rep ok0 stepsOf_eq behind ok (Bool.eq_true_of_not_eq_false fun banned => ?_)
  rcases (repeatable_eq_false_iff ok).mp banned with major | no
  · exact unbanned (major_of_decode ok known ▸ major)
  · rw [free] at no; cases no

theorem UnderRep.stepping_three (h : UnderRep s w sd sa sb) {d a b : Sreg} (uses : stepsAt i = (true, true, true))
    (now : legalNow (atWord s w) i = true) (hd : d = Sys2Proof.fld 5 w.toNat 18) (ha : a = Sys2Proof.fld 5 w.toNat 13)
    (hb : b = Sys2Proof.fld 5 w.toNat 8) :
    Stepping (atWord s w) w.toNat i sd sa sb true (steps s d sd) (steps s a sa) (steps s b sb)
      (sx w.toNat 6 + sb.toInt * (s.me.xrep >>> 32).toNat) := by
  subst hd ha hb
  exact ⟨h.runs, uses, now, stepped_used .., stepped_used .., stepped_used .., rfl⟩

theorem UnderRep.stepping_two (h : UnderRep s w sd sa sb) {d a : Sreg} (uses : stepsAt i = (true, true, false))
    (now : legalNow (atWord s w) i = true) (hd : d = Sys2Proof.fld 5 w.toNat 18) (ha : a = Sys2Proof.fld 5 w.toNat 13) :
    Stepping (atWord s w) w.toNat i sd sa sb false (steps s d sd) (steps s a sa) (stepped w.toNat 8 false sb (s.me.xrep >>> 32).toNat)
      ((Sys2Proof.fld 6 w.toNat 0).toInt + sb.toInt * (s.me.xrep >>> 32).toNat) := by
  subst hd ha
  exact ⟨h.runs, uses, now, stepped_used .., stepped_used .., rfl, by rw [sx_eq_toInt]; rfl⟩

end

theorem Strand.allot_le (t : Strand) : t.allot ≤ 32 := by unfold allot; omega

theorem toNat_ofInt_of_inside {s : State} {v : Int} (h : Inside s v) : ((BitVec.ofInt 5 v).toNat : Int) = v := by
  have := s.me.allot_le
  obtain ⟨lo, hi⟩ := h
  rw [BitVec.toNat_ofInt]; omega

/-- An iteration of word w, which is i, with what its fields step to, is i' where nothing traps. -/
structure Iterates (s : State) (w : BitVec 32) (sd sa sb : BitVec 3) (i : Instr) (ub : Bool) (d a b off : Int) (i' : Instr) : Prop where
  exec_eq : exec .repIteration s = iterate w.toNat i sd sa sb (atWord s w)
  stepping : Stepping (atWord s w) w.toNat i sd sa sb ub d a b off
  decoded : 0 ≤ d → 0 ≤ a → (ub = true → 0 ≤ b) → (pairBase i = true → BitVec.ofInt 5 b ≠ 0) →
    decode (BitVec.ofNat 32 (steppedWord w.toNat ub d a b off)) = .ok i'
  performs : execRepeated i' (atWord s w) = exec i' (atWord s w)
  offsets : stepsOffset w.toNat = (memParts i).isSome

theorem Iterates.goes {s : State} {w : BitVec 32} {sd sa sb : BitVec 3} {i i' : Instr} {ub : Bool} {d a b off : Int}
    (h : Iterates s w sd sa sb i ub d a b off i') (base : pairBase i = true → ub = true ∧ b ≠ 0)
    (near : (memParts i).isSome = true → -32 ≤ off ∧ off ≤ 31) (hd : Inside s d) (ha : Inside s a) (hb : ub = true → Inside s b)
    (hp : pairBase i = true → Inside s (b + 1)) : exec .repIteration s = exec i' (atWord s w) := by
  have nonzero (pair : pairBase i = true) : BitVec.ofInt 5 b ≠ 0 := fun zero => by
    have same := toNat_ofInt_of_inside (hb (base pair).1)
    rw [zero] at same
    exact (base pair).2 same.symm
  have ok := h.decoded hd.1 ha.1 (fun used => (hb used).1) nonzero
  exact h.exec_eq.trans ((h.stepping.goes (fun pair => (base pair).2) (h.offsets ▸ near) hd ha hb hp ok).trans h.performs)

/-- The majors of the words with registers in all three positions whose stepping is stated. -/
def threeMajors : List Nat := [0x01, 0x0d, 0x17, 0x27]

theorem threeMajors_plain : ∀ k ∈ threeMajors, k ≠ 64 ∧ k ∉ bannedMajors ∧ k ∉ [0x13, 0x14, 0x15] := by decide

/-- What the forms of loads, stores and far loads have in common. -/
theorem memParts_facts {i : Instr} {form : Marks → Sreg → Sreg → BitVec 4 → BitVec 6 → Instr} {m : Marks} {d a : Sreg} {cls : BitVec 4}
    {off : BitVec 6} (parts : memParts i = some (form, m, d, a, cls, off)) :
    stepsAt i = (true, true, false) ∧ pairBase i = false ∧ noRepeat i = false ∧ (∀ s, legalNow s i = true) ∧
      (∀ m d a c o s, execRepeated (form m d a c o) s = exec (form m d a c o) s) ∧ repMajor i ∈ [0x13, 0x14, 0x15] := by
  unfold memParts at parts
  split at parts
  all_goals cases parts
  all_goals exact ⟨rfl, rfl, rfl, fun _ => rfl, fun _ _ _ _ _ _ => rfl, by simp [repMajor]⟩

theorem memMajors_plain : ∀ k ∈ [0x13, 0x14, 0x15], k ≠ 64 ∧ k ∉ bannedMajors := by decide

section
variable {s : State} {w : BitVec 32} {sd sa sb : BitVec 3} (h : UnderRep s w sd sa sb) {m : Marks} {d a b c : Sreg}
include h

/-- A word with registers in all three positions reads, with its fields stepped, as its form of them. -/
theorem UnderRep.three {i : Instr} {form : Sreg → Sreg → Sreg → Instr} {lo k : Nat} (ok : decode w = .ok i) (three : repMajor i ∈ threeMajors)
    (notMem : memParts i = none) (free : noRepeat i = false) (uses : stepsAt i = (true, true, true)) (now : legalNow (atWord s w) i = true)
    (low : lo + k ≤ 8)
    (reads : ∀ n', Alike w.toNat n' lo k → d = Sys2Proof.fld 5 w.toNat 18 ∧ a = Sys2Proof.fld 5 w.toNat 13 ∧ b = Sys2Proof.fld 5 w.toNat 8 ∧
      ((pairBase i = true → Sys2Proof.fld 5 n' 8 ≠ 0) →
        decodeNat n' = .ok (form (Sys2Proof.fld 5 n' 18) (Sys2Proof.fld 5 n' 13) (Sys2Proof.fld 5 n' 8))))
    (performs : ∀ x y z u, execRepeated (form x y z) u = exec (form x y z) u) :
    Iterates s w sd sa sb i true (steps s d sd) (steps s a sa) (steps s b sb) (sx w.toNat 6 + sb.toInt * (s.me.xrep >>> 32).toNat)
      (form (BitVec.ofInt 5 (steps s d sd)) (BitVec.ofInt 5 (steps s a sa)) (BitVec.ofInt 5 (steps s b sb))) := by
  obtain ⟨known, unbanned, noOff⟩ := threeMajors_plain _ three
  obtain ⟨hd, ha, hb, -⟩ := reads _ ⟨rfl, rfl, rfl⟩
  have offset : stepsOffset w.toNat = false := stepsOffset_of_major (major_of_decode ok known ▸ noOff)
  refine ⟨h.exec_eq ok known unbanned free, h.stepping_three uses now hd ha hb, fun d0 a0 b0 base => ?_, performs ..,
    by rw [offset, notMem]; rfl⟩
  obtain ⟨fd, fa, fb⟩ := fld_stepped w.toNat d0 a0 (b0 rfl)
  rw [steppedWord_regs offset, ← fd, ← fa, ← fb]
  exact (reads _ (alike_withRegs _ _ _ _ low)).2.2.2 fun pair => by rw [fb]; exact base pair

theorem UnderRep.add (ok : decode w = .ok (.add m d a b)) :
    Iterates s w sd sa sb (.add m d a b) true (steps s d sd) (steps s a sa) (steps s b sb)
      (sx w.toNat 6 + sb.toInt * (s.me.xrep >>> 32).toNat)
      (.add m (BitVec.ofInt 5 (steps s d sd)) (BitVec.ofInt 5 (steps s a sa)) (BitVec.ofInt 5 (steps s b sb))) := by
  have major : w.toNat / 2 ^ 26 = 0x01 := major_of_decode ok (by decide : 0x01 ≠ 64)
  refine h.three (form := .add m) (lo := 0) (k := 8) ok (by decide : 0x01 ∈ threeMajors) rfl rfl rfl rfl (by decide)
    (fun n' alike => ?_) fun _ _ _ _ => rfl
  obtain ⟨hd, ha, hb, reads⟩ := decodeNat_add alike ((major_mod w).trans major) ok
  exact ⟨hd, ha, hb, fun _ => reads⟩

theorem UnderRep.fma (ok : decode w = .ok (.fma m d a b c)) :
    Iterates s w sd sa sb (.fma m d a b c) true (steps s d sd) (steps s a sa) (steps s b sb)
      (sx w.toNat 6 + sb.toInt * (s.me.xrep >>> 32).toNat)
      (.fma m (BitVec.ofInt 5 (steps s d sd)) (BitVec.ofInt 5 (steps s a sa)) (BitVec.ofInt 5 (steps s b sb)) c) := by
  have major : w.toNat / 2 ^ 26 = 0x0d := major_of_decode ok (by decide : 0x0d ≠ 64)
  refine h.three (form := (.fma m · · · c)) (lo := 3) (k := 5) ok (by decide : 0x0d ∈ threeMajors) rfl rfl rfl rfl (by decide)
    (fun n' alike => ?_) fun _ _ _ _ => rfl
  obtain ⟨hd, ha, hb, reads⟩ := decodeNat_fma alike ((major_mod w).trans major) ok
  exact ⟨hd, ha, hb, fun _ => reads⟩

theorem UnderRep.madd (ok : decode w = .ok (.madd m d a b c)) :
    Iterates s w sd sa sb (.madd m d a b c) true (steps s d sd) (steps s a sa) (steps s b sb)
      (sx w.toNat 6 + sb.toInt * (s.me.xrep >>> 32).toNat)
      (.madd m (BitVec.ofInt 5 (steps s d sd)) (BitVec.ofInt 5 (steps s a sa)) (BitVec.ofInt 5 (steps s b sb)) c) := by
  have major : w.toNat / 2 ^ 26 = 0x27 := major_of_decode ok (by decide : 0x27 ≠ 64)
  refine h.three (form := (.madd m · · · c)) (lo := 3) (k := 5) ok (by decide : 0x27 ∈ threeMajors) rfl rfl rfl rfl (by decide)
    (fun n' alike => ?_) fun _ _ _ _ => rfl
  obtain ⟨hd, ha, hb, reads⟩ := decodeNat_madd alike ((major_mod w).trans major) ok
  exact ⟨hd, ha, hb, fun _ => reads⟩

theorem UnderRep.cas (ok : decode w = .ok (.cas m d a b c)) :
    Iterates s w sd sa sb (.cas m d a b c) true (steps s d sd) (steps s a sa) (steps s b sb)
      (sx w.toNat 6 + sb.toInt * (s.me.xrep >>> 32).toNat)
      (.cas m (BitVec.ofInt 5 (steps s d sd)) (BitVec.ofInt 5 (steps s a sa)) (BitVec.ofInt 5 (steps s b sb)) c) := by
  have major : w.toNat / 2 ^ 26 = 0x17 := major_of_decode ok (by decide : 0x17 ≠ 64)
  refine h.three (form := (.cas m · · · c)) (lo := 0) (k := 8) ok (by decide : 0x17 ∈ threeMajors) rfl rfl rfl rfl (by decide)
    (fun n' alike => ?_) fun _ _ _ _ => rfl
  obtain ⟨hd, ha, hb, reads⟩ := decodeNat_cas alike ((major_mod w).trans major) ok
  exact ⟨hd, ha, hb, fun base => reads (base rfl)⟩

theorem UnderRep.addi {imm : BitVec 13} (ok : decode w = .ok (.addi m d a imm)) :
    Iterates s w sd sa sb (.addi m d a imm) false (steps s d sd) (steps s a sa)
      (stepped w.toNat 8 false sb (s.me.xrep >>> 32).toNat) ((Sys2Proof.fld 6 w.toNat 0).toInt + sb.toInt * (s.me.xrep >>> 32).toNat)
      (.addi m (BitVec.ofInt 5 (steps s d sd)) (BitVec.ofInt 5 (steps s a sa)) imm) := by
  have major : w.toNat / 2 ^ 26 = 0x02 := major_of_decode ok (by decide : 0x02 ≠ 64)
  have noOff : stepsOffset w.toNat = false := stepsOffset_of_major (by rw [major]; decide)
  have reads {n' : Nat} (alike : Alike w.toNat n' 0 13) := decodeNat_addi alike ((major_mod w).trans major) ok
  obtain ⟨hd, ha, -⟩ := reads ⟨rfl, rfl, rfl⟩
  refine ⟨h.exec_eq ok (by decide : 0x02 ≠ 64) (by decide : 0x02 ∉ bannedMajors) rfl, h.stepping_two rfl rfl hd ha,
    fun d0 a0 _ _ => ?_, rfl, noOff⟩
  obtain ⟨fd, fa⟩ := fld_stepped_two w.toNat (bits w.toNat 8 5) d0 a0
  rw [steppedWord_two noOff, ← fd, ← fa]
  exact (reads (alike_withRegs_low _ _ _ (by decide))).2.2

/-- A word of a load, store or far-load form reads as its form, with its offset stepped in place of b. -/
theorem UnderRep.mem {i : Instr} {form : Marks → Sreg → Sreg → BitVec 4 → BitVec 6 → Instr} {cls : BitVec 4} {off : BitVec 6}
    (parts : memParts i = some (form, m, d, a, cls, off)) (ok : decode w = .ok i) :
    Iterates s w sd sa sb i false (steps s d sd) (steps s a sa)
      (stepped w.toNat 8 false sb (s.me.xrep >>> 32).toNat) (off.toInt + sb.toInt * (s.me.xrep >>> 32).toNat)
      (form m (BitVec.ofInt 5 (steps s d sd)) (BitVec.ofInt 5 (steps s a sa)) cls
        (BitVec.ofInt 6 (off.toInt + sb.toInt * (s.me.xrep >>> 32).toNat))) := by
  obtain ⟨uses, single, free, now, performs, majors⟩ := memParts_facts parts
  obtain ⟨known, unbanned⟩ := memMajors_plain _ majors
  have major := major_of_decode ok known
  rw [← major] at majors
  have reads {n' : Nat} (alike : Alike w.toNat n' 6 3) := decodeNat_mem alike (by rw [major_mod]; simpa using majors) parts ok
  obtain ⟨hd, ha, hc, ho, func, -⟩ := reads ⟨rfl, rfl, rfl⟩
  have offset : stepsOffset w.toNat = true := by
    unfold stepsOffset
    simp only [List.mem_cons, List.not_mem_nil, or_false] at majors
    obtain e | e | e := majors
    · rw [e]; rfl
    · rw [e]; rfl
    · rw [e, decide_eq_true (show w.toNat / 2 ^ 6 % 8 < 7 from func)]; rfl
  subst ho
  refine ⟨h.exec_eq ok known unbanned free, h.stepping_two uses (now _) hd ha, fun d0 a0 _ _ => ?_, performs .., by rw [offset, parts]; rfl⟩
  obtain ⟨alike, fd, fa, fc, fo⟩ := reads_steppedMem w.toNat d0 a0 ((Sys2Proof.fld 6 w.toNat 0).toInt + sb.toInt * (s.me.xrep >>> 32).toNat)
  rw [steppedWord_mem offset, ← fd, ← fa, hc, ← fc, ← fo]
  exact (reads alike).2.2.2.2.2

end

/-! What an iteration leaves of its repetition (R121, R122). -/

theorem endCheck_rest (t : Strand) (w next : W) : { endCheck t w next with pc := t.pc, loop0 := t.loop0, loop1 := t.loop1 } = t :=
  congrArg (fun u : Strand => { u with pc := t.pc }) (loopCheck_rest t w)

/-- The last iteration ends the repetition, and the repeated word is checked. -/
theorem Strand.advance_ends {t : Strand} (under : t.inRep = true) (last : t.xrep.toNat % 2 ^ 32 ≤ 1) :
    (t.advance none).xrep = 0 ∧ (t.advance none).inRep = false ∧ (t.advance none).place = bodyEnd t (t.pc + 4) (t.pc + 8) := by
  have count : (t.xrep.setWidth 32 : BitVec 32) = 1 ∨ (t.xrep.setWidth 32 : BitVec 32) = 0 := by
    have value : (t.xrep.setWidth 32 : BitVec 32).toNat = t.xrep.toNat % 2 ^ 32 := BitVec.toNat_setWidth ..
    rcases Nat.le_one_iff_eq_zero_or_eq_one.mp last with zero | one
    · exact .inr (BitVec.eq_of_toNat_eq (value.trans zero))
    · exact .inl (BitVec.eq_of_toNat_eq (value.trans one))
  have ends : t.advance none = t.endRep := by unfold advance; rw [if_pos under]; exact if_pos count
  have rest := endCheck_rest { t with xrep := 0, inRep := false } (t.pc + 4) (t.pc + 8)
  rw [ends]
  exact ⟨congrArg Strand.xrep rest, congrArg Strand.inRep rest, endCheck_place ..⟩

/-- Another iteration counts down and up. -/
theorem Strand.advance_counts {t : Strand} (under : t.inRep = true) (more : 1 < t.xrep.toNat % 2 ^ 32)
    (room : (t.xrep >>> 32).toNat + 1 < 2 ^ 32) :
    (t.advance none).inRep = true ∧ (t.advance none).pc = t.pc ∧ (t.advance none).xrep.toNat = t.xrep.toNat - 1 + 2 ^ 32 := by
  have count (k : BitVec 32) (hk : k.toNat ≤ 1) : (t.xrep.setWidth 32 : BitVec 32) ≠ k := fun e => by
    rw [← e, BitVec.toNat_setWidth] at hk; omega
  unfold advance
  rw [if_pos under]
  dsimp only
  rw [if_neg (not_or.mpr ⟨count 1 (by decide), count 0 (by decide)⟩)]
  have low : ((t.xrep.setWidth 32 - 1 : BitVec 32).setWidth 64 : W).toNat = t.xrep.toNat % 2 ^ 32 - 1 := by
    have value : (t.xrep.setWidth 32 : BitVec 32).toNat = t.xrep.toNat % 2 ^ 32 := BitVec.toNat_setWidth ..
    rw [BitVec.toNat_setWidth, BitVec.toNat_sub, value]; simp; omega
  have high : (((t.xrep >>> 32).setWidth 32 + 1 : BitVec 32).setWidth 64 : W).toNat = (t.xrep >>> 32).toNat + 1 := by
    rw [BitVec.toNat_setWidth, BitVec.toNat_add, BitVec.toNat_setWidth]; simp at room ⊢; omega
  have fits : t.xrep.toNat % 2 ^ 32 - 1 < 2 ^ 32 := by omega
  refine ⟨under, rfl, ?_⟩
  have uncut : ((t.xrep >>> 32).toNat + 1) <<< 32 % 2 ^ 64 = ((t.xrep >>> 32).toNat + 1) <<< 32 :=
    Nat.mod_eq_of_lt (by rw [Nat.shiftLeft_eq]; omega)
  rw [BitVec.toNat_or, BitVec.toNat_shiftLeft, low, high, uncut, Nat.or_comm, ← Nat.shiftLeft_add_eq_or_of_lt fits, Nat.shiftLeft_eq]
  rw [BitVec.toNat_ushiftRight, Nat.shiftRight_eq_div_pow] at room ⊢
  omega

section
variable {s : State} {m : Marks} (under : s.me.inRep = true)
include under

theorem retire_ends (last : s.me.xrep.toNat % 2 ^ 32 ≤ 1) :
    (retire m s).me.xrep = 0 ∧ (retire m s).me.inRep = false ∧ (retire m s).me.place = bodyEnd s.me (s.me.pc + 4) (s.me.pc + 8) := by
  have inRep := issue_me_field (·.inRep) m s fun _ _ _ _ _ => rfl
  have xrep := issue_me_field (·.xrep) m s fun _ _ _ _ _ => rfl
  have check := issue_me_field (fun t => bodyEnd t (t.pc + 4) (t.pc + 8)) m s fun _ _ _ _ _ => rfl
  rw [retire, State.me_modMe, ← check]
  exact Strand.advance_ends (inRep.trans under) (by rw [xrep]; exact last)

theorem retire_counts (more : 1 < s.me.xrep.toNat % 2 ^ 32) (room : (s.me.xrep >>> 32).toNat + 1 < 2 ^ 32) :
    (retire m s).me.inRep = true ∧ (retire m s).me.pc = s.me.pc ∧ (retire m s).me.xrep.toNat = s.me.xrep.toNat - 1 + 2 ^ 32 := by
  have inRep := issue_me_field (·.inRep) m s fun _ _ _ _ _ => rfl
  have xrep := issue_me_field (·.xrep) m s fun _ _ _ _ _ => rfl
  have pc := issue_me_field (·.pc) m s fun _ _ _ _ _ => rfl
  rw [retire, State.me_modMe, ← pc, ← xrep]
  exact Strand.advance_counts (inRep.trans under) (by rw [xrep]; exact more) (by rw [xrep]; exact room)

end

/-- An add under rep writes its sum, and its repetition counts or ends. -/
theorem add_under_rep {u : State} {m : Marks} {d a b : Sreg} (hr : Runs u) (hf : Fits u [d.toNat, a.toNat, b.toNat]) (under : u.me.inRep = true) :
    ∃ t, exec (.add m d a b) u = .next t ∧ t.me.regs.get d.toFin = rd u a 1 + rd u b 2 ∧
      (u.me.xrep.toNat % 2 ^ 32 ≤ 1 → t.me.xrep = 0 ∧ t.me.inRep = false ∧ t.me.place = bodyEnd u.me (u.me.pc + 4) (u.me.pc + 8)) ∧
      (1 < u.me.xrep.toNat % 2 ^ 32 → (u.me.xrep >>> 32).toNat + 1 < 2 ^ 32 →
        t.me.inRep = true ∧ t.me.pc = u.me.pc ∧ t.me.xrep.toNat = u.me.xrep.toNat - 1 + 2 ^ 32) := by
  have me : (wr d (rd u a 1 + rd u b 2) 1 u).me = u.me.wrReg u.cycle d (rd u a 1 + rd u b 2) 1 none := State.me_modMe ..
  refine ⟨_, issueWord_next hr hf fun s => writeBack m d (rd s a 1 + rd s b 2) 1 s, (wr_retire m d _ 1 none u).1, fun last => ?_,
    fun more room => ?_⟩
  · have ends := retire_ends (m := m) (s := wr d (rd u a 1 + rd u b 2) 1 u) (by rw [me]; exact under) (by rw [me]; exact last)
    rw [me] at ends; exact ends
  · have counts := retire_counts (m := m) (s := wr d (rd u a 1 + rd u b 2) 1 u) (by rw [me]; exact under) (by rw [me]; exact more)
      (by rw [me]; exact room)
    rw [me] at counts; exact counts

theorem memParts_of_form {form : Marks → Sreg → Sreg → BitVec 4 → BitVec 6 → Instr}
    (mem : form ∈ [.ldB, .ldBu, .ldH, .ldHu, .ldW, .ldWu, .ldD, .stB, .stH, .stW, .stD, .ldqB, .ldqBu, .ldqH, .ldqHu, .ldqW, .ldqWu, .ldqD])
    (m : Marks) (d a : Sreg) (cls : BitVec 4) (off : BitVec 6) : memParts (form m d a cls off) = some (form, m, d, a, cls, off) := by
  simp only [List.mem_cons, List.not_mem_nil, or_false] at mem
  rcases mem with rfl | rfl | rfl | rfl | rfl | rfl | rfl | rfl | rfl | rfl | rfl | rfl | rfl | rfl | rfl | rfl | rfl | rfl
  all_goals rfl

/-- Settles O18: an iteration is the repeated word with its fields stepped, or the first trap of its checks. -/
theorem repeatIteration : Obligations.RepeatIteration := by
  intro s i0 sd sa sb w0 w mi d a b hr under rep ok0 steps0 behind j u d' a' b' at_ fits illegal outside
  have h : UnderRep s w sd sa sb := by
    refine ⟨hr, under, ⟨w0, i0, rep, ok0, ?_⟩, behind⟩
    rcases steps0 with ⟨m, n, rfl⟩ | ⟨m, r, rfl⟩ <;> rfl
  refine ⟨fun ok => ?_, fun imm ok hd ha => ?_, fun c ok hd ha hb => ?_, fun c ok hd ha hb => ?_, fun form cls off mem ok => ?_,
    fun scope ok => ?_⟩
  · have it := h.add ok
    have near {P : Prop} (e : stepsOffset w.toNat = true) : P := by rw [it.offsets] at e; cases e
    refine ⟨fun hd ha hb => ?_, fun hd => ?_, fun hd ha => ?_, fun hd ha hb => ?_⟩
    · have goes := it.goes nofun nofun hd ha (fun _ => hb) nofun
      have below {v : Int} (hv : Inside s v) : (BitVec.ofInt 5 v).toNat < s.me.allot := by
        have := toNat_ofInt_of_inside hv; have := hv.2; omega
      have fit : Fits u [(at_ d').toNat, (at_ a').toNat, (at_ b').toNat] := by
        intro f hf
        simp only [List.mem_cons, List.not_mem_nil, or_false] at hf
        rcases hf with rfl | rfl | rfl
        · exact below hd
        · exact below ha
        · exact below hb
      obtain ⟨t, ht, rest⟩ := add_under_rep (u := u) (m := mi) hr fit under
      exact ⟨goes, t, goes.trans ht, rest⟩
    · exact it.exec_eq.trans (it.stepping.outside_d nofun near hd)
    · exact it.exec_eq.trans (it.stepping.outside_a nofun near hd ha)
    · exact it.exec_eq.trans (it.stepping.outside_b nofun near rfl hd ha hb)
  · exact (h.addi ok).goes nofun nofun hd ha nofun nofun
  · exact (h.fma ok).goes nofun nofun hd ha (fun _ => hb) nofun
  · exact (h.madd ok).goes nofun nofun hd ha (fun _ => hb) nofun
  · intro off'
    have parts := memParts_of_form mem mi d a cls off
    have it := h.mem parts ok
    obtain ⟨-, single, -⟩ := memParts_facts parts
    have base {P : Prop} (pair : pairBase (form mi d a cls off) = true) : P := by rw [single] at pair; cases pair
    have offset : stepsOffset w.toNat = true := it.offsets.trans (by rw [parts]; rfl)
    refine ⟨fun far => ?_, fun lo hi => ⟨fun hd ha => ?_, fun hd => ?_, fun hd ha => ?_⟩⟩
    · exact it.exec_eq.trans (it.stepping.iterate_illegal (.inr ⟨offset, far⟩))
    · exact it.goes base (fun _ => ⟨lo, hi⟩) hd ha nofun base
    · exact it.exec_eq.trans (it.stepping.outside_d base (fun _ => ⟨lo, hi⟩) hd)
    · exact it.exec_eq.trans (it.stepping.outside_a base (fun _ => ⟨lo, hi⟩) hd ha)
  · have it := h.cas ok
    have near {P : Prop} (e : stepsOffset w.toNat = true) : P := by rw [it.offsets] at e; cases e
    refine ⟨fun zero => ?_, fun base hd ha => ⟨fun hb hp => ?_, fun hb => ?_, fun hb hp => ?_⟩⟩
    · exact it.exec_eq.trans (it.stepping.iterate_illegal (.inl ⟨rfl, zero⟩))
    · exact it.goes (fun _ => ⟨rfl, base⟩) nofun hd ha (fun _ => hb) fun _ => hp
    · exact it.exec_eq.trans (it.stepping.outside_b (fun _ => base) near rfl hd ha hb)
    · exact it.exec_eq.trans (it.stepping.outside_pair (fun _ => base) near rfl hd ha hb hp)

end Sys2Proof.Machine
end

section
/-! PROOF. What an access on its way leaves of the state: translations, the data cache, the counts and the home copy of memory move,
nothing else (05 R131 to R136, 08 R251, R258, 12 R342 to R345). -/

namespace Sys2Proof.Machine

/-- t, with what an access of a strand may touch outside the cores as it is in s: memory and its marks, the keys of its frames, the
counts. -/
def State.restored (s t : State) : State :=
  { t with mem := s.mem, poison := s.poison, pageKeys := s.pageKeys, fresh := s.fresh, dies := s.dies, cores := s.cores }

theorem State.restored_of {s t t' : State} (e : t' = s) (h : s.restored t' = s.restored t) : s.restored t = s := by rw [← h, e]; rfl

/-- The same of a core: its data cache, its translations and its tiles. -/
def Core.restored (x y : Core) : Core := { y with dcache := x.dcache, tlb := x.tlb, tiles := x.tiles }

/-- t is s but for what an access of a strand may touch. -/
structure Reach (s t : State) : Prop where
  rest : s.restored t = s
  core : ∀ c, (s.core c).restored (t.core c) = s.core c

theorem Reach.refl (s : State) : Reach s s := ⟨rfl, fun _ => rfl⟩

theorem Reach.trans {s t u : State} (h : Reach s t) (g : Reach t u) : Reach s u where
  rest := (congrArg s.restored g.rest).trans h.rest
  core c := (congrArg (s.core c).restored (g.core c)).trans (h.core c)

/-- A change outside the cores. -/
theorem Reach.of_cores {s t : State} (cores : t.cores = s.cores) (rest : s.restored t = s) : Reach s t :=
  ⟨rest, fun c => by rw [show t.core c = s.core c from congrArg (Vector.get · c) cores]; rfl⟩

/-- A change of one core's cache, translations and tiles. -/
theorem Reach.modCore (s : State) (c : Cl) (f : Core → Core) (hf : (s.core c).restored (f (s.core c)) = s.core c) :
    Reach s (s.modCore c f) where
  rest := rfl
  core d := by
    by_cases h : d = c
    · subst h; rw [State.core_modCore]; exact hf
    · rw [State.core_modCore_ne _ _ h]; rfl

theorem Reach.foldl {α : Type} {f : State → α → State} (hf : ∀ s a, Reach s (f s a)) : ∀ (l : List α) (s : State), Reach s (l.foldl f s)
  | [], s => .refl s
  | a :: l, s => (hf s a).trans (Reach.foldl hf l (f s a))

section
variable {s t : State} (h : Reach s t)
include h

theorem Reach.cur_eq : t.cur = s.cur := by have e := congrArg State.cur h.rest; exact e
theorem Reach.cycle_eq : t.cycle = s.cycle := by have e := congrArg State.cycle h.rest; exact e
theorem Reach.gangs_eq : t.gangs = s.gangs := by have e := congrArg State.gangs h.rest; exact e

theorem Reach.strand_eq (c : Cl) (k : Sn) : t.strand c k = s.strand c k := by
  have e := congrArg (Core.strand · k) (h.core c); exact e

theorem Reach.gang_eq (c : Cl) : (t.core c).gang = (s.core c).gang := by have e := congrArg Core.gang (h.core c); exact e

theorem Reach.me_eq : t.me = s.me := by
  rw [State.me, h.strand_eq, h.cur_eq]; rfl

theorem Reach.gangOf_eq (c : Cl) : t.gangOf c = s.gangOf c := by
  have e : t.gang? = s.gang? := funext fun g => by rw [State.gang?, h.gangs_eq]; rfl
  rw [State.gangOf, h.gang_eq, e]; rfl

end

/-! The data cache. -/

theorem writeBytes_reach (s : State) (x : Nat) (bs : List Byte) : Reach s (writeBytes s x bs) :=
  .of_cores (writeBytes_cores ..) (State.restored_of (writeBytes_rest bs s x) rfl)

theorem writeBackLine_reach (c : Cl) (d : DLine) (s : State) : Reach s (writeBackLine c d s) :=
  .of_cores (by have e := congrArg State.cores (writeBackLine_rest c d s); exact e)
    (State.restored_of (writeBackLine_rest c d s) rfl)

theorem cleanLine_reach (c : Cl) (l : Nat) (s : State) : Reach s (cleanLine c l s) := by
  unfold cleanLine; split
  · exact (writeBackLine_reach ..).trans (.modCore _ _ _ rfl)
  · exact .refl s

theorem dropLine_reach (c : Cl) (l : Nat) (s : State) : Reach s (dropLine c l s) :=
  (cleanLine_reach c l s).trans (.modCore _ _ _ rfl)

theorem leaveCache_reach (c : Cl) (a : Nat) (s : State) : Reach s (leaveCache c a s) := by
  unfold leaveCache
  cases lineOf c a with
  | none => exact .refl s
  | some l => exact dropLine_reach c l s

theorem cleanAll_reach (c : Cl) (s : State) : Reach s (cleanAll c s) :=
  Reach.foldl (f := fun z (d : DLine) => cleanLine c d.line z) (fun z d => cleanLine_reach c d.line z) _ s

theorem acquireAt_reach (c : Cl) (e : ScopeSet) (s : State) : Reach s (acquireAt c e s) := by
  unfold acquireAt; split
  · exact (cleanAll_reach c s).trans (.modCore _ _ _ rfl)
  · exact .refl s

theorem releaseAt_reach (c : Cl) (e : ScopeSet) (s : State) : Reach s (releaseAt c e s) := by
  unfold releaseAt; split
  · exact cleanAll_reach c s
  · exact .refl s

/-! Translation. -/

theorem keyFrame_reach (k f : Nat) (s : State) : Reach s (keyFrame k f s) := by
  have recrypted (old new : BitVec 512) : Reach s (recryptFrame old new f s) := Reach.foldl (fun z l => writeBytes_reach z _ _) _ s
  have keyed {z : State} (h : Reach s z) (n : List (Nat × Nat × BitVec 512)) : Reach s { z with pageKeys := n } :=
    h.trans (.of_cores rfl rfl)
  unfold keyFrame; simp only
  split
  · exact .refl s
  · split
    · split
      · exact .refl s
      · refine keyed ?_ _; split
        · exact .refl s
        · exact recrypted _ _
    · exact keyed (.refl s) _

theorem underKey_reach (s : State) (a k : Nat) : Reach s (s.underKey a k) := by
  unfold State.underKey; split
  · exact keyFrame_reach ..
  · exact .refl s

theorem translateCore_reach (s : State) (c : Cl) (va : Nat) (rd wr : Bool) : Reach s (translateCore s c va rd wr).1 := by
  unfold translateCore; split
  · rename_i e _
    have view : Reach s (s.entryView e va) := underKey_reach ..
    exact view.trans (.modCore _ c (fun x => { x with tlb := tlbInstall s 128 x.tlb e }) rfl)
  · exact .refl s

theorem resolve_reach (s : State) (c : Cl) (t : Tgt) (rd wr : Bool) : Reach s (resolve s c t rd wr).1 := by
  unfold resolve; split
  · rename_i va
    have h := translateCore_reach s c va.toNat rd wr
    split <;> (rename_i e; rw [e] at h; exact h)
  · exact underKey_reach ..
  · exact underKey_reach ..
  · exact .refl s

theorem countAccess_reach (c : Cl) (t : Tgt) (n : Nat) (s : State) : Reach s (countAccess c t n s) :=
  .of_cores (countAccess_cores ..) (State.restored_of (countAccess_rest c t n s) rfl)

theorem withFresh_reach (s : State) (n : Nat) : Reach s (s.withFresh n) := .of_cores rfl rfl

end Sys2Proof.Machine
end

section
/-! PROOF. Memory-word waits, and how waits are granted or expire (05 R141, R152, R153, R193, 09 R284). -/

namespace Sys2Proof.Machine

/-! The count of free values stands aside of the data cache. -/

theorem writeHome_withFresh (s : State) (n x : Nat) (bs : List Byte) : writeHome (s.withFresh n) x bs = (writeHome s x bs).withFresh n :=
  writeBytes_withFresh n bs { s with poison := s.marksPast x bs.length } x

theorem writeBackLine_withFresh (c : Cl) (d : DLine) (s : State) (n : Nat) :
    writeBackLine c d (s.withFresh n) = (writeBackLine c d s).withFresh n := by
  unfold writeBackLine; split
  · exact writeHome_withFresh ..
  · refine List.foldl_hom (State.withFresh · n) fun z i => ?_
    split
    · exact State.setByte_withFresh ..
    · rfl

theorem cleanLine_withFresh (c : Cl) (l : Nat) (s : State) (n : Nat) : cleanLine c l (s.withFresh n) = (cleanLine c l s).withFresh n := by
  unfold cleanLine
  rw [show (s.withFresh n).core c = s.core c from rfl]
  split
  · rw [writeBackLine_withFresh]; rfl
  · rfl

theorem leaveCache_withFresh (c : Cl) (a : Nat) (s : State) (n : Nat) :
    leaveCache c a (s.withFresh n) = (leaveCache c a s).withFresh n := by
  unfold leaveCache
  cases lineOf c a with
  | none => rfl
  | some l => show dropLine c l _ = _; rw [dropLine, cleanLine_withFresh]; rfl

/-! One read of a memory word (R153). -/

/-- A read of a memory word at a location goes by the memory, where a data-cache line of it goes first. -/
def waitRead (c : Cl) (l sp : Nat) (key : Option (BitVec 9)) (n : Nat) (s : State) : State :=
  countAccess c (.loc l sp key) n ((leaveCache c l s).withFresh (s.fresh + 1))

theorem waitRead_reach (c : Cl) (l sp : Nat) (key : Option (BitVec 9)) (n : Nat) (s : State) : Reach s (waitRead c l sp key n s) :=
  ((leaveCache_reach c l s).trans (withFresh_reach _ _)).trans (countAccess_reach ..)

theorem waitRead_mem (c : Cl) (l sp : Nat) (key : Option (BitVec 9)) (n : Nat) (s : State) :
    (waitRead c l sp key n s).mem = (leaveCache c l s).mem := countAccess_mem ..

theorem loadAt_memory (s : State) (c : Cl) (k : Sn) (cls l sp : Nat) (key : Option (BitVec 9)) (n : Nat) :
    loadAt (s.withFresh (s.fresh + 1)) c k cls (.loc l sp key) n true =
      (waitRead c l sp key n s, .data (readHome (leaveCache c l s) l n)) := by
  have cached : ¬(sp = 3 ∧ true = false) := fun h => nomatch h.2
  simp only [loadAt, if_neg cached, leaveCache_withFresh, readHome_withFresh, waitRead]

/-- The access of one read. -/
def waitAccess (n : Nat) (t : Tgt) : Pend := ⟨.load 0 n false, 0, t, none, none, true, 0⟩

theorem waitvRead_value {s s1 : State} {c : Cl} {k : Sn} {t : Tgt} {dw : Bool} (counted : Bool) {l sp : Nat} {key : Option (BitVec 9)}
    (res : resolve s c t true false = (s1, .ok (.loc l sp key))) (clean : s1.poisonedIn l (waitvBytes dw) = none)
    (free : ∀ p ∈ (s.strand c k).pend, ordered s1 c p (waitAccess (waitvBytes dw) (.loc l sp key)) = false) :
    waitvRead s c k t dw counted = (waitRead c l sp key (waitvBytes dw) s1, .value (ofBytes (readHome (leaveCache c l s1) l (waitvBytes dw)))) := by
  have reach : Reach s s1 := by have h := resolve_reach s c t true false; rwa [res] at h
  rw [← reach.strand_eq] at free
  have alone := performMarked_none c k s1 (s1.strand c k).pend
  rw [← neededFor_nothing s1 c free] at alone
  have unmarked : (Tgt.loc l sp key).poison s1 (waitvBytes dw) = none := clean
  unfold waitvRead
  simp only [waitAccess] at alone
  simp only [res, unmarked, alone]
  have fresh : ({ s1 with fresh := s1.fresh + 1 } : State) = s1.withFresh (s1.fresh + 1) := rfl
  simp only [fresh, loadAt_memory]

/-- A number that a wait compares: signed under lt and ge. -/
def waitNum (cond : Nat) (x : W) : Int := if cond = 2 ∨ cond = 3 then x.toInt else x.toNat

/-- The conditions of a wait, between numbers. -/
def waitHolds (cond : Nat) (x y : Int) : Prop :=
  match cond with
  | 0 => x = y
  | 1 => x ≠ y
  | 2 => x < y
  | 3 => y ≤ x
  | 4 => x < y
  | _ => y ≤ x

theorem condHolds_iff (cond : Nat) (x y : W) : condHolds cond x y = true ↔ waitHolds cond (waitNum cond x) (waitNum cond y) := by
  match cond with
  | 0 => simp [condHolds_eq, waitHolds, waitNum, BitVec.toNat_inj]
  | 1 => simp [condHolds_ne, waitHolds, waitNum, BitVec.toNat_inj]
  | 2 => simp [condHolds_lt, waitHolds, waitNum]
  | 3 => simp [condHolds_ge, waitHolds, waitNum]
  | 4 => simp [condHolds_ltu, waitHolds, waitNum]
  | n + 5 =>
    rw [show condHolds (n + 5) x y = condHolds 5 x y from rfl]
    simp [condHolds_geu, waitHolds, waitNum]

/-- What a wait compares of a value of n bytes. -/
theorem waitNum_waitvExt (cond : Nat) (dw : Bool) (v : Nat) : waitNum cond (waitvExt cond dw v) =
    if cond = 2 ∨ cond = 3 then (BitVec.ofNat (8 * waitvBytes dw) v).toInt else (v % 2 ^ (8 * waitvBytes dw) : Nat) := by
  have wide : waitvBytes dw = 4 ∨ waitvBytes dw = 8 := by cases dw <;> simp [waitvBytes]
  unfold waitNum waitvExt
  split_ifs
  · rcases wide with h | h <;> rw [h, BitVec.toInt_ofInt, BitVec.toInt_ofNat', sx] <;> simp only [Int.bmod_def] <;> omega
  · rcases wide with h | h <;> rw [h, zx, BitVec.toNat_ofNat] <;> omega

/-! Grants. -/

/-- A wait granted behind nothing but accesses' effects leaves its strand gone on, and nothing else of it changed. -/
theorem grantWait_granted {s u : State} (h : Reach s u) (c : Cl) (k : Sn) (e : ScopeSet) : Granted s (grantWait c k e u) c k := by
  have before : (acquireAt c e u).strand c k = s.strand c k := (h.trans (acquireAt_reach c e u)).strand_eq c k
  have strand : (grantWait c k e u).strand c k = { ({ s.strand c k with wait := none } : Strand).advance none with
      gapUntil := max (s.strand c k).gapUntil (u.cycle + 1) } := by
    rw [grantWait, State.strand_modStrand, before]
  have still : ((grantWait c k e u).strand c k).still = ({ s.strand c k with wait := none } : Strand).still := by
    rw [strand]; exact Strand.advance_still { s.strand c k with wait := none } none
  refine ⟨?_, fun plain => ?_, ?_⟩
  · have e := congrArg Strand.wait still; exact e
  · rw [strand]; exact Strand.advance_place (t := { s.strand c k with wait := none }) plain
  · rw [still]; rfl

theorem rewait_strand {s u : State} (h : Reach s u) {c : Cl} {k : Sn} {w : Wait} (hw : (s.strand c k).wait = some w) (o : WaitObj) :
    (rewait c k o u).strand c k = { s.strand c k with wait := some { w with obj := o } } := by
  rw [rewait, State.strand_modStrand, h.strand_eq, hw]; rfl

section
variable {s : State} {c : Cl} {k : Sn} {w : Wait} (hw : (s.strand c k).wait = some w)
include hw

theorem exec_waitvReread {cond : Nat} {dw : Bool} {t : Tgt} {y seen : W} {counted : Bool} {u : State} {v : Nat}
    (ho : w.obj = .mem cond dw t y seen counted) (read : waitvRead s c k t dw counted = (u, .value v)) :
    exec (.waitvReread c k) s = .next (if condHolds cond (waitvExt cond dw v) y then grantWait c k (scopeSet u c 31) u
      else rewait c k (.mem cond dw t y (BitVec.ofNat 64 v) counted) u) := by
  obtain ⟨o, since, expiry⟩ := w
  obtain rfl : o = _ := ho
  show execWaitvReread c k s = _
  simp only [execWaitvReread, hw, read]

/-! Expiry (R141, R284). -/

/-- The wait's expiry tick has come, and its grants are made. -/
def Wait.due (w : Wait) (s : State) : Prop := w.expiry / 3 ≤ s.cycle / 3 ∧ s.ticked = s.cycle / 3 + 1

theorem exec_waitExpiry_early (h : s.cycle / 3 < w.expiry / 3) : exec (.waitExpiry c k) s = .next s := by
  have early : ¬(w.expired s.cycle = true ∧ s.ticked = tickOf s.cycle + 1) := fun g =>
    absurd (of_decide_eq_true g.1) (Nat.not_le.mpr h)
  show execWaitExpiry c k s = _
  simp only [execWaitExpiry, hw, if_neg early]

theorem exec_waitExpiry_due (h : w.due s) : exec (.waitExpiry c k) s =
    .next (if ((settleWait s c k).strand c k).wait.isSome then expire s c k w else settleWait s c k) := by
  have now : w.expired s.cycle = true ∧ s.ticked = tickOf s.cycle + 1 := ⟨decide_eq_true h.1, h.2⟩
  show execWaitExpiry c k s = _
  simp only [execWaitExpiry, hw, if_pos now]

theorem exec_waitExpiry_expires (h : w.due s) (stands : settleWait s c k = s) : exec (.waitExpiry c k) s = .next (expire s c k w) := by
  rw [exec_waitExpiry_due hw h, stands, hw]; rfl

theorem exec_waitExpiry_granted (h : w.due s) {e : ScopeSet} (granted : settleWait s c k = grantWait c k e s) :
    ∃ t, exec (.waitExpiry c k) s = .next t ∧ Granted s t c k := by
  have g := grantWait_granted (.refl s) c k e
  refine ⟨_, exec_waitExpiry_due hw h, ?_⟩
  rw [granted, g.wait]; exact g

theorem settleWait_of_obj {o : WaitObj} (ho : w.obj = o) : settleWait s c k = match o with
    | .bar b phase => match s.gangOf c with
      | some g => if (g.bar b).phase = phase then s else grantWait c k (scopeSet s c 1) s
      | none => s
    | .efence _ _ ts => if awaited s c ts = [] then grantWait c k (scope0 s c) s else s
    | _ => s := by
  obtain ⟨o', since, expiry⟩ := w
  obtain rfl : o' = o := ho
  unfold settleWait; rw [hw]
  cases o' <;> rfl

/-- A wait that expires leaves with the wait-expiry trap; its report is its object, the value asked for and the value seen. -/
theorem exec_waitExpiry_traps (h : w.due s) (stands : settleWait s c k = s) {o : WaitObj} (ho : w.obj = o) {kind num asked seen : Nat}
    (report : waitReport s c o = (BitVec.ofNat 16 (0x1000 * kind + num), asked, seen)) :
    exec (.waitExpiry c k) s = .next (takeTrap s c k true 0x07 false (BitVec.ofNat 16 (0x1000 * kind + num))
      (BitVec.ofNat 64 (asked + seen * 2 ^ 32)) (s.strand c k).pc) := by
  rw [exec_waitExpiry_expires hw h stands, expire, ho, report]

end

theorem objId_eq (kind tile num : Nat) : objId kind tile num = BitVec.ofNat 16 (0x1000 * kind + (256 * tile + num)) := by
  rw [objId, Nat.mul_comm kind, Nat.mul_comm tile, Nat.add_assoc]

theorem objId_untiled (kind num : Nat) : objId kind 0 num = BitVec.ofNat 16 (0x1000 * kind + num) := by
  rw [objId_eq, Nat.mul_zero, Nat.zero_add]

/-- Settles O34: a re-read grants by the condition between the numbers read and asked for; an expiry traps with the wait's report
unless a barrier's phase is over or every queue of an efence has stopped. -/
theorem waitsEnd : Obligations.WaitsEnd := by
  intro s c k w hw
  refine ⟨?_, ?_, fun due => ⟨?_, ?_, ?_, ?_⟩, exec_waitExpiry_early hw⟩
  · intro cond dw y seen counted t s1 l sp key ho res n home v num read holds clean free
    have reach : Reach s s1 := by have h := resolve_reach s c t true false; rwa [res] at h
    have value : waitvRead s c k t dw counted = (waitRead c l sp key n s1, .value v) := waitvRead_value counted res clean free
    have exec_eq := exec_waitvReread hw ho value
    have met : holds ↔ condHolds cond (waitvExt cond dw v) y = true := by
      rw [condHolds_iff, waitNum_waitvExt]; rfl
    have read_reach := reach.trans (waitRead_reach c l sp key n s1)
    refine ⟨fun h => ⟨_, exec_eq, ?_⟩, fun h => ⟨_, exec_eq, ?_⟩⟩
    · rw [if_pos (met.mp h)]; exact grantWait_granted read_reach c k _
    · rw [if_neg (h ∘ met.mpr), rewait_strand read_reach hw]
      exact ⟨(rewait_mem ..).trans (waitRead_mem ..), rfl⟩
  · intro cond dw y seen counted t ho due
    exact exec_waitExpiry_traps hw due (settleWait_of_obj hw ho) ho
      (by rw [waitReport, Nat.add_assoc, Nat.mul_comm cond])
  · intro y q n ho
    exact exec_waitExpiry_traps hw due (settleWait_of_obj hw ho) ho (by rw [waitReport, objId_eq]; rfl)
  · intro y q n ho r
    exact exec_waitExpiry_traps hw due (settleWait_of_obj hw ho) ho (by rw [waitReport, objId_eq]; rfl)
  · intro b phase g ho hg bar
    have settles := settleWait_of_obj hw ho
    simp only [hg, show g.bar b = bar from rfl] at settles
    refine ⟨fun same => ?_, fun ended => ?_⟩
    · rw [if_pos same] at settles
      exact exec_waitExpiry_traps hw due settles ho (by simp only [waitReport, hg, objId_untiled]; rfl)
    · rw [if_neg ended] at settles
      exact exec_waitExpiry_granted hw due settles
  · intro e all ts ho
    have settles := settleWait_of_obj hw ho
    refine ⟨fun y q n first => ?_, fun stopped => ?_⟩
    · obtain ⟨rest, left⟩ : ∃ rest, awaited s c ts = (y, q, n) :: rest := List.head?_eq_some_iff.mp first
      have some_left : awaited s c ts ≠ [] := by rw [left]; exact List.cons_ne_nil _ _
      exact exec_waitExpiry_traps hw due (settles.trans (if_neg some_left)) ho (by rw [waitReport, left, ← objId_eq])
    · have none_left : awaited s c ts = [] := List.filter_eq_nil_iff.mpr fun x hx => by simp [stopped x hx]
      exact exec_waitExpiry_granted hw due (settles.trans (if_pos none_left))

end Sys2Proof.Machine
end

section
/-! PROOF. The words on semaphores, rings, gang barriers and memory words (05 R141 to R153). -/

namespace Sys2Proof.Machine

/-! Words that wait, and words that go on behind an acquire (R141, R142). -/

theorem reachesBeyond_scope0 (s : State) (c : Cl) : reachesBeyond s c (scope0 s c) = false := by
  show (((1 : BitVec 64) <<< s.logicalOf c &&& ~~~((1 : BitVec 64) <<< s.logicalOf c) ≠ 0 : Bool) || false || false || false) = false
  simp

theorem acquireAt_scope0 (s : State) (c : Cl) : acquireAt c (scope0 s c) s = s := by
  rw [acquireAt, reachesBeyond_scope0]; rfl

theorem releaseAt_scope0 (s : State) (c : Cl) : releaseAt c (scopeSet s c 0) s = s := by
  rw [releaseAt, show scopeSet s c 0 = scope0 s c from rfl, reachesBeyond_scope0]; rfl

theorem waitDone_scope0 (m : Marks) (s : State) : waitDone m (scope0 s s.cur.c) s = retire m s := by rw [waitDone, acquireAt_scope0]

/-- A wait granted at issue, behind accesses' effects: its strand goes on. -/
theorem waitDone_goes {s u : State} (h : Reach s u) (m : Marks) (e : ScopeSet) :
    (waitDone m e u).me.still = s.me.still ∧
      (s.me.inRep = false → (waitDone m e u).me.place = bodyEnd s.me s.me.pc (s.me.pc + 4)) := by
  have me := (h.trans (acquireAt_reach u.cur.c e u)).me_eq
  refine ⟨(retire_still ..).trans (congrArg _ me), fun alone => ?_⟩
  rw [← me] at alone ⊢
  exact retire_place alone

theorem startWait_frame (m : Marks) (o : WaitObj) (lim : BitVec 4) (s : State) : WordFrame s (startWait m o lim s) :=
  (issue_frame m s).trans (.modMe _ _)

/-- The strand of a wait that starts stands at its word, with its wait. -/
theorem startWait_me {s u : State} (hm : u.me = s.me) (hc : u.cycle = s.cycle) (m : Marks) (o : WaitObj) (lim : BitVec 4) :
    (startWait m o lim u).me.wait = some ⟨o, s.cycle, s.cycle + 2 ^ (lim.toNat + 8)⟩ ∧ (startWait m o lim u).me.pc = s.me.pc ∧
      { (startWait m o lim u).me.still with wait := s.me.wait } = s.me.still := by
  have me : (startWait m o lim u).me = { (issue m u).me with wait := some ⟨o, u.cycle, u.cycle + 2 ^ (lim.toNat + 8)⟩ } := State.me_modMe ..
  have pc : (issue m u).me.pc = u.me.pc := by have e := congrArg Strand.pc (issue_me_rest m u); exact e
  have wait : (issue m u).me.wait = u.me.wait := by have e := congrArg Strand.wait (issue_still m u); exact e
  rw [me, ← hc, ← hm]
  refine ⟨rfl, pc, ?_⟩
  rw [← wait]
  exact issue_still m u

theorem startWait_waits {s u : State} (hm : u.me = s.me) (hc : u.cycle = s.cycle) (mem : u.mem = s.mem) (m : Marks) (o : WaitObj)
    (lim : BitVec 4) : Waits s (startWait m o lim u) o lim := by
  obtain ⟨wait, pc, still⟩ := startWait_me hm hc m o lim
  exact ⟨wait, pc, still, (startWait_frame m o lim u).mem_eq.trans mem⟩

/-- A posting word behind no access under way. -/
theorem posting_alone {s : State} (alone : s.me.pend = []) (e : BitVec 5) (k : State → State) :
    posting s e k = k (releaseAt s.cur.c (scopeSet s s.cur.c e) s) := by
  have none_first : ∀ p ∈ s.me.pend, (fun _ : Pend => true) p = false := by rw [alone]; exact fun p hp => nomatch hp
  rw [posting, performBefore_nothing none_first]

/-- A word that issues, with the state its body leaves. -/
theorem exec_issues {i : Instr} {s t : State} {fields : List Nat} {body : State → State} (hi : exec i s = issueWord fields body s)
    (h : Runs s) (hf : Fits s fields) (hb : body s = t) : exec i s = .next t := by
  rw [hi, issueWord_next h hf, hb]

/-! Words on a tile (R143). -/

theorem WordFrame.tile_eq {s t : State} (h : WordFrame s t) (y : Tl) : t.tile s.cur.c y = s.tile s.cur.c y := by
  have e := congrArg (Core.tile · y) h.core; exact e

/-- A word that changes one tile of its cluster. -/
theorem modTile_retires (m : Marks) (y : Tl) (f : Tile → Tile) (s : State) :
    CoreFrame s (retire m (s.modTile s.cur.c y f)) ∧ (retire m (s.modTile s.cur.c y f)).tile s.cur.c y = f (s.tile s.cur.c y) ∧
      ∀ z, z ≠ y → (retire m (s.modTile s.cur.c y f)).tile s.cur.c z = s.tile s.cur.c z := by
  have frame := retire_frame m (s.modTile s.cur.c y f)
  have own : OwnCore s (retire m (s.modTile s.cur.c y f)) := (OwnCore.modMyCore s rfl).trans frame.ownCore
  have me : (s.modTile s.cur.c y f).me = s.me := State.me_modMyCore s rfl
  exact ⟨⟨own.outside, own.clusters, own.strands, (retire_still ..).trans (congrArg _ me)⟩, (frame.tile_eq y).trans (State.tile_modTile ..),
    fun z hz => (frame.tile_eq z).trans (modTile_tiles _ _ _ _ _ hz)⟩

theorem onTile_ok {s : State} {t : BitVec 3} (h : s.tileOk s.cur.c t.toFin = true) (kind num : Nat) (k : Tl → State) :
    onTile kind t num s k = k t.toFin := if_pos h

theorem onTile_disabled {s : State} {t : BitVec 3} (h : s.tileOk s.cur.c t.toFin = false) (kind num : Nat) (k : Tl → State) :
    onTile kind t num s k = trapObject s 1 (objId kind t.toNat num) := if_neg (by rw [h]; decide)

theorem onRing_declared {s : State} {t : BitVec 3} {g : BitVec 5} (h : s.tileOk s.cur.c t.toFin = true)
    (hr : ((s.tile s.cur.c t.toFin).ring g).declared = true) (k : Tl → Ring → State) :
    onRing t g s k = k t.toFin ((s.tile s.cur.c t.toFin).ring g) := (onTile_ok h ..).trans (if_pos hr)

theorem onRing_undeclared {s : State} {t : BitVec 3} {g : BitVec 5} (h : s.tileOk s.cur.c t.toFin = true)
    (hr : ((s.tile s.cur.c t.toFin).ring g).declared = false) (k : Tl → Ring → State) :
    onRing t g s k = trapObject s 2 (objId 2 t.toNat g.toNat) := (onTile_ok h ..).trans (if_neg (by rw [hr]; decide))

/-- A word whose body is an object fault. -/
theorem traps_of_object {i : Instr} {s : State} {fields : List Nat} {body : State → State} {reason : Nat} {ident : BitVec 16} {tval : W}
    (hi : exec i s = issueWord fields body s) (h : Runs s) (hf : Fits s fields) (hb : body s = trapObject s reason ident)
    (hv : BitVec.ofNat 64 reason = tval) : Traps i s 0x05 ident tval := by
  rw [Traps, exec_issues hi h hf hb, ← hv]; rfl

theorem objId_word (kind tile num : Nat) : BitVec.ofNat 16 (0x1000 * kind + 256 * tile + num) = objId kind tile num := by
  rw [objId_eq, Nat.add_assoc]

/-! Semaphores (R144 to R146). -/

theorem Tile.setSem_sems (y : Tile) (k : BitVec 5) (v : BitVec 16) :
    (y.setSem k v).sems.get k.toFin = v ∧ ∀ j : Fin 32, j ≠ k.toFin → (y.setSem k v).sems.get j = y.sems.get j :=
  ⟨Vector.get_set_same (i := k.toFin) .., fun _ h => Vector.get_set_other (i := k.toFin) _ _ h⟩

/-! Rings (R147 to R150). -/

theorem Tile.setRing_rings (y : Tile) (g : BitVec 5) (v : Ring) :
    (y.setRing g v).rings.get g.toFin = v ∧ ∀ j : Fin 32, j ≠ g.toFin → (y.setRing g v).rings.get j = y.rings.get j :=
  ⟨Vector.get_set_same (i := g.toFin) .., fun _ h => Vector.get_set_other (i := g.toFin) _ _ h⟩

/-- The region of a handle's ring lies in its space. -/
def RingFits (s : State) (hd : Handle) (ns : BitVec 8) : Prop :=
  hd.ext0 ≠ 0 ∧ hd.space.toNat ≤ 4 ∧ inspaceEng s s.cur.c hd.space.toNat hd.addr.toNat (ns.toNat * (64 * hd.ext0.toNat)) = true

theorem ringOf_eq_none_iff (s : State) (hd : Handle) (ns : BitVec 8) : ringOf s s.cur.c hd ns = none ↔ ¬RingFits s hd ns := by
  unfold ringOf RingFits
  simp only [ite_eq_left_iff, reduceCtorEq, imp_false, not_not]
  rw [not_and_or, not_and_or, not_not, Bool.not_eq_true, Nat.not_le]
  rfl

theorem State.modCore_modCore (s : State) (c : Cl) (f g : Core → Core) : (s.modCore c f).modCore c g = s.modCore c fun x => g (f x) := by
  have core : (s.modCore c f).core c = f (s.core c) := State.core_modCore ..
  rw [State.modCore, core]
  exact congrArg (fun v => { s with cores := v }) (Vector.set_set ..)

theorem Core.modStrand_modStrand (x : Core) (k : Sn) (f g : Strand → Strand) :
    (x.modStrand k f).modStrand k g = x.modStrand k fun t => g (f t) := by
  have strand : (x.modStrand k f).strand k = f (x.strand k) := Core.strand_modStrand ..
  rw [Core.modStrand, strand]
  exact congrArg (fun v => { x with strands := v }) (Vector.set_set ..)

theorem State.modMe_modMe (s : State) (f g : Strand → Strand) : (s.modMe f).modMe g = s.modMe fun t => g (f t) := by
  refine (State.modCore_modCore s s.cur.c (·.modStrand s.cur.k f) (·.modStrand s.cur.k g)).trans ?_
  exact congrArg (State.modCore s s.cur.c) (funext fun x => x.modStrand_modStrand s.cur.k f g)

/-! Gang barriers (R151, R152). -/

theorem State.gang?_modGang (s : State) (i : Nat) {f : Gang → Gang} (hf : ∀ x, (f x).id = x.id) : (s.modGang i f).gang? i = (s.gang? i).map f := by
  have kept : ((fun x : Gang => x.id == i) ∘ fun x => if x.id = i then f x else x) = fun x => x.id == i := by
    funext x; simp only [Function.comp]; split_ifs <;> simp [hf]
  show (s.gangs.map fun x => if x.id = i then f x else x).find? (·.id == i) = (s.gangs.find? (·.id == i)).map f
  rw [List.find?_map, kept]
  cases hg : s.gangs.find? (·.id == i) with
  | none => rfl
  | some g => exact congrArg some (if_pos (by simpa using List.find?_some hg))

theorem State.gang?_of_gangOf {s : State} {c : Cl} {g : Gang} (h : s.gangOf c = some g) : (s.core c).gang = some g.id ∧ s.gang? g.id = some g := by
  obtain ⟨i, hi, hg⟩ := Option.bind_eq_some_iff.mp h
  have id : g.id = i := by simpa using List.find?_some hg
  rw [id]; exact ⟨hi, hg⟩

/-- The barrier behind an arrival of the current strand: the phase ends when as many have arrived as take part, b15 apart while a
node-boundary request waits. -/
def arrived (s : State) (g : Gang) (b : BitVec 4) : Barrier :=
  if participants s g ≤ (g.bar b).arrived.length + 1 ∧ ¬(b = 15 ∧ g.preempt = some .node) then ⟨(g.bar b).phase + 1, []⟩
  else ⟨(g.bar b).phase, (g.bar b).arrived ++ [(s.cur.c, s.cur.k)]⟩

theorem arriveBar_eq (g : Gang) (b : BitVec 4) (s : State) : arriveBar g b s = s.modGang g.id (·.setBar b (arrived s g b)) := by
  have last : b = 15 ↔ b.toFin = 15 := by rw [← BitVec.toFin_inj]; rfl
  have settled := settled_eq_barBehind s g b.toFin ⟨(g.bar b).phase, (g.bar b).arrived ++ [(s.cur.c, s.cur.k)]⟩
  have joined : (if g.keepsOpen b.toNat then (⟨(g.bar b).phase, (g.bar b).arrived ++ [(s.cur.c, s.cur.k)]⟩ : Barrier) else
      settleBarrier s g ⟨(g.bar b).phase, (g.bar b).arrived ++ [(s.cur.c, s.cur.k)]⟩) = arrived s g b := by
    refine settled.trans ?_
    unfold barBehind arrived
    simp only [last]
    exact if_congr ⟨fun ⟨a, _, c⟩ => ⟨by simpa using c, a⟩, fun ⟨c, a⟩ => ⟨a, by simp, by simpa using c⟩⟩ rfl rfl
  exact congrArg (fun x => s.modGang g.id (·.setBar b x)) joined

theorem Gang.setBar_bar (g : Gang) (b : BitVec 4) (v : Barrier) : (g.setBar b v).bar b = v := Vector.get_set_same (i := b.toFin) ..

theorem WordFrame.gangs_eq {s t : State} (h : WordFrame s t) : t.gangs = s.gangs := by have e := congrArg State.gangs h.outside; exact e

theorem waitDone_gangs (m : Marks) (e : ScopeSet) (s : State) : (waitDone m e s).gangs = s.gangs :=
  (retire_frame ..).gangs_eq.trans (acquireAt_reach ..).gangs_eq

section
variable {s : State} {g : Gang} (hg : s.gangOf s.cur.c = some g)
include hg

theorem arriveBar_gangOf (b : BitVec 4) : (arriveBar g b s).gangOf s.cur.c = some (g.setBar b (arrived s g b)) := by
  obtain ⟨place, listed⟩ := State.gang?_of_gangOf hg
  have changed := State.gang?_modGang s g.id (f := (·.setBar b (arrived s g b))) fun _ => rfl
  rw [listed] at changed
  rw [arriveBar_eq]
  exact (congrArg (Option.bind · _) place).trans changed

/-- Behind words that leave the gangs, an arrival shows in its barrier. -/
theorem arriveBar_shows (b : BitVec 4) {t : State} (gangs : t.gangs = (arriveBar g b s).gangs) :
    (t.gang? g.id).map (·.bars.get b.toFin) = some (arrived s g b) := by
  have same : t.gang? g.id = (arriveBar g b s).gang? g.id := by rw [State.gang?, gangs]; rfl
  have changed := State.gang?_modGang s g.id (f := (·.setBar b (arrived s g b))) fun _ => rfl
  rw [(State.gang?_of_gangOf hg).2] at changed
  rw [same, arriveBar_eq, changed]
  exact congrArg some (Gang.setBar_bar ..)

end

theorem onGang_some {s : State} {g : Gang} (hg : s.gangOf s.cur.c = some g) (m : Marks) (k : Gang → State) : onGang m s k = k g := by
  rw [onGang, hg]

theorem barWait_waits {s : State} {g : Gang} (hg : s.gangOf s.cur.c = some g) {b : BitVec 4} (h : hasArrived s (g.bar b) = true)
    (m : Marks) (lim : BitVec 4) : barWait m b lim s = startWait m (.bar b (g.bar b).phase) lim s := by
  simp only [barWait, hg]; exact if_pos h

theorem barWait_goes {s : State} {g : Gang} (hg : s.gangOf s.cur.c = some g) {b : BitVec 4} (h : ¬hasArrived s (g.bar b) = true)
    (m : Marks) (lim : BitVec 4) : barWait m b lim s = waitDone m (scopeSet s s.cur.c 1) s := by
  simp only [barWait, hg]; exact if_neg h

theorem hasArrived_iff (s : State) (b : Barrier) : hasArrived s b = true ↔ (s.cur.c, s.cur.k) ∈ b.arrived := List.contains_iff_mem

/-! Memory-word waits (R153). -/

theorem ofInt_waitNum (cond : Nat) (x : W) : BitVec.ofInt 64 (waitNum cond x) = x := by
  unfold waitNum; split_ifs
  · exact BitVec.ofInt_toInt
  · rw [BitVec.ofInt_natCast, BitVec.ofNat_toNat, BitVec.setWidth_eq]

/-- A memory-word wait goes on where its condition holds between the number read and the number asked for, and waits where it does not. -/
theorem waitvWord_waits {i : Instr} {cond : Nat} {m : Marks} {dw : Bool} {a b : Sreg} {lim : BitVec 4}
    (hi : ∀ s, exec i s = waitvWord cond m dw a b lim s) : WaitvWord i cond dw a b lim := by
  intro s sp o s1 l cached key run fits plain n place res clean free num read x y holds
  have reach : Reach s s1 := by have h := resolve_reach s s.cur.c (tgtOf s s.cur.c sp o) true false; rwa [res] at h
  have free : ∀ p ∈ (s.strand s.cur.c s.cur.k).pend, ordered s1 s.cur.c p (waitAccess (waitvBytes dw) (.loc l cached key)) = false := by
    rw [NothingBefore, reach.me_eq, reach.cur_eq] at free; exact free
  have value : waitvRead s s.cur.c s.cur.k (tgtOf s s.cur.c sp o) dw false = (waitRead s.cur.c l cached key n s1, .value read) :=
    waitvRead_value false res clean free
  have asked : y = waitNum cond (waitvExt cond dw (rd s b 2).toNat) := (waitNum_waitvExt ..).symm
  have met : holds ↔ condHolds cond (waitvExt cond dw read) (waitvExt cond dw (rd s b 2).toNat) = true := by
    rw [condHolds_iff, ← asked, waitNum_waitvExt]; rfl
  have read_reach : Reach s (waitRead s.cur.c l cached key n s1) := reach.trans (waitRead_reach ..)
  have word := hi s
  unfold waitvWord at word
  have placed : target s s.cur.c (rd s a 1) (waitvBytes dw) = .ok (sp, o) := place
  refine ⟨fun h => ?_, fun h => ?_⟩
  · obtain ⟨still, goes⟩ := waitDone_goes read_reach m
      (scopeSet (waitRead s.cur.c l cached key n s1) (waitRead s.cur.c l cached key n s1).cur.c 31)
    refine ⟨_, exec_issues word run fits ?_, goes plain, still⟩
    simp only [placed, value]; exact if_pos (met.mp h)
  · obtain ⟨starts, pc, still⟩ := startWait_me read_reach.me_eq read_reach.cycle_eq m
      (.mem cond dw (tgtOf s s.cur.c sp o) (waitvExt cond dw (rd s b 2).toNat) (BitVec.ofNat 64 read) false) lim
    rw [asked, ofInt_waitNum]
    refine ⟨_, exec_issues word run fits ?_, pc, still, starts⟩
    simp only [placed, value]; exact if_neg (h ∘ met.mpr)

/-- Settles O33: each word's body, once its object is there, is a wait that starts, an effect behind nothing under way, or an
object fault; a barrier's phase ends with the arrival that completes it. -/
theorem synchronisationWords : Obligations.SynchronisationWords := by
  refine ⟨?semaphores, ?rings, ?barriers, fun m dw a b lim => ⟨waitvWord_waits fun _ => rfl, waitvWord_waits fun _ => rfl,
    waitvWord_waits fun _ => rfl, waitvWord_waits fun _ => rfl, waitvWord_waits fun _ => rfl, waitvWord_waits fun _ => rfl⟩⟩
  case semaphores =>
    intro m t3 k cnt lim d s run plain y now ident
    have wait : exec (.semWait m t3 k cnt lim) s = execSemWait m t3 k cnt lim s := rfl
    have post : exec (.semPost m t3 k cnt) s = execSemPost m t3 k cnt s := rfl
    have read : exec (.semRd m t3 k d) s = execSemRd m t3 k d s := rfl
    unfold execSemWait at wait
    unfold execSemPost at post
    unfold execSemRd at read
    have named : ident = objId 1 t3.toNat k.toNat := objId_word 1 t3.toNat k.toNat
    rw [named]
    refine ⟨fun ok => ⟨fun zero => ?_, fun some_ => ?_, fun room alone => ?_, fun full => ?_, fun fits => ?_⟩,
      fun off => ⟨?_, ?_, fun fits => ?_⟩⟩
    · exact ⟨_, exec_issues wait run (fits_nil s) (((onTile_ok ok ..).trans (if_pos zero)).trans (waitDone_scope0 m s)), retire_flowFrame m s,
        retire_place plain⟩
    · refine ⟨_, exec_issues wait run (fits_nil s) ((onTile_ok ok ..).trans (if_neg some_)), ?_, ?_⟩
      · exact startWait_waits (State.me_modMyCore s rfl) rfl rfl ..
      · exact ((startWait_frame ..).tile_eq y).trans (State.tile_modTile ..)
    · obtain ⟨frame, tile, others⟩ := modTile_retires m y (·.setSem k (BitVec.ofNat 16 (now.toNat + cnt.toNat))) s
      have posts := posting_alone alone 0 fun s1 => retire m (s1.modTile s1.cur.c y (·.setSem k (BitVec.ofNat 16 (now.toNat + cnt.toNat))))
      rw [releaseAt_scope0] at posts
      refine ⟨_, exec_issues post run (fits_nil s) (((onTile_ok ok ..).trans (if_neg (Nat.not_lt.mpr room))).trans posts), frame, ?_, ?_, others⟩
      · rw [tile, (Tile.setSem_sems ..).1, BitVec.toNat_ofNat, Nat.mod_eq_of_lt (by omega)]
      · rw [tile]; exact (Tile.setSem_sems ..).2
    · exact traps_of_object post run (fits_nil s) ((onTile_ok ok ..).trans (if_pos full)) rfl
    · exact ⟨_, exec_issues read run fits (onTile_ok ok ..), wr_retire m d _ 12 none s⟩
    · exact traps_of_object wait run (fits_nil s) (onTile_disabled off ..) rfl
    · exact traps_of_object post run (fits_nil s) (onTile_disabled off ..) rfl
    · exact traps_of_object read run fits (onTile_disabled off ..) rfl
  case rings =>
    intro m t3 g h ns cnt lim d s run plain ok y r hd ident region changes under
    have decl : exec (.ringDecl m t3 g h ns) s = execRingDecl m t3 g h ns s := rfl
    have wait : exec (.ringWait m t3 g cnt lim) s = execRingWait m t3 g cnt lim s := rfl
    have rel : exec (.ringRel m t3 g cnt) s = execRingRel m t3 g cnt s := rfl
    have wp : exec (.ringWp m t3 g d) s = execRingWp m t3 g d s := rfl
    unfold execRingDecl at decl
    unfold execRingWait at wait
    unfold execRingRel at rel
    unfold execRingWp at wp
    have named : ident = objId 2 t3.toNat g.toNat := objId_word 2 t3.toNat g.toNat
    have declaring : (s.tile s.cur.c y).decls.any (·.strand == s.cur.k) = true ↔ under := by simp [under]
    rw [named]
    have fits := fits_nil s
    refine ⟨fun new lies => ?_, fun new busy out => ?_, fun new idle out => ?_, fun old waits => ?_, fun old made => ?_,
      fun declared => ⟨fun short => ?_, fun zero => ?_, fun some_ slots => ?_, fun short => ?_, fun filled alone => ?_, fun fits => ?_⟩,
      fun undeclared => ⟨?_, ?_, fun fits => ?_⟩⟩
    · obtain ⟨v, some_⟩ : ∃ v, ringOf s s.cur.c hd ns = some v :=
        Option.ne_none_iff_exists'.mp (mt (ringOf_eq_none_iff s hd ns).mp (not_not.mpr lies))
      refine exec_issues decl run fits ((onTile_ok ok ..).trans ?_)
      simp only [new, Bool.false_eq_true, if_false, some_, hd]
      exact State.modMe_modMe ..
    · have none_ : ringOf s s.cur.c hd ns = none := (ringOf_eq_none_iff s hd ns).mpr out
      refine exec_issues decl run fits ((onTile_ok ok ..).trans ?_)
      simp only [new, Bool.false_eq_true, if_false, none_, hd]
      exact if_pos busy
    · have none_ : ringOf s s.cur.c hd ns = none := (ringOf_eq_none_iff s hd ns).mpr out
      refine traps_of_object decl run fits ((onTile_ok ok ..).trans ?_) (rfl : BitVec.ofNat 64 7 = 7)
      simp only [new, Bool.false_eq_true, if_false, none_, hd]
      exact if_neg (ne_true_of_eq_false idle)
    · refine exec_issues decl run fits ((onTile_ok ok ..).trans ?_)
      rw [old]
      exact if_pos (declaring.mpr waits)
    · refine ⟨_, exec_issues decl run fits ((onTile_ok ok ..).trans ((if_pos old).trans (if_neg (mt declaring.mp made)))), ?_⟩
      have still := (retire_still m _).trans (congrArg Strand.still (State.me_modMe s fun x => { x with tld := false }))
      have tld := congrArg Strand.tld still
      exact ⟨(WordFrame.modMe _ _).trans (retire_frame ..), tld, retire_modMe_place plain rfl rfl,
        congrArg (fun t : Strand => { t with tld := s.me.tld }) still⟩
    · exact traps_of_object wait run fits ((onRing_declared ok declared _).trans (if_pos short)) rfl
    · have slots : ¬r.ns < cnt.toNat := by rw [zero]; exact Nat.not_lt_zero _
      exact ⟨_, exec_issues wait run fits ((((onRing_declared ok declared _).trans (if_neg slots)).trans (if_pos zero)).trans
        (waitDone_scope0 m s)), retire_flowFrame m s⟩
    · exact ⟨_, exec_issues wait run fits (((onRing_declared ok declared _).trans (if_neg (Nat.not_lt.mpr slots))).trans (if_neg some_)),
        startWait_waits rfl rfl rfl ..⟩
    · exact traps_of_object rel run fits ((onRing_declared ok declared _).trans (if_pos short)) rfl
    · obtain ⟨frame, tile, -⟩ := modTile_retires m y (·.setRing g { r with free := r.free + BitVec.ofNat 32 cnt.toNat }) s
      have posts := posting_alone alone 0 fun s1 =>
        retire m (s1.modTile s1.cur.c y (·.setRing g { r with free := r.free + BitVec.ofNat 32 cnt.toNat }))
      rw [releaseAt_scope0] at posts
      refine ⟨_, exec_issues rel run fits (((onRing_declared ok declared _).trans (if_neg (Nat.not_lt.mpr filled))).trans posts), frame, ?_⟩
      rw [tile]; exact Tile.setRing_rings ..
    · obtain ⟨value, flights, frame⟩ := wr_retire m d (BitVec.ofNat 64 (r.fill.toNat * 2 ^ 32 + r.wb)) 12 none s
      exact ⟨_, exec_issues wp run fits (onRing_declared ok declared _), frame, value, flights⟩
    · exact traps_of_object wait run (fits_nil s) (onRing_undeclared ok undeclared _) rfl
    · exact traps_of_object rel run (fits_nil s) (onRing_undeclared ok undeclared _) rfl
    · exact traps_of_object wp run fits (onRing_undeclared ok undeclared _) rfl
  case barriers =>
    intro m b lim s g run plain hg alone bar me u ends joined shows
    have arrive : exec (.barArrive m b) s = execBarArrive m b s := rfl
    have wait : exec (.barWait m b lim) s = execBarWait m b lim s := rfl
    have sync : exec (.barSync m b lim) s = execBarSync m b lim s := rfl
    unfold execBarArrive at arrive
    unfold execBarWait at wait
    unfold execBarSync at sync
    have reach : Reach s u := releaseAt_reach ..
    have cur : u.cur = s.cur := reach.cur_eq
    have hu : u.gangOf u.cur.c = some g := by rw [cur, reach.gangOf_eq]; exact hg
    have fits := fits_nil s
    have late : ¬hasArrived s bar = true ↔ me ∉ bar.arrived := not_congr (hasArrived_iff s bar)
    have me_u : u.me = s.me := reach.me_eq
    have join : joined = arrived u g b := by
      unfold arrived; rw [cur]; rfl
    have hv : (arriveBar g b u).gangOf (arriveBar g b u).cur.c = some (g.setBar b joined) := by rw [join]; exact arriveBar_gangOf hu b
    have cycle : (arriveBar g b u).cycle = s.cycle := reach.cycle_eq
    have sync_arrives (new : me ∉ bar.arrived) : exec (.barSync m b lim) s = .next (barWait m b lim (arriveBar g b u)) := by
      refine exec_issues sync run fits ((onGang_some hg ..).trans ((posting_alone alone ..).trans ?_))
      exact congrArg (barWait m b lim) (if_neg (late.mpr new))
    refine ⟨fun new => ?_, fun again => ?_, fun again => ?_, fun new => ?_, fun new more => ?_, fun new last => ?_⟩
    · have arrives : exec (.barArrive m b) s = .next (retire m (arriveBar g b u)) :=
        exec_issues arrive run fits (((onGang_some hg ..).trans (if_neg (late.mpr new))).trans (posting_alone alone ..))
      refine ⟨_, arrives, ?_, retire_mem .., (retire_still ..).trans (congrArg _ me_u)⟩
      rw [join]; exact arriveBar_shows hu b (retire_frame ..).gangs_eq
    · rw [← objId_untiled 3]
      exact traps_of_object arrive run fits ((onGang_some hg ..).trans (if_pos ((hasArrived_iff s bar).mpr again))) rfl
    · exact ⟨_, exec_issues wait run fits (barWait_waits hg ((hasArrived_iff s bar).mpr again) m lim), startWait_waits rfl rfl rfl ..⟩
    · obtain ⟨still, place⟩ := waitDone_goes (.refl s) m (scopeSet s s.cur.c 1)
      exact ⟨_, exec_issues wait run fits (barWait_goes hg (late.mpr new) m lim), still, place plain⟩
    · have stands : joined = ⟨bar.phase, bar.arrived ++ [me]⟩ := if_neg more
      have there : hasArrived (arriveBar g b u) ((g.setBar b joined).bar b) = true := by
        rw [Gang.setBar_bar, hasArrived_iff, stands]
        show (u.cur.c, u.cur.k) ∈ _
        rw [cur]; exact List.mem_append_right _ (List.mem_singleton_self _)
      obtain ⟨starts, pc, -⟩ := startWait_me (s := s) (u := arriveBar g b u) me_u cycle m (.bar b bar.phase) lim
      have waits := barWait_waits hv there m lim
      rw [Gang.setBar_bar, stands] at waits
      refine ⟨_, (sync_arrives new).trans (congrArg _ waits), ?_, pc, starts⟩
      rw [join]; exact arriveBar_shows hu b (startWait_frame ..).gangs_eq
    · have over_ : joined = ⟨bar.phase + 1, []⟩ := if_pos last
      have gone : ¬hasArrived (arriveBar g b u) ((g.setBar b joined).bar b) = true := by
        rw [Gang.setBar_bar, hasArrived_iff, over_]; exact List.not_mem_nil
      obtain ⟨still, place⟩ := waitDone_goes (.refl (arriveBar g b u)) m (scopeSet (arriveBar g b u) (arriveBar g b u).cur.c 1)
      have me_v : (arriveBar g b u).me = s.me := me_u
      rw [me_v] at still place
      refine ⟨_, (sync_arrives new).trans (congrArg _ (barWait_goes hv gone m lim)), ?_, still, place plain⟩
      rw [join]; exact arriveBar_shows hu b (waitDone_gangs ..)

end Sys2Proof.Machine
end

section
/-! PROOF. The system words: calls to the handler, the return from it, and the invalidation of translations (05 R161 to R163, 09 R292,
R293). -/

namespace Sys2Proof.Machine

/-! Control writes that take effect leave the strand's state (R56). -/

theorem Strand.applyCtl_state (t : Strand) (n : BitVec 8) (op : CtlOp) (v : W) : (t.applyCtl n op v).state = t.state := by
  have ended : t.endRep.state = t.state := by have e := congrArg Strand.state t.endRep_still; exact e
  unfold Strand.applyCtl
  split
  case h_9 => dsimp only; split_ifs <;> [exact ended; rfl]
  all_goals rfl

theorem Strand.settleCtl_state (t : Strand) (cycle : Nat) : (t.settleCtl cycle).state = t.state := by
  have folded : ∀ (ws : List CtlWrite) (u : Strand), (ws.foldl (fun a x => a.applyCtl x.num x.op x.val) u).state = u.state := by
    intro ws
    induction ws with
    | nil => exact fun _ => rfl
    | cons w ws ih => exact fun u => (ih _).trans (u.applyCtl_state ..)
  exact folded ..

/-! Single bits of the status. -/

theorem saveTrap_xstatus (t : Strand) (code : BitVec 8) (fwl : Bool) (detail : BitVec 16) (tval epc : W) :
    (t.saveTrap code fwl detail tval epc).xstatus = entered t.xstatus := by
  show setBit (setBit (setBit (setBit t.xstatus 2 (t.xstatus.getLsbD 0)) 3 (t.xstatus.getLsbD 1)) 0 false) 6 true = _
  unfold entered setBit
  generalize t.xstatus.getLsbD 0 = ie
  generalize t.xstatus.getLsbD 1 = lvl
  refine BitVec.eq_of_getLsbD_eq fun i hi => ?_
  cases ie <;> cases lvl <;> simp only [BitVec.getLsbD_or, BitVec.getLsbD_and, BitVec.getLsbD_not, if_true, Bool.false_eq_true, if_false] <;>
    generalize t.xstatus.getLsbD i = b <;> revert i b <;> decide

/-! Taking an exception at a handler (R161, R293). -/

theorem exec_svc {s : State} (run : Runs s) (m : Marks) (n : BitVec 8) : exec (.svc m n) s = .next (trap s 0x09 0 (n.setWidth 64)) :=
  issueWord_next run (fits_nil s) fun s => trap s 0x09 0 (n.setWidth 64)

theorem exec_brk {s : State} (run : Runs s) (m : Marks) (n : BitVec 8) : exec (.brk m n) s = .next (trap s 0x0a 0 (n.setWidth 64)) :=
  issueWord_next run (fits_nil s) fun s => trap s 0x0a 0 (n.setWidth 64)

theorem Core.withdraw_of_no_wait {x : Core} {k : Sn} (h : (x.strand k).wait = none) : x.withdraw k = x := if_neg (by rw [h]; decide)

theorem Entered.of_zWait {u t : Strand} {code : BitVec 8} {detail : BitVec 16} {tval epc h : W} {cycle : Nat} {z : Bool}
    (e : Entered u { t with zWait := z } code detail tval epc h cycle) : Entered u t code detail tval epc h cycle :=
  ⟨e.state, e.pc, e.xepc, e.xcause, e.xtval, e.xstatus, e.drained, e.rest⟩

/-- The strand u at its handler h: its trap registers saved, its first word eligible behind its results. -/
def Strand.trapped (u : Strand) (code : BitVec 8) (tval epc h : W) (cycle : Nat) : Strand :=
  (u.saveTrap code false 0 tval epc).enterHandler cycle h

theorem Strand.trapped_entered (u : Strand) (code : BitVec 8) (tval epc h : W) (cycle : Nat) :
    Entered u (u.trapped code tval epc h cycle) code 0 tval epc h cycle := by
  refine ⟨rfl, rfl, rfl, ?_, rfl, saveTrap_xstatus u code false 0 tval epc, rfl, rfl⟩
  show (code.setWidth 64 ||| 0 ||| ((0 : BitVec 16).setWidth 64 <<< 16) : W).toNat = _
  simpa using Nat.lt_of_lt_of_le code.isLt (by decide)

/-- The core at whose strand k the strand v has entered its handler. -/
def Core.enters (x : Core) (k : Sn) (v : Strand) : Core := (x.setStrand k v).settleRendezvous

theorem Core.enters_frame (x : Core) (k : Sn) (v : Strand) :
    { x.enters k v with strands := x.strands, order := x.order, issued := x.issued } = x := by
  have e := congrArg (fun y : Core => { y with strands := x.strands, order := x.order, issued := x.issued })
    (x.setStrand k v).settleRendezvous_frame
  exact e

theorem Core.enters_strand (x : Core) (k : Sn) (v : Strand) : { (x.enters k v).strand k with zWait := v.zWait } = v := by
  have e := (x.setStrand k v).settleRendezvous_strand k
  rwa [Core.strand_setStrand] at e

theorem Core.enters_strand_ne (x : Core) {k j : Sn} (v : Strand) (h : j ≠ k) :
    { (x.enters k v).strand j with zWait := (x.strand j).zWait } = x.strand j := by
  have e := (x.setStrand k v).settleRendezvous_strand j
  rwa [Core.strand_setStrand_ne _ _ h] at e

/-- A strand of the current core enters its handler. -/
theorem enters_word (s : State) (v : Strand) (n : Nat) :
    WordFrame s ((s.modMyCore (·.enters s.cur.k v)).withFresh n) ∧
      { ((s.modMyCore (·.enters s.cur.k v)).withFresh n).me with zWait := v.zWait } = v := by
  have core : (s.modMyCore (·.enters s.cur.k v)).myCore = s.myCore.enters s.cur.k v := State.myCore_modMyCore ..
  refine ⟨(WordFrame.modMyCore s _ (s.myCore.enters_frame ..) fun k hk => s.myCore.enters_strand_ne v hk).trans (.fresh _ n), ?_⟩
  have me : ((s.modMyCore (·.enters s.cur.k v)).withFresh n).me = (s.myCore.enters s.cur.k v).strand s.cur.k :=
    congrArg (Core.strand · s.cur.k) core
  rw [me]; exact Core.enters_strand ..

/-- A strand in Run that waits for nothing, whose gang has a handler for the cause, enters it. -/
theorem takeTrap_eq {s : State} (run : s.me.state = .run) (free : s.me.wait = none) {code : BitVec 8} {h : W}
    (handler : (s.gangOf s.cur.c).bind (·.handler code) = some h) (tval : W) : takeTrap s s.cur.c s.cur.k true code false 0 tval s.me.pc =
      (s.modMyCore (·.enters s.cur.k ((s.me.settleCtl (s.cycle + 2)).trapped code tval s.me.pc h s.cycle))).withFresh (s.fresh + 1) := by
  have alive : ¬(true = true ∧ (s.me.settleCtl (s.cycle + 2)).state = .handler) := by
    rw [Strand.settleCtl_state, run]; exact fun e => nomatch e.2
  have core : s.myCore.withdraw s.cur.k = s.myCore := Core.withdraw_of_no_wait free
  refine (if_neg alive).trans ?_
  simp only [handler]
  exact congrArg (fun x : Core => (s.setCore s.cur.c
    (x.enters s.cur.k ((s.me.settleCtl (s.cycle + 2)).trapped code tval s.me.pc h s.cycle))).withFresh (s.fresh + 1)) core

theorem takeTrap_enters {s : State} (run : s.me.state = .run) (free : s.me.wait = none) {code : BitVec 8} {h : W}
    (handler : (s.gangOf s.cur.c).bind (·.handler code) = some h) (tval : W) :
    let t := takeTrap s s.cur.c s.cur.k true code false 0 tval s.me.pc
    WordFrame s t ∧ Entered (s.me.settleCtl (s.cycle + 2)) t.me code 0 tval s.me.pc h s.cycle := by
  intro t
  obtain ⟨frame, me⟩ := enters_word s ((s.me.settleCtl (s.cycle + 2)).trapped code tval s.me.pc h s.cycle) (s.fresh + 1)
  rw [← takeTrap_eq run free handler tval] at frame me
  refine ⟨frame, .of_zWait (z := ((s.me.settleCtl (s.cycle + 2)).trapped code tval s.me.pc h s.cycle).zWait) ?_⟩
  rw [me]; exact Strand.trapped_entered ..

/-! The return (R162). -/

theorem eret_xstatus (t : Strand) : t.eret.xstatus = returned t.xstatus := by
  show setBit (setBit (setBit t.xstatus 0 (t.xstatus.getLsbD 2)) 1 (t.xstatus.getLsbD 3)) 6 false = _
  unfold returned setBit
  generalize t.xstatus.getLsbD 2 = ie
  generalize t.xstatus.getLsbD 3 = lvl
  refine BitVec.eq_of_getLsbD_eq fun i hi => ?_
  cases ie <;> cases lvl <;> simp only [BitVec.getLsbD_or, BitVec.getLsbD_and, BitVec.getLsbD_not, if_true, Bool.false_eq_true, if_false] <;>
    generalize t.xstatus.getLsbD i = b <;> revert i b <;> decide

theorem eret_inRep (t : Strand) : t.eret.inRep = true ↔ t.xrep.toNat % 2 ^ 32 ≠ 0 := by
  show decide ((t.xrep.setWidth 32 : BitVec 32) ≠ 0) = true ↔ _
  rw [decide_eq_true_iff, ← BitVec.toNat_inj.ne, BitVec.toNat_setWidth]; rfl

theorem exec_eret {s : State} (run : Runs s) (under : s.me.xstatus.getLsbD 6 = true) (m : Marks) :
    exec (.eret m) s = .next ((issue m s).modMe (·.eret)) :=
  issueLegal_next (legal := fun s => stBit s.me.xstatus 6) run (fits_nil s) under fun s => (issue m s).modMe (·.eret)

/-! Invalidation (R163). -/

theorem exec_tlbi {s : State} (run : Runs s) (lvl : s.me.xstatus.getLsbD 1 = true) {a : Sreg} (fits : Fits s [a.toNat]) (m : Marks)
    (kind : BitVec 8) : exec (.tlbi m a kind) s = .next
      (if s.myCore.storesHome then retire m (s.modMyCore (·.tlbi (tlbiHit kind (s.ctxOf s.cur.c) (rd s a 1)))) else hold s) := by
  have word : exec (.tlbi m a kind) s = execTlbi m a kind s := rfl
  unfold execTlbi at word
  exact word.trans (issueLegal_next run fits lvl _)

theorem tlbi_retires (m : Marks) (hit : TlbEntry → Bool) (s : State) :
    let t := retire m (s.modMyCore (·.tlbi hit))
    t.myCore.tlb = s.myCore.tlb.filter (fun e => !hit e) ∧
      (∀ y, (t.tile s.cur.c y).streamTlb = (s.tile s.cur.c y).streamTlb.filter (fun e => !hit e.2)) ∧ OwnCore s t ∧ t.me.still = s.me.still := by
  intro t
  have frame : WordFrame (s.modMyCore (·.tlbi hit)) t := retire_frame ..
  have core := frame.core
  have dropped : (s.modMyCore (·.tlbi hit)).myCore = s.myCore.tlbi hit := State.myCore_modMyCore ..
  unfold sameCore at core
  rw [dropped] at core
  have tlb := congrArg Core.tlb core
  have tiles := fun y => congrArg (fun x : Core => (x.tile y).streamTlb) core
  have cur := frame.cur_eq
  refine ⟨?_, fun y => ?_, (OwnCore.modMyCore s rfl).trans frame.ownCore, (retire_still ..).trans (congrArg _ (State.me_modMyCore s rfl))⟩
  · rw [State.myCore, cur]; exact tlb
  · refine (tiles y).trans ?_
    exact congrArg Tile.streamTlb (Vector.get_each ..)

/-- Settles O23: a call takes its trap, which enters a handler with the status saved; eret gives the status back; tlbi keeps the
translations it does not name. -/
theorem systemWords : Obligations.SystemWords := by
  refine ⟨fun m n s run => ⟨exec_svc run m n, exec_brk run m n⟩,
    fun m n s h run free => ⟨fun handler => ?_, fun handler => ?_⟩, fun m s run => ⟨fun under => ?_, fun out => ?_⟩,
    fun m a kind s run => ⟨fun lvl fits busy => ?_, fun lvl fits home => ?_, fun task => ?_⟩⟩
  · exact ⟨_, exec_svc (.inl run) m n, takeTrap_enters run free handler _⟩
  · exact ⟨_, exec_brk (.inl run) m n, takeTrap_enters run free handler _⟩
  · have me : ((issue m s).modMe (·.eret)).me = (issue m s).me.eret := State.me_modMe ..
    have kept {α : Type} (f : Strand → α) (hf : ∀ (t : Strand) i g w z, f { t with issues := i, gapUntil := g, swUntil := w, zWait := z } = f t) :
        f (issue m s).me = f s.me := issue_me_field f m s hf
    refine ⟨_, exec_eret run under m, ?_⟩
    rw [me, eret_xstatus, eret_inRep, kept Strand.xstatus fun _ _ _ _ _ => rfl, kept Strand.xrep fun _ _ _ _ _ => rfl]
    exact ⟨rfl, congrArg (· &&& ~~~3) (kept Strand.xepc fun _ _ _ _ _ => rfl), rfl, Iff.rfl, rfl, kept Strand.xepc fun _ _ _ _ _ => rfl,
      kept Strand.xcause fun _ _ _ _ _ => rfl, kept Strand.regs fun _ _ _ _ _ => rfl, kept Strand.preds fun _ _ _ _ _ => rfl,
      (issue_frame m s).trans (.modMe _ _)⟩
  · exact traps_of_illegal (legal := fun s => stBit s.me.xstatus 6) (fields := []) (body := fun s => (issue m s).modMe (·.eret)) run rfl out
  · rw [Holds, exec_tlbi run lvl fits, busy]; rfl
  · obtain ⟨tlb, streams, own, still⟩ := tlbi_retires m (tlbiHit kind (s.ctxOf s.cur.c) (rd s a 1)) s
    refine ⟨_, (exec_tlbi run lvl fits m kind).trans (congrArg _ (if_pos home)), tlb, streams, own.outside, own.clusters, still⟩
  · have word : exec (.tlbi m a kind) s = execTlbi m a kind s := rfl
    unfold execTlbi at word
    exact traps_of_illegal run word task

end Sys2Proof.Machine
end

section
/-! PROOF. The address of a tile's scratchpad in space 1: it is the tile of the rank that the address names which must be there, not the
issuer's own (08 R249, R250). -/

namespace Sys2Proof.Machine

/-- A gang of clusters 0 and 1. -/
def pairGang : Gang where
  id := 0
  members := [⟨0, 0⟩, ⟨1, 1⟩]
  wide := false
  ctx := 0
  launch := 0
  node := 0
  inst := 0
  arg := 0
  tag := 0
  key := none
  image := ⟨1, [3, 0, 0, 0], 0, [0, 0, 0, 0], none, [], 0, [], 0, [], [], []⟩
  base := 0
  bars := Vector.replicate 16 ⟨0, []⟩
  preempt := none
  diverted := false

/-- That gang holds cluster 0, its context names both clusters by their own numbers, and the configuration record disables tile 0 of
cluster 1. -/
def pairState : State :=
  ({ State.reset with gangs := [pairGang], config := { ConfigRecord.blank with tileDisable := BitVec.twoPow 512 8 } }.modCtx 0
    fun x => { x with cmap := (x.cmap.set 0 (some 0)).set 1 (some 1) }).modCore 0 fun x => { x with gang := some 0 }

/-- Byte 0 of the scratchpad of tile 0 at rank 1. -/
def rankOneAddr : W := 0x9000000000800000

theorem pairState_gangOf : pairState.gangOf 0 = some pairGang := by
  rw [State.gangOf, pairState, State.core_modCore]; rfl

theorem pairState_physOf : pairState.physOf 0 1 = some 1 := by
  have ctx : pairState.ctx 0 = { Context.reset with cmap := (Context.reset.cmap.set 0 (some 0)).set 1 (some 1) } :=
    Vector.get_set_same (i := 0) ..
  rw [State.physOf, ctx]
  exact Vector.get_set_same (i := 1) ..

theorem pairState_rankCluster : pairState.rankCluster 0 1 = some 1 := by
  rw [State.rankCluster, pairState_gangOf]; exact pairState_physOf

theorem pairState_tileOk (c : Cl) (t : Tl) : pairState.tileOk c t = !decide (8 = c.val * 8 + t.val) := by
  show (!(BitVec.twoPow 512 8).getLsbD (c.val * 8 + t.val)) = _
  rw [BitVec.getLsbD_twoPow]; rfl

theorem pairState_target : target pairState 0 rankOneAddr 8 = .error 3 := by
  have rank : bits (rankOneAddr.toNat % 2 ^ 60) 23 6 = 1 := by decide
  have outside : inspace pairState 0 1 (rankOneAddr.toNat % 2 ^ 60) 8 = false := by
    simp only [inspace, rank, pairState_rankCluster, Option.elim, pairState_tileOk]
    rw [show decide (8 = (1 : Cl).val * 8 + (Fin.ofNat 8 (bits (rankOneAddr.toNat % 2 ^ 60) 20 3) : Tl).val) = true by decide]
    simp
  have space : bits rankOneAddr.toNat 60 3 = 1 := by decide
  simp only [target, space, outside]
  decide

/-- Refutes O24: with two clusters in a gang, tile 0 of the other one disabled, the address of that tile's scratchpad in space 1 is no
target, while the issuer's own tile 0 is there. -/
theorem not_addressTargets : ¬ Obligations.AddressTargets := by
  intro h
  obtain ⟨-, -, -, -, -, space1, -⟩ := h pairState 0 rankOneAddr 8 (by decide)
  have size : pairState.gangSize 0 = 2 := by rw [State.gangSize, pairState_gangOf]; rfl
  have claimed := space1 (by decide) (by decide)
  rw [pairState_target, size, pairState_tileOk, if_pos (by decide)] at claimed
  exact nomatch claimed

end Sys2Proof.Machine
end

section
/-! PROOF. A store that reaches a frame of device memory for the first time under a key leaves that key with the frame (12 R342, R343, log
29), which is no part of the cores. -/

namespace Sys2Proof.Machine

theorem resolve_virt_ok {s : State} {c : Cl} {va : W} {rd wr : Bool} {e : TlbEntry}
    (h : lookup s (s.core c).tlb (s.ctxOf c) va.toNat rd wr (s.requestKey c) = .ok e) : resolve s c (.virt va none) rd wr =
      ((s.entryView e va.toNat).modCore c fun x => { x with tlb := tlbInstall s 128 x.tlb e },
        .ok (.loc (s.entryLoc e va.toNat) 5 (some e.key))) := by
  simp only [resolve, translateCore, h]

/-- The translation of the first large page of context 0 to the first locations of device memory, under key 0. -/
def firstPage : TlbEntry := ⟨0, 0, true, 0, true, true, 0⟩

/-- Strand 0 of cluster 0 runs; its core knows that translation, its context owns the key, and the die's memory is on. -/
def storingState : State :=
  (((State.reset.modCtx 0 fun x => { x with keymap := BitVec.twoPow 512 0 }).modDie 0 fun y => { y with uncore := true }).modCore 0
    fun x => { x with tlb := [firstPage] }).modStrand 0 0 fun t => { t with state := .run }

theorem storingState_me : storingState.me = { Strand.reset with state := .run } := State.strand_modStrand ..

theorem storingState_runs : Runs storingState := .inl (congrArg Strand.state storingState_me)

theorem storingState_fits : Fits storingState [(1 : Sreg).toNat, (2 : Sreg).toNat] := by
  have allot : storingState.me.allot = 8 := by rw [storingState_me]; decide
  intro f hf
  rw [allot]
  revert f; decide

theorem storingState_rd : rd storingState 2 1 = 0 := by
  have flights : storingState.me.flights = [] := by rw [storingState_me]; rfl
  have idle : storingState.me.regBusy storingState.cycle 2 = false := by
    unfold Strand.regBusy; rw [flights]; rfl
  rw [rd_of_readable ⟨idle, fun h => absurd h (by decide)⟩, storingState_me]
  exact Vector.get_replicate ..

theorem storingState_core : (storingState.core 0).tlb = [firstPage] ∧ (storingState.core 0).gang = none := by
  unfold storingState
  rw [State.core_modStrand, Core.modStrand_tlb, Core.modStrand_gang, State.core_modCore]
  exact ⟨rfl, rfl⟩

theorem storingState_lookup :
    lookup storingState (storingState.core 0).tlb (storingState.ctxOf 0) 0 false true (storingState.requestKey 0) = .ok firstPage := by
  have ctx : storingState.ctxOf 0 = 0 := by rw [State.ctxOf, State.gangOf, storingState_core.2]; rfl
  rw [storingState_core.1, ctx]; rfl

theorem storingState_entryLoc : storingState.entryLoc firstPage 0 = 0 := by
  have ctx : storingState.ctx 0 = { Context.reset with keymap := BitVec.twoPow 512 0 } := Vector.get_set_same (i := 0) ..
  have kept : storingState.keyRetired.getLsbD 0 = false := BitVec.getLsbD_zero
  have owned : keyOk storingState 0 0 = true := by
    show ((storingState.ctx 0).keymap.getLsbD 0 && !storingState.keyRetired.getLsbD 0) = true
    rw [ctx, kept, BitVec.getLsbD_twoPow]; rfl
  exact if_pos owned

theorem storingState_view : (storingState.entryView firstPage 0).pageKeys = [(0, 0, 0)] := by
  have uncore : (storingState.die 0).uncore = true := congrArg DieRec.uncore (Vector.get_set_same (i := 0) ..)
  have on : storingState.uncoreOff (0 * 2 ^ 16) = false := by
    show (decide (0 * 2 ^ 16 < hbmSize) && !(storingState.die 0).uncore) = false
    rw [uncore]; decide
  have keyed : keyFrame 0 0 storingState = { storingState with pageKeys := [(0, 0, 0)] } := by
    unfold keyFrame; simp only [on]; rfl
  rw [State.entryView, storingState_entryLoc]
  exact (congrArg State.pageKeys (if_pos (by decide))).trans (congrArg State.pageKeys keyed)

/-- Refutes O26: a store's translation under key 0 enters the frame in the list of frame keys, so that not everything outside the cores
stands. -/
theorem not_storeAndPostedWords : ¬ Obligations.StoreAndPostedWords := by
  rintro ⟨words, -⟩
  obtain ⟨stB, -⟩ := words .plain 1 2 0 0 0 0
  obtain ⟨posts, -⟩ := stB storingState storingState_runs storingState_fits
  have address : rd storingState 2 1 + BitVec.ofInt 64 ((0 : BitVec 6).toInt * (1 : Nat)) = 0 := by rw [storingState_rd]; rfl
  have translated := resolve_virt_ok (va := 0) storingState_lookup
  rw [show (0 : W).toNat = 0 from rfl] at translated
  have room : storingState.me.storesBuffered < 16 := by rw [storingState_me]; exact Nat.zero_lt_succ 15
  have target_ok : target storingState storingState.cur.c (rd storingState 2 1 + BitVec.ofInt 64 ((0 : BitVec 6).toInt * (1 : Nat))) 1 = .ok (5, 0) := by
    rw [address]; rfl
  obtain ⟨t, -, -, outside, frame, -⟩ := (posts 5 0 _ _ target_ok translated).1 room
  have same : t.pageKeys = [] := congrArg State.pageKeys outside
  have keyed := congrArg State.pageKeys frame.word.outside
  rw [State.modCore_pageKeys, storingState_view] at keyed
  exact nomatch keyed.symm.trans same

end Sys2Proof.Machine
end

section
/-! PROOF. The delivery of a far access (05 R133, R135, R138), where the translation of an older one changes the key under which a table of
peer windows is read (12 R360, R434, log 29). -/

namespace Sys2Proof.Machine

/-- The block of zeros under key 0: the tweak of a frame of device memory's first line. -/
def zeroTweak : Nat := 179614621782202055820004664903534155228

/-- That tweak under key 13. -/
def lockedTweak : Nat := 119636965817838190194164717639510114216

/-- That block as key 0 deciphers it. -/
def misread : Nat := 101414562506571234744485408264180416476

/-! The cipher on one block (12 R434), evaluated by the kernel. -/

theorem encrypt_zero : ofBytes (Xts.encrypt (Xts.roundKeys (Xts.keyBytes 0 0)) (bytesOf 16 0)) = zeroTweak := by decide +kernel

theorem encrypt_thirteen : Xts.encrypt (Xts.roundKeys (Xts.keyBytes 13 0)) (bytesOf 16 zeroTweak) = bytesOf 16 lockedTweak := by
  decide +kernel

theorem decrypt_zero : Xts.decrypt (Xts.roundKeys (Xts.keyBytes 0 0)) (bytesOf 16 lockedTweak) = bytesOf 16 misread := by decide +kernel

theorem keyBytes_second : Xts.keyBytes 0 1 = Xts.keyBytes 0 0 ∧ Xts.keyBytes 13 1 = Xts.keyBytes 0 0 := by decide +kernel

/-! The first block of a line under the cipher. -/

theorem lineWith_head (f : List Byte → List Byte) (t : BitVec 128) (bs : List Byte) :
    ∃ r, Xts.lineWith f t bs = Xts.xorB (f (Xts.xorB (bs.take 16) (bytesOf 16 t.toNat))) (bytesOf 16 t.toNat) ++ r := by
  have blocks : ∃ b c d, Xts.lineWith f t bs =
      [] ++ Xts.xorB (f (Xts.xorB (bs.take 16) (bytesOf 16 t.toNat))) (bytesOf 16 t.toNat) ++ b ++ c ++ d := ⟨_, _, _, rfl⟩
  obtain ⟨b, c, d, blocks⟩ := blocks
  exact ⟨b ++ c ++ d, by rw [blocks]; simp only [List.nil_append, List.append_assoc]⟩

/-! A frame locked under one key and read under another: its first bytes are those of its first line's first block. -/

theorem writeBytes_append (bs cs : List Byte) (s : State) (x : Nat) :
    writeBytes s x (bs ++ cs) = writeBytes (writeBytes s x bs) (x + bs.length) cs := by
  induction bs generalizing s x with
  | nil => rfl
  | cons b bs ih =>
    refine (ih (s.setByte x b) (x + 1)).trans (congrArg (writeBytes (writeBytes s x (b :: bs)) · cs) ?_)
    rw [List.length_cons]; omega

theorem setByte_byte_ne {s : State} (wf : s.memWf) {x y : Nat} (v : Byte) (h : y ≠ x) : (s.setByte x v).byte y = s.byte y := by
  unfold State.setByte
  split
  · rfl
  · exact (memGet_memSet s.mem 0 x y v wf).trans (if_neg h)

theorem writeBytes_byte_lt (bs : List Byte) {s : State} (wf : s.memWf) {x y : Nat} (h : y < x) : (writeBytes s x bs).byte y = s.byte y := by
  induction bs generalizing s x with
  | nil => rfl
  | cons b bs ih => exact (ih (State.memWf_setByte wf x b) (by omega)).trans (setByte_byte_ne wf b (by omega))

theorem foldl_byte_lt {f : State → Nat → State} {y : Nat} (wf : ∀ s l, s.memWf → (f s l).memWf) :
    ∀ {ls : List Nat}, (∀ s, s.memWf → ∀ l ∈ ls, (f s l).byte y = s.byte y) → ∀ s : State, s.memWf → (ls.foldl f s).byte y = s.byte y
  | [], _, _, _ => rfl
  | l :: _, keep, s, h =>
    (foldl_byte_lt wf (fun s hs l hl => keep s hs l (List.mem_cons_of_mem _ hl)) (f s l) (wf s l h)).trans (keep s h l List.mem_cons_self)

theorem recryptFrame_head {s : State} (wf : s.memWf) (old new : BitVec 512) {b r : List Byte} (present : ∀ i, i < b.length → Present s i)
    (line : Xts.unlock new 0 (Xts.lock old 0 (readHome s 0 64)) = b ++ r) {n : Nat} (short : n ≤ b.length) (inLine : n ≤ 64) :
    readHome (recryptFrame old new 0 s) 0 n = b.take n := by
  have byte {y : Nat} (hy : y < n) : (recryptFrame old new 0 s).byte y = (b[y]?).getD 0 := by
    unfold recryptFrame
    rw [show (1024 : Nat) = 1023 + 1 from rfl, List.range_succ_eq_map, List.foldl_cons]
    rw [foldl_byte_lt (fun s l h => writeBytes_memWf _ _ _ h) ?later _ (writeBytes_memWf _ _ _ wf)]
    · show (writeBytes s 0 _).byte y = _
      have first : Xts.unlock new (0 * 2 ^ 16 + 64 * 0) (Xts.lock old (0 * 2 ^ 16 + 64 * 0) (readHome s (0 * 2 ^ 16 + 64 * 0) 64)) = b ++ r :=
        line
      rw [first, writeBytes_append, writeBytes_byte_lt _ (writeBytes_memWf _ _ _ wf) (by omega),
        writeBytes_byte b s 0 y wf fun i hi => (Nat.zero_add i).symm ▸ present i hi, if_pos (by omega)]
      rfl
    · intro z hz l hl
      obtain ⟨l, -, rfl⟩ := List.mem_map.mp hl
      exact writeBytes_byte_lt _ hz (by omega)
  refine List.ext_getElem? fun i => ?_
  by_cases hi : i < n
  · have inside : i < b.length := by omega
    rw [readHome_get _ _ _ _ hi, Nat.zero_add, byte hi, List.getElem?_take_of_lt hi, List.getElem?_eq_getElem inside]; rfl
  · rw [List.getElem?_eq_none (by rw [readHome_length]; omega), List.getElem?_eq_none (by rw [List.length_take]; omega)]

/-- The first line of device memory, blank under key 13, as it reads under key 0: a descriptor of a peer window. -/
theorem blank_line_misread : ∃ r, Xts.unlock 0 0 (Xts.lock 13 0 (List.replicate 64 0)) =
    Xts.xorB (bytesOf 16 misread) (bytesOf 16 zeroTweak) ++ r := by
  obtain ⟨same, same13⟩ := keyBytes_second
  have tweak0 : Xts.tweak 0 0 = BitVec.ofNat 128 zeroTweak := by rw [Xts.tweak, same, encrypt_zero]
  have tweak13 : Xts.tweak 13 0 = BitVec.ofNat 128 zeroTweak := by rw [Xts.tweak, same13, encrypt_zero]
  have small : (BitVec.ofNat 128 zeroTweak).toNat = zeroTweak := Nat.mod_eq_of_lt (by decide)
  obtain ⟨r, locked⟩ := lineWith_head (Xts.encrypt (Xts.roundKeys (Xts.keyBytes 13 0))) (.ofNat 128 zeroTweak) (List.replicate 64 0)
  obtain ⟨q, read⟩ := lineWith_head (Xts.decrypt (Xts.roundKeys (Xts.keyBytes 0 0))) (.ofNat 128 zeroTweak) (Xts.lock 13 0 (List.replicate 64 0))
  rw [small, show Xts.xorB ((List.replicate 64 0).take 16) (bytesOf 16 zeroTweak) = bytesOf 16 zeroTweak by decide +kernel,
    encrypt_thirteen, ← tweak13] at locked
  have block : (Xts.lock 13 0 (List.replicate 64 0)).take 16 = Xts.xorB (bytesOf 16 lockedTweak) (bytesOf 16 zeroTweak) := by
    refine (congrArg (List.take 16) locked).trans (List.take_left' ?_)
    rw [Xts.xorB, List.length_zipWith, bytesOf_length, bytesOf_length]; rfl
  have untweaked : Xts.xorB (Xts.xorB (bytesOf 16 lockedTweak) (bytesOf 16 zeroTweak)) (bytesOf 16 zeroTweak) = bytesOf 16 lockedTweak := by
    decide +kernel
  rw [small, block, untweaked, decrypt_zero, ← tweak0] at read
  exact ⟨q, read⟩

/-! A far load at a peer that is refused. -/

/-- The descriptor of a table of one entry. -/
def State.onlyWindow (s : State) (x : Fin 64) : PeerWindow :=
  .ofWords (BitVec.ofNat 64 (tableWord s ((s.ctx x).windowLoc 0))) (BitVec.ofNat 64 (tableWord s ((s.ctx x).windowLoc 0 + 8)))
    (BitVec.ofNat 64 (tableWord s ((s.ctx x).windowLoc 0 + 16)))

theorem window_of_one {s : State} {x : Fin 64} (one : (s.ctx x).pwn = 1) (ep : BitVec 12) (win : BitVec 4) : s.window x ep win =
    [s.onlyWindow x].find? fun w => w.valid && w.ep == ep && w.win == win := by
  rw [State.window, State.windows, one]; rfl

theorem performPend_load_refused {u s1 : State} {c : Cl} {k : Sn} {slot : BitVec 3} {n cls why : Nat} {sg : Bool} {ep : BitVec 12}
    {win : BitVec 4} {off : BitVec 44} {pc : W}
    (h : peerAccess (u.withFresh (u.fresh + 1)) (.access c k) (u.ctxOf c) cls ep win off.toNat (.read (min n 8)) = (s1, .refused why)) :
    performPend u c k ⟨.load slot n sg, cls, .peer ep win off, none, none, false, pc⟩ =
      .done (s1.modStrand c k (·.deliver slot (.refused (BitVec.ofNat 16 why) (peerAddress ep win off)))) := by
  have load : loadPeer (.access c k) (u.ctxOf c) cls ep win 32 off.toNat n [] (u.withFresh (u.fresh + 1)) = (s1, .refused why) := by
    unfold loadPeer; rw [h]
  have answer : loadAt (u.withFresh (u.fresh + 1)) c k cls (.peer ep win off) n false = (s1, .refused why) := by
    have ctx : (u.withFresh (u.fresh + 1)).ctxOf c = u.ctxOf c := rfl
    unfold loadAt; simp only [ctx, load]
  unfold State.withFresh at answer
  unfold performPend
  simp only [resolve, Tgt.poison, answer]
  rfl

theorem Strand.deliver_head (t : Strand) (r : FlqResult) {e : FlqEntry} {es : List FlqEntry} (flq : t.flq = e :: es) :
    (t.deliver t.flqHead r).flq.head? = some ⟨e.d, r⟩ := by
  have head : (t.deliver t.flqHead r).flq.head? =
      (t.flq.mapIdx fun n e => if n = (t.flqHead - t.flqHead).toNat then { e with res := r } else e).head? := rfl
  rw [head, flq, List.mapIdx_cons, BitVec.sub_self, if_pos (by rfl)]; rfl

theorem Strand.deliver_slotRefused (t : Strand) (detail : BitVec 16) (addr : W) {e : FlqEntry} {es : List FlqEntry} (flq : t.flq = e :: es) :
    (t.deliver t.flqHead (.refused detail addr)).slotRefused t.flqHead = true := by
  have oldest : (t.deliver t.flqHead (.refused detail addr)).flq[(t.flqHead - t.flqHead).toNat]? = some ⟨e.d, .refused detail addr⟩ := by
    rw [BitVec.sub_self, show (0#3).toNat = 0 from rfl, ← List.head?_eq_getElem?]; exact t.deliver_head _ flq
  have head : (t.deliver t.flqHead (.refused detail addr)).flqHead = t.flqHead := rfl
  rw [Strand.slotRefused, head, oldest]; rfl

/-- A refused far load whose entry is the oldest leaves the refusal there. -/
theorem farEnd_refused {s u s1 : State} {c : Cl} {k : Sn} {j n cls why : Nat} {slot : BitVec 3} {sg : Bool} {ep : BitVec 12} {win : BitVec 4}
    {off : BitVec 44} {pc : W} {e : FlqEntry} {es : List FlqEntry}
    (hp : (s.strand c k).pend[j]? = some ⟨.load slot n sg, cls, .peer ep win off, none, none, false, pc⟩) (hc : canPerform s c k j = true)
    (hu : translateOlder c k ((s.strand c k).pend.take j) s = some u)
    (h : peerAccess (u.withFresh (u.fresh + 1)) (.access c k) (u.ctxOf c) cls ep win off.toNat (.read (min n 8)) = (s1, .refused why))
    (flq : (s1.strand c k).flq = e :: es) (oldest : (s1.strand c k).flqHead = slot) :
    (((farEnd .refused c k j s).strand c k).flq.head?).map FlqEntry.res = some (.refused (BitVec.ofNat 16 why) (peerAddress ep win off)) := by
  have refused := (s1.strand c k).deliver_slotRefused (BitVec.ofNat 16 why) (peerAddress ep win off) flq
  have delivered := (s1.strand c k).deliver_head (.refused (BitVec.ofNat 16 why) (peerAddress ep win off)) flq
  rw [oldest] at refused delivered
  unfold farEnd
  simp only [hp, hc, hu, performPend_load_refused h, AccKind.slot?, State.strand_modStrand, refused, if_true]
  rw [if_pos ⟨rfl, by decide⟩, State.strand_modStrand, State.strand_modStrand]
  exact congrArg (Option.map FlqEntry.res) delivered

theorem peerAccess_unrouted {s : State} {who : FaultAgent} {x : Fin 64} {cls o : Nat} {ep : BitVec 12} {win : BitVec 4} {op : PeerOp}
    {w : PeerWindow} (found : s.window x ep win = some w) (len : o + op.size ≤ w.len) (permits : w.permits op = true) (memory : win ≠ 15)
    (other : ep ≠ s.endpoint) (unrouted : s.routed ep = false) : peerAccess s who x cls ep win o op = countAns x (s, .refused 1) := by
  unfold peerAccess
  simp only [found]
  rw [if_neg (by rw [permits]; rintro (h | h) <;> [omega; cases h]), if_neg fun h => memory h.1, if_neg other, if_pos unrouted]

/-- The first frame of device memory as it reads under slot 0, when it was reached under another key. -/
theorem tableWord_recrypted {s : State} (wf : s.memWf) (on : s.uncoreOff 0 = false) {k : Nat} {key : BitVec 512} (keys : s.pageKeys = [(0, k, key)])
    (differs : key ≠ tabGet s.keyBits 0 0) {b r : List Byte} (long : b.length = 16)
    (line : Xts.unlock (tabGet s.keyBits 0 0) 0 (Xts.lock key 0 (readHome s 0 64)) = b ++ r) : tableWord s 0 = ofBytes (b.take 8) := by
  have stays : ¬ (k, key) = (0, tabGet s.keyBits 0 0) := fun h => differs (Prod.mk.inj h).2
  have reached : s.underKey 0 0 =
      { recryptFrame key (tabGet s.keyBits 0 0) 0 s with pageKeys := tabSet s.pageKeys 0 (0, tabGet s.keyBits 0 0) } := by
    have off : ¬ s.uncoreOff (0 * 2 ^ 16) = true := by rw [Nat.zero_mul, on]; decide
    have found : s.pageKeys.find? (·.1 == 0) = some (0, k, key) := by rw [keys]; rfl
    rw [State.underKey, if_pos (by decide), show 0 / 2 ^ 16 = 0 from rfl, keyFrame, if_neg off, found]
    exact (if_neg stays).trans (by rw [if_neg differs])
  have present (i : Nat) (hi : i < b.length) : Present s i := by
    refine ⟨by unfold nowhere; omega, ?_⟩
    rw [← on, State.uncoreOff, State.uncoreOff, homeDie, homeDie, show i / 2 ^ 37 = 0 / 2 ^ 37 by omega,
      show decide (i < hbmSize) = decide (0 < hbmSize) from decide_eq_decide.mpr (by unfold hbmSize; omega)]
  have head := recryptFrame_head (n := 8) wf key (tabGet s.keyBits 0 0) present line (by omega) (by decide)
  have same (z : State) (keys : List (Nat × Nat × BitVec 512)) : readHome { z with pageKeys := keys } 0 8 = readHome z 0 8 := by
    rw [readHome_eq_map, readHome_eq_map]; rfl
  rw [tableWord, reached, same, head]

/-! A far load behind an older one. -/

/-- The core knows the first large page of context 0, under key slot 1; the peer-window table of one entry begins there, blank and not
yet reached under any key. An older far load stands at the page, then one at window 3 of endpoint 0xa00. -/
def loadingState : State :=
  ({ State.reset with keyBits := [(1, 13)] }.modCtx 0 fun x => { x with keymap := 2, pwn := 1 }).modDie 0 (fun y => { y with uncore := true })
    |>.modCore 0 (fun x => { x with tlb := [⟨0, 0, true, 0, true, true, 1⟩] })
    |>.modStrand 0 0 fun t => { t with
      pend := [⟨.load 1 8 false, 1, .virt 0 none, none, none, false, 0⟩, ⟨.load 0 0 false, 2, .peer 0xa00 3 0, none, none, false, 0⟩],
      flq := [⟨5, .waiting⟩, ⟨5, .waiting⟩] }

/-- That state once the older load is translated. -/
def translatedState : State := (translateOlder 0 0 ((loadingState.strand 0 0).pend.take 1) loadingState).getD loadingState

theorem loadingState_translates : translateOlder 0 0 ((loadingState.strand 0 0).pend.take 1) loadingState = some translatedState := by
  have some : (translateOlder 0 0 ((loadingState.strand 0 0).pend.take 1) loadingState).isSome = true := by decide +kernel
  obtain ⟨u, hu⟩ := Option.isSome_iff_exists.mp some
  rw [translatedState, hu]; rfl

/-- The state in which the younger load asks. -/
def askingState : State := translatedState.withFresh (translatedState.fresh + 1)

theorem askingState_tables : askingState.mem = [] ∧ askingState.uncoreOff 0 = false ∧ askingState.pageKeys = [(0, 1, 13)] ∧
    tabGet askingState.keyBits 0 0 = 0 ∧ (askingState.ctx 0).pwn = 1 ∧ (askingState.ctx 0).windowLoc 0 = 0 := by decide +kernel

theorem askingState_peer : translatedState.ctxOf 0 = 0 ∧ (0xa00#12 : BitVec 12) ≠ askingState.endpoint ∧ askingState.routed 0xa00 = false := by
  decide +kernel

theorem askingState_tableWord : tableWord askingState 0 = 2975590716427971072 := by
  obtain ⟨mem, on, keys, slot, -, -⟩ := askingState_tables
  obtain ⟨r, line⟩ := blank_line_misread
  have wf : askingState.memWf := by unfold State.memWf; rw [mem]; rfl
  have blank : readHome askingState 0 64 = List.replicate 64 0 := by
    have zero (a : Nat) : askingState.byte a = 0 := by rw [State.byte, mem]; rfl
    rw [readHome_eq_map]; simp only [zero]; rfl
  refine (tableWord_recrypted wf on keys (by rw [slot]; decide +kernel)
    (b := Xts.xorB (bytesOf 16 misread) (bytesOf 16 zeroTweak)) (r := r) (by decide +kernel) (by rw [slot, blank]; exact line)).trans ?_
  decide +kernel

theorem askingState_window : ∃ w, askingState.window 0 0xa00 3 = some w ∧ w.rd = true := by
  obtain ⟨-, -, -, -, one, first⟩ := askingState_tables
  refine ⟨askingState.onlyWindow 0, ?_, ?_⟩
  · rw [window_of_one one]
    refine List.find?_cons_of_pos ?_
    unfold State.onlyWindow; rw [first, askingState_tableWord]; rfl
  · unfold State.onlyWindow; rw [first, askingState_tableWord]; rfl

/-- The endpoint cannot be reached, so the load is refused for reason 1. -/
theorem askingState_refused : peerAccess askingState (.access 0 0) (translatedState.ctxOf 0) 2 0xa00 3 0 (.read 0) =
    (countRefusal 0 askingState, .refused 1) := by
  obtain ⟨ctx, other, unrouted⟩ := askingState_peer
  obtain ⟨w, found, rd⟩ := askingState_window
  rw [ctx, peerAccess_unrouted (op := .read 0) found (Nat.zero_le _) rd (by decide) other unrouted]; rfl

theorem askingState_flq : ((countRefusal 0 askingState).strand 0 0).flq = [⟨5, .waiting⟩, ⟨5, .waiting⟩] ∧
    ((countRefusal 0 askingState).strand 0 0).flqHead = 0 := by
  decide +kernel

theorem loadingState_flq : (loadingState.strand 0 0).flqHead = 0 ∧ (loadingState.strand 0 0).flq = [⟨5, .waiting⟩, ⟨5, .waiting⟩] ∧
    (loadingState.strand 0 0).pend[1]? = some ⟨.load 0 0 false, 2, .peer 0xa00 3 0, none, none, false, 0⟩ := by decide +kernel

theorem loadingState_ready : canPerform loadingState 0 0 1 = true ∧ loadingState.window (loadingState.ctxOf 0) 0xa00 3 = none := by
  decide +kernel

/-- Refutes O29: the translation of an older far load brings the frame of the peer-window table under another key, so that a window which
was none names an endpoint, and the refusal is for reason 1. -/
theorem not_farAccessesDeliver : ¬ Obligations.FarAccessesDeliver := by
  rintro ⟨-, delivers⟩
  obtain ⟨ready, unnamed⟩ := loadingState_ready
  obtain ⟨head, flq, younger⟩ := loadingState_flq
  obtain ⟨flq', head'⟩ := askingState_flq
  obtain ⟨-, -, -, peer⟩ := delivers loadingState 0 0 1 2 0 0 0 0 false 0 0 0 0 ready head.symm ⟨5, .waiting⟩ [⟨5, .waiting⟩] flq rfl
    translatedState loadingState_translates
  obtain ⟨t, ends, -, -, entry, -⟩ := peer 0xa00 3 0 younger unnamed
  obtain rfl : farEnd .refused 0 0 1 loadingState = t := Host.Outcome.next.inj ends
  have reason := farEnd_refused younger ready loadingState_translates askingState_refused flq' head'
  have same := (FlqResult.refused.inj (Option.some.inj (reason.symm.trans entry))).1
  exact absurd same (by decide)

end Sys2Proof.Machine
end
